-- ==== Sys2Proof/Word.lean ====
section
/-!
DEFINITION. The word types of the manual: registers are 64 bits wide (R16), a tile line holds 128 bytes (R204),
a sideband 24 bits (R204), a packet header 256 bits (R124), a control word 128 bits (R139).
-/

namespace Sys2Proof

/-- A byte. -/
abbrev Byte := BitVec 8

/-- A register or instruction word: 64 bits (R16, R217). -/
abbrev Word := BitVec 64

/-- The 128 data bytes of a line (R204): line byte `i` is bits `[8i+7:8i]`. -/
abbrev LineData := BitVec 1024

/-- A 12-bit station address: bay [11:8], kind [7:4], index [3:0] (R11, R202). -/
abbrev StAddr := BitVec 12

/-- A port number, 0 to 255 (R78). -/
abbrev PortNo := BitVec 8

/-- Sparse data by key: the entries given, and a default elsewhere. -/
abbrev Tab (α : Type) := List (Nat × α)

end Sys2Proof
end

