-- ==== Sys2Proof/Syntax.lean ====
section
/-!
DEFINITION. The commands of the block: one constructor of `Instr` per row of spec/opcode_table.json, with the operands that the
outside supplies (a reading, a frame, a control word, a packet's bytes). What the module holds itself (an instruction word in a
station's memory, a mailbox argument, an armed time) is no operand: the command finds it in the state.
-/

namespace Sys2Proof

/-- What one averaging second reports to the module (R69, R397). Fixed-point quantities are in millionths. -/
structure SecondReadings where
  /-- input power averaged over the second, in mW -/
  powerMw : Nat
  /-- input voltage at the end of the second, in mV -/
  vinMv : Nat
  /-- largest deviation of a point-of-load rail, in millionths of a per cent -/
  railDev : Nat
  /-- log10 of the highest pre-FEC bit error ratio, in millionths; none for a ratio of zero -/
  logBer : Option Int
  /-- lowest received OMA in millionths of a dBm; none with no UP lane -/
  omaDbm : Option Int
  deriving DecidableEq, Repr

/-- The data set an Announce message carries for the best master clock algorithm (R22). -/
structure AnnounceData where
  domain : Nat
  priority1 : Nat
  clockClass : Nat
  accuracy : Nat
  variance : Nat
  priority2 : Nat
  identity : Nat
  stepsRemoved : Nat
  sender : Nat
  deriving DecidableEq, Repr

/-- What the header of a received PTP message carries (R22): domain number, sequenceId and correctionField. -/
structure PtpHead where
  domain : Nat
  seqId : Nat
  correction : BitVec 64
  deriving DecidableEq, Repr

/-- Uncorrectable codewords of the last millisecond on a port: all of them, and those that came outside any packet (R122, R134). -/
structure Codewords where
  count : Nat
  outside : Nat
  deriving DecidableEq, Repr

/-- A packet header as it stands on the line, with the payload that a port of early use takes from the line before the trailer (R124,
R141). -/
structure HeaderBytes where
  bits : BitVec 256
  early : List Byte
  deriving DecidableEq, Repr

/-- A packet boundary of a port's egress: the port, and the clk until the schedule places its next send of class 2 or 3, when no pe.send of it
has issued yet (R192, R193). -/
structure EgressTurn where
  port : PortNo
  ahead : Option Nat
  deriving DecidableEq, Repr

/-- Error symbols that arise in a stored HBM line: the line's byte address, and (symbol position, error value) pairs (R359). -/
structure Upset where
  line : Nat
  symbols : List (Nat × BitVec 16)
  /-- the next access to the line meets a parity error on the stack's bus (R342) -/
  bus : Bool := false
  deriving DecidableEq, Repr

/-- A queue of the riser pool (R176). -/
inductive PoolQueue where
  | egress (port : PortNo) (cls : Fin 8)
  | replay (port : PortNo)
  | localDelivery (bay : Fin 16) (cls : Fin 8)
  | mcast (bay : Fin 16) (cls : Fin 8)
  deriving DecidableEq, Repr

/-- The commands (spec/opcode_table.json), in the table's order. -/
inductive Instr where
  | standbyStart (mv : Nat)
  | inputDip
  | inputLow (mv : Nat)
  | inputHigh (mv : Nat)
  | overcurrent
  | presence
  | presenceStable
  | modResetN
  | sensorSample (temps : List Int)
  | averagingSecond (r : SecondReadings)
  | assign (dst : BitVec 8) (a : BitVec 8) (crc : BitVec 16)
  | token (dst : BitVec 8) (crc : BitVec 16)
  | clear (dst : BitVec 8) (crc : BitVec 16)
  | powerOn (dst : BitVec 8) (crc : BitVec 16)
  | powerOff (dst : BitVec 8) (crc : BitVec 16)
  | setTerminal (dst : BitVec 8) (v : BitVec 8) (crc : BitVec 16)
  | seconds (dst : BitVec 8) (sec : BitVec 48) (crc : BitVec 16)
  | statusReq (dst : BitVec 8) (crc : BitVec 16)
  | regRd (dst : BitVec 8) (off : BitVec 32) (crc : BitVec 16)
  | regWr (dst : BitVec 8) (off : BitVec 32) (data : Word) (crc : BitVec 16)
  | railsGood
  | railFail (rail : BitVec 32)
  | selftestDone (fuseBad : Option (BitVec 32)) (sramBad : Option (BitVec 32)) (blown : Bool)
  | imageVerified (readOk : Bool)
  | loadChecks
  | hbmReady (repaired : List Nat) (failed : Option (Fin 8))
  | linkPortsUp
  | linkTimeout
  | timeAcquire
  | jobArm (cancel : Bool)
  | jobCancel
  | jobFix
  | epochStart
  | sync (port : PortNo) (origin : Nat) (head : PtpHead) (twoStep : Bool)
  | delayReq (port : PortNo) (requester : Nat) (head : PtpHead)
  | delayResp (port : PortNo) (rxTime : Nat) (head : PtpHead)
  | announce (port : PortNo) (a : AnnounceData)
  | syncInterval (port : PortNo)
  | delayReqInterval
  | announceInterval
  | syncLoss
  | announceReceiptTimeout
  | ppsEdge (errPs : Int)
  | ppsMissing
  | holdoverLimit
  | holdOk
  | timeOutMark
  | timeOutMarkEnd
  | pourBoundary
  | gateArm (cancel : Bool)
  | gateCancel
  | slotSwArm (slot : Bool) (cancel : Bool)
  | slotSwCancel
  | orderedQuench
  | snapshot (chain : Bool) (w : Word)
  | fvSnapCtl (view : Fin 16) (w : Word)
  | idxDataRead (chain : Bool)
  | idxDataWrite (chain : Bool) (w : Word)
  | readClear (addr : BitVec 20) (size : Nat)
  | registerWrite (addr : BitVec 20) (size : Nat) (w : Word)
  | timeRead
  | powerFine (mw mv ma peakMw busMv : BitVec 32)
  | measRead
  | fuseSvc
  | fuseLock
  | fuseDebugOff
  | fuseKeyset
  | ledgerRead
  | shakeout
  | flashCopy
  | bootPref
  | badOp (op : BitVec 8)
  | fuseProgrammed
  | flashCopyDone
  | shakeoutDone
  | hostLinkUp
  | perstN
  | cxlMemRead (addr : Word) (len : Nat) (upsets : List Upset)
  | cxlMemWrite (addr : Word) (data : List Byte) (enables : BitVec 64) (upsets : List Upset)
  | getVersion
  | getCapabilities
  | negotiateAlgorithms (sm2 sm3 : Bool)
  | getDigests
  | getCertificate (slot : Nat) (offset len : Nat)
  | challenge (slot : Nat) (nonce : BitVec 256)
  | getMeasurements (index : Nat) (nonce : BitVec 256)
  | lightDetected (port : PortNo)
  | equalizeDone (port : PortNo)
  | alignDone (port : PortNo) (skewNs : Nat)
  | fecLock (port : PortNo)
  | width (port : PortNo) (cw : BitVec 128)
  | key (port : PortNo) (cw : BitVec 128)
  | nonce (port : PortNo) (cw : BitVec 128) (own : Word)
  | echo (port : PortNo) (cw : BitVec 128) (netRoundTrip : Option Nat)
  | credit (port : PortNo) (cw : BitVec 128)
  | ready (port : PortNo) (cw : BitVec 128)
  | trainingStepFail (port : PortNo)
  | lossOfLight (port : PortNo)
  | uncorrectableLimit (port : PortNo) (codewords : Codewords)
  | retrainTimeout (port : PortNo)
  | downRetry (port : PortNo)
  | ack (port : PortNo) (cw : BitVec 128)
  | nak (port : PortNo) (cw : BitVec 128)
  | replay (port : PortNo) (cw : BitVec 128)
  | cwClear (port : PortNo) (cw : BitVec 128)
  | escape (port : PortNo) (cw : BitVec 128)
  | nakResend (port : PortNo)
  | ackTimeout (port : PortNo)
  | packetHeader (port : PortNo) (hdr : HeaderBytes)
  | packetForward (port : PortNo)
  | packetTrailer (port : PortNo) (payload : List Byte) (trailer : Word) (fecCorrected fecUncorrectable : Nat)
  | write (port : PortNo)
  | read (port : PortNo)
  | readData (port : PortNo)
  | completion (port : PortNo)
  | notice (port : PortNo)
  | contrib (port : PortNo)
  | egressSelect (turn : EgressTurn)
  | reorderTimeout (port : PortNo)
  | mcastHeadDepart (bay : Fin 16) (cls : Fin 8)
  | ringEntry (ring : Fin 8) (ccw : Bool) (bay : Fin 16)
  | postRelease (st : StAddr)
  | queueRelease (q : PoolQueue)
  | flowletSweep
  | poolWindow (upsets : List Upset)
  | unscheduledAccess (stack : Fin 8) (upsets : List Upset)
  | refreshWindow (stack : Fin 8) (due : Nat) (upsets : List Upset)
  | captureRecord (die : Bool)
  | replayRecord
  | lineEntry (st : StAddr) (qend : Fin 8)
  | lineDepart (st : StAddr)
  | ownedSlotPass (ring : Fin 8) (ccw : Bool) (entry : Fin 2048)
  | signalArrival
  | waitExpired (st : StAddr)
  | instructionResult (st : StAddr)
  | engineCompletion (st : StAddr)
  | nop (st : StAddr)
  | halt (st : StAddr)
  | atClk (st : StAddr)
  | jmp (st : StAddr)
  | bnz (st : StAddr)
  | bz (st : StAddr)
  | loop (st : StAddr)
  | li (st : StAddr)
  | lui (st : StAddr)
  | add (st : StAddr)
  | sub (st : StAddr)
  | and (st : StAddr)
  | or (st : StAddr)
  | xor (st : StAddr)
  | shl (st : StAddr)
  | shr (st : StAddr)
  | sar (st : StAddr)
  | mul (st : StAddr)
  | slt (st : StAddr)
  | sltu (st : StAddr)
  | addi (st : StAddr)
  | ld (st : StAddr)
  | st (st : StAddr)
  | mv (st : StAddr)
  | post (st : StAddr)
  | rdt (st : StAddr)
  | bcPick (st : StAddr)
  | vadd (st : StAddr)
  | vsub (st : StAddr)
  | vmul (st : StAddr)
  | vfma (st : StAddr)
  | vmax (st : StAddr)
  | vmin (st : StAddr)
  | vsel (st : StAddr)
  | vcmp (st : StAddr)
  | vbc (st : StAddr)
  | vsum (st : StAddr)
  | vcvt (st : StAddr)
  | vld (st : StAddr)
  | vst (st : StAddr)
  | crOpen (st : StAddr)
  | crFeed (st : StAddr)
  | crEmit (st : StAddr)
  | crClose (st : StAddr)
  | contribLineTake (st : StAddr) (qend : Fin 8)
  | deadlineDecision (inst : BitVec 12)
  | noticeSend (port : PortNo)
  | rdLoad (st : StAddr)
  | rdRun (st : StAddr)
  | laMode (st : StAddr)
  | laWalkMap (st : StAddr)
  | laWalkPass (st : StAddr)
  | laWalkMerge (st : StAddr)
  | laWalkSkim (st : StAddr)
  | moWload (st : StAddr)
  | moMac (st : StAddr)
  | moDrain (st : StAddr)
  | soRunSort (st : StAddr)
  | soRunLoad (st : StAddr)
  | soMerge (st : StAddr)
  | soTopk (st : StAddr)
  | soSpill (st : StAddr)
  | mrRd (st : StAddr) (upsets : List Upset)
  | mrWr (st : StAddr)
  | mrGather (st : StAddr) (upsets : List Upset)
  | piTake (st : StAddr)
  | peSend (st : StAddr)
  | standbyStop
  | extendedRange (mv : Nat)
  | reservedCtype (port : PortNo) (cw : BitVec 128)
  | doeDiscovery (index : Nat)
  | tableAccess (entry : Nat)
  deriving DecidableEq, Repr

end Sys2Proof
end

