-- ==== Sys2Proof/Decode.lean ====
section
/-!
DEFINITION. The opcode table gives no row any bits: the block's commands come from outside as events, frames, packets and register
accesses, and no word spells one. Station instruction words are data of the block (IMEM) and are decoded where a station issues them
(Sys2Proof/Machine/Operands.lean).
-/

namespace Sys2Proof

/-- The command a word spells by the table's bits: none, since no row of the table gives bits. -/
def decodeTableWord (_nbits _w : Nat) : Option Instr := none

end Sys2Proof
end

