-- ==== Sys2Proof/Config.lean ====
section
/-!
DEFINITION. What manufacture fixes and the manual does not give a value for, and the free values: opaque constants, with no body, so that
nothing can be proved of their values (log entries 2, 3 and 4).
-/

namespace Sys2Proof

/-- An SM2 signature under the module's identity key (R435, R437). Log entry 3. -/
opaque Config.sm2Sign : List Byte → BitVec 512

/-- The four link-key sets, fixed at manufacture and never readable (R142, R437). Log entry 2. -/
opaque Config.linkKey : Nat → BitVec 128

/-- The data key Kd of the stacked memory (R358). Log entry 2. -/
opaque Config.keyData : BitVec 128

/-- The tweak key Kt of the stacked memory (R358). Log entry 2. -/
opaque Config.keyTweak : BitVec 128

/-- The tag key Km of the stacked memory (R358). Log entry 2. -/
opaque Config.keyTag : BitVec 128

/-- The module's identity certificate chain of slot 0, written at manufacture (R435). Log entry 2. -/
opaque Config.certChain : List Byte

/-- The digest of the boot ROM that verifies images: measurement 1 (R436). Log entry 2. -/
opaque Config.bootRomDigest : BitVec 256

/-- The SPDM capabilities flags the module answers with (R435; the manual lists only what is implemented). Log entry 2. -/
opaque Config.spdmCapabilities : BitVec 32

/-- The CDAT structure returned over Table Access (R407). Log entry 2. -/
opaque Config.cdat : Nat → List Byte

/-- The module's PTP clock identity and clock quality fields the manual leaves to the unit (R22). Log entry 2. -/
opaque Config.clockIdentity : Nat

/-- clockAccuracy of the module's own data set (R22). Log entry 2. -/
opaque Config.clockAccuracy : Nat

/-- offsetScaledLogVariance of the module's own data set (R22). Log entry 2. -/
opaque Config.clockVariance : Nat

/-- The fixed latency, in 2^-16 ns, between the timestamp point and the fibre for a port width (R24). Log entry 2. -/
opaque Config.portLatency : Nat → Nat

/-- A free value: 64 bits drawn at a clk for a site; nothing constrains it (log entry 4). -/
opaque Config.freeWord : Nat → Nat → BitVec 64

end Sys2Proof
end

