-- ==== Sys2Proof/Machine/Tab.lean ====
section
/-!
DEFINITION. Tables: sparse data by key, held as a list of (key, value) pairs with rising keys, and bit fields of words.
-/

namespace Sys2Proof.Machine

/-- The entry of key `k`, or `d` where the table lists none. -/
def tget {α : Type} (d : α) (m : Tab α) (k : Nat) : α :=
  match m.find? (fun e => e.1 == k) with
  | some e => e.2
  | none => d

/-- The entry of key `k`, if listed. -/
def tget? {α : Type} (m : Tab α) (k : Nat) : Option α := (m.find? (fun e => e.1 == k)).map (·.2)

/-- Put an entry into a rising list, before the first larger key. -/
def tinsert {α : Type} (k : Nat) (v : α) : Tab α → Tab α
  | [] => [(k, v)]
  | e :: m => if k < e.1 then (k, v) :: e :: m else e :: tinsert k v m

/-- The table without key `k`. -/
def tdel {α : Type} (m : Tab α) (k : Nat) : Tab α := m.filter (fun e => e.1 != k)

/-- The table with `v` at key `k`. -/
def tset {α : Type} (m : Tab α) (k : Nat) (v : α) : Tab α := tinsert k v (tdel m k)

/-- The table with `f` applied at key `k`. -/
def tmod {α : Type} (d : α) (m : Tab α) (k : Nat) (f : α → α) : Tab α := tset m k (f (tget d m k))

/-- Bits `[hi:lo]` of a word, as a number. -/
def fld {n : Nat} (w : BitVec n) (hi lo : Nat) : Nat := (w.toNat >>> lo) % 2 ^ (hi - lo + 1)

/-- Bit `i` of a word. -/
def bit {n : Nat} (w : BitVec n) (i : Nat) : Bool := w.getLsbD i

/-- A number placed at bit `lo` of a 64-bit word. -/
def put (v lo : Nat) : Word := BitVec.ofNat 64 (v <<< lo)

/-- A one-bit field placed at bit `lo`. -/
def putb (b : Bool) (lo : Nat) : Word := if b then BitVec.ofNat 64 (1 <<< lo) else 0

/-- The word with bits `[hi:lo]` replaced. -/
def setFld (w : Word) (hi lo v : Nat) : Word :=
  let m : Nat := (2 ^ (hi - lo + 1) - 1) <<< lo
  BitVec.ofNat 64 ((w.toNat &&& (2 ^ 64 - 1 - m)) ||| ((v % 2 ^ (hi - lo + 1)) <<< lo))

/-- A saturating counter of `n` bits that rises by `k`. -/
def satAdd (n v k : Nat) : Nat := min (v + k) (2 ^ n - 1)

/-- The two's-complement value of the low `n` bits of `v`. -/
def signed (n v : Nat) : Int :=
  let u := v % 2 ^ n
  if 2 ^ (n - 1) ≤ u then (u : Int) - 2 ^ n else u

/-- An integer as an `n`-bit two's-complement field. -/
def unsigned (n : Nat) (i : Int) : Nat := (i % 2 ^ n).toNat

/-- An integer saturated to `n`-bit two's complement. -/
def satSigned (n : Nat) (i : Int) : Int :=
  if i < -(2 ^ (n - 1)) then -(2 ^ (n - 1)) else if 2 ^ (n - 1) - 1 < i then 2 ^ (n - 1) - 1 else i

/-- The little-endian number of a list of bytes. -/
def leNat : List Byte → Nat
  | [] => 0
  | b :: bs => b.toNat + 256 * leNat bs

/-- `n` bytes of a number, least significant first. -/
def leBytes : Nat → Nat → List Byte
  | 0, _ => []
  | n + 1, v => BitVec.ofNat 8 v :: leBytes n (v / 256)

/-- `n` bytes of a number, most significant first. -/
def beBytes (n v : Nat) : List Byte := (leBytes n v).reverse

/-- A big-endian number of bytes. -/
def beNat (bs : List Byte) : Nat := leNat bs.reverse

/-- Byte `i` of a line (R204). -/
def lineByte (d : LineData) (i : Nat) : Byte := d.extractLsb' (8 * i) 8

/-- The 128 bytes of a line, byte 0 first. -/
def lineBytes (d : LineData) : List Byte := (List.range 128).map (lineByte d)

/-- A line from its bytes, short lists filled with zero bytes. -/
def lineOf (bs : List Byte) : LineData := BitVec.ofNat 1024 (leNat (bs.take 128))

/-- Cut a list into pieces of `n` elements, `fuel` of them at most. -/
def pieces {α : Type} (n : Nat) : Nat → List α → List (List α)
  | 0, _ => []
  | fuel + 1, l => if l.isEmpty then [] else l.take n :: pieces n fuel (l.drop n)

/-- Apply a state transformer to each element, in order. -/
def each {σ α : Type} (l : List α) (f : α → σ → σ) (s : σ) : σ := l.foldl (fun s a => f a s) s

end Sys2Proof.Machine
end

