-- ==== Sys2Proof/Machine/Standards.lean ====
section
/-!
DEFINITION. The public standards that the manual names and does not set out: the block cipher SM4, the hash SM3, and the check of an SM2
signature (PRESUMED: their tables and constants are taken from the standards, log entry 3).
-/

namespace Sys2Proof.Machine

/-! ### SM4 (R143, R358) -/

/-- The S-box: row r holds the values at 16r to 16r + 15, the first most significant. -/
def sm4Rows : List Nat :=
  [0xd690e9fecce13db716b614c228fb2c05, 0x2b679a762abe04c3aa44132649860699, 0x9c4250f491ef987a33540b43edcfac62, 0xe4b31ca9c908e89580df94fa758f3fa6,
   0x4707a7fcf37317ba83593c19e6854fa8, 0x686b81b27164da8bf8eb0f4b70569d35, 0x1e240e5e6358d1a225227c3b01217887, 0xd40046579fd327524c3602e7a0c4c89e,
   0xeabf8ad240c738b5a3f7f2cef96115a1, 0xe0ae5da49b341a55ad933230f58cb1e3, 0x1df6e22e8266ca60c02923ab0d534e6f, 0xd5db3745defd8e2f03ff6a726d6c5b51,
   0x8d1baf92bbddbc7f11d95c411f105ad8, 0x0ac13188a5cd7bbd2d74d012b8e5b4b0, 0x8969974a0c96777e65b9f109c56ec684, 0x18f07dec3adc4d2079ee5f3ed7cb3948]

/-- One byte through the S-box. -/
def sm4Sub (x : Nat) : Nat := (sm4Rows.getD (x / 16) 0 >>> (8 * (15 - x % 16))) % 256

/-- Each byte of a word through the S-box. -/
def sm4Tau (x : BitVec 32) : BitVec 32 :=
  (List.range 4).foldl (fun w i => w ||| BitVec.ofNat 32 (sm4Sub ((x >>> (8 * i)).toNat % 256) <<< (8 * i))) 0#32

/-- The mixing of a round of the cipher, and of the key schedule. -/
def sm4Mix (b : BitVec 32) : BitVec 32 := b ^^^ b.rotateLeft 2 ^^^ b.rotateLeft 10 ^^^ b.rotateLeft 18 ^^^ b.rotateLeft 24
def sm4KeyMix (b : BitVec 32) : BitVec 32 := b ^^^ b.rotateLeft 13 ^^^ b.rotateLeft 23

/-- The constant of round i of the key schedule. -/
def sm4Ck (i : Nat) : BitVec 32 := BitVec.ofNat 32 (((List.range 4).map fun j => (4 * i + j) * 7 % 256 * 2 ^ (24 - 8 * j)).sum)

/-- Four words of a block, the most significant first. -/
abbrev Quad := BitVec 32 × BitVec 32 × BitVec 32 × BitVec 32

def quadOf (b : BitVec 128) : Quad :=
  (b.extractLsb' 96 32, b.extractLsb' 64 32, b.extractLsb' 32 32, b.extractLsb' 0 32)

/-- A block from its words in reverse. -/
def blockOf (q : Quad) : BitVec 128 := q.2.2.2 ++ q.2.2.1 ++ q.2.1 ++ q.1

/-- One round: a new word from the oldest and a mix of the other three with a key or constant. -/
def sm4Round (mix : BitVec 32 → BitVec 32) (k : BitVec 32) (q : Quad) : Quad :=
  (q.2.1, q.2.2.1, q.2.2.2, q.1 ^^^ mix (sm4Tau (q.2.1 ^^^ q.2.2.1 ^^^ q.2.2.2 ^^^ k)))

/-- The round keys of the rounds from i on. -/
def sm4Keys : Nat → Nat → Quad → List (BitVec 32)
  | 0, _, _ => []
  | n + 1, i, q =>
    let q := sm4Round sm4KeyMix (sm4Ck i) q
    q.2.2.2 :: sm4Keys n (i + 1) q

/-- The 32 round keys of a key. -/
def sm4Schedule (key : BitVec 128) : List (BitVec 32) :=
  let k := quadOf key
  sm4Keys 32 0 (k.1 ^^^ 0xA3B1BAC6#32, k.2.1 ^^^ 0x56AA3350#32, k.2.2.1 ^^^ 0x677D9197#32, k.2.2.2 ^^^ 0xB27022DC#32)

/-- A block through 32 rounds. -/
def sm4Run (keys : List (BitVec 32)) (b : BitVec 128) : BitVec 128 :=
  blockOf (keys.foldl (fun q k => sm4Round sm4Mix k q) (quadOf b))

/-- SM4: key, then block. -/
def sm4 (key b : BitVec 128) : BitVec 128 := sm4Run (sm4Schedule key) b

/-- Its inverse: the same rounds with the keys in reverse order. -/
def sm4Inv (key b : BitVec 128) : BitVec 128 := sm4Run (sm4Schedule key).reverse b

/-! ### SM3 (R97, R98, R435, R436) -/

/-- The message with its padding. -/
def sm3Pad (m : List Byte) : List Byte :=
  let l := m.length + 1
  m ++ [0x80#8] ++ List.replicate ((120 - l % 64) % 64) 0#8 ++ beBytes 8 (8 * m.length)

def sm3P1 (x : BitVec 32) : BitVec 32 := x ^^^ x.rotateLeft 15 ^^^ x.rotateLeft 23

/-- The expanded words of a block, newest first: `n` more after those there. -/
def sm3Expand : Nat → List (BitVec 32) → List (BitVec 32)
  | 0, w => w
  | n + 1, w =>
    let g (i : Nat) : BitVec 32 := w.getD (i - 1) 0
    sm3Expand n ((sm3P1 (g 16 ^^^ g 9 ^^^ (g 3).rotateLeft 15) ^^^ (g 13).rotateLeft 7 ^^^ g 6) :: w)

/-- The eight chaining words. -/
structure Sm3 where
  a : BitVec 32
  b : BitVec 32
  c : BitVec 32
  d : BitVec 32
  e : BitVec 32
  f : BitVec 32
  g : BitVec 32
  h : BitVec 32
  deriving DecidableEq, Repr

/-- Step j of the compression with its word and the word four later. -/
def sm3Step (j : Nat) (w w4 : BitVec 32) (v : Sm3) : Sm3 :=
  let t : BitVec 32 := if j < 16 then 0x79CC4519#32 else 0x7A879D8A#32
  let s1 := (v.a.rotateLeft 12 + v.e + t.rotateLeft (j % 32)).rotateLeft 7
  let s2 := s1 ^^^ v.a.rotateLeft 12
  let ff := if j < 16 then v.a ^^^ v.b ^^^ v.c else (v.a &&& v.b) ||| (v.a &&& v.c) ||| (v.b &&& v.c)
  let gg := if j < 16 then v.e ^^^ v.f ^^^ v.g else (v.e &&& v.f) ||| (~~~ v.e &&& v.g)
  let t1 := ff + v.d + s2 + (w ^^^ w4)
  let t2 := gg + v.h + s1 + w
  { a := t1, b := v.a, c := v.b.rotateLeft 9, d := v.c,
    e := t2 ^^^ t2.rotateLeft 9 ^^^ t2.rotateLeft 17, f := v.e, g := v.f.rotateLeft 19, h := v.g }

/-- One block of 64 bytes. -/
def sm3Block (v : Sm3) (bs : List Byte) : Sm3 :=
  let words := (List.range 16).map fun i => BitVec.ofNat 32 (beNat ((bs.drop (4 * i)).take 4))
  let w := (sm3Expand 52 words.reverse).reverse
  let x := (List.range 64).foldl (fun v j => sm3Step j (w.getD j 0) (w.getD (j + 4) 0) v) v
  { a := x.a ^^^ v.a, b := x.b ^^^ v.b, c := x.c ^^^ v.c, d := x.d ^^^ v.d, e := x.e ^^^ v.e, f := x.f ^^^ v.f, g := x.g ^^^ v.g, h := x.h ^^^ v.h }

/-- SM3. -/
def sm3 (m : List Byte) : BitVec 256 :=
  let p := sm3Pad m
  let v := (pieces 64 (p.length / 64) p).foldl sm3Block
    { a := 0x7380166F, b := 0x4914B2B9, c := 0x172442D7, d := 0xDA8A0600, e := 0xA96F30BC, f := 0x163138AA, g := 0xE38DEE4D, h := 0xB0FB0E4E }
  v.a ++ v.b ++ v.c ++ v.d ++ v.e ++ v.f ++ v.g ++ v.h

/-! ### SM2 (R97, R98) -/

/-- The recommended curve: prime, coefficients, order, base point. -/
def sm2P : Int := 0xFFFFFFFEFFFFFFFFFFFFFFFFFFFFFFFFFFFFFFFF00000000FFFFFFFFFFFFFFFF
def sm2A : Int := sm2P - 3
def sm2B : Int := 0x28E9FA9E9D9F5E344D5A9E4BCF6509A7F39789F515AB8F92DDBCBD414D940E93
def sm2N : Int := 0xFFFFFFFEFFFFFFFFFFFFFFFFFFFFFFFF7203DF6B21C6052B53BBF40939D54123
def sm2Gx : Int := 0x32C4AE2C1F1981195F9904466A39C9948FE30BBFF2660BE1715A4589334C74C7
def sm2Gy : Int := 0xBC3736A2F4F6779C59BDCEE36B692153D0A9877CC62A474002DF32E52139F0A0

/-- A point in Jacobian coordinates; z = 0 is the point at infinity. -/
structure Point where
  x : Int
  y : Int
  z : Int
  deriving DecidableEq, Repr

/-- Twice a point. -/
def Point.double (q : Point) : Point :=
  let m := 3 * q.x * q.x + sm2A * q.z ^ 4
  let t := 4 * q.x * q.y * q.y
  let x := (m * m - 2 * t) % sm2P
  { x := x, y := (m * (t - x) - 8 * q.y ^ 4) % sm2P, z := 2 * q.y * q.z % sm2P }

/-- The sum of two points. -/
def Point.plus (p q : Point) : Point :=
  if p.z = 0 then q
  else if q.z = 0 then p
  else
    let u := p.x * q.z * q.z % sm2P
    let h := (q.x * p.z * p.z - u) % sm2P
    let v := p.y * q.z ^ 3 % sm2P
    let r := (q.y * p.z ^ 3 - v) % sm2P
    if h = 0 then (if r = 0 then p.double else { x := 1, y := 1, z := 0 })
    else
      let x := (r * r - h ^ 3 - 2 * u * h * h) % sm2P
      { x := x, y := (r * (u * h * h - x) - v * h ^ 3) % sm2P, z := h * p.z * q.z % sm2P }

/-- A multiple of a point, by the 256 bits of the number. -/
def Point.times (k : Int) (p : Point) : Point :=
  (List.range 256).foldl (fun acc i => if k.toNat.testBit (255 - i) then acc.double.plus p else acc.double) { x := 1, y := 1, z := 0 }

/-- A power modulo the prime, by the 256 bits of the exponent. -/
def sm2Power (b : Int) (e : Nat) : Int :=
  (List.range 256).foldl (fun acc i => let sq := acc * acc % sm2P; if e.testBit (255 - i) then sq * b % sm2P else sq) 1

/-- The affine x of a point. -/
def Point.affineX (p : Point) : Int := p.x * sm2Power (p.z * p.z % sm2P) (sm2P - 2).toNat % sm2P

/-- The default distinguishing identifier of the standard: the sixteen characters 1234567812345678. -/
def sm2Id : List Byte := [0x31#8, 0x32#8, 0x33#8, 0x34#8, 0x35#8, 0x36#8, 0x37#8, 0x38#8] ++ [0x31#8, 0x32#8, 0x33#8, 0x34#8, 0x35#8, 0x36#8, 0x37#8, 0x38#8]

/-- The digest that is signed: of the signer's identity and key, then the message. -/
def sm2Digest (key msg : List Byte) : BitVec 256 :=
  let w (v : Int) : List Byte := beBytes 32 v.toNat
  sm3 (beBytes 32 (sm3 ([0x00#8, 0x80#8] ++ sm2Id ++ w sm2A ++ w sm2B ++ w sm2Gx ++ w sm2Gy ++ key)).toNat ++ msg)

/-- SM2 verification: public key (x then y), message, signature (r then s). -/
def sm2Verify (key msg sig : List Byte) : Bool :=
  let num (bs : List Byte) : Int := beNat (bs.take 32)
  let r := num sig
  let s := num (sig.drop 32)
  let t := (r + s) % sm2N
  decide (1 ≤ r) && decide (r < sm2N) && decide (1 ≤ s) && decide (s < sm2N) && t != 0 &&
    (((sm2Digest key msg).toNat + ((Point.times s { x := sm2Gx, y := sm2Gy, z := 1 }).plus
      (Point.times t { x := num key, y := num (key.drop 32), z := 1 })).affineX) % sm2N == r)

end Sys2Proof.Machine
end

