-- ==== Sys2Proof/Machine/State.lean ====
section
/-!
DEFINITION. The state of the module as plain data: every register, queue, counter, table, mode and pin the manual gives it, in groups.
Each field's comment gives its width where the manual fixes one, the rule that names it and its reset value.
-/

namespace Sys2Proof.Machine

/-- Why the machine stops with a fault. The manual gives every event of this block an effect (a quench, FAILED and a main domain that
is off are states), so no meaning raises one. -/
inductive Fault where
  /-- Raised by no meaning: the manual names no event that stops the block without a next state. Safe. -/
  | none
  deriving DecidableEq, Repr

/-- Why a command is refused. -/
inductive Refusal where
  /-- An arm that has no meaning yet. Safe. -/
  | notModelled (mnemonic : String)
  /-- The operands spell no command that can occur (a payload whose length is not the one its header states, a reading of another
  number of sensors): raised by the rows whose operands are lists. Safe: the model stops where nothing can happen. -/
  | illFormed (what : String)
  deriving DecidableEq, Repr

/-- BOOT_STAT.phase (R87). -/
inductive Phase where
  | standby | power | selftest | image | load | hbm | link | time | epoch | run | quenched | failed
  deriving DecidableEq, Repr

/-- TIME_STAT.state (R29). -/
inductive TimeState where
  | free | acquire | locked | holdover | lost
  deriving DecidableEq, Repr

/-- The state field of JOB_STAT, GATE_STAT and SLOT_SW_STAT (R104, R49, R421). `done` is STARTED in JOB_STAT. -/
inductive ArmState where
  | idle | armed | fixed | done | refused | dropped
  deriving DecidableEq, Repr

/-- PORT_STAT.state (R149). -/
inductive PortState where
  | disabled | training | up | retrain | down
  deriving DecidableEq, Repr

/-- The state of a ledger entry (R369). -/
inductive EntryState where
  | idle | opened | due | committed | retracted
  deriving DecidableEq, Repr

/-- ST_STAT.state (R233). -/
inductive SeqState where
  | idle | run | wait | halt | quenched
  deriving DecidableEq, Repr

/-- Who a pool charge belongs to (R180). -/
inductive Requester where
  | port (p : PortNo) (cls : Nat)
  | station (a : StAddr)
  | tap (session : Nat)
  | none
  deriving DecidableEq, Repr

/-- A packet (R124): header, payload bytes, trailer, ingress stamp (R56), and where it came from. -/
structure Packet where
  /-- the 256 header bits; R124 -/
  hdr : BitVec 256
  /-- payload bytes in order; R124 -/
  payload : List Byte
  /-- the trailer; R125 -/
  trailer : Word
  /-- pour of the ingress stamp; R56 -/
  stampPour : Nat
  /-- clk of the ingress stamp; R56 -/
  stampClk : Nat
  /-- ingress port, none for a packet a station of this module originated; R201 -/
  inPort : Option PortNo
  /-- the incoming trailer was a stomped one, or failed after the copy had left; R140 -/
  stomped : Bool
  /-- the payload and trailer have arrived (a cut-through copy waits for them); R140 -/
  complete : Bool
  /-- model identity of the packet, which joins a cut-through copy with its trailer; R140 -/
  ident : Nat
  /-- clk of the ingress stamp, which the latency marks count from; R201 -/
  inClk : Nat := 0
  /-- heat of the ingress stamp; R58, R400 -/
  stampHeat : Nat := 0
  deriving DecidableEq, Repr

/-- Where a packet's way inside the module ends. -/
inductive Goal where
  /-- the egress queue of its target; R160 -/
  | egress
  /-- a multicast copy: the transmit buffers of its targets; R172 -/
  | copy
  /-- a station of this module -/
  | station (a : StAddr)
  /-- the memory station that a request is forwarded to; R346 -/
  | forward (a : StAddr)
  deriving DecidableEq, Repr

/-- A packet in a queue of the pool: its charge and the ring chosen for it. -/
structure QPkt where
  pkt : Packet
  /-- who pays, R180 -/
  owner : Requester
  /-- cells charged, R130, R180 -/
  cells : Nat
  /-- ring chosen for it, R167, R169 -/
  ring : Nat
  /-- clk at which it entered its queue, R201 -/
  since : Nat
  /-- the multicast targets it still serves (port numbers), R172 -/
  targets : List Nat
  /-- targets that have reserved room, R172 -/
  reserved : List Nat
  /-- the station at whose crossbar input it starts its way; R155 -/
  src : Nat := 0
  /-- the bay mask of a multicast packet, on the ring the bays still to reach, 0 for any other; R171, R172 -/
  mask : Nat := 0
  /-- where its way ends -/
  goal : Goal := .egress
  deriving DecidableEq, Repr

/-- A packet in a transit buffer of a ring stop (R160). -/
structure RingPkt where
  q : QPkt
  /-- clk from which each slot that is under way or here may go on; R160 -/
  got : List Nat
  /-- slots that have left; R160 -/
  sent : Nat
  /-- clk at which its first slot came; R160 -/
  came : Nat
  deriving DecidableEq, Repr

/-- A packet at a crossbar input that waits for an output (R156). -/
structure Crossing where
  q : QPkt
  /-- its input: a station's number in the bay, or 256 + 2·ring + direction for a ring stop; R210 -/
  input : Nat
  /-- clk from which each slot of it that is under way or here may cross -/
  got : List Nat
  /-- slots that have crossed -/
  sent : Nat
  deriving DecidableEq, Repr

/-- One crossbar output (R156). -/
structure CrossOut where
  /-- unscheduled packets that wait for it, in order of arrival; reset empty -/
  waiting : List Crossing
  /-- the input it served last; reset 0 -/
  last : Nat
  deriving DecidableEq, Repr

/-- An unscheduled packet that has left a crossbar output and reaches what lies behind it (R155). -/
structure Landing where
  /-- clk at which its last slot is there -/
  due : Nat
  /-- the output: a station's address, or 4,096 + a ring stop's key -/
  out : Nat
  q : QPkt
  deriving DecidableEq, Repr

/-- An incomplete copy of a packet that is leaving a port, with the injection that acts on what is still to come (R140, R153). -/
structure CutCopy where
  ident : Nat
  /-- 0 none, 1 drop, 2 corrupt -/
  act : Nat
  /-- link stage -/
  link : Bool
  sel : Nat
  draw : Nat
  deriving DecidableEq, Repr

/-- The header a port is receiving, between PACKET_HEADER and PACKET_TRAILER. -/
structure RxPacket where
  hdr : BitVec 256
  stampPour : Nat
  stampClk : Nat
  /-- clk of the stamp -/
  inClk : Nat
  /-- heat of the stamp; R58 -/
  stampHeat : Nat
  ident : Nat
  /-- the packet is a PTP packet after a CLEAR control word; R144 -/
  ptp : Bool
  /-- link_seq was below the expected one: discarded silently; R134 -/
  stale : Bool
  /-- the policer dropped it; R198 -/
  dross : Bool
  /-- a negative completion is due for it: status and detail; R126, R431 -/
  bad : Option (Nat × Nat)
  /-- PACKET_FORWARD has routed it before its trailer; R140 -/
  forwarded : Bool
  /-- count of the packet, under which it was deciphered; R143 -/
  count : Nat
  /-- its lines have gone to the port-ingress station before its trailer; R141 -/
  early : Bool
  deriving DecidableEq, Repr

/-- What a line of a received tile carries with it to a Crucible (R271) or to pi.take (R227). -/
structure LineMeta where
  stampPour : Nat
  stampClk : Nat
  /-- the packet header it came in, 0 for a local line -/
  hdr : BitVec 256
  /-- arrival port, none for a local member -/
  port : Option PortNo
  /-- the line is the first of its packet -/
  head : Bool
  deriving DecidableEq, Repr

/-- A line with its sideband (R204). -/
structure Line where
  data : LineData
  /-- sideband: first [23], last [22], header [15:0]; R204 -/
  side : BitVec 24
  /-- clk at which it entered its end; R209 -/
  since : Nat
  origin : Option LineMeta
  /-- owned slot it was assigned at the push, as the clk at which it leaves its end, 8 clk before the slot passes; R208 -/
  slotClk : Option Nat
  deriving DecidableEq, Repr

/-- What a pending result does at its result clk (R219). -/
inductive ResultKind where
  | scalar (r : Nat) (v : Word)
  | line (r : Nat) (data mask : LineData)
  | push (qend : Nat) (l : Line)
  | pushMerge (qend : Nat) (l : Line) (mreg : Nat) (mask : LineData)
  | storeWord (w : Nat) (v : Word)
  | storeLine (k : Nat) (data : LineData)
  deriving DecidableEq, Repr

/-- A result, register write or push waiting for its clk (R219). -/
structure PendingResult where
  due : Nat
  /-- issue clk: of two results in one clk the earlier-issued stands; R219 -/
  issued : Nat
  /-- instruction address, for a violation's place; R231 -/
  place : Nat
  kind : ResultKind
  deriving DecidableEq, Repr

/-- A change on its way to a flag or counter (R221 to R223, R225). -/
inductive SigKind where
  | set (flag : Nat)
  | clear (flag : Nat)
  | add (ctr amount : Nat)
  /-- the amount an issued instruction consumes -/
  | take (ctr amount : Nat)
  deriving DecidableEq, Repr

/-- A signal on the dedicated net (R222). -/
structure Signal where
  /-- the first clk in which a wait sees the change -/
  due : Nat
  target : StAddr
  kind : SigKind
  /-- address of the target station's own instruction that sends it, for a violation's place; R231 -/
  place : Option Nat
  deriving DecidableEq, Repr

/-- The engine operations that run over many clk (R228). -/
inductive EngineKind where
  | crFeed | rdLoadMap | rdRun | laMode | laMap | laPass | laMerge | laSkim | moWload | moMac | moDrain
  | soSort | soLoad | soMerge | soTopk | soSpill | mrRd | mrWr | mrGather | piTake | peSend | postRead
  deriving DecidableEq, Repr

/-- One step of an engine's agenda. -/
inductive EngineStep where
  /-- pop one line of an input end into the operation's taken list -/
  | pop (qend : Nat)
  /-- the engine's own n-th action -/
  | act (n : Nat)
  deriving DecidableEq, Repr

/-- An unfinished engine instruction (R228). -/
structure EngineOp where
  kind : EngineKind
  /-- issue clk -/
  t : Nat
  /-- instruction word -/
  word : Word
  /-- instruction address -/
  place : Nat
  /-- Sa and Sb as read at issue -/
  sa : Word
  sb : Word
  /-- steps to come, each with its clk -/
  agenda : List (Nat × EngineStep)
  /-- lines taken so far, none for a suppressed step -/
  taken : List (Option Line)
  /-- completion clk -/
  finish : Nat
  deriving DecidableEq, Repr

/-- One station (R202, R212, R233, R234). -/
structure Station where
  /-- ST_STAT.state; 4; R233; reset IDLE -/
  seq : SeqState
  /-- ST_STAT.pc; 14; R233; reset 0 -/
  pc : Nat
  /-- ST_STAT.viol_count; 16, saturates; R233; reset 0 -/
  violCount : Nat
  /-- VIOL_REC.valid; 1; R233; reset 0 -/
  violValid : Bool
  /-- VIOL_REC.code; 8; R233; reset 0 -/
  violCode : Nat
  /-- VIOL_REC.place; 15; R233; reset 0 -/
  violPlace : Nat
  /-- VIOL_REC.pour; 32; R233; reset 0 -/
  violPour : Nat
  /-- VIOL_CLK.clk; 22; R233; reset 0 -/
  violClk : Nat
  /-- VIOL_HEAT.heat; 48; R233; reset 0 -/
  violHeat : Nat
  /-- FLAGS; 64; R212, R233; reset 0, image value at each heat slot -/
  flags : Word
  /-- CTR0-CTR7: 32 counters of 16 bits by number; R212, R233; reset 0, image value at each heat slot -/
  ctr : Tab Nat
  /-- S1-S7 by number; 64; R212; reset 0 -/
  sreg : Tab Word
  /-- L0-L7 by number; 1024; R212; reset 0 -/
  lreg : Tab LineData
  /-- queue ends 0-15 (qi0-qi7, qo0-qo7), head first; 32 lines each; R206; reset empty -/
  ends : Tab (List Line)
  /-- QSTAT.hwm by end; 6; R234; reset 0 -/
  hwm : Tab Nat
  /-- QSTAT.slack_used by end; 32, saturates; R211, R234; reset 0 -/
  slackUsed : Tab Nat
  /-- local store by line, 2,048 lines; R212, R213; reset 0 -/
  store : Tab LineData
  /-- instruction memory by address, 16,384 words; R212, R214; reset 0 -/
  imem : Tab Word
  /-- ST_NCPL; 64; R225, R233; reset 0 -/
  ncpl : Word
  /-- ST_PAGE.store; 1; R233; reset 0 -/
  pageStore : Bool
  /-- ST_PAGE.page; 7; R233; reset 0 -/
  page : BitVec 7
  /-- first clk in which the sequencer may consider its next instruction (one a clk, R215; the target of at, R216); reset 0 -/
  readyAt : Nat
  /-- clk at which the instruction at pc was first considered; R224; reset none -/
  waitSince : Option Nat
  /-- stochastic vcvt instructions issued in this pour (n of R248); reset 0 -/
  stochastic : Nat
  /-- results waiting for their clk; R219; reset empty -/
  results : List PendingResult
  /-- unfinished engine instructions, oldest first; R228; reset empty -/
  ops : List EngineOp
  /-- clks at which the read port of the local store is taken; R467; reset empty -/
  readPort : List Nat
  /-- the post buffer, four packets, oldest first; R225; reset empty -/
  postBuf : List Packet
  /-- QUOTA_USE.use of the station; 22; R183, R455; reset 0 -/
  quotaUse : Nat
  /-- counting histogram bank by 64·end + bin; 32, saturates; R257; reset 0 -/
  histCount : Tab Nat
  /-- readable histogram bank (HIST_BIN) by 64·end + bin; 32; R257, R258; reset 0 -/
  histRead : Tab Nat
  /-- HIST_STAT.valid; 1; R258; reset 0 -/
  histValid : Bool
  /-- HIST_STAT.pour; 32; R258; reset 0 -/
  histPour : Nat
  /-- tile header of the last first line by output end since the heat slot began; R257; reset none -/
  histHdr : Tab (Option (BitVec 16))
  deriving DecidableEq, Repr

/-- Power, presence, temperature and health (R60 to R86, R397). -/
structure Power where
  /-- the standby domain runs; 1; R60; reset 0 -/
  standbyOn : Bool
  /-- the main domain is on; 1; R62; reset 0 -/
  mainOn : Bool
  /-- input voltage last reported, in mV; R60; reset 0 (DESIGN CHOICE, log entry 5) -/
  vinMv : Nat
  /-- PRES_B has read low for 100 ms; 1; R71; reset 0 -/
  presStable : Bool
  /-- PWR_STAT.last_down; 8; R63, R68; reset 0x00 -/
  lastDown : Nat
  /-- the standby sample (100 ns) of the last turn-off; R63; reset none -/
  downSample : Option Nat
  /-- PWR_STAT.dips; 16, saturates; R61, R68; reset 0 -/
  dips : Nat
  /-- PWR_STAT.power_10w; 12; R68; reset 0 -/
  power10w : Nat
  /-- PWR_STAT.vin_q; 8; R68; reset 0 -/
  vinQ : Nat
  /-- PWR_STAT.vin_high; 1; R68; reset 0 -/
  vinHigh : Bool
  /-- PWR_STAT.vin_low; 1; R68; reset 0 -/
  vinLow : Bool
  /-- PWR_STAT.valid; 1; R68; reset 0 -/
  valid : Bool
  /-- TEMP_STAT.warn_mask; 7; R86; reset 0 -/
  warnMask : BitVec 7
  /-- TEMP_STAT.trip; 1; R85, R86; reset 0 -/
  trip : Bool
  /-- TEMP_STAT.trip_group; 4; R85, R86; reset 0 -/
  tripGroup : Nat
  /-- sensor temperatures of table 15 by sensor, valid ones only; 8; R461; reset none valid -/
  sensors : Tab Nat
  /-- a critical temperature stands; 1; R64; reset 0 -/
  critical : Bool
  /-- TIME_OUT pin; 1; R76; reset 0 -/
  timeOut : Bool
  /-- clk at which the mark on TIME_OUT ends; R76; reset 0 -/
  markEnd : Nat
  /-- HEALTH.valid; 1; R398; reset 0 -/
  healthValid : Bool
  /-- HEALTH.score; 10; R398; reset 0 -/
  score : Nat
  /-- HEALTH.worst; 4; R398; reset 0 -/
  worst : Nat
  /-- HEALTH_TERMS contributions of terms 1 to 7; 8 each; R398; reset 0 -/
  terms : List Nat
  /-- corrected-read totals at the end of the last ten seconds, newest first; R397; reset empty -/
  corrHist : List Nat
  /-- nak_sent totals at the end of the last ten seconds, newest first; R397; reset empty -/
  nakHist : List Nat
  /-- clks of the entries into RETRAIN of the last hour; R397; reset empty -/
  retrainClks : List Nat
  /-- largest |offset_ps| of the running averaging second; R397; reset 0 -/
  maxOffset : Nat
  deriving DecidableEq, Repr

/-- The management chain (R90 to R92, R427). -/
structure Chain where
  /-- CHAIN_ADDR.addr; 8; R92; reset 0 -/
  addr : BitVec 8
  /-- CHAIN_ADDR.repeat; 1; R92; reset 0 -/
  repeating : Bool
  /-- seconds of the next PPS edge, from a SECONDS frame; 48; R103; reset none -/
  nextSecond : Option Nat
  /-- the chain's own IDX_ADDR; 33; R415; reset 0 -/
  idxAddr : Word
  /-- the chain's own SNAP_CTL scope and unit; R416, R430; reset 0 -/
  snapCtl : Word
  /-- the chain's own SNAP_STAT; R416, R430; reset 0 -/
  snapStat : Word
  /-- the chain's own holding registers by index; 512 of 64; R417, R450; reset 0 -/
  hold : Tab Word
  /-- the holding registers before the last go, and the clk of that go, in which reads return them; R464; reset 0 -/
  holdPrev : Tab Word
  snapClk : Option Nat
  /-- register writes of the chain that met a host write of the same clk: key and data, for the next clk; R430; reset empty -/
  later : List (Nat × Word)
  deriving DecidableEq, Repr

/-- Start-up (R87 to R108). -/
structure Boot where
  /-- BOOT_STAT.phase; 4; R87, R89; reset STANDBY -/
  phase : Phase
  /-- BOOT_STAT.slot_a_code; 8; R89; reset 0xFF -/
  slotACode : Nat
  /-- BOOT_STAT.slot_b_code; 8; R89; reset 0xFF -/
  slotBCode : Nat
  /-- BOOT_STAT.fallback; 1; R89; reset 0 -/
  fallback : Bool
  /-- BOOT_STAT.slot; 1; R89; reset 0 -/
  slot : Bool
  /-- clk at which POWER_ON was accepted (the origin of elapsed_ms); R89; reset 0 -/
  powerOnClk : Nat
  /-- BOOT_STAT.elapsed_ms once frozen; 32; R89; reset none -/
  elapsedFrozen : Option Nat
  /-- slot preferred for this start only by a slot switch; R422; reset none -/
  preferOnce : Option Bool
  /-- slot under verification; R98; reset none -/
  trying : Option Bool
  /-- one slot has already failed in this start; R99; reset 0 -/
  triedOne : Bool
  /-- link-key set held in fuses when LINK began; R102, R109, R142; reset 0 -/
  linkKeyset : Nat
  /-- FAULT_CAUSE.code; 8; R444; reset 0 -/
  faultCode : Nat
  /-- FAULT_CAUSE.unit; 32; R444; reset 0 -/
  faultUnit : Nat
  /-- clk at which FAULT_CAUSE was recorded: of one clk the lowest code stands; R444; reset 0 -/
  faultClk : Nat
  /-- GSTAT.image_ok; 1; R442; reset 0 -/
  imageOk : Bool
  /-- the configuration part of the verified image, written only in LOAD (the shadow); R423; reset empty -/
  shadow : Tab Word
  deriving DecidableEq, Repr

/-- One record of the fuse ledger (R109, R113). -/
structure FuseRecord where
  /-- setting code, 0 when void; 8 -/
  setting : Nat
  /-- ordinal of the change of this setting; 8 -/
  ordinal : Nat
  /-- heat at the change; 48 -/
  heat : Nat
  /-- fabric time at the change, in ninths of a ns, 0 when not valid -/
  time : Nat
  /-- TIME_STAT.state code; 8 -/
  timeState : Nat
  /-- heat number valid; 1 -/
  heatValid : Bool
  /-- old value; 32 -/
  oldV : Nat
  /-- new value; 32 -/
  newV : Nat
  deriving DecidableEq, Repr

/-- The fuse array (R95, R109 to R113). It survives every reset. -/
structure Fuse where
  /-- part code; 16; R1; per unit: 0x9640 (DESIGN CHOICE, log entry 6) -/
  part : BitVec 16
  /-- GSTAT.stepping; 8; R442; per unit: 0 (DESIGN CHOICE, log entry 6) -/
  stepping : BitVec 8
  /-- owner key digest; 256; R98, R438; per unit: 0 (DESIGN CHOICE, log entry 6) -/
  ownerDigest : BitVec 256
  /-- security version counter; 0-64; R109, R438; per unit: 0 (DESIGN CHOICE, log entry 6) -/
  svc : Nat
  /-- boot slot lock: 0 off, 2 A, 3 B; R109, R438; per unit: 0 (DESIGN CHOICE, log entry 6) -/
  lock : Nat
  /-- debug disabled; R109, R438; per unit: 0 (DESIGN CHOICE, log entry 6) -/
  debugOff : Bool
  /-- link-key set; 0-3; R109, R438; per unit: 0 (DESIGN CHOICE, log entry 6) -/
  keyset : Nat
  /-- chain-terminal role; R109, R438; shipped off: 0 -/
  terminal : Bool
  /-- link-key changes used; 0-3; R113; 0 -/
  keysetUsed : Nat
  /-- terminal changes used; 0-8; R113; 0 -/
  terminalUsed : Nat
  /-- the fuse ledger's records, oldest first, at most 96; R109, R113; empty -/
  records : List FuseRecord
  /-- the change under way, its record open; R111, R112; none -/
  opened : Option FuseRecord
  /-- the change under way came over the chain; R110; 0 -/
  byChain : Bool
  /-- the fuse controller is at work on the open record; it stops with the standby domain; R111, R112; 0 -/
  busy : Bool
  deriving DecidableEq, Repr

/-- The configuration flash (R96). It survives every reset. -/
structure Flash where
  /-- slots A and B as one byte table by flash address; unlisted 0xFF; R96; erased (DESIGN CHOICE, log entry 6) -/
  bytes : Tab Byte
  /-- the preferred slot named in the boot record: none when unreadable; R96, R98; none (DESIGN CHOICE, log entry 6) -/
  bootRecord : Option Bool
  /-- a copy in progress: slot, source address, 4 KiB units; R420; none -/
  copying : Option (Bool × Nat × Nat)
  deriving DecidableEq, Repr

/-- Fabric time and its discipline (R19 to R48). -/
structure TimeKeeper where
  /-- TIME_STAT.state; 3; R29; reset FREE -/
  state : TimeState
  /-- fabric time in ninths of a ns (one clk is five of them); R19, R21; reset 0 (DESIGN CHOICE, log entry 5) -/
  now : Nat
  /-- TIME_STAT.offset_ps; 32 signed; R30; reset 0 -/
  offsetPs : Int
  /-- TIME_STAT.source; 4; R30; reset 0 -/
  source : Nat
  /-- TIME_STAT.hold_ok; 1; R30; reset 0 -/
  holdOk : Bool
  /-- clk at which LOCKED began; R30; reset 0 -/
  lockClk : Nat
  /-- clk of the last valid Sync or PPS edge (holdover_ms and the limit run from it); R30, R46; reset 0 -/
  lastValid : Nat
  /-- consecutive intervals with |offset| at most 10 ns; R29; reset 0 -/
  good : Nat
  /-- slewing at 10 ppm on return from holdover: clk of the measurement and |offset| in ps; R48; reset none -/
  slew : Option (Nat × Nat)
  /-- consecutive rejected or missing PPS edges; R27; reset 0 -/
  ppsBad : Nat
  /-- PPS edges rejected (more than 1 µs from the predicted second); R27; reset 0 -/
  ppsRejected : Nat
  /-- PPS edges more than 100 ns from a whole second with time_src 2; R26; reset 0 -/
  ppsFar : Nat
  /-- port from which the boundary clock takes time (PORT_PTP.slave); R457; reset none -/
  slave : Option PortNo
  /-- last Announce by port; R22; reset none -/
  foreign : Tab AnnounceData
  /-- clks of the last two Announce messages of that sender by port, newest first; R22; reset none -/
  announceClks : Tab (List Nat)
  /-- mean path delay by port in 2^-16 ns; R22; reset 0 -/
  pathDelay : Tab Int
  /-- departure time of the outstanding Delay_Req by port and its sequence number; R22; reset none -/
  delaySent : Tab (Nat × Nat)
  /-- t1 and t2 of the last Sync by port, in 2^-16 ns; R22; reset none -/
  lastSync : Tab (Int × Nat)
  /-- sequence numbers of the PTP messages sent, by message kind; R22; reset 0 -/
  seqIds : Tab Nat
  deriving DecidableEq, Repr

/-- Pours, heats, armed starts and swaps (R31 to R55, R104 to R106, R421). -/
structure Job where
  /-- JOB_EPOCH_SEC.seconds; 48; R104; reset 0 -/
  epochSec : BitVec 48
  /-- JOB_EPOCH_NS.nanoseconds; 32; R104; reset 0 -/
  epochNs : BitVec 32
  /-- JOB_STAT.state; 3; R104; reset IDLE -/
  jobState : ArmState
  /-- JOB_STAT.code; 8; R104; reset 0 -/
  jobCode : Nat
  /-- latched E0 in ns; R105; reset 0 -/
  e0 : Nat
  /-- GATE_SWAP_SEC.seconds; 48; R49; reset 0 -/
  swapSec : BitVec 48
  /-- GATE_SWAP_NS.nanoseconds; 32; R49; reset 0 -/
  swapNs : BitVec 32
  /-- GATE_STAT.state; 3; R49; reset IDLE -/
  gateState : ArmState
  /-- GATE_STAT.code; 8; R49; reset 0 -/
  gateCode : Nat
  /-- latched swap time in ns; R50; reset 0 -/
  gateT : Nat
  /-- GATE_STAT.swaps; 32, wraps; R49; reset 0 -/
  swaps : BitVec 32
  /-- SLOT_SW_SEC.seconds; 48; R421; reset 0 -/
  slotSec : BitVec 48
  /-- SLOT_SW_NS.nanoseconds; 32; R421; reset 0 -/
  slotNs : BitVec 32
  /-- SLOT_SW_STAT.state; 3; R421; reset IDLE -/
  slotState : ArmState
  /-- SLOT_SW_STAT.code; 8; R421; reset 0 -/
  slotCode : Nat
  /-- SLOT_SW_STAT.slot; 1; R421; reset 0 -/
  slotArm : Bool
  /-- latched switch time in ns; R422; reset 0 -/
  slotT : Nat
  /-- HEAT_NUM.heat; 48; R32; reset image -/
  heat : Nat
  /-- POUR_NUM.pour; 32; R32; reset 0 -/
  pour : Nat
  /-- heat slots since E0 (the slot ordinal s); R34, R389; reset 0 -/
  slot : Nat
  /-- clk at which the running pour began; R34; reset 0 -/
  pourClk : Nat
  /-- quenches due at the next boundary: clk at which each arose, code and unit (code 0 for an ordered one); R38, R444; reset empty -/
  quenchDue : List (Nat × Nat × Nat)
  /-- the holdover limit has been reached; R47; reset 0 -/
  limitHit : Bool
  deriving DecidableEq, Repr

/-- The host link: indirect pair, snapshots, mailbox, views, SPDM (R407 to R436). -/
structure HostLink where
  /-- IDX_ADDR; 33; R415; reset 0 -/
  idxAddr : Word
  /-- SNAP_CTL scope and unit; R416; reset 0 -/
  snapCtl : Word
  /-- SNAP_STAT; R416; reset 0 -/
  snapStat : Word
  /-- holding registers of block 0x3 by index; 512 of 64; R450; reset 0 -/
  hold : Tab Word
  /-- the holding registers before the last go, and the clk of that go, in which reads return them; R464; reset 0 -/
  holdPrev : Tab Word
  snapClk : Option Nat
  /-- clk and key of the registers the host has written in that clk; R430; reset empty -/
  wrote : List (Nat × Nat)
  /-- a view's snapshot asked for the next pour: SNAP_CTL word by view; R433; reset none -/
  viewAsk : Tab Word
  /-- FV_SNAP_CTL by view; R433; reset 0 -/
  viewCtl : Tab Word
  /-- FV_SNAP_STAT by view; R433; reset 0 -/
  viewStat : Tab Word
  /-- FV_HOLD by 512·view + index; R433; reset 0 -/
  viewHold : Tab Word
  /-- WMBX_STAT.valid; 1; R418; reset 0 -/
  mbValid : Bool
  /-- WMBX_STAT.busy; 1; R418; reset 0 -/
  mbBusy : Bool
  /-- WMBX_STAT.code; 8; R418; reset 0 -/
  mbCode : Nat
  /-- WMBX_STAT.op; 8; R418; reset 0 -/
  mbOp : Nat
  /-- WMBX_DATA0-3 by number; 64; R418; reset 0 -/
  mbData : Tab Word
  /-- the link has trained and accepts configuration requests; R408; reset 0 -/
  linkUp : Bool
  /-- data of the last BAR0 read that completed; 64; R412; reset 0 -/
  readData : Word
  /-- SPDM requests answered so far in the exchange: 0 none, 1 version, 2 capabilities, 3 algorithms; R435, R408; reset 0 -/
  spdm : Nat
  /-- messages of the exchange so far, which a signature covers; R435; reset empty -/
  transcript : List Byte
  /-- SEC_MEAS_GEN.gen; 16, wraps; R451; reset 0 -/
  measGen : BitVec 16
  /-- IMEM bytes of the bay controllers as loaded (measurement 4), in bay order; R436; reset empty -/
  meas4 : List Byte
  /-- header bytes 0x000-0x0BF and body digest of the running image (measurements 2, 3); R436; reset empty -/
  meas23 : List Byte
  deriving DecidableEq, Repr

/-- A notice item waiting to be sent on a port (R376). -/
structure PendingNotice where
  port : Nat
  /-- 1 ENTRY, 2 HEAT_RETRACT, 3 HEAT -/
  kind : Nat
  heat : Nat
  /-- the 128 bits of the item -/
  item : BitVec 128
  /-- clk of the verdict: sent from the next clk on -/
  clk : Nat
  deriving DecidableEq, Repr

/-- The run-time words of one ledger entry (R367). -/
structure LedgerEntry where
  /-- state; 3; R367, R369; reset IDLE -/
  state : EntryState
  /-- cause; 8; R367; reset 0 -/
  cause : Nat
  /-- up_seen; 9; R367; reset 0 -/
  upSeen : Nat
  /-- dec_pour; 32; R367; reset 0 -/
  decPour : Nat
  /-- detail; 32; R367; reset 0 -/
  detail : Nat
  /-- ports whose verdict has been counted in this slot; R370, R377; reset empty -/
  heard : List Nat
  /-- clk of the verdict: of one clk a retraction stands over a commit and the lower cause over the higher; R372; reset 0 -/
  decClk : Nat
  deriving DecidableEq, Repr

/-- The commit ledger and the heat verdict (R366 to R389, R406). -/
structure Ledger where
  /-- run-time words by entry; R367; reset IDLE -/
  entries : Tab LedgerEntry
  /-- ports cleared from every up_ports after a removal; R379; reset empty -/
  upCleared : List Nat
  /-- LEDGER_STAT.stray; 16, saturates; R406; reset 0 -/
  stray : Nat
  /-- LEDGER_STAT.committed; 16; R406; reset 0 -/
  committed : Nat
  /-- LEDGER_STAT.retracted; 16; R406; reset 0 -/
  retracted : Nat
  /-- HEAT_STAT.retracted; 1; R380, R406; reset 0 -/
  heatRetracted : Bool
  /-- a mark after the cutoff: the next slot's heat is held RETRACTED from its clk 0; R382; reset none (cause, detail) -/
  carry : Option (Nat × Nat)
  /-- HEAT_STAT.runs; 5; R406; reset 0 -/
  runs : Nat
  /-- HEAT_STAT.last_commit; 48; R406; reset 0 -/
  lastCommit : Nat
  /-- first retraction of the slot: cause, detail, entry, pour; R381, R383, R389; reset none -/
  first : Option (Nat × Nat × Nat × Nat)
  /-- RETRACT_REC.valid; 1; R406; reset 0 -/
  recValid : Bool
  /-- RETRACT_REC cause, entry, pour and RETRACT_DET.detail; R406; reset 0 -/
  recBody : Nat × Nat × Nat × Nat
  /-- HEAT_RETRACT for the running heat has been flooded; R381; reset 0 -/
  flooded : Bool
  /-- notices decided and not yet sent; R376; reset empty -/
  notices : List PendingNotice
  /-- REC_PTR.records; 32, wraps; R406; reset 0 -/
  records : BitVec 32
  /-- REC_PTR.next; 32; R406; reset 0 -/
  recNext : Nat
  /-- violations of all stations in the slot; 16, saturates; R389; reset 0 -/
  slotViol : Nat
  /-- poisoned scheduled reads in the slot; 16, saturates; R389; reset 0 -/
  slotPoison : Nat
  /-- link-down events in the slot; 16, saturates; R389; reset 0 -/
  slotDown : Nat
  /-- stray notices in the slot; 16, saturates; R389; reset 0 -/
  slotStray : Nat
  /-- first violation of the running slot: station, code, place, pour, clk; R232; reset none -/
  firstViol : Option (Nat × Nat × Nat × Nat × Nat)
  /-- first violation of the run that this slot replays; R232; reset none -/
  prevViol : Option (Nat × Nat × Nat × Nat × Nat)
  /-- first entry retracted with NOTICE_LATE in the slot; R374; reset none -/
  firstLate : Option Nat
  /-- the same of the run that this slot replays; R374; reset none -/
  prevLate : Option Nat
  /-- ports that suffered a link-down event in the slot; R288; reset empty -/
  downPorts : List Nat
  /-- SPARE_SEL_ACTIVE; 64; R391, R406; reset image -/
  spareActive : Word
  /-- SPARE_SEL_PENDING; 64; R391, R406; reset image -/
  sparePending : Word
  deriving DecidableEq, Repr

/-- Capture and replay of inputs (R399 to R403). -/
structure Capture where
  /-- CAP_CFG; 64; R406; reset 0 -/
  cfg : Word
  /-- the CAP_CFG in force since the last slot boundary; R399; reset 0 -/
  cfgInForce : Word
  /-- CAP_LEN.slots; 32; R406; reset 0 -/
  slots : BitVec 32
  /-- CAP_STAT.running; 1; R406; reset 0 -/
  running : Bool
  /-- CAP_STAT.full; 1; R406; reset 0 -/
  full : Bool
  /-- CAP_STAT.lost; 1; R406; reset 0 -/
  lost : Bool
  /-- CAP_STAT.lost_count; 29, saturates; R406; reset 0 -/
  lostCount : Nat
  /-- CAP_STAT.written; 32; R406; reset 0 -/
  written : Nat
  /-- CAP_PORTS0-3 by word; 64; R406; reset 0 -/
  ports : Tab Word
  /-- heat slots recorded so far; R399; reset 0 -/
  done : Nat
  /-- capture buffer of each logic die (0, 1), oldest first, 1 MiB each; an empty one on die 1 stands for a HEAT or END record on die 0, which
  keeps its place among the records of both; R401; reset empty -/
  buffer : Tab (List (List Byte))
  /-- REPLAY_STAT.active; 1; R406; reset 0 -/
  replayActive : Bool
  /-- REPLAY_STAT.ended; 1; R406; reset 0 -/
  ended : Bool
  /-- REPLAY_STAT.diverged; 1; R406; reset 0 -/
  diverged : Bool
  /-- REPLAY_STAT.injected; 32, saturates; R406; reset 0 -/
  injected : Nat
  /-- offset of the next record replayed; R403; reset 0 -/
  replayNext : Nat
  /-- packets discarded under replay mode; R402; reset 0 -/
  replayDrops : Nat
  /-- HEAT records taken: one for each slot; R403; reset 0 -/
  replayHeats : Nat
  deriving DecidableEq, Repr

/-- Block 0x5, fault injection (R452). -/
structure Inject where
  /-- INJ_HBM; 64; R452; reset 0 -/
  hbm : Word
  /-- INJ_PAR; 64; R452; reset 0 -/
  par : Word
  /-- INJ_SCHED; 64; R452; reset 0 -/
  sched : Word
  /-- INJ_TIME; 64; R452; reset 0 -/
  time : Word
  /-- INJ_WIN; 64; R452; reset 0 -/
  win : Word
  /-- INJ_HEAT; 64; R452; reset 0 -/
  heat : Word
  /-- INJ_CNT.hbm; 16, saturates, RC; R452; reset 0 -/
  cntHbm : Nat
  /-- INJ_CNT.parity; 16, saturates, RC; R452; reset 0 -/
  cntPar : Nat
  /-- INJ_CNT.sched; 16, saturates, RC; R452; reset 0 -/
  cntSched : Nat
  /-- INJ_CNT.time; 16, saturates, RC; R452; reset 0 -/
  cntTime : Nat
  /-- INJ_TIME.step_ps has been added in this window; R452; reset 0 -/
  stepDone : Bool
  /-- clk of the last write of block 0x5: the injectors act from the clk after it; R453; reset 0 -/
  armClk : Nat
  deriving DecidableEq, Repr

/-- Configuration parity (R423 to R426). -/
structure Parity where
  /-- PAR_REC.valid; 1, W1C; R426; reset 0 -/
  valid : Bool
  /-- PAR_REC.indirect and address as one key (direct offset, or 2^32 + indirect address); R426; reset 0 -/
  addr : Nat
  /-- PAR_REC.faults; 14, saturates; R426; reset 0 -/
  faults : Nat
  /-- keys of configuration words whose parity is bad; R424; reset empty -/
  bad : List Nat
  /-- faulty words to reload at the next boundary; R424; reset empty -/
  reload : List Nat
  /-- pour ordinals of the faults of each unit in its present count; R425; reset empty -/
  units : Tab (List Nat)
  deriving DecidableEq, Repr

/-- One port: link state, transmit and receive sides, counters (R114 to R154, R189 to R201). -/
structure Port where
  /-- PORT_STAT.state; 3; R149; reset DISABLED -/
  state : PortState
  /-- PORT_STAT.down_reason; 8; R149; reset 0 -/
  downReason : Nat
  /-- PORT_STAT.meas_m; 11; R149; reset 0 -/
  measM : Nat
  /-- length measured by ECHO in the training under way, shown once the port is UP; 11; R121; reset 0 -/
  measNew : Nat
  /-- PORT_STAT.keyset; 2; R149; reset per unit -/
  keyset : Nat
  /-- training step under way, 1 to 7, 0 when none; R119; reset 0 -/
  step : Nat
  /-- parts of step 5 done: WIDTH, KEY, NONCE; R119; reset 0 -/
  handshake : BitVec 3
  /-- clk of the entry into RETRAIN; R122; reset 0 -/
  retrainClk : Nat
  /-- the port carries traffic (from the next boundary after coming up in RUN); R122; reset 0 -/
  carrying : Bool
  /-- nonces sent and received (0 until it comes); 64 each; R143; reset none -/
  nonces : Option (Word × Word)
  /-- session keys for transmit and receive; 128 each; R143; reset none -/
  session : Option (BitVec 128 × BitVec 128)
  /-- count of distinct sequenced packets sent in the session (n of R143); 118; reset 0 -/
  txCount : Nat
  /-- the same of the receive direction; 118; R143; reset 0 -/
  rxCount : Nat
  /-- next link_seq to send; 16; R133; reset 0 -/
  txSeq : Nat
  /-- replay queue: sequenced packets not yet acknowledged, oldest first; R133; reset empty -/
  replayQ : List Packet
  /-- a replay in progress: link_seq of the next packet to resend, and whether REPLAY is still to send; R135; reset none -/
  replaying : Option (Nat × Bool)
  /-- clk at which the oldest unacknowledged packet last advanced; R136; reset 0 -/
  ackClk : Nat
  /-- credits the sender holds by VC; 16; R130; reset 0 -/
  credits : Tab Nat
  /-- expected link_seq; 16; R134; reset 0 -/
  rxSeq : Nat
  /-- WAIT_REPLAY; 1; R134; reset 0 -/
  waitReplay : Bool
  /-- NAKs sent for the expected link_seq; R136; reset 0 -/
  nakCount : Nat
  /-- clk of the last NAK; R134; reset 0 -/
  nakClk : Nat
  /-- a NAK waits for the next packet boundary; R118, R134; reset 0 -/
  nakDue : Bool
  /-- clk at which the port went DOWN; R119; reset 0 -/
  downClk : Nat
  /-- the incomplete copy that is leaving; R140; reset none -/
  cut : Option CutCopy
  /-- the next 16 bytes are the start of a packet (after ESCAPE); R138; reset 0 -/
  escaped : Bool
  /-- the next packet is a PTP packet (after CLEAR); R144; reset 0 -/
  cleared : Bool
  /-- the packet being received; R124; reset none -/
  rx : Option RxPacket
  /-- packets accepted and addressed to this module, oldest first; R124; reset empty -/
  inbox : List QPkt
  /-- packets accepted and to be forwarded, oldest first; R162; reset empty -/
  transit : List QPkt
  /-- cells charged by VC (U); R180, R184; reset 0 -/
  used : Tab Nat
  /-- credits owed by VC (O); R184; reset 0 -/
  owed : Tab Nat
  /-- credits to return in the next control words by VC; R131; reset 0 -/
  giving : Tab Nat
  /-- link, switching and telemetry counters by holding index (R150, R186, R462), saturating; reset 0 -/
  ctr : Tab Nat
  /-- egress queues by class 0, 1, 4-7; R176; reset empty -/
  egress : Tab (List QPkt)
  /-- PTP messages of the port's own boundary clock waiting to leave; R192; reset empty -/
  ptpQ : List Packet
  /-- scheduled packets of pe.send waiting for the line; R192; reset empty -/
  scheduled : List QPkt
  /-- multicast heads this port has selected and reserved room for (bay, class); two largest packets; R172; reset empty -/
  mcastSel : List (Nat × Nat)
  /-- copies received from multicast queues, waiting in the transmit buffer; R172; reset empty -/
  mcastBuf : List QPkt
  /-- clk at which the packet being sent ends; R192; reset 0 -/
  busyUntil : Nat
  /-- clk of the last control word sent; R118; reset 0 -/
  cwClk : Nat
  /-- token buckets of classes 0 and 1 in 2^-10 byte; R196; reset 0, full on entry to RUN -/
  bucket : Tab Nat
  /-- virtual time V; 64; R197; reset 0 -/
  vtime : Word
  /-- finish tags F4 and F5; 64; R197; reset 0 -/
  ftag : Tab Word
  /-- start tags of the heads of classes 4 and 5 once fixed; 64; R197; reset none -/
  stag : Tab Word
  /-- latency marks by class; 32; R201; reset 0 -/
  latMark : Tab Nat
  /-- occupancy marks by class; 22; R201; reset 0 -/
  occMark : Tab Nat
  /-- HWM by class; 64, SH; R201; reset 0 -/
  hwm : Tab Word
  /-- GATE_CNT.active_n; 6; R194; reset image -/
  activeN : Nat
  /-- GATE_CNT.pending_n; 6; R194; reset image -/
  pendingN : Nat
  /-- active gate entries by index; 64; R194; reset image -/
  gateActive : Tab Word
  /-- pending gate entries by index; 64; R194; reset image -/
  gatePending : Tab Word
  /-- PORT_INJ_CTL, WIN, HEAT, SEED by 0-3; 64; R151; reset 0 -/
  inj : Tab Word
  /-- PORT_INJ_CNT.injected; 32, saturates, RC; R151; reset 0 -/
  injCount : Nat
  /-- candidates seen in this pour (ordinal k); R152; reset 0 -/
  injOrdinal : Nat
  /-- packets held back by reorder injections by class, each with the clk at which it may leave; R153; reset none -/
  held : Tab (List (QPkt × Nat))
  deriving DecidableEq, Repr

/-- One flowlet entry (R169, R188). -/
structure Flowlet where
  member : Nat
  ring : Nat
  valid : Bool
  /-- flowlet clock at last use -/
  last : Nat
  deriving DecidableEq, Repr

/-- One stop of one ring in one direction (R160, R187). -/
structure RingStop where
  /-- packets in transit buffers (at most four), oldest first; R160; reset empty -/
  transit : List RingPkt
  /-- packets waiting to enter, in order of arrival; R160; reset empty -/
  waiting : List QPkt
  /-- the five counters of R187 by position; 48, saturating; reset 0 -/
  ctr : Tab Nat
  /-- the free slot that leaves in the running clk is given; R160; reset 0 -/
  given : Bool
  deriving DecidableEq, Repr

/-- A line on its way to an input end (R207, R208, R210). -/
structure Flight where
  /-- clk at which it enters its end; R207, R208 -/
  due : Nat
  station : Nat
  qend : Nat
  line : Line
  /-- for a line that comes by a ring: its ring stop (16·ring + direction), the station that owns the slot and that station's output end;
  R208, R210 -/
  src : Option (Nat × Nat × Nat)
  deriving DecidableEq, Repr

/-- The stamp of a CONTRIB packet of the running slot (R56, R286). -/
structure ContribStamp where
  inst : Nat
  port : PortNo
  /-- rank field of its key; R269 -/
  rank : Nat
  pour : Nat
  clk : Nat
  lines : Nat
  hdr : BitVec 256
  /-- identity of its packet, by which a packet that fails its trailer is taken out again -/
  ident : Nat
  deriving DecidableEq, Repr

/-- Routing, rings, pool and tap sessions (R155 to R188). -/
structure Fabric where
  /-- ports UP as sampled in clk 0 of the pour (the live set); R166; reset empty -/
  liveUp : List Nat
  /-- flowlet entries by index; R169; reset not valid -/
  flowlets : Tab Flowlet
  /-- the flowlet clock; 32, wraps; R169; reset 0 -/
  flowClk : Nat
  /-- ring stops by 32·ring + 16·dir + bay; R160; reset empty -/
  stops : Tab RingStop
  /-- crossbar outputs that scheduled lines of a station have taken in the running clk: target station and sending station; R210;
  reset empty -/
  claims : List (Nat × Nat)
  /-- crossbar outputs that unscheduled packets wait for: by the station's address, or 4,096 + a ring stop's key; R156; reset empty -/
  xbar : Tab CrossOut
  /-- unscheduled packets between a crossbar output and what lies behind it; R155; reset empty -/
  landings : List Landing
  /-- multicast queues by 8·bay + class; R171, R176; reset empty -/
  mcast : Tab (List QPkt)
  /-- packets that have left a queue of the pool and whose cells are still to free, by queue (16·port + class for an egress queue,
  4,096 + 8·bay + class for local delivery, 8,192 + 8·bay + class for a multicast queue); R176, R184; reset empty -/
  leaving : Tab (List QPkt)
  /-- running offset of each tap session; 64; R174, R460; reset 0 -/
  tapOffset : Tab Nat
  /-- cells charged to each tap session; 22; R180, R460; reset 0 -/
  tapUse : Tab Nat
  /-- cells charged to each flask; 22; R183; reset 0 -/
  flaskUse : Tab Nat
  /-- cells charged to the pool; 22; R183; reset 0 -/
  poolUse : Nat
  /-- block numbers in the on-die cache of the free store; at most 4,096; R178; reset empty -/
  cache : List Nat
  /-- head position and count of the free-store ring; R178; reset 0 -/
  ringHead : Nat
  ringCount : Nat
  /-- blocks in use by pool queues, by queue key, in order; R176; reset empty -/
  blocks : Tab (List Nat)
  /-- write and read cell offsets of each pool queue; R176; reset 0 -/
  wrCells : Tab Nat
  rdCells : Tab Nat
  /-- next model identity of a packet; reset 0 -/
  nextIdent : Nat
  /-- lines in flight; R207, R208; reset empty -/
  flights : List Flight
  /-- signals on the net; R222; reset empty -/
  signals : List Signal
  /-- values that flags (key 128·station + flag) and counters (key 128·station + 64 + counter) held before their changes of the last
  18 clk, each with the clk from which the change is seen: what a neighbour still sees; R222; reset empty -/
  past : List (Nat × Nat × Nat)
  /-- stamps of the contributions that ports have delivered in the slot, in order; R56, R286; reset empty -/
  stamped : List ContribStamp
  deriving DecidableEq, Repr

/-- One policer (R198, R200). -/
structure Policer where
  /-- tokens in 2^-10 byte; R198; reset 0, full on entry to RUN -/
  tokens : Nat
  /-- DROSS_PKT.packets; 48, saturates; R200; reset 0 -/
  packets : Nat
  /-- DROSS_BYTES.bytes; 48, saturates; R200; reset 0 -/
  bytes : Nat
  deriving DecidableEq, Repr

/-- An unscheduled request waiting for an access slot or a regulator (R346, R347, R356). -/
structure MemRequest where
  addr : Nat
  len : Nat
  isWrite : Bool
  data : List Byte
  /-- bytes of a host's line write that are enabled, all ones for a whole line; R409 -/
  enables : BitVec 64
  /-- regulator charged: the region's flask, or 16 for the host; R356 -/
  reg : Nat
  /-- the packet asked by, none for a host access; R346 -/
  pkt : Option Packet
  /-- its charge in the pool; R180 -/
  owner : Requester
  /-- admitted by the regulator; R356 -/
  admitted : Bool
  /-- the station that performs it; R346 -/
  station : StAddr
  /-- its packet is on the way to that station; R346 -/
  coming : Bool := false
  deriving DecidableEq, Repr

/-- One entry of the lost list (R361, R365). -/
structure LostLine where
  line : Nat
  confirmed : Bool
  detect : Bool
  deriving DecidableEq, Repr

/-- One stack's registers (R365). -/
structure StackRegs where
  /-- MEM_STAT.ready; 1; reset 0 -/
  ready : Bool
  /-- MEM_STAT.lanes_repaired; 8; reset 0 -/
  repaired : Nat
  /-- MEM_ERR0.valid; 1, W1C; reset 0 -/
  errValid : Bool
  /-- MEM_ERR0 kind, source, detect, line; reset 0 -/
  err0 : Word
  /-- MEM_ERR1; 64; reset 0 -/
  err1 : Word
  /-- MEM_ERR2; 64; reset 0 -/
  err2 : Word
  /-- the seven counters of R365 by position; saturating; reset 0 -/
  ctr : Tab Nat
  /-- refresh commands issued so far by pseudo-channel, modulo 64: the next goes to this bank; R348; reset 0 -/
  bank : Tab Nat
  /-- chunks the patrol scrub has passed, per pseudo-channel: it goes on at this number modulo the channel's chunks; R362; reset 0 -/
  scrub : Tab Nat
  /-- extra refreshes still to be taken from scheduled bank windows, by pseudo-channel; R43; reset 0 -/
  extra : Tab Nat
  /-- one above the ordinal of the last pour counted in displaced; R43; reset 0 -/
  dispPour : Nat
  deriving DecidableEq, Repr

/-- A memory access made in an access slot (R347). -/
structure Access where
  /-- clk at which its slot starts -/
  clk : Nat
  stack : Nat
  channel : Nat
  bank : Nat
  row : Nat
  /-- made by the schedule -/
  sched : Bool
  deriving DecidableEq, Repr

/-- The stacked memory (R342 to R365). -/
structure StackedMem where
  /-- HBM contents (plaintext) by byte address, in canonical form, unlisted 0; R343; reset empty (DESIGN CHOICE, log entry 7) -/
  cells : List Host.Cell
  /-- error symbols standing in stored lines, by line address; R359; reset none -/
  errors : Tab (List (Nat × BitVec 16))
  /-- lines whose next access meets a parity error on the bus; R342; reset none -/
  busErr : List Nat
  /-- lines the scrub has corrected, with the plaintext it writes back in their next legal slot; R360; reset none -/
  writeBack : List (Nat × List Byte)
  /-- the lost list, oldest first, at most 64; R361; reset empty -/
  lost : List LostLine
  /-- registers of each stack; R365; reset 0 -/
  regs : Tab StackRegs
  /-- MEM_BW_USE.used by flask, 16 for the host; 29; R356; reset 0 -/
  used : Tab Nat
  /-- requests waiting, in arrival order; R346, R356; reset empty -/
  waiting : List MemRequest
  /-- accesses of the last 13 slots; R347; reset empty -/
  recent : List Access
  /-- MEM_SHAKE.busy; 1; R363; reset 0 -/
  shakeBusy : Bool
  /-- MEM_SHAKE.flask; 4; R363; reset 0 -/
  shakeFlask : Nat
  /-- spans still to clear, first and end byte address (MEM_SHAKE.remaining counts their chunks); 48; R363; reset empty -/
  shakeLeft : List (Nat × Nat)
  /-- on-die copies of the pickup sequence words by region; 64; R410; reset 0 -/
  pickCopy : Tab Word
  /-- copies latched at the last boundary by region; 64; R410; reset 0 -/
  pickLatch : Tab Word
  deriving DecidableEq, Repr

/-- A 320-bit long accumulator (R273): `v` is the integer V. -/
structure LongAcc where
  nan : Bool
  pinf : Bool
  ninf : Bool
  v : Int
  deriving DecidableEq, Repr

/-- A contribution as a Crucible takes it (R270, R284). -/
structure Contribution where
  stampPour : Nat
  stampClk : Nat
  /-- lines taken; R280 -/
  lines : Nat
  /-- lines taken that were stamped by the deadline; R286 -/
  timely : Nat
  /-- input end its lines come through -/
  qend : Nat
  bad : Bool
  /-- rank carried in the key's 20-bit rank field when no member entry names the arrival; R284 -/
  rank : Nat
  port : Option PortNo
  hdr : BitVec 256
  /-- its lines, in order; empty for the sums that are kept in the accumulators alone -/
  data : List LineData
  deriving DecidableEq, Repr

/-- An instance held by a Crucible (R279 to R287). -/
structure OpenInst where
  /-- clk from which it is open (issue + 8); R279 -/
  openAt : Nat
  /-- contributions by rank; R284 -/
  got : Tab Contribution
  /-- accumulator elements in arrival order; R272 -/
  arrival : Tab (BitVec 32)
  /-- long accumulators; R273 -/
  long : Tab LongAcc
  /-- the deadline decision has been taken; R287 -/
  decided : Bool
  /-- the instance is retracted; R287 -/
  retracted : Bool
  /-- ranks declared absent or late at the decision; R280, R287 -/
  missed : List Nat
  /-- ranks whose late contribution has received LATE; R287 -/
  lateSent : List Nat
  /-- a count exchange whose sums exceed the capacity; R283 -/
  exceeded : Bool
  /-- cr.close has issued: its rows are free, its decision may be still to come; R279, R286 -/
  closed : Bool
  deriving DecidableEq, Repr

/-- One Crucible (R259, R260, R292). -/
structure Crucible where
  /-- instances held, by instance; R264; reset none -/
  insts : Tab OpenInst
  /-- how far the lines taken fill its rate, in 1/128 clk; R259; reset 0 -/
  work : Nat
  /-- CR_STAT.mismatches; 16, saturates; R292; reset 0 -/
  mismatches : Nat
  /-- CR_STAT.absences; 16, saturates; R292; reset 0 -/
  absences : Nat
  /-- CR_STAT.late; 16, saturates; R292; reset 0 -/
  late : Nat
  /-- CR_LAST; 64; R292; reset 0 -/
  last : Word
  deriving DecidableEq, Repr

/-- Run-time fields of a member entry (R262). -/
structure Member where
  /-- live has fallen to 0; R262, R288 -/
  removed : Bool
  /-- absences; 2; R262 -/
  absences : Nat
  /-- absences as the heat slot began; R262 -/
  before : Nat
  /-- declared absent in this heat slot; R262 -/
  absent : Bool
  /-- dropped; 16, saturates; R262 -/
  dropped : Nat
  deriving DecidableEq, Repr

/-- One Riddle (R307 to R313). -/
structure Riddle where
  /-- the program loaded, sixteen words by index; R307, R313; reset all END -/
  prog : Tab Word
  /-- the bitmap by line of 1,024 bits; R307; reset 0 -/
  bitmap : Tab LineData
  /-- RD_STAT.overflows; 16, saturates; R313; reset 0 -/
  overflows : Nat
  /-- RD_STAT.passed; 48, saturates; R313; reset 0 -/
  passed : Nat
  /-- program lines loaded and held from a later clk, oldest first; R309; reset empty -/
  coming : List (Nat × Tab Word)
  deriving DecidableEq, Repr

/-- A lane map (R329): position of each lane, or none. -/
structure LaneMap where
  g0 : Nat
  alloc : Nat
  fa : Nat
  fw : Nat
  ordinal : Nat
  pos : List (Option Nat)
  /-- the two map sides over the pass's positions -/
  xbits : List Bool
  wbits : List Bool
  deriving DecidableEq, Repr

/-- A compacted vector on the Ladle-to-Mould path (R330, R331). -/
structure PathVec where
  /-- clk from which the Mould can take it -/
  since : Nat
  ordinal : Nat
  g0 : Nat
  alloc : Nat
  fa : Nat
  fw : Nat
  /-- element codes by lane -/
  elems : List Nat
  /-- groups tagged by a special element -/
  tags : List Nat
  deriving DecidableEq, Repr

/-- One Ladle (R325 to R341). -/
structure Ladle where
  /-- LA_MODE; 12; R325, R341; reset 0 -/
  mode : Word
  /-- current lane map; R329; reset none -/
  map : Option LaneMap
  /-- map ordinal; 16, wraps; R329; reset 0 -/
  ordinal : Nat
  /-- LA_STAT dropped, outside, specials, collisions; 16 each, saturate; R341; reset 0 -/
  dropped : Nat
  outside : Nat
  specials : Nat
  collisions : Nat
  /-- the open list of each layer that has one: the misses found (LA_SKIM.found) and the neurons it holds (LA_SKIM.listed is their
  number); R337, R341; reset none -/
  lists : Tab (Nat × List Nat)
  /-- the layer of the last SKIM, whose list LA_SKIM shows; R337, R341; reset 0 -/
  skimLayer : Nat
  /-- compacted vectors on the weight path; 32 at most; R330; reset empty -/
  pathW : List PathVec
  /-- compacted vectors on the activation path; 32 at most; R330; reset empty -/
  pathA : List PathVec
  deriving DecidableEq, Repr

/-- One weight bank of a Mould (R322, R341). -/
structure Bank where
  /-- MO_BANK.loaded; 1; R341; reset 0 -/
  loaded : Bool
  /-- MO_BANK.ladle; 1; R341; reset 0 -/
  ladle : Bool
  /-- MO_BANK.alloc; 3; R341; reset 0 -/
  alloc : Nat
  /-- MO_BANK.fa, fw; 4 each; R341; reset 0 -/
  fa : Nat
  fw : Nat
  /-- MO_BANK.g0; 32; R341; reset 0 -/
  g0 : Nat
  /-- MO_BANK.ordinal; 16; R341; reset 0 -/
  ordinal : Nat
  /-- element codes by column, D each; R322; reset empty -/
  cols : Tab (List Nat)
  /-- tagged groups by column; R331; reset empty -/
  tags : Tab (List Nat)
  deriving DecidableEq, Repr

/-- An add on its way to an accumulator row (R324). -/
structure RowAdd where
  /-- clk at which the row is written -/
  due : Nat
  /-- last group added -/
  top : Nat
  /-- the row starts at +0 -/
  clear : Bool
  /-- group sums by column, in ascending group; none until the vector is taken -/
  sums : Option (List (List (BitVec 32)))
  deriving DecidableEq, Repr

/-- One accumulator row of a Mould (R323). -/
structure AccRow where
  /-- FP32 values by column; R323; reset +0 -/
  vals : Tab (BitVec 32)
  /-- last_g; R323; reset none -/
  lastG : Option Nat
  /-- adds under way, oldest first; R324; reset empty -/
  adds : List RowAdd
  deriving DecidableEq, Repr

/-- One Mould (R321 to R324, R341). -/
structure Mould where
  banks : Tab Bank
  /-- accumulator rows by number, 256; R323; reset +0, none -/
  rows : Tab AccRow
  /-- MO_STAT.vectors; 32, saturates; R341; reset 0 -/
  vectors : Nat
  deriving DecidableEq, Repr

/-- A record of a sort engine (R294). -/
structure Rec where
  key : Nat
  rank : Nat
  index : Nat
  fill : Bool
  deriving DecidableEq, Repr

/-- The run of one run slot (R298, R306). -/
structure RunSlot where
  recs : List Rec
  /-- SO_SLOT.kt; 3; R306; reset 0 -/
  kt : Nat
  /-- SO_SLOT.dir; 1; R306; reset 0 -/
  dir : Bool
  /-- SO_SLOT.sorted; 1; R306; reset 0 -/
  sorted : Bool
  deriving DecidableEq, Repr

/-- One sort engine (R293 to R306). -/
structure Sorter where
  slots : Tab RunSlot
  /-- SO_STAT.disorder; 16, saturates; R306; reset 0 -/
  disorder : Nat
  /-- SO_STAT.short_segs; 16, saturates; R306; reset 0 -/
  shortSegs : Nat
  deriving DecidableEq, Repr

/-- The tag of a staging buffer (R335). -/
structure StageTag where
  buffer : Nat
  heat : Nat
  pour : Nat
  /-- rows fetched into it -/
  rows : Nat
  /-- it was read in the pour it is tagged for -/
  read : Bool
  deriving DecidableEq, Repr

/-- Run-time words of a layer entry (R334). -/
structure Layer where
  detected : Nat
  lost : Nat
  madeUp : Nat
  warnFlag : Bool
  /-- rows fetched ahead and rows squashed in the job; R334, R336 -/
  pfRows : Nat
  sqRows : Nat
  /-- staging buffer tags; no command of the module names a staging buffer, so none sets one; R335, log entry 31 -/
  tags : List StageTag
  deriving DecidableEq, Repr

/-- What the module puts on its pins and links. -/
inductive Emit where
  /-- a chain frame toward the tray controller: sender address, code, payload -/
  | chainUp (addr : BitVec 8) (code : Nat) (payload : List Byte)
  /-- a frame the module sends or repeats on CHAIN_DN -/
  | chainDown (addr : BitVec 8) (code : Nat) (payload : List Byte)
  /-- a control word on a port -/
  | control (port : PortNo) (cw : BitVec 128)
  /-- a packet on a port as it stands on the line: header, payload, trailer, enciphered unless it goes in the clear (R143, R144) -/
  | packet (port : PortNo) (hdr : BitVec 256) (payload : List Byte) (trailer : Word)
  /-- a packet that starts to leave before its trailer has arrived -/
  | packetStart (port : PortNo) (hdr : BitVec 256) (ident : Nat)
  /-- its end: payload and the trailer sent, stomped or good -/
  | packetEnd (port : PortNo) (ident : Nat) (payload : List Byte) (trailer : Word)
  /-- the lasers go dark -/
  | dark
  /-- a PTP message on a port: kind, time field, sequence number -/
  | ptp (port : PortNo) (kind : Nat) (time : Nat) (seqId : Nat)
  /-- data returned to the host over CXL.mem; poisoned or not -/
  | cxlData (data : List Byte) (poison : Bool)
  /-- a CXL.mem write answered -/
  | cxlDone
  /-- a DOE response: object type, code, body -/
  | doe (kind : Nat) (code : Nat) (body : List Byte)
  /-- CXL configuration requests are accepted from now on -/
  | cxlReady
  deriving DecidableEq, Repr

/-- The whole state of the module. -/
structure State where
  /-- the commands waiting, first in first out (the model's own); reset empty -/
  pending : List Instr
  /-- clk since the model's origin, counted by every tick; R21; reset 0 -/
  clk : Nat
  pwr : Power
  chain : Chain
  boot : Boot
  fuse : Fuse
  flash : Flash
  time : TimeKeeper
  job : Job
  host : HostLink
  /-- configuration words in force, by direct offset or 2^32 + indirect address; 64; R465, R468; reset 0 ("image") -/
  cfg : Tab Word
  par : Parity
  ledger : Ledger
  cap : Capture
  inj : Inject
  /-- the 256 ports by number; R116 -/
  ports : Tab Port
  fab : Fabric
  /-- policers by 8·flask + class; R198 -/
  policers : Tab Policer
  mem : StackedMem
  /-- the stations by address; R202 -/
  stations : Tab Station
  /-- Crucibles by station address; R259 -/
  crucibles : Tab Crucible
  /-- member entries' run-time fields by entry; R262 -/
  members : Tab Member
  /-- Riddles by station address; R293 -/
  riddles : Tab Riddle
  /-- Ladles by station address; R314 -/
  ladles : Tab Ladle
  /-- Moulds by station address; R321 -/
  moulds : Tab Mould
  /-- sort engines by station address; R293 -/
  sorters : Tab Sorter
  /-- layer entries' run-time words by layer; R334 -/
  layers : Tab Layer
  /-- what the module has put on its pins and links, newest first (the model's own); reset empty -/
  out : List Emit
  deriving DecidableEq, Repr

/-- A station after reset (R233, R466). -/
def Station.reset : Station :=
  { seq := .idle, pc := 0, violCount := 0, violValid := false, violCode := 0, violPlace := 0, violPour := 0, violClk := 0,
    violHeat := 0, flags := 0, ctr := [], sreg := [], lreg := [], ends := [], hwm := [], slackUsed := [], store := [], imem := [],
    ncpl := 0, pageStore := false, page := 0, readyAt := 0, waitSince := none, stochastic := 0, results := [], ops := [],
    readPort := [], postBuf := [], quotaUse := 0, histCount := [], histRead := [], histValid := false,
    histPour := 0, histHdr := [] }

/-- The power group when the standby domain has not started (R68, R86). -/
def Power.reset : Power :=
  { standbyOn := false, mainOn := false, vinMv := 0, presStable := false, lastDown := 0, downSample := none, dips := 0,
    power10w := 0, vinQ := 0, vinHigh := false, vinLow := false, valid := false, warnMask := 0, trip := false, tripGroup := 0,
    sensors := [], critical := false, timeOut := false, markEnd := 0, healthValid := false, score := 0, worst := 0, terms := [],
    corrHist := [], nakHist := [], retrainClks := [], maxOffset := 0 }

/-- The chain group after the standby domain starts (R90, R92). -/
def Chain.reset : Chain :=
  { addr := 0, repeating := false, nextSecond := none, idxAddr := 0, snapCtl := 0, snapStat := 0, hold := [], holdPrev := [],
    snapClk := none, later := [] }

/-- Start-up after reset (R89, R444). -/
def Boot.reset : Boot :=
  { phase := .standby, slotACode := 0xFF, slotBCode := 0xFF, fallback := false, slot := false, powerOnClk := 0,
    elapsedFrozen := none, preferOnce := none, trying := none, triedOne := false, linkKeyset := 0, faultCode := 0, faultUnit := 0, faultClk := 0,
    imageOk := false, shadow := [] }

/-- The fuse array of the modelled unit as it leaves manufacture (log entry 6). -/
def Fuse.reset : Fuse :=
  { part := 0x9640, stepping := 0, ownerDigest := 0, svc := 0, lock := 0, debugOff := false, keyset := 0, terminal := false,
    keysetUsed := 0, terminalUsed := 0, records := [], opened := none, byChain := false, busy := false }

/-- The configuration flash of the modelled unit: erased, boot record unreadable (log entry 6). -/
def Flash.reset : Flash := { bytes := [], bootRecord := none, copying := none }

/-- Fabric time after reset (R29, R30). -/
def TimeKeeper.reset : TimeKeeper :=
  { state := .free, now := 0, offsetPs := 0, source := 0, holdOk := false, lockClk := 0, lastValid := 0, good := 0,
    slew := none, ppsBad := 0, ppsRejected := 0, ppsFar := 0, slave := none, foreign := [], announceClks := [], pathDelay := [], delaySent := [],
    lastSync := [], seqIds := [] }

/-- Job control after reset (R49, R104, R421). -/
def Job.reset : Job :=
  { epochSec := 0, epochNs := 0, jobState := .idle, jobCode := 0, e0 := 0, swapSec := 0, swapNs := 0, gateState := .idle,
    gateCode := 0, gateT := 0, swaps := 0, slotSec := 0, slotNs := 0, slotState := .idle, slotCode := 0, slotArm := false,
    slotT := 0, heat := 0, pour := 0, slot := 0, pourClk := 0, quenchDue := [], limitHit := false }

/-- The host link after reset (R415 to R418). -/
def HostLink.reset : HostLink :=
  { idxAddr := 0, snapCtl := 0, snapStat := 0, hold := [], holdPrev := [], snapClk := none, wrote := [], viewAsk := [], viewCtl := [], viewStat := [], viewHold := [],
    mbValid := false, mbBusy := false, mbCode := 0, mbOp := 0, mbData := [], linkUp := false, readData := 0, spdm := 0,
    transcript := [], measGen := 0, meas4 := [], meas23 := [] }

/-- A ledger entry at the start of a slot (R369). -/
def LedgerEntry.reset : LedgerEntry := { state := .idle, cause := 0, upSeen := 0, decPour := 0, detail := 0, heard := [], decClk := 0 }

/-- The ledger after reset (R406). -/
def Ledger.reset : Ledger :=
  { entries := [], upCleared := [], stray := 0, committed := 0, retracted := 0, heatRetracted := false, carry := none, runs := 0,
    lastCommit := 0, first := none, recValid := false, recBody := (0, 0, 0, 0), flooded := false, notices := [], records := 0,
    recNext := 0, slotViol := 0, slotPoison := 0, slotDown := 0, slotStray := 0, firstViol := none, prevViol := none,
    firstLate := none, prevLate := none, downPorts := [], spareActive := 0, sparePending := 0 }

/-- Capture and replay after reset (R406). -/
def Capture.reset : Capture :=
  { cfg := 0, cfgInForce := 0, slots := 0, running := false, full := false, lost := false, lostCount := 0, written := 0, ports := [],
    done := 0, buffer := [], replayActive := false, ended := false, diverged := false, injected := 0, replayNext := 0,
    replayDrops := 0, replayHeats := 0 }

/-- Fault injection after reset (R452). -/
def Inject.reset : Inject :=
  { hbm := 0, par := 0, sched := 0, time := 0, win := 0, heat := 0, cntHbm := 0, cntPar := 0, cntSched := 0, cntTime := 0,
    stepDone := false, armClk := 0 }

/-- Configuration parity after reset (R426). -/
def Parity.reset : Parity := { valid := false, addr := 0, faults := 0, bad := [], reload := [], units := [] }

/-- A port after reset (R149). -/
def Port.reset : Port :=
  { state := .disabled, downReason := 0, measM := 0, measNew := 0, keyset := 0, step := 0, handshake := 0, retrainClk := 0, carrying := false,
    nonces := none, session := none, txCount := 0, rxCount := 0, txSeq := 0, replayQ := [], replaying := none, ackClk := 0,
    credits := [], rxSeq := 0, waitReplay := false, nakCount := 0, nakClk := 0, nakDue := false, downClk := 0, cut := none, escaped := false, cleared := false, rx := none,
    inbox := [], transit := [], used := [], owed := [], giving := [], ctr := [], egress := [], ptpQ := [], scheduled := [],
    mcastSel := [], mcastBuf := [], busyUntil := 0, cwClk := 0, bucket := [], vtime := 0, ftag := [], stag := [], latMark := [],
    occMark := [], hwm := [], activeN := 0, pendingN := 0, gateActive := [], gatePending := [], inj := [], injCount := 0,
    injOrdinal := 0, held := [] }

/-- A crossbar output that nothing waits for. -/
def CrossOut.reset : CrossOut := { waiting := [], last := 0 }

/-- A ring stop after reset (R187, R458). -/
def RingStop.reset : RingStop := { transit := [], waiting := [], ctr := [], given := false }

/-- Routing and pool after reset. -/
def Fabric.reset : Fabric :=
  { liveUp := [], flowlets := [], flowClk := 0, stops := [], claims := [], xbar := [], landings := [], mcast := [], leaving := [], tapOffset := [],
    tapUse := [], flaskUse := [], poolUse := 0, cache := [], ringHead := 0, ringCount := 0, blocks := [], wrCells := [],
    rdCells := [], nextIdent := 0, flights := [], signals := [], past := [], stamped := [] }

/-- A policer after reset (R200). -/
def Policer.reset : Policer := { tokens := 0, packets := 0, bytes := 0 }

/-- A stack's registers after reset (R365). -/
def StackRegs.reset : StackRegs :=
  { ready := false, repaired := 0, errValid := false, err0 := 0, err1 := 0, err2 := 0, ctr := [], bank := [],
    scrub := [], extra := [], dispPour := 0 }

/-- The stacked memory after reset. -/
def StackedMem.reset : StackedMem :=
  { cells := [], errors := [], busErr := [], writeBack := [], lost := [], regs := [], used := [], waiting := [], recent := [], shakeBusy := false,
    shakeFlask := 0, shakeLeft := [], pickCopy := [], pickLatch := [] }

/-- A long accumulator that holds nothing (R273). -/
def LongAcc.zero : LongAcc := { nan := false, pinf := false, ninf := false, v := 0 }

/-- A Crucible after reset (R292). -/
def Crucible.reset : Crucible := { insts := [], work := 0, mismatches := 0, absences := 0, late := 0, last := 0 }

/-- A member entry after reset (R262). -/
def Member.reset : Member := { removed := false, absences := 0, before := 0, absent := false, dropped := 0 }

/-- A Riddle after reset (R309, R313). -/
def Riddle.reset : Riddle := { prog := [], bitmap := [], overflows := 0, passed := 0, coming := [] }

/-- A Ladle after reset (R325, R341). -/
def Ladle.reset : Ladle :=
  { mode := 0, map := none, ordinal := 0, dropped := 0, outside := 0, specials := 0, collisions := 0, lists := [], skimLayer := 0,
    pathW := [], pathA := [] }

/-- A weight bank after reset (R341). -/
def Bank.reset : Bank :=
  { loaded := false, ladle := false, alloc := 0, fa := 0, fw := 0, g0 := 0, ordinal := 0, cols := [], tags := [] }

/-- An accumulator row at the start of a heat slot (R323). -/
def AccRow.reset : AccRow := { vals := [], lastG := none, adds := [] }

/-- A Mould after reset (R323, R341). -/
def Mould.reset : Mould := { banks := [], rows := [], vectors := 0 }

/-- An empty run slot (R298). -/
def RunSlot.reset : RunSlot := { recs := [], kt := 0, dir := false, sorted := false }

/-- A sort engine after reset (R306). -/
def Sorter.reset : Sorter := { slots := [], disorder := 0, shortSegs := 0 }

/-- A layer entry's run-time words after reset (R334). -/
def Layer.reset : Layer :=
  { detected := 0, lost := 0, madeUp := 0, warnFlag := false, pfRows := 0, sqRows := 0, tags := [] }

/-- The machine right after reset: no command waits, the standby domain has not started, every field at its reset value
(R18, R465, R466; log entries 5, 6 and 7 name the values the manual leaves open). -/
def State.reset : State :=
  { pending := [], clk := 0, pwr := .reset, chain := .reset, boot := .reset, fuse := .reset, flash := .reset, time := .reset,
    job := .reset, host := .reset, cfg := [], par := .reset, ledger := .reset, cap := .reset, inj := .reset, ports := [],
    fab := .reset, policers := [], mem := .reset, stations := [], crucibles := [], members := [], riddles := [], ladles := [],
    moulds := [], sorters := [], layers := [], out := [] }

end Sys2Proof.Machine
end

