-- ==== Sys2Proof/Machine/Ops.lean ====
section
/-!
DEFINITION. The named operations over the state that every family shares: reading and changing one port, station or stack, configuration
words, codes of the enumerations, fault causes, ALERT_N, the turn-off of the main domain, failure exits, quenches, and the chain's frames.
-/

namespace Sys2Proof.Machine

/-- The outcome of a command. -/
abbrev Out := Host.Outcome State Fault Refusal

/-! ### Codes -/

/-- BOOT_STAT.phase codes (R87). -/
def Phase.code : Phase → Nat
  | .standby => 0 | .power => 1 | .selftest => 2 | .image => 3 | .load => 4 | .hbm => 5 | .link => 6 | .time => 7
  | .epoch => 8 | .run => 9 | .quenched => 14 | .failed => 15

/-- TIME_STAT.state codes (R29). -/
def TimeState.code : TimeState → Nat
  | .free => 0 | .acquire => 1 | .locked => 2 | .holdover => 3 | .lost => 4

/-- The state codes of armed operations (R49, R104, R421). -/
def ArmState.code : ArmState → Nat
  | .idle => 0 | .armed => 1 | .fixed => 2 | .done => 3 | .refused => 4 | .dropped => 5

/-- PORT_STAT.state codes (R149). -/
def PortState.code : PortState → Nat
  | .disabled => 0 | .training => 1 | .up => 2 | .retrain => 3 | .down => 4

/-- Ledger entry state codes (R367). -/
def EntryState.code : EntryState → Nat
  | .idle => 0 | .opened => 1 | .due => 2 | .committed => 3 | .retracted => 4

/-- ST_STAT.state codes (R233). -/
def SeqState.code : SeqState → Nat
  | .idle => 0 | .run => 1 | .wait => 2 | .halt => 3 | .quenched => 4

/-! ### Units of the state -/

def State.port (s : State) (p : Nat) : Port := tget .reset s.ports p
def State.setPort (s : State) (p : Nat) (f : Port → Port) : State := { s with ports := tmod .reset s.ports p f }
def State.station (s : State) (a : Nat) : Station := tget .reset s.stations a
def State.setStation (s : State) (a : Nat) (f : Station → Station) : State := { s with stations := tmod .reset s.stations a f }
def State.stack (s : State) (k : Nat) : StackRegs := tget .reset s.mem.regs k
def State.setStack (s : State) (k : Nat) (f : StackRegs → StackRegs) : State :=
  { s with mem := { s.mem with regs := tmod .reset s.mem.regs k f } }
def State.entry (s : State) (e : Nat) : LedgerEntry := tget .reset s.ledger.entries e
def State.setEntry (s : State) (e : Nat) (f : LedgerEntry → LedgerEntry) : State :=
  { s with ledger := { s.ledger with entries := tmod .reset s.ledger.entries e f } }
def State.crucible (s : State) (a : Nat) : Crucible := tget .reset s.crucibles a
def State.setCrucible (s : State) (a : Nat) (f : Crucible → Crucible) : State := { s with crucibles := tmod .reset s.crucibles a f }
def State.riddle (s : State) (a : Nat) : Riddle := tget .reset s.riddles a
def State.setRiddle (s : State) (a : Nat) (f : Riddle → Riddle) : State := { s with riddles := tmod .reset s.riddles a f }
def State.ladle (s : State) (a : Nat) : Ladle := tget .reset s.ladles a
def State.setLadle (s : State) (a : Nat) (f : Ladle → Ladle) : State := { s with ladles := tmod .reset s.ladles a f }
/-- A layer's open list on a Ladle: the misses found and the neurons listed (R337). -/
def Ladle.openList (l : Ladle) (layer : Nat) : Nat × List Nat := tget (0, []) l.lists layer
/-- A layer's staging buffers lose their tags: the rows of those not read are squashed (R336). -/
def Layer.untag (l : Layer) : Layer :=
  { l with tags := [], sqRows := satAdd 42 l.sqRows (((l.tags.filter fun t => !t.read).map (·.rows)).sum) }
def State.mould (s : State) (a : Nat) : Mould := tget .reset s.moulds a
def State.setMould (s : State) (a : Nat) (f : Mould → Mould) : State := { s with moulds := tmod .reset s.moulds a f }
def State.sorter (s : State) (a : Nat) : Sorter := tget .reset s.sorters a
def State.setSorter (s : State) (a : Nat) (f : Sorter → Sorter) : State := { s with sorters := tmod .reset s.sorters a f }
def State.member (s : State) (m : Nat) : Member := tget .reset s.members m
def State.setMember (s : State) (m : Nat) (f : Member → Member) : State := { s with members := tmod .reset s.members m f }
def State.layer (s : State) (l : Nat) : Layer := tget .reset s.layers l
def State.setLayer (s : State) (l : Nat) (f : Layer → Layer) : State := { s with layers := tmod .reset s.layers l f }
def State.policer (s : State) (k : Nat) : Policer := tget .reset s.policers k
def State.setPolicer (s : State) (k : Nat) (f : Policer → Policer) : State := { s with policers := tmod .reset s.policers k f }
def State.stop (s : State) (k : Nat) : RingStop := tget .reset s.fab.stops k
def State.setStop (s : State) (k : Nat) (f : RingStop → RingStop) : State :=
  { s with fab := { s.fab with stops := tmod .reset s.fab.stops k f } }

def State.setPwr (s : State) (f : Power → Power) : State := { s with pwr := f s.pwr }
def State.setBoot (s : State) (f : Boot → Boot) : State := { s with boot := f s.boot }
def State.setFuse (s : State) (f : Fuse → Fuse) : State := { s with fuse := f s.fuse }
def State.setTime (s : State) (f : TimeKeeper → TimeKeeper) : State := { s with time := f s.time }
def State.setJob (s : State) (f : Job → Job) : State := { s with job := f s.job }
def State.setHost (s : State) (f : HostLink → HostLink) : State := { s with host := f s.host }
def State.setLedger (s : State) (f : Ledger → Ledger) : State := { s with ledger := f s.ledger }
def State.setCap (s : State) (f : Capture → Capture) : State := { s with cap := f s.cap }
def State.setFab (s : State) (f : Fabric → Fabric) : State := { s with fab := f s.fab }
def State.setMem (s : State) (f : StackedMem → StackedMem) : State := { s with mem := f s.mem }
def State.setPar (s : State) (f : Parity → Parity) : State := { s with par := f s.par }
def State.setInj (s : State) (f : Inject → Inject) : State := { s with inj := f s.inj }
def State.setChain (s : State) (f : Chain → Chain) : State := { s with chain := f s.chain }

/-- The module puts something on a pin or link. -/
def State.emit (s : State) (e : Emit) : State := { s with out := e :: s.out }

/-! ### Configuration words (R423, R454, R465) -/

/-- The key of an indirect address: space and index (R415). -/
def ikey (space idx : Nat) : Nat := 2 ^ 32 + space * 2 ^ 28 + idx % 2 ^ 28

/-- The key of a word of a station's window (R455). -/
def stKey (a off : Nat) : Nat := ikey 0 (a * 2 ^ 16 + off)

/-- The key of a word of a port's window (R456). -/
def ptKey (p off : Nat) : Nat := ikey 1 (p * 2 ^ 20 + off)

/-- The key of a word of a table of space 4 (R459). -/
def tbKey (t off : Nat) : Nat := ikey 4 (t * 2 ^ 24 + off)

/-- A configuration word in force. -/
def State.cfgw (s : State) (k : Nat) : Word := tget 0 s.cfg k

/-! ### The pattern's global settings -/

def State.pourLen (s : State) : Nat := fld (s.cfgw 0x500) 18 0 + 1
def State.heatLen (s : State) : Nat := fld (s.cfgw 0x500) 63 32 + 1
/-- clk of one pour: 9·L (R34). -/
def State.pourClks (s : State) : Nat := 9 * s.pourLen
def State.timeCfg (s : State) : Word := s.cfgw 0x1_0008
def State.startCfg (s : State) : Word := s.cfgw 0x1_0010
def State.pourWin (s : State) : Word := s.cfgw 0x1_0020
/-- time_src of R26, from its two bits (R447, R448). -/
def State.timeSrc (s : State) : Nat := fld s.timeCfg 0 0 + 2 * fld s.startCfg 32 32
/-- time_out_mode of R76. -/
def State.timeOutMode (s : State) : Nat := fld s.timeCfg 1 1 + 2 * fld s.timeCfg 2 2
/-- The module ID of the image (R442, R124). -/
def State.moduleId (s : State) : Nat := fld (s.cfgw 0) 39 20
/-- The clk offset within the running pour. -/
def State.pourOff (s : State) : Nat := s.clk - s.job.pourClk
/-- The phase is RUN. -/
def State.running (s : State) : Bool := s.boot.phase == .run
/-- The main domain is on and the port lanes may carry light: LINK to RUN (R81, R102). -/
def State.lit (s : State) : Bool :=
  s.pwr.mainOn && (s.boot.phase == .link || s.boot.phase == .time || s.boot.phase == .epoch || s.boot.phase == .run)

/-! ### Fault causes, ALERT_N -/

/-- Record a cause: the first since reset stands, of one clk the lowest code (R444). -/
def recordCause (code unit : Nat) (s : State) : State :=
  if s.boot.faultCode = 0 || (s.boot.faultClk = s.clk && code < s.boot.faultCode) then
    { s with boot := { s.boot with faultCode := code, faultUnit := unit, faultClk := s.clk } }
  else s

/-- ALERT_N is asserted (R85). -/
def State.alert (s : State) : Bool :=
  s.pwr.warnMask != 0 || s.pwr.trip || s.pwr.vinLow || s.pwr.vinHigh || s.boot.faultCode != 0

/-- Milliseconds since POWER_ON was accepted (R89). -/
def State.elapsedMs (s : State) : Nat :=
  match s.boot.elapsedFrozen with
  | some v => v
  | none => if s.boot.phase = .standby then 0 else min ((s.clk - s.boot.powerOnClk) / 1800000) 0xFFFFFFFF

/-- Enter a phase; elapsed_ms freezes on entry to RUN or FAILED (R87, R89). -/
def enterPhase (p : Phase) (s : State) : State :=
  let fr := if p = .run || p = .failed then some s.elapsedMs else s.boot.elapsedFrozen
  { s with boot := { s.boot with phase := p, elapsedFrozen := fr } }

/-- An armed start that has not begun is dropped (R106). -/
def dropStart (s : State) : State :=
  if s.job.jobState = .armed || s.job.jobState = .fixed then { s with job := { s.job with jobState := .dropped } } else s

/-- A failure exit: phase FAILED, the cause recorded, every lane dark (R88). -/
def failExit (code unit : Nat) (s : State) : State :=
  ((recordCause code unit (enterPhase .failed s)).emit .dark)

/-- A quench is due at the next boundary with this cause (0 for an ordered one) (R38). -/
def quenchDue (code unit : Nat) (s : State) : State :=
  { s with job := { s.job with quenchDue := s.job.quenchDue ++ [(s.clk, code, unit)] } }

/-- A command of the host or another party that reaches the main domain: nothing while it is off. -/
def onMain (f : State → State) (s : State) : Out := .next (if s.pwr.mainOn then f s else s)

/-! ### Power -/

/-- The main-domain groups at their reset values; the standby domain keeps the chain address and the last turn-off (R466). -/
def clearMain (s : State) : State :=
  { s with
    chain := { Chain.reset with addr := s.chain.addr, repeating := s.chain.repeating }
    boot := .reset
    flash := { s.flash with copying := none }
    time := .reset
    job := .reset
    host := .reset
    cfg := []
    par := .reset
    ledger := .reset
    cap := .reset
    inj := .reset
    ports := []
    fab := .reset
    policers := []
    mem := .reset
    stations := []
    crucibles := []
    members := []
    riddles := []
    ladles := []
    moulds := []
    sorters := []
    layers := [] }

/-- The power readings at their reset values; what the standby domain senses is kept (R466). -/
def clearPower (s : State) : State :=
  { s with pwr := { Power.reset with
      standbyOn := s.pwr.standbyOn, mainOn := s.pwr.mainOn, vinMv := s.pwr.vinMv, presStable := s.pwr.presStable,
      lastDown := s.pwr.lastDown, downSample := s.pwr.downSample, critical := s.pwr.critical, vinLow := s.pwr.vinLow,
      vinHigh := s.pwr.vinHigh } }

/-- The 100 ns standby sample that contains a clk (R63). -/
def sampleOf (clk : Nat) : Nat := clk / 180

/-- The main domain turns off with a cause (R62); of causes in one standby sample the one highest in the table stands (R63). -/
def turnOff (cause : Nat) (s : State) : State :=
  if s.pwr.mainOn then
    let s := clearMain s
    ({ s with pwr := { s.pwr with mainOn := false, lastDown := cause, downSample := some (sampleOf s.clk), timeOut := false } }).emit .dark
  else if s.pwr.downSample = some (sampleOf s.clk) && cause < s.pwr.lastDown then
    { s with pwr := { s.pwr with lastDown := cause } }
  else s

/-- The input voltage and its two flags (R60, R68). 48.0 V and 60.0 V lie at once at an end of the operating and of the extended range:
the model sets neither flag there (DESIGN CHOICE, log entry 65). -/
def setVin (mv : Nat) (s : State) : State :=
  { s with pwr := { s.pwr with vinMv := mv, vinLow := 45000 ≤ mv && mv < 48000, vinHigh := 60000 < mv && mv ≤ 62000 } }

/-! ### Checks over bytes (R125) -/

/-- One bit of a non-reflected CRC of width `n`. -/
def crcBit {n : Nat} (poly : BitVec n) (c : BitVec n) (b : Bool) : BitVec n :=
  if c.msb != b then (c <<< 1) ^^^ poly else c <<< 1

/-- One byte, most significant bit first. -/
def crcByte {n : Nat} (poly : BitVec n) (c : BitVec n) (b : Byte) : BitVec n :=
  (List.range 8).foldl (fun c i => crcBit poly c (b.getLsbD (7 - i))) c

/-- The CRC-16 of R125. -/
def crc16 (bs : List Byte) : BitVec 16 := bs.foldl (crcByte 0x1021#16) 0xFFFF#16

/-- The CRC-64 of R125. -/
def crc64 (bs : List Byte) : BitVec 64 := (bs.foldl (crcByte 0x42F0E1EBA9EA3693#64) (BitVec.allOnes 64)) ^^^ BitVec.allOnes 64

/-! ### The management chain (R427) -/

/-- The bytes a chain frame's CRC covers: address, type, length, payload. -/
def frameBytes (dst : BitVec 8) (code : Nat) (payload : List Byte) : List Byte :=
  [dst, BitVec.ofNat 8 code, BitVec.ofNat 8 payload.length] ++ payload

/-- A frame reaches the standby domain with a correct CRC (R427). -/
def frameOk (s : State) (dst : BitVec 8) (code : Nat) (payload : List Byte) (crc : BitVec 16) : Bool :=
  s.pwr.standbyOn && crc == crc16 (frameBytes dst code payload)

/-- A frame addressed to this module (R427); address 0 reaches an unaddressed one (R90). -/
def frameMine (s : State) (dst : BitVec 8) : Bool := dst == s.chain.addr

/-- An upstream frame of the module (R428). -/
def reply (code : Nat) (payload : List Byte) (s : State) : State := s.emit (.chainUp s.chain.addr (0x80 + code) payload)

/-- ACK carries the module's address (R428). -/
def ackFrame (s : State) : State := reply 0x03 [s.chain.addr] s

/-- REFUSE: the type refused and the reason (R428). -/
def refuseFrame (code reason : Nat) (s : State) : State := reply 0x3F [BitVec.ofNat 8 code, BitVec.ofNat 8 reason] s

/-- PRESENT: grade and terminal role (R428). -/
def presentFrame (s : State) : State :=
  reply 0x01 (beBytes 2 s.fuse.part.toNat ++ [if s.fuse.terminal then 1 else 0]) s

/-- A frame that is received: what the module does with it, and its copy downstream when the module repeats (R90, R427). -/
def onFrame (s : State) (dst : BitVec 8) (code : Nat) (payload : List Byte) (crc : BitVec 16) (mine : Bool) (f : State → State) : Out :=
  let s1 := if s.pwr.standbyOn && s.chain.repeating then s.emit (.chainDown dst code payload) else s
  .next (if frameOk s dst code payload crc && mine then f s1 else s1)

/-! ### Fabric time -/

/-- Whole nanoseconds of fabric time (R19). -/
def State.ns (s : State) : Nat := s.time.now / 9

/-- Fabric time in units of 2^-16 ns, at the timestamp resolution of 2^-4 ns (R20). -/
def State.timeFrac (s : State) : Nat := (s.time.now * 16 / 9) * 4096

/-- The holdover limit in force, in ms (R46). -/
def State.holdLimit (s : State) : Nat :=
  let ms := fld s.timeCfg 31 20
  if s.time.holdOk then ms else min ms 250

/-- TIME_STAT.holdover_ms (R30). -/
def State.holdoverMs (s : State) : Nat :=
  if s.time.state = .holdover then min ((s.clk - s.time.lastValid) / 1800000) 0xFFFF else 0

/-- Pours run in LOCKED and HOLDOVER (R29). -/
def State.timed (s : State) : Bool := s.time.state == .locked || s.time.state == .holdover

/-- E0 in ninths of a ns as the origin of pours. -/
def State.boundaryDue (s : State) : Bool := s.running && decide (s.job.pourClk + s.pourClks ≤ s.clk)

/-! ### The grades (R2) -/

/-- The fuses name the leaf grade. -/
def State.leaf (s : State) : Bool := s.fuse.part == 0x9624#16

/-- A stack the grade has (R2). -/
def State.stackPresent (s : State) (k : Nat) : Bool := k < (if s.leaf then 4 else 8)

/-! ### Fault injection (R452, R453) -/

/-- An injector of block 0x5 acts now: enabled, debug not disabled, armed before this clk, pour and heat in the window. -/
def injects (s : State) (w : Word) : Bool :=
  bit w 63 && !s.fuse.debugOff && s.running && decide (s.inj.armClk < s.clk) &&
  decide (fld s.inj.win 63 32 ≤ s.job.pour) && decide (s.job.pour ≤ fld s.inj.win 31 0) &&
  (bit s.inj.heat 63 || fld s.inj.heat 47 0 == s.job.heat)

end Sys2Proof.Machine
end

