-- ==== Sys2Proof/Machine/FuseOps.lean ====
section
/-!
DEFINITION. Limited-count settings and the fuse ledger (R109 to R113).
-/

namespace Sys2Proof.Machine

/-- Status codes of fuse commands (R110). -/
def fuseExhausted : Nat := 0x60
def fuseValue : Nat := 0x61
def fuseState : Nat := 0x62
def fuseLedgerFull : Nat := 0x63
def fuseConfirm : Nat := 0x64

/-- The value a setting now holds. -/
def settingValue (s : State) : Nat → Nat
  | 1 => s.fuse.svc
  | 2 => s.fuse.lock
  | 3 => if s.fuse.debugOff then 1 else 0
  | 4 => s.fuse.keyset
  | _ => if s.fuse.terminal then 1 else 0

/-- The setting has no change left (R109). -/
def exhausted (s : State) : Nat → Bool
  | 1 => decide (64 ≤ s.fuse.svc)
  | 2 => s.fuse.lock != 0
  | 3 => s.fuse.debugOff
  | 4 => decide (3 ≤ s.fuse.keysetUsed)
  | _ => decide (8 ≤ s.fuse.terminalUsed)

/-- The record of a change that begins now (R113). -/
def newRecord (setting newV : Nat) (s : State) : FuseRecord :=
  { setting := setting
    ordinal := (s.fuse.records.filter fun r => r.setting == setting).length + 1
    heat := if s.running then s.job.heat else 0
    time := if s.timed then s.time.now else 0
    timeState := s.time.state.code
    heatValid := s.running
    oldV := settingValue s setting
    newV := newV }

/-- The status a change meets after its own condition: under way, no change left, ledger full (R110, R111); 0 when it may begin. A change
that a standby stop interrupted counts as under way until the self-test settles it (DESIGN CHOICE, log entry 66). -/
def fuseStatus (setting : Nat) (own : Nat) (s : State) : Nat :=
  if s.fuse.opened.isSome then fuseState
  else if own ≠ 0 then own
  else if exhausted s setting then fuseExhausted
  else if 96 ≤ s.fuse.records.length then fuseLedgerFull
  else 0

/-- The fuse controller opens the record of a change (R111). -/
def openChange (setting newV : Nat) (byChain : Bool) (s : State) : State :=
  s.setFuse fun f => { f with opened := some (newRecord setting newV s), byChain := byChain, busy := true }

/-- Every fault-injection control reads zero and nothing is injected from now on (R109, R439). -/
def stopInjection (s : State) : State :=
  { s with inj := .reset
           ports := s.ports.map fun e => (e.1, { e.2 with inj := [], injCount := 0 }) }

/-- The setting's fuses take the value of a record (R109). -/
def blow (r : FuseRecord) (s : State) : State :=
  match r.setting with
  | 1 => s.setFuse fun f => { f with svc := r.newV }
  | 2 => s.setFuse fun f => { f with lock := r.newV }
  | 3 => stopInjection (s.setFuse fun f => { f with debugOff := true })
  | 4 => s.setFuse fun f => { f with keyset := r.newV, keysetUsed := f.keysetUsed + 1 }
  | _ =>
    let s := s.setFuse fun f => { f with terminal := r.newV == 1, terminalUsed := f.terminalUsed + 1 }
    s.setChain fun c => { c with repeating := r.newV != 1 && c.addr != 0 }

/-- The open record closes (blown) or becomes void (R112). A change moves SEC_MEAS_GEN (R451). -/
def closeChange (blown : Bool) (s : State) : State :=
  match s.fuse.opened with
  | none => s
  | some r =>
    let s := if blown then blow r s else s
    let r' := if blown then r else { r with setting := 0 }
    let s := s.setFuse fun f => { f with opened := none, busy := false, records := f.records ++ [r'] }
    s.setHost fun h => { h with measGen := h.measGen + 1 }

/-- The summary word of index 0 (R113). -/
def fuseSummary (s : State) : Word :=
  put (s.fuse.records.length) 56 ||| put ((s.fuse.records.filter fun r => r.setting == 0).length) 48 |||
  put s.fuse.svc 40 ||| put s.fuse.lock 38 ||| putb s.fuse.debugOff 37 ||| put s.fuse.keyset 35 ||| putb s.fuse.terminal 34 |||
  put s.fuse.keysetUsed 32 ||| put s.fuse.terminalUsed 28

/-- Whole seconds, nanoseconds and fraction of a time in ninths of a ns (R19, R20). -/
def secOf (t : Nat) : Nat := t / 9 / 1000000000
def nsOf (t : Nat) : Nat := t / 9 % 1000000000
def fracOf (t : Nat) : Nat := t % 9 * 16 / 9 * 4096

/-- The four words LEDGER_READ returns for an index (R113). -/
def fuseLedgerWords (i : Nat) (s : State) : List Word :=
  if i = 0 then [fuseSummary s, 0, 0, 0]
  else match s.fuse.records[i - 1]? with
    | none => [0, 0, 0, 0]
    | some r =>
      [put r.setting 56 ||| put r.ordinal 48 ||| put r.heat 0, put (secOf r.time) 16,
       put (nsOf r.time) 32 ||| put (fracOf r.time) 16 ||| put r.timeState 8 ||| putb r.heatValid 7,
       put r.oldV 32 ||| put r.newV 0]

end Sys2Proof.Machine
end

