-- ==== Sys2Proof/Machine/Power.lean ====
section
/-!
DEFINITION. Power, presence, reset, temperature and health (chapters "Module, Power and Connectors" and the health score of R397).
-/

namespace Sys2Proof.Machine

/-- The standby domain starts: every field at its reset value, fuses and flash as they are; one PRESENT upstream (R60, R90, R466). -/
def standbyUp (mv : Nat) (s : State) : State :=
  presentFrame (setVin mv { clearMain s with
    chain := .reset, pwr := { Power.reset with standbyOn := true }, fuse := { s.fuse with busy := false } })

/-- STANDBY_START (R60, R90): the input has risen through 46.5 V. -/
def execStandbyStart (mv : Nat) (s : State) : Out :=
  .next (if !s.pwr.standbyOn && decide (46500 ≤ mv) then standbyUp mv s else s)

/-- INPUT_DIP (R61): carried by the input capacitance and counted by the standby domain's power monitoring; nothing else happens. -/
def execInputDip (s : State) : Out :=
  .next (if s.pwr.standbyOn then { s with pwr := { s.pwr with dips := satAdd 16 s.pwr.dips 1 } } else s)

/-- INPUT_LOW (R60, R62): below 45.0 V for 500 µs. -/
def execInputLow (mv : Nat) (s : State) : Out :=
  .next (if s.pwr.standbyOn && decide (mv < 45000) then turnOff 0x01 (setVin mv s) else s)

/-- INPUT_HIGH (R60, R62): above 62.0 V for 10 µs. -/
def execInputHigh (mv : Nat) (s : State) : Out :=
  .next (if s.pwr.standbyOn && decide (62000 < mv) then turnOff 0x02 (setVin mv s) else s)

/-- OVERCURRENT (R60, R62): above 55 A for 1 ms. -/
def execOvercurrent (s : State) : Out := .next (turnOff 0x03 s)

/-- PRESENCE (R71, R62): PRES_B has read high for 1 ms. -/
def execPresence (s : State) : Out :=
  .next (turnOff 0x04 (s.setPwr fun p => { p with presStable := false }))

/-- PRESENCE_STABLE (R71): PRES_B has read low for 100 ms; the main domain may start. -/
def execPresenceStable (s : State) : Out :=
  .next (if s.pwr.standbyOn then s.setPwr fun p => { p with presStable := true } else s)

/-- MOD_RESET_N (R77, R466): turn-off with RESET_PIN, then every field at reset but what the standby domain holds. -/
def execModResetN (s : State) : Out :=
  .next (if s.pwr.standbyOn then clearPower (clearMain (turnOff 0x06 s)) else s)

/-- EXTENDED_RANGE (R60, R68): the input enters or leaves a band of the extended range. -/
def execExtendedRange (mv : Nat) (s : State) : Out :=
  .next (if s.pwr.standbyOn then setVin mv s else s)

/-- STANDBY_STOP (R60, R62, R91, R112): the standby domain stops; the address is lost, an open fuse record stays open. -/
def execStandbyStop (s : State) : Out :=
  .next (if s.pwr.standbyOn then
    let s := turnOff 0x01 s
    { s with chain := .reset, pwr := .reset, fuse := { s.fuse with busy := false } }
  else s)

/-! ### Temperature (R84 to R86, R461) -/

/-- The group of sensor n (R84, R461). -/
def sensorGroup (n : Nat) : Nat :=
  if n < 24 then 1 else if n < 32 then 2 else if n < 64 then 3 else if n < 66 then 4 else if n < 74 then 5
  else if n = 74 then 6 else 7

/-- Warning threshold of a group in °C (R84). -/
def warnAt : Nat → Int
  | 1 => 95 | 2 => 90 | 3 => 65 | 4 => 110 | 5 => 110 | 6 => 45 | _ => 62

/-- Trip threshold of a group (R84). -/
def tripAt : Nat → Int
  | 1 => 105 | 2 => 100 | 3 => 75 | 4 => 120 | 5 => 120 | 6 => 50 | _ => 68

/-- Critical threshold of a group, none for the coolant (R84). -/
def critAt : Nat → Option Int
  | 1 => some 115 | 2 => some 105 | 3 => some 85 | 4 => some 130 | 5 => some 130 | _ => none

/-- A sensor the grade has: the sensors of absent stacks are absent (R84, R461). -/
def sensorPresent (s : State) (n : Nat) : Bool :=
  decide (n < 76) && (sensorGroup n != 2 || s.stackPresent (n - 24))

/-- Present sensors with their readings. -/
def readings (s : State) (temps : List Int) : List (Nat × Int) :=
  ((List.range 76).zip temps).filter fun e => sensorPresent s e.1

/-- A reading has reached its critical threshold. -/
def isCrit (e : Nat × Int) : Bool := match critAt (sensorGroup e.1) with | some c => decide (c ≤ e.2) | none => false

/-- Its highest threshold reached is the trip one. -/
def isTrip (e : Nat × Int) : Bool := !isCrit e && decide (tripAt (sensorGroup e.1) ≤ e.2)

/-- Its highest threshold reached is the warning one. -/
def isWarn (e : Nat × Int) : Bool := decide (warnAt (sensorGroup e.1) ≤ e.2) && decide (e.2 < tripAt (sensorGroup e.1))

/-- The warning bit of group g after a sample: set by a sensor in warning, cleared once every sensor is 5 °C below (R85). -/
def warnBit (rs : List (Nat × Int)) (old : BitVec 7) (g : Nat) : Bool :=
  let mine := rs.filter fun e => sensorGroup e.1 == g
  if mine.any isWarn then true
  else if mine.all (fun e => decide (e.2 ≤ warnAt g - 5)) then false else old.getLsbD (g - 1)

/-- The warning mask after a sample. -/
def warnMaskOf (rs : List (Nat × Int)) (old : BitVec 7) : BitVec 7 :=
  BitVec.ofNat 7 (((List.range 7).map fun i => if warnBit rs old (i + 1) then 2 ^ i else 0).sum)

/-- Whole °C as registers show them, clamped at 0 (R86). -/
def showTemp (t : Int) : Nat := min t.toNat 255

/-- What every sample shows: readings, warnings, whether a critical temperature stands (R64, R85, R86). -/
def showSample (rs : List (Nat × Int)) (s : State) : State :=
  s.setPwr fun p =>
    { p with sensors := rs.map (fun e => (e.1, showTemp e.2)), warnMask := warnMaskOf rs p.warnMask, critical := rs.any isCrit }

/-- The trip of a sample with no critical sensor latches (R85) and, while the main domain is on, makes a quench with THERMAL_TRIP due. When
sensors of several groups first trip in one sample the spec names no order: the group of the lowest sensor number is recorded (DESIGN
CHOICE, log entry 64). -/
def takeTrip (rs : List (Nat × Int)) (s : State) : State :=
  match (rs.filter isTrip).map (fun e => sensorGroup e.1) with
  | [] => s
  | g :: _ =>
    if s.pwr.trip then s
    else
      let s := s.setPwr fun p => { p with trip := true, tripGroup := g }
      if s.pwr.mainOn then quenchDue 0x40 g s else s

/-- SENSOR_SAMPLE (R84, R85): the standby domain monitors temperature whether or not the main domain is on; a critical sensor overrides
the trips of the same sample. -/
def execSensorSample (temps : List Int) (s : State) : Out :=
  if temps.length ≠ 76 then .refused (.illFormed "one reading for each of the 76 sensors")
  else if !s.pwr.standbyOn then .next s
  else
    let rs := readings s temps
    .next (if rs.any isCrit then turnOff 0x05 (showSample rs s) else takeTrip rs (showSample rs s))

/-! ### The averaging second and the health score (R69, R397, R398) -/

/-- ⌊1,024 · num / den⌋ clamped to 0 to 1,024: a quantised penalty (R397). -/
def penalty (num den : Int) : Nat := if den ≤ 0 then 0 else min (1024 * num / den).toNat 1024

/-- The corrected counts of all present stacks (R365, R397). -/
def correctedTotal (s : State) : Nat :=
  (((List.range 8).filter s.stackPresent).map fun k => tget 0 (s.stack k).ctr 0).sum

/-- The sum of nak_sent of all ports (R150, R397): counter 6 of the port scope. -/
def nakTotal (s : State) : Nat := (s.ports.map fun e => tget 0 e.2.ctr 6).sum

/-- Growth of a total over the last ten seconds, from its history. -/
def tenSeconds (now : Nat) (hist : List Nat) : Nat := now - (hist[9]?).getD 0

/-- The seven quantised penalties (R397). -/
def penalties (r : SecondReadings) (s : State) : List Nat :=
  let volt := penalty ((r.railDev : Int) - 1000000) 2000000
  [ if s.pwr.vinLow || s.pwr.vinHigh then max volt 512 else volt,
    (match r.logBer with | some b => penalty (b + 7000000) 3380000 | none => 0),
    (if s.time.state = .holdover then penalty s.holdoverMs s.holdLimit else penalty s.pwr.maxOffset 10000),
    (match r.omaDbm with | some p => penalty (-3500000 - p) 2000000 | none => 0),
    penalty (tenSeconds (correctedTotal s) s.pwr.corrHist) 4096,
    penalty (tenSeconds (nakTotal s) s.pwr.nakHist) 65536,
    penalty ((s.pwr.retrainClks.filter fun c => decide (s.clk < c + 6480000000000)).length) 16 ]

/-- The weights of the seven terms (R397). -/
def weights : List Nat := [150, 200, 100, 200, 150, 100, 100]

/-- Contributions: each term truncated (R397). -/
def contributions (qs : List Nat) : List Nat := (weights.zip qs).map fun e => e.1 * e.2 / 1024

/-- Code of the largest contribution, the lower on a tie (R398). -/
def worstTerm (cs : List Nat) : Nat :=
  ((cs.zip (List.range 7)).foldl (fun b e => if b.1 < e.1 then (e.1, e.2 + 1) else b) (cs.headD 0, 1)).2

/-- The health score of the second that ends (R397, R398). -/
def healthSecond (r : SecondReadings) (s : State) : State :=
  let cs := contributions (penalties r s)
  s.setPwr fun p =>
    { p with healthValid := true, score := 1000 - cs.sum, worst := worstTerm cs, terms := cs,
             corrHist := (correctedTotal s :: p.corrHist).take 10, nakHist := (nakTotal s :: p.nakHist).take 10,
             retrainClks := p.retrainClks.filter (fun c => decide (s.clk < c + 6480000000000)),
             maxOffset := s.time.offsetPs.natAbs }

/-- AVERAGING_SECOND (R68, R69, R397). -/
def execAveragingSecond (r : SecondReadings) (s : State) : Out :=
  .next (if !s.pwr.standbyOn then s
    else
      let s := s.setPwr fun p =>
        { p with power10w := min (r.powerMw / 10000) 0xFFF, vinQ := min (r.vinMv / 250) 0xFF, valid := true }
      if s.pwr.mainOn then healthSecond r s else s)

end Sys2Proof.Machine
end

