-- ==== Sys2Proof/Machine/Chain.lean ====
section
/-!
DEFINITION. The management chain's frames (R90 to R93, R427 to R429), but for the two that reach registers.
-/

namespace Sys2Proof.Machine

/-- ASSIGN: the address, ACK, then TOKEN with the repeater open, or END (R91). -/
def assign (a : BitVec 8) (s : State) : State :=
  if a = 0 || a = 255 then s
  else
    let s := ackFrame (s.setChain fun c => { c with addr := a })
    if s.fuse.terminal then reply 0x05 [a] s
    else (s.setChain fun c => { c with repeating := true }).emit (.chainDown 0 0x04 [])

/-- ASSIGN (R91): taken by an unaddressed module only. -/
def execAssign (dst : BitVec 8) (a : BitVec 8) (crc : BitVec 16) (s : State) : Out :=
  onFrame s dst 0x02 [a] crc (dst == 0 && s.chain.addr == 0) (assign a)

/-- TOKEN (R90): an unaddressed module answers PRESENT. -/
def execToken (dst : BitVec 8) (crc : BitVec 16) (s : State) : Out :=
  onFrame s dst 0x04 [] crc (s.chain.addr == 0) presentFrame

/-- What CLEAR does (R91). -/
def clearAddress (s : State) : State := presentFrame (s.setChain fun c => { c with addr := 0, repeating := false })

/-- CLEAR (R91), broadcast only. -/
def execClear (dst : BitVec 8) (crc : BitVec 16) (s : State) : Out :=
  onFrame s dst 0x06 [] crc (dst == 255) clearAddress

/-- The first condition of R93 that fails, as the reason of R428; 0 when none does. -/
def powerOnReason (s : State) : Nat :=
  if s.pwr.mainOn then 0x01
  else if s.pwr.vinMv < 46500 then 0x02
  else if !s.pwr.presStable then 0x03
  else if s.pwr.critical then 0x04
  else 0

/-- POWER begins: the main domain comes on with every field at reset (R87, R93, R466). -/
def powerUp (s : State) : State :=
  let s := clearPower (clearMain s)
  { s with pwr := { s.pwr with mainOn := true }, boot := { Boot.reset with phase := .power, powerOnClk := s.clk } }

/-- POWER_ON (R93). -/
def execPowerOn (dst : BitVec 8) (crc : BitVec 16) (s : State) : Out :=
  onFrame s dst 0x10 [] crc (frameMine s dst && s.chain.addr != 0) fun s =>
    if powerOnReason s ≠ 0 then refuseFrame 0x10 (powerOnReason s) s else powerUp (ackFrame s)

/-- POWER_OFF (R62, R428). -/
def execPowerOff (dst : BitVec 8) (crc : BitVec 16) (s : State) : Out :=
  onFrame s dst 0x11 [] crc (frameMine s dst) fun s => turnOff 0x07 (ackFrame s)

/-- Status of a SET_TERMINAL with payload `v` (R110). -/
def terminalStatus (v : BitVec 8) (s : State) : Nat :=
  fuseStatus 5 (if 1 < v.toNat || v.toNat = settingValue s 5 then fuseValue else 0) s

/-- SET_TERMINAL (R110, R111): answered at once; the fuse controller programs the change. -/
def execSetTerminal (dst : BitVec 8) (v : BitVec 8) (crc : BitVec 16) (s : State) : Out :=
  onFrame s dst 0x12 [v] crc (frameMine s dst) fun s =>
    if terminalStatus v s ≠ 0 then refuseFrame 0x12 (terminalStatus v s) s
    else ackFrame (openChange 5 v.toNat true s)

/-- SECONDS (R103): the seconds count of the next PPS edge. -/
def execSeconds (dst : BitVec 8) (sec : BitVec 48) (crc : BitVec 16) (s : State) : Out :=
  onFrame s dst 0x13 (beBytes 6 sec.toNat) crc (frameMine s dst) fun s =>
    ackFrame (s.setChain fun c => { c with nextSecond := some sec.toNat })

/-- The hottest sensor of some groups as TEMP_STAT shows it (R86). -/
def groupMax (s : State) (gs : List Nat) : Nat :=
  (s.pwr.sensors.filter fun e => gs.contains (sensorGroup e.1)).foldl (fun m e => max m e.2) 0

/-- The 16 bytes of STATUS (R429). -/
def statusBytes (s : State) : List Byte :=
  let h := if s.pwr.mainOn then s.pwr.worst * 2 ^ 12 + (if s.pwr.healthValid then 2 ^ 10 else 0) + s.pwr.score else 0
  let b2 := s.boot.phase.code * 16 + (if s.pwr.mainOn then 8 else 0) + (if s.alert then 4 else 0) +
    (if s.fuse.terminal then 2 else 0) + (if s.pwr.presStable then 1 else 0)
  beBytes 2 h ++ leBytes 1 b2 ++ leBytes 1 s.pwr.lastDown ++ leBytes 1 s.boot.faultCode ++ beBytes 2 s.pwr.power10w ++
  leBytes 1 s.pwr.vinQ ++ leBytes 1 (groupMax s [1]) ++ leBytes 1 (groupMax s [2]) ++ leBytes 1 (groupMax s [3]) ++
  leBytes 1 (groupMax s [6]) ++ leBytes 1 (groupMax s [7]) ++
  leBytes 1 ((if s.pwr.trip then 128 else 0) + s.pwr.warnMask.toNat) ++ [0, 0]

/-- STATUS_REQ (R429). -/
def execStatusReq (dst : BitVec 8) (crc : BitVec 16) (s : State) : Out :=
  onFrame s dst 0x20 [] crc (frameMine s dst) fun s => reply 0x21 (statusBytes s) s

end Sys2Proof.Machine
end

