-- ==== Sys2Proof/Machine/LedgerOps.lean ====
section
/-!
DEFINITION. The commit ledger's shared operations: entries of the image, retraction, marks, commits, the heat verdict (R366 to R385).
-/

namespace Sys2Proof.Machine

/-- The row numbers of a table of space 4 whose word 0 is listed and passes a test: stride bytes a row, offsets from `lo` to `hi`. -/
def tableRows (s : State) (t lo hi stride : Nat) (ok : Word → Bool) : List Nat :=
  s.cfg.filterMap fun e =>
    let base := tbKey t lo
    if base ≤ e.1 && e.1 < tbKey t hi && (e.1 - base) % stride == 0 && ok e.2 then some ((e.1 - base) / stride) else none

/-- Word `i` of ledger entry `e` (R367). -/
def entryWord (s : State) (e i : Nat) : Word := s.cfgw (tbKey 13 (128 * e + 8 * i))

/-- The valid ledger entries, ascending. -/
def validEntries (s : State) : List Nat := tableRows s 13 0 0x80000 128 (fun w => bit w 63)

/-- A port's bit in four mask words that start at a key. -/
def inMask (s : State) (key p : Nat) : Bool := bit (s.cfgw (key + 8 * (p / 64))) (p % 64)

/-- The ports of a mask, ascending. -/
def maskPorts (s : State) (key : Nat) : List Nat := (List.range 256).filter (inMask s key)

/-- up_ports of an entry without the ports cleared by a removal (R367, R379). -/
def upPorts (s : State) (e : Nat) : List Nat :=
  (maskPorts s (tbKey 13 (128 * e + 32))).filter fun p => !s.ledger.upCleared.contains p

def inUp (s : State) (e p : Nat) : Bool := inMask s (tbKey 13 (128 * e + 32)) p && !s.ledger.upCleared.contains p
def downPorts (s : State) (e : Nat) : List Nat := maskPorts s (tbKey 13 (128 * e + 64))
def inDown (s : State) (e p : Nat) : Bool := inMask s (tbKey 13 (128 * e + 64)) p
def firstPour (s : State) (e : Nat) : Nat := fld (entryWord s e 1) 63 32
def lastPour (s : State) (e : Nat) : Nat := fld (entryWord s e 1) 31 0
def depOf (s : State) (e : Nat) : Option Nat :=
  if bit (entryWord s e 0) 61 then some (fld (entryWord s e 0) 60 49) else none
def upEntry (s : State) (e : Nat) : Nat := fld (entryWord s e 12) 63 52

/-- LEDGER_CFG (R406). -/
def State.ledgerCfg (s : State) : Word := s.cfgw 0x2_0000
def State.horizon (s : State) : Nat := fld s.ledgerCfg 63 62 + 1
def State.replayMode (s : State) : Bool := bit s.ledgerCfg 60
def State.cutoff (s : State) : Nat := fld s.ledgerCfg 21 0
/-- A warm spare in standby (R392). -/
def State.standby (s : State) : Bool := bit s.ledgerCfg 61 && !bit s.ledger.spareActive 63
/-- A packet that replay mode discards is counted (R402). -/
def countReplayDrop (s : State) : State := s.setCap fun c => { c with replayDrops := c.replayDrops + 1 }
/-- The running slot replays its heat. -/
def State.replaying (s : State) : Bool := 0 < s.ledger.runs
/-- The due pour of an entry (R369). -/
def duePour (s : State) (e : Nat) : Nat := lastPour s e + s.horizon

/-- While a word selects a pair, its two ports exchange what the pattern binds to them (R390, R391). -/
def swapBy (word : Word) (s : State) (p : Nat) : Nat :=
  let sel := (tableRows s 14 0 504 8 (fun w => bit w 63)).filter fun k => bit word k
  match sel.find? (fun k => let w := s.cfgw (tbKey 14 (8 * k)); fld w 55 48 == p || fld w 47 40 == p) with
  | some k =>
    let w := s.cfgw (tbKey 14 (8 * k))
    if fld w 55 48 = p then fld w 47 40 else fld w 55 48
  | none => p

/-- The port whose part in the pattern a port plays now. -/
def swapPort (s : State) (p : Nat) : Nat := swapBy s.ledger.spareActive s p

/-- An item of a notice (R376). -/
def noticeItem (verdict cause entry last detail : Nat) : BitVec 128 :=
  BitVec.ofNat 128 (verdict * 2 ^ 124 + cause % 256 * 2 ^ 112 + entry % 4096 * 2 ^ 84 + last % 2 ^ 32 * 2 ^ 32 + detail % 2 ^ 32)

/-- Queue one notice item for a port (R376); a warm spare in standby sends none (R392). -/
def queueNotice (port kind heat : Nat) (item : BitVec 128) (s : State) : State :=
  if s.standby then s
  else s.setLedger fun l => { l with notices := l.notices ++ [{ port, kind, heat, item, clk := s.clk }] }

/-- The ENTRY items of a verdict go to every port of the entry's down_ports (R376). -/
def announceEntry (e verdict cause detail : Nat) (s : State) : State :=
  each (downPorts s e) (fun p => queueNotice p 1 s.job.heat (noticeItem verdict cause e (lastPour s e) detail)) s

/-- The heat is held RETRACTED: the first cause is kept and one HEAT_RETRACT floods to every flood port but `skip` (R380, R381). -/
def holdRetracted (cause detail entry : Nat) (skip : Option Nat) (s : State) : State :=
  if s.ledger.heatRetracted then s
  else
    let s := s.setLedger fun l => { l with heatRetracted := true, first := some (cause, detail, entry, s.job.pour), flooded := true }
    each ((maskPorts s (tbKey 13 0x80000)).filter fun p => some p != skip)
      (fun p => queueNotice p 2 s.job.heat (noticeItem 2 cause 0 (s.heatLen - 1) detail)) s

/-- A retraction of the module's own holds the heat, but in standby: a warm spare there follows the HEAT_RETRACT notices alone (R392). -/
def holdOwn (cause detail entry : Nat) (skip : Option Nat) (s : State) : State :=
  if s.standby then s else holdRetracted cause detail entry skip s

/-- RETRACT_REC holds the first retraction since it was cleared (R406). -/
def recordRetract (cause detail entry : Nat) (s : State) : State :=
  if s.ledger.recValid then s
  else s.setLedger fun l => { l with recValid := true, recBody := (cause, entry, s.job.pour, detail) }

/-- The pending items of an entry's verdict reached in this clk are withdrawn: a retraction of the same clk replaces it (R372). -/
def withdrawNotices (e : Nat) (s : State) : State :=
  s.setLedger fun l =>
    { l with notices := l.notices.filter fun n => !(n.kind == 1 && n.clk == s.clk && fld n.item 95 84 == e) }

/-- An entry that an event of this kind can retract now: its state is acted on, or it committed in this very clk (R370, R372). -/
def canRetract (s : State) (e : Nat) (acts : EntryState → Bool) : Bool :=
  let st := s.entry e
  acts st.state || (st.state == .committed && st.decClk == s.clk && acts .due)

/-- The undecided state of an entry in a pour: IDLE, then OPEN from first_pour, then DUE (R369, R370). -/
def stateByPour (s : State) (e : Nat) : EntryState :=
  if s.job.pour < firstPour s e then .idle else if s.job.pour < duePour s e then .opened else .due

/-- An entry retracted in this very clk out of a state that an event of this kind acts on: two causes of one clk meet (R372). -/
def retractedNow (s : State) (e : Nat) (acts : EntryState → Bool) : Bool :=
  (s.entry e).state == .retracted && (s.entry e).decClk == s.clk && acts (stateByPour s e)

/-- What was recorded of an entry's retraction in this clk takes its lower cause (R372, R381). -/
def lowerCause (e cause detail : Nat) (s : State) : State :=
  let st := s.entry e
  let low := fun (x : Nat × Nat × Nat × Nat) =>
    if x = (st.cause, st.detail, e, s.job.pour) then (cause, detail, e, s.job.pour) else x
  let lowRec := fun (x : Nat × Nat × Nat × Nat) =>
    if x = (st.cause, e, s.job.pour, st.detail) then (cause, e, s.job.pour, detail) else x
  let s := s.setLedger fun l =>
    { l with
      notices := l.notices.map fun n =>
        if n.kind == 2 && n.clk == s.clk && l.first == some (st.cause, st.detail, e, s.job.pour) then
          { n with item := noticeItem 2 cause 0 (s.heatLen - 1) detail }
        else n
      first := l.first.map low
      recBody := lowRec l.recBody }
  s.setEntry e fun x => { x with cause := cause, detail := detail }

/-- One entry becomes RETRACTED with its cause and is announced (R370, R376). A lower cause of the same clk replaces a higher (R372). -/
def retractOne (e cause detail : Nat) (skip : Option Nat) (acts : EntryState → Bool) (s : State) : State :=
  let st := s.entry e
  if canRetract s e acts then
    let was : Nat := if st.state = .committed then 1 else 0
    let s := withdrawNotices e s
    let s := s.setEntry e fun x => { x with state := .retracted, cause := cause, detail := detail, decPour := s.job.pour, decClk := s.clk }
    let s := s.setLedger fun l => { l with retracted := satAdd 16 l.retracted 1, committed := l.committed - was }
    holdOwn cause detail e skip (recordRetract cause detail e (announceEntry e 2 cause detail s))
  else if retractedNow s e acts && decide (cause < st.cause) then
    announceEntry e 2 cause detail (lowerCause e cause detail (withdrawNotices e s))
  else s

/-- States acted on by a notice, a dep and a link-down (R370). -/
def undecided : EntryState → Bool
  | .idle => true | .opened => true | .due => true | _ => false

/-- States acted on by a mark. -/
def openOnly : EntryState → Bool
  | .opened => true | _ => false

/-- An entry that the retraction of its dep still changes: it is undecided, or a higher cause of this very clk gives way (R370, R372). -/
def depActs (s : State) (e : Nat) : Bool :=
  canRetract s e undecided || (retractedNow s e undecided && decide (0x09 < (s.entry e).cause))

/-- Entries that wait for a retracted dep become RETRACTED, UPSTREAM, with all ones as detail, through any chain of deps (R370, R371). -/
def retractDeps : Nat → State → State
  | 0, s => s
  | n + 1, s =>
    let hit := (validEntries s).filter fun e =>
      match depOf s e with
      | some d => (s.entry d).state == .retracted && depActs s e
      | none => false
    if hit.isEmpty then s
    else retractDeps n (each hit (fun e => retractOne e 0x09 0xFFFFFFFF none undecided) s)

/-- Retract entries, and everything that depends on them. -/
def retractEntries (es : List Nat) (cause detail : Nat) (skip : Option Nat) (acts : EntryState → Bool) (s : State) : State :=
  retractDeps (validEntries s).length (each es (fun e => retractOne e cause detail skip acts) s)

/-- The running clk lies after the cutoff of the heat (R382). -/
def State.afterCutoff (s : State) : Bool := s.job.pour + 1 == s.heatLen && decide (s.cutoff < s.pourOff)

/-- A mark: it retracts the OPEN entries it reaches and holds the heat RETRACTED (R371, R380); after the cutoff it belongs to the next
slot (R382). -/
def mark (cause detail : Nat) (es : List Nat) (s : State) : State :=
  if s.afterCutoff then
    s.setLedger fun l => { l with carry := if l.carry.isSome then l.carry else some (cause, detail) }
  else
    let hits := es.filter fun e => canRetract s e openOnly || retractedNow s e openOnly
    let s := retractEntries hits cause detail none openOnly s
    holdOwn cause detail 0 none (if hits.isEmpty then recordRetract cause detail 0 s else s)

/-- Every entry that is OPEN, or was until this very clk retracted it (R371, R372). -/
def openEntries (s : State) : List Nat :=
  (validEntries s).filter fun e => (s.entry e).state == .opened || retractedNow s e openOnly

/-- The OPEN entries that a station feeds (R371): its bay and its kind are set. -/
def fedBy (s : State) (a : Nat) : List Nat :=
  (openEntries s).filter fun e => bit (entryWord s e 0) (33 + a / 256) && bit (entryWord s e 0) (23 + a / 16 % 16) && a / 16 % 16 < 10

/-- The conditions of R373. -/
def commits (s : State) (e : Nat) : Bool :=
  let st := s.entry e
  st.state == .due && st.upSeen == (upPorts s e).length &&
    (match depOf s e with | some d => (s.entry d).state == .committed | none => true)

/-- One entry becomes COMMITTED and is announced. -/
def commitOne (e : Nat) (s : State) : State :=
  let s := s.setEntry e fun x => { x with state := .committed, decPour := s.job.pour, decClk := s.clk }
  announceEntry e 1 0 0 (s.setLedger fun l => { l with committed := satAdd 16 l.committed 1 })

/-- Every DUE entry whose conditions hold commits, through any chain of deps (R373). -/
def commitAll : Nat → State → State
  | 0, s => s
  | n + 1, s =>
    let hit := (validEntries s).filter (commits s)
    if hit.isEmpty then s else commitAll n (each hit commitOne s)

/-- Decide what can be decided. -/
def decide' (s : State) : State := commitAll (validEntries s).length s

/-- A link-down event on a port (R123, R370, R394): entries that name the port are retracted, and in a replay a quench is due. -/
def linkDown (p : Nat) (s : State) : State :=
  if s.running then
    let q := swapPort s p
    let es := (validEntries s).filter fun e => inUp s e q || inDown s e q
    let s := s.setLedger fun l =>
      { l with slotDown := satAdd 16 l.slotDown 1, downPorts := if l.downPorts.contains p then l.downPorts else p :: l.downPorts }
    let s := retractEntries es 0x08 p none undecided s
    if s.replaying then quenchDue 0x47 p s else s
  else s

end Sys2Proof.Machine
end

