-- ==== Sys2Proof/Machine/Time.lean ====
section
/-!
DEFINITION. Fabric time and its discipline by PTP and 1 PPS (R19 to R30, R45 to R48, R76).
-/

namespace Sys2Proof.Machine

/-- A duration of 2^n seconds in clk, for n from −8 to 7. -/
def logClk (n : Int) : Nat := if n < 0 then 1800000000 / 2 ^ (-n).toNat else 1800000000 * 2 ^ n.toNat

def State.logSync (s : State) : Int := signed 4 (fld s.timeCfg 51 48)
def State.logDelay (s : State) : Int := signed 4 (fld s.timeCfg 55 52)
def State.logAnnounce (s : State) : Int := signed 4 (fld s.timeCfg 59 56)
def State.gmCapable (s : State) : Bool := bit s.timeCfg 3

/-- Delay asymmetry of a port in units of 2^-16 ns, signed (R22, R457). -/
def State.asym (s : State) (p : Nat) : Int := signed 32 (fld (s.cfgw (ptKey p 0x10)) 63 32)

/-- PORT_CFG (R148). -/
def State.portCfg (s : State) (p : Nat) : Word := s.cfgw (ptKey p 8)
def State.portEnabled (s : State) (p : Nat) : Bool := bit (s.portCfg p) 0
/-- 4 or 8 lanes; 0 when not enabled (R116, R149). Where the two PORT_CFG words of a bay disagree on width8 each port goes by its own: the
manual names no check (DESIGN CHOICE, log entry 71). -/
def State.portWidth (s : State) (p : Nat) : Nat :=
  if s.portEnabled p then (if bit (s.portCfg p) 2 then 8 else 4) else 0
def State.portUp (s : State) (p : Nat) : Bool := s.lit && (s.port p).state == .up

/-- Time becomes LOST. In RUN a quench is due; in EPOCH the start is dropped and the module fails (R47, R48, R106). -/
def loseTime (code : Nat) (s : State) : State :=
  let s := s.setTime fun t => { t with state := .lost, offsetPs := 0, slew := none }
  if s.running then quenchDue code 0 s
  else if s.boot.phase = .epoch then failExit code 0 (dropStart s)
  else s

/-- The source is lost: a LOCKED module enters HOLDOVER (R45); in ACQUIRE the intervals counted so far are no longer consecutive (R29). -/
def loseSource (s : State) : State :=
  match s.time.state with
  | .locked => s.setTime fun t => { t with state := .holdover }
  | .holdover => s.setTime fun t => { t with slew := none }
  | _ => s.setTime fun t => { t with good := 0 }

/-- LOCKED again, or still: a new LOCKED begins a new count of the 600 s of hold_ok (R30, R48). -/
def lockNow (s : State) : State :=
  s.setTime fun t =>
    if t.state = .locked then { t with slew := none }
    else { t with state := .locked, slew := none, lockClk := s.clk, holdOk := false }

/-- A measured offset in ps, LOCKED or HOLDOVER: the rules of R48. An offset above 10 ns that a LOCKED module measures, as after a change of
master, is a return from holdover with that offset (R29): the state is HOLDOVER while the module slews. -/
def returnOffset (ps : Int) (s : State) : State :=
  let s := s.setTime fun t => { t with offsetPs := satSigned 32 ps }
  if ps.natAbs ≤ 10000 then lockNow s
  else if ps.natAbs ≤ 20000 then s.setTime fun t => { t with state := .holdover, slew := some (s.clk, ps.natAbs) }
  else loseTime 0x36 s

/-- What is left of the offset that is slewed out, in ps: 10 ppm of the time since the measurement, one ps in 180 clk (R48). -/
def slewLeft (s : State) : Option Nat := s.time.slew.map fun e => e.2 - (s.clk - e.1) / 180

/-- The slew ends within 10 ns: LOCKED (R48). -/
def slewTick (s : State) : State :=
  match slewLeft s with
  | some ps => if ps ≤ 10000 then lockNow s else s
  | none => s

/-- A measured offset in ACQUIRE: 64 consecutive intervals within 10 ns give LOCKED (R29); a larger one steps time and restarts the count. -/
def acquireOffset (ps : Int) (s : State) : State :=
  if ps.natAbs ≤ 10000 then
    if 63 ≤ s.time.good then
      let s := s.setTime fun t => { t with state := .locked, good := 64, lockClk := s.clk, holdOk := false, offsetPs := ps }
      if s.boot.phase = .time then enterPhase .epoch s else s
    else s.setTime fun t => { t with good := t.good + 1 }
  else s.setTime fun t => { t with good := 0, now := ((t.now : Int) - ps * 9 / 1000).toNat }

/-- The time injector: whether the event is muted, and the ps added to the offset (R452, R453). -/
def timeInject (s : State) : Bool × Int × State :=
  let w := s.inj.time
  if !injects s w then (false, 0, s.setInj fun i => { i with stepDone := false })
  else if bit w 62 then (true, 0, s.setInj fun i => { i with cntTime := satAdd 16 i.cntTime 1 })
  else if s.inj.stepDone || fld w 31 0 == 0 then (false, 0, s)
  else (false, signed 32 (fld w 31 0), s.setInj fun i => { i with stepDone := true, cntTime := satAdd 16 i.cntTime 1 })

/-- The largest |offset| of the averaging second (R397). -/
def noteOffset (s : State) : State := s.setPwr fun p => { p with maxOffset := max p.maxOffset s.time.offsetPs.natAbs }

/-- The intervals counted in ACQUIRE, none where a sync interval passed without a valid Sync: the last one lies two intervals or more back
(R29). -/
def consecutive (source : Nat) (s : State) : Nat :=
  if source = 1 && decide (s.time.lastValid + 2 * logClk s.logSync ≤ s.clk) then 0 else s.time.good

/-- The holdover limit has been reached (R46). -/
def State.limitReached (s : State) : Bool :=
  s.time.state == .holdover && decide (s.time.lastValid + 1800000 * s.holdLimit ≤ s.clk)

/-- A valid Sync or PPS edge with a measured offset (R29, R45, R48). Once the holdover limit has been reached the quench is due and the
source cannot return (R47). -/
def takeOffset (ps : Int) (source : Nat) (s : State) : State :=
  if s.limitReached || s.job.limitHit then s
  else match s.time.state with
  | .free | .acquire => acquireOffset ps (s.setTime fun t =>
      { t with state := .acquire, source := source, lastValid := s.clk, good := consecutive source s })
  | .locked | .holdover => noteOffset (returnOffset ps (s.setTime fun t => { t with lastValid := s.clk, source := source }))
  | .lost => s

/-- The phases in which the source is tracked: from TIME on (R103). -/
def State.tracking (s : State) : Bool :=
  s.boot.phase == .time || s.boot.phase == .epoch || s.boot.phase == .run

/-- The time at which a message that arrives now reached the fibre face, in 2^-16 ns (R24). -/
def rxStamp (p : Nat) (s : State) : Nat := s.timeFrac - Config.portLatency (s.portWidth p)

/-- A PTP message that the boundary clock does not support is discarded and counted (R22): counter ptp_discard. -/
def ptpDiscard (p : Nat) (s : State) : State := s.setPort p fun x => { x with ctr := tmod 0 x.ctr 10 (satAdd 32 · 1) }

/-- A PTP message is of another domain than the pattern's: the model discards and counts it (log entry 14). -/
def otherDomain (head : PtpHead) (s : State) : Bool := head.domain != fld s.timeCfg 11 4

/-- SYNC (R22, R26, R29, R48): taken on the slave port of a module whose source is PTP. -/
def execSync (port : PortNo) (origin : Nat) (head : PtpHead) (twoStep : Bool) (s : State) : Out :=
  let p := port.toNat
  if !s.portUp p then .next s
  else if twoStep || otherDomain head s then .next (ptpDiscard p s)
  else
    let (muted, step, s) := timeInject s
    if muted || s.timeSrc == 1 || s.time.slave != some port || !s.tracking then .next s
    else
      let t1 : Int := (origin * 65536 : Nat) + head.correction.toInt
      let t2 := rxStamp p s
      let off : Int := (t2 : Int) - t1 - tget 0 s.time.pathDelay p - s.asym p
      let s := s.setTime fun t => { t with lastSync := tset t.lastSync p (t1, t2) }
      .next (takeOffset (Int.tdiv (off * 1000) 65536 + step) 1 s)

/-- DELAY_RESP (R22): the mean path delay from the last Sync and the outstanding Delay_Req, less the correctionField. -/
def execDelayResp (port : PortNo) (rxTime : Nat) (head : PtpHead) (s : State) : Out :=
  let p := port.toNat
  .next (if s.portUp p && otherDomain head s then ptpDiscard p s
  else match s.portUp p, tget? s.time.delaySent p, tget? s.time.lastSync p with
    | true, some (t3, q), some (t1, t2) =>
      if q = head.seqId then
        let d : Int := (((t2 : Int) - t1) + ((rxTime * 65536 : Nat) - (t3 : Int) - head.correction.toInt)) / 2
        s.setTime fun t => { t with pathDelay := tset t.pathDelay p d, delaySent := tdel t.delaySent p }
      else s
    | _, _, _ => s)

/-! ### The best master clock algorithm (R22) -/

/-- Rank of a data set among different grandmasters, as IEEE 1588 orders them: lower is better. -/
def gmKey (a : AnnounceData) : List Nat := [a.priority1, a.clockClass, a.accuracy, a.variance, a.priority2, a.identity]

/-- The first difference decides. -/
def lexLt : List Nat → List Nat → Bool
  | a :: as, b :: bs => if a < b then true else if b < a then false else lexLt as bs
  | _, _ => false

/-- Data set a is better than b. -/
def betterThan (a b : AnnounceData) : Bool :=
  if a.identity = b.identity then lexLt [a.stepsRemoved, a.sender] [b.stepsRemoved, b.sender] else lexLt (gmKey a) (gmKey b)

/-- The module's own data set (R22: clockClass 248 while not locked; a boundary clock's own class otherwise as well). -/
def ownData (s : State) : AnnounceData :=
  { domain := fld s.timeCfg 11 4, priority1 := fld s.timeCfg 19 12, clockClass := 248, accuracy := Config.clockAccuracy,
    variance := Config.clockVariance, priority2 := fld s.timeCfg 39 32, identity := Config.clockIdentity, stepsRemoved := 0,
    sender := Config.clockIdentity }

/-- A duration of one announce interval of the pattern, in clk. -/
def announceClk (s : State) : Nat := logClk s.logAnnounce

/-- A foreign master is qualified (IEEE 1588-2019 clause 9.3.2.5): it has sent two Announce messages within four announce intervals, and
fewer than 255 steps lie before it. -/
def qualified (s : State) (p : Nat) (a : AnnounceData) : Bool :=
  decide (a.stepsRemoved < 255) &&
  (match tget [] s.time.announceClks p with
   | _ :: before :: _ => decide (s.clk ≤ before + 4 * announceClk s)
   | _ => false)

/-- The best qualified foreign data set and its port; of equal ones the lower port. -/
def bestForeign (s : State) : Option (Nat × AnnounceData) :=
  (s.time.foreign.filter fun e => qualified s e.1 e.2).foldl (fun b e =>
    match b with
    | none => some e
    | some x => if betterThan e.2 x.2 then some e else some x) none

/-- The port from which time is taken: none when the module itself is grandmaster. -/
def chooseSlave (s : State) : State :=
  let best := bestForeign s
  let slave := match best with
    | none => none
    | some e => if s.gmCapable && betterThan (ownData s) e.2 then none else some (BitVec.ofNat 8 e.1)
  s.setTime fun t => { t with slave := slave }

/-- The data set of a port's foreign master and the clks of its last two Announce messages, newest first; another sender starts anew. -/
def noteAnnounce (p : Nat) (a : AnnounceData) (s : State) : State :=
  let old := if (tget? s.time.foreign p).any (fun b => b.sender == a.sender) then tget [] s.time.announceClks p else []
  s.setTime fun t => { t with foreign := tset t.foreign p a, announceClks := tset t.announceClks p (s.clk :: old.take 1) }

/-- ANNOUNCE (R22, R29): a message of this very clock is not considered. -/
def execAnnounce (port : PortNo) (a : AnnounceData) (s : State) : Out :=
  if !s.portUp port.toNat then .next s
  else if a.domain ≠ fld s.timeCfg 11 4 then .next (ptpDiscard port.toNat s)
  else
    let (muted, _, s') := timeInject s
    if muted || decide (a.sender = Config.clockIdentity) then .next s'
    else .next (chooseSlave (noteAnnounce port.toNat a s'))

/-- SYNC_LOSS (R45): no valid Sync for three sync intervals. -/
def execSyncLoss (s : State) : Out :=
  .next (if s.timeSrc != 1 && decide (s.time.lastValid + 3 * logClk s.logSync ≤ s.clk) then loseSource s else s)

/-- The Announce receipt timeout of a port has passed since its last Announce: 2 to 8 announce intervals (R22, R447). -/
def announceLate (s : State) (p : Nat) : Bool :=
  decide ((tget [] s.time.announceClks p).headD 0 + (fld s.timeCfg 44 42 + 1) * announceClk s ≤ s.clk)

/-- ANNOUNCE_RECEIPT_TIMEOUT (R45): the master is forgotten, the source lost, and the best remaining one chosen. -/
def execAnnounceReceiptTimeout (s : State) : Out :=
  .next (match s.time.slave with
    | none => s
    | some p =>
      if announceLate s p.toNat then
        let s := if s.timeSrc != 1 then loseSource s else s
        chooseSlave (s.setTime fun t => { t with foreign := tdel t.foreign p.toNat, announceClks := tdel t.announceClks p.toNat })
      else s)

/-- A rejected or missing PPS edge: the third in a row loses the source (R27, R45), and edges counted in ACQUIRE are no longer consecutive
(R29). -/
def badEdge (s : State) : State :=
  let s := s.setTime fun t => { t with ppsBad := t.ppsBad + 1, good := if t.state = .acquire then 0 else t.good }
  if 3 ≤ s.time.ppsBad && s.timeSrc == 1 then loseSource s else s

/-- PPS_EDGE (R26, R27): `errPs` is the edge's distance from the predicted whole second. The first edge of ACQUIRE places the seconds
count given over the chain (R103). -/
def execPpsEdge (errPs : Int) (s : State) : Out :=
  if !s.pwr.mainOn || !s.tracking then .next s
  else if s.timeSrc = 2 then
    .next (if 100000 < errPs.natAbs then s.setTime fun t => { t with ppsFar := t.ppsFar + 1 } else s)
  else if s.timeSrc ≠ 1 then .next s
  else
    let (muted, step, s) := timeInject s
    if muted then .next s
    else if s.time.state = .free then
      .next (match s.chain.nextSecond with
        | none => s
        | some sec => s.setTime fun t =>
            { t with state := .acquire, source := 2, now := sec * 9000000000, lastValid := s.clk, good := 1 })
    else if 1000000 < errPs.natAbs then
      .next (badEdge (s.setTime fun t => { t with ppsRejected := t.ppsRejected + 1 }))
    else .next (takeOffset (errPs + step) 2 (s.setTime fun t => { t with ppsBad := 0 }))

/-- PPS_MISSING (R27). -/
def execPpsMissing (s : State) : Out := .next (if s.pwr.mainOn && s.timeSrc == 1 then badEdge s else s)

/-- HOLDOVER_LIMIT (R47): in RUN a quench with TIME_LOST is due at the next boundary; before RUN time is LOST at once (R106). -/
def execHoldoverLimit (s : State) : Out :=
  .next (if s.limitReached && !s.job.limitHit then
    let s := s.setJob fun j => { j with limitHit := true }
    if s.running then quenchDue 0x35 0 s else loseTime 0x35 s
  else s)

/-- HOLD_OK (R30): LOCKED has lasted 600 s without a break. -/
def execHoldOk (s : State) : Out :=
  .next (if s.time.state == .locked && decide (s.time.lockClk + 1080000000000 ≤ s.clk) then
    s.setTime fun t => { t with holdOk := true } else s)

/-- The fabric second begins in this clk (R76). -/
def secondBegins (s : State) : Bool := decide (s.time.now % 9000000000 < 5)

/-- A mark of the mode falls in this clk: a whole second of fabric time in mode 1, clk 0 of a pour in mode 2 (R76). -/
def markFalls (s : State) : Bool :=
  match s.timeOutMode with
  | 1 => secondBegins s
  | 2 => s.running && s.pourOff == 0
  | _ => false

/-- Length of a mark in clk: 100 ms in mode 1, 1 µs in mode 2 (R76). -/
def markClk (s : State) : Nat := if s.timeOutMode = 1 then 180000000 else 1800

/-- TIME_OUT_MARK (R76). -/
def execTimeOutMark (s : State) : Out :=
  .next (if s.pwr.mainOn && s.timed && markFalls s then
    s.setPwr fun p => { p with timeOut := true, markEnd := s.clk + markClk s } else s)

/-- TIME_OUT_MARK_END (R76): a mark is always output in full. -/
def execTimeOutMarkEnd (s : State) : Out :=
  .next (if decide (s.pwr.markEnd ≤ s.clk) then s.setPwr fun p => { p with timeOut := false } else s)

/-! ### PTP messages the module sends (R22, R23) -/

/-- The 34-byte PTP header (IEEE 1588-2019 clause 13.3): flagField says ptpTimescale in an Announce, since fabric time is TAI (R19), and
nothing else. -/
def ptpHeader (type len seqId port : Nat) (logInt : Int) (correction : BitVec 64) (s : State) : List Byte :=
  beBytes 1 type ++ beBytes 1 0x12 ++ beBytes 2 len ++ beBytes 1 (fld s.timeCfg 11 4) ++ beBytes 1 0 ++
  beBytes 2 (if type = 11 then 8 else 0) ++ beBytes 8 correction.toNat ++ beBytes 4 0 ++ beBytes 8 Config.clockIdentity ++ beBytes 2 (port + 1) ++ beBytes 2 seqId ++
  beBytes 1 (match type with | 0 => 0 | 1 => 1 | 9 => 3 | _ => 5) ++ beBytes 1 (unsigned 8 logInt)

/-- A PTP timestamp: 48-bit seconds and 32-bit nanoseconds of a time in ns. -/
def ptpTime (ns : Nat) : List Byte := beBytes 6 (ns / 1000000000) ++ beBytes 4 (ns % 1000000000)

/-- Pad with zero bytes to the next 16-byte unit (R23). -/
def pad16 (bs : List Byte) : List Byte := bs ++ List.replicate ((16 - bs.length % 16) % 16) 0

/-- A class 0 packet of type PTP that carries a message; link_seq zero (R23, R126, R144). -/
def ptpPacket (body : List Byte) (s : State) : Packet :=
  let pay := pad16 body
  { hdr := BitVec.ofNat 256 (1 * 2 ^ 252 + 4 * 2 ^ 248 + 2 ^ 222 + s.moduleId * 2 ^ 202 + (pay.length / 16 - 1) * 2 ^ 108 +
      s.job.pour * 2 ^ 32)
    payload := pay, trailer := 0, stampPour := 0, stampClk := 0, inPort := none, stomped := false, complete := true, ident := 0 }

/-- Next sequence number of a message kind on a port. -/
def nextSeq (kind p : Nat) (s : State) : Nat := tget 0 s.time.seqIds (256 * kind + p)

/-- Queue a PTP message on a port; its departure time is written when it leaves (R24, R25). -/
def queuePtp (kind p : Nat) (body : List Byte) (s : State) : State :=
  let s := s.setPort p fun x => { x with ptpQ := x.ptpQ ++ [ptpPacket body s] }
  s.setTime fun t => { t with seqIds := tset t.seqIds (256 * kind + p) ((nextSeq kind p s + 1) % 65536) }

/-- The port is a master port: UP, not the slave port, of a clock that has or is a master. -/
def masterPort (p : Nat) (s : State) : Bool :=
  s.portUp p && s.time.slave != some (BitVec.ofNat 8 p) && (s.time.slave.isSome || s.gmCapable)

/-- SYNC_INTERVAL (R22, R24). -/
def execSyncInterval (port : PortNo) (s : State) : Out :=
  let p := port.toNat
  .next (if masterPort p s then queuePtp 0 p (ptpHeader 0 44 (nextSeq 0 p s) p s.logSync 0 s ++ ptpTime 0) s else s)

/-- DELAY_REQ_INTERVAL (R22): on the slave port; logMessageInterval of a Delay_Req is 0x7F (IEEE 1588-2019 clause 13.3). -/
def execDelayReqInterval (s : State) : Out :=
  .next (match s.time.slave with
    | some port =>
      let p := port.toNat
      if s.portUp p then queuePtp 1 p (ptpHeader 1 44 (nextSeq 1 p s) p 127 0 s ++ ptpTime 0) s else s
    | none => s)

/-- DELAY_REQ (R22, R24): answered with the time it reached the fibre face and the request's correctionField. -/
def execDelayReq (port : PortNo) (requester : Nat) (head : PtpHead) (s : State) : Out :=
  let p := port.toNat
  .next (if s.portUp p && otherDomain head s then ptpDiscard p s
  else if masterPort p s then
    queuePtp 9 p (ptpHeader 9 54 head.seqId p s.logDelay head.correction s ++ ptpTime (rxStamp p s / 65536) ++ beBytes 10 requester) s
  else s)

/-- The data set announced: the master's with one step more, or the module's own. -/
def announced (s : State) : AnnounceData :=
  match s.time.slave with
  | some p => let a := tget (ownData s) s.time.foreign p.toNat
              { a with stepsRemoved := a.stepsRemoved + 1 }
  | none => ownData s

/-- The body of an Announce. -/
def announceBody (a : AnnounceData) : List Byte :=
  ptpTime 0 ++ beBytes 2 37 ++ [0] ++ beBytes 1 a.priority1 ++ beBytes 1 a.clockClass ++ beBytes 1 a.accuracy ++
  beBytes 2 a.variance ++ beBytes 1 a.priority2 ++ beBytes 8 a.identity ++ beBytes 2 a.stepsRemoved ++ [0x20]

/-- ANNOUNCE_INTERVAL (R22): on every master port. -/
def execAnnounceInterval (s : State) : Out :=
  .next (each ((List.range 256).filter fun p => masterPort p s)
    (fun p s => queuePtp 11 p (ptpHeader 11 64 (nextSeq 11 p s) p s.logAnnounce 0 s ++ announceBody (announced s)) s) s)

end Sys2Proof.Machine
end

