-- ==== Sys2Proof/Machine/Job.lean ====
section
/-!
DEFINITION. The armed operations: job start (R104 to R107), gate-list swap (R49 to R53), pattern-slot switch (R421, R422).
The boundary that performs them is in Sys2Proof/Machine/Boundary.lean.
-/

namespace Sys2Proof.Machine

/-- A time from its seconds and nanoseconds registers, in ns. -/
def nsOfPair (sec : BitVec 48) (ns : BitVec 32) : Nat := sec.toNat * 1000000000 + ns.toNat

/-- An arm that passes or is refused: the state shown and the code (R50, R105). -/
def armState (st : ArmState) (code : Nat) : ArmState :=
  if code = 0 then .armed else if st = .armed || st = .fixed then st else .refused

/-- An armed or fixed operation is in place. -/
def held (st : ArmState) : Bool := st == .armed || st == .fixed

/-! ### Job start -/

/-- The checks of R105, in order; 0 when all pass. -/
def jobCheck (cancel : Bool) (s : State) : Nat :=
  if s.boot.phase ≠ .epoch then 0x06
  else if s.time.state ≠ .locked then 0x04
  else if held s.job.jobState || cancel then 0x03
  else if 999999999 < s.job.epochNs.toNat || s.job.epochNs.toNat % 5 ≠ 0 then 0x30
  else if nsOfPair s.job.epochSec s.job.epochNs * 9 < s.time.now + 900000000 then 0x31
  else 0

/-- What a write of JOB_START.arm does. -/
def jobArm (cancel : Bool) (s : State) : State :=
  let c := jobCheck cancel s
  s.setJob fun j =>
    { j with jobState := armState j.jobState c, jobCode := if c = 0 then j.jobCode else c,
             e0 := if c = 0 then nsOfPair j.epochSec j.epochNs else j.e0 }

/-- JOB_ARM (R105). -/
def execJobArm (cancel : Bool) (s : State) : Out := onMain (jobArm cancel) s

/-- What a write of JOB_START.cancel alone does. -/
def jobCancel (s : State) : State :=
  match s.job.jobState with
  | .armed => s.setJob fun j => { j with jobState := .idle }
  | .fixed => s.setJob fun j => { j with jobCode := 0x05 }
  | _ => s

/-- JOB_CANCEL (R106). -/
def execJobCancel (s : State) : Out := onMain jobCancel s

/-- JOB_FIX (R106): 10 ms before E0. -/
def execJobFix (s : State) : Out :=
  .next (if s.job.jobState = .armed && decide (s.job.e0 * 9 ≤ s.time.now + 90000000) then
    s.setJob fun j => { j with jobState := .fixed } else s)

/-! ### Boundaries of the job -/

/-- Length of a pour in ns (R34). -/
def State.pourNs (s : State) : Nat := 5 * s.pourLen

/-- The fabric time in ns at which the running pour began (R34). -/
def State.pourStart (s : State) : Nat := s.job.e0 + (s.job.slot * s.heatLen + s.job.pour) * s.pourNs

/-- The next pour boundary: the end of the running pour; outside RUN, E0 or the first whole multiple of P after it that lies ahead (R34). -/
def State.nextBoundary (s : State) : Nat :=
  if s.running then s.pourStart + s.pourNs
  else if s.ns < s.job.e0 then s.job.e0
  else s.job.e0 + ((s.ns - s.job.e0) / s.pourNs + 1) * s.pourNs

/-- The job has an epoch: a start armed, fixed or made. -/
def State.hasEpoch (s : State) : Bool := held s.job.jobState || s.job.jobState == .done

/-- Checks three and four of R50 over a time in ns. -/
def boundaryCheck (sec : BitVec 48) (ns : BitVec 32) (s : State) : Nat :=
  let t := nsOfPair sec ns
  if 999999999 < ns.toNat || !s.hasEpoch || decide (t < s.job.e0) || decide ((t - s.job.e0) % s.pourNs ≠ 0) then 0x02
  else if t ≤ s.nextBoundary then 0x01
  else 0

/-! ### Gate-list swap -/

/-- The checks of R50, in order. -/
def gateCheck (cancel : Bool) (s : State) : Nat :=
  if !s.timed then 0x04
  else if held s.job.gateState || cancel then 0x03
  else boundaryCheck s.job.swapSec s.job.swapNs s

/-- What a write of GATE_ARM.arm does (R50). -/
def gateArm (cancel : Bool) (s : State) : State :=
  let c := gateCheck cancel s
  s.setJob fun j =>
    { j with gateState := armState j.gateState c, gateCode := if c = 0 then j.gateCode else c,
             gateT := if c = 0 then nsOfPair j.swapSec j.swapNs else j.gateT }

/-- GATE_ARM (R50). -/
def execGateArm (cancel : Bool) (s : State) : Out := onMain (gateArm cancel) s

/-- What a write of GATE_ARM.cancel alone does (R51). -/
def gateCancel (s : State) : State :=
  match s.job.gateState with
  | .armed => s.setJob fun j => { j with gateState := .idle }
  | .fixed => s.setJob fun j => { j with gateCode := 0x05 }
  | _ => s

/-- GATE_CANCEL (R51). -/
def execGateCancel (s : State) : Out := onMain gateCancel s

/-! ### Pattern-slot switch -/

/-- The lock is off or names the slot (R422). -/
def slotAllowed (slot : Bool) (s : State) : Bool := s.fuse.lock < 2 || s.fuse.lock == (if slot then 3 else 2)

/-- The checks of R422, in order. -/
def slotCheck (slot cancel : Bool) (s : State) : Nat :=
  if !s.running then 0x06
  else if !s.timed then 0x04
  else if held s.job.slotState || cancel then 0x03
  else if boundaryCheck s.job.slotSec s.job.slotNs s ≠ 0 then boundaryCheck s.job.slotSec s.job.slotNs s
  else if !slotAllowed slot s then 0x07
  else 0

/-- What a write of SLOT_SW_ARM.arm does. -/
def slotArm (slot cancel : Bool) (s : State) : State :=
  let c := slotCheck slot cancel s
  s.setJob fun j =>
    { j with slotState := armState j.slotState c, slotCode := if c = 0 then j.slotCode else c,
             slotT := if c = 0 then nsOfPair j.slotSec j.slotNs else j.slotT, slotArm := if c = 0 then slot else j.slotArm }

/-- SLOT_SW_ARM (R422). -/
def execSlotSwArm (slot cancel : Bool) (s : State) : Out := onMain (slotArm slot cancel) s

/-- What a write of SLOT_SW_ARM.cancel alone does. -/
def slotCancel (s : State) : State :=
  match s.job.slotState with
  | .armed => s.setJob fun j => { j with slotState := .idle }
  | .fixed => s.setJob fun j => { j with slotCode := 0x05 }
  | _ => s

/-- SLOT_SW_CANCEL (R422). -/
def execSlotSwCancel (s : State) : Out := onMain slotCancel s

/-- What a write of GCTL.quench does: ignored outside RUN (R443). -/
def orderQuench (s : State) : State := if s.running then quenchDue 0 0 s else s

/-- ORDERED_QUENCH (R443). -/
def execOrderedQuench (s : State) : Out := onMain orderQuench s

end Sys2Proof.Machine
end

