-- ==== Sys2Proof/Machine/Flags.lean ====
section
/-!
DEFINITION. Schedule violations (R229 to R232) and the flags and counters of stations: signals, waits on a neighbour, the changes of one
clk together (R220 to R223, R225).
-/

namespace Sys2Proof.Machine

/-- Violation codes (R229). -/
def popEmpty : Nat := 0x01
def pushFull : Nat := 0x02
def conflict : Nat := 0x03
def slotMiss : Nat := 0x04
def flagConflict : Nat := 0x05
def counterOvf : Nat := 0x06
def waitExpired : Nat := 0x07
def atPassed : Nat := 0x08
def bound : Nat := 0x09
def constWrite : Nat := 0x0A
def refreshViol : Nat := 0x0B
def overrun : Nat := 0x0C
def leftover : Nat := 0x0D

/-- The place of a queue end (R233). -/
def endPlace (e : Nat) : Nat := 0x4000 + e

/-- A violation at a station with its pour, clk and heat (R231, R232): it marks the entries that the station feeds in that pour. A warm spare in standby only counts it (R392). -/
def violateAt (a code place pour clk heat : Nat) (s : State) : State :=
  let s := s.setStation a fun x => { x with violCount := satAdd 16 x.violCount 1 }
  if s.standby then s
  else
    let s := s.setStation a fun x =>
      if x.violValid then x
      else { x with violValid := true, violCode := code, violPlace := place, violPour := pour, violClk := clk, violHeat := heat }
    let me := (a, code, place, pour, clk)
    let s := s.setLedger fun l =>
      { l with slotViol := satAdd 16 l.slotViol 1, firstViol := if l.firstViol.isSome then l.firstViol else some me }
    let s := mark 0x01 0 ((fedBy s a).filter fun e => decide (firstPour s e ≤ pour) && decide (pour ≤ s.job.pour)) s
    if s.replaying && s.ledger.prevViol == some me then quenchDue 0x42 a s else s

/-- A violation in the running clk. -/
def violate (a code place : Nat) (s : State) : State := violateAt a code place s.job.pour s.pourOff s.job.heat s

/-! ### Signals (R221, R222) -/

/-- The delay k between two stations (R222). -/
def partnerDelay (a b : Nat) : Nat :=
  if a = b then 1 else if a / 256 = b / 256 then 4 else if a / 2048 = b / 2048 then 10 else 18

/-- A change that a wait evaluated at `due` sees. -/
def sendSignal (due a : Nat) (k : SigKind) (place : Option Nat) (s : State) : State :=
  s.setFab fun f => { f with signals := f.signals ++ [{ due := due, target := BitVec.ofNat 12 a, kind := k, place := place }] }

/-- A neighbour's address: entry n of the neighbour table, or the station itself for 0 (R220, R233). -/
def neighbour (s : State) (a nb : Nat) : Nat := if nb = 0 then a else fld (s.cfgw (stKey a (0x80 + 8 * nb))) 11 0

/-- What a signal field asks for, with its target's table index; none for type 0 (R221). -/
def signalOf (sig : Nat) : Option (Nat × SigKind × Bool) :=
  let nb := sig / 2 ^ 11 % 8
  match sig / 2 ^ 14 with
  | 1 => some (nb, .set (sig / 32 % 64), sig / 16 % 2 == 1)
  | 2 => some (nb, .clear (sig / 32 % 64), sig / 16 % 2 == 1)
  | 3 => some (nb, .add (sig / 64 % 32) (sig % 32 + 1), sig / 32 % 2 == 1)
  | _ => none

/-- Fire a station's signal at issue (`late` false) or at completion (`late` true): sent in clk t (R221, R222). -/
def fireSignal (a : Nat) (word : Word) (late : Bool) (t place : Nat) (s : State) : State :=
  match signalOf (fld word 15 0) with
  | none => s
  | some (nb, k, w) =>
    if w = late then
      let b := neighbour s a nb
      sendSignal (t + partnerDelay a b) b k (if b = a then some place else none) s
    else s

/-! ### The changes that reach one flag or counter in one clk (R223) -/

def flagKey (a i : Nat) : Nat := 128 * a + i
def ctrKey (a i : Nat) : Nat := 128 * a + 64 + i

/-- The item a change reaches. -/
def sigKey (x : Signal) : Nat :=
  match x.kind with
  | .set i | .clear i => flagKey x.target.toNat i
  | .add i _ | .take i _ => ctrKey x.target.toNat i

/-- A value before its change is kept for waits of neighbours (R222). -/
def keepPast (key old due : Nat) (s : State) : State :=
  s.setFab fun f => { f with past := (due, key, old) :: f.past.filter (fun e => decide (due < e.1 + 20)) }

/-- Pour, clk offset and pour number of a clk at or before now, for a violation's record. -/
def clkOff (s : State) (c : Nat) : Nat := if s.job.pourClk ≤ c then c - s.job.pourClk else c + s.pourClks - s.job.pourClk

/-- A flag takes its changes: sets or clears act as one; both together are a FLAG_CONFLICT and the flag keeps its value. -/
def changeFlag (a i due place : Nat) (sets clears : Bool) (s : State) : State :=
  let old := (s.station a).flags
  if sets && clears then violateAt a flagConflict place s.job.pour (clkOff s (due - 1)) s.job.heat s
  else
    let new := if sets then old ||| BitVec.ofNat 64 (2 ^ i) else old &&& ~~~ (BitVec.ofNat 64 (2 ^ i))
    keepPast (flagKey a i) (if bit old i then 1 else 0) due (s.setStation a fun x => { x with flags := new })

/-- A counter takes its changes together; above 0xFFFF it stays there and COUNTER_OVF is recorded. -/
def changeCounter (a i due place adds takes : Nat) (s : State) : State :=
  let old := tget 0 (s.station a).ctr i
  let new := old + adds - takes
  let s := keepPast (ctrKey a i) old due (s.setStation a fun x => { x with ctr := tset x.ctr i (min new 0xFFFF) })
  if 0xFFFF < new then violateAt a counterOvf place s.job.pour (clkOff s (due - 1)) s.job.heat s else s

/-- All changes of one item that are seen from one clk. The place of a violation is the station's own instruction that takes part last, or
else the one at its pc (R231; log entry 30). -/
def applyGroup (g : List Signal) (s : State) : State :=
  match g with
  | [] => s
  | x :: _ =>
    let a := x.target.toNat
    let place := ((g.filterMap (·.place)).getLast?).getD (s.station a).pc
    match x.kind with
    | .set i | .clear i =>
      changeFlag a i x.due place (g.any fun y => match y.kind with | .set _ => true | _ => false)
        (g.any fun y => match y.kind with | .clear _ => true | _ => false) s
    | .add i _ | .take i _ =>
      changeCounter a i x.due place ((g.map fun y => match y.kind with | .add _ n => n | _ => 0).sum)
        ((g.map fun y => match y.kind with | .take _ n => n | _ => 0).sum) s

/-- Groups of equal due clk and item, in order of first occurrence. -/
def groupSignals : Nat → List Signal → List (List Signal)
  | 0, _ => []
  | _, [] => []
  | n + 1, x :: xs =>
    let same := fun y : Signal => y.due == x.due && sigKey y == sigKey x
    (x :: xs.filter same) :: groupSignals n (xs.filter fun y => !same y)

/-- Every signal that has arrived changes its target (R222, R223), the earlier clk first. -/
def applySignals (s : State) : State :=
  let due := s.fab.signals.filter fun x => decide (x.due ≤ s.clk)
  if due.isEmpty then s
  else
    let s1 := s.setFab fun f => { f with signals := f.signals.filter fun x => decide (s.clk < x.due) }
    let sorted := due.mergeSort fun x y => decide (x.due ≤ y.due)
    each (groupSignals sorted.length sorted) applyGroup s1

/-- SIGNAL_ARRIVAL (R222, R223). -/
def execSignalArrival (s : State) : Out := .next (applySignals s)

/-! ### Waits (R220, R222) -/

/-- A value as it stood k clk ago: the one before the first change seen only later. -/
def valueAgo (s : State) (key now k : Nat) : Nat :=
  let later := s.fab.past.filter fun e => e.2.1 == key && decide (s.clk < e.1 + k)
  match later.getLast? with
  | some e => e.2.2
  | none => now

/-- The wait field holds (R220). -/
def waitHolds (s : State) (a : Nat) (word : Word) : Bool :=
  let w := fld word 31 16
  let nb := w / 2 ^ 11 % 8
  let b := neighbour s a nb
  let k := if nb = 0 then 0 else partnerDelay a b
  match w / 2 ^ 14 with
  | 1 =>
    let i := w / 32 % 64
    let now := if bit (s.station b).flags i then 1 else 0
    (if nb = 0 then now else valueAgo s (flagKey b i) now k) == w / 16 % 2
  | 2 =>
    let i := w / 64 % 32
    let now := tget 0 (s.station b).ctr i
    decide (w % 32 + 1 ≤ (if nb = 0 then now else valueAgo s (ctrKey b i) now k))
  | _ => true

/-- What a wait that held takes at issue: the amount of an own counter, or the flag's clear (R220). -/
def takeWait (a place : Nat) (word : Word) (s : State) : State :=
  let w := fld word 31 16
  if w / 2 ^ 11 % 8 ≠ 0 then s
  else match w / 2 ^ 14 with
    | 1 => if w / 8 % 2 = 1 then sendSignal (s.clk + 1) a (.clear (w / 32 % 64)) (some place) s else s
    | 2 => sendSignal (s.clk + 1) a (.take (w / 64 % 32) (w % 32 + 1)) (some place) s
    | _ => s

end Sys2Proof.Machine
end

