-- ==== Sys2Proof/Machine/NumFmt.lean ====
section
/-!
DEFINITION. Number formats and exact arithmetic (R237 to R256): decoding, rounding, conversion, FP32 lane arithmetic, the window sum of a
dot product, mix64 and histogram bins.
-/

namespace Sys2Proof.Machine

/-- A decoded element (R243): a zero is a finite value with significand 0. -/
inductive Num where
  | nan
  | inf (neg : Bool)
  | fin (neg : Bool) (m : Nat) (x : Int)
  deriving DecidableEq, Repr

/-- Element width in bits by format code; raw bits and reserved codes count bytes (R237). -/
def elemBits : Nat → Nat
  | 0 => 32 | 7 => 32 | 1 => 16 | 2 => 16 | 5 => 4 | _ => 8

/-- Elements in a line. -/
def elemsPerLine (fmt : Nat) : Nat := 1024 / elemBits fmt

/-- Element `i` of a line (R237). -/
def elemAt (fmt : Nat) (d : LineData) (i : Nat) : Nat := (d.toNat >>> (elemBits fmt * i)) % 2 ^ elemBits fmt

/-- A line from its elements, element 0 first. -/
def lineOfElems (fmt : Nat) (es : List Nat) : LineData :=
  BitVec.ofNat 1024 (es.foldr (fun e acc => e % 2 ^ elemBits fmt + 2 ^ elemBits fmt * acc) 0)

/-- Fraction bits of a floating format (R238). -/
def fracBits : Nat → Nat
  | 0 => 23 | 1 => 10 | 2 => 7 | 3 => 2 | 4 => 3 | _ => 1

/-- Exponent bits. -/
def expBits : Nat → Nat
  | 0 => 8 | 1 => 5 | 2 => 8 | 3 => 5 | 4 => 4 | _ => 2

/-- Bias. -/
def biasOf : Nat → Nat
  | 0 => 127 | 1 => 15 | 2 => 127 | 3 => 15 | 4 => 7 | _ => 1

/-- The format has infinities: FP32, FP16, BF16, E5M2. -/
def hasInf (fmt : Nat) : Bool := fmt < 4

/-- The format is an integer format. -/
def isInt (fmt : Nat) : Bool := fmt == 6 || fmt == 7

/-- The code of NaN that is written (R239). -/
def nanCode : Nat → Nat
  | 0 => 0x7FC00000 | 1 => 0x7E00 | 2 => 0x7FC0 | 3 => 0x7E | 4 => 0x80 | 5 => 0x8 | _ => 0

/-- Decode an element to the common form (R243). -/
def decodeElem (fmt code : Nat) : Num :=
  if isInt fmt then
    let v := signed (elemBits fmt) code
    .fin (v < 0) v.natAbs 0
  else
    let f := fracBits fmt
    let eb := expBits fmt
    let neg := decide (code / 2 ^ (f + eb) % 2 = 1)
    let e := code / 2 ^ f % 2 ^ eb
    let frac := code % 2 ^ f
    if hasInf fmt && e == 2 ^ eb - 1 then (if frac = 0 then .inf neg else .nan)
    else if !hasInf fmt && neg && e == 0 && frac == 0 then .nan
    else if e = 0 then .fin neg frac (1 - (biasOf fmt : Int) - f)
    else .fin neg (2 ^ f + frac) ((e : Int) - biasOf fmt - f)

/-- How a value is rounded: nearest-even, toward zero, or stochastically with a 32-bit draw (R245, R247). -/
inductive Rnd where
  | rne
  | zero
  | stoch (r : Nat)
  deriving DecidableEq, Repr

/-- A magnitude M·2^X in units of 2^ue, rounded (R247). -/
def roundUnits (rnd : Rnd) (m : Nat) (x ue : Int) : Nat :=
  if ue ≤ x then m * 2 ^ (x - ue).toNat
  else
    let sh := (ue - x).toNat
    let lo := m / 2 ^ sh
    let rem := m % 2 ^ sh
    let up : Bool := match rnd with
      | .rne => decide (2 ^ sh < 2 * rem) || (decide (2 * rem = 2 ^ sh) && lo % 2 == 1)
      | .zero => false
      | .stoch r => decide (2 ^ 32 ≤ rem * 2 ^ 32 / 2 ^ sh + r)
    if up then lo + 1 else lo

/-- Largest finite code of a floating format, without its sign. -/
def maxCode (fmt : Nat) : Nat :=
  if hasInf fmt then (2 ^ expBits fmt - 1) * 2 ^ fracBits fmt - 1 else 2 ^ (expBits fmt + fracBits fmt) - 1

/-- Sign bit of a floating format in place. -/
def signCode (fmt : Nat) (neg : Bool) : Nat := if neg then 2 ^ (expBits fmt + fracBits fmt) else 0

/-- What overflow gives: infinity, or the largest finite value (R250). -/
def overflowCode (fmt : Nat) (rnd : Rnd) (neg : Bool) : Nat :=
  signCode fmt neg + (if hasInf fmt && rnd != .zero then maxCode fmt + 1 else maxCode fmt)

/-- Zero of a sign: GF8 and GF4 have one zero (R239). -/
def zeroCode (fmt : Nat) (neg : Bool) : Nat := if hasInf fmt then signCode fmt neg else 0

/-- Round a non-zero magnitude M·2^X into a floating format (R247, R250). -/
def encodeFloat (fmt : Nat) (rnd : Rnd) (neg : Bool) (m : Nat) (x : Int) : Nat :=
  if m = 0 then zeroCode fmt neg
  else
    let f := fracBits fmt
    let b : Int := biasOf fmt
    let k : Int := (Nat.log2 m : Int) + x
    let ue := max k (1 - b) - f
    let n := roundUnits rnd m x ue
    if n = 0 then zeroCode fmt neg
    else if n < 2 ^ f then signCode fmt neg + n
    else
      -- normal, after a possible carry into the next binade
      let carry := decide (2 ^ (f + 1) ≤ n)
      let n' := if carry then n / 2 else n
      let e := ((if carry then ue + 1 else ue) + b + f).toNat
      let code := e * 2 ^ f + (n' - 2 ^ f)
      if maxCode fmt < code then overflowCode fmt rnd neg else signCode fmt neg + code

/-- Round into an integer format, saturating (R247, R250). -/
def encodeInt (fmt : Nat) (rnd : Rnd) (neg : Bool) (m : Nat) (x : Int) : Nat :=
  let n : Int := roundUnits rnd m x 0
  unsigned (elemBits fmt) (satSigned (elemBits fmt) (if neg then -n else n))

/-- Convert one element (R247). -/
def convert (src tgt : Nat) (rnd : Rnd) (code : Nat) : Nat :=
  match decodeElem src code with
  | .nan => nanCode tgt
  | .inf neg =>
    if isInt tgt then unsigned (elemBits tgt) (if neg then -(2 ^ (elemBits tgt - 1)) else 2 ^ (elemBits tgt - 1) - 1)
    else signCode tgt neg + (if hasInf tgt then maxCode tgt + 1 else maxCode tgt)
  | .fin neg m x => if isInt tgt then encodeInt tgt rnd neg m x else encodeFloat tgt rnd neg m x

/-- The order of two decoded values that are no NaN, by exact value: −1, 0 or 1; −0 equals +0 (R243, R296, R308). -/
def cmpNum (a b : Num) : Int :=
  match a, b with
  | .inf n1, .inf n2 => if n1 = n2 then 0 else if n1 then -1 else 1
  | .inf n, _ => if n then -1 else 1
  | _, .inf n => if n then 1 else -1
  | .fin n1 m1 x1, .fin n2 m2 x2 =>
    let e := min x1 x2
    let v1 : Int := (if n1 then -(m1 : Int) else m1) * 2 ^ (x1 - e).toNat
    let v2 : Int := (if n2 then -(m2 : Int) else m2) * 2 ^ (x2 - e).toNat
    if v1 < v2 then -1 else if v2 < v1 then 1 else 0
  | _, _ => 0

/-- The absolute value of a decoded value. -/
def absNum : Num → Num
  | .nan => .nan
  | .inf _ => .inf false
  | .fin _ m x => .fin false m x

/-- The elements of a line, `w` bits wide, element 0 first. -/
def codesOf (w : Nat) (d : LineData) : List Nat := (List.range (1024 / w)).map fun i => (d.toNat >>> (w * i)) % 2 ^ w

/-- A line from codes `w` bits wide, the first lowest; what is not given is zero. -/
def lineOfCodes (w : Nat) (es : List Nat) : LineData := BitVec.ofNat 1024 (es.foldr (fun e acc => e % 2 ^ w + 2 ^ w * acc) 0)

/-! ### FP32 lane arithmetic (R251) -/

/-- round_fp32_rne of (−1)^neg · R · 2^e (R254). -/
def roundF32 (neg : Bool) (r : Nat) (e : Int) : BitVec 32 := BitVec.ofNat 32 (encodeFloat 0 .rne neg r e)

def f32NaN : BitVec 32 := 0x7FC00000#32
def f32Inf (neg : Bool) : BitVec 32 := if neg then 0xFF800000#32 else 0x7F800000#32
def f32Zero (neg : Bool) : BitVec 32 := if neg then 0x80000000#32 else 0#32
def f32Num (a : BitVec 32) : Num := decodeElem 0 a.toNat

/-- A signed integer significand. -/
def sgn (neg : Bool) (m : Nat) : Int := if neg then -(m : Int) else m

/-- The exact sum of two finite values, rounded once; an exact zero of opposite signs is +0 (R255). -/
def addFin (n1 : Bool) (m1 : Nat) (x1 : Int) (n2 : Bool) (m2 : Nat) (x2 : Int) : BitVec 32 :=
  if m1 = 0 && m2 = 0 then f32Zero (n1 && n2)
  else
    let e := min x1 x2
    let v := sgn n1 m1 * 2 ^ (x1 - e).toNat + sgn n2 m2 * 2 ^ (x2 - e).toNat
    if v = 0 then f32Zero false else roundF32 (v < 0) v.natAbs e

/-- The product of two decoded elements (R244). -/
def mulNum (a b : Num) : Num :=
  match a, b with
  | .nan, _ => .nan
  | _, .nan => .nan
  | .inf n1, .inf n2 => .inf (n1 != n2)
  | .inf n1, .fin n2 m _ => if m = 0 then .nan else .inf (n1 != n2)
  | .fin n1 m _, .inf n2 => if m = 0 then .nan else .inf (n1 != n2)
  | .fin n1 m1 x1, .fin n2 m2 x2 => .fin (n1 != n2) (m1 * m2) (x1 + x2)

/-- Sum of two decoded values, rounded to FP32 once. -/
def addNum (a b : Num) : BitVec 32 :=
  match a, b with
  | .nan, _ => f32NaN
  | _, .nan => f32NaN
  | .inf n1, .inf n2 => if n1 = n2 then f32Inf n1 else f32NaN
  | .inf n, _ => f32Inf n
  | _, .inf n => f32Inf n
  | .fin n1 m1 x1, .fin n2 m2 x2 => addFin n1 m1 x1 n2 m2 x2

/-- A decoded value as FP32, rounded once. -/
def roundNum : Num → BitVec 32
  | .nan => f32NaN
  | .inf n => f32Inf n
  | .fin n m x => roundF32 n m x

def f32Neg (a : BitVec 32) : BitVec 32 := a ^^^ 0x80000000#32
def f32Add (a b : BitVec 32) : BitVec 32 := addNum (f32Num a) (f32Num b)
def f32Sub (a b : BitVec 32) : BitVec 32 := f32Add a (f32Neg b)
def f32Mul (a b : BitVec 32) : BitVec 32 := roundNum (mulNum (f32Num a) (f32Num b))
/-- Fused multiply-add, rounded once. -/
def f32Fma (a b c : BitVec 32) : BitVec 32 := addNum (mulNum (f32Num a) (f32Num b)) (f32Num c)

def f32IsNaN (a : BitVec 32) : Bool := f32Num a == .nan

/-- The order of FP32 codes that are no NaN, with −0 below +0. -/
def f32Key (a : BitVec 32) : Int := if a.getLsbD 31 then -((a.toNat % 2 ^ 31 : Nat) : Int) - 1 else a.toNat

def f32Max (a b : BitVec 32) : BitVec 32 :=
  if f32IsNaN a || f32IsNaN b then f32NaN else if f32Key a < f32Key b then b else a
def f32Min (a b : BitVec 32) : BitVec 32 :=
  if f32IsNaN a || f32IsNaN b then f32NaN else if f32Key b < f32Key a then b else a

/-- a below b as IEEE 754 compares: a NaN compares false, −0 is not below +0. -/
def f32Lt (a b : BitVec 32) : Bool :=
  !f32IsNaN a && !f32IsNaN b && !(a.toNat % 2 ^ 31 == 0 && b.toNat % 2 ^ 31 == 0) && decide (f32Key a < f32Key b)

/-! ### Group sums (R252 to R254) -/

/-- A product's (sign, Q, Y) when finite. -/
def finPart : Num → Option (Bool × Nat × Int)
  | .fin n q y => some (n, q, y)
  | _ => none

/-- The largest leading-bit weight among non-zero products. -/
def leadWeight (ps : List (Bool × Nat × Int)) : Int :=
  ps.foldl (fun l p => if p.2.1 = 0 then l else max l (p.2.2 + Nat.log2 p.2.1)) (-2147483648)

/-- One product cut at the window's lowest bit: its magnitude and whether bits were lost. -/
def cutProduct (base : Int) (q : Nat) (y : Int) : Nat × Bool :=
  let sh := y - base
  if 0 ≤ sh then (q * 2 ^ sh.toNat, false)
  else if -64 < sh then (q / 2 ^ (-sh).toNat, q % 2 ^ (-sh).toNat != 0)
  else (0, true)

/-- The window sum (R254). -/
def windowSum (ps : List (Bool × Nat × Int)) : BitVec 32 :=
  let base := leadWeight ps - 48
  let ws := (ps.filter fun p => p.2.1 != 0).map fun p => (p.1, cutProduct base p.2.1 p.2.2)
  let w : Int := (ws.map fun p => sgn p.1 p.2.1).sum
  let sticky : Nat := if ws.any (fun p => p.2.2) then 1 else 0
  if w = 0 then 0#32 else roundF32 (w < 0) (2 * w.natAbs + sticky) (base - 1)

/-- The sum of a group's products (R253). -/
def groupSum (ps : List Num) : BitVec 32 :=
  if ps.any (· == .nan) || (ps.any (· == .inf true) && ps.any (· == .inf false)) then f32NaN
  else if ps.any (· == .inf true) then f32Inf true
  else if ps.any (· == .inf false) then f32Inf false
  else
    let fs := ps.filterMap finPart
    if fs.all (fun p => p.2.1 == 0) then 0#32 else windowSum fs

/-! ### mix64 (R249) -/

def mixStep (z : Word) : Word :=
  let z := z ^^^ (z >>> 31)
  let z := z * 0xE4A73C915B6D2F07#64
  let z := z ^^^ (z >>> 29)
  let z := z * 0x9D2C5680F3E1B6A5#64
  z ^^^ (z >>> 32)

def mix64 (seed : Word) (heat pour unit lane line : Nat) : Word :=
  let x := seed ^^^ 0x5C4E37A1D0B2968F#64
  let x := mixStep (x + BitVec.ofNat 64 heat)
  let x := mixStep (x + BitVec.ofNat 64 (pour % 2 ^ 32 * 2 ^ 32 + unit % 2 ^ 32))
  mixStep (x + BitVec.ofNat 64 (lane % 2 ^ 32 * 2 ^ 32 + line % 2 ^ 32))

/-! ### Histogram bins (R256) -/

/-- The bin of an element for a base exponent. -/
def histBin (base : Int) : Num → Nat
  | .nan => 63
  | .inf _ => 63
  | .fin _ m x =>
    if m = 0 then 0
    else
      let k := (Nat.log2 m : Int) + x
      if k < base then 1 else if k - base ≤ 59 then 2 + (k - base).toNat else 62

/-! ### Lanes of a line (R237) -/

/-- Apply an operation to each of the 32 lanes. -/
def mapLanes (f : Nat → BitVec 32) : LineData := lineOfElems 0 ((List.range 32).map fun i => (f i).toNat)

/-- Lane i of a line. -/
def lane (d : LineData) (i : Nat) : BitVec 32 := d.extractLsb' (32 * i) 32

end Sys2Proof.Machine
end

