-- ==== Sys2Proof/Machine/StationOps.lean ====
section
/-!
DEFINITION. Stations: configuration, queue ends (R206 to R211), results (R219, R467), histograms (R256, R257).
-/

namespace Sys2Proof.Machine

/-! ### Configuration of a station (R202, R233, R234) -/

def bayOf (a : Nat) : Nat := a / 256
def kindOf (a : Nat) : Nat := a / 16 % 16
def indexOf (a : Nat) : Nat := a % 16

/-- Indexes a kind has in each bay (R202). -/
def kindCount : Nat → Nat
  | 0 => 1 | 1 => 8 | 2 => 4 | 3 => 2 | 4 => 1 | 5 => 1 | 6 => 1 | 7 => 2 | 8 => 16 | 9 => 16 | _ => 0

/-- The station exists on the module's grade (R2, R202): the leaf grade has Ladles and Moulds in bays 0 to 7 only. -/
def stationPresent (s : State) (a : Nat) : Bool :=
  decide (a < 4096) && decide (indexOf a < kindCount (kindOf a)) &&
    !(s.leaf && (kindOf a == 4 || kindOf a == 5) && decide (8 ≤ bayOf a))

def stCfg (s : State) (a : Nat) : Word := s.cfgw (stKey a 8)
def isNamed (s : State) (a : Nat) : Bool := bit (stCfg s a) 0
def entryOf (s : State) (a : Nat) : Nat := fld (stCfg s a) 63 50
/-- Wait limit in clk. -/
def waitLimit (s : State) (a : Nat) : Nat := 64 * (fld (stCfg s a) 47 32 + 1)
def constEnd (s : State) (a : Nat) : Nat := fld (stCfg s a) 20 9

/-- QCFG of an end. -/
def qcfg (s : State) (a e : Nat) : Word := s.cfgw (stKey a (0x100 + 8 * e))
def boundSt (s : State) (a e : Nat) : Nat := fld (qcfg s a e) 63 52
def boundEnd (s : State) (a e : Nat) : Nat := fld (qcfg s a e) 51 48
def isRing (s : State) (a e : Nat) : Bool := bit (qcfg s a e) 47
def isBound (s : State) (a e : Nat) : Bool := bit (qcfg s a e) 0
def isSlack (s : State) (a e : Nat) : Bool := bit (qcfg s a e) 2

/-! ### Queue ends (R206 to R211) -/

/-- The lines of an end, head first. -/
def endLines (s : State) (a e : Nat) : List Line := tget [] (s.station a).ends e

/-- A line assigned to a slot has left its end from its leaving clk on, though it travels with the slot (R208). -/
def stillHeld (t : Nat) (l : Line) : Bool := match l.slotClk with | some c => decide (t < c) | none => true

/-- Lines an end holds at a clk. -/
def depthAt (s : State) (a e t : Nat) : Nat := ((endLines s a e).filter (stillHeld t)).length

/-- A pop in clk t finds a line: the head entered before t (R209). -/
def popReady (s : State) (a e t : Nat) : Bool :=
  match endLines s a e with
  | l :: _ => decide (l.since < t)
  | [] => false

/-- Take the head line in clk t; a slack queue counts a pop in the first clk it can be made (R211). -/
def popEnd (a e t : Nat) (s : State) : State :=
  let early := match endLines s a e with | l :: _ => isSlack s a e && l.since + 1 == t | [] => false
  s.setStation a fun x =>
    { x with ends := tmod [] x.ends e List.tail,
             slackUsed := if early then tmod 0 x.slackUsed e (satAdd 32 · 1) else x.slackUsed }

/-! ### Histograms (R256, R257) -/

/-- HIST_CFG of output end qo j (R258). -/
def histCfg (s : State) (a j : Nat) : Word := s.cfgw (stKey a (0x300 + 8 * j))

/-- Count the elements of a line in the bank of qo j. -/
def countElems (a j fmt : Nat) (base : Int) (d : LineData) (s : State) : State :=
  let bins := (List.range (elemsPerLine fmt)).map fun i => histBin base (decodeElem fmt (elemAt fmt d i))
  s.setStation a fun x => { x with histCount := bins.foldl (fun m b => tmod 0 m (64 * j + b) (satAdd 32 · 1)) x.histCount }

/-- The header of the tile that enters qo j, none between tiles and where the tile's first line did not enter. -/
def setHistHdr (a j : Nat) (h : Option (BitVec 16)) (s : State) : State :=
  s.setStation a fun x => { x with histHdr := tset x.histHdr j h }

/-- A line that enters qo j (R257), in the format of the header of its tile. -/
def countHist (a j : Nat) (l : Line) (s : State) : State :=
  let s := if bit l.side 23 then setHistHdr a j (some (BitVec.ofNat 16 (fld l.side 15 0))) s else s
  let s := match tget none (s.station a).histHdr j with
    | none => s
    | some h =>
      let fmt := fld h 15 12
      if bit (histCfg s a j) 0 && decide (fmt < 8) then countElems a j fmt (signed 9 (fld (histCfg s a j) 16 8)) l.data s else s
  if bit l.side 22 then setHistHdr a j none s else s

/-- A line whose push into qo j is suppressed is not counted; with a first line goes its tile's header (R257). -/
def missHist (a j : Nat) (l : Line) (s : State) : State := if bit l.side 23 then setHistHdr a j none s else s

/-! ### Lines that leave in this clk (R207, R210) -/

/-- An output end whose lines cross the bay's own crossbar. -/
def crossEnd (s : State) (a e : Nat) : Bool := isBound s a e && !isRing s a e && !bit (qcfg s a e) 1

/-- Lines ready to leave a station's output ends: (readiness, end), in order, two at most. -/
def offered (s : State) (a : Nat) : List (Nat × Nat) :=
  (((List.range 8).map (· + 8)).flatMap fun e =>
    if crossEnd s a e then ((endLines s a e).filter fun l => decide (l.since < s.clk)).map fun l => (l.since, e) else []).mergeSort
      (fun x y => decide (x.1 < y.1) || (x.1 == y.1 && decide (x.2 ≤ y.2))) |>.take 2

/-- The station has sent its lines of this clk. -/
def departed (s : State) (a : Nat) : Bool := s.fab.claims.any fun c => c.2 == a

/-- Stations of a bay that come before a station in crossbar order. -/
def earlierStations (s : State) (a : Nat) : List Nat :=
  ((s.stations.map (·.1)).filter fun b => decide (b < a) && bayOf b == bayOf a)

/-- The crossbar output of a target is taken in this clk by a station that comes first (R210). -/
def outputTaken (s : State) (a target : Nat) : Bool :=
  (s.fab.claims.any fun c => c.1 == target && c.2 != a) ||
    (earlierStations s a).any fun b => !departed s b && (offered s b).any fun o => boundSt s b o.2 == target

/-- Lines of an end that are still to leave it in a clk: LINE_DEPART takes them. -/
def leavesNow (s : State) (a e t : Nat) : Nat :=
  if t = s.clk && s.running && !departed s a then
    ((offered s a).filter fun o => o.2 == e && !outputTaken s a (boundSt s a e)).length
  else 0

/-! ### Pushes (R208, R209) -/

/-- The calendar entry an output end names (R158, R234). -/
def calKey (ring dir entry : Nat) : Nat := ikey 3 (ring * 2 ^ 25 + dir * 2 ^ 24 + 2 ^ 23 + 8 * entry)
def calOf (s : State) (a e : Nat) : Word :=
  let q := qcfg s a e
  s.cfgw (calKey (fld q 46 44) (fld q 43 43) (fld q 42 32))

/-- Start clks, within a pour, of an entry's slots. -/
def slotStarts (w : Word) : List Nat := (List.range (fld w 41 34 + 1)).map (fld w 63 42 + ·)

/-- An entry of the calendar and its fields (R158). -/
def calEntry (s : State) (ring dir entry : Nat) : Word := s.cfgw (calKey ring dir entry)
def calEnter (w : Word) : Nat := fld w 33 30
def calLeave (w : Word) : Nat := fld w 29 26
def calOwner (w : Word) : Nat := fld w 25 14

/-- A calendar entry that the pattern gives: its stops differ. -/
def calUsed (w : Word) : Bool := calEnter w != calLeave w

/-- Leaving clks of an entry's slots considered at a push: those of the running pour, and those of the next that start before clk 8. -/
def slotLeaves (s : State) (w : Word) : List Nat :=
  ((slotStarts w).map fun c => s.job.pourClk + c - 8) ++
    ((slotStarts w).filter (· < 8)).map fun c => s.job.pourClk + s.pourClks + c - 8

/-- The slot of a line pushed into a ring-bound end in clk t: the first at or after the push, not before an earlier line's, with room. -/
def pickSlot (s : State) (a e t : Nat) : Option Nat :=
  let given := (endLines s a e).filterMap (·.slotClk)
  let least := given.foldl max t
  (slotLeaves s (calOf s a e)).find? fun c => decide (least ≤ c) && decide ((given.filter (· == c)).length < 2)

/-- The high-water marks of a station follow the depths at the end of a clk (R209, R234). -/
def noteHwm (t : Nat) (x : Station) : Station :=
  { x with hwm := x.ends.foldl (fun h e => tmod 0 h e.1 (max (e.2.filter (stillHeld t)).length)) x.hwm }

/-- Append a line to an end. -/
def appendLine (a e t : Nat) (l : Line) (s : State) : State :=
  s.setStation a fun x => { x with ends := tmod [] x.ends e (· ++ [{ l with since := t }]) }

/-- A violation in a clk at or before now. -/
def violateClk (a code place c : Nat) (s : State) : State := violateAt a code place s.job.pour (clkOff s c) s.job.heat s

/-- What a line pushed here carries to a Crucible: the stamp of its push (R271). -/
def localMeta (s : State) (t : Nat) (head : Bool) : LineMeta :=
  { stampPour := s.job.pour, stampClk := clkOff s t, hdr := 0, port := none, head := head }

/-- Push a line into output end e (8 to 15) in clk t (R208, R209), after the lines that leave the end in t; a push that fails is suppressed
and recorded. -/
def pushEnd (a e t place : Nat) (l : Line) (s : State) : State :=
  let l := match l.origin with
    | some _ => l
    | none => { l with origin := some (localMeta s t (bit l.side 23)) }
  if 32 + leavesNow s a e t ≤ depthAt s a e t then violateClk a pushFull place t (missHist a (e - 8) l s)
  else if isRing s a e then
    match pickSlot s a e t with
    | none => violateClk a slotMiss place t (missHist a (e - 8) l s)
    | some c => countHist a (e - 8) l (appendLine a e t { l with slotClk := some c } s)
  else countHist a (e - 8) l (appendLine a e t { l with slotClk := none } s)

/-- The sideband of line j of a tile of n lines that an engine pushes: first, last and, on the first, a header of form 0 and pattern 0. -/
def tileSide (fmt j n : Nat) : BitVec 24 :=
  BitVec.ofNat 24 ((if j = 0 then 2 ^ 23 + fmt % 16 * 2 ^ 12 + (n - 1) % 32 else 0) + (if j + 1 = n then 2 ^ 22 else 0))

/-! ### Local store (R212, R213, R226) -/

def storeLine (s : State) (a k : Nat) : LineData := tget 0 (s.station a).store k

/-- Word w of the local store. -/
def storeWord (s : State) (a w : Nat) : Word := (storeLine s a (w / 16)).extractLsb' (64 * (w % 16)) 64

/-- A line with some bytes replaced: the bits of `mask` come from `d`. -/
def blend (old d mask : LineData) : LineData := (d &&& mask) ||| (old &&& ~~~ mask)

/-- The bits of word w of a line. -/
def wordMask (i : Nat) : LineData := BitVec.ofNat 1024 ((2 ^ 64 - 1) * 2 ^ (64 * i))

def setStoreLine (a k : Nat) (d : LineData) (s : State) : State := s.setStation a fun x => { x with store := tset x.store k d }

def setStoreWord (a w : Nat) (v : Word) (s : State) : State :=
  setStoreLine a (w / 16) (blend (storeLine s a (w / 16)) (BitVec.ofNat 1024 (v.toNat * 2 ^ (64 * (w % 16)))) (wordMask (w % 16))) s

/-! ### Results (R219, R467) -/

/-- What two results cannot share in one clk. -/
def ResultKind.resource : ResultKind → Nat
  | .scalar r _ => r
  | .line r _ _ => 16 + r
  | .push e _ => 32 + e
  | .pushMerge e _ _ _ => 32 + e
  | .storeWord _ _ => 64
  | .storeLine _ _ => 64

/-- A result to come. -/
def addResult (a : Nat) (r : PendingResult) (s : State) : State := s.setStation a fun x => { x with results := x.results ++ [r] }

def lineReg (s : State) (a r : Nat) : LineData := tget 0 (s.station a).lreg r
def scalarReg (s : State) (a r : Nat) : Word := if r = 0 then 0 else tget 0 (s.station a).sreg r

/-- A result that does not happen: a push leaves its tile without the line. -/
def missResult (a : Nat) (r : PendingResult) (s : State) : State :=
  match r.kind with
  | .push e l | .pushMerge e l _ _ => missHist a (e - 8) l s
  | _ => s

/-- A push: of two results of one clk it comes after the registers, which a merge reads as they stand in that clk (R246). -/
def ResultKind.isPush : ResultKind → Bool
  | .push _ _ => true | .pushMerge _ _ _ _ => true | _ => false

/-- A write of the local store: a read of the same clk sees it (R467). -/
def ResultKind.isStore : ResultKind → Bool
  | .storeWord _ _ => true | .storeLine _ _ => true | _ => false

/-- One result takes effect. -/
def applyResult (a : Nat) (r : PendingResult) (s : State) : State :=
  match r.kind with
  | .scalar i v => s.setStation a fun x => { x with sreg := tset x.sreg i v }
  | .line i d m => s.setStation a fun x => { x with lreg := tset x.lreg i (blend (tget 0 x.lreg i) d m) }
  | .push e l => pushEnd a e r.due r.place l s
  | .pushMerge e l i m => pushEnd a e r.due r.place { l with data := blend (lineReg s a i) l.data m } s
  | .storeWord w v => setStoreWord a w v s
  | .storeLine k d => setStoreLine a k d s

/-- The results of one clk, earlier-issued first: a second instruction's use of one resource is a CONFLICT and suppressed. -/
def applyClk (a : Nat) : List (Nat × Nat) → List PendingResult → State → State
  | _, [], s => s
  | used, r :: rs, s =>
    if used.any fun u => u.1 == r.kind.resource && u.2 != r.issued then
      applyClk a used rs (violateClk a conflict r.place r.due (missResult a r s))
    else applyClk a ((r.kind.resource, r.issued) :: used) rs (applyResult a r s)

/-- Results grouped by clk. -/
def groupResults : Nat → List PendingResult → List (List PendingResult)
  | 0, _ => []
  | _, [] => []
  | n + 1, r :: rs => (r :: rs.filter (·.due == r.due)) :: groupResults n (rs.filter (·.due != r.due))

/-- The results of some kinds whose clk has come (R219): in order of clk, of one clk registers before pushes and each in order of issue. -/
def applyDue (a : Nat) (sel : ResultKind → Bool) (s : State) : State :=
  let take (r : PendingResult) : Bool := decide (r.due ≤ s.clk) && sel r.kind
  let due := (s.station a).results.filter take
  if due.isEmpty then s
  else
    let s1 := s.setStation a fun x => { x with results := x.results.filter fun r => !take r }
    let sorted := due.mergeSort fun x y => decide (x.due < y.due) || (x.due == y.due && decide (x.issued ≤ y.issued))
    each (groupResults sorted.length sorted) (fun g => applyClk a [] (g.filter (fun r => !r.kind.isPush) ++ g.filter (·.kind.isPush))) s1

/-- The writes of the local store whose clk has come. -/
def applyWrites (a : Nat) (s : State) : State := applyDue a ResultKind.isStore s

/-- Every result whose clk has come. -/
def applyResults (a : Nat) (s : State) : State := applyDue a (fun _ => true) s

end Sys2Proof.Machine
end

