-- ==== Sys2Proof/Machine/Operands.lean ====
section
/-!
DEFINITION. The fields of an instruction word (R217) and its operand forms (R218, R226, R227): sources popped or read at issue, destinations
written at the result clk.
-/

namespace Sys2Proof.Machine

/-! ### Fields (R217) -/

def opOf (w : Word) : Nat := fld w 63 57
def dOf (w : Word) : Nat := fld w 56 52
def aOf (w : Word) : Nat := fld w 51 47
def bOf (w : Word) : Nat := fld w 46 42
def immOf (w : Word) : Nat := fld w 41 32
/-- The 10-bit immediate, signed. -/
def immS (w : Word) : Int := signed 10 (immOf w)
/-- The 20-bit immediate of li and lui. -/
def imm20 (w : Word) : Nat := fld w 51 32
/-- The target of a branch. -/
def targetOf (w : Word) : Nat := fld w 45 32

/-! ### Operand codes (R218) -/

def isQi (c : Nat) : Bool := decide (c < 8)
def isQo (c : Nat) : Bool := decide (8 ≤ c) && decide (c < 16)
def isLine (c : Nat) : Bool := decide (16 ≤ c) && decide (c < 24)
def isScalar (c : Nat) : Bool := decide (24 ≤ c)

/-- A scalar operand. -/
def scalarSrc (s : State) (a c : Nat) : Word := scalarReg s a (c % 8)

/-- A line with no sideband and no origin. -/
def bareLine (d : LineData) : Line := { data := d, side := 0, since := 0, origin := none, slotClk := none }

/-- The line a scalar gives: bytes 0 to 7 hold it, byte 0 least significant (R226). -/
def lineOfScalar (v : Word) : LineData := v.setWidth 1024

/-- The scalar a line gives: its bytes 0 to 7. -/
def scalarOfLine (d : LineData) : Word := d.setWidth 64

/-- A line operand at clk t: the head of a queue end, a register, or a scalar as mv gives it; none where a pop finds no line. -/
def lineSrc (s : State) (a t c : Nat) : Option Line :=
  if isQi c then (if popReady s a c t then (endLines s a c).head? else none)
  else if isLine c then some (bareLine (lineReg s a (c % 8)))
  else if isScalar c then some (bareLine (lineOfScalar (scalarSrc s a c)))
  else none

/-- The queue ends among some operand codes, each once. -/
def popCodes (cs : List Nat) : List Nat := (cs.filter isQi).eraseDups

/-- Pop every queue end among the operands once. -/
def popAll (a t : Nat) (cs : List Nat) (s : State) : State := each (popCodes cs) (fun c s => popEnd a c t s) s

/-- The sideband of a lane operation's result: that of the first queue operand, a then b (R227). -/
def laneSide (s : State) (a : Nat) (cs : List Nat) : BitVec 24 :=
  match cs.filter isQi with
  | c :: _ => match endLines s a c with | l :: _ => l.side | [] => 0
  | [] => 0

/-! ### Results at the destination (R219) -/

/-- A scalar result; S0 discards it. -/
def putScalar (a d due t place : Nat) (v : Word) (s : State) : State :=
  if d % 8 = 0 then s else addResult a { due := due, issued := t, place := place, kind := .scalar (d % 8) v } s

/-- A line result: pushed, written to a line register, or its bytes 0 to 7 to a scalar register. -/
def putLine (a d due t place : Nat) (l : Line) (s : State) : State :=
  if isQo d then addResult a { due := due, issued := t, place := place, kind := .push d l } s
  else if isLine d then addResult a { due := due, issued := t, place := place, kind := .line (d % 8) l.data (BitVec.allOnes 1024) } s
  else if isScalar d then putScalar a d due t place (scalarOfLine l.data) s
  else s

/-- A line pushed into output end code `d` (8 to 15) at a clk. -/
def putPush (a d due t place : Nat) (l : Line) (s : State) : State :=
  addResult a { due := due, issued := t, place := place, kind := .push d l } s

/-! ### Addresses in the local store (R213, R226) -/

/-- A base and an immediate, modulo 2^64 (R226). -/
def storeAddr (base : Word) (imm : Int) : Int := ((base + BitVec.ofInt 64 imm).toNat : Int)

/-- An address in 0 to n − 1, or BOUND. -/
def inBound (n : Nat) (x : Int) : Except Nat Nat := if 0 ≤ x ∧ x < n then .ok x.toNat else .error bound

/-- A read port of the local store is free at a clk (R467). -/
def readFree (s : State) (a c : Nat) : Bool := !(s.station a).readPort.contains c

/-- Take the read port at some clks; past ones are forgotten. -/
def takeRead (a : Nat) (cs : List Nat) (s : State) : State :=
  s.setStation a fun x => { x with readPort := (x.readPort.filter fun c => decide (s.clk ≤ c)) ++ cs }

end Sys2Proof.Machine
end

