-- ==== Sys2Proof/Machine/PacketOps.lean ====
section
/-!
DEFINITION. Packets: header fields and checks (R124, R125), port counters (R150, R186), quotas and credits (R130, R180 to R184), routing
(R157, R163 to R169, R171), tap copies (R173, R174), completions (R145 to R147), capture records (R399 to R401).
-/

namespace Sys2Proof.Machine

/-! ### The header (R124) -/

def hVer (h : BitVec 256) : Nat := fld h 255 252
def hType (h : BitVec 256) : Nat := fld h 251 248
def hCls (h : BitVec 256) : Nat := fld h 247 245
def hCplReq (h : BitVec 256) : Bool := bit h 244
def hPlane (h : BitVec 256) : Nat := fld h 243 243
def hDst (h : BitVec 256) : Nat := fld h 242 223
def hSrcPlane (h : BitVec 256) : Nat := fld h 222 222
def hSrc (h : BitVec 256) : Nat := fld h 221 202
def hFlask (h : BitVec 256) : Nat := fld h 201 198
def hAddr (h : BitVec 256) : Nat := fld h 191 128
def hDstStation (h : BitVec 256) : Nat := fld h 127 116
def hLen (h : BitVec 256) : Nat := fld h 115 108
def hInst (h : BitVec 256) : Nat := fld h 107 92
def hTag (h : BitVec 256) : Nat := fld h 91 76
def hSrcStation (h : BitVec 256) : Nat := fld h 75 64
def hSeq (h : BitVec 256) : Nat := fld h 31 16
def hCrc (h : BitVec 256) : Nat := fld h 15 0

/-- A header from its fields; the link sequence number and the check are written when it is sent. -/
def mkHeader (type cls cpl plane dst srcPlane src flask addr dstSt len inst tag srcSt pour : Nat) : BitVec 256 :=
  BitVec.ofNat 256 (2 ^ 252 + type % 16 * 2 ^ 248 + cls % 8 * 2 ^ 245 + cpl % 2 * 2 ^ 244 + plane % 2 * 2 ^ 243 + dst % 2 ^ 20 * 2 ^ 223 +
    srcPlane % 2 * 2 ^ 222 + src % 2 ^ 20 * 2 ^ 202 + flask % 16 * 2 ^ 198 + addr % 2 ^ 64 * 2 ^ 128 + dstSt % 2 ^ 12 * 2 ^ 116 +
    len % 256 * 2 ^ 108 + inst % 2 ^ 16 * 2 ^ 92 + tag % 2 ^ 16 * 2 ^ 76 + srcSt % 2 ^ 12 * 2 ^ 64 + pour % 2 ^ 32 * 2 ^ 32)

/-- A header with the bits [hi:lo] replaced. -/
def hSet (h : BitVec 256) (hi lo v : Nat) : BitVec 256 :=
  BitVec.ofNat 256 (h.toNat % 2 ^ lo + v % 2 ^ (hi + 1 - lo) * 2 ^ lo + h.toNat / 2 ^ (hi + 1) * 2 ^ (hi + 1))

/-- The 32 header bytes in the order sent: most significant byte first. -/
def headerBytes (h : BitVec 256) : List Byte := beBytes 32 h.toNat

/-- hdr_crc of a header: over its bytes 0 to 29 (R125). -/
def headerCrc (h : BitVec 256) : Nat := (crc16 (beBytes 30 (h.toNat / 2 ^ 16))).toNat

/-- The header with its link sequence number and check as sent (R125, R133). -/
def sealHeader (h : BitVec 256) (seq : Nat) : BitVec 256 :=
  let h1 := BitVec.ofNat 256 (h.toNat / 2 ^ 32 * 2 ^ 32 + seq % 2 ^ 16 * 2 ^ 16)
  BitVec.ofNat 256 (h1.toNat + headerCrc h1)

/-- The trailer of a packet: CRC-64 over header and payload (R125). -/
def trailerOf (h : BitVec 256) (payload : List Byte) : Word := crc64 (headerBytes h ++ payload)

/-- Payload bytes a header states. -/
def payloadLen (h : BitVec 256) : Nat := 16 * (hLen h + 1)

/-- Credits, and cells, of a packet (R130, R176). -/
def cellsOf (h : BitVec 256) : Nat := (40 + payloadLen h + 63) / 64

/-- A packet addressed to this module (R162). -/
def addressedHere (s : State) (h : BitVec 256) : Bool := hPlane h == 1 && hDst h == s.moduleId

/-! ### Port counters -/

/-- Widths of a port's counters by holding index (R150, R186, R462). -/
def portCtrWidth (i : Nat) : Nat :=
  if i = 1 || i = 8 then 48 else if i = 9 then 16 else if i < 12 then 32 else if i = 48 || i = 49 || i = 58 then 32 else 48

/-- Add to a counter of a port; it saturates. -/
def bumpPort (p i k : Nat) (s : State) : State :=
  s.setPort p fun x => { x with ctr := tmod 0 x.ctr i (satAdd (portCtrWidth i) · k) }

/-! ### Quotas and charges (R180 to R184) -/

/-- Grants of VCs by the credit words of a PORT section: 4 to 7 in CREDIT_A, 0 and 1 in CREDIT_B (R468). -/
def grantOf (s : State) (p vc : Nat) : Nat :=
  let a := s.cfgw (ptKey p 0x120)
  let b := s.cfgw (ptKey p 0x128)
  match vc with
  | 4 => fld a 63 48 | 5 => fld a 47 32 | 6 => fld a 31 16 | 7 => fld a 15 0 | 0 => fld b 63 48 | 1 => fld b 47 32 | _ => 0

/-- The flask that the pattern gives a port (R148). -/
def cfgFlask (s : State) (p : Nat) : Nat := fld (s.portCfg p) 11 8

/-- The flask of a port: it follows the part the port plays (R391). -/
def portFlask (s : State) (p : Nat) : Nat := cfgFlask s (swapPort s p)

/-- The flask of a station (R233). -/
def stationFlask (s : State) (a : Nat) : Nat := fld (s.cfgw (stKey a 8)) 8 5

/-- A port's charge in cells: its VCs 4 to 7 (R181). -/
def portUse (s : State) (p : Nat) : Nat := ([4, 5, 6, 7].map fun v => tget 0 (s.port p).used v).sum

/-- State of a quota with a charge: 0 NORMAL, 1 WARN, 2 STOP (R183). -/
def quotaState (thr : Word) (use : Nat) : Nat := if fld thr 53 32 ≤ use then 2 else if fld thr 21 0 ≤ use then 1 else 0

/-- The throttle state of a port: the highest of its own, its flask's and the pool's (R184). -/
def throttle (s : State) (p : Nat) : Nat :=
  max (quotaState (s.cfgw (ptKey p 0x108)) (portUse s p))
    (max (quotaState (s.cfgw (tbKey 4 (0x400008 + 0x20 * portFlask s p))) (tget 0 s.fab.flaskUse (portFlask s p)))
      (quotaState (s.cfgw (tbKey 4 0x400208)) s.fab.poolUse))

/-- The allowance E of a VC (R184). -/
def allowance (s : State) (p vc : Nat) : Nat :=
  let g := grantOf s p vc
  if vc < 4 then g
  else match throttle s p with | 0 => g | 1 => max (g / 2) 65 | _ => 65

/-- Owed credits that may return do (R184). In replay mode the room that is freed was a record's, for which no sender gave a credit (R402,
R403). -/
def settleVc (p : Nat) (vc : Nat) (s : State) : State :=
  let o := tget 0 (s.port p).owed vc
  let r := min o (o - (grantOf s p vc - allowance s p vc))
  if r = 0 then s
  else s.setPort p fun x =>
    { x with owed := tset x.owed vc (o - r), giving := if s.replayMode then x.giving else tmod 0 x.giving vc (· + r) }

/-- Every credited VC of a port settles. -/
def settlePort (p : Nat) (s : State) : State := each [0, 1, 4, 5, 6, 7] (settleVc p) s

/-- Every port with owed credits settles: a state may have fallen. -/
def settleAll (s : State) : State := each (s.ports.map (·.1)) settlePort s

/-- The flask through which a requester is charged (R180). -/
def ownerFlask (s : State) : Requester → Nat
  | .port p _ => portFlask s p.toNat
  | .station a => stationFlask s a.toNat
  | .tap k => cfgFlask s (fld (s.cfgw (tbKey 5 (64 * k))) 28 21)
  | .none => 0

/-- Add to or take from the charge of a flask and of the pool. -/
def chargePool (f : Nat) (add sub : Nat) (s : State) : State :=
  s.setFab fun x => { x with flaskUse := tmod 0 x.flaskUse f (· + add - sub), poolUse := x.poolUse + add - sub }

/-- Charge cells to a requester (R180); a port's VCs 0 and 1 are charged to their fixed reservation only. -/
def charge (o : Requester) (cells : Nat) (s : State) : State :=
  match o with
  | .port p c =>
    let s := s.setPort p.toNat fun x => { x with used := tmod 0 x.used c (· + cells) }
    if 4 ≤ c then chargePool (portFlask s p.toNat) cells 0 s else s
  | .station a => chargePool (stationFlask s a.toNat) cells 0 (s.setStation a.toNat fun x => { x with quotaUse := x.quotaUse + cells })
  | .tap k => chargePool (ownerFlask s (.tap k)) cells 0 (s.setFab fun x => { x with tapUse := tmod 0 x.tapUse k (· + cells) })
  | .none => s

/-- Free cells: a port owes the credits (R131, R184). -/
def release (o : Requester) (cells : Nat) (s : State) : State :=
  match o with
  | .port p c =>
    let s := s.setPort p.toNat fun x => { x with used := tmod 0 x.used c (· - cells), owed := tmod 0 x.owed c (· + cells) }
    settleAll (if 4 ≤ c then chargePool (portFlask s p.toNat) 0 cells s else s)
  | .station a =>
    settleAll (chargePool (stationFlask s a.toNat) 0 cells (s.setStation a.toNat fun x => { x with quotaUse := x.quotaUse - cells }))
  | .tap k =>
    settleAll (chargePool (ownerFlask s (.tap k)) 0 cells (s.setFab fun x => { x with tapUse := tmod 0 x.tapUse k (· - cells) }))
  | .none => s

/-! ### Rings (R155, R157) -/

/-- Clk from bay b to the next bay clockwise (R155). -/
def hopClk (b : Nat) : Nat := if b % 8 = 7 then 8 else 2

/-- Clk of clockwise travel over n hops from bay b. -/
def cwClk (b : Nat) : Nat → Nat
  | 0 => 0
  | n + 1 => hopClk (b % 16) + cwClk (b + 1) n

/-- Ring transit from one bay to another: direction 0 clockwise, 1 counter-clockwise (R155). -/
def transitClk (dir a b : Nat) : Nat :=
  if dir = 0 then cwClk a ((b + 16 - a) % 16) else cwClk b ((a + 16 - b) % 16)

/-- The direction of unscheduled traffic: the shorter, clockwise on a tie (R157). -/
def ringDir (a b : Nat) : Nat := if transitClk 0 a b ≤ transitClk 1 a b then 0 else 1

/-- Key of a ring stop's state. -/
def stopKey (ring dir bay : Nat) : Nat := 32 * ring + 16 * dir + bay

/-- Slots a packet fills on a ring, and passes of a crossbar (R155). -/
def slotsOf (h : BitVec 256) : Nat := (40 + payloadLen h + 255) / 256

/-! ### The way through crossbars and rings (R155, R156) -/

/-- The crossbar input of a port: its port-ingress station (R202). -/
def ingressSt (p : Nat) : Nat := p / 16 * 256 + 0x80 + p % 16

/-- The crossbar output to a port: its port-egress station (R202). -/
def egressSt (p : Nat) : Nat := p / 16 * 256 + 0x90 + p % 16

/-- The crossbar output to a ring stop. -/
def stopOut (key : Nat) : Nat := 4096 + key

/-- Clk in which a port receives some bytes (R116, R137). -/
def receiveClk (w n : Nat) : Nat := if w = 8 then (n + 66) / 67 else (2 * n + 66) / 67

/-- The first clk in which slot j of a packet stands at its crossbar input: 32 clk after its last byte has passed the timestamp point of its
port (R155), or now. -/
def readyClk (s : State) (q : QPkt) (j : Nat) : Nat :=
  match q.pkt.inPort with
  | some p => max s.clk (q.pkt.inClk + receiveClk (s.portWidth p.toNat) (min (256 * (j + 1)) (40 + payloadLen q.pkt.hdr)) + 32)
  | none => s.clk

/-- A packet waits for a crossbar output of its bay (R156). -/
def crossTo (out : Nat) (q : QPkt) (s : State) : State :=
  let x : Crossing := { q := q, input := q.src % 256, got := (List.range (slotsOf q.pkt.hdr)).map (readyClk s q), sent := 0 }
  s.setFab fun f => { f with xbar := tmod .reset f.xbar out fun o => { o with waiting := o.waiting ++ [x] } }

/-- A packet starts its way to a bay: through the crossbar of its own bay to an output there, or to the ring stop where it enters (R155,
R157). -/
def sendThrough (bay out : Nat) (q : QPkt) (s : State) : State :=
  let here := q.src / 256
  crossTo (if bay = here then out else stopOut (stopKey q.ring (ringDir here bay) here)) q s

/-! ### The flow hash (R167) -/

/-- One bit of the reflected CRC-32C. -/
def crc32Bit (c : BitVec 32) (b : Bool) : BitVec 32 :=
  if c.getLsbD 0 != b then (c >>> 1) ^^^ 0x82F63B78#32 else c >>> 1

/-- The reflected CRC-32C over bytes from a starting register; final XOR all ones. -/
def crc32c (seed : BitVec 32) (bs : List Byte) : BitVec 32 :=
  (bs.foldl (fun c b => (List.range 8).foldl (fun c i => crc32Bit c (b.getLsbD i)) c) seed) ^^^ BitVec.allOnes 32

/-- ROUTE_CFG (R168). -/
def State.routeCfg (s : State) : Word := s.cfgw (tbKey 6 0)

/-- The flow hash of a header (R167). -/
def flowHash (s : State) (h : BitVec 256) : Nat :=
  let key := hPlane h * 2 ^ 95 + hDst h * 2 ^ 75 + hSrcPlane h * 2 ^ 74 + hSrc h * 2 ^ 54 + hFlask h * 2 ^ 50 + hCls h * 2 ^ 47 +
    hInst h * 2 ^ 31
  (crc32c (BitVec.ofNat 32 (fld s.routeCfg 63 32)) (beBytes 12 key)).toNat

/-! ### The route table (R163 to R169, R171) -/

/-- A route entry's key (R163). -/
def routeKey (h : BitVec 256) : Nat := tbKey 0 (8 * (hPlane h * 2 ^ 20 + hDst h))

/-- The port byte of a group member (R166). -/
def groupMember (s : State) (g i : Nat) : Nat :=
  swapPort s (fld (s.cfgw (tbKey 1 (16 * g + 8 * (i / 8)))) (8 * (i % 8) + 7) (8 * (i % 8)))

/-- The live members of a group entry, ascending: sampled in clk 0 of the pour (R166). -/
def liveMembers (s : State) (g gsize : Nat) : List Nat :=
  (List.range (gsize + 1)).filter fun i => s.fab.liveUp.contains (groupMember s g i)

/-- Ports of a multicast group: mask bits of its bays (R171). -/
def mcastPorts (s : State) (g : Nat) : List Nat :=
  (List.range 256).filter fun p =>
    let b := p / 16
    bit (s.cfgw (tbKey 2 (64 * g))) b && bit (s.cfgw (tbKey 2 (64 * g + 8 * (1 + b / 4)))) (16 * (b % 4) + p % 16)

/-- Cells in a port's egress queue of a class (R186). -/
def qdepth (s : State) (p c : Nat) : Nat := ((tget [] (s.port p).egress c).map (·.cells)).sum

/-- The member a new flowlet takes: the fewest cells queued; of tied ones the first at or after the hash-chosen, cyclically (R169). -/
def leastLoaded (s : State) (cls g : Nat) (live : List Nat) (start : Nat) : Nat :=
  let order := live.drop start ++ live.take start
  match order with
  | [] => 0
  | m :: ms => ms.foldl (fun b i => if qdepth s (groupMember s g i) cls < qdepth s (groupMember s g b) cls then i else b) m

/-- The ring with the fewest occupied transit buffers at an entry stop; the lowest on a tie (R169). -/
def leastRing (s : State) (dir bay : Nat) : Nat :=
  (List.range 8).foldl (fun b r =>
    if (s.stop (stopKey r dir bay)).transit.length < (s.stop (stopKey b dir bay)).transit.length then r else b) 0

/-- The member and ring of a group entry, and the flowlet entry written (R167, R169). -/
def choosePath (s : State) (h : BitVec 256) (bay : Nat) (pin : Bool) (g gsize : Nat) : Nat × Nat × State :=
  let hash := flowHash s h
  let live := liveMembers s g gsize
  let start := hash % 2 ^ 16 * live.length / 2 ^ 16
  let byHash := live.getD start 0
  if bit s.routeCfg 0 && !pin && (hCls h == 4 || hCls h == 5) then
    let idx := hash / 2 ^ 16 % 2 ^ 16
    let fresh (m : Nat) : Nat × Nat := (m, leastRing s (ringDir bay (groupMember s g m / 16)) bay)
    let pick := match tget? s.fab.flowlets idx with
      | some f =>
        if f.valid && (s.fab.flowClk + 2 ^ 32 - f.last) % 2 ^ 32 < fld s.routeCfg 31 16 && live.contains f.member then (f.member, f.ring)
        else fresh (leastLoaded s (hCls h) g live start)
      | none => fresh (leastLoaded s (hCls h) g live start)
    (pick.1, pick.2, s.setFab fun x =>
      { x with flowlets := tset x.flowlets idx { member := pick.1, ring := pick.2, valid := true, last := s.fab.flowClk } })
  else (byHash, hash / 2 ^ 16 % 8, s)

/-- The unit of a configuration word (R424): a direct block, a station's, port's or stack's configuration, a ring direction's calendar, a
page of a table. -/
def unitOf (k : Nat) : Nat :=
  if k < 2 ^ 32 then k / 2 ^ 16
  else
    let a := k - 2 ^ 32
    match a / 2 ^ 28 with
    | 0 => 2 ^ 40 + a / 2 ^ 16
    | 1 => 2 ^ 41 + a / 2 ^ 20
    | 2 => 2 ^ 42 + a / 2 ^ 25
    | 3 => 2 ^ 43 + a / 2 ^ 23
    | _ => 2 ^ 44 + a / 2 ^ 12

/-- The address of PAR_REC for a key: its 32 bits. -/
def parAddress (k : Nat) : Nat := k % 2 ^ 32

/-- The ordinal of the running pour since E0. -/
def State.pourOrdinal (s : State) : Nat := s.job.slot * s.heatLen + s.job.pour

/-- The units of some words come back from the shadow (R424): their faulty words are good again. -/
def reloadUnits (ks : List Nat) (s : State) : State :=
  let us := ks.map unitOf
  let bad := ks ++ s.par.bad.filter fun k => us.contains (unitOf k)
  let s := { s with cfg := bad.foldl reload1 s.cfg }
  s.setPar fun p => { p with bad := p.bad.filter fun k => !us.contains (unitOf k) }
where
  /-- One word as the shadow has it. -/
  reload1 (m : Tab Word) (k : Nat) : Tab Word :=
    match tget? s.boot.shadow k with | some v => tset m k v | none => m.filter fun e => e.1 != k

/-- A parity fault in a configuration word: recorded, PARITY marked in RUN, the word reloaded at the next boundary; the third in a unit
within 2^20 pours of the first makes a quench due, and the count starts anew after 2^20 pours (R424, R425). Before RUN the word is reloaded at once. -/
def parityFault (k : Nat) (s : State) : State :=
  let u := unitOf k
  let old := match tget [] s.par.units u with
    | p :: ps => if s.pourOrdinal < p + 2 ^ 20 then p :: ps else []
    | [] => []
  let hits := old ++ [s.pourOrdinal]
  let s := s.setPar fun p =>
    { p with valid := true, addr := if p.valid then p.addr else k, faults := satAdd 14 p.faults 1,
             units := tset p.units u (if 3 ≤ hits.length then [] else hits) }
  if s.running then
    let s := s.setPar fun p => { p with reload := if p.reload.contains k then p.reload else p.reload ++ [k] }
    let s := mark 0x04 0 (openEntries s) s
    if 3 ≤ hits.length then quenchDue 0x48 (parAddress s.par.addr) s else s
  else reloadUnits [k] s

/-- A configuration word is used: whether it is faulty, by its own parity, by an earlier fault not yet reloaded, or by the injector
(R423, R424, R453). -/
def useWord (k : Nat) (s : State) : Bool × State :=
  let w := s.inj.par
  let named := if bit w 62 then 2 ^ 32 + fld w 31 0 else fld w 31 0
  if s.par.reload.contains k then (true, s)
  else if injects s w && named == k then
    (true, parityFault k (s.setInj fun i => { i with par := setFld i.par 63 63 0, cntPar := satAdd 16 i.cntPar 1 }))
  else if s.par.bad.contains k then (true, parityFault k s)
  else (false, s)

/-- The ring of a packet's flow: h[18:16] (R167, R172). -/
def flowRing (s : State) (h : BitVec 256) : Nat := flowHash s h / 2 ^ 16 % 8

/-- The route of a packet that starts in a bay: a refusal (status, detail), or whether it is multicast, its target ports and its ring (R163
to R171). A GROUP without a live member whose entry also lacks the packet's flask is answered with FLASK: the manual orders neither before
the other (DESIGN CHOICE, log entry 67). -/
def routeOf (h : BitVec 256) (inPort : Option Nat) (bay : Nat) (s : State) : Except (Nat × Nat) (Bool × List Nat × Nat) × State :=
  let (bad, s) := useWord (routeKey h) s
  let e := s.cfgw (routeKey h)
  let noRoute : Except (Nat × Nat) (Bool × List Nat × Nat) := .error (0x02, hDst h)
  if bad || !bit e 63 then (noRoute, s)
  else if !bit (BitVec.ofNat 16 (fld e 31 16)) (hFlask h) then (.error (0x05, (inPort.map (portFlask s)).getD 0), s)
  else match fld e 62 61 with
    | 0 =>
      let p := swapPort s (fld e 55 48)
      if some p = inPort then (noRoute, s) else (.ok (false, [p], flowRing s h), s)
    | 1 =>
      let g := fld e 47 36
      let (badG, s) := useWord (tbKey 1 (16 * g)) s
      if badG || (liveMembers s g (fld e 35 32)).isEmpty then (noRoute, s)
      else
        let (m, ring, s) := choosePath s h bay (bit e 60) g (fld e 35 32)
        let p := groupMember s g m
        if some p = inPort then (noRoute, s) else (.ok (false, [p], ring), s)
    | _ =>
      let g := fld e 47 36
      let (badG, s) := useWord (tbKey 2 (64 * g)) s
      if badG then (noRoute, s)
      else
        let ts := ((mcastPorts s g).map (swapPort s)).filter fun p => s.portEnabled p && some p != inPort
        (.ok (true, ts, flowRing s h), s)

/-! ### Queues of the pool (R176) -/

def egressKey (p c : Nat) : Nat := 16 * p + c
def localKey (bay c : Nat) : Nat := 4096 + 8 * bay + c
def mcastKey (bay c : Nat) : Nat := 8192 + 8 * bay + c
def replayKey (p : Nat) : Nat := 12288 + p

/-- Allocate blocks from the cache until a queue has `need`. -/
def takeBlocks (key : Nat) : Nat → State → State
  | 0, s => s
  | n + 1, s =>
    match s.fab.cache with
    | [] => s
    | b :: rest => takeBlocks key n (s.setFab fun f => { f with cache := rest, blocks := tmod [] f.blocks key (· ++ [b]) })

/-- Cells are written at a queue's tail. -/
def poolPush (key cells : Nat) (s : State) : State :=
  let wr := tget 0 s.fab.wrCells key + cells
  let s := takeBlocks key ((wr + 63) / 64 - (tget [] s.fab.blocks key).length) s
  s.setFab fun f => { f with wrCells := tset f.wrCells key wr }

/-- The head passes cells; blocks it has passed return to the free store. -/
def poolPop (key cells : Nat) (s : State) : State :=
  let rd := tget 0 s.fab.rdCells key + cells
  let bs := tget [] s.fab.blocks key
  let n := min (rd / 64) bs.length
  s.setFab fun f =>
    { f with blocks := tset f.blocks key (bs.drop n), cache := f.cache ++ bs.take n,
             rdCells := tset f.rdCells key (rd - 64 * n), wrCells := tmod 0 f.wrCells key (· - 64 * n) }

/-- The cells of a packet that has left its queue wait for QUEUE_RELEASE. -/
def leaveQueue (key : Nat) (q : QPkt) (s : State) : State :=
  s.setFab fun f => { f with leaving := tmod [] f.leaving key (· ++ [q]) }

/-- The occupancy mark follows the queue (R201). -/
def noteDepth (p c : Nat) (s : State) : State :=
  s.setPort p fun x => { x with occMark := tmod 0 x.occMark c (max · ((tget [] x.egress c).map (·.cells)).sum) }

/-- Put a packet at the tail of a port's egress queue. -/
def enqueueEgress (p : Nat) (q : QPkt) (s : State) : State :=
  noteDepth p (hCls q.pkt.hdr) (poolPush (egressKey p (hCls q.pkt.hdr)) q.cells (s.setPort p fun x =>
    { x with egress := tmod [] x.egress (hCls q.pkt.hdr) (· ++ [{ q with since := s.clk }]) }))

/-- A routed packet starts its way to a port's egress queue (R155, R160). -/
def placeUnicast (q : QPkt) (p : Nat) (s : State) : State := sendThrough (p / 16) (egressSt p) { q with targets := [p] } s

/-- A packet for a station of this module starts its way to it. -/
def placeLocal (q : QPkt) (goal : Goal) (a : Nat) (s : State) : State :=
  sendThrough (a / 256) a { q with goal := goal, ring := flowRing s q.pkt.hdr } s

/-! ### Tap copies (R173, R174) -/

/-- Word `i` of a tap session (R460). -/
def tapWord (s : State) (k i : Nat) : Word := s.cfgw (tbKey 5 (64 * k + 8 * i))

/-- Make a copy for a session at a station's crossbar input: when its quota has room, at the running offset of its window. -/
def tapCopy (k : Nat) (src : Nat) (pkt : Packet) (s : State) : State :=
  let w0 := tapWord s k 0
  if !bit w0 63 || hCls pkt.hdr == 7 then s
  else
    let payLen := min 4096 (32 + payloadLen pkt.hdr)
    let window := 4096 * (fld (tapWord s k 2) 23 0 + 1)
    let off := tget 0 s.fab.tapOffset k
    let off := if window < off + payLen then 0 else off
    let port := swapPort s (fld w0 28 21)
    let hdr := mkHeader 0 7 0 (fld w0 20 20) (fld w0 19 0) 1 s.moduleId (hFlask pkt.hdr)
      ((tapWord s k 1).toNat + off) 0 (payLen / 16 - 1) (hInst pkt.hdr) 0 0 s.job.pour
    let cells := cellsOf hdr
    if fld (tapWord s k 4) 21 0 < tget 0 s.fab.tapUse k + cells then bumpPort port 58 1 s
    else
      let copy : Packet :=
        { pkt with hdr := hdr, payload := (headerBytes pkt.hdr ++ pkt.payload).take 4096, inPort := none }
      let s := charge (.tap k) cells (s.setFab fun x => { x with tapOffset := tset x.tapOffset k (off + payLen) })
      placeUnicast
        { pkt := copy, owner := .tap k, cells := cells, ring := flowRing s hdr, since := s.clk, targets := [port], reserved := [], src := src }
        port s

/-- PORT_TAP of a port (R175, R391). -/
def portTap (s : State) (p : Nat) : Word := s.cfgw (ptKey (swapPort s p) 0x118)

/-! ### Routing a packet (R162) -/

/-- Route a packet whose room is charged: placed, or refused with a status and detail. -/
def routePacket (q : QPkt) (s : State) : Option (Nat × Nat) × State :=
  let e := s.cfgw (routeKey q.pkt.hdr)
  match routeOf q.pkt.hdr (q.pkt.inPort.map (·.toNat)) (q.src / 256) s with
  | (.error r, s) => (some r, s)
  | (.ok (mc, ts, ring), s) =>
    let s := if bit e 59 then tapCopy (fld e 58 57) q.src q.pkt s else s
    let q := { q with ring := ring, targets := ts, reserved := [], since := s.clk }
    if mc then
      let bay := q.src / 256
      let q := { q with mask := fld (s.cfgw (tbKey 2 (64 * fld e 47 36))) 15 0 }
      (none, (poolPush (mcastKey bay (hCls q.pkt.hdr)) q.cells s).setFab fun x =>
        { x with mcast := tmod [] x.mcast (8 * bay + hCls q.pkt.hdr) (· ++ [q]) })
    else match ts with
      | p :: _ => (none, placeUnicast q p s)
      | [] => (none, s)

/-! ### Completions (R145 to R147) -/

/-- The completion that answers a packet. -/
def completionPacket (s : State) (h : BitVec 256) (status detail : Nat) : Packet :=
  { hdr := mkHeader 3 (if hCls h = 5 then 5 else 4) 0 (hSrcPlane h) (hSrc h) 1 s.moduleId (hFlask h) 0 (hSrcStation h) 0 (hInst h)
      (hTag h) 0 s.job.pour
    payload := beBytes 16 (status * 2 ^ 120 + detail % 2 ^ 32 * 2 ^ 64 + hAddr h)
    trailer := 0, stampPour := s.job.pour, stampClk := s.pourOff, inPort := none, stomped := false, complete := true, ident := 0 }

/-- A completion for a station of this module (R162, R225): an OK one adds to counter 30, a negative one sets flag 63 and is kept. -/
def localCompletion (a status detail : Nat) (s : State) : State :=
  if status = 0 then sendSignal (s.clk + 1) a (.add 30 1) none s
  else sendSignal (s.clk + 1) a (.set 63) none (s.setStation a fun x => { x with ncpl := BitVec.ofNat 64 (status * 2 ^ 56 + detail % 2 ^ 32) })

/-- A negative completion that is sent counts at the port its packet came by (R150). -/
def countNeg (inPort : Option PortNo) (status : Nat) (s : State) : State :=
  match inPort with | some p => if status = 0 then s else bumpPort p.toNat 11 1 s | none => s

/-- A discarded packet that is answered by no completion is counted (R6, R147): the manual names no register for the count, which stands
at place 100 of the port's counters. -/
def countUnanswered (inPort : Option PortNo) (s : State) : State :=
  match inPort with | some p => bumpPort p.toNat 100 1 s | none => s

/-- A packet is answered from a station's crossbar input (R145 to R147). Its cells but one are freed at once; the completion keeps that one
until it leaves (R182). -/
def answer (h : BitVec 256) (inPort : Option PortNo) (src : Nat) (owner : Requester) (cells status detail : Nat) (s : State) : State :=
  if hSrcPlane h = 1 && hSrc h = s.moduleId then
    countNeg inPort status (release owner cells (localCompletion (hSrcStation h) status detail s))
  else
    let c := completionPacket s h status detail
    let q : QPkt :=
      { pkt := c, owner := owner, cells := min cells 1, ring := 0, since := s.clk, targets := [], reserved := [], src := src }
    match routePacket q (release owner (cells - 1) s) with
    | (none, s) => countNeg inPort status s
    | (some _, s) => countUnanswered inPort (release owner (min cells 1) s)

/-- A packet is discarded with a negative completion, unless it is one that R147 never answers. -/
def refusePacket (q : QPkt) (status detail : Nat) (s : State) : State :=
  let h := q.pkt.hdr
  if hType h = 3 || hType h = 4 then countUnanswered q.pkt.inPort (release q.owner q.cells s)
  else answer h q.pkt.inPort q.src q.owner q.cells status detail s

/-- Forward a packet: routed, or refused with the completion of R165; the discards are counted (R186). -/
def forwardPacket (q : QPkt) (s : State) : State :=
  match routePacket q s with
  | (none, s) => s
  | (some (st, d), s) =>
    let s := match q.pkt.inPort with
      | some p => bumpPort p.toNat (if st = 2 then 48 else 49) 1 s
      | none => s
    refusePacket q st d s

/-! ### Capture (R399 to R401) -/

/-- A capture record: a 32-byte head, the body, zero padding to 64 bytes (R400). -/
def captureBytes (kind flags heat pour clk unit w3 : Nat) (body : List Byte) : List Byte :=
  let raw := leBytes 8 (kind * 2 ^ 60 + flags * 2 ^ 52 + heat) ++ leBytes 8 (pour * 2 ^ 32 + clk) ++
    leBytes 8 (unit * 2 ^ 56 + body.length) ++ leBytes 8 w3 ++ body
  raw ++ List.replicate ((64 - raw.length % 64) % 64) 0

/-- A record enters the buffer of a logic die, or is lost and counted when the 1 MiB are full (R401). -/
def pushCapture (die : Nat) (rec_ : List Byte) (s : State) : State :=
  let buf := tget [] s.cap.buffer die
  if s.cap.full then s
  else if 1048576 < (buf.map (·.length)).sum + rec_.length then
    s.setCap fun c => { c with lost := true, lostCount := satAdd 29 c.lostCount 1 }
  else s.setCap fun c => { c with buffer := tset c.buffer die (buf ++ [rec_]) }

/-- A HEAT or END record goes to die 0, with an empty mark on die 1 that keeps its place among the records of both. -/
def pushMark (rec_ : List Byte) (s : State) : State :=
  let t := pushCapture 0 rec_ s
  if (tget [] t.cap.buffer 0).length = (tget [] s.cap.buffer 0).length then t else pushCapture 1 [] t

/-- Record an accepted packet on a selected port while capture runs (R399, R400). -/
def capturePacket (p : Nat) (pkt : Packet) (failed : Bool) (s : State) : State :=
  if s.cap.running && bit (tget 0 s.cap.ports (p / 64)) (p % 64) then
    pushCapture (p / 128)
      (captureBytes 1 ((if pkt.stomped then 2 else 0) + (if failed then 1 else 0)) pkt.stampHeat pkt.stampPour pkt.stampClk p 0
        (headerBytes pkt.hdr ++ pkt.payload ++ beBytes 8 pkt.trailer.toNat)) s
  else s

end Sys2Proof.Machine
end

