-- ==== Sys2Proof/Machine/CrucibleOps.lean ====
section
/-!
DEFINITION. Crucibles: groups, members and instances (R261 to R264), contributions and their checks (R268 to R276, R281, R284), results
(R266, R267, R275, R276, R282), the deadline decision (R283, R285 to R287), removal (R288, R289).
-/

namespace Sys2Proof.Machine

/-! ### Tables 8, 9 and 10 -/

def groupWord (s : State) (g i : Nat) : Word := s.cfgw (tbKey 8 (32 * g + 8 * i))
def gValid (s : State) (g : Nat) : Bool := bit (groupWord s g 0) 63
def gOp (s : State) (g : Nat) : Nat := fld (groupWord s g 0) 62 58
def gType (s : State) (g : Nat) : Nat := fld (groupWord s g 0) 57 54
def gRanked (s : State) (g : Nat) : Bool := bit (groupWord s g 0) 53
def gFinal (s : State) (g : Nat) : Bool := bit (groupWord s g 0) 50
def gLong (s : State) (g : Nat) : Bool := bit (groupWord s g 0) 49
def gVar (s : State) (g : Nat) : Bool := bit (groupWord s g 0) 48
/-- n of R266. -/
def gMembers (s : State) (g : Nat) : Nat := fld (groupWord s g 0) 47 36 + 1
def gSizeClass (s : State) (g : Nat) : Nat := fld (groupWord s g 0) 35 31
/-- E of R266. -/
def gElems (s : State) (g : Nat) : Nat := fld (groupWord s g 1) 62 32 + 1
def gCountInst (s : State) (g : Nat) : Nat := fld (groupWord s g 1) 31 16
def gBase (s : State) (g : Nat) : Nat := fld (groupWord s g 1) 13 0
def gRoot (s : State) (g : Nat) : Nat := fld (groupWord s g 2) 63 52

/-- Member entry of a rank. -/
def memberNo (s : State) (g r : Nat) : Nat := gBase s g + r
def memberWord (s : State) (m : Nat) : Word := s.cfgw (tbKey 9 (8 * m))
def mLocal (s : State) (m : Nat) : Bool := bit (memberWord s m) 62
def mPort (s : State) (m : Nat) : Nat := fld (memberWord s m) 59 52
def mEnd (s : State) (m : Nat) : Nat := fld (memberWord s m) 30 28
def mStation (s : State) (m : Nat) : Nat := fld (memberWord s m) 11 0
/-- The plane and the source ID that the member's packets carry. -/
def mPlane (s : State) (m : Nat) : Nat := fld (memberWord s m) 51 51
def mSrcId (s : State) (m : Nat) : Nat := fld (memberWord s m) 50 31
/-- live, which falls when the member is removed (R262). -/
def mLive (s : State) (m : Nat) : Bool := bit (memberWord s m) 63 && !(s.member m).removed

def instWord (s : State) (i w : Nat) : Word := s.cfgw (tbKey 10 (32 * i + 8 * w))
/-- A section supplies the instance entry (R264). -/
def iValid (s : State) (i : Nat) : Bool := decide (i < 4096) && (tget? s.cfg (tbKey 10 (32 * i))).isSome
def iCrucible (s : State) (i : Nat) : Nat := fld (instWord s i 0) 63 52
def iGroup (s : State) (i : Nat) : Nat := fld (instWord s i 0) 51 42
def iRow (s : State) (i : Nat) : Nat := fld (instWord s i 0) 41 32
def iRows (s : State) (i : Nat) : Nat := fld (instWord s i 0) 31 22 + 1

/-- Supplied instances, ascending. -/
def validInsts (s : State) : List Nat := tableRows s 10 0 0x20000 32 (fun _ => true)

/-- Ranks of a group. -/
def ranks (s : State) (g : Nat) : List Nat := List.range (gMembers s g)
def liveRanks (s : State) (g : Nat) : List Nat := (ranks s g).filter fun r => mLive s (memberNo s g r)

/-- A pour and a clk as clk since the slot began. -/
def slotClkOf (s : State) (p c : Nat) : Nat := p * s.pourClks + c

/-- The deadline D of an instance in clk since the slot began (R286). -/
def deadline (s : State) (i : Nat) : Nat := slotClkOf s (fld (instWord s i 1) 63 32) (fld (instWord s i 1) 21 0)

/-- Pour and clk of the deadline. -/
def dlPour (s : State) (i : Nat) : Nat := fld (instWord s i 1) 63 32
def dlClk (s : State) (i : Nat) : Nat := fld (instWord s i 1) 21 0

/-- The running clk since the slot began. -/
def State.slotNow (s : State) : Nat := slotClkOf s s.job.pour s.pourOff

/-! ### Operations (R266) -/

/-- A sum of a float type. -/
def isFloatSum (s : State) (g : Nat) : Bool := gOp s g == 1 && gType s g != 7

/-- Elements a member of a rank contributes: n·E for the root of a SCATTER and every member of an ALLTOALL, none for the other members of a
SCATTER, else E. -/
def contribElems (s : State) (g r : Nat) : Nat :=
  if gOp s g = 9 then (if r = gRoot s g then gMembers s g * gElems s g else 0)
  else if gOp s g = 10 then gMembers s g * gElems s g
  else gElems s g

/-- Lines a member contributes (R270, R276). -/
def contribLines (s : State) (g r : Nat) : Nat :=
  if gLong s g then 5 * ((gElems s g + 15) / 16) else (contribElems s g r * elemBits (gType s g) + 1023) / 1024

/-- The format a contribution's tiles carry. -/
def contribFormat (s : State) (g : Nat) : Nat := if gLong s g then 8 else gType s g

/-! ### The long accumulator (R273 to R276) -/

def rangeCheck (a : LongAcc) : LongAcc := if 2 ^ 298 ≤ a.v || a.v < -(2 ^ 298) then { a with nan := true } else a

/-- Add an element. -/
def addElement (a : LongAcc) : Num → LongAcc
  | .nan => { a with nan := true }
  | .inf true => { a with ninf := true }
  | .inf false => { a with pinf := true }
  | .fin neg m x =>
    if m = 0 then a
    else
      let t : Int := m * 2 ^ (x + 149).toNat
      rangeCheck { a with v := if neg then a.v - t else a.v + t }

/-- Add a long partial. -/
def addLong (a b : LongAcc) : LongAcc :=
  rangeCheck { nan := a.nan || b.nan, pinf := a.pinf || b.pinf, ninf := a.ninf || b.ninf, v := a.v + b.v }

/-- The 320 bits of an accumulator. -/
def longBits (a : LongAcc) : Nat :=
  (if a.nan then 2 ^ 319 else 0) + (if a.pinf then 2 ^ 318 else 0) + (if a.ninf then 2 ^ 317 else 0) + unsigned 299 a.v

/-- An accumulator from its 320 bits. -/
def longOf (w : Nat) : LongAcc :=
  { nan := w.testBit 319, pinf := w.testBit 318, ninf := w.testBit 317, v := signed 299 w }

/-- round_long (R275). -/
def roundLong (a : LongAcc) : BitVec 32 :=
  if a.nan || (a.pinf && a.ninf) then f32NaN
  else if a.pinf then f32Inf false
  else if a.ninf then f32Inf true
  else if a.v = 0 then 0#32
  else roundF32 (a.v < 0) a.v.natAbs (-149)

/-! ### Taking a line (R272 to R274) -/

/-- The elements of a line from element `first` on that lie within `count`: index and code. -/
def lineElems (fmt first count : Nat) (d : LineData) : List (Nat × Nat) :=
  ((List.range (elemsPerLine fmt)).map fun i => (first + i, elemAt fmt d i)).filter fun e => decide (e.1 < count)

/-- The five lines of a group of sixteen long partials (R276): element i of group q of a contribution's stored lines. -/
def longElem (ds : List LineData) (i : Nat) : LongAcc :=
  let bytes := ((ds.drop (i / 16 * 5)).take 5).flatMap lineBytes
  longOf (leNat ((bytes.drop (40 * (i % 16))).take 40))

/-- Add line k of a contribution to the accumulators of a float SUM: elements in arrival order or to the long accumulators; a long partial
is added when its five lines are in. -/
def accumulate (s : State) (g : Nat) (c : Contribution) (k : Nat) (d : LineData) (o : OpenInst) : OpenInst :=
  if gLong s g then
    if k % 5 = 4 then
      let grp := c.data ++ [d]
      let idx := (List.range 16).map fun i => (k / 5 * 16 + i, longElem grp i)
      { o with long := (idx.filter fun e => decide (e.1 < gElems s g)).foldl (fun m e => tmod .zero m e.1 (addLong · e.2)) o.long }
    else o
  else
    let fmt := gType s g
    let es := lineElems fmt (k * elemsPerLine fmt) (gElems s g) d
    if gRanked s g then
      { o with long := es.foldl (fun m e => tmod .zero m e.1 (addElement · (decodeElem fmt e.2))) o.long }
    else
      { o with arrival := es.foldl (fun m e => tmod 0 m e.1 fun x => f32Add x (roundNum (decodeElem fmt e.2))) o.arrival }

/-- The lines kept of a contribution: for a float SUM only the open group of a long partial. -/
def keepLine (s : State) (g : Nat) (k : Nat) (d : LineData) (ds : List LineData) : List LineData :=
  if isFloatSum s g then (if gLong s g && k % 5 != 4 then ds ++ [d] else []) else ds ++ [d]

/-! ### Checks of a contribution (R284) -/

/-- The contribution key of a packet (R269). -/
def keyBad (s : State) (g r : Nat) (key : Nat) : Bool :=
  key / 2 ^ 59 % 32 != gOp s g || key / 2 ^ 55 % 16 != gType s g || key / 2 ^ 50 % 32 != gSizeClass s g || key / 2 ^ 40 % 1024 != g ||
  key / 2 ^ 24 % 65536 != s.job.heat % 65536 || key / 16 % 2 ^ 20 != r

/-- The rank whose member entry names an arrival's port and end. -/
def rankOfArrival (s : State) (g port e : Nat) : Option Nat :=
  (ranks s g).find? fun r =>
    let m := memberNo s g r
    !mLocal s m && mPort s m == swapPort s port && mEnd s m == e

/-- Where an arrival that no member entry names is kept. -/
def strangerKey (port e : Nat) : Nat := 2 ^ 20 + 8 * port + e

/-- Lines a tile states in its header. -/
def tileCount (side : BitVec 24) : Nat := fld side 4 0 + 1
def tileFormat (side : BitVec 24) : Nat := fld side 15 12

/-- A tile of some lines would carry a contribution past the lines of R270, or is no whole number of long groups. -/
def sizeBad (s : State) (g r taken lines : Nat) : Bool :=
  decide (contribLines s g r < taken + lines) || (gLong s g && lines % 5 != 0)

/-- The first tile of a contribution offends by its format or its size. -/
def tileBad (s : State) (g r : Nat) (side : BitVec 24) : Bool :=
  tileFormat side != contribFormat s g || sizeBad s g r 0 (tileCount side)

/-- A COUNTX line holds a count of all ones within its elements. -/
def countBad (s : State) (g k : Nat) (d : LineData) : Bool :=
  gOp s g == 11 && (lineElems 7 (32 * k) (gElems s g) d).any fun e => e.2 == 0xFFFFFFFF

/-- A stamp at or before D: stamps compare by pour number first (R56). -/
def onTime (s : State) (i p c : Nat) : Bool := decide (p < dlPour s i) || (p == dlPour s i && decide (c ≤ dlClk s i))

/-- The contribution a first line opens. -/
def newContribution (m : LineMeta) (rank qend : Nat) (bad : Bool) : Contribution :=
  { stampPour := m.stampPour, stampClk := m.stampClk, lines := 0, timely := 0, qend := qend, bad := bad, rank := rank, port := m.port,
    hdr := m.hdr, data := [] }

/-- An instance's record changes. -/
def setInst (c i : Nat) (f : OpenInst → OpenInst) (s : State) : State :=
  s.setCrucible c fun x => { x with insts := x.insts.map fun e => if e.1 = i then (e.1, f e.2) else e }

def instOf (s : State) (c i : Nat) : Option OpenInst := tget? (s.crucible c).insts i

/-- The instance is open now (R279). -/
def isOpen (s : State) (c i : Nat) : Bool := match instOf s c i with | some o => decide (o.openAt ≤ s.clk) && !o.closed | none => false

/-- A line of a contribution is taken: counted, and added when nothing is against it. -/
def takeLine (c i key : Nat) (l : Line) (m : LineMeta) (s : State) : State :=
  let g := iGroup s i
  setInst c i (fun o =>
    match tget? o.got key with
    | none => o
    | some x =>
      let bad := x.bad || countBad s g x.lines l.data
      let timely := onTime s i m.stampPour m.stampClk
      let adds := !bad && timely && !o.missed.contains key && decide (x.lines < contribLines s g x.rank)
      let o := if adds && isFloatSum s g then accumulate s g x x.lines l.data o else o
      let x := { x with lines := x.lines + 1, timely := x.timely + (if timely then 1 else 0), bad := bad,
                        data := if adds then keepLine s g x.lines l.data x.data else x.data }
      { o with got := tset o.got key x }) s

/-- A negative completion to the member that a contribution came from: its packet's source, or a local member's station (R285). -/
def memberCompletion (c g : Nat) (x : Contribution) (status detail : Nat) (s : State) : State :=
  match x.port with
  | some p => answer x.hdr (some p) c .none 0 status detail s
  | none => localCompletion (mStation s (memberNo s g x.rank)) status detail s

/-- A LATE completion is counted (R292), and the member receives no second one. -/
def countLate (c i r : Nat) (s : State) : State :=
  setInst c i (fun o => { o with lateSent := o.lateSent ++ [r] }) (s.setCrucible c fun y => { y with late := satAdd 16 y.late 1 })

/-- LATE to a local member (R285, R287). -/
def sendLate (c i : Nat) (x : Contribution) (s : State) : State :=
  memberCompletion c (iGroup s i) x 0x0B (x.stampPour % 2 ^ 32) (countLate c i x.rank s)

/-- The first line of a tile at rank `r` (kept under `key`): a new contribution is checked whole, a further tile for its size. A local
member's first line after the decision is answered. -/
def beginTile (c i key r qend : Nat) (bad : Bool) (m : LineMeta) (side : BitVec 24) (s : State) : State :=
  let g := iGroup s i
  match instOf s c i with
  | none => s
  | some o =>
    match tget? o.got key with
    | none =>
      let x := newContribution m r qend (bad || tileBad s g r side)
      let s := setInst c i (fun o => { o with got := tset o.got key x }) s
      if m.port.isNone && o.decided && o.missed.contains key && !o.lateSent.contains key then sendLate c i x s else s
    | some x =>
      setInst c i (fun o => { o with got := tset o.got key { x with bad := x.bad || sizeBad s g r x.lines (tileCount side) } }) s

/-! ### Arrival (R280, R286, R289) -/

/-- Two ranks of a group share the port of a member. -/
def sharesPort (s : State) (g r : Nat) : Bool :=
  (ranks s g).any fun q => q != r && !mLocal s (memberNo s g q) && mPort s (memberNo s g q) == mPort s (memberNo s g r)

/-- The packets of a port member's contribution stamped so far, in order; members of one port are told apart by the rank of the key (R286). -/
def stampsOf (s : State) (i r : Nat) : List ContribStamp :=
  let g := iGroup s i
  let port := mPort s (memberNo s g r)
  let shared := sharesPort s g r
  s.fab.stamped.filter fun x => x.inst == i && swapPort s x.port.toNat == port && (!shared || x.rank == r)

/-- Those stamped by D. -/
def stampedBy (s : State) (i r : Nat) : List ContribStamp := (stampsOf s i r).filter fun x => onTime s i x.pour x.clk

/-- The lines on their way to a Crucible's end, first the one that is taken first: in the end, under way, in the output end bound to it. -/
def linesToward (s : State) (c e : Nat) : List Line :=
  endLines s c e ++ (s.fab.flights.filter fun f => f.station == c && f.qend == e).map (·.line) ++ endLines s (boundSt s c e) (boundEnd s c e)

/-- Lines of a local member that were pushed by D and have not been taken: those on the way to its end (R271, R286). -/
def waitingLines (s : State) (c e i : Nat) : Nat :=
  ((linesToward s c e).filter fun l =>
    match l.origin with | some o => o.port.isNone && onTime s i o.stampPour o.stampClk | none => false).length

/-- The lines of a port member's contribution to an instance that wait inside the module, in order: those on the way to its Crucible's end,
and those still at its port-ingress station. -/
def heldLines (s : State) (c i r : Nat) : List Line :=
  let m := memberNo s (iGroup s i) r
  let mine (l : Line) : Bool := match l.origin with
    | some o => hInst o.hdr == i && (match o.port with | some p => swapPort s p.toNat == mPort s m | none => false)
    | none => false
  (linesToward s c (mEnd s m) ++ endLines s (ingressSt (swapPort s (mPort s m))) 0).filter mine

/-- The member of a rank has delivered its whole contribution. -/
def deliveredWhole (s : State) (o : OpenInst) (g r : Nat) : Bool :=
  contribLines s g r == 0 || match tget? o.got r with | some x => decide (contribLines s g r ≤ x.lines) | none => false

/-- The member counts as arrived at the decision (R57, R286): by stamps, wherever its lines stand. -/
def arrivedBy (s : State) (o : OpenInst) (c i r : Nat) : Bool :=
  let g := iGroup s i
  let need := contribLines s g r
  let m := memberNo s g r
  need == 0 ||
    if mLocal s m then
      match tget? o.got r with
      | some x => onTime s i x.stampPour x.stampClk && decide (need ≤ x.timely + (if x.lines < need then waitingLines s c x.qend i else 0))
      | none => decide (need ≤ waitingLines s c (mEnd s m) i)
    else
      decide (need ≤ ((stampedBy s i r).map (·.lines)).sum)

/-- Some tiles' lines carry a contribution past its size, one after another. -/
def tilesBad (s : State) (g r : Nat) : Nat → List Nat → Bool
  | _, [] => false
  | taken, n :: ns => sizeBad s g r taken n || tilesBad s g r (taken + n) ns

/-- A port member's contribution offends by what was stamped by D, wherever its lines stand: its key and its format by the first packet, its
size by each, its counts by the lines that wait (R57, R281, R284). -/
def stampsBad (s : State) (c i r : Nat) : Bool :=
  let g := iGroup s i
  let xs := stampedBy s i r
  let held := heldLines s c i r
  let first := contribLines s g r - held.length
  match xs with
  | [] => false
  | x :: _ =>
    keyBad s g r (hAddr x.hdr) || fld (BitVec.ofNat 16 (hTag x.hdr)) 15 12 != contribFormat s g || tilesBad s g r 0 (xs.map (·.lines)) ||
      ((List.range held.length).zip held).any fun e => countBad s g (first + e.1) e.2.data

/-- Intake is complete (R280): every live member has delivered, or was declared absent or late. -/
def intakeComplete (s : State) (c i : Nat) : Bool :=
  match instOf s c i with
  | some o => (liveRanks s (iGroup s i)).all fun r => o.missed.contains r || deliveredWhole s o (iGroup s i) r
  | none => false

/-! ### Count exchange (R281 to R283) -/

/-- Element k of a rank's contribution, as its code. -/
def contribElem (o : OpenInst) (fmt r k : Nat) : Nat :=
  match tget? o.got r with
  | some x => elemAt fmt (x.data.getD (k / elemsPerLine fmt) 0) (k % elemsPerLine fmt)
  | none => 0

/-- O[r][k]: the sum of c[s][k] over live s below r. -/
def countOffset (s : State) (o : OpenInst) (g r k : Nat) : Nat :=
  (((liveRanks s g).filter (· < r)).map fun m => contribElem o 7 m k).sum

/-- End[k][r]: the sum of c[s][r] over live s at or below k. -/
def countEnd (s : State) (o : OpenInst) (g k r : Nat) : Nat :=
  (((liveRanks s g).filter (· ≤ k)).map fun m => contribElem o 7 m r).sum

/-- Word j of the two tiles returned to rank r (R282): A then B. -/
def countWord (s : State) (o : OpenInst) (g r j : Nat) : Nat :=
  let n := gMembers s g
  let live (k : Nat) : Bool := mLive s (memberNo s g k)
  if !live r then 0xFFFFFFFF
  else if j < n then (if live j then countOffset s o g r j else 0xFFFFFFFF)
  else (if live (j - n) then countEnd s o g (j - n) r else 0xFFFFFFFF)

/-- The data groups a COUNTX instance sizes: capacity in elements and in bytes of each (R283). -/
def sizedGroups (s : State) (i : Nat) : List (Nat × Nat) :=
  ((tableRows s 8 0 0x8000 32 (fun w => bit w 63)).filter fun g => gVar s g && gCountInst s g == i).map fun g =>
    (gElems s g, (gElems s g * elemBits (gType s g) + 7) / 8)

/-- The smallest capacity: elements and bytes. -/
def smallestCapacity (s : State) (i : Nat) : Option (Nat × Nat) :=
  (sizedGroups s i).foldl (fun b e => match b with | none => some e | some x => if e.1 < x.1 then some e else some x) none

/-- Live ranks whose total exceeds the capacity or the bound of R283. -/
def overflowing (s : State) (o : OpenInst) (i : Nat) : List Nat :=
  let g := iGroup s i
  let cap := match smallestCapacity s i with | some c => c.1 | none => 0xFFFFFFFE
  (liveRanks s g).filter fun r => let t := countEnd s o g (gMembers s g) r; decide (cap < t) || decide (0xFFFFFFFE < t)

/-! ### Results (R266, R267, R275, R276, R280) -/

/-- The order key of an element code: −0 below +0. -/
def orderKey (fmt code : Nat) : Int :=
  if isInt fmt then signed (elemBits fmt) code
  else
    let top := 2 ^ (elemBits fmt - 1)
    if top ≤ code then -((code % top : Nat) : Int) - 1 else code

/-- MIN (`mx` false) or MAX of two codes; a NaN in either gives NaN (R267). -/
def pickCode (mx : Bool) (fmt a b : Nat) : Nat :=
  if decodeElem fmt a == .nan || decodeElem fmt b == .nan then nanCode fmt
  else if (if mx then decide (orderKey fmt a < orderKey fmt b) else decide (orderKey fmt b < orderKey fmt a)) then b else a

/-- The identity of MIN or MAX in a format. -/
def pickIdentity (mx : Bool) (fmt : Nat) : Nat :=
  if isInt fmt then (if mx then 2 ^ (elemBits fmt - 1) else 2 ^ (elemBits fmt - 1) - 1)
  else signCode fmt mx + (maxCode fmt + 1)

/-- One step of a bitwise operation. -/
def bitStep (op a b : Nat) : Nat := if op = 5 then a &&& b else if op = 6 then a ||| b else a ^^^ b

/-- The result format (R266). -/
def resultFormat (s : State) (g : Nat) : Nat :=
  if isFloatSum s g then (if gRanked s g && !gFinal s g then 8 else 0) else gType s g

/-- A value with the one NaN that the module writes (R239). -/
def plainNaN (x : BitVec 32) : BitVec 32 := if f32IsNaN x then f32NaN else x

/-- Element k of the result for a destination rank, as a code of the result format; for long partials, byte k of the stream. -/
def resultElem (s : State) (o : OpenInst) (g dst k : Nat) : Nat :=
  let fmt := gType s g
  let e := gElems s g
  let live := liveRanks s g
  match gOp s g with
  | 1 =>
    if fmt = 7 then (live.map fun r => contribElem o 7 r k).sum % 2 ^ 32
    else if !gRanked s g then (tget 0 o.arrival k).toNat
    else if gFinal s g then (roundLong (tget .zero o.long k)).toNat
    else longBits (tget .zero o.long (k / 40)) / 2 ^ (8 * (k % 40)) % 256
  | 2 => live.foldl (fun x r => pickCode false fmt x (contribElem o fmt r k)) (pickIdentity false fmt)
  | 3 => live.foldl (fun x r => pickCode true fmt x (contribElem o fmt r k)) (pickIdentity true fmt)
  | 4 =>
    match live with
    | [] => 0x3F800000
    | r :: rs => (rs.foldl (fun x m => f32Mul x (BitVec.ofNat 32 (contribElem o 0 m k))) (plainNaN (BitVec.ofNat 32 (contribElem o 0 r k)))).toNat
  | 8 => if k / e < gMembers s g && mLive s (memberNo s g (k / e)) then contribElem o fmt (k / e) (k % e) else 0
  | 9 => if k < e && mLive s (memberNo s g (gRoot s g)) then contribElem o fmt (gRoot s g) (dst * e + k) else 0
  | 10 => if k / e < gMembers s g && mLive s (memberNo s g (k / e)) then contribElem o fmt (k / e) (dst * e + k % e) else 0
  | 11 => countWord s o g dst k
  | 12 =>
    let upTo := live.filter (· ≤ dst)
    if fmt = 7 then (upTo.map fun r => contribElem o 7 r k).sum % 2 ^ 32
    else (roundLong (upTo.foldl (fun a r => addElement a (decodeElem 0 (contribElem o 0 r k))) .zero)).toNat
  | op =>
    match live with
    | [] => if op = 5 then 2 ^ elemBits fmt - 1 else 0
    | r :: rs => rs.foldl (fun x m => bitStep op x (contribElem o fmt m k)) (contribElem o fmt r k)

/-- Elements of the whole result stream. -/
def resultLen (s : State) (g : Nat) : Nat :=
  match gOp s g with
  | 1 => if isFloatSum s g && gRanked s g && !gFinal s g then 40 * gElems s g else gElems s g
  | 8 => gMembers s g * gElems s g
  | 10 => gMembers s g * gElems s g
  | 11 => 2 * gMembers s g
  | _ => gElems s g

/-- Line j of a result tile that begins at result element `first`; zero for an instance that its decision retracted (R280). -/
def resultLine (s : State) (o : OpenInst) (g dst first j : Nat) : LineData :=
  if o.retracted then 0
  else
    let fmt := resultFormat s g
    let start := (if isFloatSum s g && fmt == 8 then 40 * first else first) + j * elemsPerLine fmt
    lineOfElems fmt ((List.range (elemsPerLine fmt)).map fun k =>
      if start + k < resultLen s g then resultElem s o g dst (start + k) else 0)

/-! ### Instructions (R279) -/

/-- The instance named is valid, of this Crucible, of a valid group. -/
def instOk (s : State) (a i : Nat) : Bool := iValid s i && iCrucible s i == a && gValid s (iGroup s i)

/-- Rows of two instances overlap. -/
def rowsOverlap (s : State) (i j : Nat) : Bool := decide (iRow s i < iRow s j + iRows s j) && decide (iRow s j < iRow s i + iRows s i)

/-- An instance newly loaded: open 8 clk later. -/
def OpenInst.fresh (openAt : Nat) : OpenInst :=
  { openAt := openAt, got := [], arrival := [], long := [], decided := false, retracted := false, missed := [], lateSent := [], exceeded := false,
    closed := false }

/-- cr.open. -/
def crOpen (a : Nat) (w : Word) (s : State) : Except Nat State :=
  let i := (scalarSrc s a (aOf w)).toNat
  if !instOk s a i then .error bound
  else if deadline s i + 72 < s.slotNow + 8 then .error bound
  else if (s.crucible a).insts.any fun e => !e.2.closed && rowsOverlap s e.1 i then .error conflict
  else .ok (s.setCrucible a fun x => { x with insts := tset x.insts i (OpenInst.fresh (s.clk + 8)) })

/-- cr.close: the decision of an instance closed before its D + 72 is still taken (R286). -/
def crClose (a : Nat) (w : Word) (s : State) : Except Nat State :=
  let i := (scalarSrc s a (aOf w)).toNat
  if !instOk s a i || !isOpen s a i then .error bound
  else .ok (setInst a i (fun o => { o with closed := true }) s)

/-- Lines of a cr.emit's tile. -/
def emitLines (s : State) (a : Nat) (w : Word) : Nat := fld (scalarSrc s a (bOf w)) 36 32 + 1

/-- cr.emit: two lines per clk, the first at issue + 8. -/
def crEmit (a : Nat) (w : Word) (place : Nat) (s : State) : Except Nat State :=
  let i := (scalarSrc s a (aOf w)).toNat
  let b := scalarSrc s a (bOf w)
  match instOf s a i with
  | none => .error bound
  | some o =>
    if !instOk s a i || !isOpen s a i then .error bound
    else if !o.retracted && !intakeComplete s a i then .error popEmpty
    else
      let g := iGroup s i
      let n := emitLines s a w
      .ok (each (List.range n) (fun j s =>
        putPush a (dOf w) (s.clk + 8 + j / 2) s.clk place
          { bareLine (resultLine s o g (fld b 59 48) (fld b 31 0) j) with side := tileSide (resultFormat s g) j n } s) s)

/-- cr.feed at issue: the operands, then the end; the tile's lines are popped one per clk from the issue clk on. -/
def crFeed (a : Nat) (w : Word) (place : Nat) (s : State) : Except Nat State :=
  let b := scalarSrc s a (bOf w)
  let i := fld b 15 0
  let e := aOf w
  if !instOk s a i || !isOpen s a i then .error bound
  else if !popReady s a e s.clk then .error popEmpty
  else match endLines s a e with
    | [] => .error popEmpty
    | l :: _ =>
      if !bit l.side 23 then .error bound
      else
        let n := tileCount l.side
        let op : EngineOp :=
          { kind := .crFeed, t := s.clk, word := w, place := place, sa := 0, sb := b,
            agenda := (List.range n).flatMap fun k => [(s.clk + k, .pop e), (s.clk + k, .act k)],
            taken := [], finish := s.clk + n - 1 }
        .ok (s.setStation a fun x => { x with ops := x.ops ++ [op] })

/-! ### The deadline decision (R283, R285 to R287) -/

/-- The absence count of a live member moves: it counts heat slots, so that a slot in which one instance declares the member absent counts
once, whatever the group's other instances in it say (R262, R287). -/
def moveAbsence (m : Nat) (arrived : Bool) (s : State) : State :=
  s.setMember m fun x =>
    if !arrived then { x with absences := min (x.before + 1) 2, absent := true } else { x with absences := if x.absent then x.absences else 0 }

/-- Ranks of offending contributions stamped by the deadline; one that is still short is late instead (R284, R286). -/
def offenders (s : State) (o : OpenInst) (c i : Nat) (missing : List Nat) : List Nat :=
  let g := iGroup s i
  let taken := (o.got.filter fun e => e.2.bad && onTime s i e.2.stampPour e.2.stampClk && !missing.contains e.1).map fun e => e.2.rank
  taken ++ (liveRanks s g).filter fun r => !missing.contains r && !mLocal s (memberNo s g r) && stampsBad s c i r

/-- Retract an instance: its entry is marked, CR_LAST written (R287, R292, R371, R372). -/
def retractInst (c i causeLedger causeLast rank : Nat) (s : State) : State :=
  let s := s.setCrucible c fun x => { x with last := put i 52 ||| put causeLast 44 ||| put (rank % 4096) 32 ||| put s.job.pour 0 }
  let det := if causeLedger = 7 then 0 else rank
  mark causeLedger det ([i].filter fun e => (openEntries s).contains e) s

/-- MISMATCH to the member of a rank when its contribution was stamped by the deadline: a port member's first packet is answered, wherever
its lines stand (R285). -/
def memberMismatch (c i rank r : Nat) (o : OpenInst) (s : State) : State :=
  let m := memberNo s (iGroup s i) r
  if mLocal s m then
    match tget? o.got r with
    | some x => if onTime s i x.stampPour x.stampClk then memberCompletion c (iGroup s i) x 0x0A rank s else s
    | none => if contribLines s (iGroup s i) r = 0 then s else localCompletion (mStation s m) 0x0A rank s
  else match stampedBy s i r with
    | x :: _ => answer x.hdr (some x.port) c .none 0 0x0A rank s
    | [] => s

/-- LATE to the member of a rank whose contribution has begun, once (R287): a port member's first packet is answered. -/
def memberLate (c i r : Nat) (s : State) : State :=
  match instOf s c i with
  | none => s
  | some o =>
    if o.lateSent.contains r then s
    else if mLocal s (memberNo s (iGroup s i) r) then
      match tget? o.got r with | some x => sendLate c i x s | none => s
    else match stampsOf s i r with
      | x :: _ => answer x.hdr (some x.port) c .none 0 0x0B (x.pour % 2 ^ 32) (countLate c i r s)
      | [] => s

/-- A contribution that comes after its instance's decision is answered as its packet arrives (R287). -/
def lateArrival (p : Nat) (h : BitVec 256) (s : State) : State :=
  let i := hInst h
  let c := iCrucible s i
  match if iValid s i && gValid s (iGroup s i) then instOf s c i else none with
  | none => s
  | some o =>
    if !o.decided then s
    else
      let g := iGroup s i
      let mine := o.missed.filter fun r =>
        !mLocal s (memberNo s g r) && mPort s (memberNo s g r) == swapPort s p && (!sharesPort s g r || r == hAddr h / 16 % 2 ^ 20)
      each mine (memberLate c i) s

/-- WINDOW to every member that contributed (R283). -/
def sendCapacity (c g i : Nat) (o : OpenInst) (s : State) : State :=
  let det := match smallestCapacity s i with | some c => min c.2 0xFFFFFFFF | none => 0
  each (o.got.filter fun e => decide (e.1 < gMembers s g)) (fun e s => memberCompletion c g e.2 0x03 det s) s

/-- A COUNTX instance whose decision let it proceed is judged on its totals once its intake is complete (R283). -/
def settleCount (c i : Nat) (s : State) : State :=
  match instOf s c i with
  | none => s
  | some o =>
    if gOp s (iGroup s i) == 11 && o.decided && !o.retracted && !o.exceeded && intakeComplete s c i then
      match (overflowing s o i).min? with
      | some r => sendCapacity c (iGroup s i) i o (retractInst c i 0x07 0x03 r (setInst c i (fun o => { o with exceeded := true }) s))
      | none => s
    else s

/-- The decision on an instance (R287). -/
def decideInst (c i : Nat) (o : OpenInst) (s : State) : State :=
  let g := iGroup s i
  let live := liveRanks s g
  let missing := live.filter fun r => !arrivedBy s o c i r
  let bad := offenders s o c i missing
  let s := setInst c i (fun o => { o with decided := true, missed := missing, retracted := !bad.isEmpty || !missing.isEmpty }) s
  let s := each live (fun r s => moveAbsence (memberNo s g r) (!missing.contains r) s) s
  let s := each missing (memberLate c i) s
  match bad.min?, missing.min? with
  | some r, _ =>
    each (ranks s g) (fun q s => if missing.contains q then s else memberMismatch c i r q o s)
      (retractInst c i 0x05 0x0A r (s.setCrucible c fun x => { x with mismatches := satAdd 16 x.mismatches 1 }))
  | none, some r => retractInst c i 0x06 0x0B r (s.setCrucible c fun x => { x with absences := satAdd 16 x.absences 1 })
  | none, none => settleCount c i s

/-- DEADLINE_DECISION (R57, R286): at D + 72, for an instance that was opened. -/
def deadlineDecision (i : Nat) (s : State) : State :=
  let c := iCrucible s i
  match instOf s c i with
  | none => s
  | some o => if s.running && !o.decided && decide (deadline s i + 72 ≤ s.slotNow) then decideInst c i o s else s

/-! ### Taking lines -/

/-- What a line of a group costs the Crucible, in 1/128 clk (R259): 128 elements a clk in arrival order, 32 in a ranked or prefix sum of
elements, two lines a clk at most. -/
def lineCost (s : State) (g : Nat) : Nat :=
  let n := elemsPerLine (gType s g)
  match gOp s g with
  | 1 => if gRanked s g && !gLong s g then 4 * n else max 64 n
  | 12 => 4 * n
  | 2 | 3 | 5 | 6 | 7 => max 64 n
  | _ => 64

/-- The Crucible can take a line of a group in this clk: the first 1/128 clks of its work lie within the clk. -/
def rateAllows (s : State) (c g : Nat) : Bool :=
  decide (max (s.crucible c).work (128 * s.clk) + min (lineCost s g) 128 ≤ 128 * (s.clk + 1))

/-- A line is taken: its work is added. -/
def addWork (c g : Nat) (s : State) : State :=
  let cost := lineCost s g
  let now := 128 * s.clk
  s.setCrucible c fun x => { x with work := max x.work now + cost }

/-- Step k of a cr.feed: the line just popped is taken as one of the local member's. -/
def feedStep (a : Nat) (op : EngineOp) (k : Nat) (s : State) : State :=
  let i := fld op.sb 15 0
  let r := fld op.sb 47 32
  let g := iGroup s i
  match op.taken.getLast? with
  | some (some l) =>
    let m : LineMeta := { (l.origin.getD (localMeta s op.t true)) with port := none, hdr := 0 }
    let bad := !(decide (r < gMembers s g) && mLocal s (memberNo s g r))
    let s := if k = 0 then beginTile a i r r (aOf op.word) bad m l.side s else s
    settleCount a i (takeLine a i r l m (addWork a g s))
  | _ => s

/-- The instance and the meta of a port member's line at the head of an end that the Crucible can take: the instance is valid, of this
Crucible, and open. -/
def takeable (s : State) (c e : Nat) : Option (Nat × PortNo × LineMeta × Line) :=
  if !popReady s c e s.clk then none
  else match endLines s c e with
    | [] => none
    | l :: _ =>
      match l.origin with
      | none => none
      | some m =>
        match m.port with
        | none => none
        | some p =>
          let i := hInst m.hdr
          if iValid s i && iCrucible s i == c && gValid s (iGroup s i) && isOpen s c i then some (i, p, m, l) else none

/-- CONTRIB_LINE_TAKE (R259, R279, R284): the Crucible takes the head line of an end when it comes from a port, its instance is open, its
rate allows it and no lower end has a line to take. -/
def takeContribLine (c e : Nat) (s : State) : State :=
  match takeable s c e with
  | none => s
  | some (i, p, m, l) =>
    let g := iGroup s i
    if !rateAllows s c g || (List.range e).any (fun k => (takeable s c k).isSome) then s
    else
      let s := addWork c g (popEnd c e s.clk s)
      let found := rankOfArrival s g p.toNat e
      let key := found.getD (strangerKey p.toNat e)
      let r := found.getD (hAddr m.hdr / 16 % 2 ^ 20)
      let s := if m.head then beginTile c i key r e (found.isNone || keyBad s g r (hAddr m.hdr)) m l.side s else s
      settleCount c i (takeLine c i key l m s)

/-! ### Removed members (R288, R289) -/

/-- The port members of an instance's group on a port. -/
def membersOn (s : State) (i port : Nat) : List Nat :=
  if iValid s i && gValid s (iGroup s i) then
    let g := iGroup s i
    ((ranks s g).map (memberNo s g)).filter fun m => !mLocal s m && mPort s m == swapPort s port
  else []

/-- The removed member of an instance's group on a port. -/
def removedOn (s : State) (i port : Nat) : Option Nat := (membersOn s i port).find? fun m => (s.member m).removed

/-- The member that a CONTRIB comes from: of those on its port the one of its source, or of several the one of its key's rank (R262, R269,
R289). -/
def memberOf (s : State) (port : Nat) (h : BitVec 256) : Option Nat :=
  let all := membersOn s (hInst h) port
  let bySrc := all.filter fun m => mPlane s m == hSrcPlane h && mSrcId s m == hSrc h
  let ms := if bySrc.isEmpty then all else bySrc
  match ms.find? fun m => m == memberNo s (iGroup s (hInst h)) (hAddr h / 16 % 2 ^ 20) with
  | some m => some m
  | none => ms.head?

/-- A CONTRIB of a removed member is discarded and counted: whether it was, and the state. -/
def dropRemoved (port : Nat) (h : BitVec 256) (s : State) : Option State :=
  match (memberOf s port h).filter fun m => (s.member m).removed with
  | some m => some (s.setMember m fun x => { x with dropped := satAdd 16 x.dropped 1 })
  | none => none

/-- An output end on the path of a removed member: it leads from the member's port-ingress station to the member's end of its Crucible. -/
def pathRemoved (s : State) (a e : Nat) : Bool :=
  kindOf a == 8 && (validInsts s).any fun i =>
    iCrucible s i == boundSt s a e &&
    (membersOn s i (swapPort s (16 * bayOf a + indexOf a))).any fun m => (s.member m).removed && mEnd s m == boundEnd s a e

/-- The primary ports of the pairs selected now (R390, R393). -/
def selectedPrimaries (s : State) : List Nat :=
  ((tableRows s 14 0 504 8 (fun w => bit w 63)).filter fun k => bit s.ledger.spareActive k).map fun k => fld (s.cfgw (tbKey 14 (8 * k))) 55 48

/-- Live port members of the groups. -/
def portMembers (s : State) : List Nat :=
  let gs := tableRows s 8 0 0x8000 32 (fun w => bit w 63)
  ((gs.flatMap fun g => (ranks s g).map (memberNo s g)).eraseDups).filter fun m => mLive s m && !mLocal s m

/-- Members to remove: absent twice, or their port went down during the slot (`down`, as the pattern names ports); a member whose port is
the primary of a selected pair is kept (R288, R393). -/
def toRemove (down : List Nat) (s : State) : List Nat :=
  (portMembers s).filter fun m =>
    !(selectedPrimaries s).contains (mPort s m) && (decide (2 ≤ (s.member m).absences) || down.contains (mPort s m))

/-- Members kept by a selected pair: their absence count returns to 0 (R393). -/
def keepSpared (s : State) : State :=
  each ((portMembers s).filter fun m => (selectedPrimaries s).contains (mPort s m)) (fun m s => s.setMember m fun x => { x with absences := 0 }) s

/-- Removal of port members; the port leaves every up_ports (R288, R379). -/
def removeMembers (down : List Nat) (s : State) : State :=
  each (toRemove down s) (fun m s =>
    let p := mPort s m
    let s := s.setMember m fun x => { x with removed := true }
    s.setLedger fun l => { l with upCleared := if l.upCleared.contains p then l.upCleared else l.upCleared ++ [p] }) (keepSpared s)

end Sys2Proof.Machine
end

