-- ==== Sys2Proof/Machine/Link.lean ====
section
/-!
DEFINITION. The link of a port: control words (R139), training (R119 to R122), retry on both sides (R133 to R136), and what a port does when
it leaves UP (R122, R123).
-/

namespace Sys2Proof.Machine

/-! ### Control words (R139) -/

def cwType (w : BitVec 128) : Nat := fld w 115 112
def cwSeq (w : BitVec 128) : Nat := fld w 111 96
def cwData (w : BitVec 128) : Nat := fld w 95 32
/-- Credits the word returns for a VC. -/
def cwCredit (w : BitVec 128) (v : Nat) : Nat := fld w (39 + 8 * v) (32 + 8 * v)

/-- A control word of a type with its seq and credits fields, reserved bits zero and its check in place. -/
def mkCw (ctype seq credits : Nat) : BitVec 128 :=
  let body := 0xC5F * 2 ^ 116 + ctype % 16 * 2 ^ 112 + seq % 2 ^ 16 * 2 ^ 96 + credits % 2 ^ 64 * 2 ^ 32
  BitVec.ofNat 128 (body + (crc16 (beBytes 14 (body / 2 ^ 16))).toNat)

/-- Marker and check are right. -/
def cwValid (w : BitVec 128) : Bool :=
  fld w 127 116 == 0xC5F && fld w 15 0 == (crc16 (beBytes 14 (w.toNat / 2 ^ 16))).toNat

/-- The credits a port returns in its next control word, at most 255 for a VC (R131). -/
def creditField (x : Port) : Nat := ([0, 1, 4, 5, 6, 7].map fun v => min 255 (tget 0 x.giving v) * 2 ^ (8 * v)).sum

/-- Send a control word other than TRAIN on a port with the credits due. -/
def sendCw (p ctype seq : Nat) (s : State) : State :=
  let x := s.port p
  let s := s.setPort p fun x =>
    { x with giving := (x.giving.map fun e => (e.1, e.2 - 255)).filter (fun e => e.2 != 0), cwClk := s.clk }
  s.emit (.control (BitVec.ofNat 8 p) (mkCw ctype seq (creditField x)))

/-- Send a TRAIN word: step and data (R120). -/
def sendTrain (p step data : Nat) (s : State) : State := s.emit (.control (BitVec.ofNat 8 p) (mkCw 5 step data))

/-! ### Leaving UP -/

/-- Failure reason of a training step (R119); step 5 fails with WIDTH unless the keys differ. -/
def stepReason (n : Nat) : Nat := if n = 7 then 0x0A else if n = 6 then 7 else n

/-- The discarded replay buffer is answered with LINK_DOWN (R122). -/
def answerReplay (p : Nat) (q : List Packet) (s : State) : State :=
  each q (fun k s =>
    refusePacket
      { pkt := k, owner := .none, cells := 0, ring := 0, since := s.clk, targets := [], reserved := [], src := egressSt p } 0x08 p s) s

/-- A change of the packet of a queued packet. -/
def finishQ (f : Packet → Packet) (q : QPkt) : QPkt := { q with pkt := f q.pkt }

/-- Apply a change to every packet held anywhere in the module. -/
def mapPackets (f : Packet → Packet) (s : State) : State :=
  let g := List.map (finishQ f)
  { s with
    ports := s.ports.map fun e => (e.1, { e.2 with
      inbox := g e.2.inbox, transit := g e.2.transit, egress := e.2.egress.map (fun t => (t.1, g t.2)),
      scheduled := g e.2.scheduled, mcastBuf := g e.2.mcastBuf, replayQ := e.2.replayQ.map f,
      held := e.2.held.map fun t => (t.1, t.2.map fun h => (finishQ f h.1, h.2)) })
    fab := { s.fab with
      mcast := s.fab.mcast.map (fun t => (t.1, g t.2))
      stops := s.fab.stops.map (fun t => (t.1, { t.2 with
        transit := t.2.transit.map fun r => { r with q := finishQ f r.q }, waiting := g t.2.waiting }))
      xbar := s.fab.xbar.map (fun t => (t.1, { t.2 with waiting := t.2.waiting.map fun c => { c with q := finishQ f c.q } }))
      landings := s.fab.landings.map fun l => { l with q := finishQ f l.q } } }

/-! ### Line encryption (R143) -/

/-- The session key a port sends under, and the one it receives under. -/
def txKey (x : Port) : Option (BitVec 128) := x.session.map (·.1)
def rxKey (x : Port) : Option (BitVec 128) := x.session.map (·.2)

/-- The keystream of packet n: block j is the cipher of 0 ‖ n ‖ j. -/
def keystream (k : BitVec 128) (n len : Nat) : List Byte :=
  ((List.range ((len + 15) / 16)).flatMap fun j => beBytes 16 (sm4 k (BitVec.ofNat 128 (n % 2 ^ 118 * 2 ^ 9 + j % 512))).toNat).take len

/-- Bytes XOR a keystream. -/
def mixBytes (bs ks : List Byte) : List Byte := List.zipWith (· ^^^ ·) bs ks

/-- The header of packet n on the line, from its plaintext, and back. -/
def cipherHeader (key : Option (BitVec 128)) (n : Nat) (h : BitVec 256) : BitVec 256 :=
  match key with
  | none => h
  | some k => h ^^^ BitVec.ofNat 256 (beNat (keystream k n 32))

/-- Its payload on the line, and back. -/
def cipherPayload (key : Option (BitVec 128)) (n : Nat) (bs : List Byte) : List Byte :=
  match key with
  | none => bs
  | some k => mixBytes bs ((keystream k n (32 + bs.length)).drop 32)

/-- Its trailer on the line, after a payload of some bytes, and back. -/
def cipherTrailer (key : Option (BitVec 128)) (n len : Nat) (t : Word) : Word :=
  match key with
  | none => t
  | some k => t ^^^ BitVec.ofNat 64 (beNat ((keystream k n (40 + len)).drop (32 + len)))

/-- The session count of the packet with a link_seq that a port has sent. -/
def countOf (x : Port) (seq : Nat) : Nat := x.txCount - (x.txSeq + 65536 - seq % 65536) % 65536

/-- The counts a received packet can have: the expected one's, then those of the packets that can be unacknowledged before and after it
(R133). -/
def rxCounts (x : Port) : List Nat := x.rxCount :: (List.range 32767).flatMap fun d => [x.rxCount + (d + 1), x.rxCount - (d + 1)]

/-- A received header in plaintext, with its count: the count whose header passes its check and bears the count's low bits as link_seq, or
the expected one (DEDUCED, log entry 49). -/
def readHeader (x : Port) (line : BitVec 256) : BitVec 256 × Nat :=
  let good (n : Nat) : Bool :=
    let h := cipherHeader (rxKey x) n line
    hCrc h == headerCrc h && hSeq h == n % 65536
  let n := if (rxKey x).isNone then x.rxCount else ((rxCounts x).find? good).getD x.rxCount
  (cipherHeader (rxKey x) n line, n)

/-! ### Copies that leave before their trailer has come (R140, R153) -/

/-- Flip bit i of a list of bytes: byte i/8, bit i mod 8 from its least significant (DESIGN CHOICE, log entry 68). -/
def flipByteBit (i : Nat) (bs : List Byte) : List Byte :=
  bs.mapIdx fun j b => if j = i / 8 then b ^^^ BitVec.ofNat 8 (2 ^ (i % 8)) else b

/-- Flip the drawn bit of the selected part of a packet (R152). -/
def corruptPart (sel v : Nat) (k : Packet) : Packet :=
  if sel = 1 then { k with hdr := k.hdr ^^^ BitVec.ofNat 256 (2 ^ (v / 2 ^ 32 % 256)) }
  else if sel = 2 then { k with trailer := k.trailer ^^^ BitVec.ofNat 64 (2 ^ (v / 2 ^ 32 % 64)) }
  else { k with payload := flipByteBit (v / 2 ^ 32 % (8 * payloadLen k.hdr)) k.payload }

/-- A packet whose payload has come, with the trailer of its bytes: stomped when the incoming one failed (R140). -/
def completed (payload : List Byte) (stomped : Bool) (k : Packet) : Packet :=
  let pay := (k.payload ++ payload).take 4096
  let good := trailerOf k.hdr pay
  { k with payload := pay, trailer := if stomped then good ^^^ BitVec.allOnes 64 else good, stomped := stomped, complete := true }

/-- What an injection at packet stage makes of a copy that is leaving, before its checks are computed (R153). -/
def injectCut (c : CutCopy) (payload : List Byte) (h : BitVec 256) : List Byte :=
  if c.act = 2 && !c.link && c.sel != 1 && c.sel != 2 then flipByteBit (c.draw / 2 ^ 32 % (8 * payloadLen h)) payload else payload

/-- The rest of a copy that is leaving goes out, unless a link-stage injection drops it. -/
def sendRest (p : Nat) (c : CutCopy) (k : Packet) (s : State) : State :=
  if c.link && c.act == 1 then s
  else
    let x := s.port p
    let n := countOf x (hSeq k.hdr)
    let k := if c.link && c.act == 2 && c.sel != 1 then corruptPart c.sel c.draw k else k
    s.emit (.packetEnd (BitVec.ofNat 8 p) c.ident (cipherPayload (txKey x) n k.payload) (cipherTrailer (txKey x) n k.payload.length k.trailer))

/-- The copy that is leaving a port ends, when it is of this packet. -/
def endCut (p ident : Nat) (payload : List Byte) (stomped : Bool) (s : State) : State :=
  match (s.port p).cut with
  | none => s
  | some c =>
    if c.ident ≠ ident then s
    else
      let full (k : Packet) : Packet := completed (injectCut c payload k.hdr) stomped k
      let mine (k : Packet) : Bool := k.ident == ident && !k.complete
      let s := match (s.port p).replayQ.find? mine with
        | some k => sendRest p c (full k) s
        | none => s
      s.setPort p fun x => { x with cut := none, replayQ := x.replayQ.map fun k => if mine k then full k else k }

/-- The copies of a cut-through packet end: those already leaving send their end, those still in queues are whole now (R140). -/
def finishCopies (ident : Nat) (payload : List Byte) (stomped : Bool) (s : State) : State :=
  mapPackets (fun k => if k.ident = ident && !k.complete then completed payload stomped k else k)
    (each (s.ports.map (·.1)) (fun p s => endCut p ident payload stomped s) s)

/-- A stamp of a contribution whose packet comes to nothing is taken out. -/
def dropStamp (ident : Nat) (s : State) : State := s.setFab fun f => { f with stamped := f.stamped.filter fun c => c.ident != ident }

/-- Lines that went to a station before their trailer turn out wrong: what the pour made of them is marked (R141). -/
def markEarly (r : RxPacket) (s : State) : State := if r.early then mark 0x03 0 (openEntries s) s else s

/-- A packet whose reception breaks off: nothing of it is kept, and copies already forwarded end stomped, zero bytes in place of what has
not come. -/
def dropRx (p : Nat) (s : State) : State :=
  match (s.port p).rx with
  | none => s
  | some r =>
    let s := markEarly r (dropStamp r.ident (s.setPort p fun x => { x with rx := none }))
    if r.forwarded then finishCopies r.ident (List.replicate (payloadLen r.hdr) 0) true s else s

/-- A port goes DOWN with a reason: its replay buffer is discarded and answered (R122). link_seq and the expected sequence start again at 0:
the manual gives neither a value then (DESIGN CHOICE, log entry 69). -/
def goDown (p reason : Nat) (s : State) : State :=
  let q := (s.port p).replayQ
  let s := dropRx p s
  let s := s.setPort p fun x =>
    { x with state := .down, downReason := reason, step := 0, handshake := 0, carrying := false, replayQ := [], replaying := none,
             txSeq := 0, rxSeq := 0, waitReplay := false, nakCount := 0, nakDue := false, cut := none, escaped := false, cleared := false,
             downClk := s.clk }
  answerReplay p q (poolPop (replayKey p) ((q.map fun k => cellsOf k.hdr).sum) s)

/-- An UP port enters RETRAIN: a link-down event and a re-training (R122, R123). -/
def enterRetrain (p reason : Nat) (s : State) : State :=
  if (s.port p).state = .up then
    let s := dropRx p s
    let s := s.setPort p fun x =>
      { x with state := .retrain, downReason := reason, step := 1, handshake := 0, retrainClk := s.clk, carrying := false,
               replaying := none, waitReplay := false, nakDue := false, cut := none, escaped := false, cleared := false, session := none, nonces := none }
    let s := bumpPort p 9 1 (s.setPwr fun w => { w with retrainClks := s.clk :: w.retrainClks })
    linkDown p s
  else s

/-! ### Training (R119 to R122) -/

/-- The port trains now: lanes lit, TRAINING or RETRAIN. -/
def trains (s : State) (p : Nat) : Bool :=
  s.lit && ((s.port p).state == .training || (s.port p).state == .retrain)

/-- A training step fails: retried from step 1 at once while LINK lasts, DOWN afterwards (R119). -/
def trainFail (p reason : Nat) (s : State) : State :=
  if s.boot.phase = .link then s.setPort p fun x => { x with step := 1, handshake := 0, downReason := reason }
  else goDown p reason s

/-- Training begins from step 1, with the key set held since LINK began (R109, R119, R142). -/
def startTraining (p : Nat) (s : State) : State :=
  s.setPort p fun x =>
    { x with state := .training, step := 1, handshake := 0, keyset := s.boot.linkKeyset, session := none, nonces := none }

/-- A step's end moves the port to the next step when it is the step under way. -/
def afterStep (p n : Nat) (f : State → State) (s : State) : State :=
  if trains s p && (s.port p).step == n then f s else s

/-- LIGHT_DETECTED (R119, step 1). -/
def execLightDetected (port : PortNo) (s : State) : Out :=
  let p := port.toNat
  .next (afterStep p 1 (fun s => s.setPort p fun x => { x with step := 2 }) s)

/-- EQUALIZE_DONE (R119, step 2). -/
def execEqualizeDone (port : PortNo) (s : State) : Out :=
  let p := port.toNat
  .next (afterStep p 2 (fun s => s.setPort p fun x => { x with step := 3 }) s)

/-- ALIGN_DONE (R117, R119, step 3): skew above 40 ns fails alignment. -/
def execAlignDone (port : PortNo) (skewNs : Nat) (s : State) : Out :=
  let p := port.toNat
  .next (afterStep p 3 (fun s => if skewNs ≤ 40 then s.setPort p fun x => { x with step := 4 } else trainFail p 3 s) s)

/-- The check value of a key set: bits [127:96] of the encryption of the zero block (R120). -/
def keyCheck (set : Nat) : Nat := fld (sm4 (Config.linkKey set) 0) 127 96

/-- The nonce that the module's generator draws for a port: free, for each clk and port on its own (R120; log entry 4). -/
def drawnNonce (s : State) (p : Nat) : Word := Config.freeWord s.clk (0x4000000000 + p)

/-- FEC_LOCK (R119, step 4): the module sends its WIDTH, KEY and NONCE words (R120). -/
def execFecLock (port : PortNo) (s : State) : Out :=
  let p := port.toNat
  let own := drawnNonce s p
  .next (afterStep p 4 (fun s =>
    let s := s.setPort p fun x => { x with step := 5, handshake := 0, nonces := some (own, 0) }
    sendTrain p 3 own.toNat
      (sendTrain p 2 ((s.port p).keyset * 2 ^ 62 + keyCheck (s.port p).keyset)
        (sendTrain p 1 (s.portWidth p * 2 ^ 60 + p * 2 ^ 52 + s.moduleId * 2 ^ 32) s))) s)

/-- The value of a port's ECHO word: free, for each clk and port on its own (R120; log entry 4). -/
def echoValue (s : State) (p : Nat) : Nat := fld (Config.freeWord s.clk (0x5000000000 + p)) 31 0

/-- A part of step 5 is done; with all three the module sends its ECHO word (step 6). -/
def handshakeDone (p : Nat) (b : BitVec 3) (s : State) : State :=
  let s := s.setPort p fun x => { x with handshake := x.handshake ||| b }
  if (s.port p).handshake = 7 then
    sendTrain p 4 (echoValue s p * 2 ^ 32) (s.setPort p fun x => { x with step := 6 })
  else s

/-- The port stands at a packet boundary of what it sends (R118). -/
def atBoundary (s : State) (p : Nat) : Bool := decide ((s.port p).busyUntil ≤ s.clk) && (s.port p).cut.isNone

/-- NAK(expected) goes out. -/
def nakNow (p : Nat) (s : State) : State :=
  bumpPort p 6 1 (sendCw p 1 (s.port p).rxSeq (s.setPort p fun x => { x with nakClk := s.clk, nakDue := false }))

/-- An error makes a NAK, sent at the next packet boundary (R118, R134); the fifth for one link_seq makes a retrain (R136). -/
def sendNak (p : Nat) (s : State) : State :=
  if 4 ≤ (s.port p).nakCount then enterRetrain p 0x08 s
  else
    let s := s.setPort p fun x => { x with nakCount := x.nakCount + 1, waitReplay := true }
    if atBoundary s p then nakNow p s else s.setPort p fun x => { x with nakDue := true }

/-- An error in NORMAL: NAK(expected) and WAIT_REPLAY (R134); the packet under reception is lost. -/
def linkError (p : Nat) (s : State) : State :=
  if (s.port p).waitReplay then s else sendNak p (dropRx p s)

/-- A control word that breaks the protocol (R122). -/
def protocolError (p : Nat) (s : State) : State := enterRetrain p 0x0A s

/-- A TRAIN word arrives: on a port that trains it is taken, on an UP port it breaks the protocol (R120, R122). -/
def onTrain (s : State) (port : PortNo) (cw : BitVec 128) (code : Nat) (f : State → State) : Out :=
  let p := port.toNat
  .next (if !s.lit || !cwValid cw || cwType cw != 5 || cwSeq cw != code then s
    else if trains s p then f s
    else if (s.port p).state = .up && !(s.port p).waitReplay && (s.port p).rx.isNone && !(s.port p).escaped then protocolError p s
    else s)

/-- WIDTH (R120): the widths of the two ends are compared. -/
def execWidth (port : PortNo) (cw : BitVec 128) (s : State) : Out :=
  let p := port.toNat
  onTrain s port cw 1 (afterStep p 5 fun s =>
    if fld cw 95 92 = s.portWidth p then handshakeDone p 1 s else trainFail p 5 s)

/-- KEY (R120, R142): set index and check value are compared. -/
def execKey (port : PortNo) (cw : BitVec 128) (s : State) : Out :=
  let p := port.toNat
  onTrain s port cw 2 (afterStep p 5 fun s =>
    let k := (s.port p).keyset
    if fld cw 95 94 = k && fld cw 63 32 = keyCheck k then handshakeDone p 2 s else trainFail p 6 s)

/-- The session keys from the two nonces (R143). -/
def sessionKeys (set : Nat) (own peer : Word) : BitVec 128 × BitVec 128 :=
  (sm4 (Config.linkKey set) (own ++ peer), sm4 (Config.linkKey set) (peer ++ own))

/-- link_seq of the oldest packet not yet acknowledged. -/
def oldestSeq (x : Port) : Nat := match x.replayQ with | [] => x.txSeq | k :: _ => hSeq k.hdr

/-- NONCE (R120, R143): both keys are derived from the module's own nonce and the peer's, and a new session begins. Its count starts at the
link_seq of the oldest packet not yet acknowledged, since its low bits equal link_seq. `own` is the nonce that the module sent: a row that names
another is no event of this training (log entry 1). -/
def execNonce (port : PortNo) (cw : BitVec 128) (own : Word) (s : State) : Out :=
  let p := port.toNat
  onTrain s port cw 3 (afterStep p 5 fun s =>
    let peer := BitVec.ofNat 64 (cwData cw)
    if (s.port p).nonces.map (·.1) = some own then
      handshakeDone p 4 (s.setPort p fun x =>
        { x with nonces := some (own, peer), session := some (sessionKeys x.keyset own peer),
                 txCount := oldestSeq x + x.replayQ.length, rxCount := x.rxSeq })
    else s)

/-- The CREDIT words a port sends: the room each credited VC has now (R120, R129); what was still to return is in it. -/
def sendCredits (p : Nat) (s : State) : State :=
  let s := s.setPort p fun x => { x with giving := [] }
  each [0, 1, 4, 5, 6, 7] (fun v s =>
    let x := s.port p
    let room := grantOf s p v - tget 0 x.used v - tget 0 x.owed v
    sendTrain p 5 (v * 2 ^ 61 + room % 2 ^ 16 * 2 ^ 45) s) s

/-- ECHO (R120, R121): a word of the peer is returned unchanged; the module's own, back after a net round trip, gives the length. -/
def execEcho (port : PortNo) (cw : BitVec 128) (netRoundTrip : Option Nat) (s : State) : Out :=
  let p := port.toNat
  onTrain s port cw 4 fun s =>
    match netRoundTrip with
    | none => if 5 ≤ (s.port p).step then s.emit (.control port cw) else s
    | some r => afterStep p 6 (fun s =>
        let m := (r + 17) / 18
        if m ≤ fld (s.portCfg p) 42 32 then
          sendTrain p 6 0 (sendCredits p (s.setPort p fun x => { x with step := 7, measNew := m, credits := [] }))
        else trainFail p 7 s) s

/-- CREDIT (R120, R130): the initial count of a VC. -/
def execCredit (port : PortNo) (cw : BitVec 128) (s : State) : Out :=
  let p := port.toNat
  onTrain s port cw 5 (afterStep p 7 fun s =>
    let v := fld cw 95 93
    s.setPort p fun x => { x with credits := tset x.credits v (fld cw 92 77) })

/-- The port becomes UP (R119, R122): it carries traffic at once before RUN, from the next boundary in RUN; unacknowledged packets are
replayed from the oldest. -/
def portReady (p : Nat) (s : State) : State :=
  s.setPort p fun x =>
    { x with state := .up, step := 0, handshake := 0, measM := min x.measNew 0x7FF, carrying := !s.running, waitReplay := false,
             nakCount := 0, ackClk := s.clk, cwClk := s.clk,
             replaying := if x.replayQ.isEmpty then none else some (oldestSeq x, true) }

/-- READY (R119, R120). -/
def execReady (port : PortNo) (cw : BitVec 128) (s : State) : Out :=
  onTrain s port cw 6 (afterStep port.toNat 7 (portReady port.toNat))

/-- TRAINING_STEP_FAIL (R119). -/
def execTrainingStepFail (port : PortNo) (s : State) : Out :=
  let p := port.toNat
  .next (if trains s p && (s.port p).step != 0 then trainFail p (stepReason (s.port p).step) s else s)

/-- LOSS_OF_LIGHT (R122). -/
def execLossOfLight (port : PortNo) (s : State) : Out :=
  .next (if s.portUp port.toNat then enterRetrain port.toNat 0x01 s else s)

/-- UNCORRECTABLE_LIMIT (R122): more than 64 uncorrectable codewords within 1 ms. Those that came outside any packet no trailer has
counted (R150), and in NORMAL one is an error (R134). The manual gives the retrain no reason code: the model records FEC_LOCK, 0x04
(DESIGN CHOICE, log entry 70). -/
def execUncorrectableLimit (port : PortNo) (codewords : Codewords) (s : State) : Out :=
  let p := port.toNat
  .next (if !s.portUp p then s
    else
      let s := bumpPort p 2 codewords.outside s
      if 64 < codewords.count then enterRetrain p 0x04 s else if 0 < codewords.outside then linkError p s else s)

/-- RETRAIN_TIMEOUT (R122): 50 ms without completing; DOWN with the reason of the step under way. -/
def execRetrainTimeout (port : PortNo) (s : State) : Out :=
  let p := port.toNat
  let x := s.port p
  .next (if s.lit && x.state == .retrain && decide (x.retrainClk + 90000000 ≤ s.clk) then goDown p (stepReason x.step) s else s)

/-- DOWN_RETRY (R119): 100 ms after it went DOWN a port begins again from step 1. -/
def execDownRetry (port : PortNo) (s : State) : Out :=
  let p := port.toNat
  .next (if s.lit && s.portEnabled p && (s.port p).state == .down && decide ((s.port p).downClk + 180000000 ≤ s.clk)
    then startTraining p s else s)

/-! ### Control words on an UP port (R131, R134 to R139) -/

/-- a is at or before b in modulo-2^16 order. -/
def seqLe (a b : Nat) : Bool := decide ((b + 65536 - a % 65536) % 65536 < 32768)

/-- The credits of a control word reach the sender; a count above 65,535 breaks the protocol (R122, R131). -/
def takeCredits (p : Nat) (cw : BitVec 128) (s : State) : State :=
  let x := s.port p
  let vs := [0, 1, 4, 5, 6, 7]
  if vs.any fun v => decide (65535 < tget 0 x.credits v + cwCredit cw v) then protocolError p s
  else s.setPort p fun x => { x with credits := vs.foldl (fun m v => tmod 0 m v (· + cwCredit cw v)) x.credits }

/-- A control word arrives at a packet boundary of an UP port: its credits and its effect; in WAIT_REPLAY only `always` acts (R134). A
unit that is no control word is a framing error. -/
def onCw (s : State) (port : PortNo) (cw : BitVec 128) (ctype : Nat) (always : Bool) (f : State → State) : Out :=
  let p := port.toNat
  let x := s.port p
  .next (if !s.portUp p || x.escaped || x.rx.isSome then s
    else if x.waitReplay && !always then s
    else if !cwValid cw then linkError p s
    else if cwType cw ≠ ctype then s
    else
      let s := takeCredits p cw s
      if s.portUp p then f s else s)

/-- ACK (R131, R133): packets it covers leave the replay queue; a replay in progress goes on from the oldest still there. -/
def takeAck (p seq : Nat) (s : State) : State :=
  let x := s.port p
  let q := x.replayQ.filter fun k => !seqLe (hSeq k.hdr) seq
  if q.length = x.replayQ.length then s
  else
    let gone := (x.replayQ.filter fun k => seqLe (hSeq k.hdr) seq).map fun k =>
      ({ pkt := k, owner := .none, cells := cellsOf k.hdr, ring := 0, since := s.clk, targets := [], reserved := [] } : QPkt)
    (each gone (leaveQueue (replayKey p)) s).setPort p fun x =>
    let x := { x with replayQ := q, ackClk := s.clk }
    { x with replaying := match x.replaying with
        | none => none
        | some (n, w) => if w then some (n, w) else if q.isEmpty then none
            else if seqLe n seq then some (oldestSeq x, false) else some (n, false) }

/-- ACK (R131, R139). -/
def execAck (port : PortNo) (cw : BitVec 128) (s : State) : Out := onCw s port cw 0 false (takeAck port.toNat (cwSeq cw))

/-- NAK(s) at the sender (R135). -/
def takeNak (p seq : Nat) (s : State) : State :=
  let s := bumpPort p 7 1 s
  let x := s.port p
  let known := seqLe (oldestSeq x) seq && seqLe seq x.txSeq
  match x.replaying with
  | some (n, _) => if known && seqLe seq n && seq != n then s.setPort p fun x => { x with replaying := some (seq, true) } else s
  | none => if known then s.setPort p fun x => { x with replaying := some (seq, true) } else s

/-- NAK (R135). -/
def execNak (port : PortNo) (cw : BitVec 128) (s : State) : Out := onCw s port cw 1 false (takeNak port.toNat (cwSeq cw))

/-- REPLAY (R134): with the expected sequence the receiver returns to NORMAL. The first of a session tells at which link_seq the sender's
count began (R143). -/
def execReplay (port : PortNo) (cw : BitVec 128) (s : State) : Out :=
  let p := port.toNat
  let x := s.port p
  if x.waitReplay && !(cwValid cw && cwSeq cw == x.rxSeq) then .next s
  else onCw s port cw 2 true fun s => s.setPort p fun x =>
    { x with waitReplay := false, nakDue := false,
             rxCount := if x.rxCount = x.rxSeq then cwSeq cw + (x.rxSeq + 65536 - cwSeq cw) % 65536 else x.rxCount }

/-- CW_CLEAR (R144): the packet that follows is a PTP packet. -/
def execCwClear (port : PortNo) (cw : BitVec 128) (s : State) : Out :=
  onCw s port cw 3 false fun s => s.setPort port.toNat fun x => { x with cleared := true }

/-- ESCAPE (R138): the next 16 bytes are the start of a packet. -/
def execEscape (port : PortNo) (cw : BitVec 128) (s : State) : Out :=
  onCw s port cw 4 false fun s => s.setPort port.toNat fun x => { x with escaped := true }

/-- RESERVED_CTYPE (R139): a protocol error under R122. -/
def execReservedCtype (port : PortNo) (cw : BitVec 128) (s : State) : Out :=
  let p := port.toNat
  let x := s.port p
  .next (if s.portUp p && !x.escaped && x.rx.isNone && !x.waitReplay && cwValid cw && decide (5 < cwType cw) then protocolError p s else s)

/-- Lmax of R137: the longest declared fibre of an enabled port. -/
def longestFibre (s : State) : Nat :=
  ((List.range 256).filter s.portEnabled).foldl (fun m p => max m (fld (s.portCfg p) 42 32)) 0

/-- B(w) of R137 for a port width. -/
def replayBound (s : State) (w : Nat) : Nat := 200 + 3 * (if w = 8 then 62 else 124) + 18 * longestFibre s

/-- NAK_RESEND (R134): no REPLAY within 2·B(w) of the NAK. -/
def execNakResend (port : PortNo) (s : State) : Out :=
  let p := port.toNat
  let x := s.port p
  .next (if s.portUp p && x.waitReplay && !x.nakDue && decide (x.nakClk + 2 * replayBound s (s.portWidth p) ≤ s.clk) then sendNak p s else s)

/-- ACK_TIMEOUT (R136): the oldest unacknowledged packet has not advanced for 100 µs. -/
def execAckTimeout (port : PortNo) (s : State) : Out :=
  let p := port.toNat
  let x := s.port p
  .next (if s.portUp p && !x.replayQ.isEmpty && decide (x.ackClk + 180000 ≤ s.clk) then enterRetrain p 0x09 s else s)

end Sys2Proof.Machine
end

