-- ==== Sys2Proof/Machine/Packets.lean ====
section
/-!
DEFINITION. Parts of a packet's reception: checks on the header (R126, R127), policing (R198), the packet a port builds, its lines (R205).
-/

namespace Sys2Proof.Machine

/-! ### Checks on the header -/

/-- The class and the length are allowed for the type (R126). -/
def typeAllowed (h : BitVec 256) : Bool :=
  let c := hCls h
  match hType h with
  | 0 => c != 1
  | 1 => decide (2 ≤ c) && decide (c ≤ 5) && hLen h == 0
  | 2 => decide (2 ≤ c) && decide (c ≤ 5)
  | 3 => (c == 4 || c == 5) && hLen h == 0
  | 4 => c == 0 && (hLen h == 2 || hLen h == 3)
  | 5 => c == 1
  | 6 => c == 2
  | _ => false

/-- Classes 2 and 3 follow the pattern's path (R162). -/
def scheduledClass (h : BitVec 256) : Bool := hCls h == 2 || hCls h == 3

/-- A request for this module's memory or stations, whose address is checked where it is delivered (R127, R355). -/
def checkedAtDelivery (s : State) (h : BitVec 256) : Bool :=
  addressedHere s h && !scheduledClass h && (hType h == 0 || hType h == 1 || hType h == 2) || hType h == 3 || hType h == 4

/-- Why a packet is discarded whole on receipt (R126, R127, R431): status and detail. -/
def headerBad (s : State) (p : Nat) (h : BitVec 256) : Option (Nat × Nat) :=
  if portFlask s p ≠ 0 && portFlask s p != hFlask h then some (0x05, portFlask s p)
  else if hVer h ≠ 1 || !typeAllowed h then some (0x06, fld h 255 240)
  else if hAddr h % 16 ≠ 0 && !checkedAtDelivery s h then some (0x04, 0)
  else none

/-- TC_CFG of a port (R191, R391). -/
def tcCfg (s : State) (p : Nat) : Word := s.cfgw (ptKey (swapPort s p) 0x200)

/-- Counted length of a packet at a port (R190). -/
def countedLen (s : State) (p : Nat) (h : BitVec 256) : Nat := 32 + payloadLen h + fld (tcCfg s p) 5 0

/-- The port's lines are used as they arrive (R141, R391). -/
def earlyUse (s : State) (p : Nat) : Bool := bit (s.portCfg (swapPort s p)) 3

/-! ### Policing (R198 to R200) -/

/-- Number of the policer of a flask and class. -/
def policerNo (f c : Nat) : Nat := 8 * f + c

/-- POL_CFG of a policer (R200). -/
def polCfg (s : State) (k : Nat) : Word := s.cfgw (tbKey 7 (32 * k))

/-- A packet is policed: whether it is dropped, and the state after its tokens or its dross count. Policers act in RUN; one whose faulty
settings wait for their reload does not act (R424). -/
def police (p : Nat) (h : BitVec 256) (s : State) : Bool × State :=
  let k := policerNo (portFlask s p) (hCls h)
  if !s.running || !bit (polCfg s k) 63 || hCls h == 2 || hCls h == 3 then (false, s)
  else
    let (faulty, s) := useWord (tbKey 7 (32 * k)) s
    if faulty then (false, s)
    else
    let l := countedLen s p h
    if 1024 * l ≤ (s.policer k).tokens then (false, s.setPolicer k fun x => { x with tokens := x.tokens - 1024 * l })
    else (true, s.setPolicer k fun x => { x with packets := satAdd 48 x.packets 1, bytes := satAdd 48 x.bytes l })

/-! ### The packet a port builds -/

/-- The packet a reception builds. -/
def rxPacket (p : Nat) (r : RxPacket) (payload : List Byte) (trailer : Word) (stomped complete : Bool) : Packet :=
  { hdr := r.hdr, payload := payload, trailer := trailer, stampPour := r.stampPour, stampClk := r.stampClk,
    inPort := some (BitVec.ofNat 8 p), stomped := stomped, complete := complete, ident := r.ident, inClk := r.inClk, stampHeat := r.stampHeat }

/-- The clk in which a packet's last byte has passed its port's timestamp point, or now. -/
def endClk (s : State) (p : Nat) (k : Packet) : Nat := max s.clk (k.inClk + receiveClk (s.portWidth p) (40 + payloadLen k.hdr))

/-- It as a queued packet, charged to its port and class (R180), at its port's crossbar input. -/
def rxQ (p : Nat) (k : Packet) (s : State) : QPkt :=
  { pkt := k, owner := .port (BitVec.ofNat 8 p) (hCls k.hdr), cells := cellsOf k.hdr, ring := 0, since := endClk s p k, targets := [],
    reserved := [], src := ingressSt p }

/-- The packet goes by the route table. -/
def isTransit (s : State) (h : BitVec 256) : Bool := !addressedHere s h && !scheduledClass h

/-! ### Tiles of classes 2 and 3 (R155, R205) -/

/-- The lines of a class 2 or 3 packet: the sideband is rebuilt from len and tag (R205). A READ's payload fills no line: the rest of its
line is zero bytes. -/
def tileLines (k : Packet) (port : PortNo) : List Line :=
  let ls := pieces 128 33 k.payload
  let n := ls.length
  ((List.range n).zip ls).map fun e =>
    { data := lineOf e.2
      side := BitVec.ofNat 24 ((if e.1 = 0 then 2 ^ 23 else 0) + (if e.1 + 1 = n then 2 ^ 22 else 0) +
        (if e.1 = 0 then hTag k.hdr else 0))
      since := 0
      origin := some { stampPour := k.stampPour, stampClk := k.stampClk, hdr := k.hdr, port := some port, head := e.1 == 0 }
      slotClk := none }

/-- len and tag of a packet that carries a tile agree on its lines (R13, R205). A READ carries none. -/
def tileWhole (h : BitVec 256) : Bool := hType h == 1 || hLen h + 1 == 8 * (hTag h % 32 + 1)

/-- Address of the port-ingress station of a port (R202); while a spare pair is selected the ports exchange theirs (R391). -/
def ingressOf (s : State) (p : Nat) : Nat := let q := swapPort s p; q / 16 * 256 + 0x80 + q % 16

/-- Lines of a packet on their way to qi0 of the port-ingress station, line j there at `due j`. They enter the end by LINE_ENTRY. -/
def toIngress (p : Nat) (k : Packet) (due : Nat → Nat) (s : State) : State :=
  let ls := tileLines k (BitVec.ofNat 8 p)
  s.setFab fun f =>
    { f with flights := f.flights ++ ((List.range ls.length).zip ls).map fun e =>
        { due := due e.1, station := ingressOf s p, qend := 0, line := e.2, src := none } }

/-- With early use a line reaches the end 32 clk after its last byte has passed the timestamp point (R141, R155). -/
def earlyDue (s : State) (p : Nat) (r : RxPacket) (j : Nat) : Nat := r.inClk + receiveClk (s.portWidth p) (32 + 128 * (j + 1)) + 32

/-! ### Charges that come to nothing -/

/-- Take a charge back without owing the credit: the packet comes again by replay (R131). States may have fallen (R184). -/
def uncharge (o : Requester) (cells : Nat) (s : State) : State :=
  match o with
  | .port p c =>
    let s := s.setPort p.toNat fun x => { x with used := tmod 0 x.used c (· - cells) }
    settleAll (if 4 ≤ c then chargePool (portFlask s p.toNat) 0 cells s else s)
  | _ => s

/-- Copies of a packet that came to nothing belong to nobody's charge; tap copies keep their session's. -/
def disown (ident : Nat) (s : State) : State :=
  let g (q : QPkt) : QPkt :=
    match q.owner with
    | .port _ _ => if q.pkt.ident = ident then { q with owner := .none } else q
    | _ => q
  { s with
    ports := s.ports.map fun e => (e.1, { e.2 with
      egress := e.2.egress.map (fun t => (t.1, t.2.map g)), mcastBuf := e.2.mcastBuf.map g, held := e.2.held.map fun t => (t.1, t.2.map fun h => (g h.1, h.2)) })
    fab := { s.fab with
      mcast := s.fab.mcast.map (fun t => (t.1, t.2.map g))
      leaving := s.fab.leaving.map (fun t => (t.1, t.2.map g))
      stops := s.fab.stops.map (fun t => (t.1, { t.2 with
        transit := t.2.transit.map fun r => { r with q := g r.q }, waiting := t.2.waiting.map g }))
      xbar := s.fab.xbar.map (fun t => (t.1, { t.2 with waiting := t.2.waiting.map fun c => { c with q := g c.q } }))
      landings := s.fab.landings.map fun l => { l with q := g l.q } } }

/-- Link counters of an accepted packet (R186). -/
def countRx (p : Nat) (h : BitVec 256) (s : State) : State :=
  bumpPort p (24 + hCls h) (40 + payloadLen h) (bumpPort p (16 + hCls h) 1 s)

/-- Discard an accepted packet: its credits return (R131). -/
def discardRx (q : QPkt) (s : State) : State :=
  if scheduledClass q.pkt.hdr then s else release q.owner q.cells (charge q.owner q.cells s)

/-- Credits returned at the header for a packet whose trailer then fails are taken back: it comes again (R131, R199). -/
def takeBack (p c cells : Nat) (s : State) : State :=
  s.setPort p fun x =>
    let o := tget 0 x.owed c
    { x with owed := tmod 0 x.owed c (· - cells), giving := tmod 0 x.giving c (· - (cells - o)) }

end Sys2Proof.Machine
end

