-- ==== Sys2Proof/Machine/Egress.lean ====
section
/-!
DEFINITION. A port's egress: the choice of the next packet (R192, R193), gate lists (R194, R195), shaping (R196), fair queuing (R197),
multicast heads (R172), sending (R125, R133, R138, R140, R143), port injection (R151 to R153).
-/

namespace Sys2Proof.Machine

/-! ### Gate lists (R194, R195) -/

/-- Entries of a list that apply: start clk and open mask, rising; entry 0 from clk 0. -/
def gateEntries (n : Nat) (es : Tab Word) (clks : Nat) : List (Nat × Nat) :=
  ((List.range n).foldl (fun (acc : List (Nat × Nat)) i =>
    let w := tget 0 es (i + 1)
    let start := fld w 63 42
    match acc with
    | [] => acc
    | last :: _ => if last.1 < start && start < clks then (start, fld w 7 0) :: acc else acc)
    [(0, fld (tget 0 es 0) 7 0)]).reverse

/-- The class is open in an entry; classes 2 and 3 ignore gates. -/
def gateBit (c : Nat) (e : Nat × Nat) : Bool := e.2 / 2 ^ c % 2 == 1

/-- The active list of a port, which follows the part the port plays (R391). -/
def activeGates (s : State) (p : Nat) : List (Nat × Nat) :=
  let x := s.port (swapPort s p)
  gateEntries x.activeN x.gateActive s.pourClks

/-- The list of the next pour: once a swap is FIXED, the pending one of the part the port plays then (R51, R193, R391). -/
def nextGates (s : State) (p : Nat) : List (Nat × Nat) :=
  let x := s.port (swapBy s.ledger.sparePending s p)
  if s.job.gateState = .fixed then gateEntries x.pendingN x.gatePending s.pourClks else activeGates s p

/-- The class gate is open now; before RUN there is no pour and no gate acts. -/
def gateOpen (s : State) (p c : Nat) : Bool :=
  !s.running || match ((activeGates s p).filter fun e => decide (e.1 ≤ s.pourOff)).getLast? with
    | some e => gateBit c e
    | none => true

/-- Clk until the list next closes an open class; none when it never does. -/
def nextClose (s : State) (p c : Nat) : Option Nat :=
  if !s.running then none
  else
    let off := s.pourOff
    let now := ((activeGates s p).filter fun e => decide (off < e.1) && !gateBit c e).map fun e => e.1 - off
    let later := ((nextGates s p).filter fun e => !gateBit c e).map fun e => e.1 + s.pourClks - off
    (now ++ later).head?

/-! ### Eligibility (R193, R196) -/

/-- Transmit time X of a packet with a payload of P bytes on a port width. -/
def txClk (w P : Nat) : Nat := if w = 8 then (40 + P + 66) / 67 else (2 * (40 + P) + 66) / 67

/-- Transmit time of a packet on a port. -/
def sendClk (s : State) (p : Nat) (h : BitVec 256) : Nat := txClk (s.portWidth p) (payloadLen h)

/-- Clk until the next scheduled send on the port: of those issued, or the one that the schedule places `ahead` clk from now. -/
def nextScheduled (s : State) (p : Nat) (ahead : Option Nat) : Option Nat :=
  ((((s.port p).scheduled.filter fun q => decide (s.clk < q.since)).map fun q => q.since - s.clk) ++ ahead.toList).min?

/-- No limit, or at least x. -/
def within (x : Nat) : Option Nat → Bool
  | none => true
  | some n => decide (x ≤ n)

/-- The gate, the next closing and the next scheduled send allow a packet (R193). -/
def gateAllows (s : State) (p : Nat) (ahead : Option Nat) (h : BitVec 256) : Bool :=
  gateOpen s p (hCls h) && within (sendClk s p h) (nextClose s p (hCls h)) && within (sendClk s p h) (nextScheduled s p ahead)

/-- SHAPE0 or SHAPE1 as the pattern gives them to a port (R196). -/
def shapeCfg (s : State) (p c : Nat) : Word := s.cfgw (ptKey p (0x208 + 8 * c))

/-- SHAPE0 or SHAPE1 of the part a port plays (R196, R391). -/
def shapeOf (s : State) (p c : Nat) : Word := shapeCfg s (swapPort s p) c

/-- The class is shaped now: rate not zero, in RUN. -/
def shaped (s : State) (p c : Nat) : Bool := s.running && c < 2 && fld (shapeOf s p c) 16 0 != 0

/-- The bucket of class 0 or 1 holds the counted length. -/
def bucketAllows (s : State) (p c : Nat) (h : BitVec 256) : Bool :=
  !shaped s p c || decide (1024 * countedLen s p h ≤ tget 0 (s.port p).bucket c)

/-- Deduct a counted length from the bucket. -/
def drawBucket (p c : Nat) (h : BitVec 256) (s : State) : State :=
  if shaped s p c then
    let l := 1024 * countedLen s p h
    s.setPort p fun x => { x with bucket := tmod 0 x.bucket c (· - l) }
  else s

/-- The sender's count covers the packet (R130); classes 2 and 3 and PTP need none. -/
def creditAllows (s : State) (p : Nat) (h : BitVec 256) : Bool :=
  scheduledClass h || hType h == 4 || decide (cellsOf h ≤ tget 0 (s.port p).credits (hCls h))

/-- Room for one more unacknowledged packet (R133). -/
def windowAllows (s : State) (p : Nat) (h : BitVec 256) : Bool :=
  let x := s.port p
  decide (x.replayQ.length < 32767) &&
    decide (((x.replayQ.map fun k => 40 + payloadLen k.hdr).sum) + 40 + payloadLen h ≤ 4096 * (fld (s.portCfg p) 63 48 + 1))

/-! ### Injection (R151 to R153) -/

def injWord (s : State) (p i : Nat) : Word := tget 0 (s.port p).inj i

/-- A packet of a class is a candidate (R152). -/
def isCandidate (s : State) (p c : Nat) : Bool :=
  let w := injWord s p 0
  s.running && !s.fuse.debugOff && bit w 0 && fld w 5 4 != 0 && bit w (56 + c) &&
  decide (fld (injWord s p 1) 63 32 ≤ s.job.pour) && decide (s.job.pour ≤ fld (injWord s p 1) 31 0) &&
  (bit w 7 || fld (injWord s p 2) 47 0 == s.job.heat)

/-- The draw of candidate k, and whether it hits. -/
def injDraw (s : State) (p k : Nat) : Nat := (mix64 (injWord s p 3) s.job.heat s.job.pour p 0 k).toNat

def injHit (s : State) (p k : Nat) : Bool :=
  let w := injWord s p 0
  let mask := 2 ^ fld w 44 40
  if bit w 6 then k % mask == 0 else injDraw s p k % mask == 0

/-- The injection decision for a packet about to be sent: action (0 none, 1 drop, 2 corrupt, 3 reorder), stage, draw; candidates and hits are
counted. -/
def injDecide (p : Nat) (h : BitVec 256) (s : State) : Nat × Bool × Nat × State :=
  if !isCandidate s p (hCls h) then (0, false, 0, s)
  else
    let k := (s.port p).injOrdinal
    let w := injWord s p 0
    let v := injDraw s p k
    let hit := injHit s p k
    let s := s.setPort p fun x =>
      { x with injOrdinal := k + 1, injCount := if hit then satAdd 32 x.injCount 1 else x.injCount,
               held := tmod [] x.held (hCls h) fun l => l.map fun e => (e.1, min e.2 s.clk) }
    (if hit then fld w 5 4 else 0, bit w 3, v, s)

/-! ### Sending -/

/-- ESCAPE before a packet whose first 16 bytes on the line would read as a control word (R138). -/
def escapeFor (p : Nat) (line : BitVec 256) (s : State) : State :=
  if cwValid (BitVec.ofNat 128 (line.toNat / 2 ^ 128)) then sendCw p 4 0 s else s

/-- A packet's bytes go out as they stand on the line, enciphered as packet n of a session: whole, or the header when the rest is still to
come (R138, R143). -/
def putOnLine (p : Nat) (key : Option (BitVec 128)) (n : Nat) (k : Packet) (s : State) : State :=
  let h := cipherHeader key n k.hdr
  let s := escapeFor p h s
  if k.complete then
    s.emit (.packet (BitVec.ofNat 8 p) h (cipherPayload key n k.payload) (cipherTrailer key n k.payload.length k.trailer))
  else s.emit (.packetStart (BitVec.ofNat 8 p) h k.ident)

/-- A sequenced packet goes out under the count of its link_seq (R143). -/
def putSequenced (p : Nat) (k : Packet) (s : State) : State :=
  putOnLine p (txKey (s.port p)) (countOf (s.port p) (hSeq k.hdr)) k s

/-- Clk since the packet's ingress stamp, or since it entered its queue when this module originated it (R201). -/
def latencyOf (s : State) (q : QPkt) : Nat := if q.pkt.inPort.isSome then s.clk - q.pkt.inClk else s.clk - q.since

/-- Transmit counters and the latency mark (R186, R201). -/
def countTx (p : Nat) (q : QPkt) (s : State) : State :=
  let c := hCls q.pkt.hdr
  let lat := min (latencyOf s q) 0xFFFFFFFF
  bumpPort p (40 + c) (40 + payloadLen q.pkt.hdr) (bumpPort p (32 + c) 1
    (s.setPort p fun x => { x with latMark := tmod 0 x.latMark c (max · lat) }))

/-- What an injection does to a packet that is being sent: action (0 none, 1 drop, 2 corrupt), whether at link stage, the part and the draw
(R152, R153). -/
structure Injected where
  act : Nat
  link : Bool
  sel : Nat
  draw : Nat
  deriving DecidableEq, Repr

/-- No injection. -/
def notInjected : Injected := { act := 0, link := false, sel := 0, draw := 0 }

/-- A link-stage injection on a packet about to go on the line: none of it goes, or a bit is flipped (R153). -/
def atLinkStage (j : Injected) (k : Packet) : Option Packet :=
  if !j.link then some k
  else if j.act = 1 then none
  else if j.act = 2 then some (corruptPart j.sel j.draw k)
  else some k

/-- Number, check, keep and send a sequenced packet (R125, R133): a link-stage injection acts on what goes out only (R153). -/
def sendSequenced (p : Nat) (q : QPkt) (j : Injected) (s : State) : State :=
  let x := s.port p
  let h := sealHeader q.pkt.hdr x.txSeq
  let good := trailerOf h q.pkt.payload
  let k : Packet := { q.pkt with hdr := h, trailer := if q.pkt.stomped then good ^^^ BitVec.allOnes 64 else good }
  let s := s.setPort p fun x =>
    { x with txSeq := (x.txSeq + 1) % 65536, txCount := x.txCount + 1, replayQ := x.replayQ ++ [k],
             ackClk := if x.replayQ.isEmpty then s.clk else x.ackClk,
             credits := if scheduledClass h then x.credits else tmod 0 x.credits (hCls h) (· - cellsOf h),
             cut := if k.complete then none else some { ident := k.ident, act := j.act, link := j.link, sel := j.sel, draw := j.draw },
             busyUntil := s.clk + sendClk s p h }
  let s := countTx p q (poolPush (replayKey p) (cellsOf h) s)
  match atLinkStage j k with
  | some k => putSequenced p k s
  | none => s

/-- The time a PTP message leaves the fibre face, in 2^-16 ns (R24, R25). -/
def departTime (p : Nat) (s : State) : Nat := s.timeFrac + Config.portLatency (s.portWidth p)

/-- Write the departure time into a Sync or a Delay_Req: originTimestamp, and the fraction in the correction field. -/
def stampPtp (t : Nat) (pay : List Byte) : List Byte :=
  let kind := ((pay.headD 0).toNat) % 16
  if kind ≤ 1 then
    pay.take 8 ++ beBytes 8 (t % 65536) ++ (pay.drop 16).take 18 ++ ptpTime (t / 65536) ++ pay.drop 44
  else pay

/-- Send a PTP message after a CLEAR word, unsequenced and in the clear (R25, R143, R144); a link-stage injection may take it off the line,
CLEAR and all, or flip a bit (R153). -/
def sendPtp (p : Nat) (k : Packet) (j : Injected) (s : State) : State :=
  let t := departTime p s
  let pay := stampPtp t k.payload
  let h := sealHeader k.hdr 0
  let s := if ((pay.headD 0).toNat) % 16 = 1 then
      s.setTime fun x => { x with delaySent := tset x.delaySent p (t, beNat ((pay.drop 30).take 2)) }
    else s
  let s := s.setPort p fun x => { x with busyUntil := s.clk + sendClk s p h }
  let q : QPkt :=
    { pkt := { k with hdr := h }, owner := .none, cells := 0, ring := 0, since := s.clk, targets := [], reserved := [] }
  let s := countTx p q s
  match atLinkStage j { k with hdr := h, payload := pay, trailer := trailerOf h pay } with
  | some k => putOnLine p none 0 k (sendCw p 3 0 s)
  | none => s

/-- Send a chosen packet, its injection decided. -/
def sendNow (p : Nat) (q : QPkt) (j : Injected) (s : State) : State :=
  if hType q.pkt.hdr = 4 then sendPtp p q.pkt j s else sendSequenced p q j s

/-- Copies for the egress tap, made at the port-egress station (R173). -/
def tapTx (p : Nat) (k : Packet) (s : State) : State :=
  if bit (portTap s p) 5 then tapCopy (fld (portTap s p) 7 6) (egressSt p) k s else s

/-- What an injection at packet stage makes of a packet before its checks are computed (R153). -/
def injectPacket (j : Injected) (q : QPkt) : QPkt :=
  if j.act = 2 && !j.link then { q with pkt := corruptPart j.sel j.draw q.pkt } else q

/-- Send a chosen packet: replay mode discards it (R402), a warm spare in standby sends nothing but PTP and control words (R392), the
injector may drop, corrupt or hold it (R153). -/
def transmit (p : Nat) (q : QPkt) (s : State) : State :=
  if s.replayMode && hType q.pkt.hdr ≠ 4 then countReplayDrop s
  else if s.standby && hType q.pkt.hdr ≠ 4 then s
  else
    let (act, link, v, s) := injDecide p q.pkt.hdr s
    let j : Injected := { act := act, link := link, sel := fld (injWord s p 0) 9 8, draw := v }
    if act = 3 then
      s.setPort p fun x => { x with held := tmod [] x.held (hCls q.pkt.hdr) (· ++ [(q, s.clk + 1024)]) }
    else
      let s := tapTx p q.pkt s
      if act = 1 && !link then s else sendNow p (injectPacket j q) j s

/-! ### Replay (R135) -/

/-- REPLAY goes out, then every unacknowledged packet from there. -/
def sendReplay (p : Nat) (n : Nat) (word : Bool) (s : State) : State :=
  if word then
    let s := sendCw p 2 n s
    s.setPort p fun x => { x with replaying := if x.txSeq = n then none else some (n, false), busyUntil := s.clk + 1 }
  else match (s.port p).replayQ.find? (fun k => hSeq k.hdr == n) with
    | none => s.setPort p fun x => { x with replaying := none }
    | some k =>
      if !k.complete then s
      else
        let m := (n + 1) % 65536
        let s := s.setPort p fun x =>
          { x with replaying := if x.txSeq = m then none else some (m, false), busyUntil := s.clk + sendClk s p k.hdr }
        bumpPort p 8 1 (putSequenced p k s)

/-! ### Choosing (R192, R197) -/

/-- Where a head stands. -/
inductive HeadAt where
  | unicast
  | mcast (bay : Nat)
  deriving DecidableEq, Repr

/-- Heads of a class on a port: its queue's, and the multicast heads that target it and that it has not selected yet. -/
def headsOf (s : State) (p c : Nat) : List (HeadAt × QPkt) :=
  let uni := match tget [] (s.port p).egress c with | q :: _ => [(HeadAt.unicast, q)] | [] => []
  uni ++ (List.range 16).filterMap fun b =>
    match tget [] s.fab.mcast (8 * b + c) with
    | q :: _ => if q.targets.contains p && !q.reserved.contains p then some (HeadAt.mcast b, q) else none
    | [] => none

/-- The head with the earliest ingress stamp; of equal ones the first listed (unicast, then the lower bay). -/
def firstHead (hs : List (HeadAt × QPkt)) : Option (HeadAt × QPkt) :=
  hs.foldl (fun best h =>
    match best with
    | none => some h
    | some b =>
      if h.2.pkt.stampPour < b.2.pkt.stampPour || (h.2.pkt.stampPour == b.2.pkt.stampPour && h.2.pkt.stampClk < b.2.pkt.stampClk)
      then some h else some b) none

/-- The transmit buffer has room for one more packet: it holds two largest packets (R172), which the model counts as two packets of any size
(DESIGN CHOICE, log entry 75). -/
def bufferRoom (s : State) (p : Nat) : Bool := (s.port p).mcastSel.length + (s.port p).mcastBuf.length < 2

/-- A head is ready and eligible. -/
def headReady (s : State) (p c : Nat) (ahead : Option Nat) (h : HeadAt × QPkt) : Bool :=
  gateAllows s p ahead h.2.pkt.hdr && bucketAllows s p c h.2.pkt.hdr &&
  (match h.1 with
   | .unicast => creditAllows s p h.2.pkt.hdr && windowAllows s p h.2.pkt.hdr
   | .mcast _ => bufferRoom s p)

/-- The ready head of a class. -/
def readyHead (s : State) (p c : Nat) (ahead : Option Nat) : Option (HeadAt × QPkt) :=
  match firstHead (headsOf s p c) with
  | some h => if headReady s p c ahead h then some h else none
  | none => none

/-- The later of two tags, by the sign of their difference (R197). -/
def laterTag (a b : Word) : Word := if (b - a).toInt < 0 then a else if (b - a) = 0 then a else b

/-- Increment D of a packet (R197). -/
def tagStep (s : State) (p c : Nat) (h : BitVec 256) : Nat :=
  let w := (if c = 4 then fld (tcCfg s p) 15 8 else fld (tcCfg s p) 23 16) + 1
  (256 * countedLen s p h + w - 1) / w

/-- The start tag of class 4 or 5 at a packet boundary: given to an eligible head that has none, taken back while the gate is closed. -/
def fixTag (p : Nat) (ahead : Option Nat) (c : Nat) (s : State) : State :=
  if !gateOpen s p c then s.setPort p fun x => { x with stag := tdel x.stag c }
  else match firstHead (headsOf s p c) with
    | none => s.setPort p fun x => { x with stag := tdel x.stag c }
    | some h =>
      if gateAllows s p ahead h.2.pkt.hdr && (tget? (s.port p).stag c).isNone then
        s.setPort p fun x => { x with stag := tset x.stag c (laterTag x.vtime (tget 0 x.ftag c)) }
      else s

/-- A gate that closes takes the start tag of its class with it (R197). -/
def closeTags (s : State) (p : Nat) (x : Port) : Port := { x with stag := x.stag.filter fun e => gateOpen s p e.1 }

/-- A class 4 or 5 packet goes: Fc = S + D, V = S. -/
def payTag (p c : Nat) (h : BitVec 256) (s : State) : State :=
  let st := tget (s.port p).vtime (s.port p).stag c
  let d := tagStep s p c h
  s.setPort p fun x => { x with ftag := tset x.ftag c (st + BitVec.ofNat 64 d), vtime := st, stag := tdel x.stag c }

/-- Class 4 goes before class 5: the smaller start tag, class 4 on a tie. -/
def fairOrder (s : State) (p : Nat) : List Nat :=
  let s4 := tget 0 (s.port p).stag 4
  let s5 := tget 0 (s.port p).stag 5
  if (s5 - s4).toInt < 0 then [5, 4] else [4, 5]

/-- A chosen head: a queue's head leaves and is sent; a multicast head is selected, and the port reserves room for it (R172). -/
def takeHead (p c : Nat) (h : HeadAt × QPkt) (s : State) : State :=
  let s := drawBucket p c h.2.pkt.hdr s
  let s := if c = 4 || c = 5 then payTag p c h.2.pkt.hdr s else s
  match h.1 with
  | .unicast =>
    let s := s.setPort p fun x => { x with egress := tmod [] x.egress c List.tail }
    transmit p h.2 (leaveQueue (egressKey p c) h.2 s)
  | .mcast b =>
    let s := s.setPort p fun x => { x with mcastSel := x.mcastSel ++ [(b, c)] }
    s.setFab fun f => { f with mcast := tmod [] f.mcast (8 * b + c) fun l =>
      match l with
      | q :: rest => { q with reserved := q.reserved ++ [p] } :: rest
      | [] => [] }

/-- An ACK word fills the line (R118). -/
def fillAck (p : Nat) (s : State) : State :=
  (sendCw p 0 (((s.port p).rxSeq + 65535) % 65536) s).setPort p fun x => { x with busyUntil := s.clk + 1 }

/-- Items 5 to 7: the first class in order with a ready head, else the filler. -/
def chooseClass (p : Nat) (ahead : Option Nat) (s : State) : State :=
  let s := fixTag p ahead 5 (fixTag p ahead 4 s)
  (([0, 1] ++ fairOrder s p ++ [6, 7]).findSome? fun c => (readyHead s p c ahead).map fun h => takeHead p c h s).getD (fillAck p s)

/-- A packet held by a reorder injection whose time has come and which may go (R153, R193). -/
def heldDue (s : State) (p : Nat) (ahead : Option Nat) : Option (Nat × QPkt) :=
  (s.port p).held.findSome? fun e =>
    match e.2 with
    | (q, d) :: _ =>
      let h := q.pkt.hdr
      let free := hType h == 4 || scheduledClass h || gateAllows s p ahead h
      if d ≤ s.clk && free && creditAllows s p h && (hType h == 4 || windowAllows s p h) then some (e.1, q) else none
    | [] => none

/-- It leaves, no candidate again. -/
def sendHeld (p c : Nat) (q : QPkt) (s : State) : State :=
  sendNow p q notInjected (tapTx p q.pkt (s.setPort p fun x => { x with held := tmod [] x.held c List.tail }))

/-- The copy of a class in the transmit buffer that goes next (R172). -/
def bufferFirst (s : State) (p c : Nat) : Option QPkt := (s.port p).mcastBuf.find? fun q => hCls q.pkt.hdr == c

/-- A copy in the transmit buffer that may go: of the classes in order, the first of each. -/
def bufferHead (s : State) (p : Nat) (ahead : Option Nat) : Option QPkt :=
  [0, 1, 4, 5, 6, 7].findSome? fun c => (bufferFirst s p c).filter fun q =>
    gateAllows s p ahead q.pkt.hdr && creditAllows s p q.pkt.hdr && windowAllows s p q.pkt.hdr

/-- A scheduled packet whose clk has come, in the order the schedule places (R192). -/
def scheduledHead (s : State) (p : Nat) : Option QPkt :=
  match (s.port p).scheduled with
  | q :: _ => if q.since ≤ s.clk && windowAllows s p q.pkt.hdr then some q else none
  | [] => none

/-- The port-egress station of a port, with its pair's while a spare pair is selected (R202, R391). -/
def egressOf (s : State) (p : Nat) : Nat := let q := swapPort s p; q / 16 * 256 + 0x90 + q % 16

/-- Line k of a pe.send, by its issue clk, as it stands in qo0. -/
def isSentLine (t k : Nat) (l : Line) : Bool :=
  match l.origin with | some m => m.hdr.toNat == t && m.stampClk == k | none => false

/-- The transmit path takes the lines of a scheduled packet from qo0 (R206): a line that is not there leaves zero bytes. -/
def takeScheduled (p : Nat) (q : QPkt) (s : State) : QPkt × State :=
  let a := egressOf s p
  let n := payloadLen q.pkt.hdr / 128
  let ls := endLines s a 8
  let pay := (List.range n).flatMap fun k =>
    match ls.find? (isSentLine q.pkt.ident k) with | some l => lineBytes l.data | none => List.replicate 128 0
  let mine (l : Line) : Bool := (List.range n).any fun k => isSentLine q.pkt.ident k l
  ({ q with pkt := { q.pkt with payload := pay } },
   (s.setStation a fun x => { x with ends := tmod [] x.ends 8 (·.filter fun l => !mine l) }).setPort p fun x =>
     { x with scheduled := x.scheduled.tail })

/-- Scheduled data due across a port that is not UP, or does not carry traffic yet, is lost (R123); in replay mode it is counted (R402). -/
def dropScheduled (p : Nat) (s : State) : State :=
  match (s.port p).scheduled with
  | q :: _ => if q.since ≤ s.clk then (takeScheduled p q (if s.replayMode then countReplayDrop s else s)).2 else s
  | [] => s

/-- In replay mode what waits in a port's queues and in its transmit buffer is discarded and counted, whether or not the port is UP (R402). -/
def dropQueued (p : Nat) (s : State) : State :=
  if !s.replayMode then s
  else
    let x := s.port p
    let s := each [0, 1, 4, 5, 6, 7] (fun c s => each (tget [] x.egress c) (fun q s => countReplayDrop (leaveQueue (egressKey p c) q s)) s) s
    let s := each x.mcastBuf (fun _ s => countReplayDrop s) s
    s.setPort p fun x => { x with egress := [], mcastBuf := [] }

/-- A PTP message of the port's own clock that the class 0 bucket allows (R192). -/
def ptpHead (s : State) (p : Nat) : Option Packet := (s.port p).ptpQ.head?.filter fun k => bucketAllows s p 0 k.hdr

/-- Items 3 to 7 and the filler: a control word due (R118), a PTP message, a held or copied packet, a class, else an ACK word. -/
def chooseRest (p : Nat) (ahead : Option Nat) (s : State) : State :=
  if (s.port p).nakDue then (nakNow p s).setPort p fun x => { x with busyUntil := s.clk + 1 }
  else if s.clk ≥ (s.port p).cwClk + 128 then fillAck p s
  else match ptpHead s p with
    | some k =>
      let s := drawBucket p 0 k.hdr (s.setPort p fun x => { x with ptpQ := x.ptpQ.tail })
      transmit p { pkt := k, owner := .none, cells := 0, ring := 0, since := s.clk, targets := [], reserved := [] } s
    | none =>
      if !(s.port p).carrying then fillAck p s
      else match heldDue s p ahead, bufferHead s p ahead with
        | some (c, q), _ => sendHeld p c q s
        | none, some q => transmit p q (s.setPort p fun x => { x with mcastBuf := x.mcastBuf.erase q })
        | none, none => chooseClass p ahead s

/-- The choice of an UP port that carries traffic: a replay, scheduled data whose clk has come, the rest (R192). -/
def chooseItem (p : Nat) (ahead : Option Nat) (s : State) : State :=
  match (s.port p).replaying, scheduledHead s p with
  | some (n, w), _ => sendReplay p n w s
  | none, some q => let (q, s) := takeScheduled p q s; transmit p q s
  | none, none => chooseRest p ahead s

/-- EGRESS_SELECT (R192, R193): at a packet boundary the first ready item goes. -/
def execEgressSelect (turn : EgressTurn) (s : State) : Out :=
  let p := turn.port.toNat
  let s := dropQueued p s
  .next (if !s.portUp p then dropScheduled p s
    else if !(s.port p).carrying then
      let s := dropScheduled p s
      if atBoundary s p then chooseRest p turn.ahead s else s
    else if atBoundary s p then chooseItem p turn.ahead s
    else s)

/-- REORDER_TIMEOUT (R153): 1,024 clk have passed, or the next candidate has gone; the packet leaves at a packet boundary outside a
replay. -/
def execReorderTimeout (port : PortNo) (s : State) : Out :=
  let p := port.toNat
  .next (if !s.portUp p || !(s.port p).carrying || !atBoundary s p || (s.port p).replaying.isSome then s
    else match heldDue s p none with
      | some (c, q) => sendHeld p c q s
      | none => s)

/-! ### Multicast heads (R172) -/

/-- Clk in which the last of some bays is reached from a bay in a direction. -/
def farthest (dir bay : Nat) (bays : List Nat) : Nat := bays.foldl (fun m b => max m (transitClk dir bay b)) 0

/-- The direction of a multicast packet: the one that reaches its last bay in fewer clk, clockwise on a tie. -/
def mcastDir (bay : Nat) (bays : List Nat) : Nat := if farthest 0 bay bays ≤ farthest 1 bay bays then 0 else 1

/-- A copy lands in a target's transmit buffer. -/
def copyTo (p : Nat) (q : QPkt) (s : State) : State :=
  s.setPort p fun x =>
    { x with mcastSel := x.mcastSel.erase (q.src / 256, hCls q.pkt.hdr)
             mcastBuf := x.mcastBuf ++ [q] }

/-- The copy of a multicast packet that some targets and the bays of a mask are still to get: it is charged to nobody. -/
def copyFor (q : QPkt) (targets : List Nat) (mask : Nat) : QPkt :=
  { q with owner := .none, cells := 0, targets := targets, reserved := [], mask := mask, goal := .copy }

/-- The bays of a mask other than one, ascending. -/
def maskBays (mask but : Nat) : List Nat := (List.range 16).filter fun b => b != but && mask.testBit b

/-- The head leaves: targets of its own bay get their copy through the crossbar; it enters the ring in the direction that reaches the last
bay of its mask first (R172). -/
def departMcast (b c : Nat) (q : QPkt) (s : State) : State :=
  let s := s.setFab fun f => { f with mcast := tmod [] f.mcast (8 * b + c) List.tail }
  let down := q.targets.filter fun p => !s.portUp p
  let up := q.targets.filter s.portUp
  let s := each down (fun p s => s.setPort p fun x => { x with mcastSel := x.mcastSel.erase (b, c) }) s
  let s := each (up.filter fun p => p / 16 == b) (fun p s => crossTo (egressSt p) (copyFor q [p] 0) s) s
  let bays := maskBays q.mask b
  let far := copyFor q (up.filter fun p => p / 16 != b) ((bays.map (2 ^ ·)).sum)
  let s := if bays.isEmpty then s else crossTo (stopOut (stopKey q.ring (mcastDir b bays) b)) far s
  match down.min? with
  | some p => refusePacket q 0x08 p (poolPop (mcastKey b c) q.cells s)
  | none => leaveQueue (mcastKey b c) q s

/-- In replay mode a multicast packet is discarded, a count for each target (R402). -/
def dropMcast (b c : Nat) (q : QPkt) (s : State) : State :=
  let s := s.setFab fun f => { f with mcast := tmod [] f.mcast (8 * b + c) List.tail }
  leaveQueue (mcastKey b c) q (each q.targets (fun p s =>
    countReplayDrop (s.setPort p fun x => { x with mcastSel := x.mcastSel.erase (b, c) })) s)

/-- MCAST_HEAD_DEPART (R172): once every target port has reserved room. A target that is not UP never selects, and so the head waits for it:
the manual says only what becomes of one that is not UP when the head leaves (DESIGN CHOICE, log entry 74). -/
def execMcastHeadDepart (bay : Fin 16) (cls : Fin 8) (s : State) : Out :=
  .next (match tget [] s.fab.mcast (8 * bay.val + cls.val) with
    | q :: _ =>
      if !s.lit then s
      else if s.replayMode then dropMcast bay.val cls.val q s
      else if q.targets.all q.reserved.contains then departMcast bay.val cls.val q s
      else s
    | [] => s)

end Sys2Proof.Machine
end

