-- ==== Sys2Proof/Machine/EngineOps.lean ====
section
/-!
DEFINITION. What the engines share: unfinished operations (R228), their pops, tiles they push.
-/

namespace Sys2Proof.Machine

/-! ### Engine operations (R228) -/

/-- An engine operation begins. -/
def startOp (a : Nat) (op : EngineOp) (s : State) : State := s.setStation a fun x => { x with ops := x.ops ++ [op] }

/-- An operation as issued now, with the scalars named by a and b. -/
def newOp (kind : EngineKind) (a : Nat) (w : Word) (place : Nat) (agenda : List (Nat × EngineStep)) (finish : Nat) (s : State) : EngineOp :=
  { kind := kind, t := s.clk, word := w, place := place, sa := scalarSrc s a (aOf w), sb := scalarSrc s a (bOf w), agenda := agenda,
    taken := [], finish := finish }

/-- The unfinished operations of some kinds: an operation is finished in its completion clk. -/
def openOps (s : State) (a : Nat) (ks : List EngineKind) : List EngineOp :=
  (s.station a).ops.filter fun o => ks.contains o.kind && decide (s.clk < o.finish)

/-- Two spans of clk overlap. -/
def spansMeet (x y : Nat × Nat) : Bool := decide (x.1 ≤ y.2) && decide (y.1 ≤ x.2)

/-- The sixteen words of a line. -/
def wordsOf (d : LineData) : List Word := (List.range 16).map fun i => d.extractLsb' (64 * i) 64

/-- Push lines as one tile, line j at `due j`. -/
def pushTile (a d : Nat) (t place fmt : Nat) (due : Nat → Nat) (ls : List LineData) (s : State) : State :=
  each ((List.range ls.length).zip ls) (fun e s =>
    putPush a d (due e.1) t place { bareLine e.2 with side := tileSide fmt e.1 ls.length } s) s

/-- A line or none joins an operation's taken lines: a station issues one instruction a clk, so the issue clk names the operation. -/
def modOp (a t : Nat) (f : EngineOp → EngineOp) (s : State) : State :=
  s.setStation a fun x => { x with ops := x.ops.map fun o => if o.t = t then f o else o }

/-- One pop of an operation in clk c (R228): a pop that finds no line is a POP_EMPTY step, and no line joins. -/
def opPop (a : Nat) (op : EngineOp) (e c : Nat) (s : State) : State :=
  if popReady s a e c then
    let l := (endLines s a e).head?
    modOp a op.t (fun o => { o with taken := o.taken ++ [l] }) (popEnd a e c s)
  else modOp a op.t (fun o => { o with taken := o.taken ++ [none] }) (violateClk a popEmpty op.place c s)

/-- A step that takes nothing. -/
def opSkip (a : Nat) (op : EngineOp) (s : State) : State := modOp a op.t (fun o => { o with taken := o.taken ++ [none] }) s

/-- An operation is suppressed whole in clk c, when a tile shows its fault only then: it does nothing more and holds nothing, and its
completion signal fires at the clk that its timing gives (R228, R230). -/
def opCancel (a code : Nat) (op : EngineOp) (fin c : Nat) (s : State) : State :=
  fireSignal a op.word true fin op.place
    ((violateClk a code op.place c s).setStation a fun x => { x with ops := x.ops.filter fun o => o.t != op.t })

end Sys2Proof.Machine
end

