-- ==== Sys2Proof/Machine/RiddleOps.lean ====
section
/-!
DEFINITION. Riddles: predicate programs (R307 to R309), filtering a tile (R310 to R312).
-/

namespace Sys2Proof.Machine

/-! ### Programs (R307, R308) -/

/-- The program in force: the last line loaded whose clk has come. -/
def progNow (s : State) (a : Nat) : Tab Word :=
  let r := s.riddle a
  (r.coming.filter fun e => decide (e.1 ≤ s.clk)).foldl (fun _ e => e.2) r.prog

/-- A word 0 with a reserved test or reserved bits set. -/
def termBad (w : Word) : Bool := decide (13 ≤ fld w 63 60) || fld w 55 0 != 0

/-- A line that is no program. -/
def progBad (d : LineData) : Bool := ((List.range 8).map fun i => (wordsOf d).getD (2 * i) 0).any termBad

/-- Bit v of the bitmap; none beyond 65,535. -/
def mapBit (r : Riddle) (v : Nat) : Bool := decide (v < 65536) && bit (tget 0 r.bitmap (v / 1024)) (v % 1024)

/-- A comparison test, from the order of v with lo and with hi. -/
def compareTest (test : Nat) (lo hi : Int) : Bool :=
  match test with
  | 1 => decide (lo < 0) | 2 => decide (lo ≤ 0) | 3 => decide (0 < lo) | 4 => decide (0 ≤ lo) | 5 => lo == 0 | 6 => lo != 0
  | 7 => decide (0 ≤ lo) && decide (hi ≤ 0) | 8 => decide (lo < 0) || decide (0 < hi)
  | _ => false

/-- A term's test of a float element. -/
def evalFloat (r : Riddle) (test : Nat) (v lo hi : Num) (p : Nat) : Bool :=
  if test = 9 then v == .nan
  else if test = 11 then mapBit r p
  else if v == .nan || lo == .nan || (decide (7 ≤ test) && hi == .nan) then false
  else compareTest test (cmpNum v lo) (cmpNum v hi)

/-- The order of two integers. -/
def cmpInt (x y : Int) : Int := if x < y then -1 else if y < x then 1 else 0

/-- A term's test of an integer or raw element. -/
def evalInt (r : Riddle) (test : Nat) (v lo hi : Int) (lo32 hi32 p : Nat) : Bool :=
  match test with
  | 10 => decide (0 ≤ v) && mapBit r v.toNat
  | 11 => mapBit r p
  | 12 => unsigned 32 v &&& lo32 == hi32
  | _ => compareTest test (cmpInt v lo) (cmpInt v hi)

/-- The result of a term for an element code. -/
def evalTerm (r : Riddle) (fmt : Nat) (w0 w1 : Word) (code p : Nat) : Bool :=
  let test := fld w0 63 60
  let lo := fld w1 63 32
  let hi := fld w1 31 0
  let mag := bit w0 56
  let res :=
    if fmt = 8 then evalInt r test code lo hi lo hi p
    else if isInt fmt then
      let v := signed (elemBits fmt) code
      evalInt r test (if mag then v.natAbs else v) (signed 32 lo) (signed 32 hi) lo hi p
    else
      let v := decodeElem fmt code
      evalFloat r test (if mag then absNum v else v) (decodeElem 0 lo) (decodeElem 0 hi) p
  res != bit w0 57

/-- The program over an element, from term i with the result so far (R308). -/
def runTerms (r : Riddle) (prog : List Word) (fmt code p : Nat) : Nat → Nat → Bool → Bool
  | 0, _, acc => acc
  | n + 1, i, acc =>
    let w0 := prog.getD (2 * i) 0
    if fld w0 63 60 = 0 then acc
    else
      let x := evalTerm r fmt w0 (prog.getD (2 * i + 1) 0) code p
      let comb := fld w0 59 58
      runTerms r prog fmt code p n (i + 1)
        (if i = 0 || comb = 0 then x else if comb = 1 then acc && x else if comb = 2 then acc || x else acc && !x)

/-- The element passes. -/
def passes (r : Riddle) (prog : List Word) (fmt code p : Nat) : Bool := runTerms r prog fmt code p 8 0 true

/-! ### rd.load (R309, R467) -/

/-- The 64 reads of a bitmap load: a read whose port is taken is a CONFLICT step (64 + k). -/
def mapAgenda (s : State) (a : Nat) : List (Nat × EngineStep) :=
  (List.range 64).map fun k => (s.clk + k, .act (if readFree s a (s.clk + k) then k else 64 + k))

/-- An unfinished bitmap load, or an rd.run whose intake goes on. -/
def mapBusy (s : State) (a : Nat) : Bool :=
  !(openOps s a [.rdLoadMap]).isEmpty || (openOps s a [.rdRun]).any fun o => decide (s.clk ≤ o.t + fld o.sb 4 0)

/-- rd.load. -/
def rdLoad (a : Nat) (w : Word) (place : Nat) (s : State) : Except Nat State :=
  let base := storeAddr (scalarSrc s a (aOf w)) (immOf w % 512 : Nat)
  if bit (BitVec.ofNat 10 (immOf w)) 9 then do
    let k ← inBound 1985 base
    if mapBusy s a then .error conflict
    else
      let op := { newOp .rdLoadMap a w place (mapAgenda s a ++ [(s.clk + 66, .act 128)]) (s.clk + 66) s with sa := (BitVec.ofNat 64 k : Word) }
      .ok (startOp a op (takeRead a (((List.range 64).map (s.clk + ·)).filter (readFree s a)) s))
  else do
    let k ← inBound 2048 base
    if !readFree s a s.clk then .error conflict
    else
      let d := storeLine s a k
      if progBad d then .error bound
      else
        let prog : Tab Word := (List.range 16).zip (wordsOf d)
        .ok ((takeRead a [s.clk] s).setRiddle a fun r =>
          { r with prog := progNow s a, coming := (r.coming.filter fun e => decide (s.clk < e.1)) ++ [(s.clk + 3, prog)] })

/-- A step of a bitmap load: line k read, a read refused, or the whole bitmap in place. -/
def mapStep (a : Nat) (op : EngineOp) (n c : Nat) (s : State) : State :=
  if n = 128 then
    let ls := (List.range 64).zip op.taken
    s.setRiddle a fun r => { r with bitmap := ls.foldl (fun m e => match e.2 with | some l => tset m e.1 l.data | none => m) r.bitmap }
  else
    let got := if n < 64 then some (bareLine (storeLine s a (op.sa.toNat + n))) else none
    let s := if n < 64 then s else violateClk a conflict op.place c s
    modOp a op.t (fun o => { o with taken := o.taken ++ [got] }) s

/-! ### rd.run (R310 to R312) -/

def runFmt (sb : Word) : Nat := fld sb 15 12
/-- Width of an element in bits. -/
def runWidth (sb : Word) : Nat := if runFmt sb = 8 then 8 * 2 ^ (fld sb 17 16 % 3) else elemBits (runFmt sb)
def runMode (sb : Word) : Nat := fld sb 11 10
/-- Input lines. -/
def runIn (sb : Word) : Nat := fld sb 4 0 + 1
/-- Output lines. -/
def runOut (sb : Word) : Nat :=
  match runMode sb with
  | 0 => runIn sb
  | 2 => (runIn sb * (1024 / runWidth sb) + 1023) / 1024
  | _ => fld sb 9 5 + 1

/-- Clk of the first push. -/
def runFirst (sb : Word) (t : Nat) : Nat := t + fld sb 4 0 + 6
/-- Completion: the last push. -/
def runLast (sb : Word) (t : Nat) : Nat := runFirst sb t + runOut sb - 1

/-- The control word makes the rd.run a BOUND. -/
def runBad (sb : Word) : Bool :=
  decide (9 ≤ runFmt sb) || (runFmt sb == 8 && fld sb 17 16 == 3) || (runMode sb == 3 && [3, 4, 5].contains (runFmt sb))

/-- Another rd.run holds the intake or the output when this one needs it, or a bitmap load is under way. -/
def runBusy (s : State) (a : Nat) (sb : Word) : Bool :=
  !(openOps s a [.rdLoadMap]).isEmpty ||
  (openOps s a [.rdRun]).any fun o =>
    spansMeet (o.t, o.t + fld o.sb 4 0) (s.clk, s.clk + fld sb 4 0) ||
      spansMeet (runFirst o.sb o.t, runLast o.sb o.t) (runFirst sb s.clk, runLast sb s.clk)

/-- rd.run: the program is latched as the first taken line, the input lines follow it. -/
def rdRun (a : Nat) (w : Word) (place : Nat) (s : State) : Except Nat State :=
  let sb := scalarSrc s a (bOf w)
  if runBad sb then .error bound
  else if runBusy s a sb then .error conflict
  else
    let n := runIn sb
    let pops := (List.range n).map fun j => (s.clk + j, EngineStep.pop (aOf w))
    let prog := lineOfCodes 64 ((List.range 16).map fun i => (tget 0 (progNow s a) i).toNat)
    let op := { newOp .rdRun a w place (pops ++ [(s.clk + n - 1, .act 0)]) (runLast sb s.clk) s with taken := [some (bareLine prog)] }
    .ok (startOp a op s)

/-- Passing elements of the lines taken: position and code. -/
def passing (r : Riddle) (prog : List Word) (sb : Word) (taken : List (Option Line)) : List (Nat × Nat) :=
  let w := runWidth sb
  ((List.range taken.length).zip taken).flatMap fun e =>
    match e.2 with
    | some l => (((List.range (1024 / w)).map (e.1 * (1024 / w) + ·)).zip (codesOf w l.data)).filter fun x =>
        passes r prog (runFmt sb) x.2 x.1
    | none => []

/-- The short record of a passing element (R310). -/
def recordOf (fmt base : Nat) (e : Nat × Nat) : Nat :=
  (if fmt = 6 then unsigned 32 (signed 8 e.2) else e.2) * 2 ^ 32 + (base + e.1) % 2 ^ 32

/-- The output lines for the passing elements. -/
def runLines (sb : Word) (ps : List (Nat × Nat)) : List LineData :=
  let n := runOut sb
  let base := fld sb 63 32
  match runMode sb with
  | 0 =>
    let w := runWidth sb
    (List.range n).map fun m => lineOfCodes w (((ps.drop (m * (1024 / w))).take (1024 / w)).map (·.2))
  | 1 =>
    let cs := (ps.map fun e => (base + e.1) % 2 ^ 32) ++ List.replicate (32 * n) 0xFFFFFFFF
    (List.range n).map fun m => lineOfCodes 32 ((cs.drop (32 * m)).take 32)
  | 2 =>
    (List.range n).map fun m => BitVec.ofNat 1024 (((ps.filter fun e => e.1 / 1024 == m).map fun e => 2 ^ (e.1 % 1024)).sum)
  | _ =>
    let cs := ps.map (recordOf (runFmt sb) base) ++ List.replicate (16 * n) (2 ^ 64 - 1)
    (List.range n).map fun m => lineOfCodes 64 ((cs.drop (16 * m)).take 16)

/-- Elements the output holds: no bound in VALUES and BITMAP. -/
def runCap (sb : Word) : Option Nat :=
  match runMode sb with | 1 => some (32 * runOut sb) | 3 => some (16 * runOut sb) | _ => none

/-- The lines are in: the output, the count, the statistics (R310, R311). -/
def runStep (a : Nat) (op : EngineOp) (s : State) : State :=
  let sb := op.sb
  let prog := match op.taken.head? with | some (some l) => wordsOf l.data | _ => []
  let ps := passing (s.riddle a) prog sb (op.taken.drop 1)
  let spilt : Bool := match runCap sb with | some c => decide (c < ps.length) | none => false
  let s := s.setRiddle a fun r =>
    { r with passed := satAdd 48 r.passed ps.length, overflows := if spilt then satAdd 16 r.overflows 1 else r.overflows }
  let s := putScalar a (immOf op.word % 8) (runFirst sb op.t) op.t op.place (BitVec.ofNat 64 ps.length) s
  pushTile a (dOf op.word) op.t op.place (if runMode sb = 0 then runFmt sb else 8) (runFirst sb op.t + ·) (runLines sb ps) s

/-- Completion clk of a Riddle instruction issued at t (R309, R312). -/
def riddleFinish (s : State) (a : Nat) (w : Word) (t : Nat) : Nat :=
  if opOf w = 0x41 then runLast (scalarSrc s a (bOf w)) t else if bit (BitVec.ofNat 10 (immOf w)) 9 then t + 66 else t + 3

end Sys2Proof.Machine
end

