-- ==== Sys2Proof/Machine/SorterOps.lean ====
section
/-!
DEFINITION. Sort engines: records and their order (R294 to R297), the run store (R298), the control word and the four instructions
(R299 to R305).
-/

namespace Sys2Proof.Machine

/-! ### Records (R294 to R296) -/

/-- Key bits of a key type. -/
def keyBits : Nat → Nat
  | 1 => 16 | 2 => 16 | 5 => 64 | 6 => 64 | _ => 32

/-- A record from its code in a form (`long` false: short), with the rank a short one takes. -/
def recOf (long : Bool) (kt rank code : Nat) : Rec :=
  if long then
    { key := code / 2 ^ 64 % 2 ^ keyBits kt, rank := code / 2 ^ 32 % 2 ^ 20, index := code % 2 ^ 32, fill := code.testBit 63 }
  else { key := code / 2 ^ 32 % 2 ^ min 32 (keyBits kt), rank := rank, index := code % 2 ^ 32, fill := code % 2 ^ 32 == 0xFFFFFFFF }

/-- The code of a fill record that the engine emits: all ones (R294). -/
def fillCode (long : Bool) : Nat := if long then 2 ^ 128 - 1 else 2 ^ 64 - 1

/-- A fill record that pads what the engine emits. -/
def fillRec : Rec := { key := 0, rank := 0, index := 0, fill := true }

/-- The code of a record in a form: a fill record, or one that becomes one by its index in the short form, is all ones; a short one drops
the rank (R294, R297). -/
def codeOf (long : Bool) (r : Rec) : Nat :=
  if r.fill || (!long && r.index == 0xFFFFFFFF) then fillCode long
  else if long then r.key * 2 ^ 64 + r.rank * 2 ^ 32 + r.index
  else r.key % 2 ^ 32 * 2 ^ 32 + r.index

/-- Records in a line, and the bits of one. -/
def rplOf (long : Bool) : Nat := if long then 8 else 16
def recBits (long : Bool) : Nat := if long then 128 else 64

/-- A key as a value (R295): floats decoded, integers exact. -/
def keyNum (kt key : Nat) : Num :=
  match kt with
  | 0 => decodeElem 0 key | 1 => decodeElem 1 key | 2 => decodeElem 2 key
  | 3 => .fin (decide (signed 32 key < 0)) (signed 32 key).natAbs 0
  | 5 => .fin (decide (signed 64 key < 0)) (signed 64 key).natAbs 0
  | _ => .fin false key 0

/-- Numbers first, NaN after them, fill records last. -/
def recClass (kt : Nat) (r : Rec) : Nat := if r.fill then 2 else if keyNum kt r.key == .nan then 1 else 0

/-- x goes before y (R296), but for the order of intake, which the stable sort keeps. -/
def before (kt : Nat) (dir : Bool) (x y : Rec) : Bool :=
  let cx := recClass kt x
  let cy := recClass kt y
  if cx ≠ cy then decide (cx < cy)
  else
    let c := if cx = 0 then (if dir then -cmpNum (keyNum kt x.key) (keyNum kt y.key) else cmpNum (keyNum kt x.key) (keyNum kt y.key)) else 0
    if c ≠ 0 then decide (c < 0)
    else if x.rank ≠ y.rank then decide (x.rank < y.rank)
    else decide (x.index < y.index)

/-- Records in order. -/
def sortRecs (kt : Nat) (dir : Bool) (rs : List Rec) : List Rec := rs.mergeSort fun x y => !before kt dir y x

/-- The run whose head goes first: of equal heads the run given first. -/
def bestHead (kt : Nat) (dir : Bool) (runs : List (List Rec)) : Option (Nat × Rec) :=
  ((List.range runs.length).zip runs).foldl (fun b e =>
    match e.2, b with
    | r :: _, none => some (e.1, r)
    | r :: _, some x => if before kt dir r x.2 then some (e.1, r) else b
    | [], _ => b) none

/-- The merge of the runs' heads. -/
def mergeRuns (kt : Nat) (dir : Bool) : Nat → List (List Rec) → List Rec
  | 0, _ => []
  | n + 1, runs =>
    match bestHead kt dir runs with
    | none => []
    | some (i, r) => r :: mergeRuns kt dir n (runs.modify i List.tail)

/-! ### The control word (R299) and the slots (R298) -/

def cwRank (b : Word) : Nat := fld b 54 35
def cwSegs (b : Word) : Nat := fld b 34 23 + 1
def cwDir (b : Word) : Bool := bit b 22
def cwLong (b : Word) : Bool := bit b 21
def cwKt (b : Word) : Nat := fld b 20 18
def cwK (b : Word) : Nat := fld b 17 12 + 1
def cwN (b : Word) : Nat := fld b 11 0 + 1

/-- kt 7, or kt 5 or 6 in short form (R304). -/
def cwBad (b : Word) : Bool := cwKt b == 7 || (!cwLong b && (cwKt b == 5 || cwKt b == 6))

/-- SO_SLOT of the image. -/
def slotCfg (s : State) (a k : Nat) : Word := s.cfgw (stKey a (0x410 + 8 * k))
def slotDefined (s : State) (a k : Nat) : Bool := bit (slotCfg s a k) 9
def slotCap (s : State) (a k : Nat) : Nat := if slotDefined s a k then fld (slotCfg s a k) 47 32 + 1 else 0
def runSlot (s : State) (a k : Nat) : RunSlot := tget .reset (s.sorter a).slots k
def setSlot (a k : Nat) (r : RunSlot) (s : State) : State := s.setSorter a fun x => { x with slots := tset x.slots k r }

/-! ### Sides and slots held (R300) -/

def toSlot (w : Word) : Bool := dOf w == 24
def slotNo (w : Word) : Nat := immOf w % 16
/-- Load mode of so.run, keep of so.spill. -/
def modeBit (w : Word) : Bool := immOf w / 16 % 2 == 1

/-- Slots of a merge's mask. -/
def maskSlots (sa : Word) : List Nat := (List.range 16).filter (bit sa)

/-- Sides an instruction holds: intake 1, network 2, output 4. -/
def sidesOf (w : Word) : Nat :=
  match opOf w with
  | 0x40 => if modeBit w then 1 else if toSlot w then 3 else 7
  | 0x41 => if toSlot w then 2 else 6
  | 0x42 => 7
  | _ => 4

/-- Slots it reads. -/
def slotsRead (w sa : Word) : List Nat :=
  match opOf w with | 0x41 => maskSlots sa | 0x43 => [slotNo w] | _ => []

/-- Slots it writes. -/
def slotsWritten (w sa : Word) : List Nat :=
  match opOf w with
  | 0x40 => if modeBit w || toSlot w then [slotNo w] else []
  | 0x41 => if toSlot w then [fld sa 19 16] else []
  | 0x43 => if modeBit w then [] else [slotNo w]
  | _ => []

def sortKinds : List EngineKind := [.soSort, .soLoad, .soMerge, .soTopk, .soSpill]

/-- A side or slot is held by another unfinished instruction. -/
def sortBusy (s : State) (a : Nat) (w sa : Word) : Bool :=
  (openOps s a sortKinds).any fun o =>
    (sidesOf o.word &&& sidesOf w) != 0 ||
    (slotsRead w sa).any (slotsWritten o.word o.sa).contains ||
    (slotsWritten w sa).any fun k => (slotsRead o.word o.sa).contains k || (slotsWritten o.word o.sa).contains k

/-! ### Timing (R301) -/

/-- ⌈x / y⌉. -/
def ceilDiv (x y : Nat) : Nat := (x + y - 1) / y

/-- ⌈log2 n⌉. -/
def ceilLog2 (n : Nat) : Nat := if n ≤ 1 then 0 else Nat.log2 (n - 1) + 1

/-- Input lines of a so.run, or of one segment of a so.topk. -/
def linesIn (b : Word) : Nat := ceilDiv (cwN b) (rplOf (cwLong b))
/-- Output lines of a segment. -/
def linesOut (b : Word) : Nat := ceilDiv (cwK b) (rplOf (cwLong b))
/-- F of a so.run in sort mode. -/
def sortF (b : Word) (t : Nat) : Nat := let q := ceilLog2 (cwN b); t + (linesIn b - 1) / 2 + 8 + q * (q + 1) / 2
/-- The sum of the masked slots' counts. -/
def mergeCount (s : State) (a : Nat) (sa : Word) : Nat := ((maskSlots sa).map fun k => (runSlot s a k).recs.length).sum

/-- Completion clk of a sort instruction issued at t. -/
def sortFinish (s : State) (a : Nat) (w : Word) (t : Nat) : Nat :=
  let b := scalarSrc s a (bOf w)
  match opOf w with
  | 0x40 =>
    if modeBit w then t + (linesIn b - 1) / 2 + 2
    else if toSlot w then sortF b t + ceilDiv (cwN b) 32 - 1 else sortF b t + (linesIn b - 1) / 2
  | 0x41 =>
    let m := mergeCount s a (scalarSrc s a (aOf w))
    if m = 0 then t + 24 else if toSlot w then t + 24 + ceilDiv m 32 - 1 else t + 24 + (ceilDiv m (rplOf (cwLong b)) - 1) / 2
  | 0x42 => t + 12 + max ((cwSegs b * linesOut b - 1) / 2) ((cwSegs b * linesIn b - 1) / 2)
  | _ => t + 4 + (ceilDiv (runSlot s a (slotNo w)).recs.length (rplOf (cwLong b)) - 1) / 2

/-! ### Issue (R300 to R305) -/

/-- Sort output: tiles of 32 lines and one of the rest, of raw bits (R305). -/
def pushRun (a d t place : Nat) (long : Bool) (due : Nat → Nat) (rs : List Rec) (s : State) : State :=
  let rpl := rplOf long
  let n := ceilDiv rs.length rpl
  each (List.range n) (fun j s =>
    let part := (rs.drop (j * rpl)).take rpl
    let codes := (part ++ List.replicate (rpl - part.length) fillRec).map (codeOf long)
    let tile := min 32 (n - j / 32 * 32)
    putPush a d (due j) t place { bareLine (lineOfCodes (recBits long) codes) with side := tileSide 8 (j % 32) tile } s) s

/-- Input lines taken two per clk, an action after each. -/
def takeTwo (t e n : Nat) : List (Nat × EngineStep) :=
  (List.range n).flatMap fun j => [(t + j / 2, .pop e), (t + j / 2, .act j)]

/-- so.run. -/
def soRun (a : Nat) (w : Word) (place : Nat) (s : State) : Except Nat State :=
  let b := scalarSrc s a (bOf w)
  let fin := sortFinish s a w s.clk
  if cwBad b then .error bound
  else if sortBusy s a w 0 then .error conflict
  else if (modeBit w || toSlot w) && decide (slotCap s a (slotNo w) < cwN b) then .error bound
  else if modeBit w then
    .ok (startOp a (newOp .soLoad a w place (takeTwo s.clk (aOf w) (linesIn b)) fin s)
      (setSlot a (slotNo w) { recs := [], kt := cwKt b, dir := cwDir b, sorted := true } s))
  else
    .ok (startOp a (newOp .soSort a w place (takeTwo s.clk (aOf w) (linesIn b) ++ (if toSlot w then [(fin, .act 65536)] else [])) fin s) s)

/-- so.merge: the output is in order at once, since its input slots are held. -/
def soMerge (a : Nat) (w : Word) (place : Nat) (s : State) : Except Nat State :=
  let b := scalarSrc s a (bOf w)
  let sa := scalarSrc s a (aOf w)
  let srcs := maskSlots sa
  let out := fld sa 19 16
  let m := mergeCount s a sa
  let fin := sortFinish s a w s.clk
  if cwBad b || (toSlot w && srcs.contains out) then .error bound
  else if sortBusy s a w sa then .error conflict
  else if srcs.any (fun k => !slotDefined s a k ||
      (!(runSlot s a k).recs.isEmpty && ((runSlot s a k).kt != cwKt b || (runSlot s a k).dir != cwDir b))) then .error bound
  else if toSlot w && (!slotDefined s a out || decide (slotCap s a out < m)) then .error bound
  else
    let op := newOp .soMerge a w place (if toSlot w then [(fin, .act 0)] else []) fin s
    let s := startOp a op s
    .ok (if toSlot w then s
      else pushRun a (dOf w) s.clk place (cwLong b) (fun j => op.t + 24 + j / 2)
        (mergeRuns (cwKt b) (cwDir b) m (srcs.map fun k => (runSlot s a k).recs)) s)

/-- so.topk. -/
def soTopk (a : Nat) (w : Word) (place : Nat) (s : State) : Except Nat State :=
  let b := scalarSrc s a (bOf w)
  if cwBad b then .error bound
  else if sortBusy s a w 0 then .error conflict
  else .ok (startOp a (newOp .soTopk a w place (takeTwo s.clk (aOf w) (cwSegs b * linesIn b)) (sortFinish s a w s.clk) s) s)

/-- so.spill: without keep the slot is empty at completion. -/
def soSpill (a : Nat) (w : Word) (place : Nat) (s : State) : Except Nat State :=
  let b := scalarSrc s a (bOf w)
  let r := runSlot s a (slotNo w)
  let fin := sortFinish s a w s.clk
  if cwBad b then .error bound
  else if sortBusy s a w 0 then .error conflict
  else if !slotDefined s a (slotNo w) || (!cwLong b && !r.recs.isEmpty && (r.kt == 5 || r.kt == 6)) then .error bound
  else
    let t := s.clk
    .ok (pushRun a (dOf w) t place (cwLong b) (fun j => t + 4 + j / 2) r.recs
      (startOp a (newOp .soSpill a w place (if modeBit w then [] else [(fin, .act 0)]) fin s) s))

/-! ### Steps -/

/-- The records of line j of an intake whose units (whole run, or segment) take `per` lines of `n` records: a suppressed line supplies fill
records, as a line of all ones would; records beyond the n-th of a unit are ignored. -/
def lineRecs (b : Word) (per n j : Nat) (l : Option Line) : List Rec :=
  let long := cwLong b
  let rs := match l with
    | some l => (codesOf (recBits long) l.data).map (recOf long (cwKt b) (cwRank b))
    | none => List.replicate (rplOf long) (recOf long (cwKt b) (cwRank b) (fillCode long))
  rs.take (n - j % per * rplOf long)

/-- All records of a so.run's intake. -/
def intakeRecs (op : EngineOp) : List Rec :=
  ((List.range op.taken.length).zip op.taken).flatMap fun e => lineRecs op.sb (linesIn op.sb) (cwN op.sb) e.1 e.2

/-- Step j of a so.run in sort mode: after the last line the run is pushed; at completion it is in its slot. -/
def sortStep (a : Nat) (op : EngineOp) (j : Nat) (s : State) : State :=
  let b := op.sb
  let run := fun _ : Unit => sortRecs (cwKt b) (cwDir b) (intakeRecs op)
  if j = 65536 then setSlot a (slotNo op.word) { recs := run (), kt := cwKt b, dir := cwDir b, sorted := true } s
  else if j + 1 = linesIn b && !toSlot op.word then
    pushRun a (dOf op.word) op.t op.place (cwLong b) (fun k => sortF b op.t + k / 2) (run ()) s
  else s

/-- Records that go before their predecessor. -/
def disorders (kt : Nat) (dir : Bool) : Option Rec → List Rec → Nat
  | _, [] => 0
  | none, r :: rs => disorders kt dir (some r) rs
  | some p, r :: rs => (if before kt dir r p then 1 else 0) + disorders kt dir (some r) rs

/-- Step j of a load: the records as taken, checked for order (R302). -/
def loadStep (a : Nat) (op : EngineOp) (j : Nat) (s : State) : State :=
  let b := op.sb
  let k := slotNo op.word
  let old := runSlot s a k
  let new := lineRecs b (linesIn b) (cwN b) j (op.taken.getD j none)
  let bad := disorders (cwKt b) (cwDir b) old.recs.getLast? new
  (setSlot a k { old with recs := old.recs ++ new, sorted := old.sorted && bad == 0 } s).setSorter a fun x =>
    { x with disorder := satAdd 16 x.disorder bad }

/-- A merge to a slot completes. -/
def mergeStep (a : Nat) (op : EngineOp) (s : State) : State :=
  let b := op.sb
  let runs := (maskSlots op.sa).map fun k => (runSlot s a k).recs
  setSlot a (fld op.sa 19 16)
    { recs := mergeRuns (cwKt b) (cwDir b) (runs.map (·.length)).sum runs, kt := cwKt b, dir := cwDir b, sorted := true } s

/-- Step j of a so.topk: at a segment's last line its first records leave (R304, R305). -/
def topkStep (a : Nat) (op : EngineOp) (j : Nat) (s : State) : State :=
  let b := op.sb
  let per := linesIn b
  if j % per + 1 ≠ per then s
  else
    let g := j / per
    let lines := (op.taken.drop (g * per)).take per
    let rs := ((List.range per).zip lines).flatMap fun e => lineRecs b per (cwN b) e.1 e.2
    let short : Bool := decide ((rs.filter fun r => !r.fill).length < cwK b)
    let s := s.setSorter a fun x => { x with shortSegs := if short then satAdd 16 x.shortSegs 1 else x.shortSegs }
    let kept := (sortRecs (cwKt b) (cwDir b) rs).take (cwK b)
    pushRun a (dOf op.word) op.t op.place (cwLong b) (fun m => op.t + 12 + max ((g * linesOut b + m) / 2) (j / 2))
      (kept ++ List.replicate (cwK b - kept.length) fillRec) s

/-- A spill without keep completes. -/
def spillStep (a : Nat) (op : EngineOp) (s : State) : State := setSlot a (slotNo op.word) .reset s

end Sys2Proof.Machine
end

