-- ==== Sys2Proof/Machine/LadleOps.lean ====
section
/-!
DEFINITION. Compressed tiles (R314 to R320) and Ladles: mode and lanes (R325 to R327), the four walk phases (R328 to R333, R337, R338).
-/

namespace Sys2Proof.Machine

/-! ### Tiles (R314 to R319) -/

/-- An element is occupied. -/
def occupied (fmt code : Nat) : Bool := match decodeElem fmt code with | .fin _ m _ => m != 0 | _ => true

def tileForm (side : BitVec 24) : Bool := bit side 11
def tilePattern (side : BitVec 24) : Nat := fld side 10 5
def sideCount (side : BitVec 24) : Nat := fld side 4 0 + 1
def sideFormat (side : BitVec 24) : Nat := fld side 15 12

/-- N, M and index bits of a structured pattern. -/
def patternOf : Nat → Option (Nat × Nat × Nat)
  | 1 => some (2, 4, 2) | 2 => some (1, 4, 2) | 3 => some (1, 8, 4) | 4 => some (1, 16, 4) | _ => none

/-- Dense lines a tile stands for, by its first line. -/
def denseLines (l : Line) : Nat := if tileForm l.side then (lineByte l.data 0).toNat % 32 + 1 else sideCount l.side

/-- The bytes of a tile's lines; a missing line gives zeros. -/
def tileBytes (ls : List (Option Line)) : List Byte :=
  ls.flatMap fun l => match l with | some l => lineBytes l.data | none => List.replicate 128 0

/-- Bytes as one number, least significant first. -/
def bytesNat (bs : List Byte) : Nat := leNat bs

/-- Bytes of a map region. -/
def mapSize (pattern e : Nat) : Nat :=
  match patternOf pattern with
  | some (n, m, ib) => (e * n / m * ib + 127) / 128 * 16
  | none => (e + 127) / 128 * 16

/-- Value slots of a compressed tile of e dense elements with its map. -/
def slotCount (pattern e : Nat) (map : Nat) : Nat :=
  match patternOf pattern with
  | some (n, m, _) => e * n / m
  | none => ((List.range e).filter map.testBit).length

/-- The dense position of each value slot. -/
def slotPositions (pattern e : Nat) (map : Nat) : List Nat :=
  match patternOf pattern with
  | some (n, m, ib) => (List.range (e * n / m)).map fun k => m * (k / n) + map / 2 ^ (ib * k) % 2 ^ ib
  | none => (List.range e).filter map.testBit

/-- Lines of a compressed tile. -/
def compressedLines (fmt pattern e slots : Nat) : Nat := (16 + mapSize pattern e + (slots * elemBits fmt + 7) / 8 + 127) / 128

/-- The dense elements a tile stands for, read in a format (R316, R318). -/
def denseElems (fmt : Nat) (ls : List (Option Line)) : List Nat :=
  match ls with
  | some l :: _ =>
    if tileForm l.side then
      let bs := tileBytes ls
      let e := denseLines l * elemsPerLine fmt
      let pat := tilePattern l.side
      let map := bytesNat ((bs.drop 16).take (mapSize pat e))
      let vals := bytesNat (bs.drop (16 + mapSize pat e))
      let pos := slotPositions pat e map
      let w := elemBits fmt
      let placed : Tab Nat := (pos.zip (List.range pos.length)).map fun x => (x.1, vals / 2 ^ (w * x.2) % 2 ^ w)
      (List.range e).map fun k => tget 0 (placed.filter fun x => x.2 != 0) k
    else ls.flatMap fun l => match l with | some l => codesOf (elemBits fmt) l.data | none => List.replicate (elemsPerLine fmt) 0
  | _ => ls.flatMap fun l => match l with | some l => codesOf (elemBits fmt) l.data | none => List.replicate (elemsPerLine fmt) 0

/-- The header is malformed (R315); no tile of raw bits is compressed (R314). -/
def headerMalformed (side : BitVec 24) : Bool :=
  if tileForm side then decide (4 < tilePattern side) || decide (8 ≤ sideFormat side) else tilePattern side != 0

/-- Two slots of one block name the same position. -/
def slotsClash (pattern e map : Nat) : Bool :=
  (patternOf pattern).isSome && !(slotPositions pattern e map).Nodup

/-- What the lines of a tile at hand show against it (R315, R319). -/
def tileFault (ls : List Line) : Bool :=
  match ls with
  | [] => false
  | l :: _ =>
    headerMalformed l.side ||
    (tileForm l.side &&
      (let fmt := sideFormat l.side
       let pat := tilePattern l.side
       let nd := denseLines l
       let e := nd * elemsPerLine fmt
       let bs := ls.flatMap fun x => lineBytes x.data
       let map := bytesNat ((bs.drop 16).take (mapSize pat e))
       let whole := decide (16 + mapSize pat e ≤ bs.length)
       let lc := compressedLines fmt pat e (slotCount pat e map)
       bytesNat (bs.take 16) / 32 != 0 || decide (nd ≤ sideCount l.side) ||
         (whole && (lc != sideCount l.side || decide (nd ≤ lc) || slotsClash pat e map))))

/-- The first tiles of a row of lines, n at most. -/
def tilesOf : Nat → List Line → List (List Line)
  | 0, _ => []
  | _, [] => []
  | n + 1, l :: ls => (l :: ls).take (sideCount l.side) :: tilesOf n (ls.drop (sideCount l.side - 1))

/-- The lines of the tile at the head of an end that have arrived. -/
def headTile (s : State) (a e : Nat) : List Line := (tilesOf 1 (endLines s a e)).flatten

/-- A tile of which some lines have been taken, with those that wait at its end; nothing where a line of it was never taken. -/
def tileAt (s : State) (a e : Nat) (got : List (Option Line)) : List Line :=
  if got.all Option.isSome then (tilesOf 1 (got.filterMap id ++ endLines s a e)).flatten else []

/-- A tile packed under R317: its lines, and whether it is in bitmap form. -/
def packTile (fmt : Nat) (dense : Bool) (es : List Nat) : List LineData × Bool :=
  let n := (es.length + elemsPerLine fmt - 1) / elemsPerLine fmt
  let occ := (List.range es.length).filter fun k => occupied fmt (es.getD k 0)
  let lc := compressedLines fmt 0 es.length occ.length
  if !dense && decide (lc < n) && decide (fmt < 8) then
    let w := elemBits fmt
    let map := (occ.map (2 ^ ·)).sum
    let vals := occ.foldr (fun k acc => es.getD k 0 + 2 ^ w * acc) 0
    let bs := leBytes 16 (n - 1) ++ leBytes (mapSize 0 es.length) map ++ leBytes ((occ.length * w + 7) / 8) vals
    ((pieces 128 32 bs).map lineOf, true)
  else ((List.range n).map fun j => lineOfCodes (elemBits fmt) ((es.drop (j * elemsPerLine fmt)).take (elemsPerLine fmt)), false)

/-! ### Mode and lanes (R325 to R327) -/

/-- Depth D of a pair of formats (R321). -/
def depthOf (fa fw : Nat) : Nat := 1024 / max (elemBits fa) (elemBits fw)

def modeFw (m : Word) : Nat := fld m 11 8
def modeFa (m : Word) : Nat := fld m 7 4
/-- Lanes allotted to each group by a code. -/
def allotOf (code : Nat) : Nat := 32 / 2 ^ code
def modeDepth (m : Word) : Nat := depthOf (modeFa m) (modeFw m)
/-- Groups, and dense positions S, of a pass. -/
def passGroups (m : Word) : Nat := modeDepth m / allotOf (fld m 2 0)
def passSpan (m : Word) : Nat := 32 * passGroups m

def walkKinds : List EngineKind := [.laMap, .laPass, .laMerge, .laSkim]

/-- la.mode: the mode word at issue + 1. -/
def laMode (a : Nat) (w : Word) (place : Nat) (s : State) : Except Nat State :=
  let m := scalarSrc s a (aOf w)
  if 4 < fld m 2 0 || 8 ≤ modeFw m || 8 ≤ modeFa m then .error bound
  else if !(openOps s a walkKinds).isEmpty then .error conflict
  else .ok (startOp a (newOp .laMode a w place [(s.clk + 1, .act 0)] (s.clk + 1) s) s)

/-- The mode word takes effect. -/
def modeStep (a : Nat) (op : EngineOp) (s : State) : State :=
  s.setLadle a fun x => { x with mode := BitVec.ofNat 64 (fld op.sa 11 4 * 16 + fld op.sa 2 0) }

/-- The positions of a group's lanes (R327): the lowest set bits of the AND, and how many were dropped. -/
def groupLanes (allot g : Nat) (x w : List Bool) : List (Option Nat) × Nat :=
  let hits := ((List.range 32).map (32 * g + ·)).filter fun p => x.getD p false && w.getD p false
  (((hits.take allot).map some) ++ List.replicate (allot - hits.length) none, hits.length - allot)

/-! ### Walks (R328) -/

/-- The control word of a la.walk. -/
def walkCtl (s : State) (a : Nat) (w : Word) : Word := scalarReg s a (immOf w / 8 % 8)

/-- A la.walk's operation. -/
def walkOp (kind : EngineKind) (a : Nat) (w : Word) (place : Nat) (agenda : List (Nat × EngineStep)) (finish : Nat) (s : State) : EngineOp :=
  { newOp kind a w place agenda finish s with sb := walkCtl s a w }

/-- Another la.walk holds the Ladle. -/
def walkBusy (s : State) (a : Nat) : Bool := !(openOps s a walkKinds).isEmpty

/-! ### MAP (R329) -/

/-- Lines of a map tile. -/
def mapLines (m : Word) : Nat := (passSpan m + 1023) / 1024

/-- Lines a MAP takes. -/
def mapTotal (m ctl : Word) : Nat := (if bit ctl 0 then 0 else mapLines m) + (if bit ctl 1 then 0 else mapLines m)

def mapFinish (m ctl : Word) (t : Nat) : Nat := t + (mapTotal m ctl + 1) / 2 + 2 + (passSpan m + 127) / 128

/-- The end that line j of a MAP comes from, and whether it is a first line. -/
def mapSource (m ctl : Word) (w : Word) (j : Nat) : Nat × Bool :=
  let nx := if bit ctl 0 then 0 else mapLines m
  if j < nx then (aOf w, j == 0) else (bOf w, j == nx)

/-- A map tile's header is wrong: its lines, its format, or malformed. -/
def mapTileBad (m : Word) (l : Line) : Bool :=
  sideCount l.side != mapLines m || sideFormat l.side != 8 || headerMalformed l.side

/-- The first lines of the map tiles that a MAP will take, where they stand at their ends. -/
def mapHeads (s : State) (a : Nat) (ctl w : Word) : List Line :=
  let x := if bit ctl 0 then [] else headTile s a (aOf w)
  let y := if bit ctl 1 then []
    else if !bit ctl 0 && aOf w == bOf w then ((tilesOf 2 (endLines s a (bOf w))).drop 1).flatten
    else headTile s a (bOf w)
  x.take 1 ++ y.take 1

/-- la.walk MAP: both its tiles are judged at issue. -/
def laMap (a : Nat) (w : Word) (place : Nat) (s : State) : Except Nat State :=
  let m := (s.ladle a).mode
  let ctl := walkCtl s a w
  let n := mapTotal m ctl
  if walkBusy s a then .error conflict
  else if (mapHeads s a ctl w).any (mapTileBad m) then .error bound
  else
    let fin := mapFinish m ctl s.clk
    .ok (startOp a (walkOp .laMap a w place ((List.range n).map (fun j => (s.clk + j / 2, .act j)) ++ [(fin, .act 65536)]) fin s) s)

/-- The lane map of a MAP's lines, and the positions dropped. -/
def buildMap (m ctl : Word) (ordinal : Nat) (taken : List (Option Line)) : LaneMap × Nat :=
  let lm := mapLines m
  let span := passSpan m
  let side (all : Bool) (ls : List (Option Line)) : List Bool :=
    if all then List.replicate span true
    else (List.range span).map fun i => match ls.getD (i / 1024) none with | some l => bit l.data (i % 1024) | none => false
  let nx := if bit ctl 0 then 0 else lm
  let xs := side (bit ctl 0) (taken.take nx)
  let ws := side (bit ctl 1) (taken.drop nx)
  let allot := allotOf (fld m 2 0)
  let gs := (List.range (passGroups m)).map fun g => groupLanes allot g xs ws
  ({ g0 := fld ctl 63 32, alloc := fld m 2 0, fa := modeFa m, fw := modeFw m, ordinal := ordinal, pos := gs.flatMap (·.1), xbits := xs,
     wbits := ws }, (gs.map (·.2)).sum)

/-- A step of a MAP: a line taken, or the map ready. -/
def mapWalkStep (a : Nat) (op : EngineOp) (j c : Nat) (s : State) : State :=
  let m := (s.ladle a).mode
  if j = 65536 then
    let ord := ((s.ladle a).ordinal + 1) % 65536
    let (lm, lost) := buildMap m op.sb ord op.taken
    s.setLadle a fun x => { x with map := some lm, ordinal := ord, dropped := satAdd 16 x.dropped lost }
  else
    let (e, first) := mapSource m op.sb op.word j
    if first && popReady s a e c && ((endLines s a e).head?.map (mapTileBad m)).getD false then
      opCancel a bound op op.finish c s
    else opPop a op e c s

/-! ### PASS (R330, R331) -/

/-- Lines allowed per vector, and vectors. -/
def passLb (ctl : Word) : Nat := fld ctl 15 8 + 1
def passVecs (ctl : Word) : Nat := fld ctl 7 0 + 1
/-- The pass feeds the activation input. -/
def passAct (w : Word) : Bool := immOf w / 4 % 2 == 1

/-- Clk at which vector v is pushed to the path. -/
def passEmit (ctl : Word) (t v : Nat) : Nat := t + 4 + max (v + 1) (((v + 1) * passLb ctl + 1) / 2)

/-- Completion: the last push. -/
def passFinish (ctl : Word) (t : Nat) : Nat := passEmit ctl t (passVecs ctl - 1)

/-- Agenda of a PASS: lines by their nominal number, then each vector's push (65,536 + v), in order of clk. -/
def passAgenda (ctl : Word) (t : Nat) : List (Nat × EngineStep) :=
  let n := passVecs ctl * passLb ctl
  (List.range (passFinish ctl t - t + 1)).flatMap fun c =>
    ([2 * c, 2 * c + 1].filter (· < n)).map (fun q => (t + c, EngineStep.act q)) ++
      ((List.range (passVecs ctl)).filter fun v => passEmit ctl t v == t + c).map fun v => (t + c, EngineStep.act (65536 + v))

/-- A vector of which these lines have been taken is whole: its last line is in. -/
def tileEnded (ls : List (Option Line)) : Bool := ls.any fun l => match l with | some l => bit l.side 22 | none => false

/-- Lines of vector v taken so far. -/
def vecLines (op : EngineOp) (v : Nat) : List (Option Line) := (op.taken.drop (v * passLb op.sb)).take (passLb op.sb)

/-- The clk in which a PASS takes its last line, as far as is known. -/
def passLastTake (o : EngineOp) : Nat :=
  let v := passVecs o.sb - 1
  let lb := passLb o.sb
  let got := vecLines o v
  let n := if tileEnded got then ((got.takeWhile fun l => match l with | some l => !bit l.side 22 | none => true).length + 1) else lb
  o.t + (v * lb + n - 1) / 2

/-- A vector tile has more lines than a PASS allows (R330). -/
def overlong (lb : Nat) (l : Line) : Bool := decide (lb < sideCount l.side) && !headerMalformed l.side

/-- Of the tiles a PASS will take, one is at fault (R319); the tiles from an overlong one on are not looked at. -/
def passFault (lb : Nat) (ts : List (List Line)) : Bool :=
  (ts.takeWhile fun t => !(t.take 1).any (overlong lb)).any tileFault

/-- la.walk PASS: the tiles that stand at its end are judged at issue. -/
def laPass (a : Nat) (w : Word) (place : Nat) (s : State) : Except Nat State :=
  let ctl := walkCtl s a w
  let held := (openOps s a walkKinds).any fun o => o.kind != .laPass || decide (s.clk ≤ passLastTake o)
  if held then .error conflict
  else if (s.ladle a).map.isNone || passFault (passLb ctl) (tilesOf (passVecs ctl) (endLines s a (aOf w))) then .error bound
  else .ok (startOp a (walkOp .laPass a w place (passAgenda ctl s.clk) (passFinish ctl s.clk) s) s)

/-- The compacted vector of a tile under a lane map: its codes, tagged groups, and finite elements outside its own map. -/
def compact (m : LaneMap) (act : Bool) (fmt : Nat) (ls : List (Option Line)) : List Nat × List Nat × Nat :=
  let es := denseElems fmt ls
  let own := if act then m.xbits else m.wbits
  let emitted := m.pos.filterMap id
  let left := (List.range own.length).filter fun p => occupied fmt (es.getD p 0) && !emitted.contains p
  let special := left.filter fun p => match decodeElem fmt (es.getD p 0) with | .fin _ _ _ => false | _ => true
  let outside := left.filter fun p => !special.contains p && !own.getD p false
  (m.pos.map (fun p => match p with | some p => es.getD p 0 | none => 0), (special.map (· / 32)).eraseDups, outside.length)

/-- Vector v reaches the path; a path that holds 32 vectors is full. -/
def emitVec (a : Nat) (op : EngineOp) (v c : Nat) (s : State) : State :=
  match (s.ladle a).map with
  | none => s
  | some m =>
    let act := passAct op.word
    let (es, tags, outside) := compact m act (if act then m.fa else m.fw) (vecLines op v)
    let s := s.setLadle a fun x =>
      { x with specials := satAdd 16 x.specials tags.length, outside := satAdd 16 x.outside outside }
    let r : PathVec := { since := c + 2, ordinal := m.ordinal, g0 := m.g0, alloc := m.alloc, fa := m.fa, fw := m.fw, elems := es, tags := tags }
    let path := if act then (s.ladle a).pathA else (s.ladle a).pathW
    if 32 ≤ path.length then violateClk a pushFull op.place c s
    else s.setLadle a fun x => if act then { x with pathA := x.pathA ++ [r] } else { x with pathW := x.pathW ++ [r] }

/-- A step goes into an agenda after those of its clk and of earlier ones. -/
def insertStep (x : Nat × EngineStep) : List (Nat × EngineStep) → List (Nat × EngineStep)
  | [] => [x]
  | y :: ys => if y.1 ≤ x.1 then y :: insertStep x ys else x :: y :: ys

/-- A vector tile of more lines than allowed, vector v, is taken whole; the vectors before it still go out, and from it on nothing more
is taken or emitted (R330). -/
def passOverlong (a : Nat) (op : EngineOp) (q n c : Nat) (s : State) : State :=
  let more := ((List.range n).drop 1).map fun j => (op.t + (q + j) / 2, EngineStep.pop (aOf op.word))
  let v := q / passLb op.sb
  let before := op.agenda.filter fun x => match x.2 with | .act k => decide (65536 ≤ k) && decide (k < 65536 + v) | .pop _ => false
  modOp a op.t (fun o => { o with agenda := more.foldl (fun l x => insertStep x l) before, finish := max o.finish (op.t + (q + n) / 2) })
    (opPop a op (aOf op.word) c (violateClk a bound op.place c s))

/-- A step of a PASS: nominal line q, or vector v's push (65,536 + v). -/
def passStep (a : Nat) (op : EngineOp) (n c : Nat) (s : State) : State :=
  if 65536 ≤ n then emitVec a op (n - 65536) c s
  else
    let e := aOf op.word
    let got := vecLines op (n / passLb op.sb)
    if tileEnded got then opSkip a op s
    else if !popReady s a e c then opPop a op e c s
    else match tileAt s a e got with
      | [] => opPop a op e c s
      | l :: ls =>
        if got.isEmpty && overlong (passLb op.sb) l then passOverlong a op n (sideCount l.side) c s
        else if tileFault (l :: ls) then opCancel a bound op op.finish c s
        else opPop a op e c s

/-! ### MERGE (R333) -/

def mgN0 (ctl : Word) : Nat := fld ctl 63 32
def mgFmt (ctl : Word) : Nat := fld ctl 31 28
def mgLines (ctl : Word) : Nat := fld ctl 4 0 + 1

/-- The input ends in order, each with whether it is an index tile. -/
def mergeEnds (ctl w : Word) : List (Nat × Bool) :=
  (if bit ctl 19 then [(fld ctl 26 24, true)] else []) ++ [(aOf w, false)] ++
    (if bit ctl 18 then [(fld ctl 22 20, true), (bOf w, false)] else [])

/-- Dense lines of an input by its first line; one where no line came. -/
def inputLines (l : Option Line) : Nat := match l with | some l => denseLines l | none => 1

/-- The input to which the next line belongs: its place in the order, its end and its lines so far; none when all are in. -/
def mergeNext : Nat → List (Nat × Bool) → List (Option Line) → Option (Nat × Nat × List (Option Line))
  | _, [], _ => none
  | k, e :: es, ts =>
    match ts with
    | [] => some (k, e.1, [])
    | l :: _ => if ts.length < inputLines l then some (k, e.1, ts) else mergeNext (k + 1) es (ts.drop (inputLines l))

/-- The lines of each input. -/
def mergeSplit : List (Nat × Bool) → List (Option Line) → List (List (Option Line))
  | [], _ => []
  | _ :: es, ts =>
    match ts with
    | [] => [] :: mergeSplit es []
    | l :: _ => ts.take (inputLines l) :: mergeSplit es (ts.drop (inputLines l))

/-- An input's tile is against the control word: a malformed tile, a value tile of another format, a dense source of another size. -/
def mergeTileBad (ctl w : Word) (k : Nat) (ls : List Line) : Bool :=
  match (mergeEnds ctl w)[k]?, ls with
  | some (_, idx), l :: _ =>
    tileFault ls || (!idx && sideFormat l.side != mgFmt ctl) || (!idx && k == 0 && denseLines l != mgLines ctl)
  | _, _ => false

/-- One of the tiles a MERGE will take stands at its end and is against the control word; an end that gives several inputs gives them one
tile after the other. -/
def mergeFault (s : State) (a : Nat) (ctl w : Word) : Bool :=
  let es := mergeEnds ctl w
  (List.range es.length).any fun k =>
    let e := (es.getD k (0, false)).1
    let n := ((es.take k).filter fun x => x.1 == e).length
    mergeTileBad ctl w k ((tilesOf (n + 1) (endLines s a e)).getD n [])

/-- la.walk MERGE: the tiles that stand at its ends are judged at issue. A format that R204 keeps reserved is a BOUND (log entry 36). -/
def laMerge (a : Nat) (w : Word) (place : Nat) (s : State) : Except Nat State :=
  let ctl := walkCtl s a w
  if 8 < mgFmt ctl then .error bound
  else if walkBusy s a then .error conflict
  else if mergeFault s a ctl w then .error bound
  else .ok (startOp a (walkOp .laMerge a w place [(s.clk, .act 0)] (s.clk + 2 ^ 32) s) s)

/-- One indexed stream: what it names by position, and the indexes left out. -/
def indexed (n0 e : Nat) : Option Nat → List (Nat × Nat) → Tab Nat × Nat
  | _, [] => ([], 0)
  | last, (i, v) :: rest =>
    if i = 0xFFFFFFFF then indexed n0 e last rest
    else
      let (m, out) := indexed n0 e (some i) rest
      let above := match last with | some l => decide (l < i) | none => true
      if above && decide (n0 ≤ i) && decide (i < n0 + e) then (tset m (i - n0) v, out) else (m, out + 1)

/-- The pairs of an index tile and its value tile. -/
def pairsOf (fmt : Nat) (idx vals : List (Option Line)) : List (Nat × Nat) :=
  let is := idx.flatMap fun l => match l with | some l => codesOf 32 l.data | none => List.replicate 32 0xFFFFFFFF
  let vs := denseElems fmt vals
  (List.range is.length).zip is |>.map fun e => (e.2, vs.getD e.1 0)

/-- What each source names, and the indexes left out. -/
def mergeSources (ctl w : Word) (taken : List (Option Line)) : Tab Nat × Tab Nat × Nat :=
  let fmt := mgFmt ctl
  let e := mgLines ctl * elemsPerLine fmt
  let ins := mergeSplit (mergeEnds ctl w) taken
  let ka := bit ctl 19
  let (ma, oa) : Tab Nat × Nat :=
    if ka then indexed (mgN0 ctl) e none (pairsOf fmt (ins.getD 0 []) (ins.getD 1 []))
    else
      let es := denseElems fmt (ins.getD 0 [])
      (((List.range es.length).zip es).filter fun x => if fmt = 8 then x.2 != 0 else occupied fmt x.2, 0)
  let b := if ka then 2 else 1
  let (mb, ob) : Tab Nat × Nat :=
    if bit ctl 18 then indexed (mgN0 ctl) e none (pairsOf fmt (ins.getD b []) (ins.getD (b + 1) [])) else ([], 0)
  (ma, mb, oa + ob)

/-- All lines are in: the output tile is packed and pushed. -/
def mergeOut (a : Nat) (op : EngineOp) (s : State) : State :=
  let ctl := op.sb
  let fmt := mgFmt ctl
  let (ma, mb, out) := mergeSources ctl op.word op.taken
  let es := (List.range (mgLines ctl * elemsPerLine fmt)).map fun k => match tget? ma k with | some v => v | none => tget 0 mb k
  let both := (ma.filter fun x => (tget? mb x.1).isSome).length
  let (ls, packed) := packTile fmt (bit ctl 17) es
  let base := op.t + (op.taken.length + 1) / 2 + 6
  let s := s.setLadle a fun x => { x with outside := satAdd 16 x.outside out, collisions := satAdd 16 x.collisions both }
  let s := modOp a op.t (fun o => { o with finish := base + ls.length - 1 }) s
  each ((List.range ls.length).zip ls) (fun e s =>
    let side := tileSide fmt e.1 ls.length ||| (if packed && e.1 == 0 then 0x800#24 else 0#24)
    putPush a (dOf op.word) (base + e.1) op.t op.place { bareLine e.2 with side := side } s) s

/-- The operation now held for an issue clk. -/
def opAt (s : State) (a t : Nat) (old : EngineOp) : EngineOp := ((s.station a).ops.find? (·.t == t)).getD old

/-- Nominal line q of a MERGE in clk c. -/
def mergeWalkStep (a : Nat) (op : EngineOp) (q c : Nat) (s : State) : State :=
  match mergeNext 0 (mergeEnds op.sb op.word) op.taken with
  | none => s
  | some (k, e, got) =>
    if !tileEnded got && popReady s a e c && mergeTileBad op.sb op.word k (tileAt s a e got) then opCancel a bound op c c s
    else
      let s := if tileEnded got then opSkip a op s else opPop a op e c s
      let op' := opAt s a op.t op
      match mergeNext 0 (mergeEnds op.sb op.word) op'.taken with
      | some _ => modOp a op.t (fun o => { o with agenda := o.agenda ++ [(op.t + (q + 1) / 2, .act (q + 1))] }) s
      | none => mergeOut a op' s

/-! ### SKIM (R337, R338) -/

/-- Word i of a layer entry as the image gives it (R334). -/
def layerWord (s : State) (l i : Nat) : Word := s.cfgw (tbKey 11 (64 * l + 8 * i))
def lyValid (s : State) (l : Nat) : Bool := bit (layerWord s l 0) 63
def lyPolicy (s : State) (l : Nat) : Nat := fld (layerWord s l 0) 62 61
/-- B of R338. -/
def lyBudget (s : State) (l : Nat) : Nat := fld (layerWord s l 0) 59 50 + 1
def lyWarn (s : State) (l : Nat) : Nat := fld (layerWord s l 0) 49 32
def lyTau (s : State) (l : Nat) : Nat := fld (layerWord s l 0) 31 0
def lyNeurons (s : State) (l : Nat) : Nat := fld (layerWord s l 1) 51 32 + 1

def skN0 (ctl : Word) : Nat := fld ctl 63 32
def skLayer (ctl : Word) : Nat := fld ctl 15 8
def skLines (ctl : Word) : Nat := fld ctl 4 0 + 1
/-- The SKIM pushes the list: closing, under MAKEUP, to a queue. -/
def skEmits (s : State) (ctl w : Word) : Bool := bit ctl 16 && lyPolicy s (skLayer ctl) == 2 && dOf w != 24
/-- Index lines of the list. -/
def skListLines (s : State) (ctl : Word) : Nat := (lyBudget s (skLayer ctl) + 31) / 32
/-- Clk from which the list is pushed. -/
def skFirst (ctl : Word) (t : Nat) : Nat := t + (skLines ctl + 2) / 2 + 4
def skFinish (s : State) (ctl w : Word) (t : Nat) : Nat :=
  if skEmits s ctl w then skFirst ctl t + skListLines s ctl - 1 else skFirst ctl t

/-- A tile that a SKIM will take stands at its end and is at fault (R319). -/
def skimFault (s : State) (a : Nat) (w : Word) : Bool :=
  tileFault (headTile s a (bOf w)) ||
    tileFault (if aOf w = bOf w then ((tilesOf 2 (endLines s a (aOf w))).drop 1).flatten else headTile s a (aOf w))

/-- la.walk SKIM. -/
def laSkim (a : Nat) (w : Word) (place : Nat) (s : State) : Except Nat State :=
  let ctl := walkCtl s a w
  let l := skLayer ctl
  if !lyValid s l || lyPolicy s l == 0 || (dOf w != 24 && !skEmits s ctl w) || decide (lyNeurons s l < skN0 ctl + 32 * skLines ctl) then
    .error bound
  else if walkBusy s a then .error conflict
  else if skimFault s a w then .error bound
  else
    let n := skLines ctl
    let fin := skFinish s ctl w s.clk
    .ok (startOp a (walkOp .laSkim a w place
      ((s.clk, .act 0) :: (List.range n).map (fun j => (s.clk + (j + 1) / 2, .act (j + 1))) ++ [(s.clk + (n + 1) / 2, .act 65536), (fin, .act 65537)])
      fin s) s)

/-- Missed neurons of a SKIM's lines, ascending. -/
def misses (tau : Nat) (ctl : Word) (taken : List (Option Line)) : List Nat :=
  let vals := taken.drop 1
  let es := denseElems 0 vals
  let packed := match vals with | some l :: _ => tileForm l.side | _ => false
  let t := decodeElem 0 tau
  ((List.range es.length).filter fun k =>
    let set := match taken.head? with | some (some l) => bit l.data k | _ => false
    let there := packed || (vals.getD (k / 32) none).isSome
    let v := decodeElem 0 (es.getD k 0)
    !set && there && (v == .nan || (t != .nan && decide (0 ≤ cmpNum v t)))).map (skN0 ctl + ·)

/-- The open list of a layer with the misses of a SKIM. -/
def joinList (s : State) (a l : Nat) (ms : List Nat) : List Nat := (((s.ladle a).openList l).2 ++ ms).take (lyBudget s l)

/-- A list closes: the layer's counters (R338). -/
def closeList (l m : Nat) (s : State) : State :=
  let b := lyBudget s l
  let make := lyPolicy s l == 2
  s.setLayer l fun x =>
    { x with detected := satAdd 32 x.detected m, madeUp := if make then satAdd 32 x.madeUp (min m b) else x.madeUp,
             lost := if make then satAdd 32 x.lost (m - b) else x.lost, warnFlag := x.warnFlag || decide (lyWarn s l < m) }

/-- A step of a SKIM: a line taken, the list pushed, or the counters updated at completion. -/
def skimStep (a : Nat) (op : EngineOp) (j c : Nat) (s : State) : State :=
  let ctl := op.sb
  let l := skLayer ctl
  let ms := misses (lyTau s l) ctl op.taken
  if j = 65536 then
    if skEmits s ctl op.word then
      let list := joinList s a l ms
      let cs := list ++ List.replicate (32 * skListLines s ctl - list.length) 0xFFFFFFFF
      pushTile a (dOf op.word) op.t op.place 8 (skFirst ctl op.t + ·)
        ((List.range (skListLines s ctl)).map fun k => lineOfCodes 32 ((cs.drop (32 * k)).take 32)) s
    else s
  else if j = 65537 then
    let found := ((s.ladle a).openList l).1 + ms.length
    let s := if bit ctl 16 then closeList l found s else s
    let list := joinList s a l ms
    s.setLadle a fun x =>
      { x with skimLayer := l, lists := if bit ctl 16 then x.lists.filter (fun e => e.1 != l) else tset x.lists l (found % 2 ^ 32, list) }
  else if j = 0 then
    if popReady s a (bOf op.word) c && tileFault (headTile s a (bOf op.word)) then opCancel a bound op op.finish c s
    else opPop a op (bOf op.word) c s
  else if tileEnded (op.taken.drop 1) then opSkip a op s
  else if popReady s a (aOf op.word) c && tileFault (tileAt s a (aOf op.word) (op.taken.drop 1)) then opCancel a bound op op.finish c s
  else opPop a op (aOf op.word) c s

/-- Completion clk of a Ladle instruction issued at t and suppressed (R230). -/
def ladleFinish (s : State) (a : Nat) (w : Word) (t : Nat) : Nat :=
  if opOf w = 0x40 then t + 1
  else
    let ctl := walkCtl s a w
    match immOf w % 4 with
    | 0 => mapFinish (s.ladle a).mode ctl t
    | 1 => passFinish ctl t
    | 2 => t
    | _ => skFinish s ctl w t

end Sys2Proof.Machine
end

