-- ==== Sys2Proof/Machine/MouldOps.lean ====
section
/-!
DEFINITION. Moulds: weight banks, multiply-accumulate into accumulator rows, drains (R321 to R324, R331).
-/

namespace Sys2Proof.Machine

def bankOf (s : State) (a k : Nat) : Bank := tget .reset (s.mould a).banks k
def setBank (a k : Nat) (f : Bank → Bank) (s : State) : State := s.setMould a fun x => { x with banks := tmod .reset x.banks k f }
def rowOf (s : State) (a r : Nat) : AccRow := tget .reset (s.mould a).rows r
def setRow (a r : Nat) (f : AccRow → AccRow) (s : State) : State := s.setMould a fun x => { x with rows := tmod .reset x.rows r f }

/-- The Ladle of a Mould's bay. -/
def ladleOf (a : Nat) : Nat := 256 * bayOf a + 0x40

/-- The Ladle path is the source. -/
def fromLadle (w : Word) : Bool := immOf w % 2 == 1

/-- Take the head of a Ladle path in clk c (R330); none where no vector has entered before c. -/
def takePath (a : Nat) (act : Bool) (c : Nat) (s : State) : Option PathVec × State :=
  let l := s.ladle (ladleOf a)
  match if act then l.pathA else l.pathW with
  | v :: rest =>
    if v.since < c then
      (some v, s.setLadle (ladleOf a) fun x => if act then { x with pathA := rest } else { x with pathW := rest })
    else (none, s)
  | [] => (none, s)

/-! ### mo.wload (R322, R324) -/

def wlBank (sb : Word) : Nat := fld sb 8 8
def wlFa (sb : Word) : Nat := fld sb 7 4
def wlFw (sb : Word) : Nat := fld sb 3 0
/-- Lines of a block. -/
def blockLines (fa fw : Nat) : Nat := 64 * elemBits fw / max (elemBits fa) (elemBits fw)

def wloadFinish (w sb : Word) (t : Nat) : Nat := if fromLadle w then t + 66 else t + (blockLines (wlFa sb) (wlFw sb) - 1) / 2 + 2

/-- The bank an operation of a Mould uses. -/
def bankUsed (o : EngineOp) : Nat := if o.kind == .moWload then wlBank o.sb else fld o.sb 16 16

/-- mo.wload. -/
def moWload (a : Nat) (w : Word) (place : Nat) (s : State) : Except Nat State :=
  let sb := scalarSrc s a (bOf w)
  let k := wlBank sb
  let fin := wloadFinish w sb s.clk
  if !fromLadle w && (decide (8 ≤ wlFa sb) || decide (8 ≤ wlFw sb)) then .error bound
  else if (openOps s a [.moWload, .moMac]).any (bankUsed · == k) then .error conflict
  else
    let steps := if fromLadle w then (List.range 64).map fun c => (s.clk + c, EngineStep.act c)
      else (List.range (blockLines (wlFa sb) (wlFw sb))).map fun j => (s.clk + j / 2, EngineStep.pop (aOf w))
    let op := newOp .moWload a w place (steps ++ [(fin, .act 65536)]) fin s
    .ok (startOp a op (setBank a k (fun _ => { Bank.reset with ladle := fromLadle w, fa := if fromLadle w then 0 else wlFa sb,
                                                               fw := if fromLadle w then 0 else wlFw sb }) s))

/-- The columns of a block from its lines: a suppressed line is zero. -/
def blockCols (fa fw : Nat) (taken : List (Option Line)) : Tab (List Nat) :=
  let codes := taken.flatMap fun l => match l with
    | some l => codesOf (elemBits fw) l.data
    | none => List.replicate (elemsPerLine fw) 0
  let d := depthOf fa fw
  (List.range 64).map fun c => (c, (codes.drop (c * d)).take d)

/-- A step of a mo.wload: column n from the Ladle path, or the block in place. -/
def wloadStep (a : Nat) (op : EngineOp) (n c : Nat) (s : State) : State :=
  let k := wlBank op.sb
  if n = 65536 then
    setBank a k (fun b => { b with loaded := true, cols := if fromLadle op.word then b.cols else blockCols b.fa b.fw op.taken }) s
  else match takePath a false c s with
    | (none, s) => violateClk a popEmpty op.place c s
    | (some v, s) =>
      setBank a k (fun b =>
        let first := b.cols.isEmpty
        { b with cols := tset b.cols n v.elems, tags := tset b.tags n v.tags, alloc := if first then v.alloc else b.alloc,
                 fa := if first then v.fa else b.fa, fw := if first then v.fw else b.fw, g0 := if first then v.g0 else b.g0,
                 ordinal := if first then v.ordinal else b.ordinal }) s

/-! ### mo.mac (R321, R323, R324) -/

def mcG0 (sb : Word) : Nat := fld sb 63 32
def mcClear (sb : Word) : Bool := bit sb 17
def mcVecs (sb : Word) : Nat := fld sb 15 8 + 1
def mcRow (sb : Word) : Nat := fld sb 7 0

def bankDepth (b : Bank) : Nat := depthOf b.fa b.fw

/-- Groups of one vector: D/32 in queue mode, D/a through the Ladle; lanes of one group. -/
def bankGroups (b : Bank) : Nat := if b.ladle then bankDepth b / allotOf b.alloc else bankDepth b / 32
def groupWidth (b : Bank) : Nat := if b.ladle then allotOf b.alloc else 32

/-- First group of a mo.mac. -/
def macFirst (b : Bank) (sb : Word) : Nat := if b.ladle then b.g0 else mcG0 sb

/-- The last group added to a row, adds under way included. -/
def rowLast (r : AccRow) : Option Nat := match r.adds.getLast? with | some x => some x.top | none => r.lastG

/-- Vectors in one activation line. -/
def vecsPerLine (b : Bank) : Nat := max 1 (elemsPerLine b.fa / bankDepth b)

def macFinish (sb : Word) (t : Nat) : Nat := t + fld sb 15 8 + 12

/-- Agenda of a mo.mac: in each clk the row written (131,072 + j), the line popped, the vector taken. -/
def macAgenda (w sb : Word) (per t : Nat) : List (Nat × EngineStep) :=
  let n := mcVecs sb
  (List.range (n + 12)).flatMap fun c =>
    (if 12 ≤ c then [(t + c, EngineStep.act (131072 + (c - 12)))] else []) ++
      (if c < n && !fromLadle w && c % per == 0 then [(t + c, EngineStep.pop (aOf w))] else []) ++
        (if c < n then [(t + c, EngineStep.act c)] else [])

/-- The head vector of the activation path has a depth other than the bank's. -/
def pathDepthBad (s : State) (a : Nat) (b : Bank) : Bool :=
  match (s.ladle (ladleOf a)).pathA with
  | v :: _ => decide (v.since < s.clk) && depthOf v.fa v.fw != bankDepth b
  | [] => false

/-- mo.mac. -/
def moMac (a : Nat) (w : Word) (place : Nat) (s : State) : Except Nat State :=
  let sb := scalarSrc s a (bOf w)
  let k := fld sb 16 16
  let b := bankOf s a k
  let n := mcVecs sb
  let rows := (List.range n).map (mcRow sb + ·)
  if 256 < mcRow sb + n then .error bound
  else if (openOps s a [.moWload]).any (wlBank ·.sb == k) then .error conflict
  else if (openOps s a [.moMac]).any fun o => decide (s.clk < o.t + mcVecs o.sb) then .error conflict
  else if !b.loaded || b.ladle != fromLadle w || (fromLadle w && pathDepthBad s a b) then .error bound
  else if !mcClear sb && rows.any (fun r => match rowLast (rowOf s a r) with | some g => decide (macFirst b sb ≤ g) | none => false) then
    .error bound
  else
    let top := macFirst b sb + bankGroups b - 1
    let t := s.clk
    let s := startOp a (newOp .moMac a w place (macAgenda w sb (vecsPerLine b) t) (macFinish sb t) s) s
    .ok (each (List.range n) (fun j => setRow a (mcRow sb + j) fun r =>
      { r with adds := r.adds ++ [{ due := t + j + 12, top := top, clear := mcClear sb, sums := none }] }) s)

/-- The group sums of an activation vector with one column (R252 to R254, R331): a tagged group of either gives NaN. -/
def columnSums (b : Bank) (tags : List Nat) (es : List Nat) (c : Nat) : List (BitVec 32) :=
  let col := tget [] b.cols c
  let ctags := tget [] b.tags c
  let g := groupWidth b
  (List.range (bankGroups b)).map fun u =>
    if tags.contains u || ctags.contains u then f32NaN
    else groupSum ((List.range g).map fun i =>
      mulNum (decodeElem b.fa (es.getD (u * g + i) 0)) (decodeElem b.fw (col.getD (u * g + i) 0)))

/-- An add of a row that its operation put there takes its sums, or is left out. -/
def settleAdd (a r due : Nat) (sums : Option (List (List (BitVec 32)))) (s : State) : State :=
  setRow a r (fun x =>
    { x with adds := match sums with
        | some v => x.adds.map fun d => if d.due = due then { d with sums := some v } else d
        | none => x.adds.filter (·.due != due) }) s

/-- The vector is multiplied by the bank. -/
def multiply (a : Nat) (op : EngineOp) (j : Nat) (b : Bank) (tags es : List Nat) (s : State) : State :=
  settleAdd a (mcRow op.sb + j) (op.t + j + 12) (some ((List.range 64).map (columnSums b tags es)))
    (s.setMould a fun x => { x with vectors := satAdd 32 x.vectors 1 })

/-- A row is written: each group sum added in ascending group, rounded (R255). -/
def writeRow (a r due : Nat) (s : State) : State :=
  setRow a r (fun x =>
    match x.adds.find? (·.due == due) with
    | none => x
    | some d =>
      let sums := d.sums.getD []
      { vals := (List.range 64).map fun c =>
          (c, (sums.getD c []).foldl f32Add (if d.clear then 0 else tget 0 x.vals c))
        lastG := some d.top, adds := x.adds.filter (·.due != due) }) s

/-- A step of a mo.mac: vector j taken, or row j written. -/
def macStep (a : Nat) (op : EngineOp) (n c : Nat) (s : State) : State :=
  let b := bankOf s a (fld op.sb 16 16)
  if 131072 ≤ n then writeRow a (mcRow op.sb + (n - 131072)) c s
  else
    let none' := settleAdd a (mcRow op.sb + n) (op.t + n + 12) none
    if fromLadle op.word then
      match takePath a true c s with
      | (none, s) => none' (violateClk a popEmpty op.place c s)
      | (some v, s) =>
        if v.ordinal ≠ b.ordinal then none' (violateClk a bound op.place c s) else multiply a op n b v.tags v.elems s
    else
      let per := vecsPerLine b
      match op.taken.getD (n / per) none with
      | none => none' s
      | some l => multiply a op n b [] (((codesOf (elemBits b.fa) l.data).drop (n % per * bankDepth b)).take (bankDepth b)) s

/-! ### mo.drain (R324) -/

def drRows (sb : Word) : Nat := fld sb 11 8 + 1
def drRow (sb : Word) : Nat := fld sb 7 0
def drainFinish (sb : Word) (t : Nat) : Nat := t + 4 + fld sb 11 8

/-- mo.drain. -/
def moDrain (a : Nat) (w : Word) (place : Nat) (s : State) : Except Nat State :=
  let sb := scalarSrc s a (bOf w)
  if 256 < drRow sb + drRows sb then .error bound
  else .ok (startOp a (newOp .moDrain a w place ((List.range (drRows sb)).map fun j => (s.clk + 2 + j, .act j)) (drainFinish sb s.clk) s) s)

/-- Row j of a drain is read, and its two lines go out. -/
def drainStep (a : Nat) (op : EngineOp) (j c : Nat) (s : State) : State :=
  let r := drRow op.sb + j
  let x := rowOf s a r
  if x.adds.any fun d => decide (c < d.due) then violateClk a conflict op.place c s
  else
    let s := if bit op.sb 12 then setRow a r (fun y => { y with vals := [], lastG := none }) s else s
    let n := 2 * drRows op.sb
    each [0, 1] (fun h =>
      putPush a (dOf op.word) (op.t + 4 + j) op.t op.place
        { bareLine (lineOfCodes 32 ((List.range 32).map fun i => (tget 0 x.vals (32 * h + i)).toNat)) with
          side := tileSide 0 (2 * j + h) n }) s

/-- Completion clk of a Mould instruction issued at t. -/
def mouldFinish (s : State) (a : Nat) (w : Word) (t : Nat) : Nat :=
  let sb := scalarSrc s a (bOf w)
  match opOf w with
  | 0x40 => wloadFinish w sb t
  | 0x41 => macFinish sb t
  | _ => drainFinish sb t

end Sys2Proof.Machine
end

