-- ==== Sys2Proof/Machine/MemOps.lean ====
section
/-!
DEFINITION. Stacked memory: addresses (R343, R344), regions (R353), lines with their code and tag (R357 to R361), access slots (R347), the
memory-station instructions (R349, R350). SM4 is the standard's (log entry 3).
-/

namespace Sys2Proof.Machine

/-! ### The HBM cells -/

/-- A byte of HBM: an unlisted address holds zero. -/
def cellGet (m : List Host.Cell) (a : Nat) : Byte := tget 0 m a

/-- Write a byte: a zero is not listed. -/
def cellSet (m : List Host.Cell) (a : Nat) (v : Byte) : List Host.Cell := if v = 0 then tdel m a else tset m a v

/-- Write bytes from an address on. -/
def cellWrite (m : List Host.Cell) (a : Nat) : List Byte → List Host.Cell
  | [] => m
  | b :: bs => cellWrite (cellSet m a b) (a + 1) bs

/-- Read n bytes from an address on. -/
def cellRead (m : List Host.Cell) (a n : Nat) : List Byte := (List.range n).map fun i => cellGet m (a + i)

/-- The canonical form: addresses strictly rising, no byte zero. -/
def Memory.wf : List Host.Cell → Bool
  | [] => true
  | [c] => c.2 != 0
  | c :: d :: m => c.2 != 0 && decide (c.1 < d.1) && Memory.wf (d :: m)

/-! ### Addresses (R343, R344) -/

/-- Bytes of a stack. -/
def stackSize : Nat := 0x12_0000_0000
def stackOf (addr : Nat) : Nat := addr / stackSize
/-- Chunk within its stack. -/
def chunkOf (addr : Nat) : Nat := addr % stackSize / 128
def channelOf (addr : Nat) : Nat := chunkOf addr % 32
def memBank (addr : Nat) : Nat := chunkOf addr / 32 / 8 % 64
def memRow (addr : Nat) : Nat := chunkOf addr / 32 / 512
/-- Chunks of a pseudo-channel. -/
def channelChunks : Nat := 18874368

/-- An absent memory address (R2, R6, R343): of a stack the grade lacks. -/
def absentAddr (s : State) (addr : Nat) : Bool := decide (addr < 8 * stackSize) && !s.stackPresent (stackOf addr)

/-! ### Regions (R353) -/

def regionWord (s : State) (r i : Nat) : Word := s.cfgw (tbKey 12 (16 * r + 8 * i))
def regions (s : State) : List Nat := tableRows s 12 0 0x1000 16 (fun w => bit w 63)
def rgKind (s : State) (r : Nat) : Nat := fld (regionWord s r 0) 62 60
def rgDetect (s : State) (r : Nat) : Bool := bit (regionWord s r 0) 59
def rgRead (s : State) (r : Nat) : Bool := bit (regionWord s r 0) 58
def rgWrite (s : State) (r : Nat) : Bool := bit (regionWord s r 0) 57
def rgHost (s : State) (r : Nat) : Bool := bit (regionWord s r 0) 56
def rgFlask (s : State) (r : Nat) : Nat := fld (regionWord s r 0) 55 52
def rgBase (s : State) (r : Nat) : Nat := fld (regionWord s r 0) 39 0
def rgBytes (s : State) (r : Nat) : Nat := (fld (regionWord s r 1) 18 0 + 1) * 2097152

/-- The region that holds a whole span. -/
def regionOf (s : State) (addr len : Nat) : Option Nat :=
  (regions s).find? fun r => decide (rgBase s r ≤ addr) && decide (addr + len ≤ rgBase s r + rgBytes s r)

/-- A line is of detection class: its region says so (R357). -/
def lineDetect (s : State) (addr : Nat) : Bool := match regionOf s addr 1 with | some r => rgDetect s r | none => false

/-- A shakeout of the region's flask runs (R363). -/
def shaking (s : State) (r : Nat) : Bool := s.mem.shakeBusy && rgFlask s r == s.mem.shakeFlask

/-! ### The stored line (R358, R359) -/

/-- Multiply by α in GF(2^16) with x^16 + x^12 + x^3 + x + 1. -/
def gfDouble (x : BitVec 16) : BitVec 16 := if x.msb then (x <<< 1) ^^^ 0x100B#16 else x <<< 1

/-- Multiply by α^i. -/
def gfShift : Nat → BitVec 16 → BitVec 16
  | 0, x => x
  | n + 1, x => gfShift n (gfDouble x)

/-- Errors of one line by symbol position, equal positions together, none that cancel. -/
def errVec (es : List (Nat × BitVec 16)) : Tab (BitVec 16) :=
  (es.foldl (fun (m : Tab (BitVec 16)) e => tmod 0 m e.1 (· ^^^ e.2)) []).filter fun e => e.2 != 0 && decide (e.1 < 36)

/-- The syndromes S0 and S1: the code is linear, so those of the errors. -/
def syndromes (es : Tab (BitVec 16)) : BitVec 16 × BitVec 16 :=
  es.foldl (fun x e => (x.1 ^^^ e.2, x.2 ^^^ gfShift e.1 e.2)) (0, 0)

/-- ℓ in 0 to 35 with S1 = S0·α^ℓ. -/
def errorPlace (s0 s1 : BitVec 16) : Option Nat := (List.range 36).find? fun l => gfShift l s0 == s1

/-- How the decoder of a correction-class line ends. -/
inductive Decoded where
  | clean
  | corrected
  | bad
  deriving DecidableEq, Repr

/-- The decoder's result and the errors it leaves (R359). -/
def decodeErrors (es : Tab (BitVec 16)) : Decoded × Tab (BitVec 16) :=
  let (s0, s1) := syndromes es
  if s0 = 0 ∧ s1 = 0 then (.clean, es)
  else if s0 = 0 ∨ s1 = 0 then (.bad, es)
  else match errorPlace s0 s1 with
    | some l => (.corrected, errVec (es ++ [(l, s0)]))
    | none => (.bad, es)

/-- The tweak of block j. -/
def tweak (addr j : Nat) : BitVec 128 := sm4 Config.keyTweak (BitVec.ofNat 128 (addr * 2 ^ 64 + j))

/-- The ciphertext blocks of a line. -/
def cipherOf (addr : Nat) (bs : List Byte) : List (BitVec 128) :=
  (List.range 4).map fun j =>
    sm4 Config.keyData (BitVec.ofNat 128 (beNat ((bs.drop (16 * j)).take 16)) ^^^ tweak addr j) ^^^ tweak addr j

/-- T of a line's ciphertext. -/
def tagOf (addr : Nat) (detect : Bool) (cs : List (BitVec 128)) : BitVec 128 :=
  cs.foldl (fun t c => sm4 Config.keyTag (t ^^^ c))
    (sm4 Config.keyTag (BitVec.ofNat 128 (addr * 2 ^ 64 + 0x100 + (if detect then 1 else 0))))

/-- The ciphertext with errors. -/
def cipherErr (cs : List (BitVec 128)) (es : Tab (BitVec 16)) : List (BitVec 128) :=
  (List.range 4).map fun j =>
    (es.filter fun e => e.1 / 8 == j).foldl (fun c e => c ^^^ (BitVec.shiftLeft (e.2.setWidth 128) (112 - 16 * (e.1 % 8)))) (cs.getD j 0)

/-- The error in the stored tag, as the top bits of T. -/
def tagErr (detect : Bool) (es : Tab (BitVec 16)) : BitVec 128 :=
  (es.filter fun e => decide (32 ≤ e.1) && decide (e.1 < if detect then 36 else 34)).foldl
    (fun t e => t ^^^ (BitVec.shiftLeft (e.2.setWidth 128) (112 - 16 * (e.1 - 32)))) 0

/-- The tag of a line with errors passes; with none it does. -/
def tagPasses (addr : Nat) (detect : Bool) (bs : List Byte) (es : Tab (BitVec 16)) : Bool :=
  es.isEmpty ||
    (let cs := cipherOf addr bs
     let drop := if detect then 64 else 96
     (tagOf addr detect (cipherErr cs es)) >>> drop == (tagOf addr detect cs ^^^ tagErr detect es) >>> drop)

/-- The plaintext of a line with errors that its checks let pass. -/
def plainErr (addr : Nat) (bs : List Byte) (es : Tab (BitVec 16)) : List Byte :=
  if es.all fun e => decide (32 ≤ e.1) then bs
  else
    let cs := cipherErr (cipherOf addr bs) es
    (List.range 4).flatMap fun j => beBytes 16 (sm4Inv Config.keyData (cs.getD j 0 ^^^ tweak addr j) ^^^ tweak addr j).toNat

/-- What a read of a line finds: its data, whether it was corrected; or the kind of its failure, 1 uncorrectable, 2 tag. -/
def lineOutcome (addr : Nat) (detect : Bool) (bs : List Byte) (es : List (Nat × BitVec 16)) : Except Nat (List Byte × Bool) :=
  let es := errVec es
  if detect then (if tagPasses addr true bs es then .ok (plainErr addr bs es, false) else .error 2)
  else match decodeErrors es with
    | (.bad, _) => .error 1
    | (.clean, rest) => if tagPasses addr false bs rest then .ok (plainErr addr bs rest, false) else .error 2
    | (.corrected, rest) => if tagPasses addr false bs rest then .ok (plainErr addr bs rest, true) else .error 1

/-! ### Reading and writing lines (R360, R361, R365, R453) -/

/-- Error symbols arise in stored lines, and parity errors on the bus for the next access to a line (R342). -/
def addUpsets (us : List Upset) (s : State) : State :=
  s.setMem fun m =>
    { m with errors := us.foldl (fun t u => tmod [] t (u.line / 64 * 64) (· ++ u.symbols)) m.errors,
             busErr := m.busErr ++ (us.filter (·.bus)).map fun u => u.line / 64 * 64 }

def stackCtr (k i n : Nat) (width : Nat) (s : State) : State := s.setStack k fun x => { x with ctr := tmod 0 x.ctr i (satAdd width · n) }

/-- The access slot that holds a clk: its start, its last clk, whether it is a whole slot, counted from the running pour's start (R347). -/
def slotStart (s : State) (c : Nat) : Nat :=
  let base := s.job.pourClk + (c - s.job.pourClk) / s.pourClks * s.pourClks
  base + (c - base) / 6 * 6
def slotEnd (s : State) (c : Nat) : Nat :=
  let base := s.job.pourClk + (c - s.job.pourClk) / s.pourClks * s.pourClks
  min (slotStart s c + 5) (base + s.pourClks - 1)
def slotWhole (s : State) (c : Nat) : Bool := slotEnd s c == slotStart s c + 5

/-- MEM_ERR records the first failure (R365). -/
def recordErr (addr kind source : Nat) (detect : Bool) (s : State) : State :=
  s.setStack (stackOf addr) fun x =>
    if x.errValid then x
    else { x with errValid := true, err0 := put kind 60 ||| put source 58 ||| putb detect 57 ||| put (addr / 64 % 2 ^ 34) 6,
                  err1 := put s.job.pour 32 ||| put (if s.running then clkOff s (slotStart s s.clk) else 0) 0, err2 := put s.job.heat 0 }

/-- A failure's effect on the lost list (R361). -/
def lostFail (addr : Nat) (detect sched : Bool) (s : State) : State :=
  match s.mem.lost.find? (·.line == addr) with
  | some e =>
    let s := s.setMem fun m => { m with lost := m.lost.map fun x => if x.line = addr then { x with confirmed := true } else x }
    if sched && !e.confirmed then quenchDue 0x43 (stackOf addr) s else s
  | none =>
    if 64 ≤ s.mem.lost.length then quenchDue 0x43 (stackOf addr) s
    else s.setMem fun m => { m with lost := m.lost ++ [{ line := addr, confirmed := false, detect := detect }] }

/-- A line leaves the lost list. -/
def lostClear (addr : Nat) (s : State) : State := s.setMem fun m => { m with lost := m.lost.filter (·.line != addr) }

/-- The injected error on a read of a line (R452, R453): kind, and the state after the injector acted. -/
def injectHbm (addr : Nat) (s : State) : Nat × State :=
  let w := s.inj.hbm
  if injects s w && fld w 39 6 == addr / 64 % 2 ^ 34 && fld w 62 61 != 0 then
    (fld w 62 61, s.setInj fun i =>
      { i with hbm := if bit w 60 then w else setFld w 63 63 0, cntHbm := satAdd 16 i.cntHbm 1 })
  else (0, s)

/-- What a read finds with an injected error. -/
def injected (kind : Nat) (detect : Bool) (bs : List Byte) : Except Nat (List Byte × Bool) :=
  match kind with
  | 1 => if detect then .error 2 else .ok (bs, true)
  | 2 => if detect then .error 2 else .error 1
  | _ => .error 2

/-- The stored bytes of a line. -/
def storedLine (s : State) (addr : Nat) : List Byte := cellRead s.mem.cells addr 64

/-- A parity error on the bus meets this access of a line (R342). -/
def takeBusErr (addr : Nat) (s : State) : Bool × State :=
  if s.mem.busErr.contains addr then (true, s.setMem fun m => { m with busErr := m.busErr.filter (· != addr) }) else (false, s)

/-- A failed access of a line (R361, R365): kind 1 uncorrectable, a parity error on the bus for a line of either class among them; 2 tag. -/
def failLine (addr kind source : Nat) (detect sched : Bool) (s : State) : State :=
  let k := stackOf addr
  lostFail addr detect sched (recordErr addr kind source detect (if detect && kind == 2 then stackCtr k 2 1 32 s else stackCtr k 1 1 32 s))

/-- Read one HBM line: its 64 bytes and whether they were corrected, or none. -/
def readLine (addr source : Nat) (sched : Bool) (s : State) : Option (List Byte × Bool) × State :=
  let detect := lineDetect s addr
  let k := stackOf addr
  let s := if sched && s.mem.lost.any fun e => e.line == addr && e.confirmed then quenchDue 0x43 k s else s
  let (bus, s) := takeBusErr addr s
  if bus then (none, failLine addr 1 source detect sched s)
  else
    let (inj, s) := injectHbm addr s
    let bs := storedLine s addr
    match if inj = 0 then lineOutcome addr detect bs (tget [] s.mem.errors addr) else injected inj detect bs with
    | .ok (d, fixed) => (some (d, fixed), lostClear addr (if fixed then stackCtr k 0 1 48 s else s))
    | .error kind => (none, failLine addr kind source detect sched s)

/-- The line takes its new bytes, with fresh side bits; nothing that the scrub had to write back is left to write. -/
def putLine64 (addr : Nat) (bs : List Byte) (s : State) : State :=
  lostClear addr (s.setMem fun m =>
    { m with cells := cellWrite m.cells addr bs, errors := tdel m.errors addr, writeBack := m.writeBack.filter (·.1 != addr) })

/-- Whether a stack takes a write that a parity error on the bus meets: the manual leaves it open (log entry 29). -/
def busWriteTaken (addr : Nat) (s : State) : Bool := (Config.freeWord s.clk (0x3000000000 + addr / 64)).getLsbD 0

/-- Write one whole HBM line. A parity error on the bus makes it an uncorrectable write of that line (R342): it is recorded, counted and the
line enters the lost list, whatever the stack made of the write. -/
def writeLine (addr : Nat) (bs : List Byte) (source : Nat) (s : State) : State :=
  let (bus, s) := takeBusErr addr s
  if bus then failLine addr 1 source (lineDetect s addr) false (if busWriteTaken addr s then putLine64 addr bs s else s)
  else putLine64 addr bs s

/-- Write one tile line: two HBM lines. -/
def writeChunk (addr : Nat) (bs : List Byte) (source : Nat) (s : State) : State :=
  writeLine (addr + 64) (bs.drop 64) source (writeLine addr (bs.take 64) source s)

/-! ### Scheduled accesses (R42, R43, R347) -/

/-- A slot overlaps a refresh window (R41, R42): by its offset in the pour. -/
def inRefresh (s : State) (off : Nat) : Bool :=
  let w := s.pourWin
  let p := fld w 12 0
  let first := fld w 44 32
  let len := fld w 28 16
  (List.range ((s.pourClks + p - 1) / max p 1)).any fun k =>
    let b := first + k * p
    decide (b < s.pourClks) && decide (off < b + len) && decide (b < off + 6)

/-- No other row of an address's bank is accessed within the 78 clk before a slot, and the slot of its pseudo-channel is not taken (R347).
What counts against a scheduled access is the schedule (R229); an unscheduled one gives way to all. -/
def rowFree (s : State) (addr st : Nat) (sched : Bool) : Bool :=
  !(s.mem.recent.any fun x =>
    (x.sched || !sched) && x.stack == stackOf addr && x.channel == channelOf addr &&
      (x.clk == st || (x.bank == memBank addr && x.row != memRow addr && decide (x.clk < st) && decide (st ≤ x.clk + 78))))

/-- Is the access of an address legal in the slot of a clk (R347): a whole slot, no refresh, the row rule. -/
def slotLegal (s : State) (addr c : Nat) (sched : Bool) : Bool :=
  let st := slotStart s c
  slotWhole s c && !inRefresh s (clkOff s st % max s.pourClks 1) && rowFree s addr st sched

/-- A stack asks for the doubled refresh rate: its base die is above 85 °C (R43, R84, R365). -/
def stackHot (s : State) (k : Nat) : Bool := s.stackPresent k && decide (85 < tget 0 s.pwr.sensors (24 + k))

/-- An access made in the slot of a clk is remembered for 13 slots. -/
def noteAccess (addr c : Nat) (sched : Bool) (s : State) : State :=
  let st := slotStart s c
  let x : Access :=
    { clk := st, stack := stackOf addr, channel := channelOf addr, bank := memBank addr, row := memRow addr, sched := sched }
  s.setMem fun m => { m with recent := x :: m.recent.filter fun x => decide (st ≤ x.clk + 84) }

/-- A refresh command goes to the next bank of a pseudo-channel (R348). -/
def refreshBanks (k ch n : Nat) (s : State) : State := s.setStack k fun x => { x with bank := tmod 0 x.bank ch fun b => (b + n) % 64 }

/-- A doubled refresh takes the bank window of a scheduled access of its pseudo-channel (R43). -/
def displace (k ch : Nat) (s : State) : State :=
  let now := s.pourOrdinal + 1
  let s := if (s.stack k).dispPour = now then s else stackCtr k 5 1 32 s
  refreshBanks k ch 1 (s.setStack k fun x => { x with extra := tmod 0 x.extra ch (· - 1), dispPour := now })

/-- A scheduled access at a station in clk c: made, or suppressed as CONFLICT or REFRESH. -/
def claimSlot (a place addr c : Nat) (s : State) : Bool × State :=
  let k := stackOf addr
  if !slotLegal s addr c true then (false, violateClk a conflict place c s)
  else if 0 < tget 0 (s.stack k).extra (channelOf addr) then (false, violateClk a refreshViol place c (displace k (channelOf addr) s))
  else (true, noteAccess addr c true s)

/-- A scheduled read of a chunk: its line, zero and marked POISON where a line fails (R360). -/
def schedRead (a addr : Nat) (s : State) : LineData × State :=
  let (x, s) := readLine addr 0 true s
  let (y, s) := readLine (addr + 64) 0 true s
  match x, y with
  | some p, some q => (lineOf (p.1 ++ q.1), s)
  | _, _ => (0, mark 0x02 0 (fedBy s a) (s.setLedger fun l => { l with slotPoison := satAdd 16 l.slotPoison 1 }))

/-! ### Instructions (R349, R350) -/

/-- R350, R363: aligned, in the local stack, in one region of the station's flask that no shakeout clears. -/
def schedOk (s : State) (a addr len : Nat) : Bool :=
  let k := bayOf a / 2
  addr % 128 == 0 && stackOf addr == k && stackOf (addr + len - 1) == k &&
  match regionOf s addr len with
  | some r => (stationFlask s a == 0 || rgFlask s r == stationFlask s a) && !shaking s r
  | none => false

/-- An agenda in order of clk. -/
def byClk (l : List (Nat × EngineStep)) : List (Nat × EngineStep) := l.mergeSort fun x y => decide (x.1 ≤ y.1)

/-- mr.rd. -/
def mrRd (a : Nat) (w : Word) (place : Nat) (s : State) : Except Nat State :=
  let addr := (scalarSrc s a (aOf w)).toNat
  let n := fld (scalarSrc s a (bOf w)) 4 0 + 1
  if !schedOk s a addr (128 * n) then .error bound
  else
    let t := s.clk
    .ok (startOp a (newOp .mrRd a w place (byClk ((List.range n).map fun j => (slotEnd s (t + 4 + j / 2), .act j))) (t + 64 + (n - 1) / 2) s) s)

/-- Line j of a mr.rd in its slot. -/
def mrRdStep (a : Nat) (op : EngineOp) (j : Nat) (s : State) : State :=
  let addr := op.sa.toNat + 128 * j
  let hdr := fld op.sb 15 0
  let n := fld op.sb 4 0 + 1
  let (ok, s) := claimSlot a op.place addr (op.t + 4 + j / 2) s
  if !ok then s
  else
    let (d, s) := schedRead a addr s
    let side := (if j = 0 then 2 ^ 23 + hdr else 0) + (if j + 1 = n then 2 ^ 22 else 0)
    putPush a (dOf op.word) (op.t + 64 + j / 2) op.t op.place { bareLine d with side := BitVec.ofNat 24 side } s

/-- mr.wr. -/
def mrWr (a : Nat) (w : Word) (place : Nat) (s : State) : Except Nat State :=
  let addr := (scalarSrc s a (bOf w)).toNat
  let e := aOf w
  if addr % 128 ≠ 0 then .error bound
  else if !popReady s a e s.clk then .error popEmpty
  else match (endLines s a e).head? with
    | none => .error popEmpty
    | some l =>
      let n := sideCount l.side
      if !bit l.side 23 || !schedOk s a addr (128 * n) then .error bound
      else
        let t := s.clk
        .ok (startOp a (newOp .mrWr a w place
          (byClk ((List.range n).flatMap fun j => [(t + j / 2, .pop e), (slotEnd s (t + 4 + j / 2), .act j)])) (t + 40 + (n - 1) / 2) s) s)

/-- Line j of a mr.wr in its slot: a suppressed pop writes nothing. -/
def mrWrStep (a : Nat) (op : EngineOp) (j : Nat) (s : State) : State :=
  match op.taken.getD j none with
  | none => s
  | some l =>
    let addr := op.sb.toNat + 128 * j
    let (ok, s) := claimSlot a op.place addr (op.t + 4 + j / 2) s
    if ok then writeChunk addr (lineBytes l.data) 0 s else s

def mgBase (sb : Word) : Nat := fld sb 39 0
def mgRows (sb : Word) : Nat := fld sb 63 52 + 1
/-- Lines of a gathered row. -/
def mgR (w : Word) : Nat := immOf w % 32 + 1
def mgFormat (w : Word) : Nat := immOf w / 32 % 16

/-- mr.gather. -/
def mrGather (a : Nat) (w : Word) (place : Nat) (s : State) : Except Nat State :=
  let sb := scalarSrc s a (bOf w)
  let t := s.clk
  let rows := mgRows sb
  let r := mgR w
  let pops := (List.range ((rows + 31) / 32)).flatMap fun m => [(t + 16 * r * m, EngineStep.pop (aOf w)), (t + 16 * r * m, .act (131072 + m))]
  let acts := (List.range (rows * r)).map fun u => (slotEnd s (t + 6 + u / 2), EngineStep.act u)
  .ok (startOp a (newOp .mrGather a w place (byClk (pops ++ acts)) (t + 66 + (rows * r - 1) / 2) s) s)

/-- Index of row q: a fill where its line's pop was suppressed. -/
def gatherIndex (op : EngineOp) (q : Nat) : Nat :=
  match op.taken.getD (q / 32) none with
  | some l => (codesOf 32 l.data).getD (q % 32) 0xFFFFFFFF
  | none => 0xFFFFFFFF

def gatherAddr (op : EngineOp) (q : Nat) : Nat := mgBase op.sb + 128 * mgR op.word * gatherIndex op q

/-- A row's test of R350. -/
def gatherOk (s : State) (a : Nat) (op : EngineOp) (q : Nat) : Bool := schedOk s a (gatherAddr op q) (128 * mgR op.word)

/-- A step of a mr.gather: an index line is judged (131,072 + m), or line u is read in its slot. -/
def mrGatherStep (a : Nat) (op : EngineOp) (u c : Nat) (s : State) : State :=
  let r := mgR op.word
  if 131072 ≤ u then
    let m := u - 131072
    each ((List.range 32).filter fun i => decide (32 * m + i < mgRows op.sb))
      (fun i s => if gatherIndex op (32 * m + i) = 0xFFFFFFFF || gatherOk s a op (32 * m + i) then s else violateClk a bound op.place c s) s
  else
    let q := u / r
    let j := u % r
    let push (d : LineData) (s : State) : State :=
      putPush a (dOf op.word) (op.t + 66 + u / 2) op.t op.place { bareLine d with side := tileSide (mgFormat op.word) j r } s
    if gatherIndex op q = 0xFFFFFFFF then push 0 s
    else if !gatherOk s a op q then s
    else
      let addr := gatherAddr op q + 128 * j
      let (ok, s) := claimSlot a op.place addr (op.t + 6 + u / 2) s
      if !ok then s
      else
        let (d, s) := schedRead a addr s
        push d s

/-- Completion clk of a memory instruction issued at t and suppressed (R230, R349). -/
def memFinish (s : State) (a : Nat) (w : Word) (t : Nat) : Nat :=
  let sb := scalarSrc s a (bOf w)
  match opOf w with
  | 0x40 => t + 64 + fld sb 4 0 / 2
  | 0x41 => t + 40
  | _ => t + 66 + (mgRows sb * mgR w - 1) / 2

end Sys2Proof.Machine
end

