-- ==== Sys2Proof/Machine/PortStationOps.lean ====
section
/-!
DEFINITION. Port-ingress and port-egress stations: pi.take and pe.send (R205, R206, R227, R289); and the post instruction of every kind
(R225, R226, R467).
-/

namespace Sys2Proof.Machine

/-- The port a port station serves (R202), with its pair's while a spare pair is selected (R391). -/
def servedPort (s : State) (a : Nat) : Nat := swapPort s (16 * bayOf a + indexOf a)

/-! ### pi.take -/

/-- The head of qi0 is the first line of a packet of an instance. -/
def headOfInst (s : State) (a i : Nat) : Bool :=
  match (endLines s a 0).head? with
  | some l => bit l.side 23 && (match l.origin with | some m => hInst m.hdr == i | none => false)
  | none => false

/-- pi.take: where no line of the instance waits, a member on the port that was removed satisfies it (R289). -/
def piTake (a : Nat) (w : Word) (place : Nat) (s : State) : Except Nat State :=
  let i := fld (scalarSrc s a (aOf w)) 15 0
  if !popReady s a 0 s.clk || !headOfInst s a i then (if (removedOn s i (servedPort s a)).isSome then .ok s else .error popEmpty)
  else
    let n := match (endLines s a 0).head? with | some l => tileCount l.side | none => 1
    let t := s.clk
    .ok (startOp a (newOp .piTake a w place ((List.range n).flatMap fun k => [(t + k, .pop 0), (t + k, .act k)]) (t + n) s) s)

/-- Line k of a pi.take goes to qo(d). -/
def piStep (a : Nat) (op : EngineOp) (k : Nat) (s : State) : State :=
  match op.taken.getD k none with
  | some l => putPush a (dOf op.word) (op.t + k + 1) op.t op.place l s
  | none => s

/-! ### Templates -/

/-- The packet header in bytes 0 to 31 of a line, most significant first (R124, R226). -/
def templateHdr (d : LineData) : BitVec 256 := BitVec.ofNat 256 (beNat ((lineBytes d).take 32))

/-- A template with the fields the module fills: source, flask, pour, and what the link writes (R226). -/
def fillHdr (s : State) (a : Nat) (h : BitVec 256) : BitVec 256 :=
  let h := hSet (hSet h 222 222 1) 221 202 s.moduleId
  hSet (hSet (hSet (hSet h 201 198 (stationFlask s a)) 75 64 a) 63 32 s.job.pour) 31 0 0

/-! ### pe.send -/

/-- pe.send: the tile of qi(a), the template at local-store line S(b) + imm. -/
def peSend (a : Nat) (w : Word) (place : Nat) (s : State) : Except Nat State := do
  let k ← inBound 2048 (storeAddr (scalarSrc s a (bOf w)) (immS w))
  let e := aOf w
  if !readFree s a s.clk then .error conflict
  else
    let h := templateHdr (storeLine s a k)
    if hCls h != 2 && hCls h != 3 then .error bound
    else if !popReady s a e s.clk then .error popEmpty
    else match (endLines s a e).head? with
      | none => .error popEmpty
      | some l =>
        let n := if bit l.side 23 then tileCount l.side else 1
        let t := s.clk
        let pkt : Packet :=
          { hdr := hSet (hSet (fillHdr s a h) 115 108 (8 * n - 1)) 91 76 (fld l.side 15 0), payload := [], trailer := 0, stampPour := s.job.pour,
            stampClk := s.pourOff, inPort := none, stomped := false, complete := true, ident := t }
        let q : QPkt := { pkt := pkt, owner := .none, cells := 0, ring := 0, since := t + n, targets := [], reserved := [] }
        let s := startOp a (newOp .peSend a w place ((List.range n).flatMap fun k => [(t + k, .pop e), (t + k, .act k)]) (t + n) s) s
        .ok ((takeRead a [t] s).setPort (servedPort s a) fun x => { x with scheduled := x.scheduled ++ [q] })

/-- Line k of a pe.send enters qo0, marked with its packet. -/
def peStep (a : Nat) (op : EngineOp) (k : Nat) (s : State) : State :=
  match op.taken.getD k none with
  | some l =>
    let m : LineMeta := { stampPour := s.job.pour, stampClk := k, hdr := BitVec.ofNat 256 op.t, port := none, head := k == 0 }
    putPush a 8 (op.t + k + 1) op.t op.place { l with origin := some m } s
  | none => s

/-! ### post (R225, R226) -/

/-- Payload lines of a posted packet. -/
def postLines (h : BitVec 256) : Nat := (payloadLen h + 127) / 128

/-- post at issue: the header line is read and the packet takes a place in the post buffer; its payload lines follow. -/
def postIssue (a : Nat) (w : Word) (place : Nat) (s : State) : Except Nat State := do
  let k ← inBound 2048 (storeAddr (scalarSrc s a (aOf w)) (immS w))
  let h := templateHdr (storeLine s a k)
  let n := postLines h
  let t := s.clk
  if hCls h < 4 || 2048 ≤ k + n then .error bound
  else if !readFree s a t then .error conflict
  else if tget 0 (s.station a).ctr 31 = 0 then .error pushFull
  else
    let steps := (List.range n).map fun j => (t + 1 + j, EngineStep.act (if readFree s a (t + 1 + j) then j else 65536 + j))
    let op := { newOp .postRead a w place (steps ++ [(t + n, .act 131072)]) (t + 1) s with
                sa := (BitVec.ofNat 64 k : Word), taken := [some (bareLine (storeLine s a k))] }
    let free := ((List.range n).map (t + 1 + ·)).filter (readFree s a)
    .ok (sendSignal (t + 1) a (.take 31 1) (some place) (startOp a op (takeRead a (t :: free) s)))

/-- A step of a post: payload line j is read, or refused; or the packet is whole, under the header line read at its issue (R467). -/
def postStep (a : Nat) (op : EngineOp) (j c : Nat) (s : State) : State :=
  let k := op.sa.toNat
  if j = 131072 then
    let h := match op.taken.headD none with | some l => templateHdr l.data | none => 0
    let pay := (op.taken.drop 1).flatMap fun l => match l with | some l => lineBytes l.data | none => List.replicate 128 0
    let pkt : Packet :=
      { hdr := fillHdr s a h, payload := pay.take (payloadLen h), trailer := 0, stampPour := s.job.pour, stampClk := s.pourOff, inPort := none,
        stomped := false, complete := true, ident := 0 }
    s.setStation a fun x => { x with postBuf := x.postBuf ++ [pkt] }
  else if j < 65536 then modOp a op.t (fun o => { o with taken := o.taken ++ [some (bareLine (storeLine s a (k + 1 + j)))] }) s
  else opSkip a op (violateClk a conflict op.place c s)

end Sys2Proof.Machine
end

