-- ==== Sys2Proof/Machine/Engines.lean ====
section
/-!
DEFINITION. The engines at work (R228): which step of an unfinished operation comes next, and what it does.
-/

namespace Sys2Proof.Machine

/-- The n-th action of an operation, by its kind. -/
def engAct (a : Nat) (op : EngineOp) (n c : Nat) (s : State) : State :=
  match op.kind with
  | .crFeed => feedStep a op n s
  | .rdLoadMap => mapStep a op n c s
  | .rdRun => runStep a op s
  | .laMode => modeStep a op s
  | .laMap => mapWalkStep a op n c s
  | .laPass => passStep a op n c s
  | .laMerge => mergeWalkStep a op n c s
  | .laSkim => skimStep a op n c s
  | .moWload => wloadStep a op n c s
  | .moMac => macStep a op n c s
  | .moDrain => drainStep a op n c s
  | .soSort => sortStep a op n s
  | .soLoad => loadStep a op n s
  | .soMerge => mergeStep a op s
  | .soTopk => topkStep a op n s
  | .soSpill => spillStep a op s
  | .mrRd => mrRdStep a op n s
  | .mrWr => mrWrStep a op n s
  | .mrGather => mrGatherStep a op n c s
  | .piTake => piStep a op n s
  | .peSend => peStep a op n s
  | .postRead => postStep a op n c s

/-- One step of the operation issued at clk t, in clk c. -/
def engStep (a t c : Nat) (st : EngineStep) (s : State) : State :=
  let s := modOp a t (fun o => { o with agenda := o.agenda.tail }) s
  match (s.station a).ops.find? fun o => o.t == t with
  | none => s
  | some op =>
    match st with
    | .pop e => opPop a op e c s
    | .act n => engAct a op n c s

/-- Rank of a step among those of one clk: register rows are written before anything else happens in a clk (R219, R324). -/
def stepRank : EngineStep → Nat
  | .act n => if 131072 ≤ n then 0 else 1
  | .pop _ => 1

/-- The earliest step due: issue clk of its operation, clk, step. -/
def nextStep (ops : List EngineOp) (now : Nat) : Option (Nat × Nat × EngineStep) :=
  ops.foldl (fun best o =>
    match o.agenda with
    | [] => best
    | (c, st) :: _ =>
      if now < c then best
      else match best with
        | none => some (o.t, c, st)
        | some (_, c', st') => if c < c' || (c == c' && decide (stepRank st < stepRank st')) then some (o.t, c, st) else best) none

/-- Steps due until none is left. -/
def engRun (a : Nat) : Nat → State → State
  | 0, s => s
  | fuel + 1, s =>
    match nextStep (s.station a).ops s.clk with
    | none => s
    | some (t, c, st) => engRun a fuel (engStep a t c st s)

/-- Every step of a station's engines that is due (R228): the earlier clk first, of one clk the operation issued first. -/
def engAdvance (a : Nat) (s : State) : State := engRun a ((s.station a).ops.map fun o => o.agenda.length).sum s

/-- The memory stations of the same stack that come before a station in crossbar order (R210, R347). -/
def earlierMem (a : Nat) : List Nat :=
  if kindOf a = 7 then [512 * (bayOf a / 2) + 0x70, 512 * (bayOf a / 2) + 0x71, 512 * (bayOf a / 2) + 0x170, 512 * (bayOf a / 2) + 0x171].filter (· < a)
  else []

/-- A station's engines after the writes of its local store, which a read of the same clk sees (R467). -/
def engClk (a : Nat) (s : State) : State := engAdvance a (applyWrites a s)

/-- What has happened at a station by the running clk: signals, engine steps, results. -/
def settle (a : Nat) (s : State) : State :=
  applyResults a (engClk a (each (earlierMem a) engClk (applySignals s)))

/-- INSTRUCTION_RESULT (R219): the results of a station whose clk has come. -/
def execInstructionResult (st : StAddr) (s : State) : Out := .next (settle st.toNat s)

/-- The operations that reach their completion clk: nothing is left of their agenda (R228). -/
def finished (s : State) (a : Nat) : List EngineOp :=
  (s.station a).ops.filter fun o => o.agenda.isEmpty && decide (o.finish ≤ s.clk)

/-- They leave and fire their completion signals; a post fires its own at its result clk (R221). -/
def complete (a : Nat) (s : State) : State :=
  let done := finished s a
  let s := s.setStation a fun x => { x with ops := x.ops.filter fun o => !(o.agenda.isEmpty && decide (o.finish ≤ s.clk)) }
  each (done.filter fun o => o.kind != .postRead) (fun o s => fireSignal a o.word true o.finish o.place s) s

/-- ENGINE_COMPLETION (R228). -/
def execEngineCompletion (st : StAddr) (s : State) : Out := .next (complete st.toNat (settle st.toNat s))

end Sys2Proof.Machine
end

