-- ==== Sys2Proof/Machine/Issue.lean ====
section
/-!
DEFINITION. The sequencer (R215 to R224, R229, R230): which instruction a station considers, its wait, its issue, and what holds when it is
suppressed whole.
-/

namespace Sys2Proof.Machine

/-- What the sequencer needs to know of an instruction. -/
structure Shape where
  code : Nat
  /-- the station kind that has it; none for the common opcodes -/
  kind : Option Nat
  /-- the modifier of its immediate -/
  sel : Word → Bool
  /-- operand codes it names -/
  uses : Word → List Nat
  /-- completion clk, from the state at issue, the word and the issue clk -/
  fin : State → Nat → Word → Nat → Nat
  /-- what it does even when suppressed (R224, R248) -/
  always : Nat → Nat → Word → State → State
  /-- its data effects: station, word, place; or the violation that suppresses them -/
  eff : Nat → Word → Nat → State → Except Nat State

/-- No modifier, nothing done when suppressed. -/
def Shape.plain (code : Nat) (kind : Option Nat) (uses : Word → List Nat) (fin : State → Nat → Word → Nat → Nat)
    (eff : Nat → Word → Nat → State → Except Nat State) : Shape :=
  { code := code, kind := kind, sel := fun _ => true, uses := uses, fin := fin, always := fun _ _ _ s => s, eff := eff }

/-- The word at a station's pc. -/
def wordAt (s : State) (a : Nat) : Word := tget 0 (s.station a).imem (s.station a).pc

/-- The sequencer considers an instruction in this clk (R215). -/
def considers (s : State) (a : Nat) : Bool :=
  s.running && isNamed s a && ((s.station a).seq == .run || (s.station a).seq == .wait) && decide ((s.station a).readyAt ≤ s.clk)

/-- The word at the pc is this instruction of this kind. -/
def Shape.here (p : Shape) (s : State) (a : Nat) : Bool :=
  opOf (wordAt s a) == p.code && (match p.kind with | some k => kindOf a == k | none => true) && p.sel (wordAt s a)

/-- The clk from which the instruction at the pc has been considered. -/
def consideredSince (s : State) (a : Nat) : Nat := (s.station a).waitSince.getD s.clk

/-- The configuration words a station uses to issue an instruction: ST_CFG, its neighbours, the ends it names (R423). -/
def issueKeys (a : Nat) (w : Word) (uses : List Nat) : List Nat :=
  let nbs := [fld w 29 27, fld w 13 11].zip [fld w 31 30, fld w 15 14]
  stKey a 8 :: (nbs.filter fun e => e.1 != 0 && e.2 != 0).map (fun e => stKey a (0x80 + 8 * e.1)) ++
    (uses.filter (· < 16)).map fun e => stKey a (0x100 + 8 * e)

/-- The words of tables that an engine instruction uses: a Crucible's instance and its group, a Ladle's layer, a run slot, the region of a
memory address, a pickup region (R423). -/
def tableKeys (s : State) (a : Nat) (w : Word) : List Nat :=
  let words (k n : Nat) : List Nat := (List.range n).map fun i => k + 8 * i
  let x := (scalarSrc s a (aOf w)).toNat
  let region (addr : Nat) : List Nat := match regionOf s addr 1 with | some r => words (tbKey 12 (16 * r)) 2 | none => []
  if opOf w < 0x40 then []
  else match kindOf a with
    | 0 => words (tbKey 12 (16 * (immOf w % 256))) 2
    | 2 => if x < 4096 then words (tbKey 10 (32 * x)) 4 ++ words (tbKey 8 (32 * iGroup s x)) 4 else []
    | 4 => if opOf w = 0x41 ∧ immOf w % 4 = 3 then words (tbKey 11 (64 * skLayer (walkCtl s a w))) 2 else []
    | 7 => region (if opOf w = 0x40 then x else (scalarSrc s a (bOf w)).toNat)
    | _ => []

/-- Use some configuration words: whether one is faulty. -/
def useWords (ks : List Nat) (s : State) : Bool × State :=
  ks.foldl (fun x k => let (b, s) := useWord k x.2; (x.1 || b, s)) (false, s)

/-- The schedule injector on an issue (R452, R453): the code it records. -/
def injectSched (a place : Nat) (s : State) : Option Nat × State :=
  let w := s.inj.sched
  if injects s w && fld w 55 44 == a && fld w 13 0 == place then
    let c := fld w 59 56
    (some (if 1 ≤ c ∧ c ≤ 13 then c else conflict), s.setInj fun i => { i with cntSched := satAdd 16 i.cntSched 1 })
  else (none, s)

/-- The sequencer goes on to the next address in the next clk (R215). -/
def advancePc (a : Nat) (s : State) : State :=
  s.setStation a fun x => { x with pc := (x.pc + 1) % 16384, readyAt := s.clk + 1, waitSince := none, seq := .run }

/-- The effects of an instruction, or its suppression: one violation (R229, R230). -/
def perform (p : Shape) (a : Nat) (w : Word) (place : Nat) (expired : Bool) (s : State) : State :=
  let (bad, s) := useWords (issueKeys a w (p.uses w) ++ tableKeys s a w) s
  let (inj, s) := injectSched a place s
  let r : Except Nat State :=
    if expired then .error waitExpired
    else match inj with
      | some c => .error c
      | none => if bad then .error bound else p.eff a w place s
  match r with
  | .ok s' => if (s'.station a).ops.any fun o => o.t == s.clk && o.kind != .postRead then s' else fireSignal a w true (p.fin s a w s.clk) place s'
  | .error c => fireSignal a w true (p.fin s a w s.clk) place (violate a c place s)

/-- An instruction issues in this clk: its wait takes, its signal fires, its effects follow (R219 to R221, R224). -/
def issueNow (p : Shape) (a : Nat) (expired : Bool) (s : State) : State :=
  let w := wordAt s a
  let place := (s.station a).pc
  let s := if expired then s else takeWait a place w s
  let s := advancePc a (fireSignal a w false s.clk place s)
  engAdvance a (p.always a place w (perform p a w place expired s))

/-- A station considers this instruction: it issues when its wait holds, and waits otherwise (R215, R220). A row for another
instruction than the one at the pc changes nothing (log entry 1). -/
def issue (p : Shape) (a : Nat) (s : State) : State :=
  let s1 := settle a s
  if !considers s1 a || !p.here s1 a || decide (consideredSince s1 a + waitLimit s1 a < s1.clk) then s
  else if waitHolds s1 a (wordAt s1 a) then issueNow p a false s1
  else s1.setStation a fun x => { x with seq := .wait, waitSince := some (consideredSince s1 a) }

/-- The wait of the instruction at the pc has expired (R224). -/
def waitOver (s : State) (a : Nat) : Bool :=
  considers s a && (decide (consideredSince s a + waitLimit s a < s.clk) ||
    (!waitHolds s a (wordAt s a) && decide (consideredSince s a + waitLimit s a ≤ s.clk)))

end Sys2Proof.Machine
end

