-- ==== Sys2Proof/Machine/Common.lean ====
section
/-!
DEFINITION. The common opcodes (R226), the bay controller's bc.pick (R410), and what each does at its issue.
-/

namespace Sys2Proof.Machine

/-! ### Completion clks by latency -/

/-- Completion at issue plus a latency (R221). -/
def finAt (n : Nat) (_ : State) (_ : Nat) (_ : Word) (t : Nat) : Nat := t + n

def noUses (_ : Word) : List Nat := []
def useD (w : Word) : List Nat := [dOf w]
def useA (w : Word) : List Nat := [aOf w]
def useDA (w : Word) : List Nat := [dOf w, aOf w]
def useDAB (w : Word) : List Nat := [dOf w, aOf w, bOf w]

/-- The station's issue of one instruction, as the outcome of its row. -/
def issueRow (p : Shape) (st : StAddr) (s : State) : Out := .next (issue p st.toNat s)

/-! ### Control -/

def nopShape : Shape := .plain 0x00 none noUses (finAt 0) fun _ _ _ s => .ok s

/-- halt stops issue, suppressed or not (R215, R224). -/
def haltShape : Shape :=
  { Shape.plain 0x01 none noUses (finAt 0) (fun _ _ _ s => .ok s) with
    always := fun a place _ s => s.setStation a fun x => { x with seq := .halt, pc := place } }

/-- The clk an at names (R216). -/
def atTarget (s : State) (a : Nat) (w : Word) : Nat :=
  s.job.pourClk + (scalarSrc s a (aOf w)).toNat + (if immOf w % 2 = 1 then s.pourClks else 0)

/-- at places the next instruction, suppressed or not (R216, R224). -/
def placeNext (a place : Nat) (w : Word) (s : State) : State :=
  if s.pourClks ≤ (scalarSrc s a (aOf w)).toNat || decide (atTarget s a w ≤ s.clk) then violate a atPassed place s
  else s.setStation a fun x => { x with readyAt := atTarget s a w }

def atShape : Shape := { Shape.plain 0x02 none noUses (finAt 0) (fun _ _ _ s => .ok s) with always := placeNext }

/-- Continue at an address. -/
def goTo (a target : Nat) (s : State) : State := s.setStation a fun x => { x with pc := target }

def jmpShape : Shape := .plain 0x03 none noUses (finAt 1) fun a w _ s => .ok (goTo a (targetOf w) s)

def bnzShape : Shape :=
  .plain 0x04 none noUses (finAt 1) fun a w _ s => .ok (if scalarSrc s a (aOf w) ≠ 0 then goTo a (targetOf w) s else s)

def bzShape : Shape :=
  .plain 0x05 none noUses (finAt 1) fun a w _ s => .ok (if scalarSrc s a (aOf w) = 0 then goTo a (targetOf w) s else s)

def loopShape : Shape :=
  .plain 0x06 none noUses (finAt 1) fun a w place s =>
    let v := scalarSrc s a (aOf w) - 1
    let s := putScalar a (aOf w) (s.clk + 1) s.clk place v s
    .ok (if v ≠ 0 then goTo a (targetOf w) s else s)

/-- NOP. -/
def execNop (st : StAddr) (s : State) : Out := issueRow nopShape st s
/-- HALT. -/
def execHalt (st : StAddr) (s : State) : Out := issueRow haltShape st s
/-- AT. -/
def execAtClk (st : StAddr) (s : State) : Out := issueRow atShape st s
/-- JMP. -/
def execJmp (st : StAddr) (s : State) : Out := issueRow jmpShape st s
/-- BNZ. -/
def execBnz (st : StAddr) (s : State) : Out := issueRow bnzShape st s
/-- BZ. -/
def execBz (st : StAddr) (s : State) : Out := issueRow bzShape st s
/-- LOOP. -/
def execLoop (st : StAddr) (s : State) : Out := issueRow loopShape st s

/-! ### Scalars -/

/-- A scalar operation of Sa and Sb with a latency. -/
def scalarShape (code lat : Nat) (f : Word → Word → Word) : Shape :=
  .plain code none noUses (finAt lat) fun a w place s =>
    .ok (putScalar a (dOf w) (s.clk + lat) s.clk place (f (scalarSrc s a (aOf w)) (scalarSrc s a (bOf w))) s)

/-- li: the 20-bit immediate, sign-extended. -/
def liShape : Shape :=
  .plain 0x08 none noUses (finAt 1) fun a w place s =>
    .ok (putScalar a (dOf w) (s.clk + 1) s.clk place (BitVec.ofInt 64 (signed 20 (imm20 w))) s)

/-- lui: bits [39:20] from the immediate, [63:40] zero, [19:0] kept. -/
def luiShape : Shape :=
  .plain 0x09 none noUses (finAt 1) fun a w place s =>
    .ok (putScalar a (dOf w) (s.clk + 1) s.clk place (put (imm20 w) 20 ||| put (fld (scalarSrc s a (dOf w)) 19 0) 0) s)

/-- The number of places of a shift. -/
def shiftBy (b : Word) : Nat := fld b 5 0

def addShape : Shape := scalarShape 0x0A 1 (· + ·)
def subShape : Shape := scalarShape 0x0B 1 (· - ·)
def andShape : Shape := scalarShape 0x0C 1 (· &&& ·)
def orShape : Shape := scalarShape 0x0D 1 (· ||| ·)
def xorShape : Shape := scalarShape 0x0E 1 (· ^^^ ·)
def shlShape : Shape := scalarShape 0x0F 1 fun x y => x <<< shiftBy y
def shrShape : Shape := scalarShape 0x10 1 fun x y => x >>> shiftBy y
def sarShape : Shape := scalarShape 0x11 1 fun x y => x.sshiftRight (shiftBy y)
def mulShape : Shape := scalarShape 0x12 3 (· * ·)
def sltShape : Shape := scalarShape 0x13 1 fun x y => if x.slt y then 1 else 0
def sltuShape : Shape := scalarShape 0x14 1 fun x y => if x.ult y then 1 else 0

/-- addi: the 10-bit immediate, signed. -/
def addiShape : Shape := 
  .plain 0x15 none noUses (finAt 1) fun a w place s =>
    .ok (putScalar a (dOf w) (s.clk + 1) s.clk place (scalarSrc s a (aOf w) + BitVec.ofInt 64 (immS w)) s)

/-- LI. -/
def execLi (st : StAddr) (s : State) : Out := issueRow liShape st s
/-- LUI. -/
def execLui (st : StAddr) (s : State) : Out := issueRow luiShape st s
/-- ADD. -/
def execAdd (st : StAddr) (s : State) : Out := issueRow addShape st s
/-- SUB. -/
def execSub (st : StAddr) (s : State) : Out := issueRow subShape st s
/-- AND. -/
def execAnd (st : StAddr) (s : State) : Out := issueRow andShape st s
/-- OR. -/
def execOr (st : StAddr) (s : State) : Out := issueRow orShape st s
/-- XOR. -/
def execXor (st : StAddr) (s : State) : Out := issueRow xorShape st s
/-- SHL. -/
def execShl (st : StAddr) (s : State) : Out := issueRow shlShape st s
/-- SHR. -/
def execShr (st : StAddr) (s : State) : Out := issueRow shrShape st s
/-- SAR. -/
def execSar (st : StAddr) (s : State) : Out := issueRow sarShape st s
/-- MUL. -/
def execMul (st : StAddr) (s : State) : Out := issueRow mulShape st s
/-- SLT. -/
def execSlt (st : StAddr) (s : State) : Out := issueRow sltShape st s
/-- SLTU. -/
def execSltu (st : StAddr) (s : State) : Out := issueRow sltuShape st s
/-- ADDI. -/
def execAddi (st : StAddr) (s : State) : Out := issueRow addiShape st s

/-! ### Local store -/

/-- ld: the word is read at issue through the read port (R213, R467). -/
def ldShape : Shape :=
  .plain 0x18 none noUses (finAt 3) fun a w place s => do
    let k ← inBound 32768 (storeAddr (scalarSrc s a (aOf w)) (immS w))
    if !readFree s a s.clk then .error conflict
    else .ok (putScalar a (dOf w) (s.clk + 3) s.clk place (storeWord s a k) (takeRead a [s.clk] s))

/-- st: the word is written at the result clk; the constant region is not (R213). -/
def stShape : Shape :=
  .plain 0x19 none noUses (finAt 3) fun a w place s => do
    let k ← inBound 32768 (storeAddr (scalarSrc s a (aOf w)) (immS w))
    if k / 16 < constEnd s a then .error constWrite
    else .ok (addResult a { due := s.clk + 3, issued := s.clk, place := place, kind := .storeWord k (scalarSrc s a (bOf w)) } s)

/-- LD. -/
def execLd (st : StAddr) (s : State) : Out := issueRow ldShape st s
/-- ST. -/
def execSt (st : StAddr) (s : State) : Out := issueRow stShape st s

/-! ### Moves, posts, the time -/

/-- mv: a line moved from a qi end keeps its sideband and is a push of this station (R226, R271); a line of any other source carries none. -/
def mvShape : Shape :=
  .plain 0x1A none useDA (finAt 1) fun a w place s =>
    let src := aOf w
    if isScalar src && isScalar (dOf w) then .ok (putScalar a (dOf w) (s.clk + 1) s.clk place (scalarSrc s a src) s)
    else match lineSrc s a s.clk src with
      | none => .error popEmpty
      | some l => .ok (putLine a (dOf w) (s.clk + 1) s.clk place { l with origin := none, slotClk := none } (popAll a s.clk [src] s))

def postShape : Shape := .plain 0x1B none noUses (finAt 1) postIssue

/-- rdt: the clk of the pour, the pour number, the heat number; what another immediate reads is open, for each station and
clk on its own (log entry 4). -/
def rdtValue (a : Nat) (s : State) (imm : Nat) : Word :=
  match imm with
  | 0 => BitVec.ofNat 64 s.pourOff
  | 1 => BitVec.ofNat 64 s.job.pour
  | 2 => BitVec.ofNat 64 s.job.heat
  | n => Config.freeWord s.clk (0x100000000 * (a + 1) + n)

def rdtShape : Shape :=
  .plain 0x1C none noUses (finAt 1) fun a w place s => .ok (putScalar a (dOf w) (s.clk + 1) s.clk place (rdtValue a s (immOf w)) s)

/-- bc.pick: the latched sequence word of a pickup region (R410). -/
def pickShape : Shape :=
  .plain 0x40 (some 0) noUses (finAt 1) fun a w place s =>
    .ok (putScalar a (dOf w) (s.clk + 1) s.clk place (tget 0 s.mem.pickLatch (immOf w % 256)) s)

/-- MV. -/
def execMv (st : StAddr) (s : State) : Out := issueRow mvShape st s
/-- POST. -/
def execPost (st : StAddr) (s : State) : Out := issueRow postShape st s
/-- RDT. -/
def execRdt (st : StAddr) (s : State) : Out := issueRow rdtShape st s
/-- BC_PICK. -/
def execBcPick (st : StAddr) (s : State) : Out := issueRow pickShape st s

end Sys2Proof.Machine
end

