-- ==== Sys2Proof/Machine/Vector.lean ====
section
/-!
DEFINITION. The vector station (R227, R245 to R248, R251): lane operations, format conversion, lines of the local store.
-/

namespace Sys2Proof.Machine

/-! ### Lane operations -/

/-- The two line operands, all pops ready; or POP_EMPTY. -/
def twoLines (s : State) (a : Nat) (w : Word) : Except Nat (LineData × LineData) :=
  match lineSrc s a s.clk (aOf w), lineSrc s a s.clk (bOf w) with
  | some x, some y => .ok (x.data, y.data)
  | _, _ => .error popEmpty

/-- A lane operation of a and b, latency 4: its line carries the sideband of the first queue operand (R227). -/
def laneShape (code : Nat) (f : State → Nat → Word → LineData → LineData → Nat → BitVec 32) : Shape :=
  .plain code (some 1) useDAB (finAt 4) fun a w place s => do
    let (x, y) ← twoLines s a w
    let l := { bareLine (mapLanes (f s a w x y)) with side := laneSide s a [aOf w, bOf w] }
    .ok (putLine a (dOf w) (s.clk + 4) s.clk place l (popAll a s.clk [aOf w, bOf w] s))

/-- imm[0] selects the INT32 form. -/
def intForm (w : Word) : Bool := immOf w % 2 == 1

/-- The greater, or the lesser, of two INT32 lanes. -/
def intMax (x y : BitVec 32) : BitVec 32 := if x.slt y then y else x
def intMin (x y : BitVec 32) : BitVec 32 := if y.slt x then y else x

def vaddShape : Shape := laneShape 0x40 fun _ _ w x y i => if intForm w then lane x i + lane y i else f32Add (lane x i) (lane y i)
def vsubShape : Shape := laneShape 0x41 fun _ _ w x y i => if intForm w then lane x i - lane y i else f32Sub (lane x i) (lane y i)
def vmulShape : Shape := laneShape 0x42 fun _ _ _ x y i => f32Mul (lane x i) (lane y i)
def vfmaShape : Shape :=
  laneShape 0x43 fun s a w x y i => f32Fma (lane x i) (lane y i) (lane (lineReg s a (immOf w % 8)) i)
def vmaxShape : Shape := laneShape 0x44 fun _ _ w x y i => if intForm w then intMax (lane x i) (lane y i) else f32Max (lane x i) (lane y i)
def vminShape : Shape := laneShape 0x45 fun _ _ w x y i => if intForm w then intMin (lane x i) (lane y i) else f32Min (lane x i) (lane y i)
def vselShape : Shape :=
  laneShape 0x46 fun s a w x y i => if bit (scalarReg s a (immOf w % 8)) i then lane x i else lane y i

/-- vcmp: bit i tells lane i of a below lane i of b (R251). -/
def vcmpShape : Shape :=
  .plain 0x47 (some 1) useDAB (finAt 4) fun a w place s => do
    let (x, y) ← twoLines s a w
    let v := ((List.range 32).filter fun i => f32Lt (lane x i) (lane y i)).foldl (fun n i => n + 2 ^ i) 0
    .ok (putScalar a (dOf w) (s.clk + 4) s.clk place (BitVec.ofNat 64 v) (popAll a s.clk [aOf w, bOf w] s))

/-- vbc: each lane is Sa[31:0]. -/
def vbcShape : Shape :=
  .plain 0x48 (some 1) useD (finAt 1) fun a w place s =>
    let v : BitVec 32 := (scalarSrc s a (aOf w)).setWidth 32
    .ok (putLine a (dOf w) (s.clk + 1) s.clk place (bareLine (mapLanes fun _ => v)) s)

/-- Neighbouring pairs added, each add rounded. -/
def pairSums : List (BitVec 32) → List (BitVec 32)
  | x :: y :: r => f32Add x y :: pairSums r
  | r => r

/-- The sum of the lanes in the pairwise order (R227). -/
def laneSum (d : LineData) : BitVec 32 :=
  (pairSums (pairSums (pairSums (pairSums (pairSums ((List.range 32).map (lane d))))))).headD 0

/-- vsum: latency 6. -/
def vsumShape : Shape :=
  .plain 0x49 (some 1) useDA (finAt 6) fun a w place s =>
    match lineSrc s a s.clk (aOf w) with
    | none => .error popEmpty
    | some l =>
      .ok (putScalar a (dOf w) (s.clk + 6) s.clk place ((laneSum l.data).setWidth 64) (popAll a s.clk [aOf w] s))

/-- VADD. -/
def execVadd (st : StAddr) (s : State) : Out := issueRow vaddShape st s
/-- VSUB. -/
def execVsub (st : StAddr) (s : State) : Out := issueRow vsubShape st s
/-- VMUL. -/
def execVmul (st : StAddr) (s : State) : Out := issueRow vmulShape st s
/-- VFMA. -/
def execVfma (st : StAddr) (s : State) : Out := issueRow vfmaShape st s
/-- VMAX. -/
def execVmax (st : StAddr) (s : State) : Out := issueRow vmaxShape st s
/-- VMIN. -/
def execVmin (st : StAddr) (s : State) : Out := issueRow vminShape st s
/-- VSEL. -/
def execVsel (st : StAddr) (s : State) : Out := issueRow vselShape st s
/-- VCMP. -/
def execVcmp (st : StAddr) (s : State) : Out := issueRow vcmpShape st s
/-- VBC. -/
def execVbc (st : StAddr) (s : State) : Out := issueRow vbcShape st s
/-- VSUM. -/
def execVsum (st : StAddr) (s : State) : Out := issueRow vsumShape st s

/-! ### vcvt (R245 to R248) -/

def cvRnd (w : Word) : Nat := immOf w / 64 % 4
def cvTgt (w : Word) : Nat := immOf w / 8 % 8
def cvSrc (w : Word) : Nat := immOf w % 8

/-- Groups of 32 elements in a line. -/
def groupsOf (fmt : Nat) : Nat := elemsPerLine fmt / 32

/-- The draw of source element i (R248): n stochastic conversions have issued in this pour before. -/
def stochDraw (s : State) (a i : Nat) : Nat := fld (mix64 (s.cfgw 0x748) s.job.heat s.job.pour a i (s.station a).stochastic) 63 32

/-- The rounding of source element i. -/
def cvRound (s : State) (a i : Nat) (w : Word) : Rnd :=
  match cvRnd w with | 0 => .rne | 1 => .zero | _ => .stoch (stochDraw s a i)

/-- The 32 converted codes of a source line. -/
def cvCodes (s : State) (a : Nat) (w sb : Word) (d : LineData) : List Nat :=
  let sgrp := fld sb 2 0 % groupsOf (cvSrc w)
  (List.range 32).map fun i => convert (cvSrc w) (cvTgt w) (cvRound s a i w) (elemAt (cvSrc w) d (32 * sgrp + i))

/-- The destination group's place in the line, in bits. -/
def cvShift (w sb : Word) : Nat := 32 * elemBits (cvTgt w) * (fld sb 5 3 % groupsOf (cvTgt w))

/-- The converted group in its place, and the bits it covers. -/
def cvData (s : State) (a : Nat) (w sb : Word) (d : LineData) : LineData :=
  BitVec.shiftLeft (lineOfCodes (elemBits (cvTgt w)) (cvCodes s a w sb d)) (cvShift w sb)
def cvMask (w sb : Word) : LineData := BitVec.ofNat 1024 ((2 ^ (32 * elemBits (cvTgt w)) - 1) * 2 ^ cvShift w sb)

/-- The sideband of a pushed line (R246). -/
def cvSide (w sb : Word) : BitVec 24 :=
  BitVec.ofNat 24 ((if bit sb 6 then 2 ^ 23 + cvTgt w * 2 ^ 12 + fld sb 12 8 else 0) + (if bit sb 7 then 2 ^ 22 else 0))

/-- vcvt: latency 4. -/
def vcvtEff (a : Nat) (w : Word) (place : Nat) (s : State) : Except Nat State :=
  match lineSrc s a s.clk (aOf w) with
  | none => .error popEmpty
  | some l =>
    let sb := scalarSrc s a (bOf w)
    let d := cvData s a w sb l.data
    let due := s.clk + 4
    let out : Line := { bareLine d with side := cvSide w sb }
    let kind : ResultKind :=
      if isQo (dOf w) then
        (if bit sb 16 then .pushMerge (dOf w) out (fld sb 15 13) (cvMask w sb) else .push (dOf w) out)
      else .line (dOf w % 8) d (cvMask w sb)
    .ok (addResult a { due := due, issued := s.clk, place := place, kind := kind } (popAll a s.clk [aOf w] s))

/-- Every issued stochastic vcvt counts (R248). -/
def countStoch (a _place : Nat) (w : Word) (s : State) : State :=
  if cvRnd w = 2 then s.setStation a fun x => { x with stochastic := x.stochastic + 1 } else s

def vcvtShape : Shape := { Shape.plain 0x50 (some 1) useDA (finAt 4) vcvtEff with always := countStoch }

/-- VCVT. -/
def execVcvt (st : StAddr) (s : State) : Out := issueRow vcvtShape st s

/-! ### vld, vst -/

def vldShape : Shape :=
  .plain 0x51 (some 1) useD (finAt 3) fun a w place s => do
    let k ← inBound 2048 (storeAddr (scalarSrc s a (aOf w)) (immS w))
    if !readFree s a s.clk then .error conflict
    else .ok (putLine a (dOf w) (s.clk + 3) s.clk place (bareLine (storeLine s a k)) (takeRead a [s.clk] s))

def vstShape : Shape :=
  .plain 0x52 (some 1) (fun w => [bOf w]) (finAt 3) fun a w place s => do
    let k ← inBound 2048 (storeAddr (scalarSrc s a (aOf w)) (immS w))
    if k < constEnd s a then .error constWrite
    else match lineSrc s a s.clk (bOf w) with
      | none => .error popEmpty
      | some l =>
        .ok (addResult a { due := s.clk + 3, issued := s.clk, place := place, kind := .storeLine k l.data } (popAll a s.clk [bOf w] s))

/-- VLD. -/
def execVld (st : StAddr) (s : State) : Out := issueRow vldShape st s
/-- VST. -/
def execVst (st : StAddr) (s : State) : Out := issueRow vstShape st s

end Sys2Proof.Machine
end

