-- ==== Sys2Proof/Machine/EngineRows.lean ====
section
/-!
DEFINITION. The opcodes of the engines (R227): Crucible, Riddle, Ladle, Mould, sort engine, memory station, port stations; and a wait that
expires (R224).
-/

namespace Sys2Proof.Machine

/-- An engine's opcode. -/
def engineShape (code kind : Nat) (uses : Word → List Nat) (fin : State → Nat → Word → Nat → Nat)
    (eff : Nat → Word → Nat → State → Except Nat State) : Shape := .plain code (some kind) uses fin eff

/-! ### Crucible (R279) -/

def crOpenShape : Shape := engineShape 0x40 2 noUses (finAt 8) fun a w _ s => crOpen a w s
def crFeedShape : Shape := engineShape 0x41 2 useA (finAt 0) crFeed
def crEmitShape : Shape := engineShape 0x42 2 useD (fun s a w t => t + 8 + (emitLines s a w - 1) / 2) crEmit
def crCloseShape : Shape := engineShape 0x43 2 noUses (finAt 0) fun a w _ s => crClose a w s

/-- CR_OPEN. -/
def execCrOpen (st : StAddr) (s : State) : Out := issueRow crOpenShape st s
/-- CR_FEED. -/
def execCrFeed (st : StAddr) (s : State) : Out := issueRow crFeedShape st s
/-- CR_EMIT. -/
def execCrEmit (st : StAddr) (s : State) : Out := issueRow crEmitShape st s
/-- CR_CLOSE. -/
def execCrClose (st : StAddr) (s : State) : Out := issueRow crCloseShape st s

/-! ### Riddle (R309 to R312) -/

def rdLoadShape : Shape := engineShape 0x40 3 noUses riddleFinish rdLoad
def rdRunShape : Shape := engineShape 0x41 3 useDA riddleFinish rdRun

/-- RD_LOAD. -/
def execRdLoad (st : StAddr) (s : State) : Out := issueRow rdLoadShape st s
/-- RD_RUN. -/
def execRdRun (st : StAddr) (s : State) : Out := issueRow rdRunShape st s

/-! ### Ladle (R325 to R339) -/

/-- One of the four walks, by imm[1:0]. -/
def walkShape (mode : Nat) (uses : Word → List Nat) (eff : Nat → Word → Nat → State → Except Nat State) : Shape :=
  { engineShape 0x41 4 uses ladleFinish eff with sel := fun w => immOf w % 4 == mode }

def laModeShape : Shape := engineShape 0x40 4 noUses ladleFinish laMode
def laWalkMapShape : Shape := walkShape 0 useDAB laMap
def laWalkPassShape : Shape := walkShape 1 useDAB laPass
def laWalkMergeShape : Shape := walkShape 2 useDAB laMerge
def laWalkSkimShape : Shape := walkShape 3 useDAB laSkim

/-- LA_MODE. -/
def execLaMode (st : StAddr) (s : State) : Out := issueRow laModeShape st s
/-- LA_WALK_MAP. -/
def execLaWalkMap (st : StAddr) (s : State) : Out := issueRow laWalkMapShape st s
/-- LA_WALK_PASS. -/
def execLaWalkPass (st : StAddr) (s : State) : Out := issueRow laWalkPassShape st s
/-- LA_WALK_MERGE. -/
def execLaWalkMerge (st : StAddr) (s : State) : Out := issueRow laWalkMergeShape st s
/-- LA_WALK_SKIM. -/
def execLaWalkSkim (st : StAddr) (s : State) : Out := issueRow laWalkSkimShape st s

/-! ### Mould (R322 to R324) -/

def moWloadShape : Shape := engineShape 0x40 5 useA mouldFinish moWload
def moMacShape : Shape := engineShape 0x41 5 useA mouldFinish moMac
def moDrainShape : Shape := engineShape 0x42 5 useD mouldFinish moDrain

/-- MO_WLOAD. -/
def execMoWload (st : StAddr) (s : State) : Out := issueRow moWloadShape st s
/-- MO_MAC. -/
def execMoMac (st : StAddr) (s : State) : Out := issueRow moMacShape st s
/-- MO_DRAIN. -/
def execMoDrain (st : StAddr) (s : State) : Out := issueRow moDrainShape st s

/-! ### Sort engine (R297 to R305) -/

def soRunSortShape : Shape := { engineShape 0x40 6 useDA sortFinish soRun with sel := fun w => !modeBit w }
def soRunLoadShape : Shape := { engineShape 0x40 6 useDA sortFinish soRun with sel := modeBit }
def soMergeShape : Shape := engineShape 0x41 6 useD sortFinish soMerge
def soTopkShape : Shape := engineShape 0x42 6 useDA sortFinish soTopk
def soSpillShape : Shape := engineShape 0x43 6 useD sortFinish soSpill

/-- SO_RUN_SORT. -/
def execSoRunSort (st : StAddr) (s : State) : Out := issueRow soRunSortShape st s
/-- SO_RUN_LOAD. -/
def execSoRunLoad (st : StAddr) (s : State) : Out := issueRow soRunLoadShape st s
/-- SO_MERGE. -/
def execSoMerge (st : StAddr) (s : State) : Out := issueRow soMergeShape st s
/-- SO_TOPK. -/
def execSoTopk (st : StAddr) (s : State) : Out := issueRow soTopkShape st s
/-- SO_SPILL. -/
def execSoSpill (st : StAddr) (s : State) : Out := issueRow soSpillShape st s

/-! ### Memory station (R349, R350) -/

def mrRdShape : Shape := engineShape 0x40 7 useD memFinish mrRd
def mrWrShape : Shape := engineShape 0x41 7 useA memFinish mrWr
def mrGatherShape : Shape := engineShape 0x42 7 useDA memFinish mrGather

/-- MR_RD: upsets arise in the stored lines before the reads. -/
def execMrRd (st : StAddr) (upsets : List Upset) (s : State) : Out := issueRow mrRdShape st (addUpsets upsets s)
/-- MR_WR. -/
def execMrWr (st : StAddr) (s : State) : Out := issueRow mrWrShape st s
/-- MR_GATHER. -/
def execMrGather (st : StAddr) (upsets : List Upset) (s : State) : Out := issueRow mrGatherShape st (addUpsets upsets s)

/-! ### Port stations (R227) -/

def piTakeShape : Shape := engineShape 0x40 8 (fun w => [0, dOf w]) (finAt 0) piTake
def peSendShape : Shape := engineShape 0x40 9 (fun w => [8, aOf w]) (finAt 0) peSend

/-- PI_TAKE. -/
def execPiTake (st : StAddr) (s : State) : Out := issueRow piTakeShape st s
/-- PE_SEND. -/
def execPeSend (st : StAddr) (s : State) : Out := issueRow peSendShape st s

/-! ### WAIT_EXPIRED (R224) -/

/-- Every instruction of every kind. -/
def commonShapes : List Shape :=
  [nopShape, haltShape, atShape, jmpShape, bnzShape, bzShape, loopShape, liShape, luiShape, addShape, subShape, andShape, orShape, xorShape,
   shlShape, shrShape, sarShape, mulShape, sltShape, sltuShape, addiShape, ldShape, stShape, mvShape, postShape, rdtShape]

def kindShapes : List Shape :=
  [pickShape, vaddShape, vsubShape, vmulShape, vfmaShape, vmaxShape, vminShape, vselShape, vcmpShape, vbcShape, vsumShape, vcvtShape, vldShape,
   vstShape, crOpenShape, crFeedShape, crEmitShape, crCloseShape, rdLoadShape, rdRunShape, laModeShape, laWalkMapShape, laWalkPassShape,
   laWalkMergeShape, laWalkSkimShape, moWloadShape, moMacShape, moDrainShape, soRunSortShape, soRunLoadShape, soMergeShape, soTopkShape,
   soSpillShape, mrRdShape, mrWrShape, mrGatherShape, piTakeShape, peSendShape]

/-- The instruction at a station's pc. -/
def shapeAt (s : State) (a : Nat) : Option Shape := (commonShapes ++ kindShapes).find? fun p => p.here s a

/-- The instruction at the pc issues with its data effects suppressed once its wait has expired. -/
def expireWait (a : Nat) (s : State) : State :=
  let s1 := settle a s
  if waitOver s1 a then
    match shapeAt s1 a with
    | some p => issueNow p a true s1
    | none => s
  else s

/-- WAIT_EXPIRED. -/
def execWaitExpired (st : StAddr) (s : State) : Out := .next (expireWait st.toNat s)

end Sys2Proof.Machine
end

