-- ==== Sys2Proof/Machine/MemAccess.lean ====
section
/-!
DEFINITION. Unscheduled accesses to the stacked memory: requests of packets and of the host with their checks (R346, R355, R409), regulators
(R356), access slots (R347), capture writes (R400, R401), the shakeout (R363).
-/

namespace Sys2Proof.Machine

/-! ### Spans of HBM lines -/

/-- The HBM lines a span touches. -/
def spanLines (addr len : Nat) : List Nat :=
  (List.range ((addr % 64 + len + 63) / 64)).map fun i => addr / 64 * 64 + 64 * i

/-- The chunks a span touches. -/
def spanChunks (addr len : Nat) : List Nat :=
  (List.range ((addr % 128 + len + 127) / 128)).map fun i => addr / 128 * 128 + 128 * i

/-- Read some lines, one after another: their data, none where one fails. -/
def readLines (ls : List Nat) (source : Nat) (s : State) : Option (List Byte) × State :=
  ls.foldl (fun x l =>
    let (d, s) := readLine l source false x.2
    (match x.1, d with | some a, some b => some (a ++ b.1) | _, _ => none, s)) (some [], s)

/-- Read a span, whole or not at all (R360). -/
def readSpan (addr len source : Nat) (s : State) : Option (List Byte) × State :=
  match readLines (spanLines addr len) source s with
  | (some d, s) => (some ((d.drop (addr % 64)).take len), s)
  | (none, s) => (none, s)

/-- The lines of a span that it does not cover whole (R355). -/
def partLines (addr len : Nat) : List Nat := (spanLines addr len).filter fun l => decide (l < addr) || decide (addr + len < l + 64)

/-- What a line holds after a write of a span: the bytes of the span, its own elsewhere. -/
def mergeSpan (addr : Nat) (data : List Byte) (l : Nat) (old : List Byte) : List Byte :=
  (List.range 64).map fun i => if addr ≤ l + i ∧ l + i < addr + data.length then data.getD (l + i - addr) 0 else old.getD i 0

/-- Write a span line by line (R355): partly covered lines are read, merged and written; nothing is written when such a read fails (R360). -/
def writeSpan (addr : Nat) (data : List Byte) (source : Nat) (s : State) : Bool × State :=
  let ls := partLines addr data.length
  match readLines ls source s with
  | (none, s) => (false, s)
  | (some d, s) =>
    let olds := ls.zip (pieces 64 ls.length d)
    (true, each (spanLines addr data.length)
      (fun l => writeLine l (mergeSpan addr data l (((olds.find? (·.1 == l)).map (·.2)).getD [])) source) s)

/-! ### Checks (R355, R409) -/

/-- Bytes of the region that holds an address; zero where none does (R146). -/
def windowSize (s : State) (addr : Nat) : Nat := match regionOf s addr 1 with | some r => min (rgBytes s r) 0xFFFFFFFF | none => 0

/-- The checks of R355 in order: the region, or the status and detail of the first failure. The flask is a packet's, none for the host. -/
def requestCheck (s : State) (addr len : Nat) (allows : Nat → Bool) (flask : Option Nat) (port : Option PortNo) : Except (Nat × Nat) Nat :=
  let flaskFail : Except (Nat × Nat) Nat := .error (0x05, match port with | some p => portFlask s p.toNat | none => 0)
  if absentAddr s addr then .error (0x01, stackOf addr)
  else if addr % 16 ≠ 0 then .error (0x04, 0)
  else match regionOf s addr len with
    | none => .error (0x03, windowSize s addr)
    | some r =>
      if !allows r then .error (0x03, windowSize s addr)
      else if (match flask with | some f => f != rgFlask s r | none => false) then flaskFail
      else if shaking s r then flaskFail
      else .ok r

/-! ### Requests and regulators (R346, R356) -/

/-- MEM_BW_CFG of a regulator: flasks 0 to 15, 16 the host. -/
def bwLimit (s : State) (reg : Nat) : Nat := fld (s.cfgw (tbKey 12 (0x1000 + 16 * reg))) 23 0

/-- A request fits in what its regulator allows in this pour; outside RUN no pour bounds it. -/
def fitsRegulator (s : State) (m : MemRequest) : Bool :=
  !s.running || bwLimit s m.reg == 0 || decide (tget 0 s.mem.used m.reg + (spanChunks m.addr m.len).length ≤ 32 * bwLimit s m.reg)

/-- Charge a regulator: MEM_BW_USE counts 29 bits. -/
def chargeRegulator (m : MemRequest) (s : State) : State :=
  if s.running then s.setMem fun x => { x with used := tmod 0 x.used m.reg (satAdd 29 · (spanChunks m.addr m.len).length) } else s

/-- A request joins the waiting ones: admitted, unless its regulator is spent or an earlier request waits on it. -/
def enqueueRequest (m : MemRequest) (s : State) : State :=
  let ok := fitsRegulator s m && !(s.mem.waiting.any fun x => x.reg == m.reg && !x.admitted)
  let s := if ok then chargeRegulator m s else s
  s.setMem fun x => { x with waiting := x.waiting ++ [{ m with admitted := ok }] }

/-- Clk 0 of a pour: the regulators start anew and waiting requests are admitted in order of arrival (R356). -/
def admitWaiting (s : State) : State :=
  let ws := s.mem.waiting
  let s := s.setMem fun m => { m with used := [], waiting := [] }
  each ws (fun m s => if m.admitted then s.setMem fun x => { x with waiting := x.waiting ++ [m] } else enqueueRequest m s) s

/-! ### Local delivery: a packet leaves its queue -/

/-- Pool queue of a packet delivered here: by the bay of its target station and its class (R176). -/
def deliveryKey (bay : Nat) (h : BitVec 256) : Nat := localKey bay (hCls h)

/-- A delivered packet that is not answered leaves its queue: QUEUE_RELEASE frees its cells. -/
def consume (bay : Nat) (h : BitVec 256) (owner : Requester) (s : State) : State :=
  if hCls h = 2 || hCls h = 3 || owner = .none then s
  else leaveQueue (deliveryKey bay h)
    { pkt := { hdr := h, payload := [], trailer := 0, stampPour := 0, stampClk := 0, inPort := none, stomped := false, complete := true, ident := 0 },
      owner := owner, cells := cellsOf h, ring := 0, since := s.clk, targets := [], reserved := [] } s

/-- A delivered packet that a station answers: its blocks pass, its completion keeps one cell (R182). -/
def answerDelivered (a : Nat) (k : Packet) (owner : Requester) (status detail : Nat) (s : State) : State :=
  let cells := if owner = .none then 0 else cellsOf k.hdr
  let s := if cells = 0 then s else poolPop (deliveryKey (bayOf a) k.hdr) cells s
  answer k.hdr k.inPort a owner cells status detail s

/-- A packet that a station of this module has made, at the station's charge. -/
def ownPacket (a : Nat) (k : Packet) (s : State) : QPkt :=
  { pkt := k, owner := .station (BitVec.ofNat 12 a), cells := cellsOf k.hdr, ring := 0, since := s.clk, targets := [], reserved := [], src := a }

/-- It goes to a station of this module, or out by the route table; one that the table refuses is answered (R162, R165). -/
def sendOwn (a : Nat) (k : Packet) (s : State) : State :=
  let q := ownPacket a k s
  let s := charge q.owner q.cells s
  if addressedHere s k.hdr then placeLocal q (.station (BitVec.ofNat 12 (hDstStation k.hdr))) (hDstStation k.hdr) s
  else forwardPacket q s

/-- A station's quota has room for some cells (R181). -/
def quotaRoom (s : State) (a cells : Nat) : Bool :=
  decide ((s.station a).quotaUse + cells ≤ fld (s.cfgw (stKey a 0x210)) 21 0)

/-- The READ_DATA that answers a READ (R126). -/
def readDataPacket (s : State) (a : Nat) (k : Packet) (data : List Byte) : Packet :=
  let ret := beNat (k.payload.take 8)
  { hdr := mkHeader 2 (hCls k.hdr) 0 (hSrcPlane k.hdr) (hSrc k.hdr) 1 s.moduleId (hFlask k.hdr) ret (hSrcStation k.hdr)
      (data.length / 16 - 1) (hInst k.hdr) (hTag k.hdr) a s.job.pour
    payload := data, trailer := 0, stampPour := s.job.pour, stampClk := s.pourOff, inPort := none, stomped := false, complete := true,
    ident := 0 }

/-! ### Requests of packets (R126, R127, R346, R355, R431) -/

/-- Bytes a READ asks for. -/
def readLength (k : Packet) : Nat := 16 * ((k.payload.getD 8 0).toNat + 1)

/-- The checks of a packet delivered to a station: status and detail of the first failure. -/
def stationCheck (s : State) (k : Packet) : Option (Nat × Nat) :=
  let a := hDstStation k.hdr
  let pf := match k.inPort with | some p => portFlask s p.toNat | none => 0
  if !s.running then some (0x07, s.boot.phase.code)
  else if !stationPresent s a then some (0x01, a)
  else if stationFlask s a ≠ 0 && stationFlask s a != hFlask k.hdr then some (0x05, pf)
  else if kindOf a ≠ 7 then (if hAddr k.hdr % 16 ≠ 0 then some (0x04, 0) else some (0x03, 0))
  else none

/-- The request a checked packet makes. -/
def requestOf (k : Packet) (owner : Requester) (reg : Nat) : MemRequest :=
  let isWrite := hType k.hdr != 1
  { addr := hAddr k.hdr, len := if isWrite then k.payload.length else readLength k, isWrite := isWrite,
    data := if isWrite then k.payload else [], enables := BitVec.allOnes 64, reg := reg, pkt := some k, owner := owner, admitted := false,
    station := BitVec.ofNat 12 (hDstStation k.hdr) }

/-- WRITE, READ and READ_DATA to a station: checked, refused or made a request (R126, R355). -/
def deliverRequest (k : Packet) (owner : Requester) (s : State) : State :=
  let a := hDstStation k.hdr
  match stationCheck s k with
  | some (st, d) => answerDelivered a k owner st d s
  | none =>
    let m := requestOf k owner 0
    match requestCheck s m.addr m.len (if m.isWrite then rgWrite s else rgRead s) (some (hFlask k.hdr)) k.inPort with
    | .error (st, d) => answerDelivered a k owner st d s
    | .ok r => enqueueRequest { m with reg := rgFlask s r } s

/-! ### Performing a request (R346, R347, R355, R360) -/

/-- The station that performs accesses of a stack for a station: itself, or the one of its index in bay 2k (R346). -/
def performer (a k : Nat) : Nat := if bayOf a / 2 = k then a else 512 * k + 0x70 + indexOf a

/-- Pseudo-channels of a stack that scheduled accesses still to come take in the slot of a clk. -/
def comingChannels (s : State) (k c : Nat) : List Nat :=
  let st := slotStart s c
  ([512 * k + 0x70, 512 * k + 0x71, 512 * k + 0x170, 512 * k + 0x171].flatMap fun a => (s.station a).ops).flatMap fun o =>
    o.agenda.filterMap fun e =>
      match e.2 with
      | .act u =>
        if slotStart s e.1 != st then none
        else match o.kind with
          | .mrRd => some (channelOf (o.sa.toNat + 128 * u))
          | .mrWr => some (channelOf (o.sb.toNat + 128 * u))
          | .mrGather => if u < 131072 then some (channelOf (gatherAddr o (u / mgR o.word) + 128 * (u % mgR o.word))) else none
          | _ => none
      | .pop _ => none

/-- An unscheduled access to a chunk can be made in the slot of a clk: outside RUN no pour places slots (R347, R348). -/
def freeAt (s : State) (addr c : Nat) : Bool :=
  !s.running || (slotLegal s addr c false && !(comingChannels s (stackOf addr) c).contains (channelOf addr))

/-- It can be made now. -/
def freeNow (s : State) (addr : Nat) : Bool := freeAt s addr s.clk

/-- The chunks of a span with the clk of each one's slot: the running slot, and the next for a chunk whose pseudo-channel an earlier chunk
takes. -/
def chunkClks (s : State) (addr len : Nat) : List (Nat × Nat) :=
  let cs := spanChunks addr len
  ((List.range cs.length).zip cs).map fun e => (e.2, if e.1 < 32 then s.clk else slotEnd s s.clk + 1)

/-- The slots of a span are free. -/
def spanFree (s : State) (addr len : Nat) : Bool := (chunkClks s addr len).all fun e => freeAt s e.1 e.2

/-- Remember an unscheduled access. -/
def noteUnsched (addr len : Nat) (s : State) : State :=
  if s.running then each (chunkClks s addr len) (fun e s => noteAccess e.1 e.2 false s) s else s

/-- The bytes a host write replaces in a line. -/
def mergeEnabled (enables : BitVec 64) (new old : List Byte) : List Byte :=
  (List.range 64).map fun i => if enables.getLsbD i then new.getD i 0 else old.getD i 0

/-- A host's write of one line: a whole line is written without reading, a part of it is read, merged and written (R355, R409). -/
def writeHostLine (m : MemRequest) (s : State) : Bool × State :=
  if m.enables = BitVec.allOnes 64 then (true, writeLine m.addr m.data 2 s)
  else match readLine m.addr 2 false s with
    | (none, s) => (false, s)
    | (some d, s) => (true, writeLine m.addr (mergeEnabled m.enables m.data d.1) 2 s)

/-- The host's write of a pickup region's sequence word is copied (R410). -/
def copyPickups (hits : Nat → Bool) (s : State) : State :=
  each ((regions s).filter fun r => rgKind s r == 1 && hits (rgBase s r))
    (fun r s => s.setMem fun m => { m with pickCopy := tset m.pickCopy r (BitVec.ofNat 64 (leNat (cellRead m.cells (rgBase s r) 8))) }) s

/-- A host request is made: its data returned, all ones poisoned where a line is bad (R360, R409). -/
def performHost (m : MemRequest) (s : State) : State :=
  if m.isWrite then
    let (ok, s) := writeHostLine m s
    (if ok then copyPickups (fun b => b == m.addr && m.enables.setWidth 8 != 0#8) s else s).emit .cxlDone
  else match readSpan m.addr m.len 2 s with
    | (some d, s) => s.emit (.cxlData d false)
    | (none, s) => s.emit (.cxlData (List.replicate m.len 0xFF) true)

/-- A packet's request is made by its station (R346, R147). -/
def performPacket (k : Packet) (m : MemRequest) (s : State) : State :=
  let a := m.station.toNat
  if m.isWrite then
    match writeSpan m.addr m.data 1 s with
    | (false, s) => answerDelivered a k m.owner 0x09 (stackOf m.addr) s
    | (true, s) => if hCplReq k.hdr then answerDelivered a k m.owner 0 0 s else consume (bayOf a) k.hdr m.owner s
  else match readSpan m.addr m.len 1 s with
    | (none, s) => answerDelivered a k m.owner 0x09 (stackOf m.addr) s
    | (some d, s) => sendOwn a (readDataPacket s a k d) (consume (bayOf a) k.hdr m.owner s)

/-- A request that reached a station of another stack starts its way to the station that performs it, at the forwarding station's charge,
once that station's quota has room (R346). -/
def forwardRequest (m : MemRequest) (s : State) : MemRequest × State :=
  match m.pkt with
  | none => (m, s)
  | some k =>
    let a := m.station.toNat
    let b := performer a (stackOf m.addr)
    if b = a || m.coming || !quotaRoom s a (cellsOf k.hdr) then (m, s)
    else
      let q := ownPacket a k s
      ({ m with owner := q.owner, station := BitVec.ofNat 12 b, coming := true },
        placeLocal q (.forward (BitVec.ofNat 12 b)) b (charge q.owner q.cells (consume (bayOf a) k.hdr m.owner s)))

/-- A forwarded request has reached the station that performs it (R346). -/
def forwardLands (b : Nat) (q : QPkt) (s : State) : State :=
  let s := poolPush (deliveryKey (bayOf b) q.pkt.hdr) q.cells s
  match s.mem.waiting.findIdx? fun m => m.coming && m.pkt == some q.pkt && m.station.toNat == b with
  | some i => s.setMem fun x => { x with waiting := x.waiting.modify i fun m => { m with coming := false } }
  | none => s

/-- A request can be performed now: its chunks' slots are free, a READ's READ_DATA has room (R181, R347). -/
def performable (s : State) (m : MemRequest) : Bool :=
  spanFree s m.addr m.len &&
  match m.pkt with
  | some k => m.isWrite || quotaRoom s m.station.toNat (cellsOf (readDataPacket s 0 k (List.replicate m.len 0)).hdr)
  | none => true

/-- Perform a request that has left the waiting ones. -/
def performRequest (m : MemRequest) (s : State) : State :=
  let s := noteUnsched m.addr m.len s
  match m.pkt with
  | some k => performPacket k m s
  | none => performHost m s

/-- Forward every admitted request of a stack that waits at a station of another. -/
def forwardAll (k : Nat) (s : State) : State :=
  let ws := s.mem.waiting
  let s := s.setMem fun m => { m with waiting := [] }
  each ws (fun m s =>
    let (m, s) := if m.admitted && stackOf m.addr == k then forwardRequest m s else (m, s)
    s.setMem fun x => { x with waiting := x.waiting ++ [m] }) s

/-- A request stands at the station that performs it. -/
def inPlace (m : MemRequest) : Bool := !m.coming && (m.pkt.isNone || performer m.station.toNat (stackOf m.addr) == m.station.toNat)

/-- The oldest host request waits for the one before it (R409). -/
def hostFirst (s : State) (m : MemRequest) : Bool :=
  m.pkt.isSome || (match s.mem.waiting.find? (·.pkt.isNone) with | some x => x == m | none => true)

/-! ### What goes ahead of requests -/

/-- A corrected line of a stack that the scrub can write back now (R360). -/
def dueWriteBack (s : State) (k : Nat) : Option (Nat × List Byte) := s.mem.writeBack.find? fun e => stackOf e.1 == k && freeNow s (e.1 / 128 * 128)

/-- The scrub writes a corrected line back (R360). -/
def writeBackLine (e : Nat × List Byte) (s : State) : State :=
  stackCtr (stackOf e.1) 3 1 32 (writeLine e.1 e.2 3 (noteUnsched (e.1 / 128 * 128) 128 s))

/-- The capture region in force. -/
def captureRegion (s : State) : Nat := fld s.cap.cfgInForce 55 48

/-- Byte address of the next capture record. -/
def captureAddr (s : State) : Nat := rgBase s (captureRegion s) + 64 * s.cap.written

/-- A record fits in what is left of the region. -/
def captureFits (s : State) (n : Nat) : Bool := decide (64 * s.cap.written + n ≤ rgBytes s (captureRegion s))

/-- The END record. -/
def endRecord (s : State) : List Byte := captureBytes 4 0 s.job.heat 0 0 0 0 []

/-- Write one capture record. -/
def writeRecord (r : List Byte) (s : State) : State :=
  let addr := captureAddr s
  let s := (writeSpan addr r 1 (noteUnsched addr r.length s)).2
  s.setCap fun c => { c with written := c.written + r.length / 64 }

/-- The region is full: END where it still fits, and no more is recorded; the capture stops at the next slot boundary (R399, R401). -/
def captureFull (s : State) : State :=
  let s := if captureFits s 64 then writeRecord (endRecord s) s else s
  s.setCap fun c => { c with full := true, buffer := [] }

/-- The record that a die's buffer may write next: a HEAT or END record keeps its place among the records of both dies. -/
def nextCapture (s : State) (die : Nat) : Option (List Byte) :=
  match tget [] s.cap.buffer die with
  | [] => none
  | r :: _ =>
    if die = 1 then (if r.isEmpty then none else some r)
    else if 3 ≤ (r.getD 7 0).toNat / 16 && (tget [] s.cap.buffer 1).head? != some [] then none
    else some r

/-- A record leaves its buffer; with a HEAT or END record goes the mark on die 1. -/
def dropCapture (die : Nat) (r : List Byte) (s : State) : State :=
  s.setCap fun c =>
    let b := tmod [] c.buffer die List.tail
    { c with buffer := if die = 0 && 3 ≤ (r.getD 7 0).toNat / 16 then tmod [] b 1 List.tail else b }

/-- A die's next record can be written, or is the one that finds the region full. -/
def captureReady (s : State) (die : Nat) : Bool :=
  match nextCapture s die with
  | some r => !captureFits s r.length || spanFree s (captureAddr s) r.length
  | none => false

/-- The oldest record of a die's buffer is written, where its slots are free. -/
def captureRecord (die : Nat) (s : State) : State :=
  match nextCapture s die with
  | none => s
  | some r =>
    if !captureFits s r.length then captureFull s
    else if spanFree s (captureAddr s) r.length then writeRecord r (dropCapture die r s)
    else s

/-- A die with a record that can be written now into a stack (R401): of two, die 0 (DESIGN CHOICE, log entry 34). -/
def dueCapture (s : State) (k : Nat) : Option Nat :=
  if stackOf (captureAddr s) = k then [0, 1].find? (captureReady s) else none

/-- The spans of a shakeout that a stack still owes, each with those of its next chunks, one for each pseudo-channel, whose slot is free
(R363). -/
def shakeChunk (s : State) (k : Nat) : Option ((Nat × Nat) × Nat) :=
  if !s.mem.shakeBusy then none
  else ((s.mem.shakeLeft.filter fun e => stackOf e.1 == k).flatMap fun e =>
      ((List.range 32).map fun i => (e, e.1 + 128 * i)).filter fun x => decide (x.2 < e.2)).find? fun x => freeNow s x.2

/-- Clear one chunk of a span with fresh side bits. -/
def shakeOne (x : (Nat × Nat) × Nat) (s : State) : State :=
  let s := writeChunk x.2 (List.replicate 128 0) 1 (noteUnsched x.2 128 s)
  s.setMem fun m =>
    { m with shakeLeft := m.shakeLeft.flatMap fun e =>
        if e = x.1 then [(e.1, x.2), (x.2 + 128, e.2)].filter fun p => decide (p.1 < p.2) else [e] }

/-- Whether something that goes ahead of a stack's requests can be done now. -/
def requestsYield (s : State) (k : Nat) : Bool := (dueWriteBack s k).isSome || (dueCapture s k).isSome || (shakeChunk s k).isSome

/-- UNSCHEDULED_ACCESS (R347): what the scrub writes back, then capture records (R401), then the shakeout (R363), then the oldest waiting
request of the stack that can be made. That the scrub comes before capture and capture before the shakeout is a DESIGN CHOICE (log entry
29). -/
def unscheduledAccess (k : Nat) (s : State) : State :=
  match dueWriteBack s k, dueCapture s k, shakeChunk s k with
  | some e, _, _ => writeBackLine e s
  | none, some die, _ => captureRecord die s
  | none, none, some x => shakeOne x s
  | none, none, none =>
    let s := forwardAll k s
    match s.mem.waiting.find? fun m => m.admitted && stackOf m.addr == k && inPlace m && hostFirst s m && performable s m with
    | some m => performRequest m (s.setMem fun x => { x with waiting := x.waiting.erase m })
    | none => s

/-- UNSCHEDULED_ACCESS. -/
def execUnscheduledAccess (stack : Fin 8) (upsets : List Upset) (s : State) : Out :=
  .next (if s.pwr.mainOn && (s.stack stack).ready then unscheduledAccess stack (addUpsets upsets s) else s)

/-- CAPTURE_RECORD. -/
def execCaptureRecord (die : Bool) (s : State) : Out :=
  .next (if s.pwr.mainOn then captureRecord (if die then 1 else 0) s else s)

/-! ### The host (R409) -/

/-- A host access that fails is answered at once: all ones poisoned, or discarded. -/
def refuseHost (m : MemRequest) (s : State) : State :=
  if m.isWrite then s.emit .cxlDone else s.emit (.cxlData (List.replicate m.len 0xFF) true)

/-- The host's permissions by region kind (R409). -/
def hostAllows (s : State) (isWrite : Bool) (r : Nat) : Bool :=
  rgHost s r && (!isWrite || (rgKind s r != 3 && !(rgKind s r == 2 && s.cap.running)))

/-- The runs of enabled bytes of a line write from byte i on: the place of each and its bytes. -/
def enabledRuns (m : MemRequest) : List (Nat × List Byte) :=
  (List.range 64).foldr (fun i runs =>
    if !m.enables.getLsbD i then runs
    else match runs with
      | (j, bs) :: rest => if j = i + 1 then (i, m.data.getD i 0 :: bs) :: rest else (i, [m.data.getD i 0]) :: runs
      | [] => [(i, [m.data.getD i 0])]) []

/-- Record a host write into a pickup region (R399, R400): a record for each run of bytes written, since a record holds one address and the
bytes from it on. -/
def capturePickup (m : MemRequest) (r : Nat) (s : State) : State :=
  if s.cap.running && bit s.cap.cfgInForce 62 && m.isWrite && rgKind s r == 1 then
    each (enabledRuns m) (fun e => pushCapture 0 (captureBytes 2 0 s.job.heat s.job.pour s.pourOff r (m.addr + e.1) e.2)) s
  else s

/-- A CXL.mem request: checked, then made at once where it can be, else it waits in order (R355, R409). -/
def hostRequest (m : MemRequest) (s : State) : State :=
  if !s.host.linkUp then s
  else match requestCheck s m.addr m.len (hostAllows s m.isWrite) none none with
    | .error _ => refuseHost m s
    | .ok r =>
      let s := enqueueRequest m (capturePickup m r s)
      match s.mem.waiting.getLast? with
      | some x =>
        if x.admitted && hostFirst s x && !requestsYield s (stackOf x.addr) && performable s x then
          performRequest x (s.setMem fun y => { y with waiting := y.waiting.erase x })
        else s
      | none => s

/-- A host request's record: the host regulator is number 16. -/
def hostReq (addr : Word) (isWrite : Bool) (data : List Byte) (enables : BitVec 64) : MemRequest :=
  { addr := addr.toNat, len := 64, isWrite := isWrite, data := data, enables := enables, reg := 16, pkt := none, owner := .none, admitted := false, station := 0 }

/-- CXL_MEM_READ. -/
def execCxlMemRead (addr : Word) (len : Nat) (upsets : List Upset) (s : State) : Out :=
  if addr.toNat % 64 ≠ 0 || len ≠ 64 then .refused (.illFormed "a CXL.mem read of one aligned line")
  else .next (if s.pwr.mainOn then hostRequest (hostReq addr false [] 0) (addUpsets upsets s) else s)

/-- CXL_MEM_WRITE. -/
def execCxlMemWrite (addr : Word) (data : List Byte) (enables : BitVec 64) (upsets : List Upset) (s : State) : Out :=
  if addr.toNat % 64 ≠ 0 || data.length ≠ 64 then .refused (.illFormed "a CXL.mem write of one aligned line")
  else .next (if s.pwr.mainOn then hostRequest (hostReq addr true data enables) (addUpsets upsets s) else s)

end Sys2Proof.Machine
end

