-- ==== Sys2Proof/Machine/Deliver.lean ====
section
/-!
DEFINITION. Packets for this module: deliveries to stations (R124, R126, R225, R268), notices received and sent (R375 to R385), posts leaving
their buffer (R225).
-/

namespace Sys2Proof.Machine

/-! ### The front of a port's accepted packets -/

/-- Handle the oldest packet that a port has accepted for this module, if it has the type. -/
def takeInbox (p type : Nat) (f : QPkt → State → State) (s : State) : State :=
  match (s.port p).inbox with
  | q :: rest => if hType q.pkt.hdr = type then f q (s.setPort p fun x => { x with inbox := rest }) else s
  | [] => s

/-- The span checks of a class 2 or 3 packet for a memory station (R127, R355): its payload's, or the one a READ asks for. -/
def scheduledSpan (s : State) (k : Packet) : Option (Nat × Nat) :=
  let m := requestOf k .none 0
  if kindOf (hDstStation k.hdr) ≠ 7 || hType k.hdr == 6 then none
  else match requestCheck s m.addr m.len (if m.isWrite then rgWrite s else rgRead s) (some (hFlask k.hdr)) k.inPort with
    | .error e => some e
    | .ok _ => none

/-- Why a class 2 or 3 packet goes no further: the module is not in RUN, len and tag disagree on its tile, or it names a station of this
module that is absent, of another flask, or whose memory has no such span (R6, R13, R14, R127, R146, R431). -/
def scheduledBad (s : State) (k : Packet) : Option (Nat × Nat) :=
  let a := hDstStation k.hdr
  let pf := match k.inPort with | some p => portFlask s p.toNat | none => 0
  if !s.running then some (0x07, s.boot.phase.code)
  else if !tileWhole k.hdr then some (0x03, 0)
  else if !addressedHere s k.hdr then none
  else if !stationPresent s a then some (0x01, a)
  else if stationFlask s a ≠ 0 && stationFlask s a != hFlask k.hdr then some (0x05, pf)
  else scheduledSpan s k

/-- A contribution that comes after its instance's decision is answered (R287). -/
def lateContrib (p : Nat) (h : BitVec 256) (s : State) : State := if hType h = 6 then lateArrival p h s else s

/-- A class 2 or 3 packet goes to its port-ingress station, 32 clk after its trailer has passed (R155, R205, R268, R289). -/
def deliverScheduled (p : Nat) (q : QPkt) (s : State) : State :=
  match if hType q.pkt.hdr = 6 then dropRemoved p q.pkt.hdr s else none with
  | some s => dropStamp q.pkt.ident s
  | none =>
    match scheduledBad s q.pkt with
    | some (st, d) => refusePacket { q with owner := .none, cells := 0 } st d (dropStamp q.pkt.ident s)
    | none => toIngress p q.pkt (fun _ => q.since + 32) (lateContrib p q.pkt.hdr s)

/-- A request's delivery by its class. -/
def deliverByClass (p : Nat) (q : QPkt) (s : State) : State :=
  if scheduledClass q.pkt.hdr then deliverScheduled p q s else deliverRequest q.pkt q.owner s

/-- WRITE (R126, R127, R355). -/
def execWrite (port : PortNo) (s : State) : Out :=
  .next (takeInbox port.toNat 0 (deliverByClass port.toNat) s)
/-- READ (R126, R127, R355). -/
def execRead (port : PortNo) (s : State) : Out :=
  .next (takeInbox port.toNat 1 (deliverByClass port.toNat) s)
/-- READ_DATA (R126). -/
def execReadData (port : PortNo) (s : State) : Out :=
  .next (takeInbox port.toNat 2 (deliverByClass port.toNat) s)
/-- CONTRIB (R268, R289). -/
def execContrib (port : PortNo) (s : State) : Out :=
  .next (takeInbox port.toNat 6 (deliverScheduled port.toNat) s)

/-- A completion reaches its station (R145, R225). -/
def deliverCompletion (k : Packet) (owner : Requester) (s : State) : State :=
  let a := hDstStation k.hdr
  let s := consume (a / 256) k.hdr owner s
  if !stationPresent s a then countUnanswered k.inPort s
  else if k.payload.headD 0 = 0 then sendSignal (s.clk + 1) a (.add 30 1) none s
  else sendSignal (s.clk + 1) a (.set 63) none (s.setStation a fun x => { x with ncpl := BitVec.ofNat 64 (beNat (k.payload.take 8)) })

/-- COMPLETION. -/
def execCompletion (port : PortNo) (s : State) : Out :=
  .next (takeInbox port.toNat 3 (fun q s => deliverCompletion q.pkt q.owner s) s)

/-! ### Notices received (R377, R381, R385) -/

/-- The head and the items of a notice payload. -/
def noticeHead (k : Packet) : BitVec 128 := BitVec.ofNat 128 (beNat (k.payload.take 16))
def noticeItems (k : Packet) : List (BitVec 128) := ((pieces 16 256 k.payload).drop 1).map fun b => BitVec.ofNat 128 (beNat b)

/-- The local entries an ENTRY item acts on: same heat, up_entry, port upstream, no verdict of it counted yet (R377). -/
def itemEntries (s : State) (q : Nat) (it : BitVec 128) : List Nat :=
  (validEntries s).filter fun e => upEntry s e == fld it 95 84 && inUp s e q && !(s.entry e).heard.contains q

/-- A verdict from a port is counted. -/
def hear (q e : Nat) (s : State) : State := s.setEntry e fun x => { x with heard := x.heard ++ [q] }

/-- A COMMIT counts in an undecided entry (R370). -/
def countCommit (e : Nat) (s : State) : State :=
  s.setEntry e fun x => if undecided x.state then { x with upSeen := min (x.upSeen + 1) 256 } else x

/-- One ENTRY item: stray, or its verdict acts (R370, R377). -/
def entryItem (p : Nat) (it : BitVec 128) (s : State) : State :=
  let q := swapPort s p
  let es := itemEntries s q it
  if es.isEmpty then
    s.setLedger fun l => { l with stray := satAdd 16 l.stray 1, slotStray := satAdd 16 l.slotStray 1 }
  else
    let s := each es (hear q) s
    if fld it 127 124 = 2 then retractEntries es 0x09 p (some q) undecided s
    else if fld it 127 124 = 1 then each es countCommit s
    else s

/-- One HEAT_RETRACT item (R381, R385). -/
def heatRetractItem (p heat : Nat) (it : BitVec 128) (s : State) : State :=
  if heat ≠ s.job.heat then quenchDue 0x45 p s
  else
    let cause := fld it 119 112
    let detail := fld it 31 0
    holdRetracted cause detail 0 (some (swapPort s p)) (if s.ledger.heatRetracted then s else recordRetract cause detail 0 s)

/-- The items of a notice: every retraction acts before any commit (R372). -/
def actNotice (p : Nat) (k : Packet) (s : State) : State :=
  let heat := fld (noticeHead k) 111 64
  let items := noticeItems k
  match fld (noticeHead k) 127 120 with
  | 1 =>
    if heat ≠ s.job.heat then
      s.setLedger fun l => { l with stray := satAdd 16 l.stray items.length, slotStray := satAdd 16 l.slotStray items.length }
    else
      let retracts := items.filter fun it => fld it 127 124 == 2
      let others := items.filter fun it => fld it 127 124 != 2
      decide' (each others (entryItem p) (each retracts (entryItem p) s))
  | 2 => each items (heatRetractItem p heat) s
  | _ => s

/-- A notice's length agrees with its item count (R13, R376). -/
def noticeWhole (k : Packet) : Bool := hLen k.hdr == fld (noticeHead k) 119 112 + 1

/-- A notice addressed to this module is taken by the ledger (R375). -/
def deliverNotice (p : Nat) (q : QPkt) (s : State) : State :=
  let a := hDstStation q.pkt.hdr
  if !s.running then answerDelivered a q.pkt q.owner 0x07 s.boot.phase.code s
  else if !noticeWhole q.pkt then answerDelivered a q.pkt q.owner 0x03 0 s
  else actNotice p q.pkt (consume (bayOf a) q.pkt.hdr q.owner s)

/-- NOTICE. -/
def execNotice (port : PortNo) (s : State) : Out :=
  .next (takeInbox port.toNat 5 (deliverNotice port.toNat) s)

/-! ### Notices sent (R375, R376) -/

/-- The items of one packet: the first waiting for a port, and those of its clk, kind and heat, 255 at most. -/
def noticeGroup (s : State) (port : Nat) : List PendingNotice :=
  let mine := s.ledger.notices.filter fun n => swapPort s n.port == port && decide (n.clk < s.clk)
  match mine with
  | [] => []
  | n :: _ => (mine.filter fun m => m.kind == n.kind && m.heat == n.heat && m.clk == n.clk && m.port == n.port).take 255

/-- The notice packet: its head, its items, the header of R375. -/
def noticePacket (s : State) (n : PendingNotice) (items : List (BitVec 128)) : Packet :=
  let peer := s.cfgw (tbKey 13 (0x80100 + 8 * n.port))
  { hdr := mkHeader 5 1 0 (fld peer 63 63) (fld peer 19 0) 1 s.moduleId 0 0 0 items.length 0xFFFF 0 0 s.job.pour
    payload := beBytes 16 (n.kind * 2 ^ 120 + (items.length - 1) * 2 ^ 112 + n.heat % 2 ^ 48 * 2 ^ 64 + s.job.pour % 2 ^ 32 * 2 ^ 32) ++
      items.flatMap fun it => beBytes 16 it.toNat
    trailer := 0, stampPour := s.job.pour, stampClk := s.pourOff, inPort := none, stomped := false, complete := true, ident := 0 }

/-- Drop each of some notices once. -/
def dropNotices (ns : List PendingNotice) (s : State) : State :=
  s.setLedger fun l => { l with notices := ns.foldl (fun m n => m.erase n) l.notices }

/-- One notice packet enters its port's class 1 queue. -/
def sendNotice (port : Nat) (s : State) : State :=
  match noticeGroup s port with
  | [] => s
  | n :: ns =>
    let k := noticePacket s n ((n :: ns).map (·.item))
    enqueueEgress port
      { pkt := k, owner := .none, cells := cellsOf k.hdr, ring := 0, since := s.clk, targets := [port], reserved := [] } (dropNotices (n :: ns) s)

/-- NOTICE_SEND. -/
def execNoticeSend (port : PortNo) (s : State) : Out := .next (if s.pwr.mainOn then sendNotice port.toNat s else s)

/-! ### POST_RELEASE (R225) -/

/-- A packet of this module's own has reached a station of this module. -/
def deliverOwn (q : QPkt) (s : State) : State :=
  let h := q.pkt.hdr
  let s := poolPush (deliveryKey (hDstStation h / 256) h) q.cells s
  match hType h with
  | 3 => deliverCompletion q.pkt q.owner s
  | _ => deliverRequest q.pkt q.owner s

/-- The oldest posted packet leaves for the riser pool, when its quota has room; counter 31 takes the place back. -/
def postRelease (a : Nat) (s : State) : State :=
  match (s.station a).postBuf with
  | [] => s
  | k :: rest =>
    if !s.running || !quotaRoom s a (cellsOf k.hdr) then s
    else
      let s := sendSignal (s.clk + 1) a (.add 31 1) none (s.setStation a fun x => { x with postBuf := rest })
      let q := ownPacket a k s
      let s := charge q.owner q.cells s
      if !typeAllowed k.hdr || hVer k.hdr ≠ 1 then refusePacket q 0x06 (fld k.hdr 255 240) s
      else if addressedHere s k.hdr then placeLocal q (.station (BitVec.ofNat 12 (hDstStation k.hdr))) (hDstStation k.hdr) s
      else if hAddr k.hdr % 16 ≠ 0 && hType k.hdr ≠ 3 then refusePacket q 0x04 0 s
      else forwardPacket q s

/-- POST_RELEASE. -/
def execPostRelease (st : StAddr) (s : State) : Out := .next (postRelease st.toNat (settle st.toNat s))

end Sys2Proof.Machine
end

