-- ==== Sys2Proof/Machine/Reception.lean ====
section
/-!
DEFINITION. A packet's reception: header (R124 to R128, R134, R141, R143, R198), forwarding (R140, R162), trailer (R125, R131, R134, R140,
R141).
-/

namespace Sys2Proof.Machine

/-! ### PACKET_HEADER -/

/-- A header with a correct check and the expected sequence number (or of a PTP packet) begins its packet, stamped and policed (R56). -/
def beginPacket (p : Nat) (h : BitVec 256) (n : Nat) (ptp stale dross : Bool) (s : State) : State :=
  let s := s.setFab fun f => { f with nextIdent := f.nextIdent + 1 }
  let r : RxPacket :=
    { hdr := h, stampPour := s.job.pour, stampClk := s.pourOff, inClk := s.clk, stampHeat := s.job.heat, ident := s.fab.nextIdent, ptp := ptp,
      stale := stale, dross := dross, bad := headerBad s p h, forwarded := false, count := n, early := false }
  s.setPort p fun x => { x with rx := some r }

/-- A policed packet is discarded at once: its credits return (R198). -/
def dropDross (p : Nat) (r : RxPacket) (s : State) : State :=
  if r.dross then discardRx (rxQ p (rxPacket p r [] 0 false false) s) s else s

/-- The packet under reception goes on to its module: nothing has turned it away so far. -/
def RxPacket.live (r : RxPacket) : Bool := !r.ptp && !r.stale && !r.dross && r.bad.isNone

/-- The stamp of a CONTRIB counts from its header on, whenever its trailer ends (R56, R57). -/
def noteStamp (p : Nat) (r : RxPacket) (s : State) : State :=
  if r.live && hType r.hdr == 6 then
    s.setFab fun f =>
      { f with stamped := f.stamped ++
          [{ inst := hInst r.hdr, port := BitVec.ofNat 8 p, rank := hAddr r.hdr / 16 % 2 ^ 20, pour := r.stampPour, clk := r.stampClk,
             lines := (payloadLen r.hdr + 127) / 128, hdr := r.hdr, ident := r.ident }] }
  else s

/-- The port delivers lines of this packet as they arrive, unless it is discarded (R141). -/
def usedEarly (s : State) (p : Nat) (r : RxPacket) (payload : List Byte) : Bool :=
  earlyUse s p && r.live && scheduledClass r.hdr && (scheduledBad s (rxPacket p r payload 0 false true)).isNone &&
  !(hType r.hdr == 6 && (dropRemoved p r.hdr s).isSome)

/-- Its lines go to the station as they arrive (R141). -/
def startEarly (p : Nat) (r : RxPacket) (payload : List Byte) (s : State) : RxPacket × State :=
  if usedEarly s p r payload then ({ r with early := true }, toIngress p (rxPacket p r payload 0 false true) (earlyDue s p r) s) else (r, s)

/-- What begins with a packet's header beside its reception: its discard by a policer, its stamp, its early lines. -/
def afterHeader (p : Nat) (early : List Byte) (s : State) : State :=
  match (s.port p).rx with
  | none => s
  | some r =>
    let s := dropDross p r s
    if s.replayMode then s
    else
      let (r, s) := startEarly p r (cipherPayload (rxKey (s.port p)) r.count early) (noteStamp p r s)
      s.setPort p fun x => { x with rx := some r }

/-- A header whose check fails in NORMAL (R128, R134); that of a PTP packet is counted only (R144). -/
def headerFails (p : Nat) (cleared : Bool) (s : State) : State :=
  if cleared then bumpPort p 10 1 s else linkError p (bumpPort p 3 1 s)

/-- A header's 32 bytes in plaintext, its check right: every packet but a PTP one is policed (R198), then judged by its link_seq (R134). -/
def takeHeader (p : Nat) (h : BitVec 256) (n : Nat) (early : List Byte) (s : State) : State :=
  let (dross, s) := police p h s
  let seq := (s.port p).rxSeq
  if hSeq h = seq then afterHeader p early (beginPacket p h n false false dross s)
  else if seqLe (hSeq h) seq then beginPacket p h n false true dross s
  else linkError p s

/-- The payload that must come with a header: that of a packet whose lines are used as they arrive (R141). -/
def earlyBytes (s : State) (p : Nat) (h : BitVec 256) : Nat := if earlyUse s p && scheduledClass h then payloadLen h else 0

/-- PACKET_HEADER (R124, R128, R134, R141, R143, R144, R198): the 32 header bytes as they stand on the line, and for a port of early use the
payload bytes as they will follow. -/
def execPacketHeader (port : PortNo) (hdr : HeaderBytes) (s : State) : Out :=
  let p := port.toNat
  let x := s.port p
  if !s.portUp p || x.rx.isSome || x.waitReplay then .next s
  else
    let s := s.setPort p fun y => { y with escaped := false, cleared := false }
    let (h, n) := if x.cleared then (hdr.bits, 0) else readHeader x hdr.bits
    if hCrc h ≠ headerCrc h then .next (headerFails p x.cleared s)
    else if x.cleared then .next (beginPacket p h 0 true false false s)
    else if earlyBytes s p h ≠ hdr.early.length then .refused (.illFormed "the payload that a port of early use receives")
    else .next (takeHeader p h n hdr.early s)

/-! ### PACKET_FORWARD -/

/-- Forward before the trailer (R140): only a packet that the route table accepts; any other waits for its trailer. -/
def forwardEarly (p : Nat) (r : RxPacket) (s : State) : State :=
  if !r.live || r.forwarded || s.replayMode || !isTransit s r.hdr then s
  else
    let q := rxQ p (rxPacket p r [] 0 false false) s
    match routePacket q (charge q.owner q.cells s) with
    | (none, s) => s.setPort p fun x => { x with rx := some { r with forwarded := true } }
    | (some _, _) => s

/-- PACKET_FORWARD (R140, R162): the oldest accepted packet that waits for the route table, or one whose trailer is still to come. -/
def execPacketForward (port : PortNo) (s : State) : Out :=
  let p := port.toNat
  .next (if !s.lit then s
    else match (s.port p).transit, (s.port p).rx with
      | q :: rest, _ => forwardPacket q (s.setPort p fun x => { x with transit := rest })
      | [], some r => forwardEarly p r s
      | [], none => s)

/-! ### PACKET_TRAILER -/

/-- A trailer that fails (R128, R140, R141). -/
def failPacket (p : Nat) (r : RxPacket) (payload : List Byte) (s : State) : State :=
  let s := markEarly r (dropStamp r.ident s)
  let s := if r.dross then takeBack p (hCls r.hdr) (cellsOf r.hdr) s else s
  let s := if r.forwarded then
      uncharge (.port (BitVec.ofNat 8 p) (hCls r.hdr)) (cellsOf r.hdr) (disown r.ident (finishCopies r.ident payload true s))
    else s
  linkError p s

/-- Expected advances; a later ACK covers the packet (R134). -/
def acceptSeq (p : Nat) (r : RxPacket) (s : State) : State :=
  s.setPort p fun x => { x with rxSeq := (x.rxSeq + 1) % 65536, rxCount := r.count + 1, nakCount := 0 }

/-- The copy of the ingress tap (R173). -/
def tapRx (p : Nat) (k : Packet) (s : State) : State :=
  if bit (portTap s p) 4 then tapCopy (fld (portTap s p) 7 6) (ingressSt p) k s else s

/-- An accepted packet whose trailer is good enters the module (R162). One that a policer dropped, or whose lines have gone already, has
nothing left to enter. -/
def enterPacket (p : Nat) (r : RxPacket) (k : Packet) (s : State) : State :=
  let q := rxQ p k s
  if r.dross then s
  else
    let s := tapRx p k s
    if r.forwarded then finishCopies r.ident k.payload false s
    else if r.early then lateContrib p r.hdr s
    else if scheduledClass r.hdr then
      match r.bad with
      | some (st, d) => refusePacket { q with owner := .none, cells := 0 } st d s
      | none => s.setPort p fun x => { x with inbox := x.inbox ++ [{ q with owner := .none, cells := 0 }] }
    else
      let s := charge q.owner q.cells s
      match r.bad with
      | some (st, d) => refusePacket q st d s
      | none =>
        if hType r.hdr = 4 then release q.owner q.cells (bumpPort p 10 1 s)
        else if isTransit s r.hdr then s.setPort p fun x => { x with transit := x.transit ++ [q] }
        else placeLocal q (.station (BitVec.ofNat 12 (hDstStation r.hdr))) (hDstStation r.hdr) s

/-- An accepted packet: in replay mode it is discarded and counted, and its credits return (R402). -/
def takePacket (p : Nat) (r : RxPacket) (k : Packet) (s : State) : State :=
  if s.replayMode then
    let s := countReplayDrop s
    if r.dross || scheduledClass r.hdr then s
    else s.setPort p fun x => { x with giving := tmod 0 x.giving (hCls r.hdr) (· + cellsOf r.hdr) }
  else enterPacket p r k s

/-- The message types a boundary clock takes: Sync, Delay_Req, Delay_Resp, Announce (R22). -/
def ptpSupported (payload : List Byte) : Bool := [0, 1, 9, 11].contains ((payload.headD 0).toNat % 16)

/-- A PTP packet's end (R22, R144): its message is the matter of the SYNC, DELAY and ANNOUNCE commands; here it is checked, copied and
counted. -/
def takePtp (p : Nat) (r : RxPacket) (k : Packet) (ok : Bool) (s : State) : State :=
  if ok && hType r.hdr == 4 && r.bad.isNone && ptpSupported k.payload then tapRx p k (countRx p r.hdr s) else bumpPort p 10 1 s

/-- A stomped packet is accepted and discarded whole (R140); what was made of its early lines is marked (R141). -/
def takeStomped (p : Nat) (r : RxPacket) (k : Packet) (s : State) : State :=
  let s := markEarly r (dropStamp r.ident (countRx p r.hdr (acceptSeq p r (bumpPort p 5 1 s))))
  if r.forwarded then finishCopies r.ident k.payload true s
  else if r.dross then s
  else discardRx (rxQ p k s) s

/-- The trailer of a packet under reception is judged. A packet with a stale link_seq is discarded silently whatever its trailer says (DESIGN
CHOICE, log entry 72), and frees nothing: its accepted copy is released once (R131). -/
def endPacket (p : Nat) (r : RxPacket) (payload : List Byte) (trailer : Word) (fecBad : Bool) (s : State) : State :=
  let right := trailerOf r.hdr payload
  let ok := !fecBad && trailer == right
  let stomp := !fecBad && trailer == right ^^^ BitVec.allOnes 64
  let k := rxPacket p r payload trailer stomp true
  if r.stale then s
  else
    let s := capturePacket p k (!ok && !stomp) s
    if r.ptp then takePtp p r k ok s
    else if ok then takePacket p r k (countRx p r.hdr (acceptSeq p r s))
    else if stomp then takeStomped p r k s
    else failPacket p r payload (if trailer != right then bumpPort p 4 1 s else s)

/-- Codewords are counted (R150). -/
def countCodewords (p corrected uncorrectable : Nat) (s : State) : State := bumpPort p 2 uncorrectable (bumpPort p 1 corrected s)

/-- PACKET_TRAILER (R125, R134, R140, R141, R143, R150): payload and trailer as they stand on the line, and the codewords that carried them.
With no packet under reception the codewords alone are judged. -/
def execPacketTrailer (port : PortNo) (payload : List Byte) (trailer : Word) (fecCorrected fecUncorrectable : Nat) (s : State) : Out :=
  let p := port.toNat
  let key (r : RxPacket) : Option (BitVec 128) := if r.ptp then none else rxKey (s.port p)
  if !s.portUp p then .next s
  else match (s.port p).rx with
    | none =>
      let s := countCodewords p fecCorrected fecUncorrectable s
      .next (if 0 < fecUncorrectable then linkError p s else s)
    | some r =>
      if payload.length ≠ payloadLen r.hdr then .refused (.illFormed "a payload of the length its header states")
      else .next (endPacket p r (cipherPayload (key r) r.count payload) (cipherTrailer (key r) r.count payload.length trailer)
        (decide (0 < fecUncorrectable)) (countCodewords p fecCorrected fecUncorrectable (s.setPort p fun x => { x with rx := none })))

end Sys2Proof.Machine
end

