-- ==== Sys2Proof/Machine/Capture.lean ====
section
/-!
DEFINITION. Replay mode: the records of a capture region injected (R402, R403).
-/

namespace Sys2Proof.Machine

/-! ### REPLAY_RECORD (R403) -/

/-- A capture record as it stands in the replay region. -/
structure CapRec where
  kind : Nat
  flags : Nat
  heat : Nat
  pour : Nat
  clk : Nat
  unit : Nat
  w3 : Nat
  body : List Byte

def replayRegion (s : State) : Nat := fld s.ledgerCfg 47 40

/-- The next record; none at the end of the data. -/
def nextRecord (s : State) : Option CapRec :=
  let base := rgBase s (replayRegion s)
  let size := rgBytes s (replayRegion s)
  let at' := base + s.cap.replayNext
  if size < s.cap.replayNext + 32 then none
  else
    let w (i : Nat) : Nat := leNat (cellRead s.mem.cells (at' + 8 * i) 8)
    let n := w 2 % 2 ^ 32
    if size < s.cap.replayNext + 32 + n || w 0 / 2 ^ 60 = 0 || 4 < w 0 / 2 ^ 60 || 4136 < n then none
    else some { kind := w 0 / 2 ^ 60, flags := w 0 / 2 ^ 52 % 256, heat := w 0 % 2 ^ 48, pour := w 1 / 2 ^ 32, clk := w 1 % 2 ^ 22,
                unit := w 2 / 2 ^ 56, w3 := w 3, body := cellRead s.mem.cells (at' + 32) n }

/-- Bytes of a record in the region. -/
def recordSpan (r : CapRec) : Nat := (32 + r.body.length + 63) / 64 * 64

/-- The record's clk has come: a HEAT record's is clk 0 of its slot. -/
def recordDue (s : State) (r : CapRec) : Bool :=
  match r.kind with
  | 3 => decide (s.cap.replayHeats ≤ s.job.slot)
  | 4 => true
  | _ => r.heat == s.job.heat && (decide (r.pour < s.job.pour) || (r.pour == s.job.pour && decide (r.clk ≤ s.pourOff)))

/-- The clk of a record's stamp. -/
def recordClk (s : State) (r : CapRec) : Nat := s.job.pourClk + r.clk - (s.job.pour - r.pour) * s.pourClks

/-- What the port is receiving once the header of a record's packet has passed. -/
def recordRx (p : Nat) (r : CapRec) (h : BitVec 256) (dross : Bool) (s : State) : RxPacket :=
  { hdr := h, stampPour := r.pour, stampClk := r.clk, inClk := recordClk s r, stampHeat := r.heat, ident := s.fab.nextIdent,
    ptp := hType h == 4, stale := false, dross := dross, bad := headerBad s p h, forwarded := false, count := 0, early := false }

/-- The end of a record's packet: its trailer as the flags say. A failed one asks for no replay. -/
def recordEnd (p : Nat) (r : CapRec) (rx : RxPacket) (k : Packet) (s : State) : State :=
  if rx.ptp then takePtp p rx k (r.flags % 2 = 0) s
  else if r.flags % 2 = 1 then markEarly rx (dropStamp rx.ident s)
  else if k.stomped then markEarly rx (dropStamp rx.ident (countRx p rx.hdr (bumpPort p 5 1 s)))
  else enterPacket p rx k (countRx p rx.hdr s)

/-- A packet enters its port's ingress path as if it had just passed the timestamp point, with its recorded stamp. One whose length disagrees
with its header is discarded and counted (R13, R14). -/
def replayPacket (r : CapRec) (s : State) : State :=
  let p := r.unit
  let h := BitVec.ofNat 256 (beNat (r.body.take 32))
  let pay := (r.body.drop 32).take (r.body.length - 40)
  let t := BitVec.ofNat 64 (beNat (r.body.drop (r.body.length - 8)))
  if r.body.length ≠ 40 + payloadLen h then countReplayDrop s
  else
    let (dross, s) := if hType h = 4 then (false, s) else police p h s
    let rx := recordRx p r h dross s
    let s := noteStamp p rx (s.setFab fun f => { f with nextIdent := f.nextIdent + 1 })
    let (rx, s) := startEarly p rx pay s
    recordEnd p r rx (rxPacket p rx pay t (r.flags / 2 % 2 == 1) true) s

/-- A HEAT record's slot has begun with its heat number (R403): the boundary has taken it from the record. -/
def replayHeat (s : State) : State := s.setCap fun c => { c with replayHeats := c.replayHeats + 1 }

/-- The HEAT record that stands next in replay mode: the boundary takes its heat in place of the module's own verdict (R403). -/
def heatComing (s : State) : Option CapRec := if s.cap.replayActive then (nextRecord s).filter (·.kind == 3) else none

/-- A PICKUP record's bytes lie in the pickup region that it names. -/
def pickupFits (s : State) (r : CapRec) : Bool :=
  bit (regionWord s r.unit 0) 63 && rgKind s r.unit == 1 && decide (rgBase s r.unit ≤ r.w3) &&
  decide (r.w3 + r.body.length ≤ rgBase s r.unit + rgBytes s r.unit)

/-- A PICKUP record writes its bytes; one that does not lie in its region is discarded and counted (R14). -/
def replayPickup (r : CapRec) (s : State) : State :=
  if pickupFits s r then
    copyPickups (fun b => decide (r.w3 < b + 8) && decide (b < r.w3 + r.body.length)) (writeSpan r.w3 r.body 2 s).2
  else countReplayDrop s

/-- The replay ends with an ordered quench. -/
def endReplay (s : State) : State := quenchDue 0 0 (s.setCap fun c => { c with ended := true, replayActive := false })

/-- The next record is taken at its clk. -/
def replayRecord (s : State) : State :=
  if !s.running || !s.cap.replayActive then s
  else match nextRecord s with
    | none => endReplay s
    | some r =>
      if !recordDue s r then s
      else if r.kind = 4 then endReplay s
      else
        let s := s.setCap fun c => { c with replayNext := c.replayNext + recordSpan r, injected := satAdd 32 c.injected 1 }
        match r.kind with
        | 1 => replayPacket r s
        | 2 => replayPickup r s
        | _ => replayHeat s

/-- REPLAY_RECORD. -/
def execReplayRecord (s : State) : Out := .next (replayRecord s)

end Sys2Proof.Machine
end

