-- ==== Sys2Proof/Machine/Image.lean ====
section
/-!
DEFINITION. The pattern image in flash: the body as sections (R235, R468), the word each section supplies and its place, the fields an
image may set, and the checks of the header (R96 to R98).
-/

namespace Sys2Proof.Machine

/-! ### Flash (R96, R97) -/

/-- First flash address of a slot. -/
def slotBase (slot : Bool) : Nat := if slot then 0x07F0_0000 else 0

/-- `n` bytes of a rising table from a key on, an unlisted one as given. -/
def tabBytes (d : Byte) : Nat → Nat → Tab Byte → List Byte
  | 0, _, _ => []
  | n + 1, a, [] => d :: tabBytes d n (a + 1) []
  | n + 1, a, e :: m =>
    if e.1 = a then e.2 :: tabBytes d n (a + 1) m else d :: tabBytes d n (a + 1) (if e.1 < a then m else e :: m)

/-- Bytes of flash; an erased byte reads 0xFF. -/
def flashBytes (s : State) (addr n : Nat) : List Byte := tabBytes 0xFF n addr (s.flash.bytes.filter fun e => decide (addr ≤ e.1))

def imageHeader (s : State) (slot : Bool) : List Byte := flashBytes s (slotBase slot) 4096

/-- A little-endian field of a header. -/
def hdrField (h : List Byte) (off n : Nat) : Nat := leNat ((h.drop off).take n)

def secVersion (h : List Byte) : Nat := hdrField h 8 4
def bodyUnits (h : List Byte) : Nat := hdrField h 12 4 + 1

def imageBody (s : State) (slot : Bool) : List Byte :=
  flashBytes s (slotBase slot + 4096) (4096 * bodyUnits (imageHeader s slot))

/-- Magic, format, reserved bytes and body_len (R97, R98). -/
def formatOk (h : List Byte) : Bool :=
  hdrField h 0 4 == 0x524C5054 && hdrField h 4 2 == 1 && hdrField h 6 2 == 0 && hdrField h 0x18 8 == 0 &&
  (h.drop 0xC0).all (· == 0) && decide (hdrField h 12 4 ≤ 32510)

/-- The result of verifying a slot: 0, or the code of the first check that fails (R98). -/
def verifySlot (readOk : Bool) (slot : Bool) (s : State) : Nat :=
  let h := imageHeader s slot
  if !readOk then 0x10
  else if !formatOk h then 0x11
  else if sm3 ((h.drop 0x40).take 64) ≠ s.fuse.ownerDigest then 0x12
  else if beBytes 32 (sm3 (imageBody s slot)).toNat ≠ (h.drop 0x20).take 32 then 0x13
  else if !sm2Verify ((h.drop 0x40).take 64) (h.take 0x80) ((h.drop 0x80).take 64) then 0x14
  else if secVersion h < s.fuse.svc then 0x15
  else 0

/-! ### Sections (R235) -/

/-- One section of a body: type, unit, byte offset of its header, content words. -/
structure Section where
  type : Nat
  unit : Nat
  off : Nat
  words : List Word
  deriving DecidableEq, Repr

/-- Byte offset of content word j. -/
def Section.at' (x : Section) (j : Nat) : Nat := x.off + 16 + 8 * j

/-- Words of a settings section (R236, R468). -/
def settingsLen : Nat → Option Nat
  | 0x0001 => some 7 | 0x0002 => some 3 | 0x0011 => some 264 | 0x0100 => some 34 | 0x0103 => some 2 | 0x0104 => some 8
  | 0x0105 => some 16 | 0x0205 => some 1 | 0x0206 => some 2 | 0x0300 => some 138 | 0x0501 => some 17 | 0x0502 => some 1
  | 0x0580 => some 8 | _ => none

/-- Words an entry and entries of a table section (R468). -/
def tableShape : Nat → Option (Nat × Nat)
  | 0x0010 => some (16, 4096) | 0x0012 => some (1, 63) | 0x0201 => some (1, 2097152) | 0x0202 => some (2, 4096)
  | 0x0203 => some (5, 4096) | 0x0204 => some (5, 4) | 0x0207 => some (1, 16) | 0x0301 => some (1, 128) | 0x0400 => some (4, 1024)
  | 0x0401 => some (1, 16384) | 0x0402 => some (4, 4096) | 0x0500 => some (2, 256) | _ => none

/-- A section of n words has a known type and a length its type allows. -/
def lenOk (type n : Nat) : Bool :=
  match settingsLen type, tableShape type with
  | some k, _ => n == k
  | none, some (e, _) => decide (1 ≤ n) && (n - 1) % e == 0
  | none, none =>
    (type == 0x0101 && decide (n ≤ 16384)) || (type == 0x0102 && n % 16 == 0) || (type == 0x0200 && decide (n ≤ 2048))

/-- First entry of a table section and how many it supplies. -/
def Section.span (x : Section) : Nat × Nat :=
  match tableShape x.type, x.words with
  | some (e, _), w :: ws => (fld w 31 0, ws.length / e)
  | _, _ => (0, 0)

/-- Two sections that may not both stand: the same unit of a settings type, or tables that supply one entry twice. -/
def clash (x y : Section) : Bool :=
  x.type == y.type &&
    match tableShape x.type with
    | some _ => decide (x.span.1 < y.span.1 + y.span.2) && decide (y.span.1 < x.span.1 + x.span.2)
    | none => x.unit == y.unit

/-- The byte offset of the first word that is not zero. -/
def firstNonZero (off : Nat) : List Word → Option Nat
  | [] => none
  | w :: ws => if w ≠ 0 then some off else firstNonZero (off + 8) ws

/-- Sections of a body from a header on, up to END; or the byte offset of the first fault. -/
def parseBody (total : Nat) : Nat → Nat → List Section → List Word → Except Nat (List Section × Nat)
  | 0, _, _, _ => .error total
  | fuel + 1, off, acc, ws =>
    match ws with
    | w0 :: _ :: rest =>
      let type := fld w0 15 0
      let len := fld w0 63 32
      let n := len / 8
      let x : Section := { type := type, unit := fld w0 31 16, off := off, words := rest.take n }
      if len % 8 ≠ 0 || n = 0 || total < off + 16 + len then .error off
      else if type = 0xFFFF then
        if n ≠ 1 || rest.head? ≠ some 0 || off + 4096 < total then .error off
        else match firstNonZero (off + 24) (rest.drop 1) with
          | some o => .error o
          | none => .ok (acc.reverse, off)
      else if !lenOk type n || acc.any (clash x) then .error off
      else parseBody total fuel (off + 16 + 8 * (n + n % 2)) (x :: acc) (rest.drop (n + n % 2))
    | _ => .error total

/-- Words of a byte string, least significant byte first. -/
def bodyWords : Nat → List Byte → List Word
  | 0, _ => []
  | n + 1, bs => if bs.isEmpty then [] else BitVec.ofNat 64 (leNat (bs.take 8)) :: bodyWords n (bs.drop 8)

/-- The sections of a body, GLOBAL and TIME among them. -/
def sectionsOf (ws : List Word) : Except Nat (List Section) :=
  match parseBody (8 * ws.length) (ws.length + 1) 0 [] ws with
  | .error o => .error o
  | .ok (xs, e) => if xs.any (·.type == 1) && xs.any (·.type == 2) then .ok xs else .error e

/-! ### Words of the image: key and fields (R468, R236) -/

/-- The bits of some fields. -/
def fieldBits (rs : List (Nat × Nat)) : Nat := (rs.map fun r => (2 ^ (r.1 - r.2 + 1) - 1) * 2 ^ r.2).sum

/-- Every bit. -/
def allBits : Nat := 2 ^ 64 - 1

def thrBits : Nat := fieldBits [(53, 32), (21, 0)]

def keysFrom (n : Nat) (key : Nat → Nat) (mask : Nat) : List (Nat × Nat) := (List.range n).map fun i => (key i, mask)

/-- The words of a STATION section. -/
def stationLayout (a : Nat) : List (Nat × Nat) :=
  (stKey a 8, fieldBits [(63, 50), (47, 32), (20, 5), (0, 0)]) ::
    keysFrom 7 (fun n => stKey a (0x88 + 8 * n)) (fieldBits [(11, 0)]) ++
    keysFrom 16 (fun i => stKey a (0x100 + 8 * i)) (fieldBits [(63, 32), (2, 0)]) ++
    [(stKey a 0x30, allBits)] ++ keysFrom 8 (fun k => stKey a (0x40 + 8 * k)) allBits ++ [(stKey a 0x80, 0)]

/-- The words of a PORT section. CREDIT_A and CREDIT_B have no register: the model keeps them at offsets 0x120 and 0x128. -/
def portLayout (p : Nat) : List (Nat × Nat) :=
  [(ptKey p 8, fieldBits [(63, 48), (42, 32), (11, 8), (3, 0)]), (ptKey p 0x10, fieldBits [(63, 32)]),
   (ptKey p 0x118, fieldBits [(7, 4)]), (ptKey p 0x108, thrBits), (ptKey p 0x200, fieldBits [(23, 8), (5, 0)]),
   (ptKey p 0x208, fieldBits [(59, 40), (16, 0)]), (ptKey p 0x210, fieldBits [(59, 40), (16, 0)]),
   (ptKey p 0x120, allBits), (ptKey p 0x128, fieldBits [(63, 32)]), (ptKey p 0x218, fieldBits [(13, 8), (5, 0)])] ++
    keysFrom 64 (fun i => ptKey p (0x800 + 8 * i)) (fieldBits [(63, 42), (7, 0)]) ++
    keysFrom 64 (fun i => ptKey p (0xA00 + 8 * i)) (fieldBits [(63, 42), (7, 0)])

/-- Key and image fields of each word of a settings section. -/
def settingsLayout (type u : Nat) : List (Nat × Nat) :=
  match type with
  | 0x0001 =>
    [(0x500, fieldBits [(63, 32), (18, 0)]), (0x508, fieldBits [(47, 0)]), (0x748, allBits), (0, fieldBits [(39, 20)]),
     (0x2_0000, fieldBits [(63, 40), (21, 0)]), (0x2_0100, allBits), (0x2_0108, allBits)]
  | 0x0002 =>
    [(0x1_0008, fieldBits [(59, 48), (44, 42), (39, 0)]), (0x1_0010, fieldBits [(32, 32), (25, 16), (5, 0)]),
     (0x1_0020, fieldBits [(63, 48), (44, 32), (28, 16), (12, 0)])]
  | 0x0011 =>
    keysFrom 8 (fun i => tbKey 13 (0x80000 + 8 * i)) allBits ++
      keysFrom 256 (fun k => tbKey 13 (0x80100 + 8 * k)) (fieldBits [(63, 63), (19, 0)])
  | 0x0100 => stationLayout u
  | 0x0103 => [(stKey u 0x210, fieldBits [(21, 0)]), (stKey u 0x218, thrBits)]
  | 0x0104 => keysFrom 8 (fun j => stKey u (0x300 + 8 * j)) (fieldBits [(16, 8), (0, 0)])
  | 0x0105 => keysFrom 16 (fun k => stKey u (0x410 + 8 * k)) (fieldBits [(63, 32), (9, 9)])
  | 0x0200 => keysFrom 2048 (calKey (u / 2) (u % 2)) (fieldBits [(63, 14)])
  | 0x0205 => [(tbKey 6 0, fieldBits [(63, 16), (0, 0)])]
  | 0x0206 => [(tbKey 4 0x400220, fieldBits [(63, 40), (31, 0)]), (tbKey 4 0x400208, thrBits)]
  | 0x0300 => portLayout u
  | 0x0501 => keysFrom 17 (fun f => tbKey 12 (0x1000 + 16 * f)) (fieldBits [(23, 0)])
  | 0x0502 => [(tbKey 12 0x1200, fieldBits [(2, 0)])]
  | 0x0580 =>
    [(tbKey 11 (64 * u), fieldBits [(63, 61), (59, 0)]), (tbKey 11 (64 * u + 8), fieldBits [(51, 32), (28, 0)])] ++
      keysFrom 6 (fun i => tbKey 11 (64 * u + 16 + 8 * i)) 0
  | _ => []

/-- Key and image fields of each word of table entry e. -/
def entryLayout (type e : Nat) : List (Nat × Nat) :=
  match type with
  | 0x0010 =>
    let k := fun i => tbKey 13 (128 * e + 8 * i)
    [(k 0, fieldBits [(63, 23)]), (k 1, allBits), (k 2, 0), (k 3, 0)] ++ keysFrom 8 (fun i => k (4 + i)) allBits ++
      [(k 12, fieldBits [(63, 52)]), (k 13, 0), (k 14, 0), (k 15, 0)]
  | 0x0012 => [(tbKey 14 (8 * e), fieldBits [(63, 63), (55, 40)])]
  | 0x0201 => [(tbKey 0 (8 * e), fieldBits [(63, 57), (55, 16)])]
  | 0x0202 => keysFrom 2 (fun i => tbKey 1 (16 * e + 8 * i)) allBits
  | 0x0203 => (tbKey 2 (64 * e), fieldBits [(15, 0)]) :: keysFrom 4 (fun i => tbKey 2 (64 * e + 8 + 8 * i)) allBits
  | 0x0204 =>
    let k := fun i => tbKey 5 (64 * e + 8 * i)
    [(k 0, fieldBits [(63, 63), (28, 0)]), (k 1, allBits), (k 2, fieldBits [(23, 0)]), (k 4, fieldBits [(21, 0)]), (k 5, thrBits)]
  | 0x0207 => [(tbKey 4 (0x400008 + 0x20 * e), thrBits)]
  | 0x0301 => [(tbKey 7 (32 * e), fieldBits [(63, 63), (55, 32), (27, 0)])]
  | 0x0400 =>
    let k := fun i => tbKey 8 (32 * e + 8 * i)
    [(k 0, fieldBits [(63, 10), (3, 0)]), (k 1, fieldBits [(62, 16), (13, 0)]), (k 2, fieldBits [(63, 52)]), (k 3, 0)]
  | 0x0401 => [(tbKey 9 (8 * e), fieldBits [(63, 62), (59, 28), (11, 0)])]
  | 0x0402 =>
    let k := fun i => tbKey 10 (32 * e + 8 * i)
    [(k 0, fieldBits [(63, 22)]), (k 1, fieldBits [(63, 32), (21, 0)]), (k 2, allBits), (k 3, 0)]
  | 0x0500 => [(tbKey 12 (16 * e), fieldBits [(63, 52), (39, 0)]), (tbKey 12 (16 * e + 8), fieldBits [(18, 0)])]
  | _ => []

/-- A word of configuration that an image supplies: byte offset, key, image fields. -/
structure ImageWord where
  off : Nat
  key : Nat
  mask : Nat
  word : Word
  deriving DecidableEq, Repr

/-- Pair layout and words from a content word on. -/
def imageWords (x : Section) (j : Nat) (ls : List (Nat × Nat)) (ws : List Word) : List ImageWord :=
  ((List.range ws.length).zip (ls.zip ws)).map fun e => { off := x.at' (j + e.1), key := e.2.1.1, mask := e.2.1.2, word := e.2.2 }

/-- The unit of a section is one its type has: a present range, 0 where the type names none. -/
def unitOk (x : Section) : Bool :=
  match x.type with
  | 0x0100 | 0x0101 | 0x0102 | 0x0103 | 0x0104 => true
  | 0x0105 => kindOf x.unit == 6
  | 0x0200 => decide (x.unit < 16)
  | 0x0300 | 0x0580 => decide (x.unit < 256)
  | _ => x.unit == 0

/-- The configuration words of a section with a legal unit; table entries beyond their table are left out. -/
def Section.configWords (x : Section) : List ImageWord :=
  if !unitOk x then []
  else match tableShape x.type with
    | some (e, n) =>
      (List.range x.span.2).flatMap fun i =>
        if x.span.1 + i < n then imageWords x (1 + e * i) (entryLayout x.type (x.span.1 + i)) ((x.words.drop (1 + e * i)).take e) else []
    | none => imageWords x 0 (settingsLayout x.type x.unit) (if x.type = 0x0101 || x.type = 0x0102 then [] else x.words)

/-- Every configuration word of an image. -/
def configWords (xs : List Section) : List ImageWord := xs.flatMap Section.configWords

/-- A section by type and unit. -/
def sectionAt (xs : List Section) (type u : Nat) : Option Section := xs.find? fun x => x.type == type && x.unit == u

/-- Units that have a section of a type. -/
def unitsOf (xs : List Section) (type : Nat) : List Nat := (xs.filter (·.type == type)).map (·.unit)

/-- Instruction words of a station. -/
def imemOf (xs : List Section) (a : Nat) : List Word := match sectionAt xs 0x0101 a with | some x => x.words | none => []

end Sys2Proof.Machine
end

