-- ==== Sys2Proof/Machine/Pool.lean ====
section
/-!
DEFINITION. Unscheduled traffic on the rings (R157, R159 to R161, R172, R187), packets leaving their pool queues (R176, R184), the flowlet
sweep (R169).
-/

namespace Sys2Proof.Machine

/-- The next bay in a direction. -/
def nextBay (dir bay : Nat) : Nat := if dir = 0 then (bay + 1) % 16 else (bay + 15) % 16

/-- Clk from a bay's stop to the next in a direction (R155). -/
def hopFrom (dir bay : Nat) : Nat := if dir = 0 then hopClk bay else hopClk (nextBay 1 bay)

/-! ### Owned slots (R158, R159) -/

/-- The calendar of a ring and direction. -/
def calendar (s : State) (ring dir : Nat) : List Word :=
  s.cfg.filterMap fun e => if calKey ring dir 0 ≤ e.1 && e.1 < calKey ring dir 2048 then some e.2 else none

/-- A bay lies on the way of an entry's slots, its leave stop left out. -/
def onWay (dir : Nat) (w : Word) (bay : Nat) : Bool :=
  calUsed w && decide (transitClk dir (calEnter w) bay < transitClk dir (calEnter w) (calLeave w))

/-- The slot that leaves a stop in the running clk is owned, filled or not (R159). -/
def slotOwned (s : State) (ring dir bay : Nat) : Bool :=
  s.running && (calendar s ring dir).any fun w =>
    onWay dir w bay && (slotStarts w).any fun c => (c + transitClk dir (calEnter w) bay) % s.pourClks == s.pourOff

/-! ### A packet's way on the ring (R160, R161, R172) -/

/-- The bay where a packet's way ends, for one of a single goal. -/
def goalBay (q : QPkt) : Nat :=
  match q.goal with
  | .station a | .forward a => a.toNat / 256
  | .egress | .copy => q.targets.headD 0 / 16

/-- The crossbar output there. -/
def goalOut (q : QPkt) : Nat :=
  match q.goal with
  | .station a | .forward a => a.toNat
  | .egress | .copy => egressSt (q.targets.headD 0)

/-- A packet leaves the ring in a bay: its goal lies there, or it is the last bay of its mask. -/
def endsAt (bay : Nat) (q : QPkt) : Bool := if q.mask = 0 then goalBay q == bay else (maskBays q.mask bay).isEmpty

/-- The outputs that a packet takes in a bay, each with what goes there: its goal, or a copy for each target of a bay of its mask. -/
def outputsIn (bay : Nat) (q : QPkt) : List (Nat × QPkt) :=
  if q.mask = 0 then (if goalBay q = bay then [(goalOut q, q)] else [])
  else if q.mask.testBit bay then (q.targets.filter fun p => p / 16 == bay).map fun p => (egressSt p, copyFor q [p] 0)
  else []

/-- What of a packet has still to go beyond a bay. -/
def beyond (bay : Nat) (q : QPkt) : QPkt :=
  if q.mask.testBit bay then { q with mask := q.mask - 2 ^ bay, targets := q.targets.filter fun p => p / 16 != bay } else q

/-- The crossbar input of a ring stop. -/
def stopInput (ring dir : Nat) : Nat := 256 + 2 * ring + dir

/-- A slot of a packet joins those of it that wait at a crossbar output already. -/
def addCross (q : QPkt) (input t : Nat) (o : CrossOut) : CrossOut :=
  match o.waiting.findIdx? (fun c => c.q == q && c.input == input && decide (c.got.length + c.sent < slotsOf q.pkt.hdr)) with
  | some i => { o with waiting := o.waiting.modify i fun c => { c with got := c.got ++ [t] } }
  | none => { o with waiting := o.waiting ++ [{ q := q, input := input, got := [t], sent := 0 }] }

/-- A slot of a packet comes to a crossbar output. -/
def joinCross (out : Nat) (q : QPkt) (input t : Nat) (s : State) : State :=
  s.setFab fun f => { f with xbar := tmod .reset f.xbar out (addCross q input t) }

/-- A slot of a packet comes to a transit buffer, its packet's own or one that it takes. -/
def joinTransit (key : Nat) (q : QPkt) (t : Nat) (s : State) : State :=
  s.setStop key fun x =>
    match x.transit.findIdx? (fun r => r.q == q && decide (r.got.length + r.sent < slotsOf q.pkt.hdr)) with
    | some i => { x with transit := x.transit.modify i fun r => { r with got := r.got ++ [t] } }
    | none => { x with transit := x.transit ++ [{ q := q, got := [t], sent := 0, came := t }] }

/-- A slot comes to a stop at clk t: it goes to the outputs of the bay, 2 clk on at the crossbar, and what has further to go takes the transit
buffer, which it may leave in the clk after (R155, R160). -/
def arriveStop (ring dir bay : Nat) (q : QPkt) (t : Nat) (s : State) : State :=
  let s := each (outputsIn bay q) (fun e s => joinCross e.1 e.2 (stopInput ring dir) (t + 2) s) s
  if endsAt bay q then s else joinTransit (stopKey ring dir bay) (beyond bay q) (t + 1) s

/-- The next stop can take the first slot of a packet: it ends there, or a transit buffer is free (R160, R161). -/
def roomAt (s : State) (ring dir next : Nat) (q : QPkt) : Bool :=
  endsAt next q || decide ((s.stop (stopKey ring dir next)).transit.length < 4)

/-- A transit packet can take a slot now. -/
def canMove (s : State) (ring dir bay : Nat) (r : RingPkt) : Bool :=
  (match r.got with | t :: _ => decide (t ≤ s.clk) | [] => false) && (decide (0 < r.sent) || roomAt s ring dir (nextBay dir bay) r.q)

/-- The transit packet that takes the slot: the oldest that can. -/
def movable (s : State) (ring dir bay : Nat) : Option RingPkt :=
  ((s.stop (stopKey ring dir bay)).transit.filter (canMove s ring dir bay)).foldl
    (fun b r => match b with | none => some r | some x => if r.came < x.came then some r else some x) none

/-- The free slot that leaves a stop now has not been given. -/
def slotFree (s : State) (ring dir bay : Nat) : Bool := !(s.stop (stopKey ring dir bay)).given && !slotOwned s ring dir bay

/-- The slot is taken (R187). -/
def takeSlot (key : Nat) (s : State) : State :=
  s.setStop key fun x => { x with given := true, ctr := tmod 0 x.ctr 2 (satAdd 48 · 1) }

/-- The next slot of a packet leaves a stop. -/
def sendSlot (ring dir bay : Nat) (r : RingPkt) (s : State) : State :=
  let key := stopKey ring dir bay
  let s := takeSlot key (s.setStop key fun x =>
    { x with transit := if r.sent + 1 = slotsOf r.q.pkt.hdr then x.transit.erase r
        else x.transit.replace r { r with got := r.got.tail, sent := r.sent + 1 } })
  arriveStop ring dir (nextBay dir bay) r.q (s.clk + hopFrom dir bay) s

/-- Rule 1 of R160 for one stop in the running clk. -/
def moveTransit (key : Nat) (s : State) : State :=
  let ring := key / 32
  let dir := key / 16 % 2
  let bay := key % 16
  match movable s ring dir bay with
  | some r => if slotFree s ring dir bay then sendSlot ring dir bay r s else s
  | none => s

/-- Every stop's transit packets move, and the next clk's slots are to give. -/
def moveRings (s : State) : State :=
  let s := each ((s.fab.stops.filter fun e => !e.2.transit.isEmpty).map (·.1)) moveTransit s
  s.setFab fun f => { f with stops := f.stops.map fun e => (e.1, { e.2 with given := false }) }

/-! ### RING_ENTRY (R160) -/

/-- Rank of a class among waiting packets (R160). -/
def entryRank (c : Nat) : Nat := if c = 0 then 0 else if c = 1 then 1 else if c ≤ 5 then 2 else c

/-- The waiting packet that starts: the lowest rank, of equal ranks the first to arrive. -/
def firstWaiting (ws : List QPkt) : Option QPkt :=
  ws.foldl (fun b q =>
    match b with
    | none => some q
    | some x => if entryRank (hCls q.pkt.hdr) < entryRank (hCls x.pkt.hdr) then some q else some x) none

/-- A waiting packet starts: its first slot leaves, and it holds a transit buffer until its last has. -/
def startPacket (ring dir bay : Nat) (q : QPkt) (s : State) : State :=
  let key := stopKey ring dir bay
  let r : RingPkt := { q := q, got := List.replicate (slotsOf q.pkt.hdr) s.clk, sent := 0, came := s.clk }
  sendSlot ring dir bay r (s.setStop key fun x => { x with waiting := x.waiting.erase q, transit := x.transit ++ [r] })

/-- Rule 2 of R160: a free slot that no transit packet takes starts a waiting packet, while two transit buffers are free. -/
def ringEntry (ring dir bay : Nat) (s : State) : State :=
  let x := s.stop (stopKey ring dir bay)
  if !slotFree s ring dir bay || (movable s ring dir bay).isSome || 2 < x.transit.length then s
  else match firstWaiting (x.waiting.filter (roomAt s ring dir (nextBay dir bay))) with
    | some q => startPacket ring dir bay q s
    | none => s

/-- RING_ENTRY (R157, R160, R161). -/
def execRingEntry (ring : Fin 8) (ccw : Bool) (bay : Fin 16) (s : State) : Out :=
  .next (if s.lit then ringEntry ring.val (if ccw then 1 else 0) bay.val s else s)

/-! ### QUEUE_RELEASE and FLOWLET_SWEEP -/

/-- The key of a pool queue. -/
def queueKeyOf : PoolQueue → Nat
  | .egress p c => egressKey p.toNat c.val
  | .replay p => replayKey p.toNat
  | .localDelivery b c => localKey b.val c.val
  | .mcast b c => mcastKey b.val c.val

/-- The oldest packet that has left a queue frees its cells; credits return under the allowance (R176, R184). -/
def queueRelease (key : Nat) (s : State) : State :=
  match tget [] s.fab.leaving key with
  | [] => s
  | q :: _ =>
    release q.owner q.cells (poolPop key q.cells (s.setFab fun f => { f with leaving := tmod [] f.leaving key List.tail }))

/-- QUEUE_RELEASE (R176, R182, R184). -/
def execQueueRelease (q : PoolQueue) (s : State) : Out := .next (queueRelease (queueKeyOf q) s)

/-- FLOWLET_SWEEP (R169): entries of age 2^30 clk or more lose their valid bit. -/
def execFlowletSweep (s : State) : Out :=
  .next (if s.running then
    s.setFab fun f => { f with flowlets := f.flowlets.map fun e =>
      (e.1, { e.2 with valid := e.2.valid && decide ((f.flowClk + 2 ^ 32 - e.2.last) % 2 ^ 32 < 2 ^ 30) }) }
  else s)

end Sys2Proof.Machine
end

