-- ==== Sys2Proof/Machine/LoadCheck.lean ====
section
/-!
DEFINITION. The load checks of R100: absent stations and memory (R3, R4), the ranges of every chapter (IMAGE_RANGE), pour length (R33),
refresh windows (R41) and retry slack (R44). They run over a candidate state that holds the image's words.
-/

namespace Sys2Proof.Machine

/-- What the checks look at: sections, words, the offset of each key, the candidate state. -/
structure Img where
  secs : List Section
  ws : List ImageWord
  offs : Tab Nat
  st : State

/-- A state whose configuration words are the image's. -/
def candidate (xs : List Section) (s : State) : State :=
  { s with cfg := (configWords xs).foldl (fun m w => tset m w.key w.word) [] }

def Img.of (xs : List Section) (s : State) : Img :=
  let ws := configWords xs
  { secs := xs, ws := ws, offs := ws.foldl (fun m w => tset m w.key w.off) [], st := candidate xs s }

/-- Byte offset of the word of a key. -/
def Img.off (g : Img) (k : Nat) : Nat := tget 0 g.offs k

/-- The image supplies the word of a key. -/
def Img.has (g : Img) (k : Nat) : Bool := (tget? g.offs k).isSome

/-- The offset of a key's word where a fault holds. -/
def Img.at' (g : Img) (k : Nat) (fault : Bool) : List Nat := if fault then [g.off k] else []

/-- The same, for a word that the image supplies only. -/
def Img.given (g : Img) (k : Nat) (fault : Bool) : List Nat := if g.has k && fault then [g.off k] else []

def Img.stations (g : Img) : List Nat := unitsOf g.secs 0x0100
def Img.ports (g : Img) : List Nat := unitsOf g.secs 0x0300
def Img.enabled (g : Img) : List Nat := g.ports.filter g.st.portEnabled
/-- The bay has 8-lane ports (R116). -/
def Img.wide (g : Img) (bay : Nat) : Bool := g.ports.any fun p => p / 16 == bay && bit (g.st.portCfg p) 2

/-! ### Absent stations and memory (R3, R4) -/

/-- Every station address an image names. -/
def Img.named (g : Img) : List Nat :=
  (g.secs.filter fun x => decide (0x0100 ≤ x.type) && decide (x.type ≤ 0x0105)).map (·.unit) ++
  (g.stations.flatMap fun a =>
    ((List.range 7).map fun n => neighbour g.st a (n + 1)).filter (· != 0) ++
    ((List.range 16).filter fun e => isBound g.st a e && !bit (qcfg g.st a e) 1).map (boundSt g.st a)) ++
  ((g.secs.filter (·.type == 0x0200)).flatMap fun x => x.words.map fun w => fld w 25 14) ++
  (validInsts g.st).map (iCrucible g.st) ++
  ((tableRows g.st 9 0 0x20000 8 (fun w => bit w 62)).map (mStation g.st))

/-- The lowest of some numbers. -/
def lowest : List Nat → Option Nat
  | [] => none
  | x :: xs => some (xs.foldl min x)

def Img.absentStation (g : Img) : Option Nat := lowest (g.named.filter fun a => !stationPresent g.st a)

/-- Stacks that a region touches. -/
def Img.stacksOf (g : Img) (r : Nat) : List Nat :=
  (List.range 8).filter fun k => decide (stackOf (rgBase g.st r) ≤ k) && decide (k ≤ stackOf (rgBase g.st r + rgBytes g.st r - 1))

/-- Stacks an image touches: by its regions, and by the memory instructions of a station, whose local stack they access. -/
def Img.touched (g : Img) : List Nat :=
  (regions g.st).flatMap g.stacksOf ++
  (((unitsOf g.secs 0x0101).filter fun a => kindOf a == 7 && (imemOf g.secs a).any fun w => decide (0x40 ≤ opOf w) && decide (opOf w ≤ 0x42)).map
    fun a => bayOf a / 2)

def Img.absentStack (g : Img) : Option Nat := lowest (g.touched.filter fun k => !g.st.stackPresent k)

/-! ### Form: units, fields that are not the image's, table indexes (R468) -/

def Img.formFaults (g : Img) : List Nat :=
  (g.secs.flatMap fun x =>
    (if unitOk x then [] else [x.off]) ++
    match tableShape x.type, x.words with
    | some (e, n), w :: _ =>
      (if fld w 63 32 ≠ 0 then [x.at' 0] else []) ++
      (if 0 < x.span.2 && decide (n < x.span.1 + x.span.2) then [x.at' (1 + e * (n - x.span.1))] else [])
    | _, _ => []) ++
  (g.ws.filter fun w => w.word.toNat &&& (allBits - w.mask) != 0).map (·.off)

/-- Zero bytes the form asks for: the reserved half of each header and the padding word (R235). -/
def padFaults : Nat → Nat → List Word → List Nat
  | 0, _, _ => []
  | fuel + 1, off, ws =>
    match ws with
    | w0 :: w1 :: rest =>
      let n := fld w0 63 32 / 8
      (if w1 ≠ 0 then [off + 8] else []) ++
      (if fld w0 15 0 = 0xFFFF then []
      else
        (if n % 2 = 1 && rest[n]? != some 0 then [off + 16 + 8 * n] else []) ++
        padFaults fuel (off + 16 + 8 * (n + n % 2)) (rest.drop (n + n % 2)))
    | _ => []

/-! ### Global and time settings (R406, R447, R448) -/

/-- A region is valid and of a kind. -/
def regionKind (s : State) (r k : Nat) : Bool := bit (regionWord s r 0) 63 && rgKind s r == k

def within' (lo hi x : Int) : Bool := decide (lo ≤ x) && decide (x ≤ hi)

def Img.settingFaults (g : Img) : List Nat :=
  let s := g.st
  let t := s.timeCfg
  let b := s.startCfg
  g.at' 0x1_0008
    (!(within' (-3) 1 s.logAnnounce && within' (-7) 0 s.logDelay && within' (-7) 0 s.logSync && within' 1 7 (fld t 44 42) &&
      within' 100 2000 (fld t 31 20) && s.timeOutMode != 3 && s.timeSrc != 3)) ++
  g.at' 0x1_0010 (!(within' 10 600 (fld b 25 16) && within' 1 60 (fld b 5 0))) ++
  g.at' 0x2_0000
    (decide (s.pourClks ≤ s.cutoff) || !regionKind s (fld s.ledgerCfg 55 48) 3 ||
      (s.replayMode && !regionKind s (fld s.ledgerCfg 47 40) 2)) ++
  g.given (tbKey 6 0) (decide (fld s.routeCfg 31 16 < 64))

/-! ### Stations (R202, R206, R218, R226, R227, R236) -/

/-- Classes of operand codes. -/
inductive Opnd where
  /-- not an operand of the instruction -/
  | any
  /-- scalar register -/
  | s
  /-- input end -/
  | qi
  /-- output end -/
  | qo
  /-- output end or S0 -/
  | qoz
  /-- S0 -/
  | z
  /-- output end or line register -/
  | line
  /-- input end or line register -/
  | src
  /-- any source -/
  | from'
  /-- any destination -/
  | to'
  deriving DecidableEq, Repr

def Opnd.ok : Opnd → Nat → Bool
  | .any, _ => true
  | .s, c => isScalar c
  | .qi, c => isQi c
  | .qo, c => isQo c
  | .qoz, c => isQo c || c == 0x18
  | .z, c => c == 0x18
  | .line, c => isQo c || isLine c
  | .src, c => isQi c || isLine c
  | .from', c => !isQo c
  | .to', c => !isQi c

/-- Classes of d, a, b of a common opcode; none where it is not defined (R226). -/
def commonOpnd (op : Nat) : Option (Opnd × Opnd × Opnd) :=
  if op = 0x00 ∨ op = 0x01 ∨ op = 0x03 then some (.any, .any, .any)
  else if op = 0x02 ∨ op = 0x04 ∨ op = 0x05 ∨ op = 0x06 ∨ op = 0x1B then some (.any, .s, .any)
  else if op = 0x08 ∨ op = 0x09 ∨ op = 0x1C then some (.s, .any, .any)
  else if 0x0A ≤ op ∧ op ≤ 0x14 then some (.s, .s, .s)
  else if op = 0x15 ∨ op = 0x18 then some (.s, .s, .any)
  else if op = 0x19 then some (.any, .s, .s)
  else if op = 0x1A then some (.to', .from', .any)
  else none

/-- Classes of a la.walk by phase (R328). -/
def walkOpnd : Nat → Opnd × Opnd × Opnd
  | 0 => (.z, .qi, .qi) | 1 => (.z, .qi, .z) | 2 => (.qo, .qi, .qi) | _ => (.qoz, .qi, .qi)

/-- Classes of d, a, b of a kind's own opcode (R227 and the chapters it names). -/
def kindOpnd (kind : Nat) (w : Word) : Option (Opnd × Opnd × Opnd) :=
  let queue := immOf w % 2 == 0
  match kind, opOf w with
  | 0, 0x40 => some (.s, .any, .any)
  | 1, 0x40 | 1, 0x41 | 1, 0x42 | 1, 0x43 | 1, 0x44 | 1, 0x45 | 1, 0x46 => some (.line, .from', .from')
  | 1, 0x47 => some (.s, .from', .from')
  | 1, 0x48 => some (.line, .s, .any)
  | 1, 0x49 => some (.s, .from', .any)
  | 1, 0x50 => some (.line, .src, .s)
  | 1, 0x51 => some (.line, .s, .any)
  | 1, 0x52 => some (.any, .s, .from')
  | 2, 0x40 | 2, 0x43 => some (.any, .s, .any)
  | 2, 0x41 => some (.any, .qi, .s)
  | 2, 0x42 => some (.qo, .s, .s)
  | 3, 0x40 => some (.any, .s, .any)
  | 3, 0x41 => some (.qo, .qi, .s)
  | 4, 0x40 => some (.any, .s, .any)
  | 4, 0x41 => some (walkOpnd (immOf w % 4))
  | 5, 0x40 | 5, 0x41 => some (.any, if queue then .qi else .any, .s)
  | 5, 0x42 => some (.qo, .any, .s)
  | 6, 0x40 => some (if immOf w / 16 % 2 = 1 then .z else .qoz, .qi, .s)
  | 6, 0x41 => some (.qoz, .s, .s)
  | 6, 0x42 => some (.qo, .qi, .s)
  | 6, 0x43 => some (.qo, .any, .s)
  | 7, 0x40 => some (.qo, .s, .s)
  | 7, 0x41 => some (.any, .qi, .s)
  | 7, 0x42 => some (.qo, .qi, .s)
  | 8, 0x40 => some (.qo, .s, .any)
  | 9, 0x40 => some (.qo, .qi, .s)
  | _, _ => none

def opndOf (kind : Nat) (w : Word) : Option (Opnd × Opnd × Opnd) := if opOf w < 0x40 then commonOpnd (opOf w) else kindOpnd kind w

/-- Queue ends an instruction names. -/
def endsNamed (o : Opnd × Opnd × Opnd) (w : Word) : List Nat :=
  ([(o.1, dOf w), (o.2.1, aOf w), (o.2.2, bOf w)].filter fun e => e.1 != .any && decide (e.2 < 16)).map (·.2)

/-- Two different tenant flasks (R432). -/
def tenants (f h : Nat) : Bool := f != 0 && h != 0 && f != h

/-- A wait field is legal (R220, R236). -/
def waitFieldOk (s : State) (a : Nat) (w : Word) : Bool :=
  let x := fld w 31 16
  let nb := x / 2 ^ 11 % 8
  let known := nb == 0 || neighbour s a nb != 0
  match x / 2 ^ 14 with
  | 0 => true
  | 1 => known && x % 8 == 0 && !(x / 8 % 2 == 1 && nb != 0)
  | 2 => known && x / 32 % 2 == 0
  | _ => false

/-- A signal field is legal (R221, R225). -/
def signalFieldOk (s : State) (a : Nat) (w : Word) : Bool :=
  let x := fld w 15 0
  let nb := x / 2 ^ 11 % 8
  let known := nb == 0 || neighbour s a nb != 0
  match x / 2 ^ 14 with
  | 0 => true
  | 3 => known && decide (x / 64 % 32 < 30)
  | _ => known && x / 32 % 64 != 63 && x % 16 == 0

/-- A vcvt is legal (R245). -/
def vcvtOk (w : Word) : Bool := immOf w / 64 % 4 != 3 && immOf w / 256 == 0

/-- A rd.load of a fixed constant line finds a legal program (R307). -/
def rdLoadOk (g : Img) (a : Nat) (w : Word) : Bool :=
  immOf w / 512 == 1 || aOf w != 0x18 || decide (constEnd g.st a ≤ immOf w % 512) ||
    (match sectionAt g.secs 0x0102 a with
     | some x => !((List.range 8).any fun i => termBad (x.words.getD (16 * (immOf w % 512) + 2 * i) 0))
     | none => true)

/-- bc.pick names a pickup region of its own flask (R410, R432). -/
def pickOk (s : State) (a : Nat) (w : Word) : Bool :=
  let r := immOf w % 256
  regionKind s r 1 && !tenants (stationFlask s a) (rgFlask s r)

/-- A memory instruction joins a tenant's station to a region of another tenant (R432): its address stands in a register, so the check sees
it where every region of the station's stack is another tenant's (DEDUCED, log entry 18); a single access is checked as it is made (R350). -/
def strangersOnly (s : State) (a : Nat) : Bool :=
  let rs := (regions s).filter fun r => stackOf (rgBase s r) == bayOf a / 2
  !rs.isEmpty && rs.all fun r => tenants (stationFlask s a) (rgFlask s r)

/-- The fixed end of a port station (R206). -/
def fixedEnd (a e : Nat) : Bool := (kindOf a == 8 && e == 0) || (kindOf a == 9 && e == 8)

/-- A program may name an end: it is bound, or it is the port's own end (R206, R234). -/
def usableEnd (s : State) (a e : Nat) : Bool := isBound s a e || (fixedEnd a e && bit (qcfg s a e) 1)

/-- An instruction word passes the checks of R236. -/
def instrOk (g : Img) (a : Nat) (w : Word) : Bool :=
  let kind := kindOf a
  match opndOf kind w with
  | none => false
  | some o =>
    o.1.ok (dOf w) && o.2.1.ok (aOf w) && o.2.2.ok (bOf w) &&
    (endsNamed o w).all (usableEnd g.st a) &&
    !(kind == 9 && (dOf w == 8) && o.1 != .any && opOf w != 0x40) &&
    !(kind == 9 && opOf w == 0x40 && dOf w != 8) &&
    !(decide (3 ≤ opOf w) && decide (opOf w ≤ 6) && bit w 46) &&
    waitFieldOk g.st a w && signalFieldOk g.st a w &&
    !(kind == 1 && opOf w == 0x50 && !vcvtOk w) &&
    !(kind == 3 && opOf w == 0x40 && !rdLoadOk g a w) &&
    !(kind == 0 && opOf w == 0x40 && !pickOk g.st a w) &&
    !(kind == 7 && decide (0x40 ≤ opOf w) && strangersOnly g.st a)

/-- A queue binding is legal (R206, R234, R236, R432). -/
def bindingOk (g : Img) (a e : Nat) : Bool :=
  let s := g.st
  let q := qcfg s a e
  if !isBound s a e then true
  else if fixedEnd a e || bit q 1 then fixedEnd a e && bit q 1
  else
    let b := boundSt s a e
    let h := boundEnd s a e
    (decide (e < 8) != decide (h < 8)) && isBound s b h && !bit (qcfg s b h) 1 && boundSt s b h == a && boundEnd s b h == e &&
    !tenants (stationFlask s a) (stationFlask s b) &&
    (decide (e < 8) || (isRing s a e == (bayOf a != bayOf b))) &&
    (decide (e < 8) || !isRing s a e || (g.has (calKey (fld q 46 44) (fld q 43 43) (fld q 42 32)) && fld (calOf s a e) 25 14 == a))

/-- A port station that serves no port (R202). -/
def unusedPort (g : Img) (a : Nat) : Bool := (kindOf a == 8 || kindOf a == 9) && indexOf a % 2 == 1 && g.wide (bayOf a)

/-- Faults of one named station. -/
def Img.stationFaults (g : Img) (a : Nat) : List Nat :=
  let s := g.st
  let prog := imemOf g.secs a
  let consts := match sectionAt g.secs 0x0102 a with | some x => x.words.length | none => 0
  g.at' (stKey a 8)
    (decide (prog.length ≤ entryOf s a) || decide (2048 < constEnd s a) || consts != 16 * constEnd s a) ++
  ((List.range 7).flatMap fun n =>
    g.at' (stKey a (0x88 + 8 * n)) (neighbour s a (n + 1) != 0 && tenants (stationFlask s a) (stationFlask s (neighbour s a (n + 1))))) ++
  ((List.range 16).flatMap fun e => g.at' (stKey a (0x100 + 8 * e)) (!bindingOk g a e || (unusedPort g a && isBound s a e))) ++
  match sectionAt g.secs 0x0101 a with
  | some x =>
    (if unusedPort g a then [x.at' 0] else []) ++
    (((List.range prog.length).zip prog).filter fun e => !instrOk g a e.2).map fun e => x.at' e.1
  | none => []

def Img.allStationFaults (g : Img) : List Nat :=
  g.stations.flatMap g.stationFaults ++
  ((g.secs.filter fun x => (x.type == 0x0101 || x.type == 0x0102) && !g.stations.contains x.unit).map (·.off))

/-! ### Rings, routing, pool (R158, R163, R178, R183, R185, R460) -/

/-- Segments of a calendar entry: bay left and clk of its first slot there. -/
def segments (dir enter leave : Nat) : Nat → Nat → List (Nat × Nat)
  | 0, _ => []
  | n + 1, t =>
    if enter = leave then []
    else (enter, t) :: segments dir (nextBay dir enter) leave n (t + hopClk (if dir = 0 then enter else nextBay dir enter))

/-- Two runs of slots that share a clk of the pour. -/
def runsMeet (pour s1 n1 s2 n2 : Nat) : Bool :=
  decide ((s2 + pour - s1 % pour) % pour < n1) || decide ((s1 + pour - s2 % pour) % pour < n2)

def calRun (w : Word) : Nat := fld w 41 34 + 1

/-- Two entries of one ring and direction that claim a segment in one clk. -/
def entriesMeet (pour dir : Nat) (x y : Word) : Bool :=
  (segments dir (fld x 33 30) (fld x 29 26) 16 (fld x 63 42)).any fun p =>
    (segments dir (fld y 33 30) (fld y 29 26) 16 (fld y 63 42)).any fun q => p.1 == q.1 && runsMeet pour p.2 (calRun x) q.2 (calRun y)

def Img.calendarFaults (g : Img) : List Nat :=
  let pour := g.st.pourClks
  (g.secs.filter fun x => x.type == 0x0200 && unitOk x).flatMap fun x =>
    ((List.range x.words.length).zip x.words).flatMap fun e =>
      let w := e.2
      if fld w 33 30 = fld w 29 26 || bayOf (fld w 25 14) ≠ fld w 33 30 || pour < fld w 63 42 + calRun w ||
          ((List.range x.words.length).zip x.words).any (fun h => h.1 != e.1 && entriesMeet pour (x.unit % 2) w h.2) then
        [x.at' e.1]
      else []

/-- A route entry names ports that the pattern enables, and a path group that the image supplies (R163). -/
def routeOk (g : Img) (w : Word) : Bool :=
  let s := g.st
  match fld w 62 61 with
  | 0 => s.portEnabled (fld w 55 48)
  | 1 => g.has (tbKey 1 (16 * fld w 47 36)) && (List.range (fld w 35 32 + 1)).all fun i => s.portEnabled (groupMember s (fld w 47 36) i)
  | _ => true

/-- Every entry that the image supplies is checked but a GROUP one that is not valid. -/
def Img.routeFaults (g : Img) : List Nat :=
  (tableRows g.st 0 0 0x1000000 8 (fun w => fld w 62 61 == 3 || ((bit w 63 || fld w 62 61 == 0) && !routeOk g w))).map fun i =>
    g.off (tbKey 0 (8 * i))

/-- Two windows of one pour, or of one pour and the next, that share a clk. -/
def meetIn (pour a n b m : Nat) : Bool :=
  (decide (a < b + m) && decide (b < a + n)) || decide (b + pour < a + n) || decide (a + pour < b + m)

/-- Windows that start at `off` every `period` clk for `len` clk, in every pour: do two sets meet (R178)? -/
def windowsMeet (pour o1 p1 n1 o2 p2 n2 : Nat) : Bool :=
  (List.range (pour / max p1 1 + 1)).any fun i =>
    let a := o1 + i * p1
    decide (a < pour) && (List.range (pour / max p2 1 + 1)).any fun j =>
      let b := o2 + j * p2
      decide (b < pour) && meetIn pour a n1 b n2

def poolWord (s : State) : Word := s.cfgw (tbKey 4 0x400220)

/-- Sum of the four grants of a port's CREDIT_A: its limit (R181). -/
def portLimit (s : State) (p : Nat) : Nat := ([4, 5, 6, 7].map (grantOf s p)).sum
def stationLimit (s : State) (a : Nat) : Nat := fld (s.cfgw (stKey a 0x210)) 21 0
def tapLimit (s : State) (k : Nat) : Nat := fld (s.cfgw (tbKey 5 (64 * k + 32))) 21 0
/-- The flask of a tap session: that of its port. -/
def tapFlask (s : State) (k : Nat) : Nat := cfgFlask s (fld (s.cfgw (tbKey 5 (64 * k))) 28 21)

/-- Limits of every requester with its flask (R180, R183). -/
def Img.limits (g : Img) : List (Nat × Nat) :=
  g.ports.map (fun p => (cfgFlask g.st p, portLimit g.st p)) ++
  (unitsOf g.secs 0x0103).map (fun a => (stationFlask g.st a, stationLimit g.st a)) ++
  (List.range 4).map (fun k => (tapFlask g.st k, tapLimit g.st k))

def Img.flaskLimit (g : Img) (f : Nat) : Nat := ((g.limits.filter (·.1 == f)).map (·.2)).sum
def Img.poolLimit (g : Img) : Nat := (g.limits.map (·.2)).sum

/-- Thresholds out of order or above their limit (R183). -/
def thrBad (w : Word) (limit : Nat) : Bool := decide (fld w 53 32 < fld w 21 0) || decide (limit < fld w 53 32)

/-- Every quota's thresholds (R183): ports, flasks, the pool, stations, tap sessions. -/
def Img.quotaFaults (g : Img) : List Nat :=
  let s := g.st
  let chk (k limit : Nat) : List Nat := g.at' k (thrBad (s.cfgw k) limit)
  g.ports.flatMap (fun p => chk (ptKey p 0x108) (portLimit s p)) ++
  (List.range 16).flatMap (fun f => chk (tbKey 4 (0x400008 + 0x20 * f)) (g.flaskLimit f)) ++ chk (tbKey 4 0x400208) g.poolLimit ++
  (unitsOf g.secs 0x0103).flatMap (fun a => chk (stKey a 0x218) (stationLimit s a)) ++
  (List.range 4).flatMap fun k => chk (tbKey 5 (64 * k + 40)) (tapLimit s k)

/-- Blocks a pattern can need at once (R185). -/
def Img.poolNeed (g : Img) : Nat :=
  let s := g.st
  fld (poolWord s) 15 0 + 2 * (7 * g.enabled.length + 96) + (g.poolLimit + 63) / 64 + ((g.enabled.map fun p => fld (s.portCfg p) 63 48 + 1).sum)

def Img.poolFaults (g : Img) : List Nat :=
  let s := g.st
  let w := poolWord s
  let r := s.pourWin
  let per := fld w 63 48
  g.given (tbKey 4 0x400220)
    (!(within' 64 600 per && within' 32 255 (fld w 47 40) && s.pourClks % max per 1 == 0 && decide (fld w 31 16 < per)) ||
      windowsMeet s.pourClks (fld w 31 16) per (fld w 47 40) (fld r 44 32) (fld r 12 0) (fld r 28 16)) ++
  (if 49152 < g.poolNeed then
    [if g.has (tbKey 4 0x400220) then g.off (tbKey 4 0x400220)
     else match g.enabled with | p :: ps => g.off (ptKey (ps.foldl min p) 8) | [] => 0] else []) ++
  ((List.range 4).flatMap fun k =>
    let w0 := s.cfgw (tbKey 5 (64 * k))
    if bit w0 63 then
      g.at' (tbKey 5 (64 * k)) (!s.portEnabled (fld w0 28 21)) ++
      g.at' (tbKey 5 (64 * k + 8)) (fld (s.cfgw (tbKey 5 (64 * k + 8))) 11 0 != 0)
    else [])

/-! ### Ports and traffic control (R148, R195, R196, R200) -/

/-- Gate entries of a port by index, from the image. -/
def gateWords (s : State) (p off : Nat) : Tab Word := (List.range 64).map fun i => (i, s.cfgw (ptKey p (off + 8 * i)))

/-- Index of the first skipped entry of a list. -/
def skipped (n : Nat) (es : Tab Word) (pour : Nat) : Option Nat :=
  (List.range n).find? fun i =>
    !(decide ((if i = 0 then 0 else fld (tget 0 es i) 63 42) < fld (tget 0 es (i + 1)) 63 42) && decide (fld (tget 0 es (i + 1)) 63 42 < pour))

def Img.gateFaults (g : Img) (p off n : Nat) : List Nat :=
  match skipped n (gateWords g.st p off) g.st.pourClks with
  | some i => [g.off (ptKey p (off + 8 * (i + 1)))]
  | none => []

def Img.portFaults (g : Img) (p : Nat) : List Nat :=
  let s := g.st
  let c := s.portCfg p
  let shapeBad := fun (i : Nat) => fld (shapeCfg s p i) 16 0 != 0 && decide (fld (shapeCfg s p i) 59 40 < 4191)
  g.at' (ptKey p 8) (decide (2000 < fld c 42 32) || (bit c 0 && p % 2 == 1 && g.wide (p / 16))) ++
  g.at' (ptKey p 0x208) (shapeBad 0) ++ g.at' (ptKey p 0x210) (shapeBad 1) ++
  g.gateFaults p 0x800 (fld (s.cfgw (ptKey p 0x218)) 5 0) ++ g.gateFaults p 0xA00 (fld (s.cfgw (ptKey p 0x218)) 13 8)

def Img.policerFaults (g : Img) : List Nat :=
  (tableRows g.st 7 0 0x1000 32 (fun w => bit w 63 && decide (fld w 27 0 < 4191))).filterMap fun k =>
    if k % 8 = 2 || k % 8 = 3 then none else some (g.off (tbKey 7 (32 * k)))

/-! ### Collectives (R260, R265, R266) -/

/-- dtypes an operation allows. -/
def dtypeOk (op t : Nat) : Bool :=
  match op with
  | 1 => t == 0 || t == 1 || t == 2 || t == 7
  | 2 | 3 => t == 0 || t == 1 || t == 2 || t == 6 || t == 7
  | 4 => t == 0
  | 5 | 6 | 7 => t == 6 || t == 7 || t == 8
  | 8 | 9 | 10 => decide (t ≤ 8)
  | 11 => t == 7
  | 12 => t == 0 || t == 7
  | _ => false

/-- Accumulator bits of an operation: element size in bits, E and n. -/
def accBits (op t : Nat) (ranked : Bool) (z e n : Nat) : Nat :=
  match op with
  | 1 => 8 * (if ranked && t != 7 then 40 * e else 4 * e)
  | 2 | 3 => 8 * (4 * e)
  | 4 => 8 * (128 * n)
  | 5 | 6 | 7 => z * e
  | 8 | 9 => z * e * n
  | 10 => z * e * n * n
  | 11 => 8 * (4 * n * n)
  | _ => 8 * (if t = 0 then 40 * e * n else 4 * e * n)

/-- Rows an instance of a group needs (R260). -/
def rowsNeeded (s : State) (g : Nat) : Nat :=
  let t := gType s g
  (accBits (gOp s g) t (gRanked s g) (elemBits t) (gElems s g) (gMembers s g) + 4095) / 4096

def gSpan (s : State) (g : Nat) : Nat := fld (groupWord s g 0) 30 10 + 1
def validGroups (s : State) : List Nat := tableRows s 8 0 0x8000 32 (fun w => bit w 63)

/-- A count exchange instance. -/
def isCountInst (s : State) (i : Nat) : Bool := iValid s i && gValid s (iGroup s i) && gOp s (iGroup s i) == 11

/-- Bit length of a number. -/
def bitLen (n : Nat) : Nat := if n = 0 then 0 else n.log2 + 1

/-- Word 0 of a descriptor breaks R265 or a range of R261. -/
def groupBad0 (s : State) (g : Nat) : Bool :=
  let op := gOp s g
  let t := gType s g
  !dtypeOk op t || fld (groupWord s g 0) 52 51 == 3 ||
  (gLong s g && (!gRanked s g || op != 1 || t == 7)) || (gVar s g && op != 8 && op != 10) ||
  gSizeClass s g != bitLen (gElems s g - 1) || (op == 1 && !gLong s g && decide (gSpan s g < gMembers s g)) ||
  (op == 4 && decide (32 < gElems s g)) || (op == 11 && decide (256 < gMembers s g))

/-- Word 1 of a descriptor breaks R265. -/
def groupBad1 (s : State) (g : Nat) : Bool :=
  (gVar s g && !isCountInst s (gCountInst s g)) || (gOp s g == 11 && gElems s g != gMembers s g) ||
  decide (16383 < gBase s g + gMembers s g - 1)

/-- Word 2 of a descriptor: root is a rank of a scatter, zero otherwise (R261). -/
def groupBad2 (s : State) (g : Nat) : Bool := if gOp s g = 9 then decide (gMembers s g ≤ gRoot s g) else gRoot s g != 0

def firstP (s : State) (i : Nat) : Nat := fld (instWord s i 2) 63 32
def lastP (s : State) (i : Nat) : Nat := fld (instWord s i 2) 31 0

/-- Two instances of one Crucible could hold one row in one pour. -/
def instsMeet (s : State) (i j : Nat) : Bool :=
  iCrucible s i == iCrucible s j && rowsOverlap s i j && decide (firstP s i ≤ lastP s j) && decide (firstP s j ≤ lastP s i)

def instBad (s : State) (i : Nat) : Bool :=
  kindOf (iCrucible s i) != 2 || decide (640 < iRow s i + iRows s i) ||
  (gValid s (iGroup s i) && decide (iRows s i < rowsNeeded s (iGroup s i))) ||
  ((validInsts s).any fun j => j != i && instsMeet s i j)

/-- The port-ingress station of a port binds one output end to a Crucible's end. -/
def ingressBound (s : State) (p c e : Nat) : Bool :=
  let a := p / 16 * 256 + 0x80 + p % 16
  ((List.range 8).filter fun j => isBound s a (8 + j) && boundSt s a (8 + j) == c && boundEnd s a (8 + j) == e).length == 1

/-- Local members of another tenant than their group's (R432), and port members whose station binds no end to their Crucible (R265). A
member that no section gives reads as zeros, and is the fault of the instance that needs it. -/
def Img.memberFaults (g : Img) : List Nat :=
  let s := g.st
  ((validGroups s).flatMap fun gr => (ranks s gr).flatMap fun r =>
    let m := memberNo s gr r
    g.at' (tbKey 9 (8 * m)) (mLocal s m && tenants (stationFlask s (mStation s m)) (fld (groupWord s gr 0) 3 0))) ++
  ((validInsts s).filter fun i => gValid s (iGroup s i)).flatMap fun i => (ranks s (iGroup s i)).flatMap fun r =>
    let m := memberNo s (iGroup s i) r
    let k := tbKey 9 (8 * m)
    g.at' (if g.has k then k else tbKey 10 (32 * i)) (!mLocal s m && !ingressBound s (mPort s m) (iCrucible s i) (mEnd s m))

def Img.collectiveFaults (g : Img) : List Nat :=
  let s := g.st
  ((validGroups s).flatMap fun k =>
    g.at' (tbKey 8 (32 * k)) (groupBad0 s k) ++ g.at' (tbKey 8 (32 * k + 8)) (groupBad1 s k) ++ g.at' (tbKey 8 (32 * k + 16)) (groupBad2 s k)) ++
  ((validInsts s).flatMap fun i => g.at' (tbKey 10 (32 * i)) (instBad s i)) ++ g.memberFaults

/-! ### Memory, layers, sort slots (R298, R334, R353, R362) -/

def freeReserve : Nat := 0x20_0000

def regionBad (s : State) (r : Nat) : Bool :=
  let b := rgBase s r
  let n := rgBytes s r
  b % 2097152 != 0 || stackOf b != stackOf (b + n - 1) || decide (8 * stackSize < b + n) || decide (b < freeReserve) ||
  (bit (regionWord s r 0) 56 && rgKind s r == 0) || (bit (regionWord s r 0) 57 && rgKind s r == 2) ||
  (rgKind s r == 2 && decide (0x10_0000_0000 < n)) ||
  ((regions s).any fun q => q != r && decide (b < rgBase s q + rgBytes s q) && decide (rgBase s q < b + n))

/-- First staging block of a layer, and one past its last (R334, R335). -/
def staging (s : State) (l : Nat) : Nat × Nat :=
  let w := s.cfgw (tbKey 11 (64 * l + 8))
  (fld w 26 11, fld w 26 11 + (fld w 28 27 + 2) * (fld w 10 0 + 1))

def validLayers (s : State) : List Nat := tableRows s 11 0 0x4000 64 (fun w => bit w 63)

def Img.memoryFaults (g : Img) : List Nat :=
  let s := g.st
  (tableRows s 12 0 0x1000 16 (fun w => decide (4 ≤ fld w 62 60))).map (fun r => g.off (tbKey 12 (16 * r))) ++
  ((regions s).filter (regionBad s)).map (fun r => g.off (tbKey 12 (16 * r))) ++
  g.given (tbKey 12 0x1200) (decide (fld s.pourWin 28 16 < 12 * fld (s.cfgw (tbKey 12 0x1200)) 2 0 + 36)) ++
  ((unitsOf g.secs 0x0580).flatMap fun l => g.at' (tbKey 11 (64 * l)) (fld (s.cfgw (tbKey 11 (64 * l))) 62 61 == 3)) ++
  ((validLayers s).flatMap fun l =>
    g.at' (tbKey 11 (64 * l + 8))
      (decide (fld (poolWord s) 15 0 < (staging s l).2) ||
        (validLayers s).any fun k => k != l && decide ((staging s l).1 < (staging s k).2) && decide ((staging s k).1 < (staging s l).2))) ++
  ((unitsOf g.secs 0x0105).flatMap fun a =>
    let w := fun k => s.cfgw (stKey a (0x410 + 8 * k))
    (List.range 16).flatMap fun k =>
      g.at' (stKey a (0x410 + 8 * k))
        (bit (w k) 9 && (decide (65536 < fld (w k) 63 48 + fld (w k) 47 32 + 1) ||
          (List.range 16).any fun j => j != k && bit (w j) 9 && decide (fld (w k) 63 48 ≤ fld (w j) 63 48 + fld (w j) 47 32) &&
            decide (fld (w j) 63 48 ≤ fld (w k) 63 48 + fld (w k) 47 32))))

/-! ### Ledger and spare pairs (R367, R368, R390) -/

/-- The entry and every entry its deps lead to, `fuel` of them. -/
def depChain (s : State) : Nat → Nat → List Nat
  | 0, _ => []
  | n + 1, e => match depOf s e with | some d => d :: depChain s n d | none => []

def entryBad0 (s : State) (e : Nat) : Bool :=
  (bit (entryWord s e 0) 62 && !iValid s e) ||
  (match depOf s e with | some d => d == e || !bit (entryWord s d 0) 63 || (depChain s 4096 e).contains e | none => false)

def entryBad1 (s : State) (e : Nat) : Bool :=
  decide (lastPour s e < firstPour s e) || decide (s.heatLen < lastPour s e + s.horizon + 2)

/-- A mask word with a bit for a port that is not enabled. -/
def maskBad (s : State) (k j : Nat) : Bool := (List.range 64).any fun i => bit (s.cfgw k) i && !s.portEnabled (64 * j + i)

def pairWord (s : State) (k : Nat) : Word := s.cfgw (tbKey 14 (8 * k))
def pairPorts (s : State) (k : Nat) : List Nat := [fld (pairWord s k) 55 48, fld (pairWord s k) 47 40]
def validPairs (s : State) : List Nat := tableRows s 14 0 504 8 (fun w => bit w 63)

def pairBad (s : State) (k : Nat) : Bool :=
  let ps := pairPorts s k
  !ps.all s.portEnabled || (s.portWidth (ps.getD 0 0) != s.portWidth (ps.getD 1 0)) || ps.getD 0 0 == ps.getD 1 0 ||
  (validPairs s).any fun j => j != k && (pairPorts s j).any ps.contains

def Img.ledgerFaults (g : Img) : List Nat :=
  let s := g.st
  ((validEntries s).flatMap fun e =>
    g.at' (tbKey 13 (128 * e)) (entryBad0 s e) ++ g.at' (tbKey 13 (128 * e + 8)) (entryBad1 s e) ++
    (List.range 8).flatMap fun j => g.at' (tbKey 13 (128 * e + 32 + 8 * j)) (maskBad s (tbKey 13 (128 * e + 32 + 8 * j)) (j % 4))) ++
  ((validInsts s).flatMap fun i =>
    g.at' (tbKey 10 (32 * i)) (!(bit (entryWord s i 0) 63 && bit (entryWord s i 0) 62))) ++
  ((List.range 8).flatMap fun j =>
    let k := tbKey 13 (0x80000 + 8 * j)
    g.given k (maskBad s k (j % 4) || (List.range 64).any fun i =>
      bit (s.cfgw k) i && s.cfgw (tbKey 13 (0x80100 + 8 * (64 * (j % 4) + i))) == 0)) ++
  ((validPairs s).flatMap fun k => g.at' (tbKey 14 (8 * k)) (pairBad s k))

/-! ### The order of R100 -/

/-- Every fault of step 4, as byte offsets. -/
def Img.rangeFaults (g : Img) (ws : List Word) : List Nat :=
  g.formFaults ++ padFaults (ws.length + 1) 0 ws ++ g.settingFaults ++ g.allStationFaults ++ g.calendarFaults ++ g.routeFaults ++
  g.poolFaults ++ g.quotaFaults ++ g.ports.flatMap g.portFaults ++ g.policerFaults ++ g.collectiveFaults ++ g.memoryFaults ++ g.ledgerFaults

/-- Refresh windows (R41). -/
def refreshOk (s : State) : Bool :=
  let w := s.pourWin
  let per := fld w 12 0
  let len := fld w 28 16
  decide (1800 ≤ per) && decide (per ≤ 7020) && s.pourClks % per == 0 && decide (90 ≤ len) && decide ((per + 31) / 32 ≤ len) &&
  decide (fld w 44 32 + len ≤ per)

/-- The narrowest width a pattern configures, where it enables a port. -/
def Img.narrowest (g : Img) : Option Nat := lowest (g.enabled.map g.st.portWidth)

def Img.slackShort (g : Img) : Option Nat :=
  match g.narrowest with
  | none => none
  | some w =>
    if fld g.st.pourWin 63 48 < replayBound g.st w then some w else none

/-- The first load check that fails: its code and unit (R100). -/
def loadFault (ws : List Word) (s : State) : Option (Nat × Nat) :=
  match sectionsOf ws with
  | .error o => some (0x23, o)
  | .ok xs =>
    let g := Img.of xs s
    match g.absentStation, g.absentStack, lowest (g.rangeFaults ws) with
    | some a, _, _ => some (0x21, a)
    | none, some k, _ => some (0x22, k)
    | none, none, some o => some (0x23, o)
    | none, none, none =>
      if fld (g.st.cfgw 0x500) 18 0 < 399 || 399999 < fld (g.st.cfgw 0x500) 18 0 then some (0x32, 0)
      else if !refreshOk g.st then some (0x33, 0)
      else g.slackShort.map fun w => (0x34, w)

end Sys2Proof.Machine
end

