-- ==== Sys2Proof/Machine/MemWindows.lean ====
section
/-!
DEFINITION. Windows of the stacked memory: refresh with the patrol scrub and the re-reads (R41 to R43, R348, R361, R362), the pool's windows
(R178, R179).
-/

namespace Sys2Proof.Machine

/-! ### REFRESH_WINDOW (R43, R348, R361, R362) -/

/-- SCRUB_CFG.chunks. -/
def scrubChunks (s : State) : Nat := fld (s.cfgw (tbKey 12 0x1200)) 2 0

/-- A line read by the scrub or re-read from the lost list: a corrected one is to be written back (R360). -/
def scrubLine (addr : Nat) (s : State) : State :=
  match readLine addr 3 false s with
  | (some (bs, true), s) => s.setMem fun m => { m with writeBack := m.writeBack.filter (·.1 != addr) ++ [(addr, bs)] }
  | (_, s) => s

/-- Byte address of chunk q of a pseudo-channel. -/
def channelAddr (k ch q : Nat) : Nat := k * stackSize + (q * 32 + ch) * 128

/-- A bank that the next n refresh commands of a pseudo-channel go to (R348). -/
def bankDue (s : State) (k ch n bank : Nat) : Bool := decide ((bank + 64 - tget 0 (s.stack k).bank ch) % 64 < n)

/-- The next chunk at or after a position that the scrub reads in a window of n refreshes: detection-class regions and the banks that the
window refreshes are passed over (R362). -/
def nextScrub (s : State) (k ch n : Nat) : Nat → Nat → Option Nat
  | 0, _ => none
  | fuel + 1, q =>
    let addr := channelAddr k ch (q % channelChunks)
    match (regionOf s addr 1).filter (rgDetect s) with
    | some r => nextScrub s k ch n fuel (q + (rgBase s r + rgBytes s r - addr + 4095) / 4096)
    | none => if bankDue s k ch n (memBank addr) then nextScrub s k ch n fuel (q / 8 * 8 + 8) else some q

/-- The first slot that starts at or after a clk. -/
def slotFrom (s : State) (c : Nat) : Nat := if slotStart s c = c then c else slotEnd s c + 1

/-- The first slot of a window at or after a clk in which an access keeps the row rule (R347); `last` is the window's end. -/
def windowSlot (s : State) (addr c last : Nat) : Option Nat :=
  ((List.range ((last - c) / 6 + 1)).map fun i => slotFrom s c + 6 * i).find? fun st => decide (st + 6 ≤ last) && rowFree s addr st false

/-- Lines of the scrub and re-reads of one pseudo-channel: each chunk takes two slots (R362); the result is the first clk that is free. -/
def readChunk (ls : List Nat) (c last : Nat) (s : State) : Option Nat × State :=
  match ls with
  | [] => (some c, s)
  | l :: _ =>
    match windowSlot s l c last with
    | none => (none, s)
    | some st => (some (st + 12), each ls scrubLine (noteAccess (l / 128 * 128) st false s))

/-- PENDING lines of a pseudo-channel by chunk, those of the oldest first (R361). -/
def pendingChunks (s : State) (k ch : Nat) : List (List Nat) :=
  let ls := (s.mem.lost.filter fun e => !e.confirmed && stackOf e.line == k && channelOf e.line == ch).map (·.line)
  (ls.map (· / 128)).eraseDups.map fun c => ls.filter (· / 128 == c)

/-- The scrub reads up to m chunks from a clk on, in ascending address order; it wraps at the end of the stack (R362). -/
def scrubRun (k ch n last : Nat) : Nat → Nat → State → State
  | 0, _, s => s
  | m + 1, c, s =>
    match nextScrub s k ch n (65 * ((regions s).length + 1)) (tget 0 (s.stack k).scrub ch) with
    | none => s
    | some q =>
      let addr := channelAddr k ch (q % channelChunks)
      match readChunk [addr, addr + 64] c last s with
      | (some c, s) => scrubRun k ch n last m c (s.setStack k fun x => { x with scrub := tset x.scrub ch (q + 1) })
      | (none, s) => s

/-- The re-reads of a window: they count against its allowance (R362). -/
def rereads (last : Nat) : List (List Nat) → Nat → State → Nat × State
  | [], c, s => (c, s)
  | ls :: rest, c, s =>
    match readChunk ls c last s with
    | (some c, s) => rereads last rest c s
    | (none, s) => (c, s)

/-- One pseudo-channel's part of a window with n refreshes: the re-reads, then the scrub with what the allowance leaves. -/
def scrubChannel (k n last ch : Nat) (s : State) : State :=
  let re := (pendingChunks s k ch).take (scrubChunks s)
  let (c, s) := rereads last re s.clk s
  scrubRun k ch n last (scrubChunks s - re.length) c s

/-- Whole passes that the slowest pseudo-channel has made. -/
def scrubPasses (s : State) (k : Nat) : Nat :=
  ((List.range 32).map fun ch => tget 0 (s.stack k).scrub ch / channelChunks).foldl min (2 ^ 64)

/-- A window in RUN: its reads, then n refresh commands to each pseudo-channel, with `more` to be taken from the schedule. -/
def refreshWindow (k n more : Nat) (s : State) : State :=
  let before := scrubPasses s k
  let last := s.clk + fld s.pourWin 28 16
  let s := each (List.range 32) (scrubChannel k n last) s
  let s := stackCtr k 4 (scrubPasses s k - before) 16 s
  each (List.range 32) (fun ch s => refreshBanks k ch n (s.setStack k fun x => { x with extra := tmod 0 x.extra ch (· + more) })) s

/-- The windows cover only the normal refresh rate (R43). -/
def shortWindow (s : State) : Bool := decide (fld s.pourWin 28 16 < (fld s.pourWin 12 0 + 15) / 16)

/-- A refresh window starts in this clk (R41). -/
def refreshStart (s : State) : Bool :=
  let p := fld s.pourWin 12 0
  let off := fld s.pourWin 44 32
  decide (off ≤ s.pourOff) && decide (s.pourOff < s.pourClks) && (s.pourOff - off) % p == 0

/-- REFRESH_WINDOW: in RUN only at the start of a window (R41, R42), outside RUN whenever the stack asks (R348). `due` is the number
of refresh commands that each pseudo-channel of the stack is due at the normal rate (log entry 29); a stack above 85 °C is due twice as many,
and what short windows do not hold is taken from its next scheduled bank windows (R43). -/
def execRefreshWindow (stack : Fin 8) (due : Nat) (upsets : List Upset) (s : State) : Out :=
  let k := stack.val
  .next (if !s.pwr.mainOn || !(s.stack k).ready then s
    else
      let s := addUpsets upsets s
      let hot := stackHot s k
      if !s.running then
        each (List.range 32) (fun ch => refreshBanks k ch (if hot then 2 * due else due)) (s.setStack k fun x => { x with extra := [] })
      else if !refreshStart s then s
      else if hot && shortWindow s then refreshWindow k due due s
      else refreshWindow k (if hot then 2 * due else due) 0 s)

/-! ### POOL_WINDOW (R178, R179) -/

/-- POOL_CFG. -/
def poolCfg (s : State) : Word := s.cfgw (tbKey 4 0x400220)
def ringSize : Nat := 49152

/-- A pointer word: the block and its complement. -/
def pointerBytes (b : Nat) : List Byte := leBytes 4 (b % 65536 + (65535 - b % 65536) * 65536)

/-- A pool fault (R179). -/
def poolFault (unit : Nat) (s : State) : State := quenchDue 0x41 unit s

/-- A block is free: in the free store, not set aside (R177), in the cache or in a queue. -/
def blockFree (s : State) (b : Nat) : Bool :=
  decide (fld (poolCfg s) 15 0 ≤ b) && !s.fab.cache.contains b && !(s.fab.blocks.any fun e => e.2.contains b)

/-- Pool windows are scheduled accesses of stack 0, 256 bytes a clk (R178, R347): line `j` of the window is noted in its slot, ahead of the
instructions of that slot (DESIGN CHOICE, log entry 26). -/
def notePool (addr j : Nat) (s : State) : State := noteAccess addr (s.clk + j / 4) true s

/-- The ring positions of up to n pointers in one line of HBM from a position on. -/
def lineRun (n pos : Nat) : Nat := min n (min (16 - pos % 16) (ringSize - pos))

/-- Pointers go from the cache to the ring line by line, the last first. -/
def pointersOut : Nat → Nat → Nat → State → State
  | 0, _, _, s => s
  | fuel + 1, j, n, s =>
    if n = 0 then s
    else
      let pos := (s.fab.ringHead + s.fab.ringCount) % ringSize
      let take := lineRun n pos
      let s := notePool (4 * pos / 128 * 128) j s
      match writeSpan (4 * pos) ((s.fab.cache.reverse.take take).flatMap pointerBytes) 3 s with
      | (true, s) =>
        pointersOut fuel (j + 1) (n - take)
          (s.setFab fun f => { f with cache := f.cache.take (f.cache.length - take), ringCount := f.ringCount + take })
      | (false, s) => poolFault 0xFFFFFFFF s

/-- One pointer comes from the ring to the cache, where it passes its checks. -/
def pointerIn (d : List Byte) (s : State) : State :=
  let w := leNat d
  let b := w % 65536
  let s := s.setFab fun f => { f with ringHead := (f.ringHead + 1) % ringSize, ringCount := f.ringCount - 1 }
  if b + w / 65536 ≠ 65535 || ringSize ≤ b || !blockFree s b then poolFault b s
  else s.setFab fun f => { f with cache := f.cache ++ [b] }

/-- Pointers come line by line; each line is read once. A line that fails loses its pointers. -/
def pointersIn : Nat → Nat → Nat → State → State
  | 0, _, _, s => s
  | fuel + 1, j, n, s =>
    if n = 0 || s.fab.ringCount = 0 then s
    else
      let pos := s.fab.ringHead
      let take := lineRun (min n s.fab.ringCount) pos
      match readLine (4 * pos / 64 * 64) 3 true (notePool (4 * pos / 128 * 128) j s) with
      | (none, s) => pointersIn fuel (j + 1) (n - take) (poolFault 0xFFFFFFFF (s.setFab fun f =>
          { f with ringHead := (pos + take) % ringSize, ringCount := f.ringCount - take }))
      | (some d, s) =>
        pointersIn fuel (j + 1) (n - take) (each ((List.range take).map fun i => (d.1.drop (4 * (pos % 16 + i))).take 4) pointerIn s)

/-- The pool manager brings the cache to 2,048 pointers, 2,048 moved at most. -/
def poolWindow (s : State) : State :=
  let n := s.fab.cache.length
  if 2048 < n then pointersOut 2048 0 (min (n - 2048) 2048) s else pointersIn 2048 0 (2048 - n) s

/-- A pool window starts in this clk (R178). -/
def poolStart (s : State) : Bool :=
  let off := fld (poolCfg s) 31 16
  decide (off ≤ s.pourOff) && decide (s.pourOff < s.pourClks) && (s.pourOff - off) % fld (poolCfg s) 63 48 == 0

/-- POOL_WINDOW. -/
def execPoolWindow (upsets : List Upset) (s : State) : Out :=
  .next (if s.running && (s.stack 0).ready && poolStart s then poolWindow (addUpsets upsets s) else s)

end Sys2Proof.Machine
end

