-- ==== Sys2Proof/Machine/Startup.lean ====
section
/-!
DEFINITION. The phases of start-up from POWER to EPOCH (R87 to R103): rails, self-test, image, load, memory, links, time.
-/

namespace Sys2Proof.Machine

/-- What a step of start-up does in its own phase; another phase is not affected by it (log entry 1). -/
def inPhase (p : Phase) (f : State → State) (s : State) : Out := .next (if s.boot.phase = p then f s else s)

/-! ### POWER and SELFTEST (R94, R95, R112) -/

/-- RAILS_GOOD. -/
def execRailsGood (s : State) : Out := inPhase .power (enterPhase .selftest) s

/-- RAIL_FAIL. -/
def execRailFail (rail : BitVec 32) (s : State) : Out := inPhase .power (failExit 0x08 rail.toNat) s

/-- The slot preferred for this start (R98, R422): 1 is B. -/
def preferredSlot (s : State) : Bool :=
  if 2 ≤ s.fuse.lock then s.fuse.lock == 3
  else match s.boot.preferOnce with
    | some b => b
    | none => s.flash.bootRecord.getD false

/-- Every on-die memory is zero (R95, step 4). -/
def zeroMemories (s : State) : State :=
  { s with ledger := .reset, ports := [], fab := .reset, policers := [], stations := [], crucibles := [], members := [], riddles := [],
           ladles := [], moulds := [], sorters := [], layers := [], cfg := [] }

/-- The self-test settles a change that the standby domain's stop interrupted (R112). -/
def settleChange (blown : Bool) (s : State) : State := if s.fuse.busy then s else closeChange blown s

/-- IMAGE begins with the preferred slot. -/
def beginImage (s : State) : State :=
  (enterPhase .image s).setBoot fun b => { b with trying := some (preferredSlot s), triedOne := false }

/-- The self-test ends. -/
def selftest (fuseBad sramBad : Option (BitVec 32)) (blown : Bool) (s : State) : State :=
  match fuseBad with
  | some w => failExit 0x0A w.toNat s
  | none =>
    let s := settleChange blown s
    match sramBad with
    | some u => failExit 0x09 u.toNat s
    | none => beginImage (zeroMemories s)

/-- SELFTEST_DONE. -/
def execSelftestDone (fuseBad sramBad : Option (BitVec 32)) (blown : Bool) (s : State) : Out :=
  inPhase .selftest (selftest fuseBad sramBad blown) s

/-! ### IMAGE (R98, R99) -/

/-- The code field of a slot. -/
def setSlotCode (slot : Bool) (code : Nat) (s : State) : State :=
  s.setBoot fun b => if slot then { b with slotBCode := code } else { b with slotACode := code }

/-- Measurements 2 and 3 follow the running image (R436, R451). -/
def measureImage (slot : Bool) (s : State) : State :=
  let h := imageHeader s slot
  let m := h.take 0xC0 ++ (h.drop 0x20).take 32
  s.setHost fun x => { x with meas23 := m, measGen := if x.meas23 = m then x.measGen else x.measGen + 1 }

/-- A slot passes: its image goes to LOAD; it is the fallback when the preferred slot of this start has failed before it (R99). -/
def takeImage (slot : Bool) (s : State) : State :=
  measureImage slot (enterPhase .load (s.setBoot fun b => { b with slot := slot, fallback := b.triedOne, trying := none }))

/-- One slot has been verified. -/
def verified (readOk slot : Bool) (s : State) : State :=
  let code := verifySlot readOk slot s
  let s := setSlotCode slot code s
  if code = 0 then takeImage slot s
  else if 2 ≤ s.fuse.lock || s.boot.triedOne then failExit 0x16 (if slot then 1 else 0) s
  else s.setBoot fun b => { b with trying := some (!slot), triedOne := true }

/-- IMAGE_VERIFIED: the slot under verification has been read, without error or not. -/
def execImageVerified (readOk : Bool) (s : State) : Out :=
  inPhase .image (fun s => match s.boot.trying with | some slot => verified readOk slot s | none => s) s

/-! ### LOAD (R100, R181, R183, R423) -/

/-- Quota limits that the module computes at load. -/
def computedLimits (g : Img) : List (Nat × Word) :=
  g.ports.map (fun p => (ptKey p 0x100, BitVec.ofNat 64 (portLimit g.st p))) ++
  (List.range 16).map (fun f => (tbKey 4 (0x400000 + 0x20 * f), BitVec.ofNat 64 (g.flaskLimit f))) ++
  [(tbKey 4 0x400200, BitVec.ofNat 64 g.poolLimit)]

/-- Words that read zero and ignore writes: policers of classes 2 and 3 (R200). -/
def ignoredKey (k : Nat) : Bool :=
  decide (tbKey 7 0 ≤ k) && decide (k < tbKey 7 0x1000) && (k % 256 == 64 || k % 256 == 96)

/-- The word an image word becomes: a station with a STATION section is named (R236). -/
def placedWord (g : Img) (w : ImageWord) : Word :=
  if g.stations.any fun a => stKey a 8 == w.key then w.word ||| 1 else w.word

/-- The configuration words that a verified image puts in force, zeros included. -/
def imageConfig (g : Img) : Tab Word :=
  (computedLimits g).foldl (fun m e => tset m e.1 e.2)
    ((g.ws.filter fun w => !ignoredKey w.key).foldl (fun m w => tset m w.key (placedWord g w)) [])

/-- Keep the entries of a list that are not zero, by index. -/
def denseTab (ws : List Word) : Tab Word := ((List.range ws.length).zip ws).filter fun e => e.2 != 0

/-- Lines of a CONST section. -/
def constLines (ws : List Word) : Tab LineData :=
  ((List.range (ws.length / 16)).map fun k =>
    (k, ((List.range 16).zip ((ws.drop (16 * k)).take 16)).foldl (fun (d : LineData) e => d ||| BitVec.ofNat 1024 (e.2.toNat * 2 ^ (64 * e.1))) 0)).filter
      fun e => e.2 != 0

/-- A station's instruction memory and constant region. -/
def placeStation (g : Img) (a : Nat) (s : State) : State :=
  s.setStation a fun x =>
    { x with imem := denseTab (imemOf g.secs a),
             store := match sectionAt g.secs 0x0102 a with | some c => constLines c.words | none => x.store }

/-- A port's gate lists. -/
def placePort (p : Nat) (s : State) : State :=
  let c := s.cfgw (ptKey p 0x218)
  s.setPort p fun x =>
    { x with activeN := fld c 5 0, pendingN := fld c 13 8,
             gateActive := (gateWords s p 0x800).filter (fun e => e.2 != 0), gatePending := (gateWords s p 0xA00).filter fun e => e.2 != 0 }

/-- Measurement 4: the IMEM sections of the bay controllers, in bay order (R436). -/
def measurePrograms (g : Img) (s : State) : State :=
  let m := (List.range 16).flatMap fun b => (imemOf g.secs (256 * b)).flatMap fun w => leBytes 8 w.toNat
  s.setHost fun x => { x with meas4 := m, measGen := if x.meas4 = m then x.measGen else x.measGen + 1 }

/-- The image takes its places. -/
def placeImage (g : Img) (s : State) : State :=
  let cfg := imageConfig g
  let s := { s with cfg := cfg, boot := { s.boot with shadow := cfg, imageOk := true } }
  let s := s.setJob fun j => { j with heat := fld (s.cfgw 0x508) 47 0 }
  let s := s.setLedger fun l => { l with spareActive := s.cfgw 0x2_0100, sparePending := s.cfgw 0x2_0108 }
  let s := each g.stations (placeStation g) s
  measurePrograms g (each g.ports placePort s)

/-- The body under load, as words. -/
def loadWords (s : State) : List Word :=
  bodyWords (512 * bodyUnits (imageHeader s s.boot.slot)) (imageBody s s.boot.slot)

/-- The load checks: the first that fails is a failure exit, and no part of the image takes effect; else the image is placed. -/
def load (s : State) : State :=
  let ws := loadWords s
  match loadFault ws s, sectionsOf ws with
  | some (c, u), _ => failExit c u s
  | none, .ok xs => enterPhase .hbm (placeImage (Img.of xs s) s)
  | none, .error o => failExit 0x23 o s

/-- LOAD_CHECKS. -/
def execLoadChecks (s : State) : Out := inPhase .load load s

/-! ### HBM (R101, R178, R354) -/

/-- Cells of the free-store ring that holds blocks from `b` on, `n` of them, from position 0 (log entry 9). -/
def ringCells (b n : Nat) : List Host.Cell :=
  (((List.range n).flatMap fun i => ((List.range 4).zip (pointerBytes (b + i))).map fun e => (4 * i + e.1, e.2))).filter fun c => c.2 != 0

/-- The free store after training: blocks above the set-aside ones, the first 2,048 in the cache, the rest in the ring (log entry 9). -/
def fillFreeStore (s : State) : State :=
  let first := fld (poolCfg s) 15 0
  let cached := min 2048 (49152 - first)
  let rest := 49152 - first - cached
  let s := s.setFab fun f =>
    { f with cache := (List.range cached).map (first + ·), ringHead := 0, ringCount := rest }
  s.setMem fun m => { m with cells := ringCells (first + cached) rest }

/-- Every line of every present stack is zero; the stacks are ready. -/
def clearStacks (repaired : List Nat) (s : State) : State :=
  let s := s.setMem fun m => { m with cells := [], errors := [], lost := [] }
  each ((List.range 8).filter s.stackPresent) (fun k s => s.setStack k fun x => { x with ready := true, repaired := min (repaired.getD k 0) 255 }) s

/-- HBM training ends: a stack that failed is a failure exit, else LINK begins, with the link-key set that the fuses then hold, and every
enabled port trains (R101, R102, R109). -/
def hbmReady (repaired : List Nat) (failed : Option (Fin 8)) (s : State) : State :=
  match failed.filter fun k => s.stackPresent k.val with
  | some k => failExit 0x18 k.val s
  | none =>
    let s := (enterPhase .link (fillFreeStore (clearStacks repaired s))).setBoot fun b => { b with linkKeyset := s.fuse.keyset }
    each ((List.range 256).filter s.portEnabled) startTraining s

/-- HBM_READY. -/
def execHbmReady (repaired : List Nat) (failed : Option (Fin 8)) (s : State) : Out := inPhase .hbm (hbmReady repaired failed) s

/-! ### LINK and TIME (R102, R103) -/

/-- Required ports that are not UP, ascending; none is required in replay mode (R402). -/
def requiredDown (s : State) : List Nat :=
  (List.range 256).filter fun p => !s.replayMode && s.portEnabled p && bit (s.portCfg p) 1 && (s.port p).state != .up

/-- LINK_PORTS_UP: once every required port is up, TIME begins. -/
def execLinkPortsUp (s : State) : Out :=
  inPhase .link (fun s => if (requiredDown s).isEmpty then enterPhase .time s else s) s

/-- LINK_TIMEOUT: the lowest required port still down. -/
def execLinkTimeout (s : State) : Out :=
  inPhase .link (fun s => match requiredDown s with | p :: _ => failExit 0x1A p s | [] => s) s

/-- TIME_ACQUIRE: not LOCKED within time_acq_timeout. -/
def execTimeAcquire (s : State) : Out :=
  inPhase .time (fun s => if s.time.state = .locked then s else failExit 0x38 0 s) s

end Sys2Proof.Machine
end

