-- ==== Sys2Proof/Machine/RegMap.lean ====
section
/-!
DEFINITION. The values registers read: the direct space of BAR0 and of the chain (R412, R413, R430, R440 to R453) and the indirect spaces
(R414, R415, R454 to R461).
-/

namespace Sys2Proof.Machine

/-! ### Block 0x0 (R441 to R445) -/

/-- GSTAT (R442). -/
def gstat (s : State) : Word :=
  put s.fuse.part.toNat 48 ||| put s.fuse.stepping.toNat 40 ||| put s.moduleId 20 ||| putb s.boot.imageOk 3 |||
    putb (s.boot.phase == .quenched) 2 ||| putb s.running 1 ||| putb s.alert 0

/-- FAULT_CAUSE (R444). -/
def faultCauseWord (s : State) : Word := put s.boot.faultCode 56 ||| put s.boot.faultUnit 0

/-- WMBX_STAT (R418). -/
def mbStat (s : State) : Word := putb s.host.mbValid 63 ||| putb s.host.mbBusy 62 ||| put s.host.mbCode 8 ||| put s.host.mbOp 0

/-- CHAIN_ADDR (R92). -/
def chainAddrWord (s : State) : Word := putb s.chain.repeating 9 ||| putb s.fuse.terminal 8 ||| put s.chain.addr.toNat 0

/-- PWR_STAT (R68). -/
def pwrStat (s : State) : Word :=
  put s.pwr.lastDown 56 ||| put s.pwr.dips 32 ||| put s.pwr.power10w 16 ||| put s.pwr.vinQ 8 ||| putb s.pwr.vinHigh 2 |||
    putb s.pwr.vinLow 1 ||| putb s.pwr.valid 0

/-- TEMP_STAT (R86). -/
def tempStat (s : State) : Word :=
  put (groupMax s [1]) 56 ||| put (groupMax s [2]) 48 ||| put (groupMax s [3]) 40 ||| put (groupMax s [4, 5]) 32 |||
    put (groupMax s [6]) 24 ||| put (groupMax s [7]) 16 ||| put s.pwr.warnMask.toNat 8 ||| putb s.pwr.trip 7 ||| put s.pwr.tripGroup 0

/-- PAR_REC (R426). -/
def parRec (s : State) : Word :=
  putb s.par.valid 63 ||| putb (decide (2 ^ 32 ≤ s.par.addr)) 62 ||| put s.par.faults 48 ||| put (s.par.addr % 2 ^ 32) 0

/-- BOOT_STAT (R89). -/
def bootStat (s : State) : Word :=
  put s.boot.phase.code 60 ||| put s.boot.slotACode 48 ||| put s.boot.slotBCode 40 ||| putb s.boot.fallback 39 |||
    putb s.boot.slot 38 ||| put s.elapsedMs 0

/-- JOB_STAT (R104). -/
def jobStat (s : State) : Word := put s.job.jobCode 8 ||| put s.job.jobState.code 0

/-- SLOT_SW_STAT (R421). -/
def slotSwStat (s : State) : Word := put s.job.slotCode 8 ||| putb s.job.slotArm 3 ||| put s.job.slotState.code 0

/-- Block 0x0 by register offset; the chain (`ch`) has its own indirect pair and snapshot pair and no mailbox (R430). -/
def globalWord (ch : Bool) (o : Nat) (s : State) : Word :=
  match o with
  | 0x000 => gstat s
  | 0x010 => faultCauseWord s
  | 0x100 => if ch then s.chain.idxAddr else s.host.idxAddr
  | 0x200 => if ch then s.chain.snapCtl else s.host.snapCtl
  | 0x208 => if ch then s.chain.snapStat else s.host.snapStat
  | 0x308 => if ch then 0 else mbStat s
  | 0x310 => if ch then 0 else tget 0 s.host.mbData 0
  | 0x318 => if ch then 0 else tget 0 s.host.mbData 1
  | 0x320 => if ch then 0 else tget 0 s.host.mbData 2
  | 0x328 => if ch then 0 else tget 0 s.host.mbData 3
  | 0x400 => chainAddrWord s
  | 0x500 => s.cfgw 0x500
  | 0x508 => put s.job.heat 0
  | 0x510 => put s.job.pour 0
  | 0x600 => pwrStat s
  | 0x608 => tempStat s
  | 0x610 => parRec s
  | 0x700 => bootStat s
  | 0x708 => put s.job.epochSec.toNat 0
  | 0x710 => put s.job.epochNs.toNat 0
  | 0x720 => jobStat s
  | 0x728 => put s.job.slotSec.toNat 0
  | 0x730 => put s.job.slotNs.toNat 0
  | 0x740 => slotSwStat s
  | 0x748 => s.cfgw 0x748
  | _ => 0

/-! ### Block 0x1 (R446 to R448) -/

/-- TIME_STAT (R30). -/
def timeStat (s : State) : Word :=
  put (if s.timed then unsigned 32 s.time.offsetPs else 0) 32 ||| put s.holdoverMs 16 ||| put s.time.source 4 |||
    putb s.time.holdOk 3 ||| put s.time.state.code 0

/-- GATE_STAT (R49). -/
def gateStat (s : State) : Word := put s.job.swaps.toNat 32 ||| put s.job.gateCode 8 ||| put s.job.gateState.code 0

/-- Block 0x1 by register offset. -/
def timeWord (o : Nat) (s : State) : Word :=
  match o with
  | 0x000 => timeStat s
  | 0x008 => s.timeCfg
  | 0x010 => s.startCfg
  | 0x020 => s.pourWin
  | 0x100 => put s.job.swapSec.toNat 0
  | 0x108 => put s.job.swapNs.toNat 0
  | 0x118 => gateStat s
  | _ => 0

/-! ### Block 0x2 (R398, R406, R449) -/

/-- LEDGER_STAT. -/
def ledgerStat (s : State) : Word :=
  let flying := ((validEntries s).filter fun e => (s.entry e).state == .opened || (s.entry e).state == .due).length
  put flying 51 ||| put s.ledger.stray 32 ||| put s.ledger.committed 16 ||| put s.ledger.retracted 0

/-- HEAT_STAT. -/
def heatStat (s : State) : Word := putb s.ledger.heatRetracted 63 ||| put s.ledger.runs 58 ||| put s.ledger.lastCommit 0

/-- RETRACT_REC; the record is cause, entry, pour, detail. -/
def retractRec (s : State) : Word :=
  putb s.ledger.recValid 63 ||| put s.ledger.recBody.1 48 ||| put s.ledger.recBody.2.1 32 ||| put s.ledger.recBody.2.2.1 0

/-- HEALTH_TERMS: term t at [8t−1:8t−8]. -/
def healthTerms (s : State) : Word :=
  ((List.range 7).foldl (fun w i => w ||| put (s.pwr.terms.getD i 0) (8 * i)) 0)

/-- CAP_STAT. -/
def capStat (s : State) : Word :=
  putb s.cap.running 63 ||| putb s.cap.full 62 ||| putb s.cap.lost 61 ||| put s.cap.lostCount 32 ||| put s.cap.written 0

/-- REPLAY_STAT. -/
def replayStat (s : State) : Word :=
  putb s.cap.replayActive 63 ||| putb s.cap.ended 62 ||| putb s.cap.diverged 61 ||| put s.cap.injected 0

/-- Block 0x2 by register offset. -/
def ledgerBlock (o : Nat) (s : State) : Word :=
  match o with
  | 0x000 => s.ledgerCfg
  | 0x008 => ledgerStat s
  | 0x010 => heatStat s
  | 0x018 => retractRec s
  | 0x020 => put s.ledger.recBody.2.2.2 0
  | 0x030 => put s.ledger.records.toNat 32 ||| put s.ledger.recNext 0
  | 0x100 => s.ledger.spareActive
  | 0x108 => s.ledger.sparePending
  | 0x200 => put s.pwr.worst 60 ||| putb s.pwr.healthValid 10 ||| put s.pwr.score 0
  | 0x208 => healthTerms s
  | 0x300 => s.cap.cfg
  | 0x308 => put s.cap.slots.toNat 0
  | 0x310 => capStat s
  | 0x318 => tget 0 s.cap.ports 0
  | 0x320 => tget 0 s.cap.ports 1
  | 0x328 => tget 0 s.cap.ports 2
  | 0x330 => tget 0 s.cap.ports 3
  | 0x340 => replayStat s
  | _ => 0

/-! ### Blocks 0x3 to 0x5 (R438, R450 to R452) -/

/-- A holding register; in the clk of a go the earlier snapshot still reads (R464). -/
def holdWord (ch : Bool) (n : Nat) (s : State) : Word :=
  if ch then tget 0 (if s.chain.snapClk = some s.clk then s.chain.holdPrev else s.chain.hold) n
  else tget 0 (if s.host.snapClk = some s.clk then s.host.holdPrev else s.host.hold) n

/-- SEC_STAT (R438). -/
def secStat (s : State) : Word :=
  put s.fuse.svc 56 ||| put s.fuse.lock 54 ||| putb s.fuse.debugOff 53 ||| put s.fuse.keyset 51 ||| putb s.fuse.terminal 50 |||
    put (fld s.fuse.ownerDigest 255 224) 0

/-- INJ_CNT (R452). -/
def injCnt (s : State) : Word :=
  put s.inj.cntHbm 48 ||| put s.inj.cntPar 32 ||| put s.inj.cntSched 16 ||| put s.inj.cntTime 0

/-- Block 0x5 by register offset. -/
def injectWord (o : Nat) (s : State) : Word :=
  match o with
  | 0x00 => s.inj.hbm
  | 0x08 => s.inj.par
  | 0x10 => s.inj.sched
  | 0x18 => s.inj.time
  | 0x20 => s.inj.win
  | 0x28 => s.inj.heat
  | 0x30 => injCnt s
  | _ => 0

/-- A register of the direct space, by block and offset (R440); IDX_DATA is not one of them. -/
def directWord (ch : Bool) (key : Nat) (s : State) : Word :=
  let o := key % 65536
  match key / 65536 with
  | 0 => globalWord ch o s
  | 1 => timeWord o s
  | 2 => ledgerBlock o s
  | 3 => holdWord ch (o / 8) s
  | 4 => if ch then 0 else if o = 0 then secStat s else if o = 8 then put s.host.measGen.toNat 0 else 0
  | 5 => if ch then 0 else injectWord o s
  | _ => 0

/-- The register a BAR0 address or a chain offset selects (R413). -/
def directKey (addr : Nat) : Nat := addr / 65536 % 8 * 65536 + addr / 8 % 512 * 8

/-! ### Station windows (R233, R234, R258, R292, R306, R313, R341, R414, R455) -/

/-- A quota's QUOTA_USE: zero until an image gives the quota (R183, R465). -/
def quotaUse (s : State) (thr : Word) (use : Nat) : Word := put (if s.boot.imageOk then quotaState thr use else 0) 62 ||| put use 0

/-- The fuse identity word of an absent window (R8). -/
def fuseIdentity (s : State) (space unit : Nat) : Word :=
  put 0xFD5E 48 ||| put s.fuse.part.toNat 32 ||| put space 28 ||| put unit 16

/-- ST_STAT. -/
def stStat (s : State) (a : Nat) : Word :=
  let x := s.station a
  put x.violCount 48 ||| put x.pc 34 ||| put x.seq.code 0

/-- VIOL_REC. -/
def violRec (s : State) (a : Nat) : Word :=
  let x := s.station a
  putb x.violValid 63 ||| put x.violCode 48 ||| put x.violPlace 33 ||| put x.violPour 0

/-- CTR0 to CTR7: counter 4k + j in [16j+15:16j]. -/
def ctrWord (s : State) (a k : Nat) : Word :=
  let x := s.station a
  (List.range 4).foldl (fun w j => w ||| put (tget 0 x.ctr (4 * k + j)) (16 * j)) 0

/-- QSTAT of an end. -/
def qstat (s : State) (a e : Nat) : Word :=
  let x := s.station a
  put (tget 0 x.slackUsed e) 32 ||| put (tget 0 x.hwm e) 8 ||| put (depthAt s a e s.clk) 0

/-- Word i of the page window (R233). -/
def pageWord (s : State) (a i : Nat) : Word :=
  let x := s.station a
  let n := 512 * x.page.toNat + i
  if x.pageStore then (if x.page.toNat < 64 then storeWord s a n else 0) else if x.page.toNat < 32 then tget 0 x.imem n else 0

/-- HIST_BIN: bins 2n and 2n + 1 of output end j; a disabled end reads zero. -/
def histBinReg (s : State) (a j n : Nat) : Word :=
  let x := s.station a
  if bit (histCfg s a j) 0 then put (tget 0 x.histRead (64 * j + 2 * n + 1)) 32 ||| put (tget 0 x.histRead (64 * j + 2 * n)) 0 else 0

/-- An engine operation of these kinds is unfinished. -/
def unfinished (s : State) (a : Nat) (ks : List EngineKind) : Bool := !(openOps s a ks).isEmpty

/-- A side of the sort engine is held by an unfinished instruction: intake 1, network 2, output 4. -/
def sideHeld (s : State) (a side : Nat) : Bool := (openOps s a sortKinds).any fun o => (sidesOf o.word &&& side) != 0

/-- SO_SLOT of run slot k. -/
def soSlot (s : State) (a k : Nat) : Word :=
  let r := runSlot s a k
  slotCfg s a k ||| put r.recs.length 15 ||| put r.kt 12 ||| putb r.dir 11 ||| putb r.sorted 10

/-- MO_BANK of bank k. -/
def moBank (s : State) (a k : Nat) : Word :=
  let b := bankOf s a k
  put b.ordinal 48 ||| putb b.loaded 47 ||| putb b.ladle 46 ||| put b.alloc 43 ||| put b.fw 36 ||| put b.fa 32 |||
    put (if b.ladle then b.g0 else 0) 0

/-- The words 0x400 to 0x4F8 of a kind (R455), by word number. -/
def kindWord (s : State) (a n : Nat) : Word :=
  match kindOf a with
  | 2 =>
    let c := s.crucible a
    if n = 0 then put c.mismatches 48 ||| put c.absences 32 ||| put c.late 16 ||| put (((c.insts.filter fun e => !e.2.closed).map fun e => iRows s e.1).sum) 0
    else if n = 1 then c.last else 0
  | 3 =>
    let r := s.riddle a
    if n = 0 then put r.overflows 48 ||| put r.passed 0
    else if 16 ≤ n ∧ n < 32 then tget 0 (progNow s a) (n - 16) else 0
  | 4 =>
    let l := s.ladle a
    match n with
    | 0 => put l.dropped 48 ||| put l.outside 32 ||| put l.specials 16 ||| put l.collisions 0
    | 1 => l.mode
    | 2 => match l.map with | some m => put m.ordinal 48 ||| put m.g0 0 | none => 0
    | 3 => put (l.openList l.skimLayer).2.length 32 ||| put (l.openList l.skimLayer).1 0
    | _ => 0
  | 5 =>
    match n with
    | 0 => put (s.mould a).vectors 32 ||| putb (unfinished s a [.moDrain]) 2 ||| putb (unfinished s a [.moMac]) 1 |||
        putb (unfinished s a [.moWload]) 0
    | 1 => moBank s a 0
    | 2 => moBank s a 1
    | _ => 0
  | 6 =>
    let x := s.sorter a
    if n = 0 then put x.disorder 48 ||| put x.shortSegs 32 ||| putb (sideHeld s a 4) 2 ||| putb (sideHeld s a 2) 1 ||| putb (sideHeld s a 1) 0
    else if 2 ≤ n ∧ n < 18 then soSlot s a (n - 2) else 0
  | _ => 0

/-- A register of a present station, by decoded offset: 0x8000 and above is the page window. -/
def stationReg (s : State) (a o : Nat) : Word :=
  let x := s.station a
  match o with
  | 0x000 => stStat s a
  | 0x008 => stCfg s a
  | 0x010 => violRec s a
  | 0x018 => put x.violClk 0
  | 0x020 => put x.violHeat 0
  | 0x030 => x.flags
  | 0x0C0 => x.ncpl
  | 0x200 => putb x.pageStore 7 ||| put x.page.toNat 0
  | 0x210 => s.cfgw (stKey a 0x210)
  | 0x218 => s.cfgw (stKey a 0x218)
  | 0x220 => quotaUse s (s.cfgw (stKey a 0x218)) x.quotaUse
  | 0x340 => putb x.histValid 63 ||| put x.histPour 0
  | _ =>
    if 0x8000 ≤ o then pageWord s a ((o - 0x8000) / 8)
    else if 0x040 ≤ o ∧ o < 0x080 then ctrWord s a ((o - 0x40) / 8)
    else if 0x088 ≤ o ∧ o < 0x0C0 then s.cfgw (stKey a o)
    else if 0x100 ≤ o ∧ o < 0x180 then s.cfgw (stKey a o)
    else if 0x180 ≤ o ∧ o < 0x200 then qstat s a ((o - 0x180) / 8)
    else if 0x300 ≤ o ∧ o < 0x340 then s.cfgw (stKey a o)
    else if 0x400 ≤ o ∧ o < 0x500 then kindWord s a ((o - 0x400) / 8)
    else if 0x1000 ≤ o ∧ o < 0x1800 then histBinReg s a ((o - 0x1000) / 256) (o % 256 / 8)
    else 0

/-- Offset of a station window as decoded (R414). -/
def stationOff (o : Nat) : Nat := if 0x8000 ≤ o then 0x8000 + o % 4096 / 8 * 8 else o % 8192 / 8 * 8

/-! ### Port windows (R148, R149, R151, R175, R183, R194, R201, R456, R457) -/

/-- An odd port of an 8-lane bay: its window reads its reset values (R456). -/
def silentPort (s : State) (p : Nat) : Bool :=
  p % 2 == 1 && (List.range 16).any fun i => bit (s.portCfg (p / 16 * 16 + i)) 0 && bit (s.portCfg (p / 16 * 16 + i)) 2

/-- PORT_STAT (R149). -/
def portStat (s : State) (p : Nat) : Word :=
  let x := s.port p
  put x.measM 48 ||| put x.downReason 32 ||| put (if x.state = .disabled then s.fuse.keyset else x.keyset) 12 |||
    put (s.portWidth p) 8 ||| put x.state.code 0

/-- Reset values of a port's window: only the key set in the fuses is not zero. -/
def silentWord (s : State) (o : Nat) : Word := if o = 0 then put s.fuse.keyset 12 else 0

/-- A register of a port; the injection words read zero over the chain (R439). -/
def portReg (ch : Bool) (s : State) (p o : Nat) : Word :=
  let x := s.port p
  if silentPort s p then silentWord s o
  else match o with
    | 0x000 => portStat s p
    | 0x008 => s.portCfg p
    | 0x010 => setFld (s.cfgw (ptKey p 0x010)) 0 0 (if s.time.slave = some (BitVec.ofNat 8 p) then 1 else 0)
    | 0x100 => s.cfgw (ptKey p 0x100)
    | 0x108 => s.cfgw (ptKey p 0x108)
    | 0x110 => quotaUse s (s.cfgw (ptKey p 0x108)) (portUse s p)
    | 0x118 => s.cfgw (ptKey p 0x118)
    | 0x200 => s.cfgw (ptKey p 0x200)
    | 0x208 => s.cfgw (ptKey p 0x208)
    | 0x210 => s.cfgw (ptKey p 0x210)
    | 0x218 => put x.pendingN 8 ||| put x.activeN 0
    | 0x400 => if ch then 0 else tget 0 x.inj 0
    | 0x408 => if ch then 0 else tget 0 x.inj 1
    | 0x410 => if ch then 0 else tget 0 x.inj 2
    | 0x418 => if ch then 0 else tget 0 x.inj 3
    | 0x420 => if ch then 0 else put x.injCount 0
    | _ =>
      if 0x300 ≤ o ∧ o < 0x340 then tget 0 x.hwm ((o - 0x300) / 8)
      else if 0x800 ≤ o ∧ o < 0xA00 then tget 0 x.gateActive ((o - 0x800) / 8)
      else if 0xA00 ≤ o ∧ o < 0xC00 then tget 0 x.gatePending ((o - 0xA00) / 8)
      else 0

/-! ### Memory windows (R365) -/

/-- MEM_STAT. -/
def memStat (s : State) (k : Nat) : Word :=
  let r := s.stack k
  let lost := (s.mem.lost.filter fun l => stackOf l.line == k).length
  put r.repaired 56 ||| put (tget 0 s.pwr.sensors (24 + k)) 40 ||| putb (stackHot s k) 32 ||| put lost 8 ||| putb r.ready 0

/-- MEM_ERR0. -/
def memErr0 (s : State) (k : Nat) : Word := putb (s.stack k).errValid 63 ||| (s.stack k).err0

/-- A register of a present stack. -/
def stackReg (s : State) (k o : Nat) : Word :=
  let r := s.stack k
  match o with
  | 0x000 => memStat s k
  | 0x008 => memErr0 s k
  | 0x010 => r.err1
  | 0x018 => r.err2
  | _ => if 0x100 ≤ o ∧ o < 0x138 then put (tget 0 r.ctr ((o - 0x100) / 8)) 0 else 0

/-! ### Rings (R158, R187, R188, R458) -/

/-- STOP_STAT. -/
def stopStat (x : RingStop) : Word := putb (!x.waiting.isEmpty) 3 ||| put x.transit.length 0

/-- A word of space 3. -/
def ringReg (s : State) (idx : Nat) : Word :=
  let ring := idx / 2 ^ 25 % 8
  let dir := idx / 2 ^ 24 % 2
  if idx / 2 ^ 23 % 2 = 1 then (if idx / 2 ^ 14 % 2 ^ 9 = 0 then s.cfgw (calKey ring dir (idx / 8 % 2048)) else 0)
  else if idx / 2 ^ 9 % 2 ^ 10 ≠ 0 then 0
  else
    let x := s.stop (stopKey ring dir (idx / 2 ^ 19 % 16))
    let o := idx % 512 / 8 * 8
    if o = 0 then stopStat x else if 0x100 ≤ o ∧ o < 0x128 then put (tget 0 x.ctr ((o - 0x100) / 8)) 0 else 0

/-! ### Tables (R459 to R461) -/

/-- A flowlet entry (R188). -/
def flowletWord (s : State) (i : Nat) : Word :=
  match tget? s.fab.flowlets i with
  | some f => put f.last 32 ||| putb f.valid 7 ||| put f.ring 4 ||| put f.member 0
  | none => 0

/-- Table 4: quotas of flasks and pool, POOL_FREE, POOL_CFG (R178, R183). -/
def poolReg (s : State) (off : Nat) : Word :=
  let flask := (off - 0x400000) / 32
  match off with
  | 0x400200 => s.cfgw (tbKey 4 0x400200)
  | 0x400208 => s.cfgw (tbKey 4 0x400208)
  | 0x400210 => quotaUse s (s.cfgw (tbKey 4 0x400208)) s.fab.poolUse
  | 0x400218 => put s.fab.cache.length 32 ||| put (s.fab.cache.length + s.fab.ringCount) 0
  | 0x400220 => s.cfgw (tbKey 4 0x400220)
  | _ =>
    if 0x400000 ≤ off ∧ off < 0x400200 then
      match off % 32 with
      | 0x00 => s.cfgw (tbKey 4 off)
      | 0x08 => s.cfgw (tbKey 4 off)
      | 0x10 => quotaUse s (s.cfgw (tbKey 4 (off - 8))) (tget 0 s.fab.flaskUse flask)
      | _ => 0
    else 0

/-- Table 5: tap sessions (R460). -/
def tapReg (s : State) (off : Nat) : Word :=
  let k := off / 64
  if 4 ≤ k then 0
  else match off % 64 / 8 with
    | 3 => put (tget 0 s.fab.tapOffset k) 0
    | 6 => quotaUse s (tapWord s k 5) (tget 0 s.fab.tapUse k)
    | 7 => 0
    | i => tapWord s k i

/-- Table 7: policers (R200). -/
def policerReg (s : State) (off : Nat) : Word :=
  let k := off / 32
  let x := s.policer k
  if 128 ≤ k || k % 8 == 2 || k % 8 == 3 then 0
  else match off % 32 / 8 with
    | 0 => polCfg s k
    | 1 => put x.packets 0
    | 2 => put x.bytes 0
    | _ => put (x.tokens / 1024) 0

/-- Table 9: member entries with their run-time fields (R262). -/
def memberReg (s : State) (off : Nat) : Word :=
  let m := off / 8
  let w := memberWord s m
  if 16384 ≤ m then 0
  else setFld w 63 63 (if mLive s m then 1 else 0) ||| put (s.member m).absences 60 ||| put (s.member m).dropped 12

/-- Table 11: layer entries with their run-time words (R334). -/
def layerReg (s : State) (off : Nat) : Word :=
  let l := off / 64
  let x := s.layer l
  if 256 ≤ l then 0
  else match off % 64 / 8 with
    | 0 => layerWord s l 0
    | 1 => layerWord s l 1
    | 2 => put x.detected 32 ||| put x.lost 0
    | 3 => put x.madeUp 32 ||| putb (x.lost != 0) 1 ||| putb x.warnFlag 0
    | 4 => put (x.pfRows / 1024) 32 ||| put (x.sqRows / 1024) 0
    | _ => 0

/-- An entry of the lost list (R365). -/
def lostWord (s : State) (i : Nat) : Word :=
  match s.mem.lost[i]? with
  | some l => putb true 63 ||| putb l.confirmed 62 ||| putb l.detect 61 ||| put l.line 0
  | none => 0

/-- Chunks that a running shakeout has still to write (R363). -/
def shakeRemaining (s : State) : Nat := (s.mem.shakeLeft.map fun e => (e.2 - e.1) / 128).sum

/-- Table 12: regions, regulators, the scrub, the shakeout, the lost list (R353, R356, R362, R363, R365). -/
def regionReg (s : State) (off : Nat) : Word :=
  let reg := (off - 0x1000) / 16
  if off < 0x1000 then s.cfgw (tbKey 12 off)
  else if off < 0x1110 then (if off % 16 = 0 then s.cfgw (tbKey 12 off) else put (tget 0 s.mem.used reg) 0)
  else if off = 0x1200 then s.cfgw (tbKey 12 0x1200)
  else if off = 0x1300 then putb s.mem.shakeBusy 63 ||| put s.mem.shakeFlask 56 ||| put (shakeRemaining s) 0
  else if 0x1400 ≤ off ∧ off < 0x1600 then lostWord s ((off - 0x1400) / 8)
  else 0

/-- Table 13: ledger entries with their run-time words, port records (R367). -/
def entryReg (s : State) (off : Nat) : Word :=
  let e := off / 128
  let x := s.entry e
  if 0x80000 ≤ off then s.cfgw (tbKey 13 off)
  else match off % 128 / 8 with
    | 2 => put x.state.code 61 ||| put x.cause 53 ||| put x.upSeen 44 ||| put x.decPour 0
    | 3 => put x.detail 32
    | _ => s.cfgw (tbKey 13 off)

/-- Table 15: sensors (R461). -/
def sensorReg (s : State) (n : Nat) : Word :=
  if 76 ≤ n then 0
  else match tget? s.pwr.sensors n with
    | some t => put (sensorGroup n) 60 ||| putb true 8 ||| put t 0
    | none => put (sensorGroup n) 60

/-- A word of space 4 by table and byte offset. -/
def tableReg (s : State) (t off : Nat) : Word :=
  match t with
  | 3 => if off < 8 * 65536 then flowletWord s (off / 8) else 0
  | 4 => poolReg s off
  | 5 => tapReg s off
  | 7 => policerReg s off
  | 9 => memberReg s off
  | 11 => layerReg s off
  | 12 => regionReg s off
  | 13 => entryReg s off
  | 15 => sensorReg s (off / 8)
  | _ => s.cfgw (tbKey t off)

/-! ### Indirect spaces (R414, R415, R454) -/

/-- An indirect address whose window is absent: its space and unit (R7). -/
def absentWindow (s : State) (addr : Nat) : Option (Nat × Nat) :=
  match addr / 2 ^ 28 with
  | 0 => let a := addr / 2 ^ 16 % 4096; if stationPresent s a then none else some (0, a)
  | 2 => let k := addr / 2 ^ 25 % 8; if s.stackPresent k then none else some (2, k)
  | _ => none

/-- The key of the word that an indirect address of 32 bits reaches (R414, R454): aliases have one key. -/
def indirectKey (addr : Nat) : Nat :=
  2 ^ 32 + (match addr / 2 ^ 28 with
    | 0 => addr / 2 ^ 16 * 2 ^ 16 + stationOff (addr % 2 ^ 16)
    | 2 => addr / 2 ^ 25 * 2 ^ 25 + addr % 2 ^ 16 / 8 * 8
    | _ => addr / 8 * 8)

/-- The word at an indirect key. -/
def indirectWord (ch : Bool) (key : Nat) (s : State) : Word :=
  let addr := key - 2 ^ 32
  let idx := addr % 2 ^ 28
  match absentWindow s addr with
  | some (space, unit) => fuseIdentity s space unit
  | none =>
    match addr / 2 ^ 28 with
    | 0 => stationReg s (idx / 2 ^ 16) (idx % 2 ^ 16)
    | 1 => if idx / 2 ^ 12 % 2 ^ 8 = 0 then portReg ch s (idx / 2 ^ 20) (idx % 2 ^ 12) else 0
    | 2 => stackReg s (idx / 2 ^ 25) (idx % 2 ^ 16)
    | 3 => ringReg s idx
    | 4 => tableReg s (idx / 2 ^ 24) (idx % 2 ^ 24)
    | _ => 0

/-- The word a key reads, for the host or the chain. -/
def regWord (ch : Bool) (key : Nat) (s : State) : Word :=
  if key < 2 ^ 32 then directWord ch key s else indirectWord ch key s

end Sys2Proof.Machine
end

