-- ==== Sys2Proof/Machine/RegAccess.lean ====
section
/-!
DEFINITION. Reads and writes of registers with their effects (R16, R412 to R415, R430, R464), snapshots and flask views (R416, R417,
R433, R434, R462, R463).
-/

namespace Sys2Proof.Machine

/-! ### Reads (R16, R415, R423) -/

/-- A read of a configuration word is a use of it, which checks its parity (R7, R423; log entry 10). -/
def checkRead (key : Nat) (s : State) : State :=
  if (tget? s.cfg key).isSome || decide (ikey 3 0 ≤ key) then (useWord key s).2 else s

/-- The port whose PORT_INJ_CNT a key names. -/
def injCountPort (key : Nat) : Option Nat :=
  let addr := key - 2 ^ 32
  if 2 ^ 32 ≤ key && addr / 2 ^ 28 == 1 && addr % 2 ^ 20 == 0x420 then some (addr / 2 ^ 20 % 256) else none

/-- An RC word clears as it is read (R16). The chain reaches none (R439). -/
def clearRead (ch : Bool) (key : Nat) (s : State) : State :=
  if ch then s
  else if key = 0x5_0030 then s.setInj fun i => { i with cntHbm := 0, cntPar := 0, cntSched := 0, cntTime := 0 }
  else match injCountPort key with
    | some p => s.setPort p fun x => { x with injCount := 0 }
    | none => s

/-- Read the word of a key; a 4-byte read (`half`) clears nothing (R412). -/
def readKey (ch half : Bool) (key : Nat) (s : State) : Word × State :=
  let s := checkRead key s
  (regWord ch key s, if half then s else clearRead ch key s)

/-- The indirect pair's address. -/
def State.idx (s : State) (ch : Bool) : Word := if ch then s.chain.idxAddr else s.host.idxAddr

def setIdx (ch : Bool) (w : Word) (s : State) : State :=
  if ch then s.setChain fun c => { c with idxAddr := w } else s.setHost fun h => { h with idxAddr := w }

/-- inc adds 8 on all 32 bits of the address (R415). -/
def advanceIdx (ch : Bool) (s : State) : State :=
  let w := s.idx ch
  if bit w 32 then setIdx ch (setFld w 31 0 (fld w 31 0 + 8)) s else s

/-- An access of IDX_DATA that reads (R415). -/
def readIdx (ch half : Bool) (s : State) : Word × State :=
  let (w, s) := readKey ch half (indirectKey (fld (s.idx ch) 31 0)) s
  (w, advanceIdx ch s)

/-- A read of the direct space (R413). -/
def readDirect (ch half : Bool) (addr : Nat) (s : State) : Word × State :=
  if directKey addr = 0x108 then readIdx ch half s else readKey ch half (directKey addr) s

/-! ### Snapshots (R416, R417, R462) -/

/-- The stamp of a snapshot: pour and clk, zero outside RUN. -/
def stampWord (s : State) : Word := put s.job.pour 32 ||| put (if s.running then s.pourOff else 0) 0

/-- Index and value pairs of consecutive indexes. -/
def fromIndex (i : Nat) (ws : List Word) : List (Nat × Word) := ((List.range ws.length).map (i + ·)).zip ws

/-- The station scope; a flask view also takes the histogram bins. -/
def stationSnap (s : State) (a : Nat) (view : Bool) : List (Nat × Word) :=
  let r := stationReg s a
  fromIndex 1 [r 0, r 0x30] ++ fromIndex 3 ((List.range 8).map fun k => r (0x40 + 8 * k)) ++
    fromIndex 11 ((List.range 16).map fun e => r (0x180 + 8 * e)) ++ [(27, r 0x220)] ++
    fromIndex 32 ((List.range 32).map fun n => r (0x400 + 8 * n)) ++
    (if view then fromIndex 64 ((List.range 256).map fun n => r (0x1000 + 8 * n)) else [])

/-- The port scope. -/
def portSnap (s : State) (p : Nat) : List (Nat × Word) :=
  let c := fun i => put (tget 0 (s.port p).ctr i) 0
  fromIndex 1 ((List.range 11).map fun i => c (1 + i)) ++ fromIndex 12 [portReg false s p 0, portReg false s p 0x110] ++
    fromIndex 16 ((List.range 43).map fun i => c (16 + i)) ++ fromIndex 64 ((List.range 8).map fun q => put (qdepth s p q) 0)

/-- The memory scope. -/
def stackSnap (s : State) (k : Nat) : List (Nat × Word) :=
  fromIndex 1 ((List.range 7).map fun i => stackReg s k (0x100 + 8 * i)) ++ [(8, stackReg s k 0)]

/-- The ring-stop scope: ring [11:9], direction [8], bay [7:4] of the unit. -/
def ringSnap (s : State) (unit : Nat) : List (Nat × Word) :=
  let x := s.stop (stopKey (unit / 512 % 8) (unit / 256 % 2) (unit / 16 % 16))
  fromIndex 1 ((List.range 5).map fun i => put (tget 0 x.ctr i) 0) ++ [(6, stopStat x)]

/-- The flask scope. -/
def flaskSnap (s : State) (f : Nat) : List (Nat × Word) :=
  fromIndex 1 ((List.range 8).flatMap fun c => [8, 16, 24].map fun o => policerReg s (32 * (8 * f + c) + o)) ++
    [(25, poolReg s (0x400010 + 32 * f)), (26, regionReg s (0x1008 + 16 * f))]

/-- The values of a scope; an absent unit gives none, so every holding register reads zero (R9). -/
def scopeSnap (s : State) (scope unit : Nat) (view : Bool) : List (Nat × Word) :=
  match scope with
  | 0 => if stationPresent s unit then stationSnap s unit view else []
  | 1 => if unit < 256 then portSnap s unit else []
  | 2 => if unit < 8 && s.stackPresent unit then stackSnap s unit else []
  | 3 => ringSnap s unit
  | _ => flaskSnap s (unit % 16)

/-- The holding registers of a snapshot: the stamp, then the scope's values; the others read zero (R450). -/
def holdOf (s : State) (scope unit : Nat) (view : Bool) : Tab Word :=
  ((0, stampWord s) :: scopeSnap s scope unit view).filter fun e => e.2 != 0

/-- A port snapshot fills HWM and restarts the marks (R201). -/
def restartMarks (p : Nat) (s : State) : State :=
  let depth := fun c => if c = 2 || c = 3 then 0 else qdepth s p c
  s.setPort p fun x =>
    { x with hwm := fromIndex 0 ((List.range 8).map fun c => put (tget 0 x.occMark c) 32 ||| put (tget 0 x.latMark c) 0)
             latMark := [], occMark := (List.range 8).map fun c => (c, depth c) }

/-- The scope and unit bits of SNAP_CTL; go reads zero. -/
def snapCtlBits (w : Word) : Word := put (fld w 47 32) 32

/-- SNAP_STAT of a snapshot taken. -/
def snapTaken (scope unit : Nat) : Word := putb true 63 ||| put scope 56 ||| put unit 44

/-- A write of SNAP_CTL (R416, R417). -/
def snapCtl (ch : Bool) (w : Word) (s : State) : State :=
  let scope := fld w 47 44
  let unit := fld w 43 32
  let s := if ch then s.setChain fun c => { c with snapCtl := snapCtlBits w } else s.setHost fun h => { h with snapCtl := snapCtlBits w }
  if !bit w 0 then s
  else if 4 < scope then
    if ch then s.setChain fun c => { c with snapStat := setFld c.snapStat 7 0 1 }
    else s.setHost fun h => { h with snapStat := setFld h.snapStat 7 0 1 }
  else
    let hold := holdOf s scope unit false
    let s := if scope = 1 && unit < 256 then restartMarks unit s else s
    if ch then
      s.setChain fun c =>
        { c with hold := hold, snapStat := snapTaken scope unit, snapClk := some s.clk,
                 holdPrev := if c.snapClk = some s.clk then c.holdPrev else c.hold }
    else
      s.setHost fun h =>
        { h with hold := hold, snapStat := snapTaken scope unit, snapClk := some s.clk,
                 holdPrev := if h.snapClk = some s.clk then h.holdPrev else h.hold }

/-! ### Flask views (R433, R434) -/

/-- 0 stays 0, another value reads 2^⌊log2 v⌋. -/
def coarse (v : Nat) : Nat := if v = 0 then 0 else 2 ^ Nat.log2 v

/-- Fields of a word read coarsely. -/
def coarsen (fs : List (Nat × Nat)) (w : Word) : Word := fs.foldl (fun w f => setFld w f.1 f.2 (coarse (fld w f.1 f.2))) w

def quarters : List (Nat × Nat) := [(63, 48), (47, 32), (31, 16), (15, 0)]
def wholeWord : List (Nat × Nat) := [(63, 0)]

/-- The counts in word n of a kind's window words (R292, R306, R313, R341). -/
def kindCounts (kind n : Nat) : List (Nat × Nat) :=
  match kind with
  | 2 => if n = 0 then [(63, 48), (47, 32), (31, 16), (9, 0)] else []
  | 3 => if n = 0 then [(63, 48), (47, 0)] else []
  | 4 => if n = 0 then quarters else if n = 3 then [(42, 32), (31, 0)] else []
  | 5 => if n = 0 then [(63, 32)] else []
  | 6 => if n = 0 then [(63, 48), (47, 32)] else if 2 ≤ n ∧ n < 18 then [(31, 15)] else []
  | _ => []

/-- The counts, marks and bins in a holding register of a view's snapshot. -/
def countFields (scope unit i : Nat) : List (Nat × Nat) :=
  match scope with
  | 0 =>
    if i = 1 then [(63, 48)]
    else if 3 ≤ i ∧ i < 11 then quarters
    else if 11 ≤ i ∧ i < 27 then [(63, 32), (13, 8), (5, 0)]
    else if i = 27 then [(21, 0)]
    else if 32 ≤ i ∧ i < 64 then kindCounts (kindOf unit) (i - 32)
    else if 64 ≤ i then [(63, 32), (31, 0)] else []
  | 1 => if i = 0 || i = 12 then [] else if i = 13 then [(21, 0)] else wholeWord
  | _ => if i = 0 then [] else if i = 25 then [(21, 0)] else wholeWord

/-- The unit of a view's snapshot belongs to the flask (R433). -/
def viewOwns (s : State) (f scope unit : Nat) : Bool :=
  match scope with
  | 0 => stationPresent s unit && stationFlask s unit == f
  | 1 => decide (unit < 256) && portFlask s unit == f
  | 4 => unit % 16 == f
  | _ => false

/-- A write of FV_SNAP_CTL: BAD_SCOPE or DENIED at once, else asked for the next pour. -/
def viewCtl (f : Nat) (w : Word) (s : State) : State :=
  let scope := fld w 47 44
  let s := s.setHost fun h => { h with viewCtl := tset h.viewCtl f (snapCtlBits w) }
  if !bit w 0 then s
  else
    let code := if 4 < scope then 1 else if viewOwns s f scope (fld w 43 32) then 0 else 2
    if code ≠ 0 then s.setHost fun h => { h with viewStat := tmod 0 h.viewStat f fun x => setFld x 7 0 code }
    else s.setHost fun h => { h with viewAsk := tset h.viewAsk f w }

/-- The snapshot a view has asked for is taken; one of a port fills HWM and restarts its marks like any other (R201). -/
def takeView (f : Nat) (w : Word) (s : State) : State :=
  let scope := fld w 47 44
  let unit := fld w 43 32
  let hold := (holdOf s scope unit true).map fun e => (512 * f + e.1, coarsen (countFields scope unit e.1) e.2)
  let s := if scope = 1 && unit < 256 then restartMarks unit s else s
  s.setHost fun h =>
    { h with viewHold := h.viewHold.filter (fun e => e.1 / 512 < f) ++ hold ++ h.viewHold.filter (fun e => f < e.1 / 512)
             viewStat := tset h.viewStat f (snapTaken scope unit) }

/-- Clk 0 of a pour, after step 2: every view's snapshot that was asked for. -/
def takeViews (s : State) : State :=
  each s.host.viewAsk (fun e => takeView e.1 e.2) (s.setHost fun h => { h with viewAsk := [] })

/-- A read of BAR2 (R433): view, and offset within it. No row of the table reads BAR2; a view reads so. -/
def viewWord (s : State) (f off : Nat) : Word :=
  let o := off / 8 % 1024 * 8
  if 0x1000 ≤ o then tget 0 s.host.viewHold (512 * f + (o - 0x1000) / 8)
  else match o with
    | 0x000 => put s.fuse.part.toNat 48 ||| put f 0
    | 0x008 => put s.job.pour 32 ||| put (s.job.heat % 2 ^ 32) 0
    | 0x010 => pwrStat s
    | 0x100 => tget 0 s.host.viewCtl f
    | 0x108 => tget 0 s.host.viewStat f
    | _ => 0

/-! ### Writes (R16, R17) -/

/-- The writable bits of INJ_HBM, INJ_PAR, INJ_SCHED, INJ_TIME, INJ_WIN and INJ_HEAT (R452). -/
def injBits : Nat → Word
  | 0 => BitVec.ofNat 64 (fieldBits [(63, 60), (39, 6)])
  | 1 => BitVec.ofNat 64 (fieldBits [(63, 62), (31, 0)])
  | 2 => BitVec.ofNat 64 (fieldBits [(63, 63), (59, 44), (13, 0)])
  | 3 => BitVec.ofNat 64 (fieldBits [(63, 62), (31, 0)])
  | 4 => BitVec.ofNat 64 allBits
  | _ => BitVec.ofNat 64 (fieldBits [(63, 63), (47, 0)])

/-- A write of block 0x5: ignored once debug is disabled; the injectors act from the next clk (R439, R453). -/
def writeInject (n : Nat) (w : Word) (s : State) : State :=
  let v := w &&& injBits n
  if s.fuse.debugOff then s
  else
    let s := s.setInj fun i => { i with armClk := s.clk }
    match n with
    | 0 => s.setInj fun i => { i with hbm := v }
    | 1 => s.setInj fun i => { i with par := v }
    | 2 => s.setInj fun i => { i with sched := v }
    | 3 => s.setInj fun i => { i with time := v, stepDone := false }
    | 4 => s.setInj fun i => { i with win := v, stepDone := false }
    | 5 => s.setInj fun i => { i with heat := v, stepDone := false }
    | _ => s

/-- A region of kind 2 (R399, R406). -/
def isCaptureRegion (s : State) (r : Nat) : Bool := bit (regionWord s r 0) 63 && rgKind s r == 2

/-- CAP_CFG: a write that names a region not of kind 2 is ignored (R406). -/
def writeCapCfg (w : Word) (s : State) : State :=
  if isCaptureRegion s (fld w 55 48) then s.setCap fun c => { c with cfg := w &&& BitVec.ofNat 64 (fieldBits [(63, 62), (55, 0)]) } else s

/-- JOB_START (R104). -/
def writeJobStart (w : Word) (s : State) : State :=
  if bit w 0 then jobArm (bit w 1) s else if bit w 1 then jobCancel s else s

/-- GATE_ARM (R49). -/
def writeGateArm (w : Word) (s : State) : State :=
  if bit w 0 then gateArm (bit w 1) s else if bit w 1 then gateCancel s else s

/-- SLOT_SW_ARM (R421). -/
def writeSlotArm (w : Word) (s : State) : State :=
  if bit w 0 then slotArm (bit w 2) (bit w 1) s else if bit w 1 then slotCancel s else s

/-- A write of WMBX_DATA; the chain does not reach it (R430). -/
def writeMbData (ch : Bool) (i : Nat) (w : Word) (s : State) : State :=
  if ch then s else s.setHost fun h => { h with mbData := tset h.mbData i w }

/-- A write of the direct space by block and offset; WMBX_CMD and IDX_DATA are not among them. -/
def writeDirect (ch : Bool) (key : Nat) (w : Word) (s : State) : State :=
  match key with
  | 0x0_0008 => if bit w 0 then orderQuench s else s
  | 0x0_0100 => setIdx ch (put (fld w 32 0) 0) s
  | 0x0_0200 => snapCtl ch w s
  | 0x0_0310 => writeMbData ch 0 w s
  | 0x0_0318 => writeMbData ch 1 w s
  | 0x0_0320 => writeMbData ch 2 w s
  | 0x0_0328 => writeMbData ch 3 w s
  | 0x0_0610 => if bit w 63 then s.setPar fun p => { p with valid := false } else s
  | 0x0_0708 => s.setJob fun j => { j with epochSec := w.setWidth 48 }
  | 0x0_0710 => s.setJob fun j => { j with epochNs := w.setWidth 32 }
  | 0x0_0718 => writeJobStart w s
  | 0x0_0728 => s.setJob fun j => { j with slotSec := w.setWidth 48 }
  | 0x0_0730 => s.setJob fun j => { j with slotNs := w.setWidth 32 }
  | 0x0_0738 => writeSlotArm w s
  | 0x1_0100 => s.setJob fun j => { j with swapSec := w.setWidth 48 }
  | 0x1_0108 => s.setJob fun j => { j with swapNs := w.setWidth 32 }
  | 0x1_0110 => writeGateArm w s
  | 0x2_0018 => if bit w 63 then s.setLedger fun l => { l with recValid := false } else s
  | 0x2_0108 => if held s.job.gateState then s else s.setLedger fun l => { l with sparePending := w }
  | 0x2_0300 => writeCapCfg w s
  | 0x2_0308 => s.setCap fun c => { c with slots := w.setWidth 32 }
  | 0x2_0318 => s.setCap fun c => { c with ports := tset c.ports 0 w }
  | 0x2_0320 => s.setCap fun c => { c with ports := tset c.ports 1 w }
  | 0x2_0328 => s.setCap fun c => { c with ports := tset c.ports 2 w }
  | 0x2_0330 => s.setCap fun c => { c with ports := tset c.ports 3 w }
  | _ => if !ch && 0x5_0000 ≤ key && key < 0x5_0030 then writeInject ((key - 0x5_0000) / 8) w s else s

/-- The writable bits of PORT_INJ_CTL, WIN, HEAT and SEED (R151). -/
def portInjBits : Nat → Word
  | 0 => BitVec.ofNat 64 (fieldBits [(63, 56), (44, 40), (9, 3), (0, 0)])
  | 2 => BitVec.ofNat 64 (fieldBits [(47, 0)])
  | _ => BitVec.ofNat 64 allBits

/-- The fields of a gate entry (R194). -/
def gateBits : Word := BitVec.ofNat 64 (fieldBits [(63, 42), (7, 0)])

/-- A write of a port's window. -/
def writePort (ch : Bool) (p o : Nat) (w : Word) (s : State) : State :=
  if silentPort s p then s
  else if o = 0x218 then
    if held s.job.gateState then s else s.setPort p fun x => { x with pendingN := fld w 13 8 }
  else if 0xA00 ≤ o ∧ o < 0xC00 then
    if held s.job.gateState then s else s.setPort p fun x => { x with gatePending := tset x.gatePending ((o - 0xA00) / 8) (w &&& gateBits) }
  else if 0x400 ≤ o ∧ o < 0x420 then
    if ch || s.fuse.debugOff then s
    else s.setPort p fun x => { x with inj := tset x.inj ((o - 0x400) / 8) (w &&& portInjBits ((o - 0x400) / 8)) }
  else s

/-- A write of a present station's window. -/
def writeStation (a o : Nat) (w : Word) (s : State) : State :=
  match o with
  | 0x010 => if bit w 63 then s.setStation a fun x => { x with violValid := false } else s
  | 0x200 => s.setStation a fun x => { x with pageStore := bit w 7, page := w.setWidth 7 }
  | _ => s

/-- A write of an indirect word; absent windows and words of the pattern ignore it (R7, R188). -/
def writeIndirect (ch : Bool) (key : Nat) (w : Word) (s : State) : State :=
  let addr := key - 2 ^ 32
  let idx := addr % 2 ^ 28
  if (absentWindow s addr).isSome then s
  else match addr / 2 ^ 28 with
    | 0 => writeStation (idx / 2 ^ 16) (idx % 2 ^ 16) w s
    | 1 => if idx / 2 ^ 12 % 2 ^ 8 = 0 then writePort ch (idx / 2 ^ 20) (idx % 2 ^ 12) w s else s
    | 2 => if idx % 2 ^ 16 = 8 && bit w 63 then s.setStack (idx / 2 ^ 25) fun x => { x with errValid := false } else s
    | _ => s

/-- Write the word of a key. -/
def writeKey (ch : Bool) (key : Nat) (w : Word) (s : State) : State :=
  if key < 2 ^ 32 then writeDirect ch key w s else writeIndirect ch key w s

/-- A write of the host or the chain reaches its register: the chain's waits for the next clk when the host wrote the same register in
this clk (R430). -/
def sendWrite (ch : Bool) (key : Nat) (w : Word) (s : State) : State :=
  if ch then
    if s.host.wrote.contains (s.clk, key) then s.setChain fun c => { c with later := c.later ++ [(key, w)] } else writeKey true key w s
  else
    writeKey false key w (s.setHost fun h => { h with wrote := (s.clk, key) :: h.wrote.filter fun e => e.1 == s.clk })

/-- An access of IDX_DATA that writes (R415). -/
def writeIdx (ch : Bool) (w : Word) (s : State) : State := advanceIdx ch (sendWrite ch (indirectKey (fld (s.idx ch) 31 0)) w s)

/-- The clk after a collision: the chain's writes take effect. -/
def applyLater (s : State) : State := each s.chain.later (fun e => writeKey true e.1 e.2) (s.setChain fun c => { c with later := [] })

end Sys2Proof.Machine
end

