-- ==== Sys2Proof/Machine/Boundary.lean ====
section
/-!
DEFINITION. The pour boundary (R38): quench, pour and heat numbers with the heat verdict and record, reloads, gate-list swap, resets of a
heat slot, removals, pickup windows, the ledger's pour; the epoch (R106).
-/

namespace Sys2Proof.Machine

/-- Do something at another clk than the running one. -/
def withClk (c : Nat) (f : State → State) (s : State) : State := { f { s with clk := c } with clk := s.clk }

/-- The clk at which the running pour ends. -/
def State.boundaryClk (s : State) : Nat := s.job.pourClk + s.pourClks

/-- The running pour is the last of its slot. -/
def State.lastPourOfSlot (s : State) : Bool := s.job.pour + 1 == s.heatLen

/-! ### Quench (R38 step 1, R53, R215, R386, R422) -/

/-- Of the causes that made a quench due, the one that arose first, and of one clk the lowest code; an ordered quench has none (R444). -/
def firstCause : List (Nat × Nat × Nat) → Option (Nat × Nat × Nat)
  | [] => none
  | e :: es =>
    match firstCause es with
    | none => if e.2.1 = 0 then none else some e
    | some b => if e.2.1 = 0 || b.1 < e.1 || (b.1 == e.1 && b.2.1 < e.2.1) then some b else some e

/-- An armed or fixed operation is dropped. -/
def dropped (st : ArmState) : ArmState := if held st then .dropped else st

/-- Record the cause of a quench. -/
def recordQuench (s : State) : State :=
  match firstCause s.job.quenchDue with
  | some (_, code, unit) => recordCause code unit s
  | none => s

/-- A sequencer stops (R215, R233). -/
def stopSeq (x : Station) : Station := if x.seq = .idle then x else { x with seq := .quenched }

/-- The module quenches: phase QUENCHED, the cause, the lanes dark, every sequencer stopped, armed operations dropped. -/
def quenchNow (s : State) : State :=
  let s := (recordQuench (enterPhase .quenched s)).emit .dark
  let s := s.setJob fun j => { j with quenchDue := [], gateState := dropped j.gateState, slotState := dropped j.slotState }
  let s := s.setCap fun c => { c with replayActive := false }
  { s with stations := s.stations.map (fun e => (e.1, stopSeq e.2)), layers := s.layers.map fun e => (e.1, e.2.untag) }

/-- The pattern-slot switch takes effect: as a module reset, but the main domain stays on and SELFTEST begins with the armed slot
preferred (R422, R466). -/
def slotSwitch (s : State) : State :=
  let slot := s.job.slotArm
  let code := s.job.slotCode
  let h := s.host
  let on := s.boot.powerOnClk
  let s := clearPower (clearMain (quenchNow s))
  { s with
    boot := { Boot.reset with phase := .selftest, powerOnClk := on, preferOnce := some slot }
    host := { HostLink.reset with
      idxAddr := h.idxAddr, hold := h.hold, holdPrev := h.holdPrev, snapClk := h.snapClk, linkUp := h.linkUp, spdm := h.spdm,
      transcript := h.transcript }
    job := { Job.reset with slotState := .done, slotCode := code, slotArm := slot } }

/-! ### The end of a heat slot (R212, R215, R231, R382) -/

/-- Stations that the image names, ascending. -/
def namedStations (s : State) : List Nat :=
  s.cfg.filterMap fun e =>
    if 2 ^ 32 ≤ e.1 && e.1 < 2 ^ 32 + 2 ^ 28 && e.1 % 2 ^ 16 == 8 && bit e.2 0 then some ((e.1 - 2 ^ 32) / 2 ^ 16) else none

/-- Lines found in an end at the end of the slot: one LEFTOVER each. -/
def recordLeftover (a e : Nat) (s : State) : State :=
  each ((endLines s a e).filter (stillHeld s.clk)) (fun _ s => violate a leftover (endPlace e) s) s

/-- A named station that has not issued halt. -/
def recordOverrun (a : Nat) (s : State) : State :=
  if (s.station a).seq = .run || (s.station a).seq = .wait then violate a overrun (s.station a).pc s else s

/-- The records of the last clk of a slot: LEFTOVER by station and end, then OVERRUN by station. -/
def endRecords (s : State) : State :=
  withClk (s.boundaryClk - 1)
    (fun s =>
      let s := each (s.stations.map (·.1)) (fun a s => each (List.range 16) (recordLeftover a) s) s
      each (namedStations s) recordOverrun s) s

/-- A quench that the next heat number makes due: HEAT_WRAP, REPLAY_LIMIT (R37, R384); none where a HEAT record gives the number (R403). -/
def verdictCause (s : State) : Option (Nat × Nat) :=
  if (heatComing s).isSome then none
  else if s.ledger.heatRetracted then
    if fld s.ledgerCfg 59 56 + 1 ≤ s.ledger.runs then some (0x46, s.job.heat % 2 ^ 32) else none
  else if s.job.heat = 2 ^ 48 - 1 then some (0x37, 0) else none

/-! ### The heat verdict and the heat record (R340, R383, R388, R389) -/

/-- Layers with an entry in the sparse summary. -/
def summaryLayers (s : State) : List Nat :=
  (List.range 256).filter fun l => lyValid s l && (lyPolicy s l == 1 || lyPolicy s l == 2)

/-- One entry of the sparse summary. -/
def summaryEntry (s : State) (l : Nat) : List Byte :=
  let x := s.layer l
  leBytes 16 (l * 2 ^ 120 + (if x.lost = 0 then 0 else 2 ^ 113) + (if x.warnFlag then 2 ^ 112 else 0) + x.detected * 2 ^ 64 +
    x.madeUp * 2 ^ 32 + x.lost)

/-- The first retraction of the slot: cause, detail, entry, pour; zeros when the heat is held COMMITTED. -/
def firstRetraction (s : State) : Nat × Nat × Nat × Nat := s.ledger.first.getD (0, 0, 0, 0)

/-- The verdict code of a heat: COMMIT 1, RETRACT 2. -/
def verdictCode (s : State) : Nat := if s.ledger.heatRetracted then 2 else 1

/-- The eight head words of the heat record. -/
def recordHead (s : State) : List Word :=
  let l := s.ledger
  let f := firstRetraction s
  [put (verdictCode s) 60 ||| put f.1 48 ||| put s.job.heat 0,
   put (s.job.slot % 2 ^ 32) 32 ||| put l.runs 16 ||| put (summaryLayers s).length 0,
   put f.2.2.1 52 ||| put f.2.2.2 0,
   put l.committed 32 ||| put l.retracted 0,
   put l.slotViol 48 ||| put l.slotPoison 32 ||| put l.slotDown 16 ||| put l.slotStray 0,
   l.spareActive, put s.pwr.score 0, 0]

/-- The bytes of the heat record, padded to a multiple of 64. -/
def heatRecord (s : State) : List Byte :=
  let raw := (recordHead s).flatMap (fun w => leBytes 8 w.toNat) ++ (summaryLayers s).flatMap (summaryEntry s)
  raw ++ List.replicate ((64 - raw.length % 64) % 64) 0

/-- The record goes into the ring of the telemetry region. -/
def writeHeatRecord (s : State) : State :=
  let bs := heatRecord s
  let r := fld s.ledgerCfg 55 48
  let off := if rgBytes s r < 64 * s.ledger.recNext + bs.length then 0 else 64 * s.ledger.recNext
  (writeSpan (rgBase s r + off) bs 1 s).2.setLedger fun l => { l with recNext := (off + bs.length) / 64, records := l.records + 1 }

/-- The HEAT notices, which leave in this very clk. -/
def heatNotices (s : State) : State :=
  let f := firstRetraction s
  let item := noticeItem (verdictCode s) f.1 0 (s.heatLen - 1) f.2.1
  withClk (s.clk - 1) (fun s => each (maskPorts s (tbKey 13 0x80020)) (fun p => queueNotice p 3 s.job.heat item) s) s

/-- HEAT_STAT once the next slot is known to repeat the heat, or not, and what the next run compares with (R232, R374, R383). -/
def nextRun (again : Bool) (s : State) : State :=
  if again then s.setLedger fun l => { l with runs := l.runs + 1, prevViol := l.firstViol, prevLate := l.firstLate }
  else s.setLedger fun l => { l with runs := 0, lastCommit := s.job.heat, prevViol := none, prevLate := none }

/-- HEAT_NUM after the verdict (R383), or as the next HEAT record of a replay says, which may differ from the verdict's (R403). -/
def nextHeat (s : State) : State :=
  let own := if s.ledger.heatRetracted then s.job.heat else s.job.heat + 1
  match heatComing s with
  | some r =>
    let s := s.setCap fun c => { c with diverged := c.diverged || r.heat != own }
    (nextRun (r.w3 % 2 == 1) s).setJob fun j => { j with heat := r.heat }
  | none => (nextRun s.ledger.heatRetracted s).setJob fun j => { j with heat := own }

/-- The ledger's counts of a slot start again; a mark after the cutoff holds the new heat RETRACTED (R382). -/
def freshSlot (s : State) : State :=
  let carry := s.ledger.carry
  let s := s.setLedger fun l =>
    { l with entries := [], committed := 0, retracted := 0, heatRetracted := false, carry := none, first := none, flooded := false,
             slotViol := 0, slotPoison := 0, slotDown := 0, slotStray := 0, firstViol := none, firstLate := none }
  match carry with
  | some (c, d) => holdOwn c d 0 none (recordRetract c d 0 s)
  | none => s

/-- Step 2 at a slot boundary. -/
def endSlot (s : State) : State :=
  let s := nextHeat (heatNotices (writeHeatRecord s))
  freshSlot (s.setJob fun j => { j with pour := 0, slot := j.slot + 1 })

/-! ### Reload and gate-list swap (R52, R53, R391, R424) -/

/-- Step 3: the faulty units come back from the shadow. -/
def reloadFaulty (s : State) : State := (reloadUnits s.par.reload s).setPar fun p => { p with reload := [] }

/-- The banks of a port exchange. -/
def swapLists (x : Port) : Port :=
  { x with activeN := x.pendingN, pendingN := x.activeN, gateActive := x.gatePending, gatePending := x.gateActive }

/-- The charge of a port counts for the flask that it has after a swap (R180, R391). -/
def followFlask (old : State) (p : Nat) (s : State) : State :=
  let n := portUse s p
  s.setFab fun x =>
    { x with flaskUse := tmod 0 (tmod 0 x.flaskUse (portFlask old p) (· - n)) (portFlask s p) (· + n) }

/-- The two words of spare selection exchange, and what is bound to the ports of their pairs follows (R391). -/
def swapSpares (s : State) : State :=
  let t := s.setLedger fun l => { l with spareActive := l.sparePending, sparePending := l.spareActive }
  settleAll (each ((s.ports.map (·.1)).filter fun p => portFlask s p != portFlask t p) (followFlask s) t)

/-- Step 4: a swap fixed for this boundary is made. -/
def swapGates (s : State) : State :=
  if s.job.gateState = .fixed && s.job.gateT = s.pourStart then
    let s := swapSpares { s with ports := s.ports.map fun (e : Nat × Port) => (e.1, swapLists e.2) }
    s.setJob fun j => { j with gateState := .done, swaps := j.swaps + 1 }
  else s

/-- An armed operation whose time is the next boundary is fixed (R51, R422). -/
def fixArmed (s : State) : State :=
  s.setJob fun j =>
    { j with gateState := if j.gateState = .armed && j.gateT = s.nextBoundary then .fixed else j.gateState
             slotState := if j.slotState = .armed && j.slotT = s.nextBoundary then .fixed else j.slotState }

/-! ### The start of a heat slot (R212, R215, R288, R298, R309, R323, R325, R334, R369, R466) -/

/-- Initial counters of a station: the image's, and 4 free entries of the post buffer (R212, R225). -/
def imageCounters (s : State) (a : Nat) : Tab Nat :=
  tset (((List.range 32).map fun i => (i, fld (s.cfgw (stKey a (0x40 + 8 * (i / 4)))) (16 * (i % 4) + 15) (16 * (i % 4)))).filter
    fun e => e.2 != 0) 31 4

/-- What the flags and counters of a station stood at before the slot began, for waits of neighbours (R222). -/
def keepChanges (a : Nat) (flags : Word) (ctr : Tab Nat) (s : State) : State :=
  let x := s.station a
  let s := each ((List.range 64).filter fun i => bit x.flags i != bit flags i)
    (fun i => keepPast (flagKey a i) (if bit x.flags i then 1 else 0) s.clk) s
  each ((List.range 32).filter fun i => tget 0 x.ctr i != tget 0 ctr i) (fun i => keepPast (ctrKey a i) (tget 0 x.ctr i) s.clk) s

/-- A station at the start of a heat slot; lines that travel with their slot are no longer in the end. -/
def startStation (a : Nat) (s : State) : State :=
  let run := isNamed s a
  let entry := entryOf s a
  let flags := s.cfgw (stKey a 0x30)
  let ctr := imageCounters s a
  (keepChanges a flags ctr s).setStation a fun x =>
    { x with flags := flags, ctr := ctr, sreg := [], lreg := [], hwm := [], histHdr := []
             ends := (x.ends.map fun e => (e.1, e.2.filter fun l => !stillHeld (s.clk - 1) l)).filter fun e => !e.2.isEmpty
             seq := if run then .run else x.seq, pc := if run then entry else x.pc, readyAt := s.clk + 1, waitSince := none }

/-- Every station starts the slot. -/
def startStations (s : State) : State :=
  each (((s.stations.map (·.1)) ++ namedStations s).eraseDups) startStation s

/-- The engines start the slot: run stores empty, accumulator rows +0 and banks unloaded, mode words 0, programs all END. -/
def startEngines (s : State) : State :=
  { s with
    crucibles := s.crucibles.map fun e => (e.1, { e.2 with insts := [] })
    riddles := s.riddles.map fun e => (e.1, { e.2 with prog := [], bitmap := [], coming := [] })
    ladles := s.ladles.map fun e => (e.1, { e.2 with mode := 0, map := none, ordinal := 0, pathW := [], pathA := [] })
    moulds := s.moulds.map fun e => (e.1, { e.2 with banks := [], rows := [] })
    sorters := s.sorters.map fun e => (e.1, { e.2 with slots := [] })
    layers := s.layers.map fun e => (e.1, { e.2.untag with detected := 0, lost := 0, madeUp := 0, warnFlag := false })
    fab := { s.fab with stamped := [] } }

/-- Removals (R288, R379), by the ports that went down in the slot as the pattern names them. -/
def startMembers (down : List Nat) (s : State) : State :=
  let s := (removeMembers down s).setLedger fun l => { l with downPorts := [] }
  { s with members := s.members.map fun e => (e.1, { e.2 with before := e.2.absences, absent := false }) }

/-! ### Capture at a slot boundary (R399, R400) -/

/-- The running capture stops: enough slots, or enable written 0. -/
def captureOver (s : State) : Bool := decide (s.cap.slots.toNat + 1 ≤ s.cap.done) || !bit s.cap.cfgInForce 63

/-- The HEAT record of a recorded slot. -/
def captureHeat (s : State) : State :=
  pushMark (captureBytes 3 0 s.job.heat 0 0 0 (if s.replaying then 1 else 0) [])
    (s.setCap fun c => { c with done := c.done + 1 })

/-- Capture goes on, stops or starts. -/
def captureSlot (s : State) : State :=
  let s := s.setCap fun c => { c with cfgInForce := c.cfg, done := if bit c.cfg 63 || c.running then c.done else 0 }
  if s.cap.running then
    if s.cap.full then s.setCap fun c => { c with running := false, done := if bit c.cfg 63 then c.done else 0 }
    else if captureOver s then
      pushMark (endRecord s) (s.setCap fun c => { c with running := false, done := if bit c.cfg 63 then c.done else 0 })
    else captureHeat s
  else if bit s.cap.cfgInForce 63 && s.cap.done == 0 && s.job.heat == fld s.cap.cfgInForce 47 0 && isCaptureRegion s (captureRegion s) then
    captureHeat (s.setCap fun c => { c with running := true, full := false, lost := false, lostCount := 0, written := 0, buffer := [] })
  else s

/-- All that starts with a heat slot. -/
def startSlot (down : List Nat) (s : State) : State :=
  captureSlot (startMembers down (startEngines (startStations s)))

/-! ### Every pour (R166, R257, R356, R369, R370, R374) -/

/-- The counts of the pour that ended become readable. -/
def swapHist (pour : Nat) (x : Station) : Station :=
  { x with histRead := x.histCount, histCount := [], histValid := true, histPour := pour, stochastic := 0 }

/-- An entry that was DUE for a whole pour. -/
def dueOnly : EntryState → Bool
  | .due => true | _ => false

/-- Entries retracted with NOTICE_LATE; a replay that repeats the first of the run before makes a quench due (R374). -/
def retractLate (s : State) : State :=
  let late := (validEntries s).filter fun e => (s.entry e).state == .due && duePour s e + 1 == s.job.pour
  let s := retractEntries late 0x0A 0 none dueOnly s
  let late := late.filter fun e => (s.entry e).cause == 0x0A
  match late with
  | [] => s
  | e0 :: _ =>
    let s := s.setLedger fun l => { l with firstLate := if l.firstLate.isSome then l.firstLate else some e0 }
    match s.ledger.prevLate with
    | some e => if s.replaying && late.contains e then quenchDue 0x44 e s else s
    | none => s

/-- OPEN entries become DUE at their due pour, IDLE ones OPEN at their first pour. -/
def openEntriesNow (s : State) : State :=
  each (validEntries s)
    (fun e s => match (s.entry e).state with
      | .opened => if duePour s e = s.job.pour then s.setEntry e fun x => { x with state := .due } else s
      | .idle => if firstPour s e = s.job.pour then s.setEntry e fun x => { x with state := .opened } else s
      | _ => s) s

/-- The ledger in clk 0 of a pour: late entries first, then the states, then commits (R372). -/
def ledgerPour (s : State) : State := decide' (openEntriesNow (retractLate s))

/-- Clk 0 of a pour: sampled ports, regulators, ordinals. -/
def startPour (s : State) : State :=
  let s := s.setFab fun f => { f with liveUp := (List.range 256).filter fun p => s.portUp p }
  let s := { s with ports := s.ports.map fun (e : Nat × Port) =>
    (e.1, { e.2 with injOrdinal := 0, carrying := e.2.carrying || e.2.state == PortState.up }) }
  ledgerPour (admitWaiting (s.setMem fun m => { m with pickLatch := m.pickCopy }))

/-- Steps 2 to 6 of a boundary; `slot` when a heat slot ends. -/
def advance (slot : Bool) (s : State) : State :=
  let ended := s.job.pour
  let start := s.boundaryClk
  let s := if slot then endSlot s else s.setJob fun j => { j with pour := j.pour + 1 }
  let s := s.setJob fun j => { j with pourClk := start }
  let down := s.ledger.downPorts.map (swapPort s)
  let s := fixArmed (swapGates (reloadFaulty (takeViews s)))
  let s := { s with stations := s.stations.map fun e => (e.1, swapHist ended e.2) }
  startPour (if slot then startSlot down s else s)

/-- A slot switch is fixed for this boundary. -/
def switchDue (s : State) : Bool := s.job.slotState == .fixed && s.job.slotT == s.nextBoundary

/-- The boundary. -/
def boundary (s : State) : State :=
  let slot := s.lastPourOfSlot
  let s := if s.limitReached then loseTime 0x35 s else s
  if !s.job.quenchDue.isEmpty then quenchNow s
  else if switchDue s then
    match (if slot then verdictCause s else none) with
    | some (c, u) => quenchNow (quenchDue c u s)
    | none => slotSwitch s
  else
    let s := if slot then endRecords s else s
    match (if slot then verdictCause s else none) with
    | some (c, u) => quenchNow (quenchDue c u s)
    | none => advance slot s

/-- POUR_BOUNDARY (R38): due once the running pour's clk have passed. -/
def execPourBoundary (s : State) : Out := .next (if s.boundaryDue then boundary s else s)

/-! ### EPOCH_START (R106, R169, R196 to R198) -/

/-- A port as RUN begins: buckets full, tags and virtual time zero. -/
def startPort (s : State) (p : Nat) (x : Port) : Port :=
  { x with bucket := [(0, 1024 * fld (shapeOf s p 0) 59 40), (1, 1024 * fld (shapeOf s p 1) 59 40)], vtime := 0, ftag := [], stag := [] }

/-- Policers that the image gives, full. -/
def startPolicers (s : State) : State :=
  each (tableRows s 7 0 0x1000 32 (fun _ => true)) (fun k s => let c := polCfg s k; s.setPolicer k fun x => { x with tokens := 1024 * fld c 27 0 }) s

/-- The heat of the first slot of a replay: its first HEAT record's (R403). -/
def firstHeat (s : State) : State :=
  match heatComing s with | some r => s.setJob fun j => { j with heat := r.heat } | none => s

/-- The first pour of RUN: everything that starts with a slot and a pour. -/
def firstPourOfRun (s : State) : State :=
  let s := s.setFab fun f => { f with flowClk := 0, flowlets := f.flowlets.map fun e => (e.1, { e.2 with valid := false }) }
  let s := startPolicers (each ((List.range 256).filter s.portEnabled) (fun p s => s.setPort p (startPort s p)) s)
  let s := s.setCap fun c => { c with replayActive := s.replayMode }
  startPour (startSlot [] (fixArmed (takeViews (freshSlot (firstHeat s)))))

/-- The module enters RUN at E0: JOB_STAT STARTED, and clk 0 of pour 0 of slot 0 under R38, whose first step takes a quench that is due. -/
def enterRun (s : State) : State :=
  let s := enterPhase .run s
  let s := s.setJob fun j => { j with jobState := .done, pour := 0, slot := 0, pourClk := s.clk - (s.time.now - 9 * j.e0) / 5 }
  let s := if s.limitReached then loseTime 0x35 s else s
  if s.job.quenchDue.isEmpty then firstPourOfRun s else quenchNow s

/-- EPOCH_START: fabric time has reached E0 of an armed start. -/
def execEpochStart (s : State) : Out :=
  .next (if s.boot.phase = .epoch && held s.job.jobState && decide (9 * s.job.e0 ≤ s.time.now) then enterRun s else s)

end Sys2Proof.Machine
end

