-- ==== Sys2Proof/Machine/Mailbox.lean ====
section
/-!
DEFINITION. The wide mailbox and its commands (R110 to R113, R363, R418 to R420, R436). A command without a completion row of its own
ends in the step that starts it (log entry 60).
-/

namespace Sys2Proof.Machine

/-! ### Start and end of a command (R419) -/

/-- A write of WMBX_CMD: ignored while busy; else valid clears, busy sets and the command runs. -/
def startMb (op : Nat) (f : State → State) (s : State) : State :=
  if s.host.mbBusy then s
  else f (s.setHost fun h => { h with mbValid := false, mbBusy := true, mbOp := op })

/-- The command ends: code, busy clear, valid set. -/
def endMb (code : Nat) (s : State) : State := s.setHost fun h => { h with mbValid := true, mbBusy := false, mbCode := code }

/-- Results overwrite WMBX_DATA words 0 and up; the other words stay. -/
def setMbData (ws : List Word) (s : State) : State :=
  s.setHost fun h => { h with mbData := ((List.range ws.length).zip ws).foldl (fun t e => tset t e.1 e.2) h.mbData }

/-- DONE, with results. -/
def doneMb (ws : List Word) (s : State) : State := endMb 0 (setMbData ws s)

/-- An argument word. -/
def State.mbArg (s : State) (i : Nat) : Word := tget 0 s.host.mbData i

/-! ### Time and power readings (R420) -/

/-- Fabric time, its state, pour and clk of one clk. -/
def timeWords (s : State) : List Word :=
  [put (secOf s.time.now) 0,
   put (nsOf s.time.now) 32 ||| put (fracOf s.time.now) 16 ||| put s.time.state.code 8,
   put s.job.pour 32 ||| put (if s.running then s.pourOff else 0) 0]

def mbTimeRead (s : State) : State := doneMb (timeWords s) s

/-- The words of POWER_FINE. -/
def powerWords (mw mv ma peak bus : BitVec 32) : List Word :=
  [put mw.toNat 32 ||| put mv.toNat 0, put ma.toNat 32 ||| put peak.toNat 0, put bus.toNat 32]

def mbPowerFine (mw mv ma peak bus : BitVec 32) (s : State) : State := doneMb (powerWords mw mv ma peak bus) s

/-! ### Measurements (R436) -/

/-- The 32 bytes of a digest as four words, byte 0 in the low byte of the first (log entry 61). -/
def digestWords (bs : List Byte) : List Word := (List.range 4).map fun i => BitVec.ofNat 64 (leNat ((bs.drop (8 * i)).take 8))

/-- Bytes of a free value. -/
def freeBytes (s : State) (site : Nat) : List Byte := (List.range 4).flatMap fun j => leBytes 8 (Config.freeWord s.clk (site + j)).toNat

/-- A measurement: with no image running the values of 2 to 4 are open (log entry 4). -/
def measurement (i : Nat) (s : State) : List Byte :=
  match i with
  | 1 => beBytes 32 Config.bootRomDigest.toNat
  | 2 => if s.host.meas23 = [] then freeBytes s 0x200 else beBytes 32 (sm3 (s.host.meas23.take 0xC0)).toNat
  | 3 => if s.host.meas23 = [] then freeBytes s 0x204 else s.host.meas23.drop 0xC0
  | 4 => if s.boot.imageOk then beBytes 32 (sm3 s.host.meas4).toNat else freeBytes s 0x208
  | _ => beBytes 32 (sm3 (leBytes 8 (fuseSummary s).toNat)).toNat

/-- MEAS_READ. -/
def mbMeasRead (s : State) : State :=
  let i := (s.mbArg 0).toNat
  if 1 ≤ i ∧ i ≤ 5 then doneMb (digestWords (measurement i s)) s else endMb 0x02 s

/-! ### Fuse commands (R110, R111, R113) -/

/-- A fuse command: its status at once, or the change begins. -/
def mbFuse (setting newV own : Nat) (s : State) : State :=
  if fuseStatus setting own s ≠ 0 then endMb (fuseStatus setting own s) s else openChange setting newV false s

/-- sec_version of the running image (R97). -/
def runningVersion (s : State) : Nat := leNat ((s.host.meas23.drop 8).take 4)

def mbFuseSvc (s : State) : State :=
  let v := (s.mbArg 0).toNat
  mbFuse 1 v (if s.fuse.svc < v ∧ v ≤ 64 ∧ v ≤ runningVersion s then 0 else fuseValue) s

def mbFuseLock (s : State) : State :=
  mbFuse 2 (if s.boot.slot then 3 else 2) (if s.fuse.lock < 2 ∧ 4 ≤ s.boot.phase.code then 0 else fuseState) s

def mbFuseDebugOff (s : State) : State := mbFuse 3 1 (if s.mbArg 0 = 0xD15AB1E0#64 then 0 else fuseConfirm) s

def mbFuseKeyset (s : State) : State :=
  let v := (s.mbArg 0).toNat
  mbFuse 4 v
    (if 3 < v ∨ v = s.fuse.keyset then fuseValue else if 1 ≤ s.boot.phase.code ∧ s.boot.phase.code ≤ 5 then 0 else fuseState) s

/-- LEDGER_READ: a fuse command too, answered with FUSE_STATE while a change is under way (R111, R420). -/
def mbLedgerRead (s : State) : State :=
  if s.fuse.opened.isSome then endMb fuseState s else doneMb (fuseLedgerWords (s.mbArg 0).toNat s) s

/-- The change the mailbox began is programmed: DONE. -/
def endFuseMb (s : State) : State :=
  if s.host.mbBusy && decide (0x41 ≤ s.host.mbOp) && decide (s.host.mbOp ≤ 0x44) then endMb 0 s else s

/-- The fuse controller has blown the fuses and closed the record. -/
def fuseProgrammed (s : State) : State :=
  if s.fuse.busy then
    if s.fuse.byChain then closeChange true s else endFuseMb (closeChange true s)
  else s

/-! ### Shakeout (R363, R420) -/

/-- The running image gives the flask a port, a station, a group or a region. -/
def flaskInUse (s : State) (f : Nat) : Bool :=
  (List.range 256).any (fun p => s.portEnabled p && portFlask s p == f) ||
  (List.range 4096).any (fun a => isNamed s a && stationFlask s a == f) ||
  (tableRows s 8 0 0x8000 32 (fun w => bit w 63)).any (fun g => fld (s.cfgw (tbKey 8 (32 * g))) 3 0 == f) ||
  (regions s).any fun r => rgFlask s r == f

/-- The spans of a flask's regions. -/
def flaskSpans (s : State) (f : Nat) : List (Nat × Nat) :=
  ((regions s).filter fun r => rgFlask s r == f).map fun r => (rgBase s r, rgBase s r + rgBytes s r)

def mbShakeout (s : State) : State :=
  let f := fld (s.mbArg 0) 3 0
  if s.mem.shakeBusy || (s.running && flaskInUse s f) then endMb 0x03 s
  else endMb 0 (s.setMem fun m => { m with shakeBusy := true, shakeFlask := f, shakeLeft := flaskSpans s f })

/-- Every line has been written: MEM_SHAKE.busy clears. -/
def shakeoutDone (s : State) : State :=
  if s.mem.shakeBusy && s.mem.shakeLeft == [] then s.setMem fun m => { m with shakeBusy := false } else s

/-! ### Flash (R96, R420) -/

/-- Bytes of a slot. -/
def slotSize : Nat := 0x07F00000

/-- A slot's bytes replaced: what the list does not reach is erased. -/
def setSlotBytes (slot : Bool) (bs : List Byte) (t : Tab Byte) : Tab Byte :=
  let b := slotBase slot
  t.filter (fun e => e.1 < b) ++ (((List.range bs.length).map (b + ·)).zip bs).filter (fun e => e.2 != 0xFF) ++
    t.filter fun e => b + slotSize ≤ e.1

/-- The source span lies in one region the host may read. -/
def copySpanOk (s : State) (addr len : Nat) : Bool :=
  decide (len ≤ slotSize) && (match regionOf s addr len with | some r => rgHost s r | none => false)

def mbFlashCopy (s : State) : State :=
  let slot := bit (s.mbArg 0) 0
  let addr := (s.mbArg 1).toNat
  let units := fld (s.mbArg 2) 15 0 + 1
  if !copySpanOk s addr (4096 * units) then endMb 0x02 s
  else if slot == s.boot.slot && s.boot.phase != .quenched && s.boot.phase != .failed then endMb 0x03 s
  else { s with flash := { s.flash with copying := some (slot, addr, units), bytes := setSlotBytes slot [] s.flash.bytes } }

/-- The bytes a copy reads: a line that fails reads as all ones (R409; log entry 62). -/
def copyLines (ls : List Nat) (s : State) : List Byte × State :=
  ls.foldl (fun x l =>
    let (d, s) := readLine l 2 false x.2
    (x.1 ++ (d.map (·.1)).getD (List.replicate 64 0xFF), s)) ([], s)

/-- A copy finishes. -/
def flashCopyDone (s : State) : State :=
  match s.flash.copying with
  | none => s
  | some (slot, addr, units) =>
    let (bs, s) := copyLines (spanLines addr (4096 * units)) s
    let bs := (bs.drop (addr % 64)).take (4096 * units)
    endMb 0 { s with flash := { s.flash with copying := none, bytes := setSlotBytes slot bs s.flash.bytes } }

def mbBootPref (s : State) : State :=
  let slot := bit (s.mbArg 0) 0
  if decide (2 ≤ s.fuse.lock) && (s.fuse.lock == 3) != slot then endMb 0x03 s
  else endMb 0 { s with flash := { s.flash with bootRecord := some slot } }

/-! ### The command by its op -/

/-- An op of R420's table. -/
def listedOp (op : Nat) : Bool := [0x01, 0x02, 0x10, 0x41, 0x42, 0x43, 0x44, 0x48, 0x50, 0x51, 0x52].contains op

/-- A write of WMBX_CMD as a register write: the power readings it would return are open here (log entry 4). -/
def writeMbCmd (op : Nat) (s : State) : State :=
  let w (i : Nat) : BitVec 32 := (Config.freeWord s.clk (0x210 + i)).setWidth 32
  startMb op
    (match op with
     | 0x01 => mbTimeRead
     | 0x02 => mbPowerFine (w 0) (w 1) (w 2) (w 3) (w 4)
     | 0x10 => mbMeasRead
     | 0x41 => mbFuseSvc
     | 0x42 => mbFuseLock
     | 0x43 => mbFuseDebugOff
     | 0x44 => mbFuseKeyset
     | 0x48 => mbLedgerRead
     | 0x50 => mbShakeout
     | 0x51 => mbFlashCopy
     | 0x52 => mbBootPref
     | _ => endMb 0x01) s

def execTimeRead (s : State) : Out := onMain (startMb 0x01 mbTimeRead) s
def execPowerFine (mw mv ma peakMw busMv : BitVec 32) (s : State) : Out := onMain (startMb 0x02 (mbPowerFine mw mv ma peakMw busMv)) s
def execMeasRead (s : State) : Out := onMain (startMb 0x10 mbMeasRead) s
def execFuseSvc (s : State) : Out := onMain (startMb 0x41 mbFuseSvc) s
def execFuseLock (s : State) : Out := onMain (startMb 0x42 mbFuseLock) s
def execFuseDebugOff (s : State) : Out := onMain (startMb 0x43 mbFuseDebugOff) s
def execFuseKeyset (s : State) : Out := onMain (startMb 0x44 mbFuseKeyset) s
def execLedgerRead (s : State) : Out := onMain (startMb 0x48 mbLedgerRead) s
def execShakeout (s : State) : Out := onMain (startMb 0x50 mbShakeout) s
def execFlashCopy (s : State) : Out := onMain (startMb 0x51 mbFlashCopy) s
def execBootPref (s : State) : Out := onMain (startMb 0x52 mbBootPref) s

/-- BAD_OP: an op that the table lists is no such command. -/
def execBadOp (op : BitVec 8) (s : State) : Out :=
  if listedOp op.toNat then .refused (.illFormed "an op that is not listed") else onMain (startMb op.toNat (endMb 0x01)) s

/-- FUSE_PROGRAMMED: the fuse controller belongs to the standby domain. -/
def execFuseProgrammed (s : State) : Out := .next (fuseProgrammed s)

def execFlashCopyDone (s : State) : Out := onMain flashCopyDone s
def execShakeoutDone (s : State) : Out := onMain shakeoutDone s

end Sys2Proof.Machine
end

