-- ==== Sys2Proof/Machine/HostRows.lean ====
section
/-!
DEFINITION. Accesses of the registers by the host and by the chain (R16, R412 to R417, R428, R430, R433), and the host link's own events
(R408).
-/

namespace Sys2Proof.Machine

/-! ### The host's BAR0 (R412, R413) -/

/-- A read: 8 bytes aligned, or the addressed half of a word, which clears nothing; any other access is ignored. -/
def hostRead (addr size : Nat) (s : State) : State :=
  if size = 8 ∧ addr % 8 = 0 then
    let (w, s) := readDirect false false addr s
    s.setHost fun h => { h with readData := w }
  else if size = 4 ∧ addr % 4 = 0 then
    let (w, s) := readDirect false true addr s
    s.setHost fun h => { h with readData := put (if addr % 8 = 4 then fld w 63 32 else fld w 31 0) 0 }
  else s

/-- A write of 8 aligned bytes; any other is ignored. -/
def hostWrite (addr size : Nat) (w : Word) (s : State) : State :=
  if size = 8 ∧ addr % 8 = 0 then
    if directKey addr = 0x108 then writeIdx false w s
    else if directKey addr = 0x300 then writeMbCmd (fld w 7 0) s
    else sendWrite false (directKey addr) w s
  else s

/-- READ_CLEAR: a read of a register by the host. -/
def execReadClear (addr : BitVec 20) (size : Nat) (s : State) : Out := onMain (hostRead addr.toNat size) s

/-- REGISTER_WRITE: a write of a register by the host. -/
def execRegisterWrite (addr : BitVec 20) (size : Nat) (w : Word) (s : State) : Out := onMain (hostWrite addr.toNat size w) s

/-! ### The chain's REG_RD and REG_WR (R428, R430) -/

/-- REG_DATA. -/
def regData (w : Word) (s : State) : State := reply 0x32 (beBytes 8 w.toNat) s

/-- The chain reads a direct offset; with the main domain off every field reads as at reset. -/
def chainRead (off : Nat) (s : State) : State :=
  let (w, s) := readDirect true false off s
  regData w s

/-- The chain writes a direct offset; a main domain that is off takes nothing. -/
def chainWrite (off : Nat) (w : Word) (s : State) : State :=
  if !s.pwr.mainOn then s
  else if directKey off = 0x108 then writeIdx true w s
  else sendWrite true (directKey off) w s

/-- REG_RD. -/
def execRegRd (dst : BitVec 8) (off : BitVec 32) (crc : BitVec 16) (s : State) : Out :=
  onFrame s dst 0x30 (beBytes 4 off.toNat) crc (frameMine s dst) (chainRead off.toNat)

/-- REG_WR. -/
def execRegWr (dst : BitVec 8) (off : BitVec 32) (data : Word) (crc : BitVec 16) (s : State) : Out :=
  onFrame s dst 0x31 (beBytes 4 off.toNat ++ beBytes 8 data.toNat) crc (frameMine s dst)
    fun s => ackFrame (chainWrite off.toNat data s)

/-! ### Rows of single registers -/

/-- SNAPSHOT: a write of SNAP_CTL by the host or by the chain. -/
def execSnapshot (chain : Bool) (w : Word) (s : State) : Out :=
  if chain then .next (ackFrame (chainWrite 0x200 w s)) else onMain (sendWrite false 0x200 w) s

/-- FV_SNAP_CTL: a write of a view's snapshot control. -/
def execFvSnapCtl (view : Fin 16) (w : Word) (s : State) : Out := onMain (viewCtl view w) s

/-- IDX_DATA read by the host or by the chain. -/
def execIdxDataRead (chain : Bool) (s : State) : Out :=
  if chain then .next (chainRead 0x108 s) else onMain (hostRead 0x108 8) s

/-- IDX_DATA written by the host or by the chain. -/
def execIdxDataWrite (chain : Bool) (w : Word) (s : State) : Out :=
  if chain then .next (ackFrame (chainWrite 0x108 w s)) else onMain (hostWrite 0x108 8 w) s

/-! ### The host link (R408) -/

/-- The link trains on its own once POWER has completed. -/
def trained (s : State) : Bool :=
  s.boot.phase != .standby && s.boot.phase != .power && !(s.boot.phase == .failed && s.boot.faultCode == 0x08)

/-- HOST_LINK_UP. -/
def execHostLinkUp (s : State) : Out :=
  onMain (fun s => if trained s then (s.setHost fun h => { h with linkUp := true }).emit .cxlReady else s) s

/-- What PERST_N resets: the link, DOE state, the host's indirect pair and holding registers; requests not begun are discarded. -/
def perst (s : State) : State :=
  let s := s.setHost fun h =>
    { h with linkUp := false, idxAddr := 0, hold := [], holdPrev := [], snapClk := none, snapStat := 0, spdm := 0, transcript := [] }
  s.setMem fun m => { m with waiting := m.waiting.filter (·.pkt.isSome) }

/-- PERST_N. -/
def execPerstN (s : State) : Out := onMain perst s

end Sys2Proof.Machine
end

