-- ==== Sys2Proof/Machine/Lines.lean ====
section
/-!
DEFINITION. Lines on their way: from output ends to the crossbar (R207, R210), in owned ring slots (R158, R159, R208), into input ends
(R209); lines a Crucible takes from ports (R284) and the deadline decision (R287).
-/

namespace Sys2Proof.Machine

/-! ### LINE_ENTRY (R209) -/

/-- The line enters an input end, or finds it full and is lost (R209, R230, R233). -/
def enterEnd (a e : Nat) (l : Line) (s : State) : State :=
  if 32 ≤ (endLines s a e).length then violate a pushFull (endPlace e) s
  else appendLine a e s.clk { l with slotClk := none } s

/-- The flight of an end that arrives first, its clk come. -/
def dueFlight (s : State) (a e : Nat) : Option Flight :=
  (s.fab.flights.filter fun f => f.station == a && f.qend == e && decide (f.due ≤ s.clk)).foldl
    (fun b f => match b with | none => some f | some x => if f.due < x.due then some f else some x) none

/-- Take one flight out. -/
def dropFlight (f : Flight) (s : State) : State := s.setFab fun x => { x with flights := x.flights.erase f }

/-- LINE_ENTRY: after the pops that the station's engines make in this clk; those of its sequencer are the matter of the order in which a
clk's rows come (log entry 39). -/
def execLineEntry (st : StAddr) (qend : Fin 8) (s : State) : Out :=
  .next (match dueFlight s st.toNat qend with
    | none => s
    | some f => enterEnd st.toNat qend f.line (dropFlight f (settle st.toNat s)))

/-! ### LINE_DEPART (R207, R210) -/

/-- The head line of an end leaves toward its partner, to enter it 7 clk later. -/
def sendAcross (a e : Nat) (s : State) : State :=
  match endLines s a e with
  | [] => s
  | l :: _ =>
    let target := boundSt s a e
    let s := s.setStation a fun x => { x with ends := tmod [] x.ends e List.tail }
    s.setFab fun f =>
      { f with flights := f.flights ++ [{ due := s.clk + 7, station := target, qend := boundEnd s a e, line := l, src := none }],
               claims := f.claims ++ [(target, a)] }

/-- One offered line: it leaves, or stays and is a CONFLICT at its own station. -/
def offerLine (a : Nat) (blocked : List Nat) (e : Nat) (s : State) : State :=
  if blocked.contains e then violate a conflict (endPlace e) s else sendAcross a e s

/-- Up to two ready lines leave (R207). -/
def departLines (a : Nat) (s : State) : State :=
  if !s.running || departed s a then s
  else
    let os := offered s a
    let blocked := (os.map (·.2)).filter fun e => outputTaken s a (boundSt s a e)
    each (os.map (·.2)) (offerLine a blocked) s

/-- LINE_DEPART. -/
def execLineDepart (st : StAddr) (s : State) : Out := .next (departLines st.toNat (settle st.toNat s))

/-! ### OWNED_SLOT_PASS (R158, R159, R208) -/

/-- The output end of the owner that names an entry. -/
def slotEndOf (s : State) (a ring dir entry : Nat) : Option Nat :=
  ((List.range 8).map (· + 8)).find? fun e =>
    let q := qcfg s a e
    isBound s a e && isRing s a e && fld q 46 44 == ring && fld q 43 43 == dir && fld q 42 32 == entry

/-- Pour and heat that hold a clk 8 before now: a pour back, and the heat before the slot's own where the slot has just begun. -/
def pourBefore (s : State) : Nat × Nat :=
  if 8 ≤ s.pourOff then (s.job.pour, s.job.heat)
  else if s.job.pour ≠ 0 then (s.job.pour - 1, s.job.heat)
  else (s.heatLen - 1, if s.replaying then s.job.heat else (s.job.heat + 2 ^ 48 - 1) % 2 ^ 48)

/-- The slot passes its enter stop in this clk. A faulty calendar entry is not used: its owner's step is suppressed as a BOUND, and the line
that the slot was to carry is lost (R424). A slot whose owner binds no output end to its entry travels empty and is no violation: the
manual names none, since the place of a POP_EMPTY is that end (DESIGN CHOICE, log entry 73). -/
def slotPass (ring dir entry : Nat) (s : State) : State :=
  let w := calEntry s ring dir entry
  if !s.running || !calUsed w || !(slotStarts w).contains s.pourOff then s
  else
    let (faulty, s) := useWord (calKey ring dir entry) s
    let count (i : Nat) (s : State) : State :=
      s.setStop (stopKey ring dir (calEnter w)) fun x => { x with ctr := tmod 0 x.ctr i (satAdd 48 · 1) }
    let a := calOwner w
    match slotEndOf s a ring dir entry with
    | none => count 1 s
    | some e =>
      let mine (l : Line) : Bool := l.slotClk == some (s.clk - 8)
      let ls := (endLines s a e).filter mine
      if faulty then
        count 1 (violate a bound (endPlace e) (s.setStation a fun x => { x with ends := tmod [] x.ends e (·.filter fun l => !mine l) }))
      else if ls.isEmpty then
        let (p, h) := pourBefore s
        count 1 (if pathRemoved s a e then s else violateAt a popEmpty (endPlace e) p ((s.pourOff + s.pourClks - 8) % s.pourClks) h s)
      else
        let s := s.setStation a fun x => { x with ends := tmod [] x.ends e (·.filter fun l => !mine l) }
        let due := s.clk + transitClk dir (calEnter w) (calLeave w) + 10
        count 0 (s.setFab fun f =>
          { f with flights := f.flights ++ ls.map fun l =>
              { due := due, station := boundSt s a e, qend := boundEnd s a e, line := l, src := some (16 * ring + dir, a, e) } })

/-- OWNED_SLOT_PASS. -/
def execOwnedSlotPass (ring : Fin 8) (ccw : Bool) (entry : Fin 2048) (s : State) : Out :=
  let dir := if ccw then 1 else 0
  .next (slotPass ring dir entry (settle (calOwner (calEntry s ring dir entry)) s))

/-- Two flights come by the same ring stop. -/
def sameStop (f g : Flight) : Bool :=
  match f.src, g.src with
  | some (k, _, _), some (k', _, _) => k == k' && bayOf f.station == bayOf g.station
  | _, _ => false

/-- The first clk from `c` on at which no line of a stop is due. -/
def gapAfter (dues : List Nat) : Nat → Nat → Nat
  | 0, c => c
  | n + 1, c => if dues.contains c then gapAfter dues n (c + 1) else c

/-- A line that came by a ring has lost its crossbar output in this clk: it is offered again in the next, ahead of later lines of its stop,
which wait in turn (R210). -/
def holdAtStop (f : Flight) (s : State) : State :=
  let dues := (s.fab.flights.filter (sameStop f)).map (·.due)
  let last := gapAfter dues dues.length f.due
  s.setFab fun x =>
    { x with flights := x.flights.map fun g => if sameStop f g && decide (f.due ≤ g.due) && decide (g.due < last) then { g with due := g.due + 1 } else g }

/-- The CONFLICT of a ring line, at the station that owns the slot (R210). -/
def ringConflict (f : Flight) (s : State) : State :=
  match f.src with
  | some (_, a, e) => violate a conflict (endPlace e) s
  | none => s

/-- The ring lines that reach a crossbar output in this clk, by ring stop and target. -/
def ringArrivals (s : State) : List Flight :=
  (s.fab.flights.filter fun f => f.src.isSome && f.due == s.clk + 7).mergeSort fun x y =>
    match x.src, y.src with | some (k, _, _), some (k', _, _) => decide (k ≤ k') | _, _ => true

/-- A ring arrival loses to a station's claim, or to a lower ring's line for the same output. -/
def ringLoses (s : State) (f : Flight) : Bool :=
  (s.fab.claims.any fun c => c.1 == f.station) ||
    (ringArrivals s).any fun g => g.station == f.station && match g.src, f.src with | some (k, _, _), some (k', _, _) => decide (k < k') | _, _ => false

/-- At the end of a clk: ring lines that lost their output wait, and the claims of the clk end (R210). -/
def endCrossbarClk (s : State) : State :=
  let losers := (ringArrivals s).filter (ringLoses s)
  let stops := losers.foldl (fun l f => if l.any (sameStop f) then l else l ++ [f]) ([] : List Flight)
  (each losers ringConflict (each stops holdAtStop s)).setFab fun f => { f with claims := [] }

/-! ### Crucible intake and decision -/

/-- CONTRIB_LINE_TAKE (R279, R284). -/
def execContribLineTake (st : StAddr) (qend : Fin 8) (s : State) : Out :=
  .next (if s.running && kindOf st.toNat == 2 then takeContribLine st.toNat qend s else s)

/-- DEADLINE_DECISION (R286, R287). -/
def execDeadlineDecision (inst : BitVec 12) (s : State) : Out := .next (deadlineDecision inst.toNat s)

end Sys2Proof.Machine
end

