-- ==== Sys2Proof/Machine/Spdm.lean ====
section
/-!
DEFINITION. What the module answers over DOE (R407, R435, R436): Discovery, CMA/SPDM and Table Access. The layout of the messages is
the standards' own (R407, R435), which the manual does not repeat (log entry 63).
-/

namespace Sys2Proof.Machine

/-- A DOE request arrives once the link accepts configuration requests (R408). -/
def onLink (f : State → State) (s : State) : Out := onMain (fun s => if s.host.linkUp then f s else s) s

/-! ### Discovery and Table Access -/

/-- Vendor, type and next index of the three DOE objects. -/
def discoveryEntry (i : Nat) : Nat × Nat × Nat :=
  match i with
  | 0 => (0x0001, 0, 1)
  | 1 => (0x0001, 1, 2)
  | 2 => (0x1E98, 2, 0)
  | _ => (0xFFFF, 0, 0)

/-- DOE_DISCOVERY. -/
def execDoeDiscovery (index : Nat) (s : State) : Out :=
  onLink (fun s =>
    let e := discoveryEntry index
    s.emit (.doe 0 e.2.1 (leBytes 2 e.1 ++ leBytes 1 e.2.1 ++ leBytes 1 e.2.2))) s

/-- TABLE_ACCESS: the CDAT. -/
def execTableAccess (entry : Nat) (s : State) : Out := onLink (fun s => s.emit (.doe 2 0 (Config.cdat entry))) s

/-! ### SPDM -/

/-- A message: version, code, two parameters, the rest. -/
def spdmMsg (version code p1 p2 : Nat) (rest : List Byte) : List Byte :=
  [BitVec.ofNat 8 version, BitVec.ofNat 8 code, BitVec.ofNat 8 p1, BitVec.ofNat 8 p2] ++ rest

/-- A response goes out; request and response join the exchange's messages. -/
def spdmAnswer (code : Nat) (req resp : List Byte) (s : State) : State :=
  (s.setHost fun h => { h with transcript := h.transcript ++ req ++ resp }).emit (.doe 1 code resp)

/-- ERROR with a reason: nothing else changes. -/
def spdmError (reason : Nat) (s : State) : State := s.emit (.doe 1 0x7F (spdmMsg 0x12 0x7F reason 0 []))

/-- A signed response: the signature covers the messages before it, the request and the response up to the signature. -/
def spdmSigned (code : Nat) (req resp : List Byte) (s : State) : State :=
  spdmAnswer code req (resp ++ beBytes 64 (Config.sm2Sign (s.host.transcript ++ req ++ resp)).toNat) s

/-- The responder's nonce is open, for each answer of a clk on its own (log entry 4). -/
def spdmNonce (s : State) : List Byte := freeBytes s (0x1000000000000 + 4 * s.out.length)

/-- GET_VERSION begins an exchange: 1.2 and 1.3. -/
def spdmVersion (s : State) : State :=
  spdmAnswer 0x04 (spdmMsg 0x10 0x84 0 0 []) (spdmMsg 0x10 0x04 0 0 ([0, 2] ++ leBytes 2 0x1200 ++ leBytes 2 0x1300))
    (s.setHost fun h => { h with spdm := 1, transcript := [] })

def execGetVersion (s : State) : Out := onLink spdmVersion s

/-- A request that must follow `n` others. -/
def spdmAt (n : Nat) (f : State → State) (s : State) : Out := onLink (fun s => if s.host.spdm = n then f s else spdmError 0x04 s) s

/-- GET_CAPABILITIES. -/
def execGetCapabilities (s : State) : Out :=
  spdmAt 1 (fun s =>
    spdmAnswer 0x61 (spdmMsg 0x12 0xE1 0 0 []) (spdmMsg 0x12 0x61 0 0 (leBytes 4 0 ++ leBytes 4 Config.spdmCapabilities.toNat))
      (s.setHost fun h => { h with spdm := 2 })) s

/-- What NEGOTIATE_ALGORITHMS settles: SM3 measurements, SM2 signatures, SM3 hashes. -/
def algorithmsBody : List Byte :=
  leBytes 2 36 ++ [1, 0] ++ leBytes 4 0x40 ++ leBytes 4 0x200 ++ leBytes 4 0x40 ++ List.replicate 16 0

/-- NEGOTIATE_ALGORITHMS: both must be offered. -/
def execNegotiateAlgorithms (sm2 sm3 : Bool) (s : State) : Out :=
  spdmAt 2 (fun s =>
    if sm2 && sm3 then
      spdmAnswer 0x63 (spdmMsg 0x12 0xE3 0 0 []) (spdmMsg 0x12 0x63 0 0 algorithmsBody) (s.setHost fun h => { h with spdm := 3 })
    else spdmError 0x01 s) s

/-- The digest of the identity chain. -/
def chainDigest : List Byte := beBytes 32 (sm3 Config.certChain).toNat

/-- GET_DIGESTS: slot 0 only. -/
def execGetDigests (s : State) : Out :=
  spdmAt 3 (fun s => spdmAnswer 0x01 (spdmMsg 0x12 0x81 0 0 []) (spdmMsg 0x12 0x01 0 1 chainDigest) s) s

/-- GET_CERTIFICATE: a part of slot 0's chain and what is left of it. -/
def execGetCertificate (slot offset len : Nat) (s : State) : Out :=
  spdmAt 3 (fun s =>
    let part := (Config.certChain.drop offset).take len
    if slot ≠ 0 ∨ Config.certChain.length ≤ offset then spdmError 0x01 s
    else
      spdmAnswer 0x02 (spdmMsg 0x12 0x82 slot 0 (leBytes 2 offset ++ leBytes 2 len))
        (spdmMsg 0x12 0x02 slot 0 (leBytes 2 part.length ++ leBytes 2 (Config.certChain.length - offset - part.length) ++ part)) s) s

/-- CHALLENGE: slot 0's chain, a nonce, a signature. -/
def execChallenge (slot : Nat) (nonce : BitVec 256) (s : State) : Out :=
  spdmAt 3 (fun s =>
    if slot ≠ 0 then spdmError 0x01 s
    else
      spdmSigned 0x03 (spdmMsg 0x12 0x83 slot 0 (beBytes 32 nonce.toNat))
        (spdmMsg 0x12 0x03 0 1 (chainDigest ++ spdmNonce s ++ leBytes 2 0)) s) s

/-- The measurement block of an index. -/
def measurementBlock (i : Nat) (s : State) : List Byte :=
  [BitVec.ofNat 8 i, 1] ++ leBytes 2 35 ++ [BitVec.ofNat 8 (if i = 1 then 0 else if i = 5 then 3 else 1)] ++ leBytes 2 32 ++ measurement i s

/-- The indexes a request names: 0 asks for their number only, 0xFF for all. -/
def measurementIndexes (index : Nat) : List Nat := if index = 0xFF then [1, 2, 3, 4, 5] else if index = 0 then [] else [index]

/-- GET_MEASUREMENTS: signed. -/
def execGetMeasurements (index : Nat) (nonce : BitVec 256) (s : State) : Out :=
  spdmAt 3 (fun s =>
    if 5 < index ∧ index ≠ 0xFF then spdmError 0x01 s
    else
      let blocks := (measurementIndexes index).flatMap fun i => measurementBlock i s
      spdmSigned 0x60 (spdmMsg 0x12 0xE0 1 index (beBytes 32 nonce.toNat ++ [0]))
        (spdmMsg 0x12 0x60 (if index = 0 then 5 else 0) 0
          ([BitVec.ofNat 8 (measurementIndexes index).length] ++ leBytes 3 blocks.length ++ blocks ++ spdmNonce s ++ leBytes 2 0)) s) s

end Sys2Proof.Machine
end

