-- ==== Sys2Proof/Machine/Dispatch.lean ====
section
/-!
DEFINITION. The dispatch of a command to its meaning: one arm per constructor of `Instr`.
-/

namespace Sys2Proof.Machine

/-- The effect of a command on everything but the queue. -/
def exec (i : Instr) (s : State) : Host.Outcome State Fault Refusal :=
  match i with
  | .standbyStart mv => Sys2Proof.Machine.execStandbyStart mv s
  | .inputDip => Sys2Proof.Machine.execInputDip s
  | .inputLow mv => Sys2Proof.Machine.execInputLow mv s
  | .inputHigh mv => Sys2Proof.Machine.execInputHigh mv s
  | .overcurrent => Sys2Proof.Machine.execOvercurrent s
  | .presence => Sys2Proof.Machine.execPresence s
  | .presenceStable => Sys2Proof.Machine.execPresenceStable s
  | .modResetN => Sys2Proof.Machine.execModResetN s
  | .sensorSample temps => Sys2Proof.Machine.execSensorSample temps s
  | .averagingSecond r => Sys2Proof.Machine.execAveragingSecond r s
  | .assign dst a crc => Sys2Proof.Machine.execAssign dst a crc s
  | .token dst crc => Sys2Proof.Machine.execToken dst crc s
  | .clear dst crc => Sys2Proof.Machine.execClear dst crc s
  | .powerOn dst crc => Sys2Proof.Machine.execPowerOn dst crc s
  | .powerOff dst crc => Sys2Proof.Machine.execPowerOff dst crc s
  | .setTerminal dst v crc => Sys2Proof.Machine.execSetTerminal dst v crc s
  | .seconds dst sec crc => Sys2Proof.Machine.execSeconds dst sec crc s
  | .statusReq dst crc => Sys2Proof.Machine.execStatusReq dst crc s
  | .regRd dst off crc => Sys2Proof.Machine.execRegRd dst off crc s
  | .regWr dst off data crc => Sys2Proof.Machine.execRegWr dst off data crc s
  | .railsGood => Sys2Proof.Machine.execRailsGood s
  | .railFail rail => Sys2Proof.Machine.execRailFail rail s
  | .selftestDone fuseBad sramBad blown => Sys2Proof.Machine.execSelftestDone fuseBad sramBad blown s
  | .imageVerified readOk => Sys2Proof.Machine.execImageVerified readOk s
  | .loadChecks => Sys2Proof.Machine.execLoadChecks s
  | .hbmReady repaired failed => Sys2Proof.Machine.execHbmReady repaired failed s
  | .linkPortsUp => Sys2Proof.Machine.execLinkPortsUp s
  | .linkTimeout => Sys2Proof.Machine.execLinkTimeout s
  | .timeAcquire => Sys2Proof.Machine.execTimeAcquire s
  | .jobArm cancel => Sys2Proof.Machine.execJobArm cancel s
  | .jobCancel => Sys2Proof.Machine.execJobCancel s
  | .jobFix => Sys2Proof.Machine.execJobFix s
  | .epochStart => Sys2Proof.Machine.execEpochStart s
  | .sync port origin head twoStep => Sys2Proof.Machine.execSync port origin head twoStep s
  | .delayReq port requester head => Sys2Proof.Machine.execDelayReq port requester head s
  | .delayResp port rxTime head => Sys2Proof.Machine.execDelayResp port rxTime head s
  | .announce port a => Sys2Proof.Machine.execAnnounce port a s
  | .syncInterval port => Sys2Proof.Machine.execSyncInterval port s
  | .delayReqInterval => Sys2Proof.Machine.execDelayReqInterval s
  | .announceInterval => Sys2Proof.Machine.execAnnounceInterval s
  | .syncLoss => Sys2Proof.Machine.execSyncLoss s
  | .announceReceiptTimeout => Sys2Proof.Machine.execAnnounceReceiptTimeout s
  | .ppsEdge errPs => Sys2Proof.Machine.execPpsEdge errPs s
  | .ppsMissing => Sys2Proof.Machine.execPpsMissing s
  | .holdoverLimit => Sys2Proof.Machine.execHoldoverLimit s
  | .holdOk => Sys2Proof.Machine.execHoldOk s
  | .timeOutMark => Sys2Proof.Machine.execTimeOutMark s
  | .timeOutMarkEnd => Sys2Proof.Machine.execTimeOutMarkEnd s
  | .pourBoundary => Sys2Proof.Machine.execPourBoundary s
  | .gateArm cancel => Sys2Proof.Machine.execGateArm cancel s
  | .gateCancel => Sys2Proof.Machine.execGateCancel s
  | .slotSwArm slot cancel => Sys2Proof.Machine.execSlotSwArm slot cancel s
  | .slotSwCancel => Sys2Proof.Machine.execSlotSwCancel s
  | .orderedQuench => Sys2Proof.Machine.execOrderedQuench s
  | .snapshot chain w => Sys2Proof.Machine.execSnapshot chain w s
  | .fvSnapCtl view w => Sys2Proof.Machine.execFvSnapCtl view w s
  | .idxDataRead chain => Sys2Proof.Machine.execIdxDataRead chain s
  | .idxDataWrite chain w => Sys2Proof.Machine.execIdxDataWrite chain w s
  | .readClear addr size => Sys2Proof.Machine.execReadClear addr size s
  | .registerWrite addr size w => Sys2Proof.Machine.execRegisterWrite addr size w s
  | .timeRead => Sys2Proof.Machine.execTimeRead s
  | .powerFine mw mv ma peakMw busMv => Sys2Proof.Machine.execPowerFine mw mv ma peakMw busMv s
  | .measRead => Sys2Proof.Machine.execMeasRead s
  | .fuseSvc => Sys2Proof.Machine.execFuseSvc s
  | .fuseLock => Sys2Proof.Machine.execFuseLock s
  | .fuseDebugOff => Sys2Proof.Machine.execFuseDebugOff s
  | .fuseKeyset => Sys2Proof.Machine.execFuseKeyset s
  | .ledgerRead => Sys2Proof.Machine.execLedgerRead s
  | .shakeout => Sys2Proof.Machine.execShakeout s
  | .flashCopy => Sys2Proof.Machine.execFlashCopy s
  | .bootPref => Sys2Proof.Machine.execBootPref s
  | .badOp op => Sys2Proof.Machine.execBadOp op s
  | .fuseProgrammed => Sys2Proof.Machine.execFuseProgrammed s
  | .flashCopyDone => Sys2Proof.Machine.execFlashCopyDone s
  | .shakeoutDone => Sys2Proof.Machine.execShakeoutDone s
  | .hostLinkUp => Sys2Proof.Machine.execHostLinkUp s
  | .perstN => Sys2Proof.Machine.execPerstN s
  | .cxlMemRead addr len upsets => Sys2Proof.Machine.execCxlMemRead addr len upsets s
  | .cxlMemWrite addr data enables upsets => Sys2Proof.Machine.execCxlMemWrite addr data enables upsets s
  | .getVersion => Sys2Proof.Machine.execGetVersion s
  | .getCapabilities => Sys2Proof.Machine.execGetCapabilities s
  | .negotiateAlgorithms sm2 sm3 => Sys2Proof.Machine.execNegotiateAlgorithms sm2 sm3 s
  | .getDigests => Sys2Proof.Machine.execGetDigests s
  | .getCertificate slot offset len => Sys2Proof.Machine.execGetCertificate slot offset len s
  | .challenge slot nonce => Sys2Proof.Machine.execChallenge slot nonce s
  | .getMeasurements index nonce => Sys2Proof.Machine.execGetMeasurements index nonce s
  | .lightDetected port => Sys2Proof.Machine.execLightDetected port s
  | .equalizeDone port => Sys2Proof.Machine.execEqualizeDone port s
  | .alignDone port skewNs => Sys2Proof.Machine.execAlignDone port skewNs s
  | .fecLock port => Sys2Proof.Machine.execFecLock port s
  | .width port cw => Sys2Proof.Machine.execWidth port cw s
  | .key port cw => Sys2Proof.Machine.execKey port cw s
  | .nonce port cw own => Sys2Proof.Machine.execNonce port cw own s
  | .echo port cw netRoundTrip => Sys2Proof.Machine.execEcho port cw netRoundTrip s
  | .credit port cw => Sys2Proof.Machine.execCredit port cw s
  | .ready port cw => Sys2Proof.Machine.execReady port cw s
  | .trainingStepFail port => Sys2Proof.Machine.execTrainingStepFail port s
  | .lossOfLight port => Sys2Proof.Machine.execLossOfLight port s
  | .uncorrectableLimit port codewords => Sys2Proof.Machine.execUncorrectableLimit port codewords s
  | .retrainTimeout port => Sys2Proof.Machine.execRetrainTimeout port s
  | .downRetry port => Sys2Proof.Machine.execDownRetry port s
  | .ack port cw => Sys2Proof.Machine.execAck port cw s
  | .nak port cw => Sys2Proof.Machine.execNak port cw s
  | .replay port cw => Sys2Proof.Machine.execReplay port cw s
  | .cwClear port cw => Sys2Proof.Machine.execCwClear port cw s
  | .escape port cw => Sys2Proof.Machine.execEscape port cw s
  | .nakResend port => Sys2Proof.Machine.execNakResend port s
  | .ackTimeout port => Sys2Proof.Machine.execAckTimeout port s
  | .packetHeader port hdr => Sys2Proof.Machine.execPacketHeader port hdr s
  | .packetForward port => Sys2Proof.Machine.execPacketForward port s
  | .packetTrailer port payload trailer fecCorrected fecUncorrectable => Sys2Proof.Machine.execPacketTrailer port payload trailer fecCorrected fecUncorrectable s
  | .write port => Sys2Proof.Machine.execWrite port s
  | .read port => Sys2Proof.Machine.execRead port s
  | .readData port => Sys2Proof.Machine.execReadData port s
  | .completion port => Sys2Proof.Machine.execCompletion port s
  | .notice port => Sys2Proof.Machine.execNotice port s
  | .contrib port => Sys2Proof.Machine.execContrib port s
  | .egressSelect turn => Sys2Proof.Machine.execEgressSelect turn s
  | .reorderTimeout port => Sys2Proof.Machine.execReorderTimeout port s
  | .mcastHeadDepart bay cls => Sys2Proof.Machine.execMcastHeadDepart bay cls s
  | .ringEntry ring ccw bay => Sys2Proof.Machine.execRingEntry ring ccw bay s
  | .postRelease st => Sys2Proof.Machine.execPostRelease st s
  | .queueRelease q => Sys2Proof.Machine.execQueueRelease q s
  | .flowletSweep => Sys2Proof.Machine.execFlowletSweep s
  | .poolWindow upsets => Sys2Proof.Machine.execPoolWindow upsets s
  | .unscheduledAccess stack upsets => Sys2Proof.Machine.execUnscheduledAccess stack upsets s
  | .refreshWindow stack due upsets => Sys2Proof.Machine.execRefreshWindow stack due upsets s
  | .captureRecord die => Sys2Proof.Machine.execCaptureRecord die s
  | .replayRecord => Sys2Proof.Machine.execReplayRecord s
  | .lineEntry st qend => Sys2Proof.Machine.execLineEntry st qend s
  | .lineDepart st => Sys2Proof.Machine.execLineDepart st s
  | .ownedSlotPass ring ccw entry => Sys2Proof.Machine.execOwnedSlotPass ring ccw entry s
  | .signalArrival => Sys2Proof.Machine.execSignalArrival s
  | .waitExpired st => Sys2Proof.Machine.execWaitExpired st s
  | .instructionResult st => Sys2Proof.Machine.execInstructionResult st s
  | .engineCompletion st => Sys2Proof.Machine.execEngineCompletion st s
  | .nop st => Sys2Proof.Machine.execNop st s
  | .halt st => Sys2Proof.Machine.execHalt st s
  | .atClk st => Sys2Proof.Machine.execAtClk st s
  | .jmp st => Sys2Proof.Machine.execJmp st s
  | .bnz st => Sys2Proof.Machine.execBnz st s
  | .bz st => Sys2Proof.Machine.execBz st s
  | .loop st => Sys2Proof.Machine.execLoop st s
  | .li st => Sys2Proof.Machine.execLi st s
  | .lui st => Sys2Proof.Machine.execLui st s
  | .add st => Sys2Proof.Machine.execAdd st s
  | .sub st => Sys2Proof.Machine.execSub st s
  | .and st => Sys2Proof.Machine.execAnd st s
  | .or st => Sys2Proof.Machine.execOr st s
  | .xor st => Sys2Proof.Machine.execXor st s
  | .shl st => Sys2Proof.Machine.execShl st s
  | .shr st => Sys2Proof.Machine.execShr st s
  | .sar st => Sys2Proof.Machine.execSar st s
  | .mul st => Sys2Proof.Machine.execMul st s
  | .slt st => Sys2Proof.Machine.execSlt st s
  | .sltu st => Sys2Proof.Machine.execSltu st s
  | .addi st => Sys2Proof.Machine.execAddi st s
  | .ld st => Sys2Proof.Machine.execLd st s
  | .st st => Sys2Proof.Machine.execSt st s
  | .mv st => Sys2Proof.Machine.execMv st s
  | .post st => Sys2Proof.Machine.execPost st s
  | .rdt st => Sys2Proof.Machine.execRdt st s
  | .bcPick st => Sys2Proof.Machine.execBcPick st s
  | .vadd st => Sys2Proof.Machine.execVadd st s
  | .vsub st => Sys2Proof.Machine.execVsub st s
  | .vmul st => Sys2Proof.Machine.execVmul st s
  | .vfma st => Sys2Proof.Machine.execVfma st s
  | .vmax st => Sys2Proof.Machine.execVmax st s
  | .vmin st => Sys2Proof.Machine.execVmin st s
  | .vsel st => Sys2Proof.Machine.execVsel st s
  | .vcmp st => Sys2Proof.Machine.execVcmp st s
  | .vbc st => Sys2Proof.Machine.execVbc st s
  | .vsum st => Sys2Proof.Machine.execVsum st s
  | .vcvt st => Sys2Proof.Machine.execVcvt st s
  | .vld st => Sys2Proof.Machine.execVld st s
  | .vst st => Sys2Proof.Machine.execVst st s
  | .crOpen st => Sys2Proof.Machine.execCrOpen st s
  | .crFeed st => Sys2Proof.Machine.execCrFeed st s
  | .crEmit st => Sys2Proof.Machine.execCrEmit st s
  | .crClose st => Sys2Proof.Machine.execCrClose st s
  | .contribLineTake st qend => Sys2Proof.Machine.execContribLineTake st qend s
  | .deadlineDecision inst => Sys2Proof.Machine.execDeadlineDecision inst s
  | .noticeSend port => Sys2Proof.Machine.execNoticeSend port s
  | .rdLoad st => Sys2Proof.Machine.execRdLoad st s
  | .rdRun st => Sys2Proof.Machine.execRdRun st s
  | .laMode st => Sys2Proof.Machine.execLaMode st s
  | .laWalkMap st => Sys2Proof.Machine.execLaWalkMap st s
  | .laWalkPass st => Sys2Proof.Machine.execLaWalkPass st s
  | .laWalkMerge st => Sys2Proof.Machine.execLaWalkMerge st s
  | .laWalkSkim st => Sys2Proof.Machine.execLaWalkSkim st s
  | .moWload st => Sys2Proof.Machine.execMoWload st s
  | .moMac st => Sys2Proof.Machine.execMoMac st s
  | .moDrain st => Sys2Proof.Machine.execMoDrain st s
  | .soRunSort st => Sys2Proof.Machine.execSoRunSort st s
  | .soRunLoad st => Sys2Proof.Machine.execSoRunLoad st s
  | .soMerge st => Sys2Proof.Machine.execSoMerge st s
  | .soTopk st => Sys2Proof.Machine.execSoTopk st s
  | .soSpill st => Sys2Proof.Machine.execSoSpill st s
  | .mrRd st upsets => Sys2Proof.Machine.execMrRd st upsets s
  | .mrWr st => Sys2Proof.Machine.execMrWr st s
  | .mrGather st upsets => Sys2Proof.Machine.execMrGather st upsets s
  | .piTake st => Sys2Proof.Machine.execPiTake st s
  | .peSend st => Sys2Proof.Machine.execPeSend st s
  | .standbyStop => Sys2Proof.Machine.execStandbyStop s
  | .extendedRange mv => Sys2Proof.Machine.execExtendedRange mv s
  | .reservedCtype port cw => Sys2Proof.Machine.execReservedCtype port cw s
  | .doeDiscovery index => Sys2Proof.Machine.execDoeDiscovery index s
  | .tableAccess entry => Sys2Proof.Machine.execTableAccess entry s

end Sys2Proof.Machine
end

