-- ==== Sys2Proof/Machine/Crossbar.lean ====
section
/-!
DEFINITION. Unscheduled traffic at the crossbars: outputs that serve waiting inputs in rotation (R156), and what happens when a packet is
through (R155, R162, R172, R176, R346).
-/

namespace Sys2Proof.Machine

/-- The bay of a crossbar output. -/
def outBay (out : Nat) : Nat := if out < 4096 then out / 256 else (out - 4096) % 16

/-- A line that leaves its station's end for an owned slot in this clk goes through the output to a ring stop. -/
def ownedCrosses (s : State) (key : Nat) : Bool :=
  s.stations.any fun x => x.1 / 256 == key % 16 && (List.range 8).any fun i =>
    let q := qcfg s x.1 (i + 8)
    isRing s x.1 (i + 8) && fld q 46 44 == key / 32 && fld q 43 43 == key / 16 % 2 &&
    (endLines s x.1 (i + 8)).any fun l => l.slotClk == some s.clk

/-- The output carries scheduled data in this clk (R156). -/
def outputBusy (s : State) (out : Nat) : Bool :=
  if 4096 ≤ out then ownedCrosses s (out - 4096)
  else s.fab.claims.any (fun c => c.1 == out) || (ringArrivals s).any fun f => f.station == out

/-- An input's slot that unscheduled outputs carry in a clk: bay, input, packet and slot. One slot may go to several outputs. -/
structure UsedInput where
  bay : Nat
  input : Nat
  pkt : Packet
  slot : Nat
  deriving DecidableEq, Repr

/-- The input carries scheduled data in this clk. -/
def inputBusy (s : State) (bay input : Nat) : Bool :=
  s.fab.claims.any (fun c => c.2 == 256 * bay + input) ||
    (ringArrivals s).any fun f => bayOf f.station == bay && (match f.src with | some (k, _, _) => 256 + k == input | none => false)

/-- The packets that an output can serve: of each input the first, its next slot here and the input free. -/
def servable (s : State) (used : List UsedInput) (out : Nat) : List Crossing :=
  let ws := (tget .reset s.fab.xbar out).waiting
  ws.filter fun c =>
    (match c.got with | t :: _ => decide (t ≤ s.clk) | [] => false) &&
    ws.find? (fun d => d.input == c.input) == some c && !inputBusy s (outBay out) c.input &&
    used.all fun u => u.bay != outBay out || u.input != c.input || (u.pkt == c.q.pkt && u.slot == c.sent)

/-- The input that follows the one served last, in crossbar order (R156). -/
def nextServed (last : Nat) (cs : List Crossing) : Option Crossing :=
  cs.foldl (fun b c => match b with
    | none => some c
    | some x => if (c.input + 511 - last) % 512 < (x.input + 511 - last) % 512 then some c else some x) none

/-- An output carries a slot; with the last the packet is through, 8 clk from what lies behind it (R155). -/
def carrySlot (out : Nat) (c : Crossing) (s : State) : State :=
  let through := c.sent + 1 == slotsOf c.q.pkt.hdr
  let s := s.setFab fun f => { f with xbar := tmod .reset f.xbar out fun o =>
    { o with last := c.input
             waiting := if through then o.waiting.erase c else o.waiting.replace c { c with got := c.got.tail, sent := c.sent + 1 } } }
  if through then s.setFab fun f => { f with landings := f.landings ++ [{ due := s.clk + 8, out := out, q := c.q }] } else s

/-- One output's turn in the running clk. -/
def serveOutput (u : List UsedInput × State) (out : Nat) : List UsedInput × State :=
  if outputBusy u.2 out then u
  else match nextServed (tget .reset u.2.fab.xbar out).last (servable u.2 u.1 out) with
    | some c => ({ bay := outBay out, input := c.input, pkt := c.q.pkt, slot := c.sent } :: u.1, carrySlot out c u.2)
    | none => u

/-- Every output with waiting packets has its turn. -/
def serveCrossbars (s : State) : State :=
  (((s.fab.xbar.filter fun e => !e.2.waiting.isEmpty).map (·.1)).foldl serveOutput ([], s)).2

/-! ### A packet is through -/

/-- A packet for a station of this module is there: the queue of a port's packets, or the module's own. -/
def reachStation (q : QPkt) (s : State) : State :=
  match q.pkt.inPort with
  | some p =>
    (poolPush (deliveryKey (hDstStation q.pkt.hdr / 256) q.pkt.hdr) q.cells s).setPort p.toNat fun x => { x with inbox := x.inbox ++ [q] }
  | none => deliverOwn q s

/-- What lies behind an output takes a packet: a ring stop, a station, an egress queue, a transmit buffer. -/
def land (l : Landing) (s : State) : State :=
  if 4096 ≤ l.out then s.setStop (l.out - 4096) fun x => { x with waiting := x.waiting ++ [l.q] }
  else match l.q.goal with
    | .egress => enqueueEgress (l.q.targets.headD 0) l.q s
    | .copy => copyTo (l.q.targets.headD 0) l.q s
    | .station _ => reachStation l.q s
    | .forward a => forwardLands a.toNat l.q s

/-- Every packet whose clk has come. -/
def landDue (s : State) : State :=
  let due := s.fab.landings.filter fun l => decide (l.due ≤ s.clk)
  if due.isEmpty then s
  else each due land (s.setFab fun f => { f with landings := f.landings.filter fun l => !decide (l.due ≤ s.clk) })

end Sys2Proof.Machine
end

