-- ==== Sys2Proof/Machine/Tick.lean ====
section
/-!
DEFINITION. The passing of one clk with no command waiting: engines at work, arrivals at the crossbar, counts of clk, refills of buckets,
fabric time (log entry 8).
-/

namespace Sys2Proof.Machine

/-! ### The end of a clk -/

/-- Stations with unfinished engine instructions or results to come, the Moulds first, since a Mould takes what a Ladle's path holds before
the Ladle adds to it. -/
def engineStations (s : State) : List Nat :=
  let busy := (s.stations.filter fun e => !e.2.ops.isEmpty || !e.2.results.isEmpty).map (·.1)
  busy.filter (fun a => kindOf a == 5) ++ busy.filter fun a => kindOf a != 5

/-- A packet that only credit keeps from going. -/
def lacksCredit (s : State) (p : Nat) (q : QPkt) : Bool :=
  gateAllows s p none q.pkt.hdr && windowAllows s p q.pkt.hdr && !creditAllows s p q.pkt.hdr

/-- credit_stall: a packet of a VC was ready in this clk but lacked credit: the head of its queue, or a copy in the transmit buffer (R186). -/
def countStall (p i c : Nat) (s : State) : State :=
  let head := match firstHead (headsOf s p c) with
    | some (.unicast, q) => lacksCredit s p q && bucketAllows s p c q.pkt.hdr
    | _ => false
  let copy := match bufferFirst s p c with | some q => lacksCredit s p q | none => false
  if (s.port p).carrying && (head || copy) then bumpPort p (50 + i) 1 s else s

/-- The counts of one port for the clk: throttled, stalled (R186). -/
def countPort (p : Nat) (s : State) : State :=
  let s := match throttle s p with | 0 => s | 1 => bumpPort p 56 1 s | _ => bumpPort p 57 1 s
  each (fromIndex' 0 [0, 1, 4, 5, 6, 7]) (fun e => countStall p e.1 e.2) s
where
  /-- Position and value pairs. -/
  fromIndex' (i : Nat) (l : List Nat) : List (Nat × Nat) := ((List.range l.length).map (i + ·)).zip l

/-- The counts of one ring stop for the clk: a packet waited, all four buffers full (R187). -/
def countStop (x : RingStop) : RingStop :=
  let c := if !x.waiting.isEmpty && 2 < x.transit.length then tmod 0 x.ctr 3 (satAdd 48 · 1) else x.ctr
  { x with ctr := if x.transit.length = 4 then tmod 0 c 4 (satAdd 48 · 1) else c }

/-- slack_used: a slack queue's end holds 32 lines (R211). -/
def countSlack (s : State) (a : Nat) (x : Station) : Station :=
  { x with slackUsed := (x.ends.filter fun e => isSlack s a e.1 && depthAt s a e.1 s.clk == 32).foldl (fun t e => tmod 0 t e.1 (satAdd 32 · 1)) x.slackUsed }

/-- reg_wait: a request of the stack waits on a regulator (R365). -/
def countWait (k : Nat) (s : State) : State :=
  if s.mem.waiting.any fun m => !m.admitted && stackOf m.addr == k then stackCtr k 6 1 48 s else s

/-- The counts of the clk. -/
def countClk (s : State) : State :=
  let s := each ((List.range 256).filter s.portUp) countPort s
  let s := s.setFab fun f => { f with stops := f.stops.map fun e => (e.1, countStop e.2) }
  let s := { s with stations := s.stations.map fun e => (e.1, noteHwm s.clk (countSlack s e.1 e.2)) }
  each (List.range 8) countWait s

/-! ### The start of the next clk -/

/-- A bucket gains its rate up to its burst, in 2^-10 byte (R196, R198). -/
def refill (rate burst v : Nat) : Nat := min (v + rate) (1024 * burst)

/-- The buckets of classes 0 and 1 of a port. -/
def refillPort (s : State) (p : Nat) (x : Port) : Port :=
  { x with bucket := [0, 1].foldl (fun t c =>
      if fld (shapeOf s p c) 16 0 = 0 then t else tmod 0 t c (refill (fld (shapeOf s p c) 16 0) (fld (shapeOf s p c) 59 40))) x.bucket }

/-- A policer's bucket. -/
def refillPolicer (s : State) (k : Nat) (x : Policer) : Policer :=
  let c := polCfg s k
  if bit c 63 then { x with tokens := refill (fld c 55 32) (fld c 27 0) x.tokens } else x

/-- The start tags of classes whose gate is closed are gone (R197). -/
def closeAllTags (s : State) : State := { s with ports := s.ports.map fun e => (e.1, closeTags s e.1 e.2) }

/-- In RUN, the flowlet clock and every bucket advance. -/
def refillAll (s : State) : State :=
  if s.running then
    { s with
      fab := { s.fab with flowClk := (s.fab.flowClk + 1) % 2 ^ 32 }
      ports := s.ports.map (fun e => (e.1, refillPort s e.1 e.2))
      policers := s.policers.map fun e => (e.1, refillPolicer s e.1 e.2) }
  else s

/-- Fabric time is counted by the main domain's oscillator: five ninths of a ns a clk (R19, R21). -/
def nextClk (s : State) : State := { s with clk := s.clk + 1, time := { s.time with now := s.time.now + 5 } }

/-- The traffic of one clk on crossbars and rings: unscheduled packets take what scheduled data leaves free (R156, R160). -/
def moveTraffic (s : State) : State := endCrossbarClk (moveRings (serveCrossbars s))

/-- The main domain's clk. -/
def mainTick (s : State) : State :=
  applyLater (slewTick (landDue (closeAllTags (refillAll (nextClk (countClk (moveTraffic (each (engineStations s) settle s))))))))

/-- One clk passes. -/
def tick (s : State) : State := if s.pwr.mainOn then mainTick s else { s with clk := s.clk + 1 }

end Sys2Proof.Machine
end

