-- ==== Sys2Proof/Safety.lean ====
section
/-!
DEFINITION. What counts as a safe state and a safe step, in the terms the statements use.
-/

namespace Sys2Proof.Machine

/-- The keys of a table rise strictly. -/
def rising {α : Type} : Tab α → Bool
  | [] => true
  | [_] => true
  | a :: b :: m => decide (a.1 < b.1) && rising (b :: m)

/-! ### The fuse array (R109, R110) -/

/-- A change that the array still allows: the setting named by an open record can take the record's value. -/
def Fuse.room (f : Fuse) (r : FuseRecord) : Prop :=
  match r.setting with
  | 1 => f.svc < r.newV ∧ r.newV ≤ 64
  | 2 => f.lock = 0 ∧ (r.newV = 2 ∨ r.newV = 3)
  | 3 => f.debugOff = false
  | 4 => f.keysetUsed < 3 ∧ r.newV ≤ 3
  | _ => f.terminalUsed < 8

/-- A fuse array that the changes of R109 can leave: every count within its allowance, and an open record one that fits. -/
def Fuse.ok (f : Fuse) : Prop :=
  f.svc ≤ 64 ∧ f.keysetUsed ≤ 3 ∧ f.terminalUsed ≤ 8 ∧ f.records.length ≤ 96 ∧
    ∀ r, f.opened = some r → f.records.length < 96 ∧ f.room r

/-- Fuses are only ever blown: no count falls, a lock and the debug disable stay, the part, stepping and owner key stay, and the ledger
only grows (R95, R109). -/
structure Fuse.advances (f g : Fuse) : Prop where
  part : g.part = f.part
  stepping : g.stepping = f.stepping
  owner : g.ownerDigest = f.ownerDigest
  svc : f.svc ≤ g.svc
  lock : f.lock ≠ 0 → g.lock = f.lock
  debugOff : f.debugOff = true → g.debugOff = true
  keysetUsed : f.keysetUsed ≤ g.keysetUsed
  terminalUsed : f.terminalUsed ≤ g.terminalUsed
  records : f.records <+: g.records

/-! ### Terms of the statements -/

/-- The state once the main domain has turned off with a cause: every main-domain group at its reset value, the lasers dark, and only the
queue, the clk, the fuses, the flash contents, the chain address and the standby domain's record `pwr` standing; `sent` is what the module
sent first. -/
def poweredOff (cause : Nat) (sent : List Emit) (pwr : Power) (s : State) : State :=
  { State.reset with
    pending := s.pending, clk := s.clk, fuse := s.fuse, flash := { s.flash with copying := none }
    pwr := { pwr with mainOn := false, lastDown := cause, downSample := some (s.clk / 180), timeOut := false }
    chain := { Chain.reset with addr := s.chain.addr, repeating := s.chain.repeating }, out := .dark :: (sent ++ s.out) }

/-- A frame of the tray controller with a correct CRC reaches the standby domain (R427). -/
def received (s : State) (dst : BitVec 8) (code : Nat) (payload : List Byte) (crc : BitVec 16) : Prop :=
  s.pwr.standbyOn = true ∧ crc = crc16 (frameBytes dst code payload)

/-- What an open repeater sends on for a frame (R90, R91). -/
def relayed (s : State) (dst : BitVec 8) (code : Nat) (payload : List Byte) : List Emit :=
  if s.chain.repeating then [.chainDown dst code payload] else []

/-- The PRESENT frame: grade and terminal role (R428). -/
def present (s : State) (addr : BitVec 8) : Emit :=
  .chainUp addr 0x81 (beBytes 2 s.fuse.part.toNat ++ [if s.fuse.terminal then 1 else 0])

/-- A time from its seconds and nanoseconds registers is a pour boundary of the running job that lies after the next one (R50). -/
def boundaryAhead (s : State) (sec : BitVec 48) (ns : BitVec 32) : Prop :=
  ns.toNat ≤ 999999999 ∧ s.job.e0 ≤ sec.toNat * 1000000000 + ns.toNat ∧
  (sec.toNat * 1000000000 + ns.toNat - s.job.e0) % (5 * s.pourLen) = 0 ∧ s.nextBoundary < sec.toNat * 1000000000 + ns.toNat

/-- The readings, warnings and trip of a sample without a critical sensor stand (R85, R86). -/
def sampled (temps : List Int) (trip : Bool) (group : Nat) (s : State) : State :=
  { s with pwr := { s.pwr with
      sensors := (readings s temps).map (fun e => (e.1, min e.2.toNat 255)), critical := false
      warnMask := warnMaskOf (readings s temps) s.pwr.warnMask, trip := trip, tripGroup := group } }

/-- The averages of a second (R68, R69). -/
def averaged (r : SecondReadings) (p : Power) : Power :=
  { p with power10w := min (r.powerMw / 10000) 0xFFF, vinQ := min (r.vinMv / 250) 0xFF, valid := true }

/-- A direct register whose read changes nothing: not IDX_DATA, not the RC word INJ_CNT, and no word of the pattern, whose parity a read
checks. -/
def plainRegister (s : State) (key : Nat) : Prop := key < 2 ^ 32 ∧ key ≠ 0x108 ∧ key ≠ 0x5_0030 ∧ tget? s.cfg key = none

/-- The same of a word reached through the indirect pair: no word of the pattern, no table of the pattern and no RC word. -/
def plainIndirect (s : State) (key : Nat) : Prop :=
  2 ^ 32 ≤ key ∧ key < ikey 3 0 ∧ injCountPort key = none ∧ tget? s.cfg key = none

/-- The host can start a mailbox command: the main domain is on and no command runs (R419). -/
def mailboxIdle (s : State) : Prop := s.pwr.mainOn = true ∧ s.host.mbBusy = false

/-- A mailbox command has ended: its status and op stand, its results have overwritten the first data words, nothing else has changed
(R418, R419). -/
def mailboxAnswers (op code : Nat) (ws : List Word) (s t : State) : Prop :=
  t = { s with host := { s.host with mbValid := true, mbBusy := false, mbCode := code, mbOp := op, mbData := t.host.mbData } } ∧
  ∀ i, tget 0 t.host.mbData i = (ws[i]?).getD (tget 0 s.host.mbData i)

/-- The fuse controller has opened the record of a change that a mailbox command began; the command goes on (R111). -/
def changeBegins (op setting newV : Nat) (s t : State) : Prop :=
  t = { s with
    host := { s.host with mbValid := false, mbBusy := true, mbOp := op }
    fuse := { s.fuse with opened := some (newRecord setting newV s), byChain := false, busy := true } }

/-- A fuse command of the mailbox waits for its change (R110, R419). -/
def mailboxWaits (s : State) : Bool :=
  !s.fuse.byChain && s.host.mbBusy && decide (0x41 ≤ s.host.mbOp) && decide (s.host.mbOp ≤ 0x44)

/-- No change is under way and the fuse ledger has room (R110, R111). -/
def ledgerOpen (s : State) : Prop := s.fuse.opened = none ∧ s.fuse.records.length < 96

/-- The module fails: phase FAILED, the cause recorded unless one stands, the elapsed time frozen, the lanes dark (R88, R89, R444). -/
def failsWith (code unit : Nat) (s t : State) : Prop :=
  t = { s with
    boot := { (recordCause code unit s).boot with phase := .failed, elapsedFrozen := some s.elapsedMs }
    out := .dark :: s.out }

/-- RUN has been entered at E0: pour 0 of slot 0 begins (R106). -/
def runBegun (s : State) : State :=
  { s with
    boot := { s.boot with phase := .run, elapsedFrozen := some s.elapsedMs }
    job := { s.job with jobState := .done, pour := 0, slot := 0, pourClk := s.clk - (s.time.now - 9 * s.job.e0) / 5 } }

/-- A measured offset has been taken: in LOCKED or HOLDOVER, at 20 ns or less or larger in RUN; in FREE or ACQUIRE; in LOST (R29, R45,
R48). -/
def offsetTaken (ps : Int) (source : Nat) (s t : State) : Prop :=
  (s.time.state = .locked ∨ s.time.state = .holdover →
    (ps.natAbs ≤ 10000 → t = { s with
      time := { s.time with
        state := .locked, offsetPs := ps, slew := none, lastValid := s.clk, source := source
        lockClk := if s.time.state = .locked then s.time.lockClk else s.clk
        holdOk := if s.time.state = .locked then s.time.holdOk else false }
      pwr := { s.pwr with maxOffset := max s.pwr.maxOffset ps.natAbs } }) ∧
    (10000 < ps.natAbs → ps.natAbs ≤ 20000 → t = { s with
      time := { s.time with
        state := .holdover, offsetPs := ps, slew := some (s.clk, ps.natAbs), lastValid := s.clk, source := source }
      pwr := { s.pwr with maxOffset := max s.pwr.maxOffset ps.natAbs } }) ∧
    (20000 < ps.natAbs → s.boot.phase = .run → t = { s with
      time := { s.time with state := .lost, offsetPs := 0, slew := none, lastValid := s.clk, source := source }
      job := { s.job with quenchDue := s.job.quenchDue ++ [(s.clk, 0x36, 0)] } })) ∧
  (s.time.state = .free ∨ s.time.state = .acquire →
    (ps.natAbs ≤ 10000 → consecutive source s < 63 → t = { s with
      time := { s.time with state := .acquire, source := source, lastValid := s.clk, good := consecutive source s + 1 } }) ∧
    (ps.natAbs ≤ 10000 → consecutive source s = 63 → t = { s with
      time := { s.time with
        state := .locked, source := source, lastValid := s.clk, good := 64, lockClk := s.clk, holdOk := false, offsetPs := ps }
      boot := { s.boot with phase := if s.boot.phase = .time then .epoch else s.boot.phase } }) ∧
    (10000 < ps.natAbs → t = { s with
      time := { s.time with
        state := .acquire, source := source, lastValid := s.clk, good := 0, now := ((s.time.now : Int) - ps * 9 / 1000).toNat } })) ∧
  (s.time.state = .lost → t = s)

/-- The source can still return: the holdover limit has not been reached (R47). -/
def sourceAccepted (s : State) : Prop := s.limitReached = false ∧ s.job.limitHit = false

/-- A source is lost: LOCKED becomes HOLDOVER, a slew ends, intervals counted in ACQUIRE are no longer consecutive (R29, R45). -/
def withoutSource (t : TimeKeeper) : TimeKeeper :=
  match t.state with
  | .locked => { t with state := .holdover }
  | .holdover => { t with slew := none }
  | _ => { t with good := 0 }

/-- A rejected or missing edge; the third in a row loses the source (R27, R29, R45). -/
def afterBadEdge (t : TimeKeeper) : TimeKeeper :=
  if 2 ≤ t.ppsBad then withoutSource { t with ppsBad := t.ppsBad + 1, good := if t.state = .acquire then 0 else t.good }
  else { t with ppsBad := t.ppsBad + 1, good := if t.state = .acquire then 0 else t.good }

/-- The clks kept of a port's Announce messages: this one and, of the same sender, the one before (R22). -/
def announceTimes (s : State) (p : Nat) (a : AnnounceData) : List Nat :=
  s.clk :: (if (tget? s.time.foreign p).any (fun b => b.sender == a.sender) then tget [] s.time.announceClks p else []).take 1

/-- The time injector does not act. -/
def timeInjectorOff (s : State) : Prop := injects s s.inj.time = false

/-- An SPDM response goes out, and request and response join the exchange (R435). -/
def spdmAnswers (code stage : Nat) (req resp : List Byte) (s t : State) : Prop :=
  t = { s with
    host := { s.host with spdm := stage, transcript := s.host.transcript ++ req ++ resp }
    out := .doe 1 code resp :: s.out }

/-- An SPDM ERROR goes out and nothing else happens (R435). -/
def spdmRefuses (reason : Nat) (s : State) : Host.Outcome State Fault Refusal :=
  .next { s with out := .doe 1 0x7F (spdmMsg 0x12 0x7F reason 0 []) :: s.out }

/-- A TRAIN word with a good check and a step code arrives on a port that trains and stands at a step (R119, R120). -/
def trainWord (s : State) (port : PortNo) (cw : BitVec 128) (code step : Nat) : Prop :=
  cwValid cw = true ∧ cwType cw = 5 ∧ cwSeq cw = code ∧ trains s port.toNat = true ∧ (s.port port.toNat).step = step

/-- One part of step 5 has ended: with the third the port goes to step 6 and sends an ECHO word (R119, R120). -/
def partDone (port : PortNo) (b : BitVec 3) (s t : State) : Prop :=
  if (s.port port.toNat).handshake ||| b = 7 then
    t = { s.setPort port.toNat (fun x => { x with step := 6, handshake := 7 }) with
      out := .control port (mkCw 5 4 (echoValue s port.toNat * 2 ^ 32)) :: s.out }
  else t = s.setPort port.toNat fun x => { x with handshake := x.handshake ||| b }

/-- A training step has failed while LINK lasts: it is retried from step 1 (R119). -/
def stepFails (port : PortNo) (reason : Nat) (s t : State) : Prop :=
  t = s.setPort port.toNat fun x => { x with step := 1, handshake := 0, downReason := reason }

/-- A port that was UP re-trains with a reason; its session, an unfinished reception and its replay in progress are gone (R122, R123). -/
def retrains (port : PortNo) (reason : Nat) (s t : State) : Prop :=
  let x := t.port port.toNat
  x.state = .retrain ∧ x.downReason = reason ∧ x.step = 1 ∧ x.retrainClk = s.clk ∧ x.carrying = false ∧ x.session = none ∧ x.rx = none ∧
    x.replayQ.length = (s.port port.toNat).replayQ.length ∧ t.pwr.retrainClks = s.clk :: s.pwr.retrainClks ∧
    (s.boot.phase = .run → port.toNat ∈ t.ledger.downPorts ∧ t.ledger.slotDown = min (s.ledger.slotDown + 1) 0xFFFF) ∧
    t.boot = s.boot ∧ t.fuse = s.fuse ∧ t.time = s.time ∧ t.cfg = s.cfg ∧ t.mem = s.mem ∧ t.stations = s.stations

/-- The state after a port that was UP has left it for RETRAIN: what it was receiving is given up, the retrain is counted (R150) and kept with
its clk, and in RUN a link-down event is handled (R122, R123, R385). -/
def retrained (port : PortNo) (reason : Nat) (s : State) : State :=
  linkDown port.toNat (bumpPort port.toNat 9 1 (((dropRx port.toNat s).setPort port.toNat fun x =>
    { x with
      state := .retrain, downReason := reason, step := 1, handshake := 0, retrainClk := s.clk, carrying := false, replaying := none
      waitReplay := false, nakDue := false, cut := none, escaped := false, cleared := false, session := none, nonces := none }).setPwr fun w =>
    { w with retrainClks := s.clk :: w.retrainClks }))

/-- The state after a port whose replay buffer is empty has gone DOWN: an unfinished reception is given up and both sequences are 0 (R122). -/
def wentDown (port : PortNo) (reason : Nat) (s : State) : State :=
  poolPop (replayKey port.toNat) 0 ((dropRx port.toNat s).setPort port.toNat fun x =>
    { x with
      state := .down, downReason := reason, step := 0, handshake := 0, carrying := false, replayQ := [], replaying := none, txSeq := 0
      rxSeq := 0, waitReplay := false, nakCount := 0, nakDue := false, cut := none, escaped := false, cleared := false, downClk := s.clk })

/-- A control word of a type with a good check arrives at a packet boundary of an UP port, and its credits fit the counts (R131, R139). -/
def cwArrives (s : State) (port : PortNo) (cw : BitVec 128) (ctype : Nat) : Prop :=
  s.portUp port.toNat = true ∧ (s.port port.toNat).escaped = false ∧ (s.port port.toNat).rx = none ∧ cwValid cw = true ∧
    cwType cw = ctype ∧ ∀ v ∈ [0, 1, 4, 5, 6, 7], tget 0 (s.port port.toNat).credits v + cwCredit cw v ≤ 65535

/-- The credits of a control word have reached the sender: each count has grown by its field (R131). -/
def creditsTaken (x y : Port) (cw : BitVec 128) : Prop :=
  ∀ v, tget 0 y.credits v = tget 0 x.credits v + (if v ∈ [0, 1, 4, 5, 6, 7] then cwCredit cw v else 0)

/-- The queued packet of a request, answer or notice that a port has accepted for this module. -/
def firstAccepted (s : State) (p type : Nat) (q : QPkt) (rest : List QPkt) : Prop :=
  (s.port p).inbox = q :: rest ∧ hType q.pkt.hdr = type

/-- The port once its oldest accepted packet is taken. -/
def accepted (p : Nat) (rest : List QPkt) (s : State) : State := s.setPort p fun x => { x with inbox := rest }

/-- The reception that a header opens (R56, R128, R198). -/
def receptionOf (s : State) (p : Nat) (h : BitVec 256) (n : Nat) (ptp stale dross : Bool) : RxPacket :=
  { hdr := h, stampPour := s.job.pour, stampClk := s.pourOff, inClk := s.clk, stampHeat := s.job.heat, ident := s.fab.nextIdent
    ptp := ptp, stale := stale, dross := dross, bad := headerBad s p h, forwarded := false, count := n, early := false }

/-- The state once a port is receiving a packet. -/
def receiving (p : Nat) (r : RxPacket) (s : State) : State :=
  { s with fab := { s.fab with nextIdent := s.fab.nextIdent + 1 } }.setPort p fun x => { x with rx := some r }

/-- No configuration word is faulty and the injector plans no fault of one (R423, R453). -/
def wordsGood (s : State) : Prop := s.par.reload = [] ∧ s.par.bad = [] ∧ injects s s.inj.par = false

/-- The policer of a packet acts on it (R198, R200). -/
def isPoliced (s : State) (p : Nat) (h : BitVec 256) : Prop :=
  s.running = true ∧ bit (polCfg s (policerNo (portFlask s p) (hCls h))) 63 = true ∧ hCls h ≠ 2 ∧ hCls h ≠ 3

/-- What the policer of a packet makes of the state u after its header: its tokens, or its dross counts (R198, R199). -/
def afterPolicer (s : State) (p : Nat) (h : BitVec 256) (u : State) : State :=
  let k := policerNo (portFlask s p) (hCls h)
  let l := countedLen s p h
  if 1024 * l ≤ (s.policer k).tokens then u.setPolicer k fun y => { y with tokens := y.tokens - 1024 * l }
  else u.setPolicer k fun y => { y with packets := min (y.packets + 1) (2 ^ 48 - 1), bytes := min (y.bytes + l) (2 ^ 48 - 1) }

/-- The link counters of an accepted packet (R186). -/
def receivedCounts (p : Nat) (h : BitVec 256) (s : State) : State :=
  bumpPort p (24 + hCls h) (40 + payloadLen h) (bumpPort p (16 + hCls h) 1 s)

/-- Expected advances past the packet of count n, and a later ACK covers it (R134, R143). -/
def expectedAdvances (p n : Nat) (s : State) : State :=
  s.setPort p fun x => { x with rxSeq := (x.rxSeq + 1) % 65536, rxCount := n + 1, nakCount := 0 }

/-- The port may choose what to send: it is UP and carries traffic, nothing of an earlier packet is still to go, and nothing is in replay mode
(R118, R123, R192, R402). -/
def mayChoose (s : State) (p : Nat) : Prop :=
  s.portUp p = true ∧ (s.port p).busyUntil ≤ s.clk ∧ (s.port p).cut = none ∧ (s.port p).carrying = true ∧ s.replayMode = false

/-- An ACK word goes out as a filler: it acknowledges the last accepted packet and takes one clk (R118, R192). -/
def fillerSent (p : Nat) (s : State) : State :=
  (sendCw p 0 (((s.port p).rxSeq + 65535) % 65536) s).setPort p fun x => { x with busyUntil := s.clk + 1 }

/-- Nothing discards, corrupts, holds or copies a packet that is about to be sent (R152, R173, R392, R402). -/
def plainSend (s : State) (p : Nat) (h : BitVec 256) : Prop :=
  hType h ≠ 4 ∧ s.replayMode = false ∧ s.standby = false ∧ isCandidate s p (hCls h) = false ∧ bit (portTap s p) 5 = false

/-- A packet that the port's injector leaves alone (R152). -/
def untouched (s : State) (p : Nat) : Injected := { act := 0, link := false, sel := fld (injWord s p 0) 9 8, draw := 0 }

/-- The state from which a class is chosen: classes 4 and 5 have their start tags (R197). -/
def tagged (p : Nat) (ahead : Option Nat) (s : State) : State := fixTag p ahead 5 (fixTag p ahead 4 s)

/-- The classes in the order of R192. -/
def classOrder (p : Nat) (ahead : Option Nat) (s : State) : List Nat := [0, 1] ++ fairOrder (tagged p ahead s) p ++ [6, 7]

/-- Station `a` considers an instruction of an opcode in this clk, its wait holds in time, no configuration word is faulty, no injector
acts, and its engine has nothing to do now (R215, R220, R224, R423). -/
structure Issuable (u : State) (a code : Nat) : Prop where
  considered : considers u a = true
  opcode : opOf (wordAt u a) = code
  inTime : u.clk ≤ consideredSince u a + waitLimit u a
  holds : waitHolds u a (wordAt u a) = true
  sound : u.par.reload = [] ∧ u.par.bad = [] ∧ injects u u.inj.par = false
  notInjected : injects u u.inj.sched = false
  quiet : nextStep (u.station a).ops u.clk = none
  fresh : ∀ o ∈ (u.station a).ops, o.t ≠ u.clk

/-- What every issue does: the wait takes, the signal for issue fires, the sequencer goes on in the next clk (R215, R220, R221). -/
def issued (u : State) (a : Nat) : State :=
  advancePc a (fireSignal a (wordAt u a) false u.clk (u.station a).pc (takeWait a (u.station a).pc (wordAt u a) u))

/-- An instruction of a latency has issued with this effect; its completion signal is on its way (R219, R221). -/
def issuedWith (u : State) (a lat : Nat) (effect : State → State) : State :=
  fireSignal a (wordAt u a) true (u.clk + lat) (u.station a).pc (effect (issued u a))

/-- An instruction has issued whose scalar result reaches its register `lat` clk later; S0 discards it (R218, R219). -/
def yields (u : State) (a lat : Nat) (v : Word) : State :=
  issuedWith u a lat fun x =>
    if dOf (wordAt u a) % 8 = 0 then x
    else x.setStation a fun y => { y with results := y.results ++
      [{ due := u.clk + lat, issued := u.clk, place := (u.station a).pc, kind := .scalar (dOf (wordAt u a) % 8) v }] }

/-- The scalar operands a and b of the instruction at the pc. -/
def operandA (u : State) (a : Nat) : Word := scalarReg u a (aOf (wordAt u a) % 8)
def operandB (u : State) (a : Nat) : Word := scalarReg u a (bOf (wordAt u a) % 8)

/-- An instruction has issued that a violation suppresses (R230). -/
def suppressed (u : State) (a lat code : Nat) : State := issuedWith u a lat (violate a code (u.station a).pc)

/-- A lane operation has issued: its line, with the sideband of the first queue operand, reaches d 4 clk later (R219, R227). -/
def laneResult (u : State) (a : Nat) (f : Nat → BitVec 32) : State :=
  let w := wordAt u a
  issuedWith u a 4 fun v => putLine a (dOf w) (u.clk + 4) u.clk (u.station a).pc
    { bareLine (mapLanes f) with side := laneSide u a [aOf w, bOf w] } (popAll a u.clk [aOf w, bOf w] v)

/-- An operation of the instruction at the pc, with its operands as read at issue (R228). -/
def opHere (u : State) (a : Nat) (kind : EngineKind) (agenda : List (Nat × EngineStep)) (finish : Nat) : EngineOp :=
  { kind := kind, t := u.clk, word := wordAt u a, place := (u.station a).pc, sa := operandA u a, sb := operandB u a
    agenda := agenda, taken := [], finish := finish }

/-- An instruction has issued whose operation the engine now works on (R228). -/
def working (u : State) (a : Nat) (op : EngineOp) (also : State → State) : State :=
  engAdvance a (startOp a op (also (issued u a)))

/-- A station of a kind issues an instruction of an opcode now. -/
structure IssuesAs (u : State) (a code kind : Nat) : Prop where
  issuable : Issuable u a code
  station : kindOf a = kind

/-- Nothing but results can be due at a station: no signal has arrived and its engine has nothing to do (R219, R222, R228). -/
structure OnlyResults (s : State) (a : Nat) : Prop where
  signals : ∀ x ∈ s.fab.signals, s.clk < x.due
  kind : kindOf a ≠ 7
  engine : nextStep (s.station a).ops s.clk = none

/-- The signals that have arrived are gone, and a value is kept for waits of neighbours for 20 clk (R222). -/
def signalTaken (s : State) (key old due : Nat) : State :=
  { s with fab := { s.fab with signals := [], past := (due, key, old) :: s.fab.past.filter (fun e => decide (due < e.1 + 20)) } }

end Sys2Proof.Machine
end

