-- ==== Sys2Proof/WellFormed.lean ====
section
/-!
DEFINITION. Which operand values spell a command that can occur: the widths and lengths the manual gives what arrives from outside.
A port number, a station address, a queue end, a bay, a class, a ring and a stack carry their ranges in their types.
-/

namespace Sys2Proof

/-- A list of bytes is a packet payload: 16 to 4,096 bytes in units of 16 (R124). -/
def payloadOk (n : Nat) : Bool := n % 16 == 0 && decide (16 ≤ n) && decide (n ≤ 4096)

/-- The operands of a command lie in their ranges. -/
def Instr.wf : Instr → Bool
  | .sensorSample temps => temps.length == 76
  | .packetTrailer _ payload _ _ _ => payloadOk payload.length
  | .readClear addr size => (size == 4 || size == 8) && addr.toNat % size == 0
  | .registerWrite addr size _ => (size == 4 || size == 8) && addr.toNat % size == 0
  | .cxlMemRead addr len _ => addr.toNat % 64 == 0 && len == 64
  | .cxlMemWrite addr data _ _ => addr.toNat % 64 == 0 && data.length == 64
  | .hbmReady repaired _ => decide (repaired.length ≤ 8)
  | .announce _ a =>
    decide (a.domain < 256) && decide (a.priority1 < 256) && decide (a.clockClass < 256) && decide (a.accuracy < 256) &&
      decide (a.variance < 65536) && decide (a.priority2 < 256) && decide (a.stepsRemoved < 65536)
  | .sync _ _ head _ | .delayReq _ _ head | .delayResp _ _ head => decide (head.domain < 256) && decide (head.seqId < 65536)
  | .badOp op => !([0x01, 0x02, 0x10, 0x41, 0x42, 0x43, 0x44, 0x48, 0x50, 0x51, 0x52].contains op.toNat)
  | _ => true

end Sys2Proof
end

