-- ==== Sys2Proof/Certificates/Slice0/Obligations.lean ====
section
/-!
DEFINITION. The statements for the provers.
-/

section

open Sys2Proof Sys2Proof.Machine

/-- A step runs the command at the front of the queue. Rules: the block model's step. -/
def Obligations.StepRunsTheFrontCommand : Prop :=
  ∀ (s : State) (c : Instr) (rest : List Instr), s.pending = c :: rest → step s = exec c { s with pending := rest }

/-- Commands take no time and leave the queue; an idle step is one clk (the model's choice, log entry 8). Rules: log entry 8. That an idle
step is one clk is the model's choice. -/
def Obligations.OnlyIdleStepsPassTime : Prop :=
  (∀ (c : Instr) (s t : State), exec c s = .next t → t.clk = s.clk ∧ t.pending = s.pending) ∧
  (∀ s : State, s.pending = [] → ∃ t, step s = .next t ∧ t.clk = s.clk + 1 ∧ t.pending = [] ∧
    (s.pwr.mainOn = false → t = { s with clk := s.clk + 1 }))

/-- What State.reset holds, with the invariants of memory and fuses. Rules: R29, R38, R49, R87, R90, R104, R149, R215, R233, R421. Values the
spec leaves per unit are the model's (log entries 5, 6, 7). -/
def Obligations.ResetState : Prop :=
  let s := State.reset
  s.pending = [] ∧ s.pwr.standbyOn = false ∧ s.pwr.mainOn = false ∧ s.boot.phase = .standby ∧ s.chain.addr = 0 ∧ s.chain.repeating = false ∧
  s.time.state = .free ∧ s.job.jobState = .idle ∧ s.job.gateState = .idle ∧ s.job.slotState = .idle ∧ s.boot.faultCode = 0 ∧
  (∀ p, (s.port p).state = .disabled) ∧ (∀ a, (s.station a).seq = .idle ∧ (s.station a).pc = 0 ∧ (s.station a).flags = 0) ∧
  (∀ k, s.cfgw k = 0) ∧ s.ledger.heatRetracted = false ∧ s.ledger.committed = 0 ∧ s.ledger.retracted = 0 ∧ s.par.valid = false ∧
  s.inj.sched = 0 ∧ s.cap.running = false ∧ (∀ k, (s.stack k).ready = false) ∧
  s.mem.cells = [] ∧ Memory.wf s.mem.cells = true ∧ s.fuse.ok

/-- Every command whose operands can occur answers a next state. Rules: log entry 1. -/
def Obligations.WellFormedCommandsAnswer : Prop :=
  ∀ (c : Instr) (s : State), c.wf = true →
    (∀ port payload trailer fixed bad r, c = .packetTrailer port payload trailer fixed bad → (s.port port.toNat).rx = some r →
      payload.length = payloadLen r.hdr) →
    (∀ port line early, c = .packetHeader port ⟨line, early⟩ → s.portUp port.toNat = true → (s.port port.toNat).rx = none →
      (s.port port.toNat).waitReplay = false → (s.port port.toNat).cleared = false →
      hCrc (readHeader (s.port port.toNat) line).1 = headerCrc (readHeader (s.port port.toNat) line).1 →
      early.length = if earlyUse s port.toNat && scheduledClass (readHeader (s.port port.toNat) line).1
        then payloadLen (readHeader (s.port port.toNat) line).1 else 0) →
    ∃ t, exec c s = .next t

/-- Every step keeps the stacked memory in its canonical form. Rules: R343; the model's representation of memory (log entry 7). -/
def Obligations.MemoryStaysCanonical : Prop :=
  ∀ s t : State, Memory.wf s.mem.cells = true → step s = .next t → Memory.wf t.mem.cells = true

/-- Fuses are only ever blown and stay within their allowances, through every step. Rules: R95, R109, R110, R112. -/
def Obligations.FusesOnlyAdvance : Prop :=
  ∀ s t : State, s.fuse.ok → step s = .next t → t.fuse.ok ∧ s.fuse.advances t.fuse

/-- Header and control-word fields read back as they were placed. Rules: R124, R125, R133, R139. -/
def Obligations.HeaderAndControlWordFields : Prop :=
  (∀ type cls cpl plane dst srcPlane src flask addr dstSt len inst tag srcSt pour seq : Nat,
    type < 16 → cls < 8 → cpl < 2 → plane < 2 → dst < 2 ^ 20 → srcPlane < 2 → src < 2 ^ 20 → flask < 16 → addr < 2 ^ 64 → dstSt < 2 ^ 12 →
    len < 256 → inst < 2 ^ 16 → tag < 2 ^ 16 → srcSt < 2 ^ 12 → seq < 2 ^ 16 →
    let h := sealHeader (mkHeader type cls cpl plane dst srcPlane src flask addr dstSt len inst tag srcSt pour) seq
    hVer h = 1 ∧ hType h = type ∧ hCls h = cls ∧ hCplReq h = (cpl == 1) ∧ hPlane h = plane ∧ hDst h = dst ∧ hSrcPlane h = srcPlane ∧
    hSrc h = src ∧ hFlask h = flask ∧ hAddr h = addr ∧ hDstStation h = dstSt ∧ hLen h = len ∧ hInst h = inst ∧ hTag h = tag ∧
    hSrcStation h = srcSt ∧ hSeq h = seq ∧ hCrc h = headerCrc h) ∧
  (∀ ctype seq credits : Nat, ctype < 16 → seq < 2 ^ 16 → credits < 2 ^ 64 →
    let w := mkCw ctype seq credits
    cwValid w = true ∧ cwType w = ctype ∧ cwSeq w = seq ∧ cwData w = credits)

/-- Unscheduled traffic takes the ring direction with the shorter transit, clockwise on a tie. Rules: R157. -/
def Obligations.UnscheduledDirectionIsShortest : Prop :=
  (∀ a < 16, ∀ b < 16,
    let cw := transitClk 0 a b
    let ccw := transitClk 1 a b
    ringDir a b = (if cw ≤ ccw then 0 else 1) ∧ transitClk (ringDir a b) a b = min cw ccw ∧ min cw ccw ≤ 22) ∧
  (transitClk 0 0 8 = 22 ∧ transitClk 1 0 8 = 22 ∧ ringDir 0 8 = 0) ∧
  (transitClk 0 3 12 = 24 ∧ transitClk 1 3 12 = 20 ∧ ringDir 3 12 = 1) ∧
  (∀ (s : State) (q : QPkt) (p : Nat),
    let here := q.src / 256
    let a := { q with targets := [p] }
    (p / 16 = here → placeUnicast q p s = crossTo (here * 256 + 0x90 + p % 16) a s) ∧
    (p / 16 ≠ here → placeUnicast q p s = crossTo (stopOut (stopKey q.ring (ringDir here (p / 16)) here)) a s))

/-- The sixteen GF4 codes decode as the table gives. Rules: R241. -/
def Obligations.Gf4Decodes : Prop :=
  (∀ code < 16, code ≠ 8 → ∃ neg m x, decodeElem 5 code = .fin neg m x ∧ -1 ≤ x ∧
    ((m : Int) * 2 ^ (x + 1).toNat = [0, 1, 2, 3, 4, 6, 8, 12].getD (code % 8) 0) ∧ neg = decide (8 ≤ code)) ∧
  decodeElem 5 8 = .nan

/-- A HEAT_RETRACT of another heat quenches with HEAT_SPLIT at the next boundary. Rules: R385. -/
def Obligations.HeatSplitQuenches : Prop :=
  (∀ (s : State) (port : PortNo) (q : QPkt) (rest : List QPkt) (item : BitVec 128), firstAccepted s port.toNat 5 q rest →
    s.running = true → hLen q.pkt.hdr = fld (noticeHead q.pkt) 119 112 + 1 → fld (noticeHead q.pkt) 127 120 = 2 →
    noticeItems q.pkt = [item] → fld (noticeHead q.pkt) 111 64 ≠ s.job.heat →
    let v := consume (hDstStation q.pkt.hdr / 256) q.pkt.hdr q.owner (accepted port.toNat rest s)
    exec (.notice port) s = .next { v with job := { s.job with quenchDue := s.job.quenchDue ++ [(s.clk, 0x45, port.toNat)] } }) ∧
  (∀ (s : State) (c : Nat) (port : PortNo), s.boundaryDue = true → s.limitReached = false →
    s.job.quenchDue = [(c, 0x45, port.toNat)] → s.boot.faultCode = 0 →
    ∃ t, exec .pourBoundary s = .next t ∧ t.boot.phase = .quenched ∧ t.boot.faultCode = 0x45 ∧ t.boot.faultUnit = port.toNat)

/-- Input limits, overcurrent, presence, critical heat, MOD_RESET_N and POWER_OFF turn the main domain off. Rules: R60, R62, R71, R77, R85,
R86, R93, R466. -/
def Obligations.TurnOffCauses : Prop :=
  ∀ s : State, s.pwr.mainOn = true → s.pwr.standbyOn = true →
    (∀ mv < 45000, exec (.inputLow mv) s =
      .next (poweredOff 0x01 [] { s.pwr with vinMv := mv, vinLow := false, vinHigh := false } s)) ∧
    (∀ mv > 62000, exec (.inputHigh mv) s =
      .next (poweredOff 0x02 [] { s.pwr with vinMv := mv, vinLow := false, vinHigh := false } s)) ∧
    exec .overcurrent s = .next (poweredOff 0x03 [] s.pwr s) ∧
    exec .presence s = .next (poweredOff 0x04 [] { s.pwr with presStable := false } s) ∧
    (∀ temps : List Int, temps.length = 76 → (∃ e ∈ readings s temps, isCrit e = true) →
      exec (.sensorSample temps) s = .next (poweredOff 0x05 []
        { s.pwr with
          sensors := (readings s temps).map (fun e => (e.1, min e.2.toNat 255)), critical := true
          warnMask := warnMaskOf (readings s temps) s.pwr.warnMask } s)) ∧
    exec .modResetN s = .next (poweredOff 0x06 []
      { Power.reset with
        standbyOn := true, vinMv := s.pwr.vinMv, presStable := s.pwr.presStable, critical := s.pwr.critical, vinLow := s.pwr.vinLow
        vinHigh := s.pwr.vinHigh } s) ∧
    (∀ crc, received s s.chain.addr 0x11 [] crc →
      exec (.powerOff s.chain.addr crc) s =
        .next (poweredOff 0x07 (.chainUp s.chain.addr 0x83 [s.chain.addr] :: relayed s s.chain.addr 0x11 []) s.pwr s))

/-- STANDBY_START, INPUT_DIP, EXTENDED_RANGE, PRESENCE_STABLE and STANDBY_STOP. Rules: R60, R61, R71, R90. -/
def Obligations.StandbyDomain : Prop :=
  ∀ s : State,
    (∀ mv, s.pwr.standbyOn = false → 46500 ≤ mv →
      exec (.standbyStart mv) s = .next { State.reset with
        pending := s.pending, clk := s.clk, fuse := { s.fuse with busy := false }, flash := { s.flash with copying := none }
        pwr := { Power.reset with standbyOn := true, vinMv := mv, vinLow := decide (mv < 48000), vinHigh := decide (60000 < mv ∧ mv ≤ 62000) }
        out := present s 0 :: s.out }) ∧
    (s.pwr.standbyOn = true → exec .inputDip s = .next { s with pwr := { s.pwr with dips := min (s.pwr.dips + 1) 0xFFFF } }) ∧
    (∀ mv, s.pwr.standbyOn = true → exec (.extendedRange mv) s = .next { s with pwr := { s.pwr with
        vinMv := mv, vinLow := decide (45000 ≤ mv ∧ mv < 48000), vinHigh := decide (60000 < mv ∧ mv ≤ 62000) } }) ∧
    (s.pwr.standbyOn = true → exec .presenceStable s = .next { s with pwr := { s.pwr with presStable := true } }) ∧
    (s.pwr.standbyOn = true → s.pwr.mainOn = true → exec .standbyStop s = .next { State.reset with
        pending := s.pending, clk := s.clk, fuse := { s.fuse with busy := false }, flash := { s.flash with copying := none }
        out := .dark :: s.out })

/-- ASSIGN, TOKEN, CLEAR, SECONDS, STATUS_REQ, SET_TERMINAL and POWER_ON when accepted. Rules: R90, R91, R93, R103, R109, R110, R427 to R429.
SET_TERMINAL is answered before its fuses are programmed (log entry 15). -/
def Obligations.ChainFrames : Prop :=
  ∀ (s : State) (crc : BitVec 16), s.pwr.standbyOn = true →
    (∀ a : BitVec 8, a ≠ 0 → a ≠ 255 → s.chain.addr = 0 → s.chain.repeating = false → received s 0 0x02 [a] crc →
      exec (.assign 0 a crc) s = .next { s with
        chain := { s.chain with addr := a, repeating := !s.fuse.terminal }
        out := (if s.fuse.terminal then .chainUp a 0x85 [a] else .chainDown 0 0x04 []) :: .chainUp a 0x83 [a] :: s.out }) ∧
    (∀ dst, s.chain.addr = 0 → received s dst 0x04 [] crc →
      exec (.token dst crc) s = .next { s with out := present s 0 :: (relayed s dst 0x04 [] ++ s.out) }) ∧
    (received s 255 0x06 [] crc →
      exec (.clear 255 crc) s = .next { s with
        chain := { s.chain with addr := 0, repeating := false }, out := present s 0 :: (relayed s 255 0x06 [] ++ s.out) }) ∧
    (∀ sec, received s s.chain.addr 0x13 (beBytes 6 sec.toNat) crc →
      exec (.seconds s.chain.addr sec crc) s = .next { s with
        chain := { s.chain with nextSecond := some sec.toNat }
        out := .chainUp s.chain.addr 0x83 [s.chain.addr] :: (relayed s s.chain.addr 0x13 (beBytes 6 sec.toNat) ++ s.out) }) ∧
    (received s s.chain.addr 0x20 [] crc →
      exec (.statusReq s.chain.addr crc) s = .next { s with
        out := .chainUp s.chain.addr 0xA1 (statusBytes s) ::
          (relayed s s.chain.addr 0x20 [] ++ s.out) }) ∧
    (∀ v : BitVec 8, received s s.chain.addr 0x12 [v] crc → s.fuse.opened = none → s.fuse.terminalUsed < 8 →
      s.fuse.records.length < 96 → (v = 0 ∧ s.fuse.terminal = true ∨ v = 1 ∧ s.fuse.terminal = false) →
      exec (.setTerminal s.chain.addr v crc) s = .next { s with
        fuse := { s.fuse with opened := some (newRecord 5 v.toNat s), byChain := true, busy := true }
        out := .chainUp s.chain.addr 0x83 [s.chain.addr] :: (relayed s s.chain.addr 0x12 [v] ++ s.out) }) ∧
    (received s s.chain.addr 0x10 [] crc → s.chain.addr ≠ 0 → s.pwr.mainOn = false → 46500 ≤ s.pwr.vinMv → s.pwr.presStable = true →
      s.pwr.critical = false →
      exec (.powerOn s.chain.addr crc) s = .next { State.reset with
        pending := s.pending, clk := s.clk, fuse := s.fuse, flash := { s.flash with copying := none }
        chain := { Chain.reset with addr := s.chain.addr, repeating := s.chain.repeating }
        pwr := { Power.reset with
          standbyOn := true, mainOn := true, vinMv := s.pwr.vinMv, presStable := true, lastDown := s.pwr.lastDown
          downSample := s.pwr.downSample, vinLow := s.pwr.vinLow, vinHigh := s.pwr.vinHigh }
        boot := { Boot.reset with phase := .power, powerOnClk := s.clk }
        out := .chainUp s.chain.addr 0x83 [s.chain.addr] :: (relayed s s.chain.addr 0x10 [] ++ s.out) })

/-- Frames with a bad check or for another address are only passed on; POWER_ON refusals. Rules: R90, R93, R427, R428. -/
def Obligations.FramesRefusedOrNotMine : Prop :=
  ∀ (s : State) (dst : BitVec 8) (crc : BitVec 16), s.pwr.standbyOn = true →
    (∀ (c : Instr) (code : Nat) (payload : List Byte),
      (c = .token dst crc ∧ code = 0x04 ∧ payload = [] ∨ c = .clear dst crc ∧ code = 0x06 ∧ payload = [] ∨
        c = .powerOn dst crc ∧ code = 0x10 ∧ payload = [] ∨ c = .powerOff dst crc ∧ code = 0x11 ∧ payload = [] ∨
        c = .statusReq dst crc ∧ code = 0x20 ∧ payload = [] ∨
        (∃ v, c = .setTerminal dst v crc ∧ code = 0x12 ∧ payload = [v]) ∨
        (∃ sec, c = .seconds dst sec crc ∧ code = 0x13 ∧ payload = beBytes 6 sec.toNat)) →
      (crc ≠ crc16 (frameBytes dst code payload) ∨ dst ≠ s.chain.addr ∧ code ≠ 0x04 ∧ code ≠ 0x06 ∧ dst ≠ 0xFF) →
      exec c s = .next { s with out := relayed s dst code payload ++ s.out }) ∧
    (∀ reason : Nat, received s dst 0x10 [] crc → dst = s.chain.addr → dst ≠ 0 →
      (s.pwr.mainOn = true ∧ reason = 0x01 ∨
        s.pwr.mainOn = false ∧ s.pwr.vinMv < 46500 ∧ reason = 0x02 ∨
        s.pwr.mainOn = false ∧ 46500 ≤ s.pwr.vinMv ∧ s.pwr.presStable = false ∧ reason = 0x03 ∨
        s.pwr.mainOn = false ∧ 46500 ≤ s.pwr.vinMv ∧ s.pwr.presStable = true ∧ s.pwr.critical = true ∧ reason = 0x04) →
      exec (.powerOn dst crc) s = .next { s with
        out := .chainUp s.chain.addr 0xBF [0x10, BitVec.ofNat 8 reason] :: (relayed s dst 0x10 [] ++ s.out) })

/-- Sensor samples below critical, and the averaging second. Rules: R68, R84, R85, R397, R398. The warn bit follows log entry 12, the trip
group of one sample log entry 64. -/
def Obligations.SensorsAndHealth : Prop :=
  ∀ s : State, s.pwr.standbyOn = true →
    (∀ temps : List Int, temps.length = 76 → (∀ e ∈ readings s temps, isCrit e = false) →
      (s.pwr.trip = true ∨ (∀ e ∈ readings s temps, isTrip e = false) →
        exec (.sensorSample temps) s = .next (sampled temps s.pwr.trip s.pwr.tripGroup s)) ∧
      (s.pwr.trip = false → ∀ e rest, (readings s temps).filter isTrip = e :: rest →
        exec (.sensorSample temps) s = .next (if s.pwr.mainOn
          then { sampled temps true (sensorGroup e.1) s with
            job := { s.job with quenchDue := s.job.quenchDue ++ [(s.clk, 0x40, sensorGroup e.1)] } }
          else sampled temps true (sensorGroup e.1) s))) ∧
    (∀ rs old g, 1 ≤ g → g ≤ 7 → (warnMaskOf rs old).getLsbD (g - 1) = warnBit rs old g) ∧
    (∀ r : SecondReadings, s.pwr.mainOn = false → exec (.averagingSecond r) s = .next { s with pwr := averaged r s.pwr }) ∧
    (∀ r : SecondReadings, s.pwr.mainOn = true → exec (.averagingSecond r) s = .next { s with
      pwr := { averaged r s.pwr with
        healthValid := true, terms := contributions (penalties r s), score := 1000 - (contributions (penalties r s)).sum
        worst := worstTerm (contributions (penalties r s)), maxOffset := s.time.offsetPs.natAbs
        corrHist := (correctedTotal s :: s.pwr.corrHist).take 10, nakHist := (nakTotal s :: s.pwr.nakHist).take 10
        retrainClks := s.pwr.retrainClks.filter fun c => decide (s.clk < c + 6480000000000) } }) ∧
    (∀ cs : List Nat, cs.length = 7 → 1 ≤ worstTerm cs ∧ worstTerm cs ≤ 7 ∧
      (∀ j < 7, cs.getD j 0 ≤ cs.getD (worstTerm cs - 1) 0) ∧ ∀ j < worstTerm cs - 1, cs.getD j 0 < cs.getD (worstTerm cs - 1) 0)

/-- JOB, GATE and SLOT_SW commands and the ordered quench. Rules: R49 to R51, R104 to R106, R421, R422, R443. -/
def Obligations.ArmedOperations : Prop :=
  ∀ s : State, s.pwr.mainOn = true →
    (s.boot.phase = .epoch → s.time.state = .locked → s.job.jobState ≠ .armed → s.job.jobState ≠ .fixed →
      s.job.epochNs.toNat ≤ 999999999 → s.job.epochNs.toNat % 5 = 0 →
      s.time.now + 900000000 ≤ (s.job.epochSec.toNat * 1000000000 + s.job.epochNs.toNat) * 9 →
      exec (.jobArm false) s = .next { s with job := { s.job with
        jobState := .armed, e0 := s.job.epochSec.toNat * 1000000000 + s.job.epochNs.toNat } }) ∧
    (s.job.jobState = .armed → exec .jobCancel s = .next { s with job := { s.job with jobState := .idle } }) ∧
    (s.job.jobState = .armed → s.job.e0 * 9 ≤ s.time.now + 90000000 →
      exec .jobFix s = .next { s with job := { s.job with jobState := .fixed } }) ∧
    ((s.time.state = .locked ∨ s.time.state = .holdover) → s.job.gateState ≠ .armed → s.job.gateState ≠ .fixed →
      s.job.jobState = .done → boundaryAhead s s.job.swapSec s.job.swapNs →
      exec (.gateArm false) s = .next { s with job := { s.job with
        gateState := .armed, gateT := s.job.swapSec.toNat * 1000000000 + s.job.swapNs.toNat } }) ∧
    (s.job.gateState = .armed → exec .gateCancel s = .next { s with job := { s.job with gateState := .idle } }) ∧
    (∀ slot, s.boot.phase = .run → (s.time.state = .locked ∨ s.time.state = .holdover) →
      s.job.slotState ≠ .armed → s.job.slotState ≠ .fixed → s.job.jobState = .done → boundaryAhead s s.job.slotSec s.job.slotNs →
      (s.fuse.lock < 2 ∨ s.fuse.lock = if slot then 3 else 2) →
      exec (.slotSwArm slot false) s = .next { s with job := { s.job with
        slotState := .armed, slotArm := slot, slotT := s.job.slotSec.toNat * 1000000000 + s.job.slotNs.toNat } }) ∧
    (s.job.slotState = .armed → exec .slotSwCancel s = .next { s with job := { s.job with slotState := .idle } }) ∧
    (s.boot.phase = .run → exec .orderedQuench s = .next { s with job := { s.job with quenchDue := s.job.quenchDue ++ [(s.clk, 0, 0)] } })

/-- READ_CLEAR, REG_RD and IDX_DATA_READ. Rules: R16, R412, R413, R415, R428. That reading a pattern word checks its parity is log entry 10. -/
def Obligations.RegisterReads : Prop :=
  ∀ s : State,
    (∀ addr : BitVec 20, s.pwr.mainOn = true → addr.toNat % 8 = 0 → plainRegister s (directKey addr.toNat) →
      exec (.readClear addr 8) s = .next { s with host := { s.host with readData := directWord false (directKey addr.toNat) s } }) ∧
    (∀ addr : BitVec 20, s.pwr.mainOn = true → addr.toNat % 4 = 0 → plainRegister s (directKey addr.toNat) →
      exec (.readClear addr 4) s = .next { s with host := { s.host with
        readData := put (if addr.toNat % 8 = 4 then fld (directWord false (directKey addr.toNat) s) 63 32
                         else fld (directWord false (directKey addr.toNat) s) 31 0) 0 } }) ∧
    (s.pwr.mainOn = true → tget? s.cfg 0x5_0030 = none → exec (.readClear 0x5_0030 8) s = .next { s with
        host := { s.host with
          readData := put s.inj.cntHbm 48 ||| put s.inj.cntPar 32 ||| put s.inj.cntSched 16 ||| put s.inj.cntTime 0 },
        inj := { s.inj with cntHbm := 0, cntPar := 0, cntSched := 0, cntTime := 0 } }) ∧
    (∀ off crc, received s s.chain.addr 0x30 (beBytes 4 off.toNat) crc → plainRegister s (directKey off.toNat) →
      exec (.regRd s.chain.addr off crc) s = .next { s with
        out := .chainUp s.chain.addr 0xB2 (beBytes 8 (directWord true (directKey off.toNat) s).toNat) ::
          (relayed s s.chain.addr 0x30 (beBytes 4 off.toNat) ++ s.out) }) ∧
    (∀ key, s.pwr.mainOn = true → key = indirectKey (fld s.host.idxAddr 31 0) → plainIndirect s key →
      exec (.idxDataRead false) s = .next { s with host := { s.host with
        readData := indirectWord false key s,
        idxAddr := if bit s.host.idxAddr 32 then setFld s.host.idxAddr 31 0 (fld s.host.idxAddr 31 0 + 8) else s.host.idxAddr } }) ∧
    (∀ key, key = indirectKey (fld s.chain.idxAddr 31 0) → plainIndirect s key →
      exec (.idxDataRead true) s = .next { s with
        chain := { s.chain with
          idxAddr := if bit s.chain.idxAddr 32 then setFld s.chain.idxAddr 31 0 (fld s.chain.idxAddr 31 0 + 8) else s.chain.idxAddr },
        out := .chainUp s.chain.addr 0xB2 (beBytes 8 (indirectWord true key s).toNat) :: s.out })

/-- REGISTER_WRITE, REG_WR and IDX_DATA_WRITE. Rules: R16, R17, R49, R104, R412, R415, R421, R428, R430, R442. -/
def Obligations.RegisterWrites : Prop :=
  ∀ (s : State) (w : Word), s.pwr.mainOn = true →
    (∃ t, exec (.registerWrite 0x0_0708 8 w) s = .next t ∧
      t = { s with host := { s.host with wrote := t.host.wrote }, job := { s.job with epochSec := w.setWidth 48 } }) ∧
    (∃ t, exec (.registerWrite 0x0_0710 8 w) s = .next t ∧
      t = { s with host := { s.host with wrote := t.host.wrote }, job := { s.job with epochNs := w.setWidth 32 } }) ∧
    (∃ t, exec (.registerWrite 0x1_0100 8 w) s = .next t ∧
      t = { s with host := { s.host with wrote := t.host.wrote }, job := { s.job with swapSec := w.setWidth 48 } }) ∧
    (∃ t, exec (.registerWrite 0x1_0108 8 w) s = .next t ∧
      t = { s with host := { s.host with wrote := t.host.wrote }, job := { s.job with swapNs := w.setWidth 32 } }) ∧
    (∃ t, exec (.registerWrite 0x0_0100 8 w) s = .next t ∧
      t = { s with host := { s.host with wrote := t.host.wrote, idxAddr := put (fld w 32 0) 0 } }) ∧
    (∃ t, exec (.registerWrite 0x0_0310 8 w) s = .next t ∧
      t = { s with host := { s.host with wrote := t.host.wrote, mbData := tset s.host.mbData 0 w } }) ∧
    (∀ addr ∈ [0x0_0028, 0x0_0208, 0x0_0600, 0x0_0608, 0x0_0720, 0x1_0000, 0x1_0118, 0x2_0008, 0x2_0010, 0x2_0310],
      ∃ t, exec (.registerWrite addr 8 w) s = .next t ∧ t = { s with host := { s.host with wrote := t.host.wrote } }) ∧
    (∀ addr : BitVec 20, addr.toNat % 8 = 4 → exec (.registerWrite addr 4 w) s = .next s) ∧
    (∀ crc, received s s.chain.addr 0x31 (beBytes 4 0x708 ++ beBytes 8 w.toNat) crc → s.host.wrote = [] →
      exec (.regWr s.chain.addr 0x708 w crc) s = .next { s with
        job := { s.job with epochSec := w.setWidth 48 }
        out := .chainUp s.chain.addr 0x83 [s.chain.addr] ::
          (relayed s s.chain.addr 0x31 (beBytes 4 0x708 ++ beBytes 8 w.toNat) ++ s.out) }) ∧
    (∀ a : StAddr, s.host.idxAddr = put (a.toNat * 2 ^ 16 + 0x200) 0 → stationPresent s a.toNat = true →
      ∃ t, exec (.idxDataWrite false w) s = .next t ∧
        t = { s with host := { s.host with wrote := t.host.wrote }, stations := t.stations } ∧
        t.station a.toNat = { s.station a.toNat with pageStore := bit w 7, page := w.setWidth 7 } ∧
        ∀ b, b ≠ a.toNat → t.station b = s.station b)

/-- TIME_READ, POWER_FINE, MEAS_READ, LEDGER_READ, SHAKEOUT, FLASH_COPY, BOOT_PREF, BAD_OP and SHAKEOUT_DONE. Rules: R20, R96, R113, R363,
R417 to R420, R436. Log entries 60 and 61 give the model's choices. -/
def Obligations.MailboxCommands : Prop :=
  ∀ s : State, mailboxIdle s →
    (∃ t, exec .timeRead s = .next t ∧ mailboxAnswers 0x01 0
      [put (s.time.now / 9 / 1000000000) 0,
       put (s.time.now / 9 % 1000000000) 32 ||| put (s.time.now % 9 * 16 / 9 * 4096) 16 ||| put s.time.state.code 8,
       put s.job.pour 32 ||| put (if s.boot.phase = .run then s.clk - s.job.pourClk else 0) 0] s t) ∧
    (∀ mw mv ma peak bus : BitVec 32, ∃ t, exec (.powerFine mw mv ma peak bus) s = .next t ∧
      mailboxAnswers 0x02 0 [put mw.toNat 32 ||| put mv.toNat 0, put ma.toNat 32 ||| put peak.toNat 0, put bus.toNat 32] s t) ∧
    (1 ≤ (s.mbArg 0).toNat → (s.mbArg 0).toNat ≤ 5 → ∃ t, exec .measRead s = .next t ∧
      mailboxAnswers 0x10 0 (digestWords (measurement (s.mbArg 0).toNat s)) s t) ∧
    (s.fuse.opened = none → ∃ t, exec .ledgerRead s = .next t ∧
      mailboxAnswers 0x48 0 (fuseLedgerWords (s.mbArg 0).toNat s) s t) ∧
    (s.mem.shakeBusy = false → s.boot.phase ≠ .run → exec .shakeout s = .next { s with
      host := { s.host with mbValid := true, mbBusy := false, mbCode := 0, mbOp := 0x50 }
      mem := { s.mem with shakeBusy := true, shakeFlask := fld (s.mbArg 0) 3 0, shakeLeft := flaskSpans s (fld (s.mbArg 0) 3 0) } }) ∧
    (s.mem.shakeBusy = true → s.mem.shakeLeft = [] →
      exec .shakeoutDone s = .next { s with mem := { s.mem with shakeBusy := false } }) ∧
    (s.fuse.lock < 2 ∨ s.fuse.lock = (if bit (s.mbArg 0) 0 then 3 else 2) → exec .bootPref s = .next { s with
      host := { s.host with mbValid := true, mbBusy := false, mbCode := 0, mbOp := 0x52 }
      flash := { s.flash with bootRecord := some (bit (s.mbArg 0) 0) } }) ∧
    (∀ op : BitVec 8, op.toNat ∉ [0x01, 0x02, 0x10, 0x41, 0x42, 0x43, 0x44, 0x48, 0x50, 0x51, 0x52] →
      ∃ t, exec (.badOp op) s = .next t ∧ mailboxAnswers op.toNat 0x01 [] s t) ∧
    (∀ r, 4096 * (fld (s.mbArg 2) 15 0 + 1) ≤ 0x07F00000 →
      regionOf s (s.mbArg 1).toNat (4096 * (fld (s.mbArg 2) 15 0 + 1)) = some r → rgHost s r = true →
      (bit (s.mbArg 0) 0 ≠ s.boot.slot ∨ s.boot.phase = .quenched ∨ s.boot.phase = .failed) →
      exec .flashCopy s = .next { s with
        host := { s.host with mbValid := false, mbBusy := true, mbOp := 0x51 }
        flash := { s.flash with
          copying := some (bit (s.mbArg 0) 0, (s.mbArg 1).toNat, fld (s.mbArg 2) 15 0 + 1)
          bytes := setSlotBytes (bit (s.mbArg 0) 0) [] s.flash.bytes } })

/-- FUSE_SVC, FUSE_LOCK, FUSE_DEBUG_OFF, FUSE_KEYSET and FUSE_PROGRAMMED. Rules: R109 to R111, R113. Log entry 15 gives the readings of two
conditions. -/
def Obligations.FuseChanges : Prop :=
  ∀ s : State,
    (mailboxIdle s → ledgerOpen s →
      (s.fuse.svc < (s.mbArg 0).toNat → (s.mbArg 0).toNat ≤ 64 → (s.mbArg 0).toNat ≤ leNat ((s.host.meas23.drop 8).take 4) →
        ∃ t, exec .fuseSvc s = .next t ∧ changeBegins 0x41 1 (s.mbArg 0).toNat s t) ∧
      (s.fuse.lock = 0 → 4 ≤ s.boot.phase.code →
        ∃ t, exec .fuseLock s = .next t ∧ changeBegins 0x42 2 (if s.boot.slot then 3 else 2) s t) ∧
      (s.fuse.debugOff = false → s.mbArg 0 = 0xD15AB1E0 →
        ∃ t, exec .fuseDebugOff s = .next t ∧ changeBegins 0x43 3 1 s t) ∧
      (s.fuse.keysetUsed < 3 → (s.mbArg 0).toNat ≤ 3 → (s.mbArg 0).toNat ≠ s.fuse.keyset → 1 ≤ s.boot.phase.code → s.boot.phase.code ≤ 5 →
        ∃ t, exec .fuseKeyset s = .next t ∧ changeBegins 0x44 4 (s.mbArg 0).toNat s t)) ∧
    (∀ r, s.fuse.opened = some r → s.fuse.busy = true → 1 ≤ r.setting → r.setting ≤ 5 →
      exec .fuseProgrammed s = .next { s with
        fuse := { s.fuse with
          opened := none, busy := false, records := s.fuse.records ++ [r]
          svc := if r.setting = 1 then r.newV else s.fuse.svc
          lock := if r.setting = 2 then r.newV else s.fuse.lock
          debugOff := if r.setting = 3 then true else s.fuse.debugOff
          keyset := if r.setting = 4 then r.newV else s.fuse.keyset
          keysetUsed := if r.setting = 4 then s.fuse.keysetUsed + 1 else s.fuse.keysetUsed
          terminal := if r.setting = 5 then r.newV == 1 else s.fuse.terminal
          terminalUsed := if r.setting = 5 then s.fuse.terminalUsed + 1 else s.fuse.terminalUsed }
        inj := if r.setting = 3 then .reset else s.inj
        ports := if r.setting = 3 then s.ports.map fun e => (e.1, { e.2 with inj := [], injCount := 0 }) else s.ports
        chain := { s.chain with repeating := if r.setting = 5 then r.newV != 1 && s.chain.addr != 0 else s.chain.repeating }
        host := { s.host with
          measGen := s.host.measGen + 1
          mbValid := mailboxWaits s || s.host.mbValid
          mbBusy := !mailboxWaits s && s.host.mbBusy
          mbCode := if mailboxWaits s then 0 else s.host.mbCode } })

/-- SNAPSHOT, FV_SNAP_CTL, HOST_LINK_UP, PERST_N and FLASH_COPY_DONE. Rules: R408, R416, R420, R433. -/
def Obligations.HostEvents : Prop :=
  ∀ s : State, s.pwr.mainOn = true →
    (∀ w : Word, bit w 0 = true → fld w 47 44 ≤ 4 →
      (∃ t, exec (.snapshot false w) s = .next t ∧ t.host.hold = holdOf s (fld w 47 44) (fld w 43 32) false ∧
        t.host.snapStat = snapTaken (fld w 47 44) (fld w 43 32) ∧ t.host.snapClk = some s.clk ∧ t.host.snapCtl = snapCtlBits w ∧
        (fld w 47 44 ≠ 1 → t = { s with host := t.host })) ∧
      (s.host.wrote.contains (s.clk, 0x200) = false →
        ∃ t, exec (.snapshot true w) s = .next t ∧ t.chain.hold = holdOf s (fld w 47 44) (fld w 43 32) false ∧
          t.chain.snapStat = snapTaken (fld w 47 44) (fld w 43 32) ∧ t.chain.snapClk = some s.clk ∧ t.chain.snapCtl = snapCtlBits w ∧
          (fld w 47 44 ≠ 1 → t = { s with chain := t.chain, out := .chainUp s.chain.addr 0x83 [s.chain.addr] :: s.out }))) ∧
    (∀ w : Word, bit w 0 = true → 4 < fld w 47 44 →
      ∃ t, exec (.snapshot false w) s = .next t ∧ t.host.hold = s.host.hold ∧ fld t.host.snapStat 7 0 = 1 ∧ t = { s with host := t.host }) ∧
    (∀ (f : Fin 16) (w : Word), bit w 0 = true → fld w 47 44 ≤ 4 → viewOwns s f (fld w 47 44) (fld w 43 32) = true →
      exec (.fvSnapCtl f w) s = .next { s with host := { s.host with
        viewCtl := tset s.host.viewCtl f (snapCtlBits w), viewAsk := tset s.host.viewAsk f w } }) ∧
    (s.boot.phase ≠ .standby → s.boot.phase ≠ .power → s.boot.phase ≠ .failed →
      exec .hostLinkUp s = .next { s with host := { s.host with linkUp := true }, out := .cxlReady :: s.out }) ∧
    (exec .perstN s = .next { s with
      host := { s.host with linkUp := false, idxAddr := 0, hold := [], holdPrev := [], snapClk := none, snapStat := 0, spdm := 0, transcript := [] }
      mem := { s.mem with waiting := s.mem.waiting.filter (·.pkt.isSome) } }) ∧
    (∀ slot addr units, s.flash.copying = some (slot, addr, units) →
      ∃ t bs u, exec .flashCopyDone s = .next t ∧ copyLines (spanLines addr (4096 * units)) s = (bs, u) ∧
        t = { u with
          flash := { u.flash with copying := none, bytes := setSlotBytes slot ((bs.drop (addr % 64)).take (4096 * units)) u.flash.bytes }
          host := { u.host with mbValid := true, mbBusy := false, mbCode := 0 } })

/-- SPDM over DOE, discovery and table access. Rules: R407, R435, R436. Message layouts are presumed (log entry 63). -/
def Obligations.DoeExchanges : Prop :=
  ∀ s : State, s.pwr.mainOn = true → s.host.linkUp = true →
    (∃ t, exec .getVersion s = .next t ∧
      spdmAnswers 0x04 1 (spdmMsg 0x10 0x84 0 0 []) (spdmMsg 0x10 0x04 0 0 ([0, 2] ++ leBytes 2 0x1200 ++ leBytes 2 0x1300))
        { s with host := { s.host with transcript := [] } } t) ∧
    (s.host.spdm = 1 → ∃ t, exec .getCapabilities s = .next t ∧
      spdmAnswers 0x61 2 (spdmMsg 0x12 0xE1 0 0 []) (spdmMsg 0x12 0x61 0 0 (leBytes 4 0 ++ leBytes 4 Config.spdmCapabilities.toNat)) s t) ∧
    (s.host.spdm = 2 → (∃ t, exec (.negotiateAlgorithms true true) s = .next t ∧
        spdmAnswers 0x63 3 (spdmMsg 0x12 0xE3 0 0 []) (spdmMsg 0x12 0x63 0 0 algorithmsBody) s t) ∧
      ∀ sm2 sm3, (sm2 && sm3) = false → exec (.negotiateAlgorithms sm2 sm3) s = spdmRefuses 0x01 s) ∧
    (s.host.spdm = 3 →
      (∃ t, exec .getDigests s = .next t ∧ spdmAnswers 0x01 3 (spdmMsg 0x12 0x81 0 0 []) (spdmMsg 0x12 0x01 0 1 chainDigest) s t) ∧
      (∀ offset len, offset < Config.certChain.length → ∃ t, exec (.getCertificate 0 offset len) s = .next t ∧
        spdmAnswers 0x02 3 (spdmMsg 0x12 0x82 0 0 (leBytes 2 offset ++ leBytes 2 len))
          (spdmMsg 0x12 0x02 0 0 (leBytes 2 (min len (Config.certChain.length - offset)) ++
            leBytes 2 (Config.certChain.length - offset - min len (Config.certChain.length - offset)) ++
            (Config.certChain.drop offset).take len)) s t) ∧
      (∀ nonce : BitVec 256, ∃ t own, exec (.challenge 0 nonce) s = .next t ∧
        let req := spdmMsg 0x12 0x83 0 0 (beBytes 32 nonce.toNat)
        let resp := spdmMsg 0x12 0x03 0 1 (chainDigest ++ own ++ leBytes 2 0)
        spdmAnswers 0x03 3 req (resp ++ beBytes 64 (Config.sm2Sign (s.host.transcript ++ req ++ resp)).toNat) s t) ∧
      (∀ index, index ≤ 5 ∨ index = 0xFF → ∀ nonce : BitVec 256, ∃ t own, exec (.getMeasurements index nonce) s = .next t ∧
        let blocks := (measurementIndexes index).flatMap fun i => measurementBlock i s
        let req := spdmMsg 0x12 0xE0 1 index (beBytes 32 nonce.toNat ++ [0])
        let resp := spdmMsg 0x12 0x60 (if index = 0 then 5 else 0) 0
          ([BitVec.ofNat 8 (measurementIndexes index).length] ++ leBytes 3 blocks.length ++ blocks ++ own ++ leBytes 2 0)
        spdmAnswers 0x60 3 req (resp ++ beBytes 64 (Config.sm2Sign (s.host.transcript ++ req ++ resp)).toNat) s t) ∧
      (∀ slot nonce, slot ≠ 0 → exec (.challenge slot nonce) s = spdmRefuses 0x01 s)) ∧
    (s.host.spdm ≠ 3 → exec .getDigests s = spdmRefuses 0x04 s) ∧
    (∀ e ∈ [(0, 0x0001, 0, 1), (1, 0x0001, 1, 2), (2, 0x1E98, 2, 0)],
      exec (.doeDiscovery e.1) s = .next { s with
        out := .doe 0 e.2.2.1 (leBytes 2 e.2.1 ++ leBytes 1 e.2.2.1 ++ leBytes 1 e.2.2.2) :: s.out }) ∧
    (∀ entry, exec (.tableAccess entry) s = .next { s with out := .doe 2 0 (Config.cdat entry) :: s.out })

/-- CXL_MEM_READ and CXL_MEM_WRITE. Rules: R355, R360, R409, R410. -/
def Obligations.HostMemoryAccess : Prop :=
  ∀ (s : State) (addr : Word) (data : List Byte) (enables : BitVec 64), s.pwr.mainOn = true → s.host.linkUp = true →
    addr.toNat % 64 = 0 → data.length = 64 →
    (∀ e, requestCheck s addr.toNat 64 (hostAllows s false) none none = .error e →
      exec (.cxlMemRead addr 64 []) s = .next { s with out := .cxlData (List.replicate 64 0xFF) true :: s.out }) ∧
    (∀ e, requestCheck s addr.toNat 64 (hostAllows s true) none none = .error e →
      exec (.cxlMemWrite addr data enables []) s = .next { s with out := .cxlDone :: s.out }) ∧
    (s.boot.phase ≠ .run → s.mem.waiting = [] → tget [] s.mem.errors addr.toNat = [] → addr.toNat ∉ s.mem.busErr → s.cap.running = false →
      requestsYield s (stackOf addr.toNat) = false →
      (∀ r, requestCheck s addr.toNat 64 (hostAllows s false) none none = .ok r →
        exec (.cxlMemRead addr 64 []) s = .next { s with
          mem := { s.mem with lost := s.mem.lost.filter (·.line != addr.toNat) }
          out := .cxlData (cellRead s.mem.cells addr.toNat 64) false :: s.out }) ∧
      (∀ r, requestCheck s addr.toNat 64 (hostAllows s true) none none = .ok r → ∃ t,
        exec (.cxlMemWrite addr data enables []) s = .next t ∧ t = { s with mem := t.mem, out := .cxlDone :: s.out } ∧
          t.mem = { s.mem with
            cells := cellWrite s.mem.cells addr.toNat (mergeEnabled enables data (cellRead s.mem.cells addr.toNat 64))
            errors := tdel s.mem.errors addr.toNat, lost := s.mem.lost.filter (·.line != addr.toNat)
            writeBack := s.mem.writeBack.filter (·.1 != addr.toNat), pickCopy := t.mem.pickCopy } ∧
          ∀ r, tget 0 t.mem.pickCopy r =
            if r ∈ regions s ∧ rgKind s r = 1 ∧ rgBase s r = addr.toNat ∧ enables.setWidth 8 ≠ 0#8 then
              BitVec.ofNat 64 (leNat (cellRead t.mem.cells addr.toNat 8))
            else tget 0 s.mem.pickCopy r))

/-- RAILS_GOOD, RAIL_FAIL, SELFTEST_DONE, IMAGE_VERIFIED and LOAD_CHECKS. Rules: R87, R88, R94, R95, R98 to R100, R112, R444. -/
def Obligations.StartUpChecks : Prop :=
  (∀ s : State,
    (s.boot.phase = .power →
      exec .railsGood s = .next { s with boot := { s.boot with phase := .selftest } } ∧
      ∀ rail : BitVec 32, ∃ t, exec (.railFail rail) s = .next t ∧ failsWith 0x08 rail.toNat s t) ∧
    (s.boot.phase = .selftest →
      (∀ (w : BitVec 32) sram blown, ∃ t, exec (.selftestDone (some w) sram blown) s = .next t ∧ failsWith 0x0A w.toNat s t) ∧
      (s.fuse.opened = none → ∀ blown,
        (∀ u : BitVec 32, ∃ t, exec (.selftestDone none (some u) blown) s = .next t ∧ failsWith 0x09 u.toNat s t) ∧
        exec (.selftestDone none none blown) s = .next { s with
          boot := { s.boot with phase := .image, trying := some (preferredSlot s), triedOne := false }
          ledger := .reset, ports := [], fab := .reset, policers := [], stations := [], crucibles := [], members := [], riddles := []
          ladles := [], moulds := [], sorters := [], layers := [], cfg := [] }) ∧
      (∀ r blown, s.fuse.opened = some r → s.fuse.busy = false → ∃ t, exec (.selftestDone none none blown) s = .next t ∧
        t.boot.phase = .image ∧ t.fuse.opened = none ∧
        t.fuse.records = s.fuse.records ++ [if blown then r else { r with setting := 0 }] ∧
        (blown = false → t.fuse = { s.fuse with opened := none, busy := false, records := t.fuse.records }))) ∧
    (preferredSlot s = if 2 ≤ s.fuse.lock then s.fuse.lock == 3 else s.boot.preferOnce.getD (s.flash.bootRecord.getD false))) ∧
  (∀ s : State,
    (∀ readOk slot, s.boot.phase = .image → s.boot.trying = some slot →
      (verifySlot readOk slot s = 0 → ∃ t, exec (.imageVerified readOk) s = .next t ∧
        t.boot = { s.boot with
          phase := .load, slot := slot, fallback := s.boot.triedOne, trying := none
          slotACode := if slot then s.boot.slotACode else 0, slotBCode := if slot then 0 else s.boot.slotBCode } ∧
        t.host.meas23 = (imageHeader s slot).take 0xC0 ++ ((imageHeader s slot).drop 0x20).take 32 ∧ t = { s with boot := t.boot, host := t.host }) ∧
      (verifySlot readOk slot s ≠ 0 → s.fuse.lock < 2 → s.boot.triedOne = false →
        exec (.imageVerified readOk) s = .next { s with boot := { s.boot with
          trying := some (!slot), triedOne := true
          slotACode := if slot then s.boot.slotACode else verifySlot readOk slot s
          slotBCode := if slot then verifySlot readOk slot s else s.boot.slotBCode } }) ∧
      (verifySlot readOk slot s ≠ 0 → (2 ≤ s.fuse.lock ∨ s.boot.triedOne = true) → ∃ t, exec (.imageVerified readOk) s = .next t ∧
        t.boot.phase = .failed ∧ (s.boot.faultCode = 0 → t.boot.faultCode = 0x16) ∧ t = { s with boot := t.boot, out := .dark :: s.out })) ∧
    (s.boot.phase = .load →
      (∀ c u, loadFault (loadWords s) s = some (c, u) → ∃ t, exec .loadChecks s = .next t ∧ failsWith c u s t) ∧
      (∀ xs, loadFault (loadWords s) s = none → sectionsOf (loadWords s) = .ok xs → ∃ t, exec .loadChecks s = .next t ∧
        t.boot = { s.boot with phase := .hbm, imageOk := true, shadow := imageConfig (Img.of xs s) } ∧
        t.cfg = imageConfig (Img.of xs s) ∧
        t.job = { s.job with heat := fld (t.cfgw 0x508) 47 0 } ∧
        t = { s with
          boot := t.boot, cfg := t.cfg, job := t.job, ledger := t.ledger, stations := t.stations, ports := t.ports, host := t.host })))

/-- HBM_READY, LINK_PORTS_UP, LINK_TIMEOUT, TIME_ACQUIRE and EPOCH_START. Rules: R38, R101 to R103, R106, R142, R170, R354, R403. The order of
the free store is log entry 9. -/
def Obligations.MemoryLinksAndEpoch : Prop :=
  ∀ s : State,
    (s.boot.phase = .hbm → ∀ repaired : List Nat,
      (∀ failed : Option (Fin 8), (∀ k, failed = some k → s.stackPresent k = false) →
        ∃ u, exec (.hbmReady repaired failed) s = .next (each ((List.range 256).filter u.portEnabled) startTraining u) ∧
          u.boot = { s.boot with phase := .link, linkKeyset := s.fuse.keyset } ∧ u.mem.errors = [] ∧ u.mem.lost = [] ∧
          (∀ k < 8, s.stackPresent k = true → (u.stack k).ready = true ∧ (u.stack k).repaired = min (repaired.getD k 0) 255) ∧
          (∀ a, 4 * (49152 - fld (poolCfg s) 15 0) ≤ a → cellGet u.mem.cells a = 0) ∧
          u.fab.cache = (List.range (min 2048 (49152 - fld (poolCfg s) 15 0))).map (fld (poolCfg s) 15 0 + ·) ∧
          u = { s with boot := u.boot, mem := u.mem, fab := u.fab }) ∧
      (∀ k : Fin 8, s.stackPresent k = true →
        ∃ t, exec (.hbmReady repaired (some k)) s = .next t ∧ failsWith 0x18 k s t)) ∧
    (s.boot.phase = .link →
      (requiredDown s = [] → exec .linkPortsUp s = .next { s with boot := { s.boot with phase := .time } }) ∧
      (∀ p ps, requiredDown s = p :: ps → exec .linkPortsUp s = .next s ∧ ∃ t, exec .linkTimeout s = .next t ∧ failsWith 0x1A p s t)) ∧
    (s.boot.phase = .time →
      (s.time.state ≠ .locked → ∃ t, exec .timeAcquire s = .next t ∧ failsWith 0x38 0 s t) ∧
      (s.time.state = .locked → exec .timeAcquire s = .next s)) ∧
    (s.boot.phase = .epoch → (s.job.jobState = .armed ∨ s.job.jobState = .fixed) → 9 * s.job.e0 ≤ s.time.now → s.limitReached = false →
      (s.job.quenchDue = [] → exec .epochStart s = .next (startPour (startSlot [] (fixArmed (takeViews (freshSlot (firstHeat
        ((startPolicers (each ((List.range 256).filter s.portEnabled) (fun p s => s.setPort p (startPort s p))
          { runBegun s with
            fab := { s.fab with flowClk := 0, flowlets := s.fab.flowlets.map fun e => (e.1, { e.2 with valid := false }) } })).setCap
          fun c => { c with replayActive := s.replayMode })))))))) ∧
      (s.job.quenchDue ≠ [] → exec .epochStart s = .next (quenchNow (runBegun s))))

/-- SYNC, PPS_EDGE and the loss, holdover and time-out events. Rules: R22, R26, R27, R29, R30, R45 to R48, R76, R103. Readings of R29 and R48
are log entry 13. -/
def Obligations.TimeSourceEvents : Prop :=
  (∀ s : State, timeInjectorOff s → s.tracking = true → sourceAccepted s →
    (∀ (port : PortNo) (origin : Nat) (head : PtpHead), s.portUp port.toNat = true →
      (head.domain = fld s.timeCfg 11 4 → s.timeSrc ≠ 1 → s.time.slave = some port →
        ∃ t, exec (.sync port origin head false) s = .next t ∧
          offsetTaken (Int.tdiv ((((rxStamp port.toNat s : Nat) : Int) - ((origin * 65536 : Nat) + head.correction.toInt) - tget 0 s.time.pathDelay port.toNat -
              s.asym port.toNat) * 1000) 65536) 1
            { s with
              inj := { s.inj with stepDone := false }
              time := { s.time with lastSync := tset s.time.lastSync port.toNat ((origin * 65536 : Nat) + head.correction.toInt, rxStamp port.toNat s) } } t) ∧
      (∀ twoStep, twoStep = true ∨ head.domain ≠ fld s.timeCfg 11 4 → exec (.sync port origin head twoStep) s =
        .next (s.setPort port.toNat fun x => { x with ctr := tmod 0 x.ctr 10 (satAdd 32 · 1) }))) ∧
    (∀ err : Int, s.pwr.mainOn = true → s.timeSrc = 1 →
      (s.time.state ≠ .free → err.natAbs ≤ 1000000 → ∃ t, exec (.ppsEdge err) s = .next t ∧
        offsetTaken err 2 { s with inj := { s.inj with stepDone := false }, time := { s.time with ppsBad := 0 } } t) ∧
      (s.time.state ≠ .free → 1000000 < err.natAbs → exec (.ppsEdge err) s = .next { s with
        inj := { s.inj with stepDone := false }
        time := afterBadEdge { s.time with ppsRejected := s.time.ppsRejected + 1 } }) ∧
      (∀ sec, s.time.state = .free → s.chain.nextSecond = some sec → exec (.ppsEdge err) s = .next { s with
        inj := { s.inj with stepDone := false }
        time := { s.time with state := .acquire, source := 2, now := sec * 9000000000, lastValid := s.clk, good := 1 } })) ∧
    (∀ err : Int, s.pwr.mainOn = true → s.timeSrc = 2 → exec (.ppsEdge err) s = .next { s with
      time := { s.time with ppsFar := if 100000 < err.natAbs then s.time.ppsFar + 1 else s.time.ppsFar } })) ∧
  (∀ s : State,
    (s.pwr.mainOn = true → s.timeSrc = 1 → exec .ppsMissing s = .next { s with time := afterBadEdge s.time }) ∧
    (s.timeSrc ≠ 1 → s.time.state = .locked → s.time.lastValid + 3 * logClk s.logSync ≤ s.clk →
      exec .syncLoss s = .next { s with time := { s.time with state := .holdover } }) ∧
    (∀ p, s.timeSrc ≠ 1 → s.time.state = .locked → s.time.slave = some p → announceLate s p.toNat = true →
      exec .announceReceiptTimeout s = .next (chooseSlave { s with time := { s.time with
        state := .holdover, foreign := tdel s.time.foreign p.toNat, announceClks := tdel s.time.announceClks p.toNat } })) ∧
    (s.limitReached = true → s.job.limitHit = false → s.boot.phase = .run → exec .holdoverLimit s = .next { s with
      job := { s.job with limitHit := true, quenchDue := s.job.quenchDue ++ [(s.clk, 0x35, 0)] } }) ∧
    (s.time.state = .locked → s.time.lockClk + 1080000000000 ≤ s.clk → exec .holdOk s = .next { s with time := { s.time with holdOk := true } }) ∧
    (s.pwr.mainOn = true → (s.time.state = .locked ∨ s.time.state = .holdover) →
      (s.timeOutMode = 1 → s.time.now % 9000000000 < 5 →
        exec .timeOutMark s = .next { s with pwr := { s.pwr with timeOut := true, markEnd := s.clk + 180000000 } }) ∧
      (s.timeOutMode = 2 → s.boot.phase = .run → s.clk = s.job.pourClk →
        exec .timeOutMark s = .next { s with pwr := { s.pwr with timeOut := true, markEnd := s.clk + 1800 } })) ∧
    (s.pwr.markEnd ≤ s.clk → exec .timeOutMarkEnd s = .next { s with pwr := { s.pwr with timeOut := false } }) ∧
    (s.clk < s.pwr.markEnd → exec .timeOutMarkEnd s = .next s))

/-- The PTP messages sent and received by the boundary clock. Rules: R22 to R25. Message bytes are presumed (log entry 14). -/
def Obligations.PtpMessages : Prop :=
  ∀ (s : State) (port : PortNo),
    (masterPort port.toNat s = true →
      exec (.syncInterval port) s = .next { s with
        ports := tmod .reset s.ports port.toNat fun x => { x with
          ptpQ := x.ptpQ ++ [ptpPacket (ptpHeader 0 44 (nextSeq 0 port.toNat s) port.toNat s.logSync 0 s ++ ptpTime 0) s] }
        time := { s.time with seqIds := tset s.time.seqIds port.toNat ((nextSeq 0 port.toNat s + 1) % 65536) } } ∧
      ∀ requester seqId corr, exec (.delayReq port requester ⟨fld s.timeCfg 11 4, seqId, corr⟩) s = .next { s with
        ports := tmod .reset s.ports port.toNat fun x => { x with
          ptpQ := x.ptpQ ++ [ptpPacket (ptpHeader 9 54 seqId port.toNat s.logDelay corr s ++ ptpTime (rxStamp port.toNat s / 65536) ++
            beBytes 10 requester) s] }
        time := { s.time with
          seqIds := tset s.time.seqIds (256 * 9 + port.toNat) ((nextSeq 9 port.toNat s + 1) % 65536) } }) ∧
    (s.time.slave = some port → s.portUp port.toNat = true → exec .delayReqInterval s = .next { s with
      ports := tmod .reset s.ports port.toNat fun x => { x with
        ptpQ := x.ptpQ ++ [ptpPacket (ptpHeader 1 44 (nextSeq 1 port.toNat s) port.toNat 127 0 s ++ ptpTime 0) s] }
      time := { s.time with seqIds := tset s.time.seqIds (256 * 1 + port.toNat) ((nextSeq 1 port.toNat s + 1) % 65536) } }) ∧
    (∀ t1 t2 t3 rx seqId corr, s.portUp port.toNat = true → tget? s.time.delaySent port.toNat = some (t3, seqId) →
      tget? s.time.lastSync port.toNat = some (t1, t2) → exec (.delayResp port rx ⟨fld s.timeCfg 11 4, seqId, corr⟩) s = .next { s with time := { s.time with
        pathDelay := tset s.time.pathDelay port.toNat ((((t2 : Int) - t1) + ((rx * 65536 : Nat) - (t3 : Int) - corr.toInt)) / 2)
        delaySent := tdel s.time.delaySent port.toNat } }) ∧
    (∀ requester rx head, s.portUp port.toNat = true → head.domain ≠ fld s.timeCfg 11 4 →
      let t := s.setPort port.toNat fun x => { x with ctr := tmod 0 x.ctr 10 (satAdd 32 · 1) }
      exec (.delayReq port requester head) s = .next t ∧ exec (.delayResp port rx head) s = .next t) ∧
    (∀ a : AnnounceData, s.portUp port.toNat = true → a.domain = fld s.timeCfg 11 4 → timeInjectorOff s → a.sender ≠ Config.clockIdentity →
      exec (.announce port a) s = .next (chooseSlave { s with
        inj := { s.inj with stepDone := false }
        time := { s.time with
          foreign := tset s.time.foreign port.toNat a
          announceClks := tset s.time.announceClks port.toNat (announceTimes s port.toNat a) } })) ∧
    (∃ t, exec .announceInterval s = .next t ∧ t = { s with ports := t.ports, time := { s.time with seqIds := t.time.seqIds } } ∧
      (∀ p : PortNo, (t.port p.toNat).ptpQ = (s.port p.toNat).ptpQ ++
        (if masterPort p.toNat s then
          [ptpPacket (ptpHeader 11 64 (nextSeq 11 p.toNat s) p.toNat s.logAnnounce 0 s ++ announceBody (announced s)) s]
        else []))) ∧
    (chooseSlave s = { s with time := { s.time with slave :=
      ((bestForeign s).bind fun e => if s.gmCapable = true ∧ betterThan (ownData s) e.2 = true then none else some (BitVec.ofNat 8 e.1)) } })

/-- Training steps 1 to 4, a failing step and a retry from DOWN. Rules: R117, R119, R120. -/
def Obligations.TrainingSteps : Prop :=
  ∀ (s : State) (port : PortNo),
    (trains s port.toNat = true →
      ((s.port port.toNat).step = 1 → exec (.lightDetected port) s = .next (s.setPort port.toNat fun x => { x with step := 2 })) ∧
      ((s.port port.toNat).step = 2 → exec (.equalizeDone port) s = .next (s.setPort port.toNat fun x => { x with step := 3 })) ∧
      ((s.port port.toNat).step = 3 → ∀ skew,
        (skew ≤ 40 → exec (.alignDone port skew) s = .next (s.setPort port.toNat fun x => { x with step := 4 })) ∧
        (40 < skew → s.boot.phase = .link → ∃ t, exec (.alignDone port skew) s = .next t ∧ stepFails port 3 s t)) ∧
      ((s.port port.toNat).step = 4 → let own := drawnNonce s port.toNat
        exec (.fecLock port) s = .next {
        s.setPort port.toNat (fun x => { x with step := 5, handshake := 0, nonces := some (own, 0) }) with
        out := .control port (mkCw 5 3 own.toNat) :: .control port (mkCw 5 2 ((s.port port.toNat).keyset * 2 ^ 62 + keyCheck (s.port port.toNat).keyset)) ::
          .control port (mkCw 5 1 (s.portWidth port.toNat * 2 ^ 60 + port.toNat * 2 ^ 52 + s.moduleId * 2 ^ 32)) :: s.out }) ∧
      ((s.port port.toNat).step ≠ 0 → s.boot.phase = .link →
        ∃ t, exec (.trainingStepFail port) s = .next t ∧ stepFails port (stepReason (s.port port.toNat).step) s t)) ∧
    (s.lit = true → s.portEnabled port.toNat = true → (s.port port.toNat).state = .down →
      (s.port port.toNat).downClk + 180000000 ≤ s.clk →
      exec (.downRetry port) s = .next (s.setPort port.toNat fun x => { x with
        state := .training, step := 1, handshake := 0, keyset := s.boot.linkKeyset, session := none, nonces := none }))

/-- WIDTH, KEY, NONCE, ECHO, CREDIT and READY. Rules: R119 to R121, R130, R142, R143. The ECHO value is log entry 22. -/
def Obligations.TrainingWords : Prop :=
  ∀ (s : State) (port : PortNo) (cw : BitVec 128),
    (trainWord s port cw 1 5 →
      (fld cw 95 92 = s.portWidth port.toNat → ∃ t, exec (.width port cw) s = .next t ∧ partDone port 1 s t) ∧
      (fld cw 95 92 ≠ s.portWidth port.toNat → s.boot.phase = .link → ∃ t, exec (.width port cw) s = .next t ∧ stepFails port 5 s t)) ∧
    (trainWord s port cw 2 5 →
      (fld cw 95 94 = (s.port port.toNat).keyset → fld cw 63 32 = keyCheck (s.port port.toNat).keyset →
        ∃ t, exec (.key port cw) s = .next t ∧ partDone port 2 s t) ∧
      (fld cw 63 32 ≠ keyCheck (s.port port.toNat).keyset → s.boot.phase = .link →
        ∃ t, exec (.key port cw) s = .next t ∧ stepFails port 6 s t)) ∧
    (trainWord s port cw 3 5 → ∀ own peer₀, (s.port port.toNat).nonces = some (own, peer₀) →
      ∃ t, exec (.nonce port cw own) s = .next t ∧ partDone port 4
        (s.setPort port.toNat fun x => { x with
          nonces := some (own, BitVec.ofNat 64 (cwData cw)), session := some (sessionKeys x.keyset own (BitVec.ofNat 64 (cwData cw)))
          txCount := oldestSeq x + x.replayQ.length, rxCount := x.rxSeq }) t) ∧
    (∀ n, 5 ≤ n → trainWord s port cw 4 n → exec (.echo port cw none) s = .next { s with out := .control port cw :: s.out }) ∧
    (trainWord s port cw 4 6 → ∀ r, (r + 17) / 18 ≤ fld (s.portCfg port.toNat) 42 32 → ∃ t, exec (.echo port cw (some r)) s = .next t ∧
      t.port port.toNat = { s.port port.toNat with step := 7, measNew := (r + 17) / 18, credits := [], giving := [] } ∧
      (∀ q : PortNo, q ≠ port → t.port q.toNat = s.port q.toNat) ∧
      t.out = .control port (mkCw 5 6 0) :: (([0, 1, 4, 5, 6, 7].map fun v => Emit.control port (mkCw 5 5 (v * 2 ^ 61 +
        (grantOf s port.toNat v - tget 0 (s.port port.toNat).used v - tget 0 (s.port port.toNat).owed v) % 2 ^ 16 * 2 ^ 45))).reverse ++ s.out) ∧
      t = { s with ports := t.ports, out := t.out }) ∧
    (trainWord s port cw 4 6 → ∀ r, fld (s.portCfg port.toNat) 42 32 < (r + 17) / 18 → s.boot.phase = .link →
      ∃ t, exec (.echo port cw (some r)) s = .next t ∧ stepFails port 7 s t) ∧
    (trainWord s port cw 5 7 → exec (.credit port cw) s = .next (s.setPort port.toNat fun x => { x with
      credits := tset x.credits (fld cw 95 93) (fld cw 92 77) })) ∧
    (trainWord s port cw 6 7 → exec (.ready port cw) s = .next (s.setPort port.toNat fun x => { x with
      state := .up, step := 0, handshake := 0, measM := min x.measNew 0x7FF, carrying := s.boot.phase != .run, waitReplay := false
      nakCount := 0, ackClk := s.clk, cwClk := s.clk, replaying := if x.replayQ = [] then none else some (oldestSeq x, true) }))

/-- LOSS_OF_LIGHT, UNCORRECTABLE_LIMIT, ACK_TIMEOUT, RESERVED_CTYPE and RETRAIN_TIMEOUT. Rules: R122, R123, R136, R139, R150. Reason 0x04 is
log entry 70; the numbers of a DOWN port log entry 69. -/
def Obligations.LinksLeaveUp : Prop :=
  ∀ (s : State) (port : PortNo),
    (s.portUp port.toNat = true →
      (exec (.lossOfLight port) s = .next (retrained port 0x01 s) ∧ retrains port 0x01 s (retrained port 0x01 s)) ∧
      (∀ n outside : Nat, 64 < n → let s' := s.setPort port.toNat fun x => { x with ctr := tmod 0 x.ctr 2 (satAdd 32 · outside) }
        exec (.uncorrectableLimit port ⟨n, outside⟩) s = .next (retrained port 0x04 s') ∧ retrains port 0x04 s' (retrained port 0x04 s')) ∧
      (∀ n outside : Nat, n ≤ 64 → exec (.uncorrectableLimit port ⟨n, outside⟩) s =
        .next ((if outside = 0 then id else linkError port.toNat) (bumpPort port.toNat 2 outside s))) ∧
      ((s.port port.toNat).replayQ ≠ [] → (s.port port.toNat).ackClk + 180000 ≤ s.clk →
        exec (.ackTimeout port) s = .next (retrained port 0x09 s) ∧ retrains port 0x09 s (retrained port 0x09 s)) ∧
      (∀ cw, (s.port port.toNat).escaped = false → (s.port port.toNat).rx = none → (s.port port.toNat).waitReplay = false →
        cwValid cw = true → 5 < cwType cw →
        exec (.reservedCtype port cw) s = .next (retrained port 0x0A s) ∧ retrains port 0x0A s (retrained port 0x0A s))) ∧
    (s.lit = true → (s.port port.toNat).state = .retrain → (s.port port.toNat).retrainClk + 90000000 ≤ s.clk →
      exec (.retrainTimeout port) s = .next (goDown port.toNat (stepReason (s.port port.toNat).step) s) ∧
      ((s.port port.toNat).replayQ = [] → exec (.retrainTimeout port) s = .next (wentDown port (stepReason (s.port port.toNat).step) s)))

/-- ACK, NAK, REPLAY, CLEAR, ESCAPE and NAK_RESEND. Rules: R131, R133 to R136, R138, R139, R144. -/
def Obligations.ControlWords : Prop :=
  ∀ (s : State) (port : PortNo) (cw : BitVec 128),
    let x := s.port port.toNat
    (cwArrives s port cw 0 → x.waitReplay = false → ∃ t, exec (.ack port cw) s = .next t ∧ creditsTaken x (t.port port.toNat) cw ∧
      (t.port port.toNat).replayQ = x.replayQ.filter (fun k => !seqLe (hSeq k.hdr) (cwSeq cw)) ∧
      ((∃ k ∈ x.replayQ, seqLe (hSeq k.hdr) (cwSeq cw) = true) → (t.port port.toNat).ackClk = s.clk) ∧
      (let y := t.port port.toNat
       y = { x with credits := y.credits, replayQ := y.replayQ, ackClk := y.ackClk, replaying := y.replaying }) ∧
      tget [] t.fab.leaving (replayKey port.toNat) = tget [] s.fab.leaving (replayKey port.toNat) ++
        ((x.replayQ.filter fun k => seqLe (hSeq k.hdr) (cwSeq cw)).map fun k =>
          { pkt := k, owner := .none, cells := cellsOf k.hdr, ring := 0, since := s.clk, targets := [], reserved := [] }) ∧
      (∀ q : PortNo, q ≠ port → t.port q.toNat = s.port q.toNat) ∧
      t = { s with ports := t.ports, fab := { s.fab with leaving := t.fab.leaving } }) ∧
    (cwArrives s port cw 1 → x.waitReplay = false → ∃ t, exec (.nak port cw) s = .next t ∧ creditsTaken x (t.port port.toNat) cw ∧
      tget 0 (t.port port.toNat).ctr 7 = min (tget 0 x.ctr 7 + 1) 0xFFFFFFFF ∧
      (x.replaying = none → seqLe (oldestSeq x) (cwSeq cw) = true → seqLe (cwSeq cw) x.txSeq = true →
        (t.port port.toNat).replaying = some (cwSeq cw, true)) ∧
      t.port port.toNat = { x with
        credits := (t.port port.toNat).credits, ctr := (t.port port.toNat).ctr, replaying := (t.port port.toNat).replaying } ∧
      (∀ q : PortNo, q ≠ port → t.port q.toNat = s.port q.toNat) ∧ t = { s with ports := t.ports }) ∧
    (cwArrives s port cw 2 → (x.waitReplay = true → cwSeq cw = x.rxSeq) → ∃ t, exec (.replay port cw) s = .next t ∧
      creditsTaken x (t.port port.toNat) cw ∧
      t.port port.toNat = { x with
        waitReplay := false, nakDue := false, credits := (t.port port.toNat).credits
        rxCount := if x.rxCount = x.rxSeq then cwSeq cw + (x.rxSeq + 65536 - cwSeq cw) % 65536 else x.rxCount } ∧
      (∀ q : PortNo, q ≠ port → t.port q.toNat = s.port q.toNat) ∧ t = { s with ports := t.ports }) ∧
    (x.waitReplay = true → cwSeq cw ≠ x.rxSeq → exec (.replay port cw) s = .next s) ∧
    (cwArrives s port cw 3 → x.waitReplay = false → ∃ t, exec (.cwClear port cw) s = .next t ∧ creditsTaken x (t.port port.toNat) cw ∧
      t.port port.toNat = { x with cleared := true, credits := (t.port port.toNat).credits } ∧
      (∀ q : PortNo, q ≠ port → t.port q.toNat = s.port q.toNat) ∧ t = { s with ports := t.ports }) ∧
    (cwArrives s port cw 4 → x.waitReplay = false → ∃ t, exec (.escape port cw) s = .next t ∧ creditsTaken x (t.port port.toNat) cw ∧
      t.port port.toNat = { x with escaped := true, credits := (t.port port.toNat).credits } ∧
      (∀ q : PortNo, q ≠ port → t.port q.toNat = s.port q.toNat) ∧ t = { s with ports := t.ports }) ∧
    (s.portUp port.toNat = true → x.waitReplay = true → x.nakDue = false → x.nakClk + 2 * replayBound s (s.portWidth port.toNat) ≤ s.clk →
      (x.nakCount < 4 → x.busyUntil ≤ s.clk → x.cut = none → ∃ t, exec (.nakResend port) s = .next t ∧
        (t.port port.toNat).nakCount = x.nakCount + 1 ∧ (t.port port.toNat).nakClk = s.clk ∧ (t.port port.toNat).waitReplay = true ∧
        (t.port port.toNat).nakDue = false ∧ tget 0 (t.port port.toNat).ctr 6 = min (tget 0 x.ctr 6 + 1) 0xFFFFFFFF ∧
        (∀ q : PortNo, q ≠ port → t.port q.toNat = s.port q.toNat) ∧
        t = { s with ports := t.ports, out := .control port (mkCw 1 x.rxSeq (creditField x)) :: s.out }) ∧
      (x.nakCount < 4 → s.clk < x.busyUntil ∨ x.cut ≠ none → exec (.nakResend port) s =
        .next (s.setPort port.toNat fun y => { y with nakCount := y.nakCount + 1, waitReplay := true, nakDue := true })) ∧
      (4 ≤ x.nakCount → exec (.nakResend port) s = .next (retrained port 0x08 s) ∧ retrains port 0x08 s (retrained port 0x08 s)))

/-- PACKET_HEADER: reception, checks, sequence and policing. Rules: R56, R57, R124 to R128, R134, R141, R143, R144, R198 to R200. -/
def Obligations.PacketHeaders : Prop :=
  ∀ (s : State) (port : PortNo) (line : BitVec 256) (early : List Byte),
    let p := port.toNat
    let x := s.port p
    let go := exec (.packetHeader port ⟨line, early⟩) s
    let h := if x.cleared then line else (readHeader x line).1
    let n := (readHeader x line).2
    let l := countedLen s p h
    let tokens := (s.policer (policerNo (portFlask s p) (hCls h))).tokens
    let u := s.setPort p fun y => { y with escaped := false, cleared := false }
    let pay := cipherPayload (rxKey x) n early
    (x.session = none → h = line ∧ n = x.rxCount ∧ pay = early) ∧
    (s.portUp p = false ∨ x.rx ≠ none ∨ x.waitReplay = true → go = .next s) ∧
    (s.portUp p = true → x.rx = none → x.waitReplay = false →
      (hCrc h ≠ headerCrc h → x.cleared = true → go = .next (bumpPort p 10 1 u)) ∧
      (hCrc h ≠ headerCrc h → x.cleared = false → go = .next (linkError p (bumpPort p 3 1 u))) ∧
      (hCrc h = headerCrc h → x.cleared = true → go = .next (receiving p (receptionOf s p h 0 true false false) u)) ∧
      (hCrc h = headerCrc h → x.cleared = false → early.length = (if earlyUse s p && scheduledClass h then payloadLen h else 0) →
        wordsGood s →
        (hSeq h = x.rxSeq → scheduledClass h = false → ¬ isPoliced s p h →
          go = .next (receiving p (receptionOf s p h n false false false) u)) ∧
        (hSeq h = x.rxSeq → isPoliced s p h → 1024 * l ≤ tokens →
          go = .next (receiving p (receptionOf s p h n false false false) (afterPolicer s p h u))) ∧
        (hSeq h = x.rxSeq → isPoliced s p h → tokens < 1024 * l → s.replayMode = false →
          let r := receptionOf s p h n false false true
          let v := receiving p r (afterPolicer s p h u)
          go = .next ((release (.port port (hCls h)) (cellsOf h) (charge (.port port (hCls h)) (cellsOf h) v)).setPort p
            fun y => { y with rx := some r })) ∧
        (hSeq h = x.rxSeq → hCls h = 2 → hType h = 6 → earlyUse s p = false → headerBad s p h = none → s.replayMode = false →
          let v := receiving p (receptionOf s p h n false false false) u
          go = .next { v with fab := { v.fab with stamped := v.fab.stamped ++
            [{ inst := hInst h, port := port, rank := hAddr h / 16 % 2 ^ 20, pour := s.job.pour, clk := s.pourOff
               lines := (payloadLen h + 127) / 128, hdr := h, ident := s.fab.nextIdent }] } }) ∧
        (hSeq h = x.rxSeq → scheduledClass h = true → hType h ≠ 6 → earlyUse s p = true → headerBad s p h = none → s.replayMode = false →
          let r := receptionOf s p h n false false false
          let v := receiving p r u
          scheduledBad v (rxPacket p r pay 0 false true) = none →
          go = .next ((toIngress p (rxPacket p r pay 0 false true) (earlyDue v p r) v).setPort p
            fun y => { y with rx := some { r with early := true } })) ∧
        (hSeq h ≠ x.rxSeq → (x.rxSeq + 65536 - hSeq h % 65536) % 65536 < 32768 →
          (¬ isPoliced s p h → go = .next (receiving p (receptionOf s p h n false true false) u)) ∧
          (isPoliced s p h →
            go = .next (receiving p (receptionOf s p h n false true (decide (tokens < 1024 * l))) (afterPolicer s p h u)))) ∧
        (hSeq h ≠ x.rxSeq → 32768 ≤ (x.rxSeq + 65536 - hSeq h % 65536) % 65536 →
          (¬ isPoliced s p h → go = .next (linkError p u)) ∧
          (isPoliced s p h → go = .next (linkError p (afterPolicer s p h u))))))

/-- PACKET_FORWARD and what the route table does with a packet. Rules: R140, R149, R155, R157, R162 to R167, R171, R172, R186. -/
def Obligations.PacketForwardingAndRouting : Prop :=
  (∀ (s : State) (port : PortNo), s.lit = true →
    let p := port.toNat
    (∀ q rest t, (s.port p).transit = q :: rest →
      let u := s.setPort p fun x => { x with transit := rest }
      (routePacket q u = (none, t) → exec (.packetForward port) s = .next t) ∧
      (∀ st d i, q.pkt.inPort = some i → routePacket q u = (some (st, d), t) → exec (.packetForward port) s =
        .next (refusePacket q st d (bumpPort i.toNat (if st = 2 then 48 else 49) 1 t)))) ∧
    (∀ r t, (s.port p).transit = [] → (s.port p).rx = some r →
      r.ptp = false → r.stale = false → r.dross = false → r.bad = none → r.forwarded = false → s.replayMode = false →
      isTransit s r.hdr = true →
      let q := rxQ p (rxPacket p r [] 0 false false) s
      (routePacket q (charge q.owner q.cells s) = (none, t) →
        exec (.packetForward port) s = .next (t.setPort p fun x => { x with rx := some { r with forwarded := true } })) ∧
      (∀ e, routePacket q (charge q.owner q.cells s) = (some e, t) → exec (.packetForward port) s = .next t)) ∧
    ((s.port p).transit = [] → (s.port p).rx = none → exec (.packetForward port) s = .next s)) ∧
  (∀ (s : State) (q : QPkt), wordsGood s →
    let h := q.pkt.hdr
    let e := s.cfgw (routeKey h)
    let i := q.pkt.inPort.map (·.toNat)
    let p := swapPort s (fld e 55 48)
    let here := q.src / 256
    (bit e 63 = false → routePacket q s = (some (0x02, hDst h), s)) ∧
    (bit e 63 = true → bit (BitVec.ofNat 16 (fld e 31 16)) (hFlask h) = false →
      routePacket q s = (some (0x05, (i.map (portFlask s)).getD 0), s)) ∧
    (bit e 63 = true → bit (BitVec.ofNat 16 (fld e 31 16)) (hFlask h) = true → fld e 62 61 = 0 →
      (some p = i → routePacket q s = (some (0x02, hDst h), s)) ∧
      (some p ≠ i → bit e 59 = false →
        let q' := { q with ring := flowHash s h / 2 ^ 16 % 8, targets := [p], reserved := [], since := s.clk }
        let out := if p / 16 = here then egressSt p else stopOut (stopKey q'.ring (ringDir here (p / 16)) here)
        routePacket q s = (none, { s with fab := { s.fab with xbar := tmod .reset s.fab.xbar out fun o => { o with waiting := o.waiting ++
          [{ q := q', input := q.src % 256, got := (List.range (slotsOf h)).map (readyClk s q'), sent := 0 }] } } }))) ∧
    (bit e 63 = true → bit (BitVec.ofNat 16 (fld e 31 16)) (hFlask h) = true → fld e 62 61 = 1 →
      liveMembers s (fld e 47 36) (fld e 35 32) = [] → routePacket q s = (some (0x02, hDst h), s)) ∧
    (bit e 63 = true → bit (BitVec.ofNat 16 (fld e 31 16)) (hFlask h) = true → 2 ≤ fld e 62 61 → bit e 59 = false →
      let ts := ((mcastPorts s (fld e 47 36)).map (swapPort s)).filter fun p => s.portEnabled p && some p != i
      let q' := { q with
        ring := flowHash s h / 2 ^ 16 % 8, targets := ts, reserved := [], since := s.clk
        mask := fld (s.cfgw (tbKey 2 (64 * fld e 47 36))) 15 0 }
      let v := poolPush (mcastKey here (hCls h)) q.cells s
      routePacket q s = (none, { v with fab := { v.fab with mcast := tmod [] v.fab.mcast (8 * here + hCls h) (· ++ [q']) } })))

/-- PACKET_TRAILER: acceptance, discard, stomp and link error. Rules: R22, R125, R128, R131, R134, R140, R143, R150, R173, R186, R199, R399,
R402. A stale packet with a failing trailer is log entry 72. -/
def Obligations.PacketTrailers : Prop :=
  ∀ (s : State) (port : PortNo) (r : RxPacket) (onLine : List Byte) (lineTrailer : Word) (fixed bad : Nat),
    let p := port.toNat
    let go := exec (.packetTrailer port onLine lineTrailer fixed bad) s
    let key := if r.ptp then none else rxKey (s.port p)
    let payload := cipherPayload key r.count onLine
    let trailer := cipherTrailer key r.count onLine.length lineTrailer
    let counted := bumpPort p 2 bad (bumpPort p 1 fixed s)
    let u := bumpPort p 2 bad (bumpPort p 1 fixed (s.setPort p fun x => { x with rx := none }))
    let right := trailerOf r.hdr payload
    let k := rxPacket p r payload trailer false true
    let v := receivedCounts p r.hdr (expectedAdvances p r.count (capturePacket p k false u))
    let q := rxQ p k v
    (s.portUp p = false → go = .next s) ∧
    (s.portUp p = true → (s.port p).rx = none → go = .next (if 0 < bad then linkError p counted else counted)) ∧
    ((s.port p).rx = some r → s.portUp p = true → onLine.length = payloadLen r.hdr →
      (r.stale = true → go = .next u) ∧
      (r.ptp = false → r.stale = false → trailer = right → bad = 0 →
        (r.dross = true → s.replayMode = false → go = .next v) ∧
        (r.dross = false → s.replayMode = true →
          let w := { v with cap := { v.cap with replayDrops := v.cap.replayDrops + 1 } }
          (scheduledClass r.hdr = true → go = .next w) ∧
          (scheduledClass r.hdr = false →
            go = .next (w.setPort p fun x => { x with giving := tmod 0 x.giving (hCls r.hdr) (· + cellsOf r.hdr) }))) ∧
        (r.dross = false → s.replayMode = false → bit (portTap s p) 4 = false →
          (r.forwarded = true → go = .next (finishCopies r.ident payload false v)) ∧
          (r.forwarded = false → r.early = true → hType r.hdr ≠ 6 → go = .next v) ∧
          (r.forwarded = false → r.early = false → scheduledClass r.hdr = true → r.bad = none →
            go = .next (v.setPort p fun x => { x with inbox := x.inbox ++ [{ q with owner := .none, cells := 0 }] })) ∧
          (r.forwarded = false → r.early = false → scheduledClass r.hdr = false → ∀ st d, r.bad = some (st, d) →
            go = .next (refusePacket q st d (charge q.owner q.cells v))) ∧
          (r.forwarded = false → r.early = false → r.bad = none → hType r.hdr ≠ 4 → isTransit s r.hdr = true →
            go = .next ((charge q.owner q.cells v).setPort p fun x => { x with transit := x.transit ++ [q] })) ∧
          (r.forwarded = false → r.early = false → r.bad = none → hType r.hdr ≠ 4 → scheduledClass r.hdr = false →
            isTransit s r.hdr = false → go = .next (placeLocal q (.station (BitVec.ofNat 12 (hDstStation r.hdr))) (hDstStation r.hdr)
              (charge q.owner q.cells v))))) ∧
      (r.ptp = false → r.stale = false → trailer = right ^^^ BitVec.allOnes 64 → bad = 0 → r.early = false →
        let k := rxPacket p r payload trailer true true
        let v := dropStamp r.ident (receivedCounts p r.hdr (expectedAdvances p r.count (bumpPort p 5 1 (capturePacket p k false u))))
        let q := rxQ p k v
        (r.forwarded = true → go = .next (finishCopies r.ident payload true v)) ∧
        (r.forwarded = false → r.dross = true ∨ scheduledClass r.hdr = true → go = .next v) ∧
        (r.forwarded = false → r.dross = false → scheduledClass r.hdr = false →
          go = .next (release q.owner q.cells (charge q.owner q.cells v)))) ∧
      (r.ptp = false → r.stale = false → r.forwarded = false → r.early = false → r.dross = false →
        let c := capturePacket p k true u
        (trailer ≠ right → trailer ≠ right ^^^ BitVec.allOnes 64 ∨ 0 < bad →
          go = .next (linkError p (dropStamp r.ident (bumpPort p 4 1 c)))) ∧
        (trailer = right → 0 < bad → go = .next (linkError p (dropStamp r.ident c)))) ∧
      (r.ptp = true → r.stale = false → bad = 0 → trailer = right →
        (hType r.hdr = 4 → r.bad = none → (payload.headD 0).toNat % 16 ∈ [0, 1, 9, 11] → bit (portTap s p) 4 = false →
          go = .next (receivedCounts p r.hdr (capturePacket p k false u))) ∧
        (hType r.hdr ≠ 4 ∨ r.bad ≠ none ∨ (payload.headD 0).toNat % 16 ∉ [0, 1, 9, 11] →
          go = .next (bumpPort p 10 1 (capturePacket p k false u)))))

/-- WRITE, READ and READ_DATA to a memory station. Rules: R126, R127, R145, R346, R355, R356, R431. -/
def Obligations.RequestDeliveries : Prop :=
  ∀ (s : State) (port : PortNo) (q : QPkt) (rest : List QPkt) (type : Nat) (c : Instr),
    (type, c) ∈ [(0, Instr.write port), (1, .read port), (2, .readData port)] →
    firstAccepted s port.toNat type q rest → scheduledClass q.pkt.hdr = false →
    let u := accepted port.toNat rest s
    let h := q.pkt.hdr
    let a := hDstStation h
    let len := if type = 1 then 16 * ((q.pkt.payload.getD 8 0).toNat + 1) else q.pkt.payload.length
    let m : MemRequest :=
      { addr := hAddr h, len := len, isWrite := type != 1, data := if type = 1 then [] else q.pkt.payload, enables := BitVec.allOnes 64
        reg := 0, pkt := some q.pkt, owner := q.owner, admitted := false, station := BitVec.ofNat 12 a }
    (∀ r, s.running = true → stationPresent s a = true → (stationFlask s a = 0 ∨ stationFlask s a = hFlask h) → kindOf a = 7 →
      absentAddr s (hAddr h) = false → hAddr h % 16 = 0 → regionOf s (hAddr h) len = some r →
      (if type = 1 then rgRead s r else rgWrite s r) = true → hFlask h = rgFlask s r → shaking s r = false →
      let m := { m with reg := rgFlask s r }
      let fits := fitsRegulator s m && !(s.mem.waiting.any fun x => x.reg == m.reg && !x.admitted)
      let v := if fits then chargeRegulator m u else u
      exec c s = .next { v with mem := { v.mem with waiting := v.mem.waiting ++ [{ m with admitted := fits }] } }) ∧
    (∀ st d, stationCheck u q.pkt = some (st, d) → exec c s = .next (answerDelivered a q.pkt q.owner st d u)) ∧
    (∀ st d, stationCheck u q.pkt = none →
      requestCheck u (hAddr h) len (if type = 1 then rgRead u else rgWrite u) (some (hFlask h)) q.pkt.inPort = .error (st, d) →
      exec c s = .next (answerDelivered a q.pkt q.owner st d u))

/-- COMPLETION, NOTICE and CONTRIB. Rules: R6, R145, R155, R225, R268, R287, R289, R370, R372, R375 to R377, R385, R431. The counter of
answers to an absent station is log entry 76. -/
def Obligations.AnswersNoticesAndContributions : Prop :=
  ∀ (s : State) (port : PortNo) (q : QPkt) (rest : List QPkt),
    let p := port.toNat
    let u := accepted p rest s
    let h := q.pkt.hdr
    let a := hDstStation h
    (firstAccepted s p 3 q rest →
      let v := consume (a / 256) h q.owner u
      (stationPresent s a = true → q.pkt.payload.headD 0 = 0 →
        exec (.completion port) s = .next (sendSignal (s.clk + 1) a (.add 30 1) none v)) ∧
      (stationPresent s a = true → q.pkt.payload.headD 0 ≠ 0 → exec (.completion port) s = .next
        (sendSignal (s.clk + 1) a (.set 63) none (v.setStation a fun x => { x with ncpl := BitVec.ofNat 64 (beNat (q.pkt.payload.take 8)) }))) ∧
      (stationPresent s a = false → exec (.completion port) s = .next
        (match q.pkt.inPort with | some i => bumpPort i.toNat 100 1 v | none => v))) ∧
    (firstAccepted s p 5 q rest →
      let v := consume (a / 256) h q.owner u
      let head := noticeHead q.pkt
      let items := noticeItems q.pkt
      (s.running = true → hLen h = fld head 119 112 + 1 → fld head 127 120 = 1 → fld head 111 64 = s.job.heat →
        exec (.notice port) s = .next (decide' (each (items.filter fun it => fld it 127 124 != 2) (entryItem p)
          (each (items.filter fun it => fld it 127 124 == 2) (entryItem p) v)))) ∧
      (s.running = true → hLen h = fld head 119 112 + 1 → fld head 127 120 = 2 →
        exec (.notice port) s = .next (each items (heatRetractItem p (fld head 111 64)) v)) ∧
      (s.running = false → exec (.notice port) s = .next (answerDelivered a q.pkt q.owner 0x07 s.boot.phase.code u)) ∧
      (s.running = true → hLen h ≠ fld head 119 112 + 1 →
        exec (.notice port) s = .next (answerDelivered a q.pkt q.owner 0x03 0 u))) ∧
    (firstAccepted s p 6 q rest →
      (∀ w, dropRemoved p h u = some w →
        exec (.contrib port) s = .next { w with fab := { w.fab with stamped := w.fab.stamped.filter fun c => c.ident != q.pkt.ident } }) ∧
      (dropRemoved p h u = none → scheduledBad u q.pkt = none → lateArrival p h u = u →
        exec (.contrib port) s = .next { u with fab := { s.fab with flights := s.fab.flights ++ (tileLines q.pkt port).map fun l =>
          { due := q.since + 32, station := ingressOf s p, qend := 0, line := l, src := none } } }) ∧
      (dropRemoved p h u = none → s.running = false → exec (.contrib port) s =
        .next (refusePacket { q with owner := .none, cells := 0 } 0x07 s.boot.phase.code (dropStamp q.pkt.ident u))))

/-- EGRESS_SELECT: what a port sends next. Rules: R118, R123, R135, R161, R172, R192 to R197, R206. What a port knows of the next scheduled
packet is log entry 24. -/
def Obligations.EgressChoices : Prop :=
  ∀ (s : State) (port : PortNo) (ahead : Option Nat),
    let p := port.toNat
    let x := s.port p
    let go := exec (.egressSelect ⟨port, ahead⟩) s
    let j := untouched s p
    (s.replayMode = false → s.portUp p = true → x.carrying = true → s.clk < x.busyUntil ∨ x.cut ≠ none → go = .next s) ∧
    (s.replayMode = false → s.portUp p = false → x.scheduled = [] → go = .next s) ∧
    (∀ n, mayChoose s p → x.replaying = some (n, true) →
      go = .next ((sendCw p 2 n s).setPort p fun y =>
        { y with replaying := if y.txSeq = n then none else some (n, false), busyUntil := (sendCw p 2 n s).clk + 1 })) ∧
    (∀ q rest, mayChoose s p → x.replaying = none → x.scheduled = q :: rest → q.since ≤ s.clk → windowAllows s p q.pkt.hdr = true →
      plainSend s p q.pkt.hdr →
      let v := takeScheduled p q s
      go = .next (sendSequenced p v.1 j v.2)) ∧
    (mayChoose s p → x.replaying = none → scheduledHead s p = none →
      (x.nakDue = true → go = .next ((nakNow p s).setPort p fun y => { y with busyUntil := s.clk + 1 })) ∧
      (x.nakDue = false → x.cwClk + 128 ≤ s.clk → go = .next (fillerSent p s)) ∧
      (x.nakDue = false → s.clk < x.cwClk + 128 →
        (∀ k rest, x.ptpQ = k :: rest → bucketAllows s p 0 k.hdr = true → hType k.hdr = 4 →
          isCandidate s p (hCls k.hdr) = false → bit (portTap s p) 5 = false →
          go = .next (sendPtp p k j (drawBucket p 0 k.hdr (s.setPort p fun y => { y with ptpQ := rest })))) ∧
        (ptpHead s p = none →
          (∀ c q, heldDue s p ahead = some (c, q) → hType q.pkt.hdr ≠ 4 → bit (portTap s p) 5 = false → go = .next (sendSequenced p q
            { act := 0, link := false, sel := 0, draw := 0 } (s.setPort p fun y => { y with held := tmod [] y.held c List.tail }))) ∧
          (heldDue s p ahead = none →
            (∀ q, bufferHead s p ahead = some q → plainSend s p q.pkt.hdr →
              go = .next (sendSequenced p q j (s.setPort p fun y => { y with mcastBuf := y.mcastBuf.erase q }))) ∧
            (bufferHead s p ahead = none → (∀ c ∈ classOrder p ahead s, readyHead (tagged p ahead s) p c ahead = none) →
              go = .next (fillerSent p (tagged p ahead s))) ∧
            (bufferHead s p ahead = none → ∀ before c after h, classOrder p ahead s = before ++ c :: after →
              (∀ d ∈ before, readyHead (tagged p ahead s) p d ahead = none) → readyHead (tagged p ahead s) p c ahead = some h →
              let u := drawBucket p c h.2.pkt.hdr (tagged p ahead s)
              let v := if c = 4 ∨ c = 5 then payTag p c h.2.pkt.hdr u else u
              (h.1 = .unicast → plainSend s p h.2.pkt.hdr → go = .next (sendSequenced p h.2 j
                (leaveQueue (egressKey p c) h.2 (v.setPort p fun y => { y with egress := tmod [] y.egress c List.tail })))) ∧
              (∀ b, h.1 = .mcast b → go = .next (
                let w := v.setPort p fun y => { y with mcastSel := y.mcastSel ++ [(b, c)] }
                { w with fab := { w.fab with mcast := tmod [] w.fab.mcast (8 * b + c) fun l =>
                  match l with
                  | q :: rest => { q with reserved := q.reserved ++ [p] } :: rest
                  | [] => [] } })))))))

/-- Sending numbers a packet, keeps it for replay, takes its credits and counts it. Rules: R125, R130, R133, R143, R144, R186. -/
def Obligations.SendingNumbersAndKeeps : Prop :=
  ∀ (s : State) (p : Nat) (q : QPkt) (j : Injected), j.act = 0 →
    let x := s.port p
    let t := sendSequenced p q j s
    let h := sealHeader q.pkt.hdr x.txSeq
    let good := trailerOf h q.pkt.payload
    let tr := if q.pkt.stomped then good ^^^ BitVec.allOnes 64 else good
    let key := txKey x
    let line := cipherHeader key x.txCount h
    (t.port p).txSeq = (x.txSeq + 1) % 65536 ∧ (t.port p).txCount = x.txCount + 1 ∧
    (t.port p).replayQ = x.replayQ ++ [{ q.pkt with hdr := h, trailer := tr }] ∧
    (∀ c, tget 0 (t.port p).credits c =
      if c = hCls h ∧ hCls h ≠ 2 ∧ hCls h ≠ 3 then tget 0 x.credits c - cellsOf h else tget 0 x.credits c) ∧
    (t.port p).busyUntil = s.clk + sendClk s p h ∧
    ((t.port p).cut = none ↔ q.pkt.complete = true) ∧
    (∀ d < 8, tget 0 (t.port p).ctr (32 + d) = if d = hCls q.pkt.hdr then min (tget 0 x.ctr (32 + d) + 1) (2 ^ 48 - 1) else tget 0 x.ctr (32 + d)) ∧
    t.out = (if q.pkt.complete then .packet (BitVec.ofNat 8 p) line (cipherPayload key x.txCount q.pkt.payload)
        (cipherTrailer key x.txCount q.pkt.payload.length tr)
      else .packetStart (BitVec.ofNat 8 p) line q.pkt.ident) ::
      ((if cwValid (BitVec.ofNat 128 (line.toNat / 2 ^ 128)) then [.control (BitVec.ofNat 8 p) (mkCw 4 0 (creditField x))] else []) ++ s.out) ∧
    (hSeq h = x.txSeq % 65536 ∧ hCrc h = headerCrc h ∧ hType h = hType q.pkt.hdr ∧ hCls h = hCls q.pkt.hdr ∧ hDst h = hDst q.pkt.hdr ∧
      hAddr h = hAddr q.pkt.hdr ∧ hLen h = hLen q.pkt.hdr)

/-- REORDER_TIMEOUT, MCAST_HEAD_DEPART and RING_ENTRY. Rules: R153, R157, R160, R161, R172, R187. Readings of the movement are log entry 24. -/
def Obligations.FabricMovement : Prop :=
  (∀ (s : State) (port : PortNo),
    let p := port.toNat
    (mayChoose s p → (s.port p).replaying = none →
      (heldDue s p none = none → exec (.reorderTimeout port) s = .next s) ∧
      (∀ c q, heldDue s p none = some (c, q) → hType q.pkt.hdr ≠ 4 → bit (portTap s p) 5 = false → exec (.reorderTimeout port) s =
        .next (sendSequenced p q { act := 0, link := false, sel := 0, draw := 0 }
          (s.setPort p fun x => { x with held := tmod [] x.held c List.tail })))) ∧
    (s.portUp p = false ∨ (s.port p).carrying = false ∨ s.clk < (s.port p).busyUntil ∨ (s.port p).replaying ≠ none →
      exec (.reorderTimeout port) s = .next s)) ∧
  (∀ (s : State) (bay : Fin 16) (cls : Fin 8) (q : QPkt) (rest : List QPkt),
    let key := 8 * bay.val + cls.val
    let u := { s with fab := { s.fab with mcast := tmod [] s.fab.mcast key List.tail } }
    let copy (targets : List Nat) (mask : Nat) : QPkt :=
      { q with owner := .none, cells := 0, targets := targets, reserved := [], mask := mask, goal := .copy }
    let near := q.targets.filter fun p => p / 16 == bay.val
    let bays := maskBays q.mask bay.val
    let here := each near (fun p x => crossTo (egressSt p) (copy [p] 0) x) u
    s.lit = true → s.replayMode = false → tget [] s.fab.mcast key = q :: rest →
    ((∃ p ∈ q.targets, p ∉ q.reserved) → exec (.mcastHeadDepart bay cls) s = .next s) ∧
    ((∀ p ∈ q.targets, p ∈ q.reserved ∧ s.portUp p = true) →
      (bays = [] → exec (.mcastHeadDepart bay cls) s = .next (leaveQueue (mcastKey bay.val cls.val) q here)) ∧
      (bays ≠ [] → exec (.mcastHeadDepart bay cls) s = .next (leaveQueue (mcastKey bay.val cls.val) q
        (crossTo (stopOut (stopKey q.ring (mcastDir bay.val bays) bay.val))
          (copy (q.targets.filter fun p => p / 16 != bay.val) ((bays.map (2 ^ ·)).sum)) here)))) ∧
    (∀ p, (∀ d ∈ q.targets, d ∈ q.reserved ∧ s.portUp d = false) → q.targets.min? = some p → bays = [] →
      exec (.mcastHeadDepart bay cls) s = .next (refusePacket q 0x08 p (poolPop (mcastKey bay.val cls.val) q.cells
        (each q.targets (fun d x => x.setPort d fun y => { y with mcastSel := y.mcastSel.erase (bay.val, cls.val) }) u))))) ∧
  (∀ (s : State) (ring : Fin 8) (ccw : Bool) (bay : Fin 16), s.lit = true →
    let dir := if ccw then 1 else 0
    let key := stopKey ring.val dir bay.val
    let next := nextBay dir bay.val
    let x := s.stop key
    (slotFree s ring.val dir bay.val = false ∨ movable s ring.val dir bay.val ≠ none ∨ 2 < x.transit.length →
      exec (.ringEntry ring ccw bay) s = .next s) ∧
    (firstWaiting (x.waiting.filter (roomAt s ring.val dir next)) = none → exec (.ringEntry ring ccw bay) s = .next s) ∧
    (∀ q, slotFree s ring.val dir bay.val = true → movable s ring.val dir bay.val = none → x.transit.length ≤ 2 →
      firstWaiting (x.waiting.filter (roomAt s ring.val dir next)) = some q →
      let n := slotsOf q.pkt.hdr
      let r : RingPkt := { q := q, got := List.replicate n s.clk, sent := 0, came := s.clk }
      exec (.ringEntry ring ccw bay) s = .next (arriveStop ring.val dir next q (s.clk + hopFrom dir bay.val) (((s.setStop key fun y =>
        { y with waiting := y.waiting.erase q, transit := y.transit ++ [r] }).setStop key fun y =>
          { y with transit := if n = 1 then y.transit.erase r else y.transit.replace r { r with got := r.got.tail, sent := 1 } }).setStop key
            fun y => { y with given := true, ctr := tmod 0 y.ctr 2 (satAdd 48 · 1) }))))

/-- POST_RELEASE, QUEUE_RELEASE, FLOWLET_SWEEP and NOTICE_SEND. Rules: R126, R127, R169, R176, R181, R182, R184, R225, R375, R376. -/
def Obligations.ReleasesSweepsAndNotices : Prop :=
  ∀ s : State,
    (∀ (st : StAddr) (k : Packet) (rest : List Packet),
      let a := st.toNat
      let u := settle a s
      (u.station a).postBuf = k :: rest → u.running = true →
      (quotaRoom u a (cellsOf k.hdr) = false → exec (.postRelease st) s = .next u) ∧
      (quotaRoom u a (cellsOf k.hdr) = true →
        let q : QPkt :=
          { pkt := k, owner := .station (BitVec.ofNat 12 a), cells := cellsOf k.hdr, ring := 0, since := u.clk, targets := [], reserved := []
            src := a }
        let v := charge q.owner q.cells (sendSignal (u.clk + 1) a (.add 31 1) none (u.setStation a fun x => { x with postBuf := rest }))
        (typeAllowed k.hdr = false ∨ hVer k.hdr ≠ 1 → exec (.postRelease st) s = .next (refusePacket q 0x06 (fld k.hdr 255 240) v)) ∧
        (typeAllowed k.hdr = true → hVer k.hdr = 1 → addressedHere u k.hdr = false →
          (hAddr k.hdr % 16 = 0 ∨ hType k.hdr = 3 → exec (.postRelease st) s = .next (forwardPacket q v)) ∧
          (hAddr k.hdr % 16 ≠ 0 → hType k.hdr ≠ 3 → exec (.postRelease st) s = .next (refusePacket q 0x04 0 v))) ∧
        (typeAllowed k.hdr = true → hVer k.hdr = 1 → addressedHere u k.hdr = true → exec (.postRelease st) s =
          .next (placeLocal q (.station (BitVec.ofNat 12 (hDstStation k.hdr))) (hDstStation k.hdr) v)))) ∧
    (∀ (q : PoolQueue) (k : QPkt) (rest : List QPkt), tget [] s.fab.leaving (queueKeyOf q) = k :: rest →
      exec (.queueRelease q) s = .next (release k.owner k.cells (poolPop (queueKeyOf q) k.cells
        { s with fab := { s.fab with leaving := tmod [] s.fab.leaving (queueKeyOf q) List.tail } }))) ∧
    (∀ q : PoolQueue, tget [] s.fab.leaving (queueKeyOf q) = [] → exec (.queueRelease q) s = .next s) ∧
    (s.running = true → exec .flowletSweep s = .next { s with fab := { s.fab with flowlets := s.fab.flowlets.map fun e =>
      (e.1, { e.2 with valid := e.2.valid && decide ((s.fab.flowClk + 2 ^ 32 - e.2.last) % 2 ^ 32 < 2 ^ 30) }) } }) ∧
    (∀ port : PortNo, s.pwr.mainOn = true →
      (noticeGroup s port.toNat = [] → exec (.noticeSend port) s = .next s) ∧
      (∀ n ns, noticeGroup s port.toNat = n :: ns →
        let k := noticePacket s n ((n :: ns).map (·.item))
        exec (.noticeSend port) s = .next (enqueueEgress port.toNat
          { pkt := k, owner := .none, cells := cellsOf k.hdr, ring := 0, since := s.clk, targets := [port.toNat], reserved := [] }
          { s with ledger := { s.ledger with notices := (n :: ns).foldl (fun m e => m.erase e) s.ledger.notices } })))

/-- UNSCHEDULED_ACCESS and REFRESH_WINDOW. Rules: R43, R84, R342, R347, R348, R360 to R363, R401. The order among write-back, capture and
shakeout, and what a stack is due, are log entry 29. -/
def Obligations.UnscheduledAccessesAndRefresh : Prop :=
  (∀ (s : State) (k : Fin 8) (upsets : List Upset), s.pwr.mainOn = true → (s.stack k).ready = true →
    let u := addUpsets upsets s;
      (∀ e, dueWriteBack u k = some e → exec (.unscheduledAccess k upsets) s = .next (writeBackLine e u)) ∧
      (∀ die, dueWriteBack u k = none → dueCapture u k = some die → exec (.unscheduledAccess k upsets) s = .next (captureRecord die u)) ∧
      (∀ x, dueWriteBack u k = none → dueCapture u k = none → shakeChunk u k = some x → x.2 ∉ u.mem.busErr → x.2 + 64 ∉ u.mem.busErr →
        ∃ t, exec (.unscheduledAccess k upsets) s = .next t ∧
        (∀ a, cellGet t.mem.cells a = if x.2 ≤ a ∧ a < x.2 + 128 then 0 else cellGet s.mem.cells a) ∧
        t.mem.shakeLeft = s.mem.shakeLeft.flatMap (fun e =>
          if e = x.1 then [(e.1, x.2), (x.2 + 128, e.2)].filter fun p => decide (p.1 < p.2) else [e]) ∧
        t = { s with mem := t.mem }) ∧
      (requestsYield u k = false → s.mem.waiting = [] → exec (.unscheduledAccess k upsets) s = .next u) ∧
      (∀ m, requestsYield u k = false → s.mem.waiting = [m] → m.admitted = true → stackOf m.addr = k → inPlace m = true →
        performable u m = true →
        exec (.unscheduledAccess k upsets) s = .next (performRequest m { u with mem := { u.mem with waiting := [] } }))) ∧
  (∀ (s : State) (k : Fin 8) (due : Nat) (upsets : List Upset), s.pwr.mainOn = true → (s.stack k).ready = true →
    let u := addUpsets upsets s
    (s.boot.phase ≠ .run → ∃ t, exec (.refreshWindow k due upsets) s = .next t ∧ t = { u with mem := { u.mem with regs := t.mem.regs } } ∧
      (∀ ch < 32, tget 0 (t.stack k).bank ch = (tget 0 (s.stack k).bank ch + if stackHot s k then 2 * due else due) % 64) ∧
      (t.stack k).extra = [] ∧ ∀ j, j ≠ k.val → t.stack j = s.stack j) ∧
    (s.boot.phase = .run → refreshStart s = false → exec (.refreshWindow k due upsets) s = .next u) ∧
    (s.boot.phase = .run → refreshStart s = true →
      (stackHot s k = false → exec (.refreshWindow k due upsets) s = .next (refreshWindow k due 0 u)) ∧
      (stackHot s k = true → shortWindow s = false → exec (.refreshWindow k due upsets) s = .next (refreshWindow k (2 * due) 0 u)) ∧
      (stackHot s k = true → shortWindow s = true → exec (.refreshWindow k due upsets) s = .next (refreshWindow k due due u))) ∧
    (∀ addr, injects s s.inj.hbm = false → addr ∉ s.mem.busErr →
      (tget [] s.mem.errors addr = [] → scrubLine addr s = { s with mem := { s.mem with lost := s.mem.lost.filter (·.line != addr) } }) ∧
      (∀ d, lineOutcome addr (lineDetect s addr) (storedLine s addr) (tget [] s.mem.errors addr) = .ok (d, true) →
        (scrubLine addr s).mem = { s.mem with
          writeBack := s.mem.writeBack.filter (·.1 != addr) ++ [(addr, d)], lost := s.mem.lost.filter (·.line != addr)
          regs := tmod .reset s.mem.regs (stackOf addr) fun x => { x with ctr := tmod 0 x.ctr 0 (satAdd 48 · 1) } })) ∧
    (∀ e : Nat × List Byte, e.1 ∉ s.mem.busErr →
      (writeBackLine e s).mem.cells = cellWrite s.mem.cells e.1 e.2 ∧ (writeBackLine e s).mem.errors = tdel s.mem.errors e.1 ∧
      (writeBackLine e s).mem.writeBack = s.mem.writeBack.filter (·.1 != e.1) ∧
      tget 0 ((writeBackLine e s).stack (stackOf e.1)).ctr 3 = min (tget 0 (s.stack (stackOf e.1)).ctr 3 + 1) (2 ^ 32 - 1)))

/-- POOL_WINDOW: pointers move between the cache and the free store. Rules: R178, R179, R354. -/
def Obligations.PoolWindows : Prop :=
  ∀ (s : State) (upsets : List Upset), s.boot.phase = .run → (s.stack 0).ready = true →
    let u := addUpsets upsets s;
    (poolStart s = false → exec (.poolWindow upsets) s = .next s) ∧
    (poolStart s = true →
      (s.fab.cache.length = 2048 ∨ (s.fab.cache.length < 2048 ∧ s.fab.ringCount = 0) → exec (.poolWindow upsets) s = .next u) ∧
      (2048 < s.fab.cache.length → exec (.poolWindow upsets) s =
        .next (pointersOut 2048 0 (min (s.fab.cache.length - 2048) 2048) u)) ∧
      (s.fab.cache.length < 2048 → exec (.poolWindow upsets) s = .next (pointersIn 2048 0 (2048 - s.fab.cache.length) u))) ∧
    (∀ fuel j n t, let pos := (s.fab.ringHead + s.fab.ringCount) % 49152
      0 < n → pos % 16 + n ≤ 16 →
      writeSpan (4 * pos) ((s.fab.cache.reverse.take n).flatMap pointerBytes) 3
        (noteAccess (4 * pos / 128 * 128) (s.clk + j / 4) true s) = (true, t) →
      pointersOut (fuel + 2) j n s = { t with
        fab := { t.fab with cache := t.fab.cache.take (t.fab.cache.length - n), ringCount := t.fab.ringCount + n } }) ∧
    (∀ b, b < 49152 → blockFree s b = true → pointerIn (pointerBytes b) s = { s with fab := { s.fab with
      cache := s.fab.cache ++ [b], ringHead := (s.fab.ringHead + 1) % 49152, ringCount := s.fab.ringCount - 1 } }) ∧
    (∀ d, leNat d % 65536 + leNat d / 65536 ≠ 65535 → pointerIn d s = { s with
      fab := { s.fab with ringHead := (s.fab.ringHead + 1) % 49152, ringCount := s.fab.ringCount - 1 }
      job := { s.job with quenchDue := s.job.quenchDue ++ [(s.clk, 0x41, leNat d % 65536)] } })

/-- POUR_BOUNDARY: quench, the next pour, the next slot, a verdict that quenches, a slot switch. Rules: R34, R37, R38, R47, R52, R53, R336,
R340, R383, R384, R386, R422, R424, R444. -/
def Obligations.PourBoundaries : Prop :=
  ∀ s : State, s.boundaryDue = true → s.limitReached = false →
    (s.job.quenchDue ≠ [] → ∃ t, exec .pourBoundary s = .next t ∧ t.boot.phase = .quenched ∧
      (s.boot.faultCode = 0 → ∀ e, firstCause s.job.quenchDue = some e → t.boot.faultCode = e.2.1 ∧ t.boot.faultUnit = e.2.2) ∧
      t.job = { s.job with quenchDue := [], gateState := dropped s.job.gateState, slotState := dropped s.job.slotState } ∧
      (∀ a, (t.station a).seq = if (s.station a).seq = .idle then .idle else .quenched) ∧
      t = { s with boot := t.boot, job := t.job, out := .dark :: s.out, cap := { s.cap with replayActive := false }, stations := t.stations
                   layers := t.layers }) ∧
    (s.job.quenchDue = [] → switchDue s = false → s.lastPourOfSlot = false → exec .pourBoundary s = .next (
      let u := { s with job := { s.job with pour := s.job.pour + 1, pourClk := s.job.pourClk + s.pourClks } }
      let v := fixArmed (swapGates (reloadFaulty (takeViews u)))
      startPour { v with stations := v.stations.map fun e => (e.1, swapHist s.job.pour e.2) })) ∧
    (s.job.quenchDue = [] → switchDue s = false → s.lastPourOfSlot = true → verdictCause (endRecords s) = none → exec .pourBoundary s = .next (
      let r := endRecords s
      let e := endSlot r
      let u := { e with job := { e.job with pourClk := r.boundaryClk } }
      let v := fixArmed (swapGates (reloadFaulty (takeViews u)))
      let w := { v with stations := v.stations.map fun x => (x.1, swapHist r.job.pour x.2) }
      startPour (startSlot (u.ledger.downPorts.map (swapPort u)) w))) ∧
    (∀ c x, s.job.quenchDue = [] → switchDue s = false → s.lastPourOfSlot = true → verdictCause (endRecords s) = some (c, x) →
      exec .pourBoundary s = .next (quenchNow (quenchDue c x (endRecords s)))) ∧
    (s.job.quenchDue = [] → switchDue s = true → s.lastPourOfSlot = false → ∃ t, exec .pourBoundary s = .next t ∧
      t.boot = { Boot.reset with phase := .selftest, powerOnClk := s.boot.powerOnClk, preferOnce := some s.job.slotArm } ∧
      t.job = { Job.reset with slotState := .done, slotCode := s.job.slotCode, slotArm := s.job.slotArm } ∧
      t.pwr.mainOn = s.pwr.mainOn ∧ t.fuse = s.fuse ∧ t.mem = .reset ∧ t.stations = [] ∧ t.ports = [] ∧ t.cfg = [])

/-- What the steps of a pour boundary do. Rules: R38, R51 to R53, R376, R383, R389, R403, R424. -/
def Obligations.BoundarySteps : Prop :=
  ∀ s : State,
    (∀ k, (reloadFaulty s).cfgw k =
      if k ∈ s.par.reload ∨ (k ∈ s.par.bad ∧ ∃ j ∈ s.par.reload, unitOf j = unitOf k) then tget 0 s.boot.shadow k else s.cfgw k) ∧
    (∀ k, k ∈ (reloadFaulty s).par.bad ↔ k ∈ s.par.bad ∧ ∀ j ∈ s.par.reload, unitOf j ≠ unitOf k) ∧
    ((reloadFaulty s).par.reload = []) ∧
    (s.job.gateState = .fixed → s.job.gateT = s.pourStart →
      (∀ p, ((swapGates s).port p).activeN = (s.port p).pendingN ∧ ((swapGates s).port p).pendingN = (s.port p).activeN ∧
        ((swapGates s).port p).gateActive = (s.port p).gatePending ∧ ((swapGates s).port p).gatePending = (s.port p).gateActive) ∧
      (swapGates s).ledger = { s.ledger with spareActive := s.ledger.sparePending, sparePending := s.ledger.spareActive } ∧
      (swapGates s).job = { s.job with gateState := .done, swaps := s.job.swaps + 1 }) ∧
    (s.job.gateState ≠ .fixed → swapGates s = s) ∧
    (heatComing s = none →
      (s.ledger.heatRetracted = false → nextHeat s = { s with
        ledger := { s.ledger with runs := 0, lastCommit := s.job.heat, prevViol := none, prevLate := none }
        job := { s.job with heat := s.job.heat + 1 } }) ∧
      (s.ledger.heatRetracted = true → nextHeat s = { s with
        ledger := { s.ledger with runs := s.ledger.runs + 1, prevViol := s.ledger.firstViol, prevLate := s.ledger.firstLate } }) ∧
      (s.ledger.heatRetracted = true → fld s.ledgerCfg 59 56 + 1 ≤ s.ledger.runs → verdictCause s = some (0x46, s.job.heat % 2 ^ 32)) ∧
      (s.ledger.heatRetracted = false → s.job.heat = 2 ^ 48 - 1 → verdictCause s = some (0x37, 0))) ∧
    (∀ r, heatComing s = some r → (nextHeat s).job = { s.job with heat := r.heat } ∧ verdictCause s = none ∧
      (nextHeat s).cap.diverged = (s.cap.diverged || r.heat != if s.ledger.heatRetracted then s.job.heat else s.job.heat + 1))

/-- SIGNAL_ARRIVAL: flags and counters. Rules: R222, R223, R225. The place recorded follows log entry 30. -/
def Obligations.SignalArrivals : Prop :=
  ∀ s : State,
    ((∀ x ∈ s.fab.signals, s.clk < x.due) → exec .signalArrival s = .next s) ∧
    (∀ x : Signal, s.fab.signals = [x] → x.due ≤ s.clk →
      let a := x.target.toNat
      let flags := (s.station a).flags
      let place := x.place.getD (s.station a).pc
      (∀ i, x.kind = .set i → exec .signalArrival s = .next ((signalTaken s (flagKey a i) (if bit flags i then 1 else 0) x.due).setStation a
        fun y => { y with flags := flags ||| BitVec.ofNat 64 (2 ^ i) })) ∧
      (∀ i, x.kind = .clear i → exec .signalArrival s = .next ((signalTaken s (flagKey a i) (if bit flags i then 1 else 0) x.due).setStation a
        fun y => { y with flags := flags &&& ~~~ BitVec.ofNat 64 (2 ^ i) })) ∧
      (∀ i n, x.kind = .add i n →
        let old := tget 0 (s.station a).ctr i
        let t := (signalTaken s (ctrKey a i) old x.due).setStation a fun y => { y with ctr := tset y.ctr i (min (old + n) 0xFFFF) }
        (old + n ≤ 0xFFFF → exec .signalArrival s = .next t) ∧
        (0xFFFF < old + n → exec .signalArrival s = .next (violateAt a 0x06 place s.job.pour (clkOff s (x.due - 1)) s.job.heat t))) ∧
      (∀ i n, x.kind = .take i n →
        let old := tget 0 (s.station a).ctr i
        old ≤ 0xFFFF → exec .signalArrival s = .next ((signalTaken s (ctrKey a i) old x.due).setStation a
          fun y => { y with ctr := tset y.ctr i (old - n) }))) ∧
    (∀ x y : Signal, ∀ i, s.fab.signals = [x, y] → x.due ≤ s.clk → y.due = x.due → y.target = x.target → x.kind = .set i → y.kind = .clear i →
      y.place = none → x.place = none →
      exec .signalArrival s = .next (violateAt x.target.toNat 0x05 (s.station x.target.toNat).pc s.job.pour (clkOff s (x.due - 1)) s.job.heat
        { s with fab := { s.fab with signals := [] } }))

/-- INSTRUCTION_RESULT and ENGINE_COMPLETION. Rules: R208, R219, R221, R226, R228, R467. -/
def Obligations.ResultsAndCompletions : Prop :=
  ∀ (s : State) (st : StAddr),
    let a := st.toNat
    (OnlyResults s a →
      ((∀ r ∈ (s.station a).results, s.clk < r.due) → exec (.instructionResult st) s = .next s) ∧
      (∀ before r after, (s.station a).results = before ++ r :: after → r.due ≤ s.clk → (∀ q ∈ before ++ after, s.clk < q.due) →
        let u := s.setStation a fun x => { x with results := before ++ after }
        let go := exec (.instructionResult st) s
        (∀ i v, r.kind = .scalar i v → go = .next (u.setStation a fun x => { x with sreg := tset x.sreg i v })) ∧
        (∀ i d m, r.kind = .line i d m → go = .next (u.setStation a fun x => { x with
          lreg := tset x.lreg i ((d &&& m) ||| (tget 0 x.lreg i &&& ~~~ m)) })) ∧
        (∀ e l, r.kind = .push e l → go = .next (pushEnd a e r.due r.place l u)) ∧
        (∀ k d, r.kind = .storeLine k d → go = .next (u.setStation a fun x => { x with store := tset x.store k d })) ∧
        (∀ w v, r.kind = .storeWord w v → ∃ d, go = .next (u.setStation a fun x => { x with store := tset x.store (w / 16) d }) ∧
          d.extractLsb' (64 * (w % 16)) 64 = v ∧
          ∀ j < 16, j ≠ w % 16 → d.extractLsb' (64 * j) 64 = (storeLine s a (w / 16)).extractLsb' (64 * j) 64)) ∧
      (∀ q r : PendingResult, (s.station a).results = [q, r] → q.due ≤ s.clk → r.due = q.due → q.issued < r.issued →
        r.kind.resource = q.kind.resource →
        exec (.instructionResult st) s = .next (violateClk a 0x03 r.place r.due
          (missResult a r (applyResult a q (s.setStation a fun x => { x with results := [] })))))) ∧
    (let u := settle a s
     (∀ before o after, (u.station a).ops = before ++ o :: after → o.agenda = [] → o.finish ≤ u.clk →
       (∀ q ∈ before ++ after, q.agenda ≠ [] ∨ u.clk < q.finish) →
       let v := u.setStation a fun x => { x with ops := before ++ after }
       exec (.engineCompletion st) s = .next (if o.kind = .postRead then v else fireSignal a o.word true o.finish o.place v)) ∧
     ((∀ q ∈ (u.station a).ops, q.agenda ≠ [] ∨ u.clk < q.finish) → exec (.engineCompletion st) s = .next u))

/-- LINE_ENTRY, LINE_DEPART and OWNED_SLOT_PASS. Rules: R158, R159, R187, R207 to R210, R229. An owned slot whose owner has no end bound is
log entry 73. -/
def Obligations.LineMovement : Prop :=
  (∀ (s : State) (st : StAddr) (e : Fin 8) (f : Flight), dueFlight s st.toNat e = some f →
    let v := settle st.toNat s
    let u := { v with fab := { v.fab with flights := v.fab.flights.erase f } }
    ((endLines v st.toNat e).length < 32 → exec (.lineEntry st e) s = .next (u.setStation st.toNat fun x =>
      { x with ends := tmod [] x.ends e (· ++ [{ f.line with slotClk := none, since := v.clk }]) })) ∧
    (32 ≤ (endLines v st.toNat e).length → exec (.lineEntry st e) s = .next (violate st.toNat 0x02 (0x4000 + e) u))) ∧
  (∀ (s : State) (st : StAddr) (e : Fin 8), dueFlight s st.toNat e = none → exec (.lineEntry st e) s = .next s) ∧
  (∀ (s : State) (st : StAddr),
    let a := st.toNat
    let u := settle a s
    u.running = true → departed u a = false →
    (offered u a = [] → exec (.lineDepart st) s = .next u) ∧
    (∀ r e l ls, offered u a = [(r, e)] → endLines u a e = l :: ls →
      (outputTaken u a (boundSt u a e) = false → exec (.lineDepart st) s = .next (
        let v := u.setStation a fun x => { x with ends := tmod [] x.ends e List.tail }
        { v with fab := { v.fab with
          flights := v.fab.flights ++ [{ due := u.clk + 7, station := boundSt u a e, qend := boundEnd u a e, line := l, src := none }]
          claims := v.fab.claims ++ [(boundSt u a e, a)] } })) ∧
      (outputTaken u a (boundSt u a e) = true → exec (.lineDepart st) s = .next (violate a 0x03 (0x4000 + e) u)))) ∧
  (∀ (s : State) (ring : Fin 8) (ccw : Bool) (entry : Fin 2048),
    let dir := if ccw then 1 else 0
    let w := calEntry s ring dir entry
    let a := fld w 25 14
    let u := settle a s
    let counted (i : Nat) : State → State := fun v =>
      v.setStop (stopKey ring dir (fld w 33 30)) fun x => { x with ctr := tmod 0 x.ctr i (satAdd 48 · 1) }
    wordsGood u → u.cfg = s.cfg → u.running = true → calUsed w = true → u.pourOff ∈ slotStarts w →
    (slotEndOf u a ring dir entry = none → exec (.ownedSlotPass ring ccw entry) s = .next (counted 1 u)) ∧
    (∀ e, slotEndOf u a ring dir entry = some e →
      let mine (l : Line) : Bool := l.slotClk == some (u.clk - 8)
      let ls := (endLines u a e).filter mine
      (ls ≠ [] → exec (.ownedSlotPass ring ccw entry) s = .next (counted 0 (
        let v := u.setStation a fun x => { x with ends := tmod [] x.ends e (·.filter fun l => !mine l) }
        { v with fab := { v.fab with flights := v.fab.flights ++ ls.map fun l =>
          { due := u.clk + transitClk dir (fld w 33 30) (fld w 29 26) + 10, station := boundSt v a e, qend := boundEnd v a e, line := l
            src := some (16 * ring.val + dir, a, e) } } }))) ∧
      (ls = [] → pathRemoved u a e = true → exec (.ownedSlotPass ring ccw entry) s = .next (counted 1 u)) ∧
      (ls = [] → pathRemoved u a e = false → 8 ≤ u.pourOff → exec (.ownedSlotPass ring ccw entry) s =
        .next (counted 1 (violateAt a 0x01 (0x4000 + e) u.job.pour ((u.pourOff + u.pourClks - 8) % u.pourClks) u.job.heat u)))))

/-- Waits, suppression and expiry of every instruction. Rules: R215, R220, R224, R229, R230. A row that is not at the pc changes nothing: log
entry 1. -/
def Obligations.WaitsAndSuppression : Prop :=
  ∀ (s : State) (st : StAddr) (p : Shape), p ∈ commonShapes ++ kindShapes →
    let a := st.toNat
    let u := settle a s
    let w := wordAt u a
    let pc := (u.station a).pc
    (p.here u a = false → issueRow p st s = .next s) ∧
    (considers u a = true → p.here u a = true → u.clk ≤ consideredSince u a + waitLimit u a → waitHolds u a w = false →
      issueRow p st s = .next (u.setStation a fun y => { y with seq := .wait, waitSince := some (consideredSince u a) })) ∧
    (∀ c, Issuable u a p.code → p.here u a = true → p.eff a w pc (issued u a) = .error c →
      issueRow p st s = .next (p.always a pc w (fireSignal a w true (p.fin (issued u a) a w u.clk) pc (violate a c pc (issued u a))))) ∧
    (waitOver u a = true → shapeAt u a = some p → u.par.reload = [] → u.par.bad = [] → injects u u.inj.par = false →
      injects u u.inj.sched = false → nextStep (u.station a).ops u.clk = none →
      let v := advancePc a (fireSignal a w false u.clk pc u)
      exec (.waitExpired st) s = .next (p.always a pc w (fireSignal a w true (p.fin v a w u.clk) pc (violate a 0x07 pc v))))

/-- NOP, HALT, AT, JMP, BNZ, BZ and LOOP. Rules: R215, R216, R219, R226. -/
def Obligations.ControlInstructions : Prop :=
  ∀ (s : State) (st : StAddr),
    let a := st.toNat
    let u := settle a s
    let w := wordAt u a
    let x := operandA u a
    let at' := u.job.pourClk + x.toNat + (if immOf w % 2 = 1 then u.pourClks else 0)
    let jump : State → State := fun v => v.setStation a fun y => { y with pc := targetOf w }
    (Issuable u a 0x00 → exec (.nop st) s = .next (issuedWith u a 0 id)) ∧
    (Issuable u a 0x01 → exec (.halt st) s =
      .next ((issuedWith u a 0 id).setStation a fun y => { y with seq := .halt, pc := (u.station a).pc })) ∧
    (Issuable u a 0x02 →
      (x.toNat < u.pourClks → u.clk < at' → exec (.atClk st) s = .next ((issuedWith u a 0 id).setStation a fun y => { y with readyAt := at' })) ∧
      (u.pourClks ≤ x.toNat ∨ at' ≤ u.clk → exec (.atClk st) s = .next (violate a 0x08 (u.station a).pc (issuedWith u a 0 id)))) ∧
    (Issuable u a 0x03 → exec (.jmp st) s = .next (issuedWith u a 1 jump)) ∧
    (Issuable u a 0x04 → exec (.bnz st) s = .next (issuedWith u a 1 (if x ≠ 0 then jump else id))) ∧
    (Issuable u a 0x05 → exec (.bz st) s = .next (issuedWith u a 1 (if x = 0 then jump else id))) ∧
    (Issuable u a 0x06 → exec (.loop st) s = .next (issuedWith u a 1 fun v =>
      (if x - 1 ≠ 0 then jump else id)
        (if aOf w % 8 = 0 then v
         else v.setStation a fun y => { y with results := y.results ++
           [{ due := u.clk + 1, issued := u.clk, place := (u.station a).pc, kind := .scalar (aOf w % 8) (x - 1) }] }))) ∧
    ((issued u a).station a = { u.station a with
      pc := ((u.station a).pc + 1) % 16384, readyAt := u.clk + 1, waitSince := none, seq := .run })

/-- LI, LUI, the scalar arithmetic and logic, ADDI, RDT and BC_PICK. Rules: R217 to R219, R226, R410. -/
def Obligations.ScalarInstructions : Prop :=
  ∀ (s : State) (st : StAddr),
    let a := st.toNat
    let u := settle a s
    let w := wordAt u a
    let x := operandA u a
    let y := operandB u a
    (Issuable u a 0x08 → exec (.li st) s = .next (yields u a 1 ((BitVec.ofNat 20 (imm20 w)).signExtend 64))) ∧
    (Issuable u a 0x09 → exec (.lui st) s = .next (yields u a 1
      (BitVec.ofNat 64 (imm20 w * 2 ^ 20 + (scalarReg u a (dOf w % 8)).toNat % 2 ^ 20)))) ∧
    (Issuable u a 0x0A → exec (.add st) s = .next (yields u a 1 (x + y))) ∧
    (Issuable u a 0x0B → exec (.sub st) s = .next (yields u a 1 (x - y))) ∧
    (Issuable u a 0x0C → exec (.and st) s = .next (yields u a 1 (x &&& y))) ∧
    (Issuable u a 0x0D → exec (.or st) s = .next (yields u a 1 (x ||| y))) ∧
    (Issuable u a 0x0E → exec (.xor st) s = .next (yields u a 1 (x ^^^ y))) ∧
    (Issuable u a 0x0F → exec (.shl st) s = .next (yields u a 1 (x <<< (y.toNat % 64)))) ∧
    (Issuable u a 0x10 → exec (.shr st) s = .next (yields u a 1 (x >>> (y.toNat % 64)))) ∧
    (Issuable u a 0x11 → exec (.sar st) s = .next (yields u a 1 (x.sshiftRight (y.toNat % 64)))) ∧
    (Issuable u a 0x12 → exec (.mul st) s = .next (yields u a 3 (x * y))) ∧
    (Issuable u a 0x13 → exec (.slt st) s = .next (yields u a 1 (if x.toInt < y.toInt then 1 else 0))) ∧
    (Issuable u a 0x14 → exec (.sltu st) s = .next (yields u a 1 (if x.toNat < y.toNat then 1 else 0))) ∧
    (Issuable u a 0x15 → exec (.addi st) s = .next (yields u a 1 (x + (BitVec.ofNat 10 (immOf w)).signExtend 64))) ∧
    (Issuable u a 0x1C →
      (immOf w = 0 → exec (.rdt st) s = .next (yields u a 1 (BitVec.ofNat 64 u.pourOff))) ∧
      (immOf w = 1 → exec (.rdt st) s = .next (yields u a 1 (BitVec.ofNat 64 u.job.pour))) ∧
      (immOf w = 2 → exec (.rdt st) s = .next (yields u a 1 (BitVec.ofNat 64 u.job.heat)))) ∧
    (Issuable u a 0x40 → kindOf a = 0 → exec (.bcPick st) s = .next (yields u a 1 (tget 0 u.mem.pickLatch (immOf w % 256))))

/-- LD, ST, MV and POST. Rules: R213, R218, R225, R226, R271, R467. -/
def Obligations.StoreMoveAndPost : Prop :=
  ∀ (s : State) (st : StAddr),
    let a := st.toNat
    let u := settle a s
    let w := wordAt u a
    let pc := (u.station a).pc
    let x := operandA u a
    let at' := (x + (BitVec.ofNat 10 (immOf w)).signExtend 64).toNat
    (Issuable u a 0x18 →
      (at' < 32768 → readFree u a u.clk = true → exec (.ld st) s = .next (issuedWith u a 3 fun v =>
        putScalar a (dOf w) (u.clk + 3) u.clk pc (storeWord u a at') (takeRead a [u.clk] v))) ∧
      (32768 ≤ at' → exec (.ld st) s = .next (suppressed u a 3 0x09)) ∧
      (at' < 32768 → readFree u a u.clk = false → exec (.ld st) s = .next (suppressed u a 3 0x03))) ∧
    (Issuable u a 0x19 →
      (at' < 32768 → constEnd u a ≤ at' / 16 → exec (.st st) s = .next (issuedWith u a 3 (addResult a
        { due := u.clk + 3, issued := u.clk, place := pc, kind := .storeWord at' (operandB u a) }))) ∧
      (at' / 16 < constEnd u a → at' < 32768 → exec (.st st) s = .next (suppressed u a 3 0x0A)) ∧
      (32768 ≤ at' → exec (.st st) s = .next (suppressed u a 3 0x09))) ∧
    (Issuable u a 0x1A →
      (24 ≤ aOf w → 24 ≤ dOf w → exec (.mv st) s = .next (yields u a 1 x)) ∧
      (∀ l, aOf w < 24 ∨ dOf w < 24 → lineSrc u a u.clk (aOf w) = some l → exec (.mv st) s = .next (issuedWith u a 1 fun v =>
        putLine a (dOf w) (u.clk + 1) u.clk pc { l with origin := none, slotClk := none } (popAll a u.clk [aOf w] v))) ∧
      (aOf w < 8 → popReady u a (aOf w) u.clk = false → exec (.mv st) s = .next (suppressed u a 1 0x01))) ∧
    (Issuable u a 0x1B → at' < 2048 →
      let h := templateHdr (storeLine u a at')
      let n := postLines h
      (4 ≤ hCls h → at' + n < 2048 → readFree u a u.clk = true → tget 0 (u.station a).ctr 31 ≠ 0 →
        exec (.post st) s = .next (engAdvance a (issuedWith u a 1 fun v =>
          sendSignal (u.clk + 1) a (.take 31 1) (some pc) (startOp a
            { kind := .postRead, t := u.clk, word := w, place := pc, sa := BitVec.ofNat 64 at', sb := operandB u a
              agenda := (List.range n).map (fun j =>
                (u.clk + 1 + j, EngineStep.act (if readFree u a (u.clk + 1 + j) then j else 65536 + j))) ++ [(u.clk + n, .act 131072)]
              taken := [some (bareLine (storeLine u a at'))], finish := u.clk + 1 }
            (takeRead a (u.clk :: ((List.range n).map (u.clk + 1 + ·)).filter (readFree u a)) v))))) ∧
      (hCls h < 4 ∨ 2048 ≤ at' + n → exec (.post st) s = .next (suppressed u a 1 0x09)) ∧
      (4 ≤ hCls h → at' + n < 2048 → readFree u a u.clk = true → tget 0 (u.station a).ctr 31 = 0 →
        exec (.post st) s = .next (suppressed u a 1 0x02)))

/-- VADD to VSUM. Rules: R219, R227, R251. -/
def Obligations.LaneInstructions : Prop :=
  ∀ (s : State) (st : StAddr),
    let a := st.toNat
    let u := settle a s
    let w := wordAt u a
    let pc := (u.station a).pc
    kindOf a = 1 →
    (∀ X Y, lineSrc u a u.clk (aOf w) = some X → lineSrc u a u.clk (bOf w) = some Y →
      let x := lane X.data
      let y := lane Y.data
      (Issuable u a 0x40 → exec (.vadd st) s =
        .next (laneResult u a fun i => if immOf w % 2 = 1 then x i + y i else f32Add (x i) (y i))) ∧
      (Issuable u a 0x41 → exec (.vsub st) s =
        .next (laneResult u a fun i => if immOf w % 2 = 1 then x i - y i else f32Sub (x i) (y i))) ∧
      (Issuable u a 0x42 → exec (.vmul st) s = .next (laneResult u a fun i => f32Mul (x i) (y i))) ∧
      (Issuable u a 0x43 → exec (.vfma st) s =
        .next (laneResult u a fun i => f32Fma (x i) (y i) (lane (lineReg u a (immOf w % 8)) i))) ∧
      (Issuable u a 0x44 → exec (.vmax st) s =
        .next (laneResult u a fun i => if immOf w % 2 = 1 then (if (x i).toInt < (y i).toInt then y i else x i) else f32Max (x i) (y i))) ∧
      (Issuable u a 0x45 → exec (.vmin st) s =
        .next (laneResult u a fun i => if immOf w % 2 = 1 then (if (y i).toInt < (x i).toInt then y i else x i) else f32Min (x i) (y i))) ∧
      (Issuable u a 0x46 → exec (.vsel st) s =
        .next (laneResult u a fun i => if bit (scalarReg u a (immOf w % 8)) i then x i else y i)) ∧
      (Issuable u a 0x47 → ∃ v : Word, (∀ i < 64, bit v i = (decide (i < 32) && f32Lt (x i) (y i))) ∧
        exec (.vcmp st) s = .next (issuedWith u a 4 fun z =>
          putScalar a (dOf w) (u.clk + 4) u.clk pc v (popAll a u.clk [aOf w, bOf w] z)))) ∧
    (Issuable u a 0x48 → exec (.vbc st) s = .next (issuedWith u a 1
      (putLine a (dOf w) (u.clk + 1) u.clk pc (bareLine (mapLanes fun _ => (operandA u a).setWidth 32))))) ∧
    (Issuable u a 0x49 → ∀ X, lineSrc u a u.clk (aOf w) = some X → exec (.vsum st) s = .next (issuedWith u a 6 fun z =>
      putScalar a (dOf w) (u.clk + 6) u.clk pc ((laneSum X.data).setWidth 64) (popAll a u.clk [aOf w] z))) ∧
    (Issuable u a 0x40 → (lineSrc u a u.clk (aOf w) = none ∨ lineSrc u a u.clk (bOf w) = none) →
      exec (.vadd st) s = .next (suppressed u a 4 0x01))

/-- VCVT, VLD and VST. Rules: R213, R227, R245 to R248. -/
def Obligations.ConversionsAndStoreLines : Prop :=
  ∀ (s : State) (st : StAddr),
    let a := st.toNat
    let u := settle a s
    let w := wordAt u a
    let pc := (u.station a).pc
    let x := operandA u a
    let y := operandB u a
    let at' := (x + (BitVec.ofNat 10 (immOf w)).signExtend 64).toNat
    let counted : State → State := fun v => if cvRnd w = 2 then v.setStation a fun z => { z with stochastic := z.stochastic + 1 } else v
    kindOf a = 1 →
    (Issuable u a 0x50 →
      (∀ X, lineSrc u a u.clk (aOf w) = some X → exec (.vcvt st) s = .next (counted (issuedWith u a 4 fun z =>
        addResult a
          { due := u.clk + 4, issued := u.clk, place := pc
            kind :=
              if 8 ≤ dOf w ∧ dOf w < 16 then
                (if bit y 16 then .pushMerge (dOf w) { bareLine (cvData u a w y X.data) with side := cvSide w y } (fld y 15 13) (cvMask w y)
                 else .push (dOf w) { bareLine (cvData u a w y X.data) with side := cvSide w y })
              else .line (dOf w % 8) (cvData u a w y X.data) (cvMask w y) }
          (popAll a u.clk [aOf w] z)))) ∧
      (lineSrc u a u.clk (aOf w) = none → exec (.vcvt st) s = .next (counted (suppressed u a 4 0x01)))) ∧
    (Issuable u a 0x51 →
      (at' < 2048 → readFree u a u.clk = true → exec (.vld st) s = .next (issuedWith u a 3 fun z =>
        putLine a (dOf w) (u.clk + 3) u.clk pc (bareLine (storeLine u a at')) (takeRead a [u.clk] z))) ∧
      (2048 ≤ at' → exec (.vld st) s = .next (suppressed u a 3 0x09))) ∧
    (Issuable u a 0x52 →
      (∀ X, at' < 2048 → constEnd u a ≤ at' → lineSrc u a u.clk (bOf w) = some X → exec (.vst st) s = .next (issuedWith u a 3 fun z =>
        addResult a { due := u.clk + 3, issued := u.clk, place := pc, kind := .storeLine at' X.data } (popAll a u.clk [bOf w] z))) ∧
      (at' < constEnd u a → at' < 2048 → exec (.vst st) s = .next (suppressed u a 3 0x0A)))

/-- CR_OPEN, CR_FEED, CR_EMIT and CR_CLOSE. Rules: R264, R278 to R280. -/
def Obligations.CrucibleInstructions : Prop :=
  ∀ (s : State) (st : StAddr),
    let a := st.toNat
    let u := settle a s
    let w := wordAt u a
    let x := operandA u a
    let y := operandB u a
    (IssuesAs u a 0x40 2 →
      (instOk u a x.toNat = true → u.slotNow + 8 ≤ deadline u x.toNat + 72 →
        (∀ e ∈ (u.crucible a).insts, e.2.closed = false → rowsOverlap u e.1 x.toNat = false) →
        exec (.crOpen st) s = .next (issuedWith u a 8 fun v => v.setCrucible a fun c =>
          { c with insts := tset c.insts x.toNat (OpenInst.fresh (u.clk + 8)) })) ∧
      (instOk u a x.toNat = false ∨ deadline u x.toNat + 72 < u.slotNow + 8 → exec (.crOpen st) s = .next (suppressed u a 8 0x09)) ∧
      (instOk u a x.toNat = true → u.slotNow + 8 ≤ deadline u x.toNat + 72 →
        (∃ e ∈ (u.crucible a).insts, e.2.closed = false ∧ rowsOverlap u e.1 x.toNat = true) →
        exec (.crOpen st) s = .next (suppressed u a 8 0x03))) ∧
    (IssuesAs u a 0x41 2 → ∀ l, instOk u a (fld y 15 0) = true → isOpen u a (fld y 15 0) = true → popReady u a (aOf w) u.clk = true →
      (endLines u a (aOf w)).head? = some l → bit l.side 23 = true →
      let n := tileCount l.side
      exec (.crFeed st) s = .next (working u a
        { opHere u a .crFeed ((List.range n).flatMap fun k => [(u.clk + k, .pop (aOf w)), (u.clk + k, .act k)]) (u.clk + n - 1) with sa := 0 } id)) ∧
    (IssuesAs u a 0x42 2 →
      (∀ o, instOf u a x.toNat = some o → instOk u a x.toNat = true → isOpen u a x.toNat = true →
        (o.retracted = true ∨ intakeComplete u a x.toNat = true) →
        let n := fld y 36 32 + 1
        let g := iGroup u x.toNat
        exec (.crEmit st) s = .next (issuedWith u a (8 + (n - 1) / 2) fun v => each (List.range n) (fun j z =>
          putPush a (dOf w) (u.clk + 8 + j / 2) u.clk (u.station a).pc
            { bareLine (resultLine z o g (fld y 59 48) (fld y 31 0) j) with side := tileSide (resultFormat z g) j n } z) v)) ∧
      (∀ o, instOf u a x.toNat = some o → instOk u a x.toNat = true → isOpen u a x.toNat = true → o.retracted = false →
        intakeComplete u a x.toNat = false → exec (.crEmit st) s = .next (suppressed u a (8 + fld y 36 32 / 2) 0x01))) ∧
    (IssuesAs u a 0x43 2 → instOk u a x.toNat = true → isOpen u a x.toNat = true →
      exec (.crClose st) s = .next (issuedWith u a 0 fun v => v.setCrucible a fun c => { c with
        insts := c.insts.map fun e => if e.1 = x.toNat then (e.1, { e.2 with closed := true }) else e }))

/-- RD_LOAD, RD_RUN, MO_WLOAD, MO_MAC and MO_DRAIN. Rules: R309, R311, R322 to R324. -/
def Obligations.RiddleAndMouldInstructions : Prop :=
  ∀ (s : State) (st : StAddr),
    let a := st.toNat
    let u := settle a s
    let t := u.clk
    let w := wordAt u a
    let y := operandB u a
    let base := (operandA u a + BitVec.ofNat 64 (immOf w % 512)).toNat
    (IssuesAs u a 0x40 3 →
      (bit (BitVec.ofNat 10 (immOf w)) 9 = true → base < 1985 → mapBusy u a = false →
        exec (.rdLoad st) s = .next (working u a { opHere u a .rdLoadMap (mapAgenda u a ++ [(t + 66, .act 128)]) (t + 66) with sa := BitVec.ofNat 64 base }
          (takeRead a (((List.range 64).map (t + ·)).filter (readFree u a))))) ∧
      (bit (BitVec.ofNat 10 (immOf w)) 9 = false → base < 2048 → readFree u a t = true → progBad (storeLine u a base) = false →
        exec (.rdLoad st) s = .next (issuedWith u a 3 fun v => (takeRead a [t] v).setRiddle a fun r =>
          { r with prog := progNow u a
                   coming := (r.coming.filter fun e => decide (t < e.1)) ++
                     [(t + 3, (List.range 16).zip (wordsOf (storeLine u a base)))] })) ∧
      (bit (BitVec.ofNat 10 (immOf w)) 9 = false → base < 2048 → readFree u a t = true → progBad (storeLine u a base) = true →
        exec (.rdLoad st) s = .next (suppressed u a 3 0x09))) ∧
    (IssuesAs u a 0x41 3 → runBad y = false → runBusy u a y = false →
      let n := fld y 4 0 + 1
      exec (.rdRun st) s = .next (working u a
        { opHere u a .rdRun ((List.range n).map (fun j => (t + j, EngineStep.pop (aOf w))) ++ [(t + n - 1, .act 0)]) (runLast y t) with
          taken := [some (bareLine (lineOfCodes 64 ((List.range 16).map fun i => (tget 0 (progNow u a) i).toNat)))] } id)) ∧
    (IssuesAs u a 0x40 5 → (openOps u a [.moWload, .moMac]).any (fun o => bankUsed o == wlBank y) = false →
      (immOf w % 2 = 1 → exec (.moWload st) s = .next (working u a
        (opHere u a .moWload ((List.range 64).map (fun c => (t + c, EngineStep.act c)) ++ [(t + 66, .act 65536)]) (t + 66))
        (setBank a (wlBank y) fun _ => { Bank.reset with ladle := true }))) ∧
      (immOf w % 2 = 0 → wlFa y < 8 → wlFw y < 8 →
        let fin := t + (blockLines (wlFa y) (wlFw y) - 1) / 2 + 2
        exec (.moWload st) s = .next (working u a
          (opHere u a .moWload ((List.range (blockLines (wlFa y) (wlFw y))).map (fun j => (t + j / 2, EngineStep.pop (aOf w))) ++ [(fin, .act 65536)]) fin)
          (setBank a (wlBank y) fun _ => { Bank.reset with ladle := false, fa := wlFa y, fw := wlFw y })))) ∧
    (IssuesAs u a 0x41 5 →
      let b := bankOf u a (fld y 16 16)
      let n := fld y 15 8 + 1
      let r0 := fld y 7 0
      r0 + n ≤ 256 → (openOps u a [.moWload]).any (fun o => wlBank o.sb == fld y 16 16) = false →
      (openOps u a [.moMac]).any (fun o => decide (t < o.t + mcVecs o.sb)) = false → b.loaded = true → b.ladle = fromLadle w →
      (fromLadle w = true → pathDepthBad u a b = false) →
      (bit y 17 = true ∨ ∀ j < n, ∀ g, rowLast (rowOf u a (r0 + j)) = some g → g < macFirst b y) →
      exec (.moMac st) s = .next (engAdvance a (each (List.range n) (fun j => setRow a (r0 + j) fun r =>
        { r with adds := r.adds ++ [{ due := t + j + 12, top := macFirst b y + bankGroups b - 1, clear := bit y 17, sums := none }] })
        (startOp a (opHere u a .moMac (macAgenda w y (vecsPerLine b) t) (t + fld y 15 8 + 12)) (issued u a))))) ∧
    (IssuesAs u a 0x42 5 → fld y 7 0 + fld y 11 8 + 1 ≤ 256 →
      exec (.moDrain st) s = .next (working u a (opHere u a .moDrain
        ((List.range (fld y 11 8 + 1)).map fun j => (t + 2 + j, EngineStep.act j)) (t + 4 + fld y 11 8)) id))

/-- LA_MODE and the four LA_WALK. Rules: R325, R326, R329 to R331, R333, R336. Tile faults seen only when lines arrive follow log entry 36. -/
def Obligations.LadleInstructions : Prop :=
  ∀ (s : State) (st : StAddr),
    let a := st.toNat
    let u := settle a s
    let t := u.clk
    let w := wordAt u a
    let x := operandA u a
    let ctl := scalarReg u a (immOf w / 8 % 8)
    let free := ∀ o ∈ (u.station a).ops, walkKinds.contains o.kind = true → o.finish ≤ t
    let walk (kind : EngineKind) (agenda : List (Nat × EngineStep)) (fin : Nat) : State :=
      working u a { opHere u a kind agenda fin with sb := ctl } id
    (IssuesAs u a 0x40 4 → fld x 2 0 ≤ 4 → modeFw x < 8 → modeFa x < 8 → free →
      exec (.laMode st) s = .next (working u a (opHere u a .laMode [(t + 1, .act 0)] (t + 1)) id)) ∧
    (IssuesAs u a 0x41 4 → free →
      (immOf w % 4 = 0 →
        let m := (u.ladle a).mode
        let n := mapTotal m ctl
        (mapHeads u a ctl w).any (mapTileBad m) = false →
        exec (.laWalkMap st) s = .next (walk .laMap ((List.range n).map (fun j => (t + j / 2, EngineStep.act j)) ++
          [(mapFinish m ctl t, .act 65536)]) (mapFinish m ctl t))) ∧
      (immOf w % 4 = 1 → (u.ladle a).map ≠ none → passFault (passLb ctl) (tilesOf (passVecs ctl) (endLines u a (aOf w))) = false →
        exec (.laWalkPass st) s = .next (walk .laPass (passAgenda ctl t) (passFinish ctl t))) ∧
      (immOf w % 4 = 2 → mgFmt ctl ≤ 8 → mergeFault u a ctl w = false →
        exec (.laWalkMerge st) s = .next (walk .laMerge [(t, .act 0)] (t + 2 ^ 32))) ∧
      (immOf w % 4 = 3 → lyValid u (skLayer ctl) = true → lyPolicy u (skLayer ctl) ≠ 0 → (dOf w = 24 ∨ skEmits u ctl w = true) →
        skN0 ctl + 32 * skLines ctl ≤ lyNeurons u (skLayer ctl) → skimFault u a w = false →
        let n := fld ctl 4 0 + 1
        let fin := skFinish u ctl w t
        exec (.laWalkSkim st) s = .next (walk .laSkim ((t, .act 0) :: (List.range n).map (fun j => (t + (j + 1) / 2, .act (j + 1))) ++
          [(t + (n + 1) / 2, .act 65536), (fin, .act 65537)]) fin))) ∧
    (IssuesAs u a 0x40 4 → 4 < fld x 2 0 → exec (.laMode st) s = .next (suppressed u a 1 0x09)) ∧
    (IssuesAs u a 0x41 4 → free →
      (immOf w % 4 = 0 → (mapHeads u a ctl w).any (mapTileBad (u.ladle a).mode) = true →
        exec (.laWalkMap st) s = .next (suppressed u a (mapFinish (u.ladle a).mode ctl 0) 0x09)) ∧
      (immOf w % 4 = 1 → (u.ladle a).map = none → exec (.laWalkPass st) s = .next (suppressed u a (passFinish ctl 0) 0x09)))

/-- SO_RUN_SORT, SO_RUN_LOAD, SO_MERGE, SO_TOPK and SO_SPILL. Rules: R297 to R305. -/
def Obligations.SortInstructions : Prop :=
  ∀ (s : State) (st : StAddr),
    let a := st.toNat
    let u := settle a s
    let t := u.clk
    let w := wordAt u a
    let x := operandA u a
    let y := operandB u a
    let fin := sortFinish u a w t
    let two (n : Nat) : List (Nat × EngineStep) := (List.range n).flatMap fun j => [(t + j / 2, .pop (aOf w)), (t + j / 2, .act j)]
    cwBad y = false → sortBusy u a w x = false → sortBusy u a w 0 = false →
    (IssuesAs u a 0x40 6 →
      (modeBit w = false → toSlot w = false → exec (.soRunSort st) s = .next (working u a (opHere u a .soSort (two (linesIn y)) fin) id)) ∧
      (modeBit w = false → toSlot w = true → cwN y ≤ slotCap u a (slotNo w) →
        exec (.soRunSort st) s = .next (working u a (opHere u a .soSort (two (linesIn y) ++ [(fin, .act 65536)]) fin) id)) ∧
      (modeBit w = true → cwN y ≤ slotCap u a (slotNo w) →
        exec (.soRunLoad st) s = .next (working u a (opHere u a .soLoad (two (linesIn y)) fin)
          (setSlot a (slotNo w) { recs := [], kt := cwKt y, dir := cwDir y, sorted := true }))) ∧
      (modeBit w = true → slotCap u a (slotNo w) < cwN y → exec (.soRunLoad st) s = .next (suppressed u a (fin - t) 0x09))) ∧
    (IssuesAs u a 0x41 6 →
      let srcs := (List.range 16).filter (bit x)
      let m := mergeCount u a x
      (∀ k ∈ srcs, slotDefined u a k = true ∧
        ((runSlot u a k).recs = [] ∨ (runSlot u a k).kt = cwKt y ∧ (runSlot u a k).dir = cwDir y)) →
      (toSlot w = false → exec (.soMerge st) s = .next (engAdvance a (pushRun a (dOf w) t (u.station a).pc (cwLong y) (fun j => t + 24 + j / 2)
        (mergeRuns (cwKt y) (cwDir y) m (srcs.map fun k => (runSlot u a k).recs))
        (startOp a (opHere u a .soMerge [] fin) (issued u a))))) ∧
      (toSlot w = true → fld x 19 16 ∉ srcs → slotDefined u a (fld x 19 16) = true → m ≤ slotCap u a (fld x 19 16) →
        exec (.soMerge st) s = .next (working u a (opHere u a .soMerge [(fin, .act 0)] fin) id))) ∧
    (IssuesAs u a 0x42 6 →
      exec (.soTopk st) s = .next (working u a (opHere u a .soTopk (two (cwSegs y * linesIn y)) fin) id)) ∧
    (IssuesAs u a 0x43 6 → slotDefined u a (slotNo w) = true →
      (cwLong y = true ∨ (runSlot u a (slotNo w)).recs = [] ∨ (runSlot u a (slotNo w)).kt < 5) →
      exec (.soSpill st) s = .next (engAdvance a (pushRun a (dOf w) t (u.station a).pc (cwLong y) (fun j => t + 4 + j / 2)
        (runSlot u a (slotNo w)).recs
        (startOp a (opHere u a .soSpill (if modeBit w then [] else [(fin, .act 0)]) fin) (issued u a)))))

/-- MR_RD, MR_WR, MR_GATHER, PI_TAKE and PE_SEND. Rules: R206, R227, R268, R289, R349, R350. -/
def Obligations.MemoryAndPortStationInstructions : Prop :=
  ∀ (s : State) (st : StAddr),
    let a := st.toNat
    (∀ upsets : List Upset,
      let u := settle a (addUpsets upsets s)
      let t := u.clk
      let w := wordAt u a
      (IssuesAs u a 0x40 7 →
        let n := fld (operandB u a) 4 0 + 1
        (schedOk u a (operandA u a).toNat (128 * n) = true → exec (.mrRd st upsets) s = .next (working u a
          (opHere u a .mrRd (byClk ((List.range n).map fun j => (slotEnd u (t + 4 + j / 2), .act j))) (t + 64 + (n - 1) / 2)) id)) ∧
        (schedOk u a (operandA u a).toNat (128 * n) = false →
          exec (.mrRd st upsets) s = .next (suppressed u a (64 + (n - 1) / 2) 0x09))) ∧
      (IssuesAs u a 0x42 7 →
        let rows := fld (operandB u a) 63 52 + 1
        let r := immOf w % 32 + 1
        exec (.mrGather st upsets) s = .next (working u a (opHere u a .mrGather (byClk
          ((List.range ((rows + 31) / 32)).flatMap (fun m => [(t + 16 * r * m, EngineStep.pop (aOf w)), (t + 16 * r * m, .act (131072 + m))]) ++
            (List.range (rows * r)).map fun j => (slotEnd u (t + 6 + j / 2), EngineStep.act j))) (t + 66 + (rows * r - 1) / 2)) id))) ∧
    (let u := settle a s
     let t := u.clk
     let w := wordAt u a
     (∀ l, IssuesAs u a 0x41 7 → popReady u a (aOf w) t = true → (endLines u a (aOf w)).head? = some l → bit l.side 23 = true →
       (operandB u a).toNat % 128 = 0 → schedOk u a (operandB u a).toNat (128 * sideCount l.side) = true →
       exec (.mrWr st) s = .next (working u a (opHere u a .mrWr (byClk ((List.range (sideCount l.side)).flatMap fun j =>
         [(t + j / 2, .pop (aOf w)), (slotEnd u (t + 4 + j / 2), .act j)])) (t + 40 + (sideCount l.side - 1) / 2)) id)) ∧
     (IssuesAs u a 0x40 8 →
       let i := fld (operandA u a) 15 0
       (∀ l, popReady u a 0 t = true → headOfInst u a i = true → (endLines u a 0).head? = some l →
         exec (.piTake st) s = .next (working u a (opHere u a .piTake ((List.range (tileCount l.side)).flatMap fun k =>
           [(t + k, .pop 0), (t + k, .act k)]) (t + tileCount l.side)) id)) ∧
       (popReady u a 0 t = false ∨ headOfInst u a i = false →
         (removedOn u i (servedPort u a) ≠ none → exec (.piTake st) s = .next (issuedWith u a 0 id)) ∧
         (removedOn u i (servedPort u a) = none → exec (.piTake st) s = .next (suppressed u a 0 0x01)))) ∧
     (∀ l, IssuesAs u a 0x40 9 →
       let at' := (operandB u a + (BitVec.ofNat 10 (immOf w)).signExtend 64).toNat
       let h := templateHdr (storeLine u a at')
       at' < 2048 → readFree u a t = true → (hCls h = 2 ∨ hCls h = 3) → popReady u a (aOf w) t = true →
       (endLines u a (aOf w)).head? = some l →
       let n := if bit l.side 23 then tileCount l.side else 1
       exec (.peSend st) s = .next (engAdvance a ((takeRead a [t] (startOp a (opHere u a .peSend ((List.range n).flatMap fun k =>
         [(t + k, .pop (aOf w)), (t + k, .act k)]) (t + n)) (issued u a))).setPort (servedPort u a) fun x =>
         { x with scheduled := x.scheduled ++ [
           { pkt := { hdr := hSet (hSet (fillHdr u a h) 115 108 (8 * n - 1)) 91 76 (fld l.side 15 0), payload := [], trailer := 0, stampPour := u.job.pour
                      stampClk := u.pourOff, inPort := none, stomped := false, complete := true, ident := t }
             owner := .none, cells := 0, ring := 0, since := t + n, targets := [], reserved := [] }] }))))

/-- CONTRIB_LINE_TAKE and DEADLINE_DECISION. Rules: R57, R259, R262, R279, R280, R284 to R287, R292. -/
def Obligations.CrucibleIntakeAndDecisions : Prop :=
  (∀ (s : State) (st : StAddr) (e : Fin 8) (l : Line) (ls : List Line),
    let c := st.toNat
    let go := exec (.contribLineTake st e) s
    s.running = true → kindOf c = 2 → endLines s c e = l :: ls →
    (l.origin = none ∨ s.clk ≤ l.since → go = .next s) ∧
    (∀ m p, l.origin = some m → m.port = some p →
      let i := hInst m.hdr
      let g := iGroup s i
      (isOpen s c i = false → go = .next s) ∧
      (rateAllows s c g = false ∨ (∃ k < e.val, takeable s c k ≠ none) → go = .next s) ∧
      (∀ r, l.since < s.clk → iValid s i = true → iCrucible s i = c → gValid s g = true → isOpen s c i = true →
        rateAllows s c g = true → (∀ k < e.val, takeable s c k = none) →
        let u := addWork c g (popEnd c e s.clk s)
        rankOfArrival u g p.toNat e = some r →
        (m.head = false → go = .next (settleCount c i (takeLine c i r l m u))) ∧
        (m.head = true → go = .next (settleCount c i (takeLine c i r l m (beginTile c i r r e (keyBad u g r (hAddr m.hdr)) m l.side u))))))) ∧
  (∀ (s : State) (inst : BitVec 12) (o : OpenInst),
    let i := inst.toNat
    let c := iCrucible s i
    let g := iGroup s i
    let live := liveRanks s g
    let missing := live.filter fun r => !arrivedBy s o c i r
    let bad := offenders s o c i missing
    let go := exec (.deadlineDecision inst) s
    instOf s c i = some o →
    (o.decided = true ∨ s.running = false ∨ s.slotNow < deadline s i + 72 → go = .next s) ∧
    (o.decided = false → s.running = true → deadline s i + 72 ≤ s.slotNow →
      let v := each missing (memberLate c i) (each live
        (fun r x => x.setMember (memberNo s g r) fun y =>
          if missing.contains r then { y with absences := min (y.before + 1) 2, absent := true }
          else { y with absences := if y.absent then y.absences else 0 })
        (setInst c i (fun x => { x with decided := true, missed := missing, retracted := !bad.isEmpty || !missing.isEmpty }) s))
      (bad = [] → missing = [] → gOp s g ≠ 11 → go = .next v) ∧
      (∀ r, bad = [] → missing.min? = some r →
        go = .next (retractInst c i 0x06 0x0B r (v.setCrucible c fun x => { x with absences := satAdd 16 x.absences 1 }))) ∧
      (∀ r, bad.min? = some r → go = .next (each (ranks s g) (fun q x => if missing.contains q then x else memberMismatch c i r q o x)
        (retractInst c i 0x05 0x0A r (v.setCrucible c fun x => { x with mismatches := satAdd 16 x.mismatches 1 }))))))

/-- CAPTURE_RECORD and REPLAY_RECORD. Rules: R13, R14, R22, R56, R141, R198, R399 to R403. Readings are log entry 34. -/
def Obligations.CaptureAndReplay : Prop :=
  (∀ (s : State) (die : Bool), s.pwr.mainOn = true →
    let d := if die then 1 else 0
    let base := rgBase s (captureRegion s)
    let size := rgBytes s (captureRegion s)
    let at' := base + 64 * s.cap.written
    let mark (r : List Byte) := 3 ≤ (r.getD 7 0).toNat / 16
    let other := (tget [] s.cap.buffer 1).head?
    (tget [] s.cap.buffer d = [] → exec (.captureRecord die) s = .next s) ∧
    (∀ r rest, tget [] s.cap.buffer d = r :: rest →
      (die = true → r = [] → exec (.captureRecord die) s = .next s) ∧
      (die = false → mark r → other ≠ some [] → exec (.captureRecord die) s = .next s) ∧
      ((die = true → r ≠ []) → (die = false → mark r → other = some []) →
        (64 * s.cap.written + r.length ≤ size → spanFree s at' r.length = true → (die = true ∨ ¬ mark r) →
          let u := { s with cap := { s.cap with buffer := tset s.cap.buffer d rest } }
          let v := (writeSpan at' r 1 (noteUnsched at' r.length u)).2
          exec (.captureRecord die) s = .next { v with cap := { v.cap with written := v.cap.written + r.length / 64 } }) ∧
        (64 * s.cap.written + r.length ≤ size → spanFree s at' r.length = true → die = false → mark r →
          let u := { s with cap := { s.cap with
            buffer := tset (tset s.cap.buffer 0 rest) 1 (tget [] (tset s.cap.buffer 0 rest) 1).tail } }
          let v := (writeSpan at' r 1 (noteUnsched at' r.length u)).2
          exec (.captureRecord die) s = .next { v with cap := { v.cap with written := v.cap.written + r.length / 64 } }) ∧
        (64 * s.cap.written + r.length ≤ size → spanFree s at' r.length = false → exec (.captureRecord die) s = .next s) ∧
        (size < 64 * s.cap.written + r.length → size < 64 * s.cap.written + 64 →
          exec (.captureRecord die) s = .next { s with cap := { s.cap with full := true, buffer := [] } }) ∧
        (size < 64 * s.cap.written + r.length → 64 * s.cap.written + 64 ≤ size →
          let v := (writeSpan at' (captureBytes 4 0 s.job.heat 0 0 0 0 []) 1 (noteUnsched at' 64 s)).2
          exec (.captureRecord die) s =
            .next { v with cap := { v.cap with written := v.cap.written + 1, full := true, buffer := [] } })))) ∧
  (∀ s : State, s.running = true → s.cap.replayActive = true →
    let ended := { s with
      cap := { s.cap with ended := true, replayActive := false }
      job := { s.job with quenchDue := s.job.quenchDue ++ [(s.clk, 0, 0)] } }
    (nextRecord s = none → exec .replayRecord s = .next ended) ∧
    (∀ r, nextRecord s = some r →
      let due := match r.kind with
        | 3 => s.cap.replayHeats ≤ s.job.slot
        | 4 => True
        | _ => r.heat = s.job.heat ∧ (r.pour < s.job.pour ∨ r.pour = s.job.pour ∧ r.clk ≤ s.pourOff)
      let u := { s with cap := { s.cap with
        replayNext := s.cap.replayNext + (32 + r.body.length + 63) / 64 * 64, injected := min (s.cap.injected + 1) (2 ^ 32 - 1) } }
      let dropped := { u with cap := { u.cap with replayDrops := u.cap.replayDrops + 1 } }
      let base := rgBase s r.unit
      let inside := bit (regionWord s r.unit 0) 63 = true ∧ rgKind s r.unit = 1 ∧ base ≤ r.w3 ∧ r.w3 + r.body.length ≤ base + rgBytes s r.unit
      (¬ due → exec .replayRecord s = .next s) ∧
      (r.kind = 4 → exec .replayRecord s = .next ended) ∧
      (r.kind = 3 → due → exec .replayRecord s = .next { u with cap := { u.cap with replayHeats := u.cap.replayHeats + 1 } }) ∧
      (r.kind = 2 → due → inside → exec .replayRecord s =
        .next (copyPickups (fun b => decide (r.w3 < b + 8) && decide (b < r.w3 + r.body.length)) (writeSpan r.w3 r.body 2 u).2)) ∧
      (r.kind = 2 → due → ¬ inside → exec .replayRecord s = .next dropped) ∧
      (r.kind = 1 → due →
        let h := BitVec.ofNat 256 (beNat (r.body.take 32))
        let pay := (r.body.drop 32).take (r.body.length - 40)
        let t := BitVec.ofNat 64 (beNat (r.body.drop (r.body.length - 8)))
        let ptp := hType h == 4
        let rx : RxPacket :=
          { hdr := h, stampPour := r.pour, stampClk := r.clk, inClk := s.job.pourClk + r.clk - (s.job.pour - r.pour) * s.pourClks
            stampHeat := r.heat, ident := s.fab.nextIdent, ptp := ptp, stale := false, dross := false, bad := headerBad s r.unit h
            forwarded := false, count := 0, early := false }
        let v := noteStamp r.unit rx { u with fab := { u.fab with nextIdent := u.fab.nextIdent + 1 } }
        (r.body.length ≠ 40 + payloadLen h → exec .replayRecord s = .next dropped) ∧
        (r.body.length = 40 + payloadLen h → ptp = true → bit (portTap s r.unit) 4 = false → exec .replayRecord s =
          .next (if r.flags % 2 = 0 ∧ headerBad s r.unit h = none ∧ (pay.headD 0).toNat % 16 ∈ [0, 1, 9, 11]
            then receivedCounts r.unit h v else bumpPort r.unit 10 1 v)) ∧
        (r.body.length = 40 + payloadLen h → ptp = false → ¬ isPoliced s r.unit h → usedEarly v r.unit rx pay = false →
          (r.flags % 2 = 1 → exec .replayRecord s = .next (dropStamp rx.ident v)) ∧
          (r.flags % 4 = 2 → exec .replayRecord s =
            .next (dropStamp rx.ident (receivedCounts r.unit h (bumpPort r.unit 5 1 v)))) ∧
          (r.flags % 4 = 0 → exec .replayRecord s =
            .next (enterPacket r.unit rx (rxPacket r.unit rx pay t false true) (receivedCounts r.unit h v)))))))

end
end

