-- ==== Sys2Proof/Laws/Tab.lean ====
section
/-!
SUPPORT. Tables: what a read gives after an update, and that every update keeps the keys rising.
-/

namespace Sys2Proof.Machine

variable {α : Type} (d : α) (m : Tab α) {k j : Nat} (v : α)

theorem find_tdel_ne (h : j ≠ k) : (tdel m k).find? (fun e => e.1 == j) = m.find? (fun e => e.1 == j) := by
  simp only [tdel, List.find?_filter]
  congr 1
  funext e
  by_cases h1 : e.1 = j
  · simp [h1, h]
  · simp [h1]

theorem find_tdel_self : (tdel m k).find? (fun e => e.1 == k) = none := by
  simp [tdel, List.find?_eq_none]

theorem find_tinsert_ne (h : j ≠ k) : (tinsert k v m).find? (fun e => e.1 == j) = m.find? (fun e => e.1 == j) := by
  induction m with
  | nil => simp [tinsert, Ne.symm h]
  | cons e m ih =>
    simp only [tinsert]
    split <;> simp_all [List.find?_cons, Ne.symm h]

theorem find_tinsert_self (h : m.find? (fun e => e.1 == k) = none) :
    (tinsert k v m).find? (fun e => e.1 == k) = some (k, v) := by
  induction m with
  | nil => simp [tinsert]
  | cons e m ih =>
    simp only [List.find?_cons] at h
    simp only [tinsert]
    split
    · simp
    · split at h <;> simp_all

/-- A table read at the key just set. -/
@[simp] theorem tget_tset_self : tget d (tset m k v) k = v := by
  simp only [tget, tset, find_tinsert_self _ _ (find_tdel_self m)]

/-- A table read at another key than the one set. -/
theorem tget_tset_ne (h : j ≠ k) : tget d (tset m k v) j = tget d m j := by
  simp only [tget, tset, find_tinsert_ne _ _ h, find_tdel_ne _ h]

theorem tget_tset (i : Nat) : tget d (tset m k v) i = if i = k then v else tget d m i := by
  split
  · subst i; simp
  · exact tget_tset_ne d m v ‹_›

/-- A table read at a key just removed gives the default. -/
@[simp] theorem tget_tdel_self : tget d (tdel m k) k = d := by simp only [tget, find_tdel_self]

theorem tget_tdel_ne (h : j ≠ k) : tget d (tdel m k) j = tget d m j := by simp only [tget, find_tdel_ne _ h]

/-- A table read at the key just changed. -/
theorem tget_tmod_self (f : α → α) : tget d (tmod d m k f) k = f (tget d m k) := by simp [tmod]

theorem tget_tmod_ne (f : α → α) (h : j ≠ k) : tget d (tmod d m k f) j = tget d m j := by simp [tmod, tget_tset_ne _ _ _ h]

/-- Rising keys, said of each head: every later key is larger. -/
theorem rising_cons {e : Nat × α} {m : Tab α} : rising (e :: m) = true ↔ (∀ x ∈ m, e.1 < x.1) ∧ rising m = true := by
  induction m generalizing e with
  | nil => simp [rising]
  | cons b m ih =>
    simp only [rising, Bool.and_eq_true, decide_eq_true_eq, ih]
    constructor
    · rintro ⟨h1, h2, h3⟩
      refine ⟨fun x hx => ?_, h2, h3⟩
      rcases List.mem_cons.1 hx with rfl | hx
      · exact h1
      · exact lt_trans h1 (h2 x hx)
    · exact fun ⟨h1, h2⟩ => ⟨h1 b (by simp), h2⟩

theorem rising_tdel {m : Tab α} (h : rising m = true) : rising (tdel m k) = true := by
  induction m with
  | nil => rfl
  | cons e m ih =>
    rw [rising_cons] at h
    simp only [tdel, List.filter_cons]
    split
    · exact rising_cons.2 ⟨fun x hx => h.1 x (List.mem_filter.1 hx).1, ih h.2⟩
    · exact ih h.2

theorem mem_tinsert {m : Tab α} {x : Nat × α} (h : x ∈ tinsert k v m) : x = (k, v) ∨ x ∈ m := by
  induction m with
  | nil => simpa [tinsert] using h
  | cons e m ih =>
    simp only [tinsert] at h
    split at h
    · simpa using h
    · rcases List.mem_cons.1 h with rfl | h
      · simp
      · rcases ih h with h | h <;> simp [h]

theorem rising_tinsert {m : Tab α} (hk : ∀ x ∈ m, x.1 ≠ k) (h : rising m = true) : rising (tinsert k v m) = true := by
  induction m with
  | nil => rfl
  | cons e m ih =>
    have hr := rising_cons.1 h
    simp only [tinsert]
    split
    · refine rising_cons.2 ⟨fun x hx => ?_, h⟩
      rcases List.mem_cons.1 hx with rfl | hx
      · assumption
      · exact lt_trans ‹_› (hr.1 x hx)
    · refine rising_cons.2 ⟨fun x hx => ?_, ih (fun x hx => hk x (by simp [hx])) hr.2⟩
      have := hk e (by simp)
      rcases mem_tinsert v hx with rfl | hx
      · simp only; omega
      · exact hr.1 x hx

/-- Setting a key keeps the keys rising. -/
theorem rising_tset {m : Tab α} (h : rising m = true) : rising (tset m k v) = true :=
  rising_tinsert v (fun x hx => by simpa [tdel] using (List.mem_filter.1 hx).2) (rising_tdel h)

end Sys2Proof.Machine
end

