-- ==== Sys2Proof/Laws/Memory.lean ====
section
/-!
SUPPORT. The HBM cells: a read after a write, and that every write keeps the canonical form.
-/

namespace Sys2Proof.Machine

variable {m : List Host.Cell} {a b : Nat} {v : Byte}

/-- A byte read where it was just written. -/
@[simp] theorem cellGet_cellSet_self (m : List Host.Cell) (a : Nat) (v : Byte) : cellGet (cellSet m a v) a = v := by
  unfold cellGet cellSet
  split
  · rw [tget_tdel_self]; exact Eq.symm ‹_›
  · exact tget_tset_self ..

/-- A byte read elsewhere than the one just written. -/
theorem cellGet_cellSet_ne (h : b ≠ a) : cellGet (cellSet m a v) b = cellGet m b := by
  unfold cellGet cellSet
  split
  · exact tget_tdel_ne _ _ h
  · exact tget_tset_ne _ _ _ h

/-- A write of bytes leaves every byte outside them as it was. -/
theorem cellGet_cellWrite_outside {bs : List Byte} (h : b < a ∨ a + bs.length ≤ b) :
    cellGet (cellWrite m a bs) b = cellGet m b := by
  induction bs generalizing m a with
  | nil => rfl
  | cons c bs ih =>
    simp only [List.length_cons] at h
    rw [cellWrite, ih (by omega), cellGet_cellSet_ne (by omega)]

/-- A write of bytes, read back. -/
theorem cellGet_cellWrite_inside {bs : List Byte} {i : Nat} (h : i < bs.length) :
    cellGet (cellWrite m a bs) (a + i) = bs[i] := by
  induction bs generalizing m a i with
  | nil => simp at h
  | cons c bs ih =>
    cases i with
    | zero => rw [cellWrite, cellGet_cellWrite_outside (by omega)]; simp
    | succ i =>
      rw [cellWrite, show a + (i + 1) = a + 1 + i by omega, ih (by simpa using h)]
      simp

/-- The canonical form is: rising addresses, no byte zero. -/
theorem Memory.wf_iff : Memory.wf m = true ↔ rising m = true ∧ ∀ c ∈ m, c.2 ≠ 0 := by
  induction m with
  | nil => simp [Memory.wf, rising]
  | cons c m ih =>
    cases m with
    | nil => simp [Memory.wf, rising]
    | cons d m =>
      simp only [Memory.wf, rising, Bool.and_eq_true, bne_iff_ne, decide_eq_true_eq, ih, List.mem_cons]
      aesop

/-- Writing one byte keeps the canonical form. -/
theorem Memory.wf_cellSet (h : Memory.wf m = true) : Memory.wf (cellSet m a v) = true := by
  rw [Memory.wf_iff] at h ⊢
  unfold cellSet
  split
  · exact ⟨rising_tdel h.1, fun c hc => h.2 c (List.mem_filter.1 hc).1⟩
  · refine ⟨rising_tset v h.1, fun c hc => ?_⟩
    rcases mem_tinsert v hc with rfl | hc
    · assumption
    · exact h.2 c (List.mem_filter.1 hc).1

/-- Writing bytes keeps the canonical form. -/
theorem Memory.wf_cellWrite {bs : List Byte} (h : Memory.wf m = true) : Memory.wf (cellWrite m a bs) = true := by
  induction bs generalizing m a with
  | nil => exact h
  | cons c bs ih => exact ih (Memory.wf_cellSet h)

/-- The memory after reset is in canonical form. -/
theorem reset_memory_wf : Memory.wf State.reset.mem.cells = true := rfl

end Sys2Proof.Machine
end

