-- ==== Sys2Proof/Laws/Kept.lean ====
section
/-!
SUPPORT. The relation that every command and every operation keeps, and how it passes through the forms the definitions are built of.
-/

namespace Sys2Proof.Machine

/-- The fuse array only advances, and stays one that its changes can leave. -/
def FuseKept (f g : Fuse) : Prop := f.ok → g.ok ∧ f.advances g
theorem FuseKept.refl (f : Fuse) : FuseKept f f :=
  fun h => ⟨h, rfl, rfl, rfl, le_rfl, fun _ => rfl, id, le_rfl, le_rfl, List.prefix_rfl⟩
theorem FuseKept.trans {f g h : Fuse} (a : FuseKept f g) (b : FuseKept g h) : FuseKept f h := by
  intro k
  obtain ⟨kg, a⟩ := a k
  obtain ⟨kh, b⟩ := b kg
  exact ⟨kh, b.1.trans a.1, b.2.trans a.2, b.3.trans a.3, a.4.trans b.4,
    fun l => (b.5 (by rwa [a.5 l])).trans (a.5 l), fun l => b.6 (a.6 l), a.7.trans b.7, a.8.trans b.8, a.9.trans b.9⟩
theorem FuseKept.busy {f : Fuse} {b : Bool} : FuseKept f { f with busy := b } :=
  fun h => ⟨h, rfl, rfl, rfl, le_rfl, fun _ => rfl, id, le_rfl, le_rfl, List.prefix_rfl⟩

/-- What every command and every operation keeps: the queue, the clk, a fuse array that only advances (R109) and the
canonical form of the HBM cells. -/
structure Kept (s t : State) : Prop where
  pending : t.pending = s.pending
  clk : t.clk = s.clk
  fuse : FuseKept s.fuse t.fuse
  mem : Memory.wf s.mem.cells = true → Memory.wf t.mem.cells = true

theorem Kept.refl (s : State) : Kept s s := ⟨rfl, rfl, .refl _, id⟩

/-- `Kept` of the state that an operation gives where it gives one. -/
def KeptE (x : State) {ε : Type} : Except ε State → Prop
  | .ok t => Kept x t
  | .error _ => True
/-- The same of an optional state. -/
def KeptOp (x : State) : Option State → Prop
  | some t => Kept x t
  | none => True
/-- The same of an outcome. -/
def KeptOut (x : State) : Host.Outcome State Fault Refusal → Prop
  | .next t => Kept x t
  | _ => True

theorem keep_ok {x t : State} {ε : Type} {r : Except ε State} (e : r = .ok t) (h : KeptE x r) : Kept x t := by subst e; exact h
theorem keep_op {x t : State} {r : Option State} (e : r = some t) (h : KeptOp x r) : Kept x t := by subst e; exact h
theorem keep_snd {x t : State} {α : Type} {a : α} {p : α × State} (e : p = (a, t)) (h : Kept x p.2) : Kept x t := by subst e; exact h
theorem keep_snd2 {x t : State} {α β : Type} {a : α} {b : β} {p : α × β × State} (e : p = (a, b, t)) (h : Kept x p.2.2) : Kept x t := by subst e; exact h
theorem keep_ite {x s t : State} {c : Prop} [Decidable c] (h : Kept x s) (k : Kept x t) : Kept x (if c then s else t) := by split <;> assumption
theorem keep_each {x s : State} {α : Type} {l : List α} {f : α → State → State} (k : ∀ a t, Kept x t → Kept x (f a t)) (h : Kept x s) :
    Kept x (each l f s) := by
  unfold each
  induction l generalizing s with
  | nil => exact h
  | cons a l ih => exact ih (k a s h)
theorem keep_bind {x : State} {ε α : Type} {r : Except ε α} {g : α → Except ε State} (k : ∀ v, r = .ok v → KeptE x (g v)) : KeptE x (r >>= g) := by
  cases r with
  | ok v => exact k v rfl
  | error e => trivial
theorem keep_mk {x s : State} {pwr chain boot fuse flash time job host cfg par ledger cap inj ports fab policers mem stations crucibles members riddles ladles moulds sorters layers out} 
   (h : Kept x s) (hf : FuseKept s.fuse fuse) (hm : Memory.wf s.mem.cells = true → Memory.wf mem.cells = true) :
   Kept x ⟨s.pending, s.clk, pwr, chain, boot, fuse, flash, time, job, host, cfg, par, ledger, cap, inj, ports, fab, policers, mem, stations, crucibles, members, riddles, ladles, moulds, sorters, layers, out⟩ :=
  ⟨h.1, h.2, h.3.trans hf, fun q => hm (h.4 q)⟩
theorem keep_emit {x s : State} {e : Emit} (h : Kept x s) : Kept x (s.emit e) := ⟨h.1, h.2, h.3, h.4⟩
theorem keep_setFuse {x s : State} {f : Fuse → Fuse} (hf : FuseKept s.fuse (f s.fuse)) (h : Kept x s) : Kept x (s.setFuse f) :=
  ⟨h.1, h.2, h.3.trans hf, h.4⟩
theorem keep_setMem {x s : State} {f : StackedMem → StackedMem} (h : Kept x s)
   (hf : Memory.wf s.mem.cells = true → Memory.wf (f s.mem).cells = true) : Kept x (s.setMem f) :=
  ⟨h.1, h.2, h.3, fun q => hf (h.4 q)⟩
theorem keep_next {x s : State} (h : Kept x s) : KeptOut x (.next s) := h
theorem keep_okE {x s : State} {ε : Type} (h : Kept x s) : KeptE x (.ok s : Except ε State) := h
theorem keep_some {x s : State} (h : Kept x s) : KeptOp x (some s) := h
theorem keep_err {x : State} {ε : Type} {e : ε} : KeptE x (.error e) := trivial
theorem keep_none {x : State} : KeptOp x none := trivial
theorem keep_wfReset {a : List Host.Cell} (_ : Memory.wf a = true) : Memory.wf StackedMem.reset.cells = true := rfl
theorem keep_getD {x d : State} {r : Option State} (h : KeptOp x r) (k : Kept x d) : Kept x (r.getD d) := by
  cases r with
  | none => exact k
  | some t => exact h
theorem keep_map {x : State} {α : Type} {r : Option α} {f : α → State} (h : ∀ a, Kept x (f a)) : KeptOp x (Option.map f r) := by
  cases r with
  | none => trivial
  | some a => exact h a
theorem keep_findSome {x : State} {α : Type} {l : List α} {f : α → Option State} (h : ∀ a, KeptOp x (f a)) : KeptOp x (l.findSome? f) := by
  induction l with
  | nil => trivial
  | cons a l ih =>
    rw [List.findSome?_cons]
    have := h a
    split
    · simpa [*] using this
    · exact ih
theorem keep_refused {x : State} {r : Refusal} : KeptOut x (.refused r) := trivial
theorem keep_part {s : State} : FuseKept (clearMain s).fuse { s.fuse with busy := false } := FuseKept.busy (f := s.fuse)
theorem keep_part' {s : State} {c : Nat} : FuseKept (turnOff c s).fuse { (turnOff c s).fuse with busy := false } := FuseKept.busy
theorem keep_foldl {x : State} {α β : Type} {l : List α} {f : β × State → α → β × State} {p : β × State}
    (k : ∀ a q, Kept x q.2 → Kept x (f q a).2) (h : Kept x p.2) : Kept x (l.foldl f p).2 := by
  induction l generalizing p with
  | nil => exact h
  | cons a l ih => exact ih (k a p h)
theorem keep_wfNil {a : List Host.Cell} (_ : Memory.wf a = true) : Memory.wf [] = true := rfl
end Sys2Proof.Machine
end

