-- ==== Sys2Proof/Laws/KeptUnits.lean ====
section
/-!
SUPPORT. What every operation keeps (`Kept`): the shared operations: units, ledger, signals, station registers, fabric time, packets and the pool's charges.
-/

namespace Sys2Proof.Machine

theorem keep_State_setPort {x0 : State} (p : ℕ) (f : Port → Port) {s : State} (hk : Kept x0 s) :
    Kept x0 (State.setPort s p f) := by
  unfold State.setPort
  try dsimp only
  repeat' (first
      | with_reducible exact hk
      | with_reducible exact id
      | with_reducible exact FuseKept.refl _
      | with_reducible refine keep_mk ?_ ?_ ?_)

theorem keep_State_setStation {x0 : State} (a : ℕ) (f : Station → Station) {s : State} (hk : Kept x0 s) :
    Kept x0 (State.setStation s a f) := by
  unfold State.setStation
  try dsimp only
  repeat' (first
      | with_reducible exact hk
      | with_reducible exact id
      | with_reducible exact FuseKept.refl _
      | with_reducible refine keep_mk ?_ ?_ ?_)

theorem keep_State_setStack {x0 : State} (k : ℕ) (f : StackRegs → StackRegs) {s : State} (hk : Kept x0 s) :
    Kept x0 (State.setStack s k f) := by
  unfold State.setStack
  try dsimp only
  repeat' (first
      | with_reducible exact hk
      | with_reducible exact id
      | with_reducible exact FuseKept.refl _
      | with_reducible refine keep_mk ?_ ?_ ?_)

theorem keep_State_setEntry {x0 : State} (e : ℕ) (f : LedgerEntry → LedgerEntry) {s : State} (hk : Kept x0 s) :
    Kept x0 (State.setEntry s e f) := by
  unfold State.setEntry
  try dsimp only
  repeat' (first
      | with_reducible exact hk
      | with_reducible exact id
      | with_reducible exact FuseKept.refl _
      | with_reducible refine keep_mk ?_ ?_ ?_)

theorem keep_State_setCrucible {x0 : State} (a : ℕ) (f : Crucible → Crucible) {s : State} (hk : Kept x0 s) :
    Kept x0 (State.setCrucible s a f) := by
  unfold State.setCrucible
  try dsimp only
  repeat' (first
      | with_reducible exact hk
      | with_reducible exact id
      | with_reducible exact FuseKept.refl _
      | with_reducible refine keep_mk ?_ ?_ ?_)

theorem keep_State_setRiddle {x0 : State} (a : ℕ) (f : Riddle → Riddle) {s : State} (hk : Kept x0 s) :
    Kept x0 (State.setRiddle s a f) := by
  unfold State.setRiddle
  try dsimp only
  repeat' (first
      | with_reducible exact hk
      | with_reducible exact id
      | with_reducible exact FuseKept.refl _
      | with_reducible refine keep_mk ?_ ?_ ?_)

theorem keep_State_setLadle {x0 : State} (a : ℕ) (f : Ladle → Ladle) {s : State} (hk : Kept x0 s) :
    Kept x0 (State.setLadle s a f) := by
  unfold State.setLadle
  try dsimp only
  repeat' (first
      | with_reducible exact hk
      | with_reducible exact id
      | with_reducible exact FuseKept.refl _
      | with_reducible refine keep_mk ?_ ?_ ?_)

theorem keep_State_setMould {x0 : State} (a : ℕ) (f : Mould → Mould) {s : State} (hk : Kept x0 s) :
    Kept x0 (State.setMould s a f) := by
  unfold State.setMould
  try dsimp only
  repeat' (first
      | with_reducible exact hk
      | with_reducible exact id
      | with_reducible exact FuseKept.refl _
      | with_reducible refine keep_mk ?_ ?_ ?_)

theorem keep_State_setSorter {x0 : State} (a : ℕ) (f : Sorter → Sorter) {s : State} (hk : Kept x0 s) :
    Kept x0 (State.setSorter s a f) := by
  unfold State.setSorter
  try dsimp only
  repeat' (first
      | with_reducible exact hk
      | with_reducible exact id
      | with_reducible exact FuseKept.refl _
      | with_reducible refine keep_mk ?_ ?_ ?_)

theorem keep_State_setMember {x0 : State} (m : ℕ) (f : Member → Member) {s : State} (hk : Kept x0 s) :
    Kept x0 (State.setMember s m f) := by
  unfold State.setMember
  try dsimp only
  repeat' (first
      | with_reducible exact hk
      | with_reducible exact id
      | with_reducible exact FuseKept.refl _
      | with_reducible refine keep_mk ?_ ?_ ?_)

theorem keep_State_setLayer {x0 : State} (l : ℕ) (f : Layer → Layer) {s : State} (hk : Kept x0 s) :
    Kept x0 (State.setLayer s l f) := by
  unfold State.setLayer
  try dsimp only
  repeat' (first
      | with_reducible exact hk
      | with_reducible exact id
      | with_reducible exact FuseKept.refl _
      | with_reducible refine keep_mk ?_ ?_ ?_)

theorem keep_State_setPolicer {x0 : State} (k : ℕ) (f : Policer → Policer) {s : State} (hk : Kept x0 s) :
    Kept x0 (State.setPolicer s k f) := by
  unfold State.setPolicer
  try dsimp only
  repeat' (first
      | with_reducible exact hk
      | with_reducible exact id
      | with_reducible exact FuseKept.refl _
      | with_reducible refine keep_mk ?_ ?_ ?_)

theorem keep_State_setStop {x0 : State} (k : ℕ) (f : RingStop → RingStop) {s : State} (hk : Kept x0 s) :
    Kept x0 (State.setStop s k f) := by
  unfold State.setStop
  try dsimp only
  repeat' (first
      | with_reducible exact hk
      | with_reducible exact id
      | with_reducible exact FuseKept.refl _
      | with_reducible refine keep_mk ?_ ?_ ?_)

theorem keep_State_setPwr {x0 : State} (f : Power → Power) {s : State} (hk : Kept x0 s) :
    Kept x0 (State.setPwr s f) := by
  unfold State.setPwr
  try dsimp only
  repeat' (first
      | with_reducible exact hk
      | with_reducible exact id
      | with_reducible exact FuseKept.refl _
      | with_reducible refine keep_mk ?_ ?_ ?_)

theorem keep_State_setBoot {x0 : State} (f : Boot → Boot) {s : State} (hk : Kept x0 s) :
    Kept x0 (State.setBoot s f) := by
  unfold State.setBoot
  try dsimp only
  repeat' (first
      | with_reducible exact hk
      | with_reducible exact id
      | with_reducible exact FuseKept.refl _
      | with_reducible refine keep_mk ?_ ?_ ?_)

theorem keep_State_setTime {x0 : State} (f : TimeKeeper → TimeKeeper) {s : State} (hk : Kept x0 s) :
    Kept x0 (State.setTime s f) := by
  unfold State.setTime
  try dsimp only
  repeat' (first
      | with_reducible exact hk
      | with_reducible exact id
      | with_reducible exact FuseKept.refl _
      | with_reducible refine keep_mk ?_ ?_ ?_)

theorem keep_State_setJob {x0 : State} (f : Job → Job) {s : State} (hk : Kept x0 s) :
    Kept x0 (State.setJob s f) := by
  unfold State.setJob
  try dsimp only
  repeat' (first
      | with_reducible exact hk
      | with_reducible exact id
      | with_reducible exact FuseKept.refl _
      | with_reducible refine keep_mk ?_ ?_ ?_)

theorem keep_State_setHost {x0 : State} (f : HostLink → HostLink) {s : State} (hk : Kept x0 s) :
    Kept x0 (State.setHost s f) := by
  unfold State.setHost
  try dsimp only
  repeat' (first
      | with_reducible exact hk
      | with_reducible exact id
      | with_reducible exact FuseKept.refl _
      | with_reducible refine keep_mk ?_ ?_ ?_)

theorem keep_State_setLedger {x0 : State} (f : Ledger → Ledger) {s : State} (hk : Kept x0 s) :
    Kept x0 (State.setLedger s f) := by
  unfold State.setLedger
  try dsimp only
  repeat' (first
      | with_reducible exact hk
      | with_reducible exact id
      | with_reducible exact FuseKept.refl _
      | with_reducible refine keep_mk ?_ ?_ ?_)

theorem keep_State_setCap {x0 : State} (f : Capture → Capture) {s : State} (hk : Kept x0 s) :
    Kept x0 (State.setCap s f) := by
  unfold State.setCap
  try dsimp only
  repeat' (first
      | with_reducible exact hk
      | with_reducible exact id
      | with_reducible exact FuseKept.refl _
      | with_reducible refine keep_mk ?_ ?_ ?_)

theorem keep_State_setFab {x0 : State} (f : Fabric → Fabric) {s : State} (hk : Kept x0 s) :
    Kept x0 (State.setFab s f) := by
  unfold State.setFab
  try dsimp only
  repeat' (first
      | with_reducible exact hk
      | with_reducible exact id
      | with_reducible exact FuseKept.refl _
      | with_reducible refine keep_mk ?_ ?_ ?_)

theorem keep_State_setPar {x0 : State} (f : Parity → Parity) {s : State} (hk : Kept x0 s) :
    Kept x0 (State.setPar s f) := by
  unfold State.setPar
  try dsimp only
  repeat' (first
      | with_reducible exact hk
      | with_reducible exact id
      | with_reducible exact FuseKept.refl _
      | with_reducible refine keep_mk ?_ ?_ ?_)

theorem keep_State_setInj {x0 : State} (f : Inject → Inject) {s : State} (hk : Kept x0 s) :
    Kept x0 (State.setInj s f) := by
  unfold State.setInj
  try dsimp only
  repeat' (first
      | with_reducible exact hk
      | with_reducible exact id
      | with_reducible exact FuseKept.refl _
      | with_reducible refine keep_mk ?_ ?_ ?_)

theorem keep_State_setChain {x0 : State} (f : Chain → Chain) {s : State} (hk : Kept x0 s) :
    Kept x0 (State.setChain s f) := by
  unfold State.setChain
  try dsimp only
  repeat' (first
      | with_reducible exact hk
      | with_reducible exact id
      | with_reducible exact FuseKept.refl _
      | with_reducible refine keep_mk ?_ ?_ ?_)

theorem keep_recordCause {x0 : State} (code : ℕ) (unit : ℕ) {s : State} (hk : Kept x0 s) :
    Kept x0 (recordCause code unit s) := by
  unfold recordCause
  try dsimp only
  repeat' (first
      | with_reducible exact hk
      | with_reducible refine keep_ite ?_ ?_
      | with_reducible exact id
      | with_reducible exact FuseKept.refl _
      | with_reducible refine keep_mk ?_ ?_ ?_)

theorem keep_enterPhase {x0 : State} (p : Phase) {s : State} (hk : Kept x0 s) :
    Kept x0 (enterPhase p s) := by
  unfold enterPhase
  try dsimp only
  repeat' (first
      | with_reducible exact hk
      | with_reducible exact id
      | with_reducible exact FuseKept.refl _
      | with_reducible refine keep_mk ?_ ?_ ?_)

theorem keep_dropStart {x0 : State} {s : State} (hk : Kept x0 s) :
    Kept x0 (dropStart s) := by
  unfold dropStart
  try dsimp only
  repeat' (first
      | with_reducible exact hk
      | with_reducible refine keep_ite ?_ ?_
      | with_reducible exact id
      | with_reducible exact FuseKept.refl _
      | with_reducible refine keep_mk ?_ ?_ ?_)

theorem keep_failExit {x0 : State} (code : ℕ) (unit : ℕ) {s : State} (hk : Kept x0 s) :
    Kept x0 (failExit code unit s) := by
  unfold failExit
  try dsimp only
  repeat' (first
      | with_reducible exact hk
      | with_reducible apply keep_emit
      | with_reducible refine keep_recordCause _ _ ?_
      | with_reducible refine keep_enterPhase _ ?_)

theorem keep_quenchDue {x0 : State} (code : ℕ) (unit : ℕ) {s : State} (hk : Kept x0 s) :
    Kept x0 (quenchDue code unit s) := by
  unfold quenchDue
  try dsimp only
  repeat' (first
      | with_reducible exact hk
      | with_reducible exact id
      | with_reducible exact FuseKept.refl _
      | with_reducible refine keep_mk ?_ ?_ ?_)

theorem keep_onMain {x0 : State} (f : State → State) {s : State} (kf : ∀ t, Kept x0 t → Kept x0 (f  t)) (hk : Kept x0 s) :
    KeptOut x0 (onMain f s) := by
  unfold onMain
  try dsimp only
  repeat' (first | with_reducible exact hk | refine kf _ ?_ | with_reducible refine keep_ite ?_ ?_ | with_reducible refine keep_next ?_)

theorem keep_clearMain {x0 : State} {s : State} (hk : Kept x0 s) :
    Kept x0 (clearMain s) := by
  unfold clearMain
  try dsimp only
  repeat' (first
      | with_reducible exact hk
      | with_reducible exact FuseKept.refl _
      | with_reducible exact keep_wfReset
      | with_reducible refine keep_mk ?_ ?_ ?_)

theorem keep_clearPower {x0 : State} {s : State} (hk : Kept x0 s) :
    Kept x0 (clearPower s) := by
  unfold clearPower
  try dsimp only
  repeat' (first
      | with_reducible exact hk
      | with_reducible exact id
      | with_reducible exact FuseKept.refl _
      | with_reducible refine keep_mk ?_ ?_ ?_)

theorem keep_turnOff {x0 : State} (cause : ℕ) {s : State} (hk : Kept x0 s) :
    Kept x0 (turnOff cause s) := by
  unfold turnOff
  try dsimp only
  repeat' (first
      | with_reducible exact hk
      | with_reducible refine keep_clearMain ?_
      | with_reducible apply keep_emit
      | with_reducible refine keep_ite ?_ ?_
      | with_reducible exact id
      | with_reducible exact FuseKept.refl _
      | with_reducible refine keep_mk ?_ ?_ ?_)

theorem keep_setVin {x0 : State} (mv : ℕ) {s : State} (hk : Kept x0 s) :
    Kept x0 (setVin mv s) := by
  unfold setVin
  try dsimp only
  repeat' (first
      | with_reducible exact hk
      | with_reducible exact id
      | with_reducible exact FuseKept.refl _
      | with_reducible refine keep_mk ?_ ?_ ?_)

theorem keep_reply {x0 : State} (code : ℕ) (payload : List Byte) {s : State} (hk : Kept x0 s) :
    Kept x0 (reply code payload s) := by
  unfold reply
  try dsimp only
  repeat' (first | with_reducible exact hk | with_reducible apply keep_emit)

theorem keep_ackFrame {x0 : State} {s : State} (hk : Kept x0 s) :
    Kept x0 (ackFrame s) := by
  unfold ackFrame
  try dsimp only
  repeat' (first | with_reducible exact hk | with_reducible refine keep_reply _ _ ?_)

theorem keep_refuseFrame {x0 : State} (code : ℕ) (reason : ℕ) {s : State} (hk : Kept x0 s) :
    Kept x0 (refuseFrame code reason s) := by
  unfold refuseFrame
  try dsimp only
  repeat' (first | with_reducible exact hk | with_reducible refine keep_reply _ _ ?_)

theorem keep_presentFrame {x0 : State} {s : State} (hk : Kept x0 s) :
    Kept x0 (presentFrame s) := by
  unfold presentFrame
  try dsimp only
  repeat' (first | with_reducible exact hk | with_reducible refine keep_reply _ _ ?_)

theorem keep_onFrame {x0 : State} (dst : BitVec 8) (code : ℕ) (payload : List Byte) (crc : BitVec 16) (mine : Bool) (f : State → State) {s : State} (kf : ∀ t, Kept x0 t → Kept x0 (f  t)) (hk : Kept x0 s) :
    KeptOut x0 (onFrame s dst code payload crc mine f) := by
  unfold onFrame
  try dsimp only
  repeat' (first
      | with_reducible exact hk
      | refine kf _ ?_
      | with_reducible apply keep_emit
      | with_reducible refine keep_ite ?_ ?_
      | with_reducible refine keep_next ?_)

theorem keep_countReplayDrop {x0 : State} {s : State} (hk : Kept x0 s) :
    Kept x0 (countReplayDrop s) := by
  unfold countReplayDrop
  try dsimp only
  repeat' (first | with_reducible exact hk | with_reducible refine keep_State_setCap _ ?_)

theorem keep_queueNotice {x0 : State} (port : ℕ) (kind : ℕ) (heat : ℕ) (item : BitVec 128) {s : State} (hk : Kept x0 s) :
    Kept x0 (queueNotice port kind heat item s) := by
  unfold queueNotice
  try dsimp only
  repeat' (first | with_reducible exact hk | with_reducible refine keep_State_setLedger _ ?_ | with_reducible refine keep_ite ?_ ?_)

theorem keep_announceEntry {x0 : State} (e : ℕ) (verdict : ℕ) (cause : ℕ) (detail : ℕ) {s : State} (hk : Kept x0 s) :
    Kept x0 (announceEntry e verdict cause detail s) := by
  unfold announceEntry
  try dsimp only
  repeat' (first
      | with_reducible exact hk
      | with_reducible assumption
      | with_reducible refine keep_queueNotice _ _ _ _ ?_
      | with_reducible refine keep_each ?_ ?_
      | intro _)

theorem keep_holdRetracted {x0 : State} (cause : ℕ) (detail : ℕ) (entry : ℕ) (skip : Option ℕ) {s : State} (hk : Kept x0 s) :
    Kept x0 (holdRetracted cause detail entry skip s) := by
  unfold holdRetracted
  try dsimp only
  repeat' (first
      | with_reducible exact hk
      | with_reducible assumption
      | with_reducible refine keep_State_setLedger _ ?_
      | with_reducible refine keep_queueNotice _ _ _ _ ?_
      | with_reducible refine keep_ite ?_ ?_
      | with_reducible refine keep_each ?_ ?_
      | intro _)

theorem keep_holdOwn {x0 : State} (cause : ℕ) (detail : ℕ) (entry : ℕ) (skip : Option ℕ) {s : State} (hk : Kept x0 s) :
    Kept x0 (holdOwn cause detail entry skip s) := by
  unfold holdOwn
  try dsimp only
  repeat' (first | with_reducible exact hk | with_reducible refine keep_holdRetracted _ _ _ _ ?_ | with_reducible refine keep_ite ?_ ?_)

theorem keep_recordRetract {x0 : State} (cause : ℕ) (detail : ℕ) (entry : ℕ) {s : State} (hk : Kept x0 s) :
    Kept x0 (recordRetract cause detail entry s) := by
  unfold recordRetract
  try dsimp only
  repeat' (first | with_reducible exact hk | with_reducible refine keep_State_setLedger _ ?_ | with_reducible refine keep_ite ?_ ?_)

theorem keep_withdrawNotices {x0 : State} (e : ℕ) {s : State} (hk : Kept x0 s) :
    Kept x0 (withdrawNotices e s) := by
  unfold withdrawNotices
  try dsimp only
  repeat' (first | with_reducible exact hk | with_reducible refine keep_State_setLedger _ ?_)

theorem keep_lowerCause {x0 : State} (e : ℕ) (cause : ℕ) (detail : ℕ) {s : State} (hk : Kept x0 s) :
    Kept x0 (lowerCause e cause detail s) := by
  unfold lowerCause
  try dsimp only
  repeat' (first
      | with_reducible exact hk
      | with_reducible refine keep_State_setLedger _ ?_
      | with_reducible refine keep_State_setEntry _ _ ?_)

theorem keep_retractOne {x0 : State} (e : ℕ) (cause : ℕ) (detail : ℕ) (skip : Option ℕ) (acts : EntryState → Bool) {s : State} (hk : Kept x0 s) :
    Kept x0 (retractOne e cause detail skip acts s) := by
  unfold retractOne
  try dsimp only
  repeat' (first
      | with_reducible exact hk
      | with_reducible refine keep_withdrawNotices _ ?_
      | with_reducible refine keep_State_setEntry _ _ ?_
      | with_reducible refine keep_State_setLedger _ ?_
      | with_reducible refine keep_holdOwn _ _ _ _ ?_
      | with_reducible refine keep_recordRetract _ _ _ ?_
      | with_reducible refine keep_announceEntry _ _ _ _ ?_
      | with_reducible refine keep_lowerCause _ _ _ ?_
      | with_reducible refine keep_ite ?_ ?_)

theorem keep_retractDeps {x0 : State} (v0 : ℕ) {v1 : State} (hk : Kept x0 v1) :
    Kept x0 (retractDeps v0 v1) := by
  induction v0 generalizing v1 with
  | zero =>
    unfold retractDeps
    try dsimp only
    repeat' (first | with_reducible exact hk)
  | succ _ ih =>
    unfold retractDeps
    try dsimp only
    repeat' (first
        | with_reducible exact hk
        | with_reducible assumption
        | with_reducible apply ih
        | with_reducible refine keep_retractOne _ _ _ _ _ ?_
        | with_reducible refine keep_ite ?_ ?_
        | with_reducible refine keep_each ?_ ?_
        | intro _)

theorem keep_retractEntries {x0 : State} (es : List ℕ) (cause : ℕ) (detail : ℕ) (skip : Option ℕ) (acts : EntryState → Bool) {s : State} (hk : Kept x0 s) :
    Kept x0 (retractEntries es cause detail skip acts s) := by
  unfold retractEntries
  try dsimp only
  repeat' (first
      | with_reducible exact hk
      | with_reducible assumption
      | with_reducible refine keep_retractDeps _ ?_
      | with_reducible refine keep_retractOne _ _ _ _ _ ?_
      | with_reducible refine keep_each ?_ ?_
      | intro _)

theorem keep_mark {x0 : State} (cause : ℕ) (detail : ℕ) (es : List ℕ) {s : State} (hk : Kept x0 s) :
    Kept x0 (mark cause detail es s) := by
  unfold mark
  try dsimp only
  repeat' (first
      | with_reducible exact hk
      | with_reducible refine keep_State_setLedger _ ?_
      | with_reducible refine keep_retractEntries _ _ _ _ _ ?_
      | with_reducible refine keep_holdOwn _ _ _ _ ?_
      | with_reducible refine keep_recordRetract _ _ _ ?_
      | with_reducible refine keep_ite ?_ ?_)

theorem keep_commitOne {x0 : State} (e : ℕ) {s : State} (hk : Kept x0 s) :
    Kept x0 (commitOne e s) := by
  unfold commitOne
  try dsimp only
  repeat' (first
      | with_reducible exact hk
      | with_reducible refine keep_State_setEntry _ _ ?_
      | with_reducible refine keep_announceEntry _ _ _ _ ?_
      | with_reducible refine keep_State_setLedger _ ?_)

theorem keep_commitAll {x0 : State} (v0 : ℕ) {v1 : State} (hk : Kept x0 v1) :
    Kept x0 (commitAll v0 v1) := by
  induction v0 generalizing v1 with
  | zero =>
    unfold commitAll
    try dsimp only
    repeat' (first | with_reducible exact hk)
  | succ _ ih =>
    unfold commitAll
    try dsimp only
    repeat' (first
        | with_reducible exact hk
        | with_reducible assumption
        | with_reducible apply ih
        | with_reducible refine keep_commitOne _ ?_
        | with_reducible refine keep_ite ?_ ?_
        | with_reducible refine keep_each ?_ ?_
        | intro _)

theorem keep_decide' {x0 : State} {s : State} (hk : Kept x0 s) :
    Kept x0 (decide' s) := by
  unfold decide'
  try dsimp only
  repeat' (first | with_reducible exact hk | with_reducible refine keep_commitAll _ ?_)

theorem keep_linkDown {x0 : State} (p : ℕ) {s : State} (hk : Kept x0 s) :
    Kept x0 (linkDown p s) := by
  unfold linkDown
  try dsimp only
  repeat' (first
      | with_reducible exact hk
      | with_reducible refine keep_State_setLedger _ ?_
      | with_reducible refine keep_retractEntries _ _ _ _ _ ?_
      | with_reducible refine keep_quenchDue _ _ ?_
      | with_reducible refine keep_ite ?_ ?_)

theorem keep_violateAt {x0 : State} (a : ℕ) (code : ℕ) (place : ℕ) (pour : ℕ) (clk : ℕ) (heat : ℕ) {s : State} (hk : Kept x0 s) :
    Kept x0 (violateAt a code place pour clk heat s) := by
  unfold violateAt
  try dsimp only
  repeat' (first
      | with_reducible exact hk
      | with_reducible refine keep_State_setStation _ _ ?_
      | with_reducible refine keep_State_setLedger _ ?_
      | with_reducible refine keep_mark _ _ _ ?_
      | with_reducible refine keep_quenchDue _ _ ?_
      | with_reducible refine keep_ite ?_ ?_)

theorem keep_violate {x0 : State} (a : ℕ) (code : ℕ) (place : ℕ) {s : State} (hk : Kept x0 s) :
    Kept x0 (violate a code place s) := by
  unfold violate
  try dsimp only
  repeat' (first | with_reducible exact hk | with_reducible refine keep_violateAt _ _ _ _ _ _ ?_)

theorem keep_sendSignal {x0 : State} (due : ℕ) (a : ℕ) (k : SigKind) (place : Option ℕ) {s : State} (hk : Kept x0 s) :
    Kept x0 (sendSignal due a k place s) := by
  unfold sendSignal
  try dsimp only
  repeat' (first | with_reducible exact hk | with_reducible refine keep_State_setFab _ ?_)

theorem keep_fireSignal {x0 : State} (a : ℕ) (word : Word) (late : Bool) (t : ℕ) (place : ℕ) {s : State} (hk : Kept x0 s) :
    Kept x0 (fireSignal a word late t place s) := by
  unfold fireSignal
  try dsimp only
  repeat' (first
      | with_reducible exact hk
      | with_reducible refine keep_sendSignal _ _ _ _ ?_
      | with_reducible refine keep_ite ?_ ?_
      | split)

theorem keep_keepPast {x0 : State} (key : ℕ) (old : ℕ) (due : ℕ) {s : State} (hk : Kept x0 s) :
    Kept x0 (keepPast key old due s) := by
  unfold keepPast
  try dsimp only
  repeat' (first | with_reducible exact hk | with_reducible refine keep_State_setFab _ ?_)

theorem keep_changeFlag {x0 : State} (a : ℕ) (i : ℕ) (due : ℕ) (place : ℕ) (sets : Bool) (clears : Bool) {s : State} (hk : Kept x0 s) :
    Kept x0 (changeFlag a i due place sets clears s) := by
  unfold changeFlag
  try dsimp only
  repeat' (first
      | with_reducible exact hk
      | with_reducible refine keep_violateAt _ _ _ _ _ _ ?_
      | with_reducible refine keep_keepPast _ _ _ ?_
      | with_reducible refine keep_State_setStation _ _ ?_
      | with_reducible refine keep_ite ?_ ?_)

theorem keep_changeCounter {x0 : State} (a : ℕ) (i : ℕ) (due : ℕ) (place : ℕ) (adds : ℕ) (takes : ℕ) {s : State} (hk : Kept x0 s) :
    Kept x0 (changeCounter a i due place adds takes s) := by
  unfold changeCounter
  try dsimp only
  repeat' (first
      | with_reducible exact hk
      | with_reducible refine keep_keepPast _ _ _ ?_
      | with_reducible refine keep_State_setStation _ _ ?_
      | with_reducible refine keep_violateAt _ _ _ _ _ _ ?_
      | with_reducible refine keep_ite ?_ ?_)

theorem keep_applyGroup {x0 : State} (g : List Signal) {s : State} (hk : Kept x0 s) :
    Kept x0 (applyGroup g s) := by
  unfold applyGroup
  try dsimp only
  repeat' (first
      | with_reducible exact hk
      | with_reducible refine keep_changeFlag _ _ _ _ _ _ ?_
      | with_reducible refine keep_changeCounter _ _ _ _ _ _ ?_
      | split)

theorem keep_applySignals {x0 : State} {s : State} (hk : Kept x0 s) :
    Kept x0 (applySignals s) := by
  unfold applySignals
  try dsimp only
  repeat' (first
      | with_reducible exact hk
      | with_reducible assumption
      | with_reducible refine keep_State_setFab _ ?_
      | with_reducible refine keep_applyGroup _ ?_
      | with_reducible refine keep_ite ?_ ?_
      | with_reducible refine keep_each ?_ ?_
      | intro _)

theorem keep_execSignalArrival {x0 : State} {s : State} (hk : Kept x0 s) :
    KeptOut x0 (execSignalArrival s) := by
  unfold execSignalArrival
  try dsimp only
  repeat' (first | with_reducible exact hk | with_reducible refine keep_applySignals ?_ | with_reducible refine keep_next ?_)

theorem keep_takeWait {x0 : State} (a : ℕ) (place : ℕ) (word : Word) {s : State} (hk : Kept x0 s) :
    Kept x0 (takeWait a place word s) := by
  unfold takeWait
  try dsimp only
  repeat' (first
      | with_reducible exact hk
      | with_reducible refine keep_sendSignal _ _ _ _ ?_
      | with_reducible refine keep_ite ?_ ?_
      | split)

theorem keep_popEnd {x0 : State} (a : ℕ) (e : ℕ) (t : ℕ) {s : State} (hk : Kept x0 s) :
    Kept x0 (popEnd a e t s) := by
  unfold popEnd
  try dsimp only
  repeat' (first | with_reducible exact hk | with_reducible refine keep_State_setStation _ _ ?_)

theorem keep_countElems {x0 : State} (a : ℕ) (j : ℕ) (fmt : ℕ) (base : ℤ) (d : LineData) {s : State} (hk : Kept x0 s) :
    Kept x0 (countElems a j fmt base d s) := by
  unfold countElems
  try dsimp only
  repeat' (first | with_reducible exact hk | with_reducible refine keep_State_setStation _ _ ?_)

theorem keep_setHistHdr {x0 : State} (a : ℕ) (j : ℕ) (h : Option (BitVec 16)) {s : State} (hk : Kept x0 s) :
    Kept x0 (setHistHdr a j h s) := by
  unfold setHistHdr
  try dsimp only
  repeat' (first | with_reducible exact hk | with_reducible refine keep_State_setStation _ _ ?_)

theorem keep_countHist {x0 : State} (a : ℕ) (j : ℕ) (l : Line) {s : State} (hk : Kept x0 s) :
    Kept x0 (countHist a j l s) := by
  unfold countHist
  try dsimp only
  repeat' (first
      | with_reducible exact hk
      | with_reducible refine keep_setHistHdr _ _ _ ?_
      | with_reducible refine keep_countElems _ _ _ _ _ ?_
      | with_reducible refine keep_ite ?_ ?_
      | split)

theorem keep_missHist {x0 : State} (a : ℕ) (j : ℕ) (l : Line) {s : State} (hk : Kept x0 s) :
    Kept x0 (missHist a j l s) := by
  unfold missHist
  try dsimp only
  repeat' (first | with_reducible exact hk | with_reducible refine keep_setHistHdr _ _ _ ?_ | with_reducible refine keep_ite ?_ ?_)

theorem keep_appendLine {x0 : State} (a : ℕ) (e : ℕ) (t : ℕ) (l : Line) {s : State} (hk : Kept x0 s) :
    Kept x0 (appendLine a e t l s) := by
  unfold appendLine
  try dsimp only
  repeat' (first | with_reducible exact hk | with_reducible refine keep_State_setStation _ _ ?_)

theorem keep_violateClk {x0 : State} (a : ℕ) (code : ℕ) (place : ℕ) (c : ℕ) {s : State} (hk : Kept x0 s) :
    Kept x0 (violateClk a code place c s) := by
  unfold violateClk
  try dsimp only
  repeat' (first | with_reducible exact hk | with_reducible refine keep_violateAt _ _ _ _ _ _ ?_)

theorem keep_pushEnd {x0 : State} (a : ℕ) (e : ℕ) (t : ℕ) (place : ℕ) (l : Line) {s : State} (hk : Kept x0 s) :
    Kept x0 (pushEnd a e t place l s) := by
  unfold pushEnd
  try dsimp only
  repeat' (first
      | with_reducible exact hk
      | with_reducible refine keep_violateClk _ _ _ _ ?_
      | with_reducible refine keep_missHist _ _ _ ?_
      | with_reducible refine keep_countHist _ _ _ ?_
      | with_reducible refine keep_appendLine _ _ _ _ ?_
      | with_reducible refine keep_ite ?_ ?_
      | split)

theorem keep_setStoreLine {x0 : State} (a : ℕ) (k : ℕ) (d : LineData) {s : State} (hk : Kept x0 s) :
    Kept x0 (setStoreLine a k d s) := by
  unfold setStoreLine
  try dsimp only
  repeat' (first | with_reducible exact hk | with_reducible refine keep_State_setStation _ _ ?_)

theorem keep_setStoreWord {x0 : State} (a : ℕ) (w : ℕ) (v : Word) {s : State} (hk : Kept x0 s) :
    Kept x0 (setStoreWord a w v s) := by
  unfold setStoreWord
  try dsimp only
  repeat' (first | with_reducible exact hk | with_reducible refine keep_setStoreLine _ _ _ ?_)

theorem keep_addResult {x0 : State} (a : ℕ) (r : PendingResult) {s : State} (hk : Kept x0 s) :
    Kept x0 (addResult a r s) := by
  unfold addResult
  try dsimp only
  repeat' (first | with_reducible exact hk | with_reducible refine keep_State_setStation _ _ ?_)

theorem keep_missResult {x0 : State} (a : ℕ) (r : PendingResult) {s : State} (hk : Kept x0 s) :
    Kept x0 (missResult a r s) := by
  unfold missResult
  try dsimp only
  repeat' (first | with_reducible exact hk | with_reducible refine keep_missHist _ _ _ ?_ | split)

theorem keep_applyResult {x0 : State} (a : ℕ) (r : PendingResult) {s : State} (hk : Kept x0 s) :
    Kept x0 (applyResult a r s) := by
  unfold applyResult
  try dsimp only
  repeat' (first
      | with_reducible exact hk
      | with_reducible refine keep_State_setStation _ _ ?_
      | with_reducible refine keep_pushEnd _ _ _ _ _ ?_
      | with_reducible refine keep_setStoreWord _ _ _ ?_
      | with_reducible refine keep_setStoreLine _ _ _ ?_
      | split)

theorem keep_applyClk {x0 : State} (a : ℕ) (v1 : List (ℕ × ℕ)) (v2 : List PendingResult) {v3 : State} (hk : Kept x0 v3) :
    Kept x0 (applyClk a v1 v2 v3) := by
  induction v2 generalizing a v1 v3 with
  | nil =>
    unfold applyClk
    try dsimp only
    repeat' (first | with_reducible exact hk)
  | cons _ _ ih =>
    unfold applyClk
    try dsimp only
    repeat' (first
        | with_reducible exact hk
        | with_reducible apply ih
        | with_reducible refine keep_missResult _ _ ?_
        | with_reducible refine keep_applyResult _ _ ?_
        | with_reducible refine keep_violateClk _ _ _ _ ?_
        | with_reducible refine keep_ite ?_ ?_)

theorem keep_applyDue {x0 : State} (a : ℕ) (sel : ResultKind → Bool) {s : State} (hk : Kept x0 s) :
    Kept x0 (applyDue a sel s) := by
  unfold applyDue
  try dsimp only
  repeat' (first
      | with_reducible exact hk
      | with_reducible assumption
      | with_reducible refine keep_State_setStation _ _ ?_
      | with_reducible refine keep_applyClk _ _ _ ?_
      | with_reducible refine keep_ite ?_ ?_
      | with_reducible refine keep_each ?_ ?_
      | intro _)

theorem keep_applyWrites {x0 : State} (a : ℕ) {s : State} (hk : Kept x0 s) :
    Kept x0 (applyWrites a s) := by
  unfold applyWrites
  try dsimp only
  repeat' (first | with_reducible exact hk | with_reducible refine keep_applyDue _ _ ?_)

theorem keep_applyResults {x0 : State} (a : ℕ) {s : State} (hk : Kept x0 s) :
    Kept x0 (applyResults a s) := by
  unfold applyResults
  try dsimp only
  repeat' (first | with_reducible exact hk | with_reducible refine keep_applyDue _ _ ?_)

theorem keep_popAll {x0 : State} (a : ℕ) (t : ℕ) (cs : List ℕ) {s : State} (hk : Kept x0 s) :
    Kept x0 (popAll a t cs s) := by
  unfold popAll
  try dsimp only
  repeat' (first
      | with_reducible exact hk
      | with_reducible assumption
      | with_reducible refine keep_popEnd _ _ _ ?_
      | with_reducible refine keep_each ?_ ?_
      | intro _)

theorem keep_putScalar {x0 : State} (a : ℕ) (d : ℕ) (due : ℕ) (t : ℕ) (place : ℕ) (v : Word) {s : State} (hk : Kept x0 s) :
    Kept x0 (putScalar a d due t place v s) := by
  unfold putScalar
  try dsimp only
  repeat' (first | with_reducible exact hk | with_reducible refine keep_addResult _ _ ?_ | with_reducible refine keep_ite ?_ ?_)

theorem keep_putLine {x0 : State} (a : ℕ) (d : ℕ) (due : ℕ) (t : ℕ) (place : ℕ) (l : Line) {s : State} (hk : Kept x0 s) :
    Kept x0 (putLine a d due t place l s) := by
  unfold putLine
  try dsimp only
  repeat' (first
      | with_reducible exact hk
      | with_reducible refine keep_addResult _ _ ?_
      | with_reducible refine keep_putScalar _ _ _ _ _ _ ?_
      | with_reducible refine keep_ite ?_ ?_)

theorem keep_putPush {x0 : State} (a : ℕ) (d : ℕ) (due : ℕ) (t : ℕ) (place : ℕ) (l : Line) {s : State} (hk : Kept x0 s) :
    Kept x0 (putPush a d due t place l s) := by
  unfold putPush
  try dsimp only
  repeat' (first | with_reducible exact hk | with_reducible refine keep_addResult _ _ ?_)

theorem keep_takeRead {x0 : State} (a : ℕ) (cs : List ℕ) {s : State} (hk : Kept x0 s) :
    Kept x0 (takeRead a cs s) := by
  unfold takeRead
  try dsimp only
  repeat' (first | with_reducible exact hk | with_reducible refine keep_State_setStation _ _ ?_)

theorem keep_loseTime {x0 : State} (code : ℕ) {s : State} (hk : Kept x0 s) :
    Kept x0 (loseTime code s) := by
  unfold loseTime
  try dsimp only
  repeat' (first
      | with_reducible exact hk
      | with_reducible refine keep_State_setTime _ ?_
      | with_reducible refine keep_quenchDue _ _ ?_
      | with_reducible refine keep_failExit _ _ ?_
      | with_reducible refine keep_dropStart ?_
      | with_reducible refine keep_ite ?_ ?_)

theorem keep_loseSource {x0 : State} {s : State} (hk : Kept x0 s) :
    Kept x0 (loseSource s) := by
  unfold loseSource
  try dsimp only
  repeat' (first | with_reducible exact hk | with_reducible refine keep_State_setTime _ ?_ | split)

theorem keep_lockNow {x0 : State} {s : State} (hk : Kept x0 s) :
    Kept x0 (lockNow s) := by
  unfold lockNow
  try dsimp only
  repeat' (first | with_reducible exact hk | with_reducible refine keep_State_setTime _ ?_)

theorem keep_returnOffset {x0 : State} (ps : ℤ) {s : State} (hk : Kept x0 s) :
    Kept x0 (returnOffset ps s) := by
  unfold returnOffset
  try dsimp only
  repeat' (first
      | with_reducible exact hk
      | with_reducible refine keep_State_setTime _ ?_
      | with_reducible refine keep_lockNow ?_
      | with_reducible refine keep_loseTime _ ?_
      | with_reducible refine keep_ite ?_ ?_)

theorem keep_slewTick {x0 : State} {s : State} (hk : Kept x0 s) :
    Kept x0 (slewTick s) := by
  unfold slewTick
  try dsimp only
  repeat' (first | with_reducible exact hk | with_reducible refine keep_lockNow ?_ | with_reducible refine keep_ite ?_ ?_ | split)

theorem keep_acquireOffset {x0 : State} (ps : ℤ) {s : State} (hk : Kept x0 s) :
    Kept x0 (acquireOffset ps s) := by
  unfold acquireOffset
  try dsimp only
  repeat' (first
      | with_reducible exact hk
      | with_reducible refine keep_State_setTime _ ?_
      | with_reducible refine keep_enterPhase _ ?_
      | with_reducible refine keep_ite ?_ ?_)

theorem keep_timeInject {x0 : State} {s : State} (hk : Kept x0 s) :
    Kept x0 (timeInject s).2.2 := by
  unfold timeInject
  try dsimp only
  repeat' (first | with_reducible exact hk | with_reducible refine keep_State_setInj _ ?_ | split)

theorem keep_noteOffset {x0 : State} {s : State} (hk : Kept x0 s) :
    Kept x0 (noteOffset s) := by
  unfold noteOffset
  try dsimp only
  repeat' (first | with_reducible exact hk | with_reducible refine keep_State_setPwr _ ?_)

theorem keep_takeOffset {x0 : State} (ps : ℤ) (source : ℕ) {s : State} (hk : Kept x0 s) :
    Kept x0 (takeOffset ps source s) := by
  unfold takeOffset
  try dsimp only
  repeat' (first
      | with_reducible exact hk
      | with_reducible refine keep_acquireOffset _ ?_
      | with_reducible refine keep_State_setTime _ ?_
      | with_reducible refine keep_noteOffset ?_
      | with_reducible refine keep_returnOffset _ ?_
      | with_reducible refine keep_ite ?_ ?_
      | split)

theorem keep_ptpDiscard {x0 : State} (p : ℕ) {s : State} (hk : Kept x0 s) :
    Kept x0 (ptpDiscard p s) := by
  unfold ptpDiscard
  try dsimp only
  repeat' (first | with_reducible exact hk | with_reducible refine keep_State_setPort _ _ ?_)

theorem keep_execSync {x0 : State} (port : PortNo) (origin : ℕ) (head : PtpHead) (twoStep : Bool) {s : State} (hk : Kept x0 s) :
    KeptOut x0 (execSync port origin head twoStep s) := by
  unfold execSync
  try dsimp only
  repeat' (first
      | with_reducible exact hk
      | with_reducible refine keep_ptpDiscard _ ?_
      | with_reducible refine keep_timeInject ?_
      | with_reducible refine keep_State_setTime _ ?_
      | with_reducible refine keep_takeOffset _ _ ?_
      | with_reducible refine keep_next ?_
      | split)

theorem keep_execDelayResp {x0 : State} (port : PortNo) (rxTime : ℕ) (head : PtpHead) {s : State} (hk : Kept x0 s) :
    KeptOut x0 (execDelayResp port rxTime head s) := by
  unfold execDelayResp
  try dsimp only
  repeat' (first
      | with_reducible exact hk
      | with_reducible refine keep_ptpDiscard _ ?_
      | with_reducible refine keep_State_setTime _ ?_
      | with_reducible refine keep_ite ?_ ?_
      | with_reducible refine keep_next ?_
      | split)

theorem keep_chooseSlave {x0 : State} {s : State} (hk : Kept x0 s) :
    Kept x0 (chooseSlave s) := by
  unfold chooseSlave
  try dsimp only
  repeat' (first | with_reducible exact hk | with_reducible refine keep_State_setTime _ ?_)

theorem keep_noteAnnounce {x0 : State} (p : ℕ) (a : AnnounceData) {s : State} (hk : Kept x0 s) :
    Kept x0 (noteAnnounce p a s) := by
  unfold noteAnnounce
  try dsimp only
  repeat' (first | with_reducible exact hk | with_reducible refine keep_State_setTime _ ?_)

theorem keep_execAnnounce {x0 : State} (port : PortNo) (a : AnnounceData) {s : State} (hk : Kept x0 s) :
    KeptOut x0 (execAnnounce port a s) := by
  unfold execAnnounce
  try dsimp only
  repeat' (first
      | with_reducible exact hk
      | with_reducible refine keep_ptpDiscard _ ?_
      | with_reducible refine keep_timeInject ?_
      | with_reducible refine keep_chooseSlave ?_
      | with_reducible refine keep_noteAnnounce _ _ ?_
      | with_reducible refine keep_next ?_
      | split)

theorem keep_execSyncLoss {x0 : State} {s : State} (hk : Kept x0 s) :
    KeptOut x0 (execSyncLoss s) := by
  unfold execSyncLoss
  try dsimp only
  repeat' (first
      | with_reducible exact hk
      | with_reducible refine keep_loseSource ?_
      | with_reducible refine keep_ite ?_ ?_
      | with_reducible refine keep_next ?_)

theorem keep_execAnnounceReceiptTimeout {x0 : State} {s : State} (hk : Kept x0 s) :
    KeptOut x0 (execAnnounceReceiptTimeout s) := by
  unfold execAnnounceReceiptTimeout
  try dsimp only
  repeat' (first
      | with_reducible exact hk
      | with_reducible refine keep_loseSource ?_
      | with_reducible refine keep_chooseSlave ?_
      | with_reducible refine keep_State_setTime _ ?_
      | with_reducible refine keep_ite ?_ ?_
      | with_reducible refine keep_next ?_
      | split)

theorem keep_badEdge {x0 : State} {s : State} (hk : Kept x0 s) :
    Kept x0 (badEdge s) := by
  unfold badEdge
  try dsimp only
  repeat' (first
      | with_reducible exact hk
      | with_reducible refine keep_State_setTime _ ?_
      | with_reducible refine keep_loseSource ?_
      | with_reducible refine keep_ite ?_ ?_)

theorem keep_execPpsEdge {x0 : State} (errPs : ℤ) {s : State} (hk : Kept x0 s) :
    KeptOut x0 (execPpsEdge errPs s) := by
  unfold execPpsEdge
  try dsimp only
  repeat' (first
      | with_reducible exact hk
      | with_reducible refine keep_State_setTime _ ?_
      | with_reducible refine keep_timeInject ?_
      | with_reducible refine keep_badEdge ?_
      | with_reducible refine keep_takeOffset _ _ ?_
      | with_reducible refine keep_ite ?_ ?_
      | with_reducible refine keep_next ?_
      | split)

theorem keep_execPpsMissing {x0 : State} {s : State} (hk : Kept x0 s) :
    KeptOut x0 (execPpsMissing s) := by
  unfold execPpsMissing
  try dsimp only
  repeat' (first
      | with_reducible exact hk
      | with_reducible refine keep_badEdge ?_
      | with_reducible refine keep_ite ?_ ?_
      | with_reducible refine keep_next ?_)

theorem keep_execHoldoverLimit {x0 : State} {s : State} (hk : Kept x0 s) :
    KeptOut x0 (execHoldoverLimit s) := by
  unfold execHoldoverLimit
  try dsimp only
  repeat' (first
      | with_reducible exact hk
      | with_reducible refine keep_State_setJob _ ?_
      | with_reducible refine keep_quenchDue _ _ ?_
      | with_reducible refine keep_loseTime _ ?_
      | with_reducible refine keep_ite ?_ ?_
      | with_reducible refine keep_next ?_)

theorem keep_execHoldOk {x0 : State} {s : State} (hk : Kept x0 s) :
    KeptOut x0 (execHoldOk s) := by
  unfold execHoldOk
  try dsimp only
  repeat' (first
      | with_reducible exact hk
      | with_reducible refine keep_State_setTime _ ?_
      | with_reducible refine keep_ite ?_ ?_
      | with_reducible refine keep_next ?_)

theorem keep_execTimeOutMark {x0 : State} {s : State} (hk : Kept x0 s) :
    KeptOut x0 (execTimeOutMark s) := by
  unfold execTimeOutMark
  try dsimp only
  repeat' (first
      | with_reducible exact hk
      | with_reducible refine keep_State_setPwr _ ?_
      | with_reducible refine keep_ite ?_ ?_
      | with_reducible refine keep_next ?_)

theorem keep_execTimeOutMarkEnd {x0 : State} {s : State} (hk : Kept x0 s) :
    KeptOut x0 (execTimeOutMarkEnd s) := by
  unfold execTimeOutMarkEnd
  try dsimp only
  repeat' (first
      | with_reducible exact hk
      | with_reducible refine keep_State_setPwr _ ?_
      | with_reducible refine keep_ite ?_ ?_
      | with_reducible refine keep_next ?_)

theorem keep_queuePtp {x0 : State} (kind : ℕ) (p : ℕ) (body : List Byte) {s : State} (hk : Kept x0 s) :
    Kept x0 (queuePtp kind p body s) := by
  unfold queuePtp
  try dsimp only
  repeat' (first
      | with_reducible exact hk
      | with_reducible refine keep_State_setPort _ _ ?_
      | with_reducible refine keep_State_setTime _ ?_)

theorem keep_execSyncInterval {x0 : State} (port : PortNo) {s : State} (hk : Kept x0 s) :
    KeptOut x0 (execSyncInterval port s) := by
  unfold execSyncInterval
  try dsimp only
  repeat' (first
      | with_reducible exact hk
      | with_reducible refine keep_queuePtp _ _ _ ?_
      | with_reducible refine keep_ite ?_ ?_
      | with_reducible refine keep_next ?_)

theorem keep_execDelayReqInterval {x0 : State} {s : State} (hk : Kept x0 s) :
    KeptOut x0 (execDelayReqInterval s) := by
  unfold execDelayReqInterval
  try dsimp only
  repeat' (first
      | with_reducible exact hk
      | with_reducible refine keep_queuePtp _ _ _ ?_
      | with_reducible refine keep_ite ?_ ?_
      | with_reducible refine keep_next ?_
      | split)

theorem keep_execDelayReq {x0 : State} (port : PortNo) (requester : ℕ) (head : PtpHead) {s : State} (hk : Kept x0 s) :
    KeptOut x0 (execDelayReq port requester head s) := by
  unfold execDelayReq
  try dsimp only
  repeat' (first
      | with_reducible exact hk
      | with_reducible refine keep_ptpDiscard _ ?_
      | with_reducible refine keep_queuePtp _ _ _ ?_
      | with_reducible refine keep_ite ?_ ?_
      | with_reducible refine keep_next ?_)

theorem keep_execAnnounceInterval {x0 : State} {s : State} (hk : Kept x0 s) :
    KeptOut x0 (execAnnounceInterval s) := by
  unfold execAnnounceInterval
  try dsimp only
  repeat' (first
      | with_reducible exact hk
      | with_reducible assumption
      | with_reducible refine keep_queuePtp _ _ _ ?_
      | with_reducible refine keep_each ?_ ?_
      | with_reducible refine keep_next ?_
      | intro _)

theorem keep_bumpPort {x0 : State} (p : ℕ) (i : ℕ) (k : ℕ) {s : State} (hk : Kept x0 s) :
    Kept x0 (bumpPort p i k s) := by
  unfold bumpPort
  try dsimp only
  repeat' (first | with_reducible exact hk | with_reducible refine keep_State_setPort _ _ ?_)

theorem keep_settleVc {x0 : State} (p : ℕ) (vc : ℕ) {s : State} (hk : Kept x0 s) :
    Kept x0 (settleVc p vc s) := by
  unfold settleVc
  try dsimp only
  repeat' (first | with_reducible exact hk | with_reducible refine keep_State_setPort _ _ ?_ | with_reducible refine keep_ite ?_ ?_)

theorem keep_settlePort {x0 : State} (p : ℕ) {s : State} (hk : Kept x0 s) :
    Kept x0 (settlePort p s) := by
  unfold settlePort
  try dsimp only
  repeat' (first
      | with_reducible exact hk
      | with_reducible assumption
      | with_reducible refine keep_settleVc _ _ ?_
      | with_reducible refine keep_each ?_ ?_
      | intro _)

theorem keep_settleAll {x0 : State} {s : State} (hk : Kept x0 s) :
    Kept x0 (settleAll s) := by
  unfold settleAll
  try dsimp only
  repeat' (first
      | with_reducible exact hk
      | with_reducible assumption
      | with_reducible refine keep_settlePort _ ?_
      | with_reducible refine keep_each ?_ ?_
      | intro _)

theorem keep_chargePool {x0 : State} (f : ℕ) (add : ℕ) (sub : ℕ) {s : State} (hk : Kept x0 s) :
    Kept x0 (chargePool f add sub s) := by
  unfold chargePool
  try dsimp only
  repeat' (first | with_reducible exact hk | with_reducible refine keep_State_setFab _ ?_)

theorem keep_charge {x0 : State} (o : Requester) (cells : ℕ) {s : State} (hk : Kept x0 s) :
    Kept x0 (charge o cells s) := by
  unfold charge
  try dsimp only
  repeat' (first
      | with_reducible exact hk
      | with_reducible refine keep_State_setPort _ _ ?_
      | with_reducible refine keep_chargePool _ _ _ ?_
      | with_reducible refine keep_State_setStation _ _ ?_
      | with_reducible refine keep_State_setFab _ ?_
      | with_reducible refine keep_ite ?_ ?_
      | split)

theorem keep_release {x0 : State} (o : Requester) (cells : ℕ) {s : State} (hk : Kept x0 s) :
    Kept x0 (release o cells s) := by
  unfold release
  try dsimp only
  repeat' (first
      | with_reducible exact hk
      | with_reducible refine keep_State_setPort _ _ ?_
      | with_reducible refine keep_settleAll ?_
      | with_reducible refine keep_chargePool _ _ _ ?_
      | with_reducible refine keep_State_setStation _ _ ?_
      | with_reducible refine keep_State_setFab _ ?_
      | with_reducible refine keep_ite ?_ ?_
      | split)

theorem keep_crossTo {x0 : State} (out : ℕ) (q : QPkt) {s : State} (hk : Kept x0 s) :
    Kept x0 (crossTo out q s) := by
  unfold crossTo
  try dsimp only
  repeat' (first | with_reducible exact hk | with_reducible refine keep_State_setFab _ ?_)

theorem keep_sendThrough {x0 : State} (bay : ℕ) (out : ℕ) (q : QPkt) {s : State} (hk : Kept x0 s) :
    Kept x0 (sendThrough bay out q s) := by
  unfold sendThrough
  try dsimp only
  repeat' (first | with_reducible exact hk | with_reducible refine keep_crossTo _ _ ?_)

theorem keep_choosePath {x0 : State} (h : BitVec 256) (bay : ℕ) (pin : Bool) (g : ℕ) (gsize : ℕ) {s : State} (hk : Kept x0 s) :
    Kept x0 (choosePath s h bay pin g gsize).2.2 := by
  unfold choosePath
  try dsimp only
  repeat' (first | with_reducible exact hk | with_reducible refine keep_State_setFab _ ?_ | split)

theorem keep_reloadUnits {x0 : State} (ks : List ℕ) {s : State} (hk : Kept x0 s) :
    Kept x0 (reloadUnits ks s) := by
  unfold reloadUnits
  try dsimp only
  repeat' (first
      | with_reducible exact hk
      | with_reducible refine keep_State_setPar _ ?_
      | with_reducible exact id
      | with_reducible exact FuseKept.refl _
      | with_reducible refine keep_mk ?_ ?_ ?_)

theorem keep_parityFault {x0 : State} (k : ℕ) {s : State} (hk : Kept x0 s) :
    Kept x0 (parityFault k s) := by
  unfold parityFault
  try dsimp only
  repeat' (first
      | with_reducible exact hk
      | with_reducible refine keep_State_setPar _ ?_
      | with_reducible refine keep_mark _ _ _ ?_
      | with_reducible refine keep_quenchDue _ _ ?_
      | with_reducible refine keep_reloadUnits _ ?_
      | with_reducible refine keep_ite ?_ ?_)

theorem keep_useWord {x0 : State} (k : ℕ) {s : State} (hk : Kept x0 s) :
    Kept x0 (useWord k s).2 := by
  unfold useWord
  try dsimp only
  repeat' (first
      | with_reducible exact hk
      | with_reducible refine keep_parityFault _ ?_
      | with_reducible refine keep_State_setInj _ ?_
      | split)

theorem keep_routeOf {x0 : State} (h : BitVec 256) (inPort : Option ℕ) (bay : ℕ) {s : State} (hk : Kept x0 s) :
    Kept x0 (routeOf h inPort bay s).2 := by
  unfold routeOf
  try dsimp only
  repeat' (first
      | with_reducible exact hk
      | with_reducible refine keep_useWord _ ?_
      | with_reducible refine keep_choosePath _ _ _ _ _ ?_
      | split)

theorem keep_takeBlocks {x0 : State} (key : ℕ) (v1 : ℕ) {v2 : State} (hk : Kept x0 v2) :
    Kept x0 (takeBlocks key v1 v2) := by
  induction v1 generalizing key v2 with
  | zero =>
    unfold takeBlocks
    try dsimp only
    repeat' (first | with_reducible exact hk)
  | succ _ ih =>
    unfold takeBlocks
    try dsimp only
    repeat' (first | with_reducible exact hk | with_reducible apply ih | with_reducible refine keep_State_setFab _ ?_ | split)

theorem keep_poolPush {x0 : State} (key : ℕ) (cells : ℕ) {s : State} (hk : Kept x0 s) :
    Kept x0 (poolPush key cells s) := by
  unfold poolPush
  try dsimp only
  repeat' (first | with_reducible exact hk | with_reducible refine keep_takeBlocks _ _ ?_ | with_reducible refine keep_State_setFab _ ?_)

theorem keep_poolPop {x0 : State} (key : ℕ) (cells : ℕ) {s : State} (hk : Kept x0 s) :
    Kept x0 (poolPop key cells s) := by
  unfold poolPop
  try dsimp only
  repeat' (first | with_reducible exact hk | with_reducible refine keep_State_setFab _ ?_)

theorem keep_leaveQueue {x0 : State} (key : ℕ) (q : QPkt) {s : State} (hk : Kept x0 s) :
    Kept x0 (leaveQueue key q s) := by
  unfold leaveQueue
  try dsimp only
  repeat' (first | with_reducible exact hk | with_reducible refine keep_State_setFab _ ?_)

theorem keep_noteDepth {x0 : State} (p : ℕ) (c : ℕ) {s : State} (hk : Kept x0 s) :
    Kept x0 (noteDepth p c s) := by
  unfold noteDepth
  try dsimp only
  repeat' (first | with_reducible exact hk | with_reducible refine keep_State_setPort _ _ ?_)

theorem keep_enqueueEgress {x0 : State} (p : ℕ) (q : QPkt) {s : State} (hk : Kept x0 s) :
    Kept x0 (enqueueEgress p q s) := by
  unfold enqueueEgress
  try dsimp only
  repeat' (first
      | with_reducible exact hk
      | with_reducible refine keep_noteDepth _ _ ?_
      | with_reducible refine keep_poolPush _ _ ?_
      | with_reducible refine keep_State_setPort _ _ ?_)

theorem keep_placeUnicast {x0 : State} (q : QPkt) (p : ℕ) {s : State} (hk : Kept x0 s) :
    Kept x0 (placeUnicast q p s) := by
  unfold placeUnicast
  try dsimp only
  repeat' (first | with_reducible exact hk | with_reducible refine keep_sendThrough _ _ _ ?_)

theorem keep_placeLocal {x0 : State} (q : QPkt) (goal : Goal) (a : ℕ) {s : State} (hk : Kept x0 s) :
    Kept x0 (placeLocal q goal a s) := by
  unfold placeLocal
  try dsimp only
  repeat' (first | with_reducible exact hk | with_reducible refine keep_sendThrough _ _ _ ?_)

theorem keep_tapCopy {x0 : State} (k : ℕ) (src : ℕ) (pkt : Packet) {s : State} (hk : Kept x0 s) :
    Kept x0 (tapCopy k src pkt s) := by
  unfold tapCopy
  try dsimp only
  repeat' (first
      | with_reducible exact hk
      | with_reducible refine keep_bumpPort _ _ _ ?_
      | with_reducible refine keep_charge _ _ ?_
      | with_reducible refine keep_State_setFab _ ?_
      | with_reducible refine keep_placeUnicast _ _ ?_
      | with_reducible refine keep_ite ?_ ?_)

theorem keep_routePacket {x0 : State} (q : QPkt) {s : State} (hk : Kept x0 s) :
    Kept x0 (routePacket q s).2 := by
  unfold routePacket
  try dsimp only
  repeat' (first
      | with_reducible exact hk
      | with_reducible refine keep_routeOf _ _ _ ?_
      | with_reducible refine keep_tapCopy _ _ _ ?_
      | with_reducible refine keep_State_setFab _ ?_
      | with_reducible refine keep_poolPush _ _ ?_
      | with_reducible refine keep_placeUnicast _ _ ?_
      | with_reducible refine keep_ite ?_ ?_
      | with_reducible refine keep_snd (by assumption) ?_
      | split)

theorem keep_localCompletion {x0 : State} (a : ℕ) (status : ℕ) (detail : ℕ) {s : State} (hk : Kept x0 s) :
    Kept x0 (localCompletion a status detail s) := by
  unfold localCompletion
  try dsimp only
  repeat' (first
      | with_reducible exact hk
      | with_reducible refine keep_sendSignal _ _ _ _ ?_
      | with_reducible refine keep_State_setStation _ _ ?_
      | with_reducible refine keep_ite ?_ ?_)

theorem keep_countNeg {x0 : State} (inPort : Option PortNo) (status : ℕ) {s : State} (hk : Kept x0 s) :
    Kept x0 (countNeg inPort status s) := by
  unfold countNeg
  try dsimp only
  repeat' (first | with_reducible exact hk | with_reducible refine keep_bumpPort _ _ _ ?_ | with_reducible refine keep_ite ?_ ?_ | split)

theorem keep_countUnanswered {x0 : State} (inPort : Option PortNo) {s : State} (hk : Kept x0 s) :
    Kept x0 (countUnanswered inPort s) := by
  unfold countUnanswered
  try dsimp only
  repeat' (first | with_reducible exact hk | with_reducible refine keep_bumpPort _ _ _ ?_ | split)

theorem keep_answer {x0 : State} (h : BitVec 256) (inPort : Option PortNo) (src : ℕ) (owner : Requester) (cells : ℕ) (status : ℕ) (detail : ℕ) {s : State} (hk : Kept x0 s) :
    Kept x0 (answer h inPort src owner cells status detail s) := by
  unfold answer
  try dsimp only
  repeat' (first
      | with_reducible exact hk
      | with_reducible refine keep_countNeg _ _ ?_
      | with_reducible refine keep_release _ _ ?_
      | with_reducible refine keep_localCompletion _ _ _ ?_
      | with_reducible refine keep_routePacket _ ?_
      | with_reducible refine keep_countUnanswered _ ?_
      | with_reducible refine keep_ite ?_ ?_
      | with_reducible refine keep_snd (by assumption) ?_
      | split)

theorem keep_refusePacket {x0 : State} (q : QPkt) (status : ℕ) (detail : ℕ) {s : State} (hk : Kept x0 s) :
    Kept x0 (refusePacket q status detail s) := by
  unfold refusePacket
  try dsimp only
  repeat' (first
      | with_reducible exact hk
      | with_reducible refine keep_countUnanswered _ ?_
      | with_reducible refine keep_release _ _ ?_
      | with_reducible refine keep_answer _ _ _ _ _ _ _ ?_
      | with_reducible refine keep_ite ?_ ?_)

theorem keep_forwardPacket {x0 : State} (q : QPkt) {s : State} (hk : Kept x0 s) :
    Kept x0 (forwardPacket q s) := by
  unfold forwardPacket
  try dsimp only
  repeat' (first
      | with_reducible exact hk
      | with_reducible refine keep_routePacket _ ?_
      | with_reducible refine keep_bumpPort _ _ _ ?_
      | with_reducible refine keep_refusePacket _ _ _ ?_
      | with_reducible refine keep_snd (by assumption) ?_
      | split)

theorem keep_pushCapture {x0 : State} (die : ℕ) (rec_ : List Byte) {s : State} (hk : Kept x0 s) :
    Kept x0 (pushCapture die rec_ s) := by
  unfold pushCapture
  try dsimp only
  repeat' (first | with_reducible exact hk | with_reducible refine keep_State_setCap _ ?_ | with_reducible refine keep_ite ?_ ?_)

theorem keep_pushMark {x0 : State} (rec_ : List Byte) {s : State} (hk : Kept x0 s) :
    Kept x0 (pushMark rec_ s) := by
  unfold pushMark
  try dsimp only
  repeat' (first | with_reducible exact hk | with_reducible refine keep_pushCapture _ _ ?_ | with_reducible refine keep_ite ?_ ?_)

theorem keep_capturePacket {x0 : State} (p : ℕ) (pkt : Packet) (failed : Bool) {s : State} (hk : Kept x0 s) :
    Kept x0 (capturePacket p pkt failed s) := by
  unfold capturePacket
  try dsimp only
  repeat' (first | with_reducible exact hk | with_reducible refine keep_pushCapture _ _ ?_ | with_reducible refine keep_ite ?_ ?_)

end Sys2Proof.Machine
end

