-- ==== Sys2Proof/Laws/KeptLinks.lean ====
section
/-!
SUPPORT. What every operation keeps (`Kept`): Crucibles, links, received packets and egress.
-/

namespace Sys2Proof.Machine

theorem keep_setInst {x0 : State} (c : ℕ) (i : ℕ) (f : OpenInst → OpenInst) {s : State} (hk : Kept x0 s) :
    Kept x0 (setInst c i f s) := by
  unfold setInst
  try dsimp only
  repeat' (first | with_reducible exact hk | with_reducible refine keep_State_setCrucible _ _ ?_)

theorem keep_takeLine {x0 : State} (c : ℕ) (i : ℕ) (key : ℕ) (l : Line) (m : LineMeta) {s : State} (hk : Kept x0 s) :
    Kept x0 (takeLine c i key l m s) := by
  unfold takeLine
  try dsimp only
  repeat' (first | with_reducible exact hk | with_reducible refine keep_setInst _ _ _ ?_)

theorem keep_memberCompletion {x0 : State} (c : ℕ) (g : ℕ) (x : Contribution) (status : ℕ) (detail : ℕ) {s : State} (hk : Kept x0 s) :
    Kept x0 (memberCompletion c g x status detail s) := by
  unfold memberCompletion
  try dsimp only
  repeat' (first
      | with_reducible exact hk
      | with_reducible refine keep_answer _ _ _ _ _ _ _ ?_
      | with_reducible refine keep_localCompletion _ _ _ ?_
      | split)

theorem keep_countLate {x0 : State} (c : ℕ) (i : ℕ) (r : ℕ) {s : State} (hk : Kept x0 s) :
    Kept x0 (countLate c i r s) := by
  unfold countLate
  try dsimp only
  repeat' (first
      | with_reducible exact hk
      | with_reducible refine keep_setInst _ _ _ ?_
      | with_reducible refine keep_State_setCrucible _ _ ?_)

theorem keep_sendLate {x0 : State} (c : ℕ) (i : ℕ) (x : Contribution) {s : State} (hk : Kept x0 s) :
    Kept x0 (sendLate c i x s) := by
  unfold sendLate
  try dsimp only
  repeat' (first
      | with_reducible exact hk
      | with_reducible refine keep_memberCompletion _ _ _ _ _ ?_
      | with_reducible refine keep_countLate _ _ _ ?_)

theorem keep_beginTile {x0 : State} (c : ℕ) (i : ℕ) (key : ℕ) (r : ℕ) (qend : ℕ) (bad : Bool) (m : LineMeta) (side : BitVec 24) {s : State} (hk : Kept x0 s) :
    Kept x0 (beginTile c i key r qend bad m side s) := by
  unfold beginTile
  try dsimp only
  repeat' (first
      | with_reducible exact hk
      | with_reducible refine keep_setInst _ _ _ ?_
      | with_reducible refine keep_sendLate _ _ _ ?_
      | with_reducible refine keep_ite ?_ ?_
      | split)

theorem keep_crOpen {x0 : State} (a : ℕ) (w : Word) {s : State} (hk : Kept x0 s) :
    KeptE x0 (crOpen a w s) := by
  unfold crOpen
  try dsimp only
  repeat' (first
      | with_reducible exact hk
      | with_reducible refine keep_State_setCrucible _ _ ?_
      | with_reducible exact keep_err
      | with_reducible refine keep_okE ?_
      | split)

theorem keep_crClose {x0 : State} (a : ℕ) (w : Word) {s : State} (hk : Kept x0 s) :
    KeptE x0 (crClose a w s) := by
  unfold crClose
  try dsimp only
  repeat' (first
      | with_reducible exact hk
      | with_reducible refine keep_setInst _ _ _ ?_
      | with_reducible exact keep_err
      | with_reducible refine keep_okE ?_
      | split)

theorem keep_crEmit {x0 : State} (a : ℕ) (w : Word) (place : ℕ) {s : State} (hk : Kept x0 s) :
    KeptE x0 (crEmit a w place s) := by
  unfold crEmit
  try dsimp only
  repeat' (first
      | with_reducible exact hk
      | with_reducible assumption
      | with_reducible refine keep_putPush _ _ _ _ _ _ ?_
      | with_reducible refine keep_each ?_ ?_
      | with_reducible exact keep_err
      | with_reducible refine keep_okE ?_
      | split
      | intro _)

theorem keep_crFeed {x0 : State} (a : ℕ) (w : Word) (place : ℕ) {s : State} (hk : Kept x0 s) :
    KeptE x0 (crFeed a w place s) := by
  unfold crFeed
  try dsimp only
  repeat' (first
      | with_reducible exact hk
      | with_reducible refine keep_State_setStation _ _ ?_
      | with_reducible exact keep_err
      | with_reducible refine keep_okE ?_
      | split)

theorem keep_moveAbsence {x0 : State} (m : ℕ) (arrived : Bool) {s : State} (hk : Kept x0 s) :
    Kept x0 (moveAbsence m arrived s) := by
  unfold moveAbsence
  try dsimp only
  repeat' (first | with_reducible exact hk | with_reducible refine keep_State_setMember _ _ ?_)

theorem keep_retractInst {x0 : State} (c : ℕ) (i : ℕ) (causeLedger : ℕ) (causeLast : ℕ) (rank : ℕ) {s : State} (hk : Kept x0 s) :
    Kept x0 (retractInst c i causeLedger causeLast rank s) := by
  unfold retractInst
  try dsimp only
  repeat' (first | with_reducible exact hk | with_reducible refine keep_State_setCrucible _ _ ?_ | with_reducible refine keep_mark _ _ _ ?_)

theorem keep_memberMismatch {x0 : State} (c : ℕ) (i : ℕ) (rank : ℕ) (r : ℕ) (o : OpenInst) {s : State} (hk : Kept x0 s) :
    Kept x0 (memberMismatch c i rank r o s) := by
  unfold memberMismatch
  try dsimp only
  repeat' (first
      | with_reducible exact hk
      | with_reducible refine keep_memberCompletion _ _ _ _ _ ?_
      | with_reducible refine keep_localCompletion _ _ _ ?_
      | with_reducible refine keep_answer _ _ _ _ _ _ _ ?_
      | with_reducible refine keep_ite ?_ ?_
      | split)

theorem keep_memberLate {x0 : State} (c : ℕ) (i : ℕ) (r : ℕ) {s : State} (hk : Kept x0 s) :
    Kept x0 (memberLate c i r s) := by
  unfold memberLate
  try dsimp only
  repeat' (first
      | with_reducible exact hk
      | with_reducible refine keep_sendLate _ _ _ ?_
      | with_reducible refine keep_answer _ _ _ _ _ _ _ ?_
      | with_reducible refine keep_countLate _ _ _ ?_
      | with_reducible refine keep_ite ?_ ?_
      | split)

theorem keep_lateArrival {x0 : State} (p : ℕ) (h : BitVec 256) {s : State} (hk : Kept x0 s) :
    Kept x0 (lateArrival p h s) := by
  unfold lateArrival
  try dsimp only
  repeat' (first
      | with_reducible exact hk
      | with_reducible assumption
      | with_reducible refine keep_memberLate _ _ _ ?_
      | with_reducible refine keep_ite ?_ ?_
      | with_reducible refine keep_each ?_ ?_
      | split
      | intro _)

theorem keep_sendCapacity {x0 : State} (c : ℕ) (g : ℕ) (i : ℕ) (o : OpenInst) {s : State} (hk : Kept x0 s) :
    Kept x0 (sendCapacity c g i o s) := by
  unfold sendCapacity
  try dsimp only
  repeat' (first
      | with_reducible exact hk
      | with_reducible assumption
      | with_reducible refine keep_memberCompletion _ _ _ _ _ ?_
      | with_reducible refine keep_each ?_ ?_
      | split
      | intro _)

theorem keep_settleCount {x0 : State} (c : ℕ) (i : ℕ) {s : State} (hk : Kept x0 s) :
    Kept x0 (settleCount c i s) := by
  unfold settleCount
  try dsimp only
  repeat' (first
      | with_reducible exact hk
      | with_reducible refine keep_sendCapacity _ _ _ _ ?_
      | with_reducible refine keep_retractInst _ _ _ _ _ ?_
      | with_reducible refine keep_setInst _ _ _ ?_
      | with_reducible refine keep_ite ?_ ?_
      | split)

theorem keep_decideInst {x0 : State} (c : ℕ) (i : ℕ) (o : OpenInst) {s : State} (hk : Kept x0 s) :
    Kept x0 (decideInst c i o s) := by
  unfold decideInst
  try dsimp only
  repeat' (first
      | with_reducible exact hk
      | with_reducible assumption
      | with_reducible refine keep_setInst _ _ _ ?_
      | with_reducible refine keep_moveAbsence _ _ ?_
      | with_reducible refine keep_memberLate _ _ _ ?_
      | with_reducible refine keep_memberMismatch _ _ _ _ _ ?_
      | with_reducible refine keep_retractInst _ _ _ _ _ ?_
      | with_reducible refine keep_State_setCrucible _ _ ?_
      | with_reducible refine keep_settleCount _ _ ?_
      | with_reducible refine keep_each ?_ ?_
      | with_reducible exact id
      | split
      | intro _)

theorem keep_deadlineDecision {x0 : State} (i : ℕ) {s : State} (hk : Kept x0 s) :
    Kept x0 (deadlineDecision i s) := by
  unfold deadlineDecision
  try dsimp only
  repeat' (first | with_reducible exact hk | with_reducible refine keep_decideInst _ _ _ ?_ | with_reducible refine keep_ite ?_ ?_ | split)

theorem keep_addWork {x0 : State} (c : ℕ) (g : ℕ) {s : State} (hk : Kept x0 s) :
    Kept x0 (addWork c g s) := by
  unfold addWork
  try dsimp only
  repeat' (first | with_reducible exact hk | with_reducible refine keep_State_setCrucible _ _ ?_)

theorem keep_feedStep {x0 : State} (a : ℕ) (op : EngineOp) (k : ℕ) {s : State} (hk : Kept x0 s) :
    Kept x0 (feedStep a op k s) := by
  unfold feedStep
  try dsimp only
  repeat' (first
      | with_reducible exact hk
      | with_reducible refine keep_beginTile _ _ _ _ _ _ _ _ ?_
      | with_reducible refine keep_settleCount _ _ ?_
      | with_reducible refine keep_takeLine _ _ _ _ _ ?_
      | with_reducible refine keep_addWork _ _ ?_
      | with_reducible refine keep_ite ?_ ?_
      | split)

theorem keep_takeContribLine {x0 : State} (c : ℕ) (e : ℕ) {s : State} (hk : Kept x0 s) :
    Kept x0 (takeContribLine c e s) := by
  unfold takeContribLine
  try dsimp only
  repeat' (first
      | with_reducible exact hk
      | with_reducible refine keep_addWork _ _ ?_
      | with_reducible refine keep_popEnd _ _ _ ?_
      | with_reducible refine keep_beginTile _ _ _ _ _ _ _ _ ?_
      | with_reducible refine keep_settleCount _ _ ?_
      | with_reducible refine keep_takeLine _ _ _ _ _ ?_
      | with_reducible refine keep_ite ?_ ?_
      | split)

theorem keep_dropRemoved {x0 : State} (port : ℕ) (h : BitVec 256) {s : State} (hk : Kept x0 s) :
    KeptOp x0 (dropRemoved port h s) := by
  unfold dropRemoved
  try dsimp only
  repeat' (first
      | with_reducible exact hk
      | with_reducible refine keep_State_setMember _ _ ?_
      | with_reducible exact keep_none
      | with_reducible refine keep_some ?_
      | split)

theorem keep_keepSpared {x0 : State} {s : State} (hk : Kept x0 s) :
    Kept x0 (keepSpared s) := by
  unfold keepSpared
  try dsimp only
  repeat' (first
      | with_reducible exact hk
      | with_reducible assumption
      | with_reducible refine keep_State_setMember _ _ ?_
      | with_reducible refine keep_each ?_ ?_
      | intro _)

theorem keep_removeMembers {x0 : State} (down : List ℕ) {s : State} (hk : Kept x0 s) :
    Kept x0 (removeMembers down s) := by
  unfold removeMembers
  try dsimp only
  repeat' (first
      | with_reducible exact hk
      | with_reducible assumption
      | with_reducible refine keep_State_setMember _ _ ?_
      | with_reducible refine keep_State_setLedger _ ?_
      | with_reducible refine keep_keepSpared ?_
      | with_reducible refine keep_each ?_ ?_
      | intro _)

theorem keep_sendCw {x0 : State} (p : ℕ) (ctype : ℕ) (seq : ℕ) {s : State} (hk : Kept x0 s) :
    Kept x0 (sendCw p ctype seq s) := by
  unfold sendCw
  try dsimp only
  repeat' (first | with_reducible exact hk | with_reducible refine keep_State_setPort _ _ ?_ | with_reducible apply keep_emit)

theorem keep_sendTrain {x0 : State} (p : ℕ) (step : ℕ) (data : ℕ) {s : State} (hk : Kept x0 s) :
    Kept x0 (sendTrain p step data s) := by
  unfold sendTrain
  try dsimp only
  repeat' (first | with_reducible exact hk | with_reducible apply keep_emit)

theorem keep_answerReplay {x0 : State} (p : ℕ) (q : List Packet) {s : State} (hk : Kept x0 s) :
    Kept x0 (answerReplay p q s) := by
  unfold answerReplay
  try dsimp only
  repeat' (first
      | with_reducible exact hk
      | with_reducible assumption
      | with_reducible refine keep_refusePacket _ _ _ ?_
      | with_reducible refine keep_each ?_ ?_
      | intro _)

theorem keep_mapPackets {x0 : State} (f : Packet → Packet) {s : State} (hk : Kept x0 s) :
    Kept x0 (mapPackets f s) := by
  unfold mapPackets
  try dsimp only
  repeat' (first
      | with_reducible exact hk
      | with_reducible exact id
      | with_reducible exact FuseKept.refl _
      | with_reducible refine keep_mk ?_ ?_ ?_)

theorem keep_sendRest {x0 : State} (p : ℕ) (c : CutCopy) (k : Packet) {s : State} (hk : Kept x0 s) :
    Kept x0 (sendRest p c k s) := by
  unfold sendRest
  try dsimp only
  repeat' (first | with_reducible exact hk | with_reducible apply keep_emit | with_reducible refine keep_ite ?_ ?_)

theorem keep_endCut {x0 : State} (p : ℕ) (ident : ℕ) (payload : List Byte) (stomped : Bool) {s : State} (hk : Kept x0 s) :
    Kept x0 (endCut p ident payload stomped s) := by
  unfold endCut
  try dsimp only
  repeat' (first
      | with_reducible exact hk
      | with_reducible refine keep_sendRest _ _ _ ?_
      | with_reducible refine keep_State_setPort _ _ ?_
      | with_reducible refine keep_ite ?_ ?_
      | split)

theorem keep_finishCopies {x0 : State} (ident : ℕ) (payload : List Byte) (stomped : Bool) {s : State} (hk : Kept x0 s) :
    Kept x0 (finishCopies ident payload stomped s) := by
  unfold finishCopies
  try dsimp only
  repeat' (first
      | with_reducible exact hk
      | with_reducible assumption
      | with_reducible refine keep_mapPackets _ ?_
      | with_reducible refine keep_endCut _ _ _ _ ?_
      | with_reducible refine keep_each ?_ ?_
      | intro _)

theorem keep_dropStamp {x0 : State} (ident : ℕ) {s : State} (hk : Kept x0 s) :
    Kept x0 (dropStamp ident s) := by
  unfold dropStamp
  try dsimp only
  repeat' (first | with_reducible exact hk | with_reducible refine keep_State_setFab _ ?_)

theorem keep_markEarly {x0 : State} (r : RxPacket) {s : State} (hk : Kept x0 s) :
    Kept x0 (markEarly r s) := by
  unfold markEarly
  try dsimp only
  repeat' (first | with_reducible exact hk | with_reducible refine keep_mark _ _ _ ?_ | with_reducible refine keep_ite ?_ ?_)

theorem keep_dropRx {x0 : State} (p : ℕ) {s : State} (hk : Kept x0 s) :
    Kept x0 (dropRx p s) := by
  unfold dropRx
  try dsimp only
  repeat' (first
      | with_reducible exact hk
      | with_reducible refine keep_markEarly _ ?_
      | with_reducible refine keep_dropStamp _ ?_
      | with_reducible refine keep_State_setPort _ _ ?_
      | with_reducible refine keep_finishCopies _ _ _ ?_
      | with_reducible refine keep_ite ?_ ?_
      | split)

theorem keep_goDown {x0 : State} (p : ℕ) (reason : ℕ) {s : State} (hk : Kept x0 s) :
    Kept x0 (goDown p reason s) := by
  unfold goDown
  try dsimp only
  repeat' (first
      | with_reducible exact hk
      | with_reducible refine keep_dropRx _ ?_
      | with_reducible refine keep_State_setPort _ _ ?_
      | with_reducible refine keep_answerReplay _ _ ?_
      | with_reducible refine keep_poolPop _ _ ?_)

theorem keep_enterRetrain {x0 : State} (p : ℕ) (reason : ℕ) {s : State} (hk : Kept x0 s) :
    Kept x0 (enterRetrain p reason s) := by
  unfold enterRetrain
  try dsimp only
  repeat' (first
      | with_reducible exact hk
      | with_reducible refine keep_dropRx _ ?_
      | with_reducible refine keep_State_setPort _ _ ?_
      | with_reducible refine keep_bumpPort _ _ _ ?_
      | with_reducible refine keep_State_setPwr _ ?_
      | with_reducible refine keep_linkDown _ ?_
      | with_reducible refine keep_ite ?_ ?_)

theorem keep_trainFail {x0 : State} (p : ℕ) (reason : ℕ) {s : State} (hk : Kept x0 s) :
    Kept x0 (trainFail p reason s) := by
  unfold trainFail
  try dsimp only
  repeat' (first
      | with_reducible exact hk
      | with_reducible refine keep_State_setPort _ _ ?_
      | with_reducible refine keep_goDown _ _ ?_
      | with_reducible refine keep_ite ?_ ?_)

theorem keep_startTraining {x0 : State} (p : ℕ) {s : State} (hk : Kept x0 s) :
    Kept x0 (startTraining p s) := by
  unfold startTraining
  try dsimp only
  repeat' (first | with_reducible exact hk | with_reducible refine keep_State_setPort _ _ ?_)

theorem keep_afterStep {x0 : State} (p : ℕ) (n : ℕ) (f : State → State) {s : State} (kf : ∀ t, Kept x0 t → Kept x0 (f  t)) (hk : Kept x0 s) :
    Kept x0 (afterStep p n f s) := by
  unfold afterStep
  try dsimp only
  repeat' (first | with_reducible exact hk | refine kf _ ?_ | with_reducible refine keep_ite ?_ ?_)

theorem keep_execLightDetected {x0 : State} (port : PortNo) {s : State} (hk : Kept x0 s) :
    KeptOut x0 (execLightDetected port s) := by
  unfold execLightDetected
  try dsimp only
  repeat' (first
      | with_reducible exact hk
      | with_reducible assumption
      | with_reducible refine keep_afterStep _ _ _ ?_ ?_
      | with_reducible refine keep_State_setPort _ _ ?_
      | with_reducible refine keep_next ?_
      | intro _)

theorem keep_execEqualizeDone {x0 : State} (port : PortNo) {s : State} (hk : Kept x0 s) :
    KeptOut x0 (execEqualizeDone port s) := by
  unfold execEqualizeDone
  try dsimp only
  repeat' (first
      | with_reducible exact hk
      | with_reducible assumption
      | with_reducible refine keep_afterStep _ _ _ ?_ ?_
      | with_reducible refine keep_State_setPort _ _ ?_
      | with_reducible refine keep_next ?_
      | intro _)

theorem keep_execAlignDone {x0 : State} (port : PortNo) (skewNs : ℕ) {s : State} (hk : Kept x0 s) :
    KeptOut x0 (execAlignDone port skewNs s) := by
  unfold execAlignDone
  try dsimp only
  repeat' (first
      | with_reducible exact hk
      | with_reducible assumption
      | with_reducible refine keep_afterStep _ _ _ ?_ ?_
      | with_reducible refine keep_State_setPort _ _ ?_
      | with_reducible refine keep_trainFail _ _ ?_
      | with_reducible refine keep_next ?_
      | split
      | intro _)

theorem keep_execFecLock {x0 : State} (port : PortNo) {s : State} (hk : Kept x0 s) :
    KeptOut x0 (execFecLock port s) := by
  unfold execFecLock
  try dsimp only
  repeat' (first
      | with_reducible exact hk
      | with_reducible assumption
      | with_reducible refine keep_afterStep _ _ _ ?_ ?_
      | with_reducible refine keep_State_setPort _ _ ?_
      | with_reducible refine keep_sendTrain _ _ _ ?_
      | with_reducible refine keep_next ?_
      | intro _)

theorem keep_handshakeDone {x0 : State} (p : ℕ) (b : BitVec 3) {s : State} (hk : Kept x0 s) :
    Kept x0 (handshakeDone p b s) := by
  unfold handshakeDone
  try dsimp only
  repeat' (first
      | with_reducible exact hk
      | with_reducible refine keep_State_setPort _ _ ?_
      | with_reducible refine keep_sendTrain _ _ _ ?_
      | with_reducible refine keep_ite ?_ ?_)

theorem keep_nakNow {x0 : State} (p : ℕ) {s : State} (hk : Kept x0 s) :
    Kept x0 (nakNow p s) := by
  unfold nakNow
  try dsimp only
  repeat' (first
      | with_reducible exact hk
      | with_reducible refine keep_bumpPort _ _ _ ?_
      | with_reducible refine keep_sendCw _ _ _ ?_
      | with_reducible refine keep_State_setPort _ _ ?_)

theorem keep_sendNak {x0 : State} (p : ℕ) {s : State} (hk : Kept x0 s) :
    Kept x0 (sendNak p s) := by
  unfold sendNak
  try dsimp only
  repeat' (first
      | with_reducible exact hk
      | with_reducible refine keep_enterRetrain _ _ ?_
      | with_reducible refine keep_State_setPort _ _ ?_
      | with_reducible refine keep_nakNow _ ?_
      | with_reducible refine keep_ite ?_ ?_)

theorem keep_linkError {x0 : State} (p : ℕ) {s : State} (hk : Kept x0 s) :
    Kept x0 (linkError p s) := by
  unfold linkError
  try dsimp only
  repeat' (first
      | with_reducible exact hk
      | with_reducible refine keep_sendNak _ ?_
      | with_reducible refine keep_dropRx _ ?_
      | with_reducible refine keep_ite ?_ ?_)

theorem keep_protocolError {x0 : State} (p : ℕ) {s : State} (hk : Kept x0 s) :
    Kept x0 (protocolError p s) := by
  unfold protocolError
  try dsimp only
  repeat' (first | with_reducible exact hk | with_reducible refine keep_enterRetrain _ _ ?_)

theorem keep_onTrain {x0 : State} (port : PortNo) (cw : BitVec 128) (code : ℕ) (f : State → State) {s : State} (kf : ∀ t, Kept x0 t → Kept x0 (f  t)) (hk : Kept x0 s) :
    KeptOut x0 (onTrain s port cw code f) := by
  unfold onTrain
  try dsimp only
  repeat' (first
      | with_reducible exact hk
      | refine kf _ ?_
      | with_reducible refine keep_protocolError _ ?_
      | with_reducible refine keep_ite ?_ ?_
      | with_reducible refine keep_next ?_)

theorem keep_execWidth {x0 : State} (port : PortNo) (cw : BitVec 128) {s : State} (hk : Kept x0 s) :
    KeptOut x0 (execWidth port cw s) := by
  unfold execWidth
  try dsimp only
  repeat' (first
      | with_reducible exact hk
      | with_reducible assumption
      | with_reducible refine keep_onTrain _ _ _ _ ?_ ?_
      | with_reducible refine keep_afterStep _ _ _ ?_ ?_
      | with_reducible refine keep_handshakeDone _ _ ?_
      | with_reducible refine keep_trainFail _ _ ?_
      | split
      | intro _)

theorem keep_execKey {x0 : State} (port : PortNo) (cw : BitVec 128) {s : State} (hk : Kept x0 s) :
    KeptOut x0 (execKey port cw s) := by
  unfold execKey
  try dsimp only
  repeat' (first
      | with_reducible exact hk
      | with_reducible assumption
      | with_reducible refine keep_onTrain _ _ _ _ ?_ ?_
      | with_reducible refine keep_afterStep _ _ _ ?_ ?_
      | with_reducible refine keep_handshakeDone _ _ ?_
      | with_reducible refine keep_trainFail _ _ ?_
      | split
      | intro _)

theorem keep_execNonce {x0 : State} (port : PortNo) (cw : BitVec 128) (own : Word) {s : State} (hk : Kept x0 s) :
    KeptOut x0 (execNonce port cw own s) := by
  unfold execNonce
  try dsimp only
  repeat' (first
      | with_reducible exact hk
      | with_reducible assumption
      | with_reducible refine keep_onTrain _ _ _ _ ?_ ?_
      | with_reducible refine keep_afterStep _ _ _ ?_ ?_
      | with_reducible refine keep_State_setPort _ _ ?_
      | with_reducible refine keep_handshakeDone _ _ ?_
      | with_reducible refine keep_ite ?_ ?_
      | intro _)

theorem keep_sendCredits {x0 : State} (p : ℕ) {s : State} (hk : Kept x0 s) :
    Kept x0 (sendCredits p s) := by
  unfold sendCredits
  try dsimp only
  repeat' (first
      | with_reducible exact hk
      | with_reducible assumption
      | with_reducible refine keep_State_setPort _ _ ?_
      | with_reducible refine keep_sendTrain _ _ _ ?_
      | with_reducible refine keep_each ?_ ?_
      | intro _)

theorem keep_execEcho {x0 : State} (port : PortNo) (cw : BitVec 128) (netRoundTrip : Option ℕ) {s : State} (hk : Kept x0 s) :
    KeptOut x0 (execEcho port cw netRoundTrip s) := by
  unfold execEcho
  try dsimp only
  repeat' (first
      | with_reducible exact hk
      | with_reducible assumption
      | with_reducible refine keep_onTrain _ _ _ _ ?_ ?_
      | with_reducible apply keep_emit
      | with_reducible refine keep_afterStep _ _ _ ?_ ?_
      | with_reducible refine keep_sendTrain _ _ _ ?_
      | with_reducible refine keep_sendCredits _ ?_
      | with_reducible refine keep_State_setPort _ _ ?_
      | with_reducible refine keep_trainFail _ _ ?_
      | with_reducible exact id
      | split
      | intro _)

theorem keep_execCredit {x0 : State} (port : PortNo) (cw : BitVec 128) {s : State} (hk : Kept x0 s) :
    KeptOut x0 (execCredit port cw s) := by
  unfold execCredit
  try dsimp only
  repeat' (first
      | with_reducible exact hk
      | with_reducible assumption
      | with_reducible refine keep_onTrain _ _ _ _ ?_ ?_
      | with_reducible refine keep_afterStep _ _ _ ?_ ?_
      | with_reducible refine keep_State_setPort _ _ ?_
      | intro _)

theorem keep_portReady {x0 : State} (p : ℕ) {s : State} (hk : Kept x0 s) :
    Kept x0 (portReady p s) := by
  unfold portReady
  try dsimp only
  repeat' (first | with_reducible exact hk | with_reducible refine keep_State_setPort _ _ ?_)

theorem keep_execReady {x0 : State} (port : PortNo) (cw : BitVec 128) {s : State} (hk : Kept x0 s) :
    KeptOut x0 (execReady port cw s) := by
  unfold execReady
  try dsimp only
  repeat' (first
      | with_reducible exact hk
      | with_reducible assumption
      | with_reducible refine keep_onTrain _ _ _ _ ?_ ?_
      | with_reducible refine keep_afterStep _ _ _ ?_ ?_
      | with_reducible refine keep_portReady _ ?_
      | intro _)

theorem keep_execTrainingStepFail {x0 : State} (port : PortNo) {s : State} (hk : Kept x0 s) :
    KeptOut x0 (execTrainingStepFail port s) := by
  unfold execTrainingStepFail
  try dsimp only
  repeat' (first
      | with_reducible exact hk
      | with_reducible refine keep_trainFail _ _ ?_
      | with_reducible refine keep_ite ?_ ?_
      | with_reducible refine keep_next ?_)

theorem keep_execLossOfLight {x0 : State} (port : PortNo) {s : State} (hk : Kept x0 s) :
    KeptOut x0 (execLossOfLight port s) := by
  unfold execLossOfLight
  try dsimp only
  repeat' (first
      | with_reducible exact hk
      | with_reducible refine keep_enterRetrain _ _ ?_
      | with_reducible refine keep_ite ?_ ?_
      | with_reducible refine keep_next ?_)

theorem keep_execUncorrectableLimit {x0 : State} (port : PortNo) (codewords : Codewords) {s : State} (hk : Kept x0 s) :
    KeptOut x0 (execUncorrectableLimit port codewords s) := by
  unfold execUncorrectableLimit
  try dsimp only
  repeat' (first
      | with_reducible exact hk
      | with_reducible refine keep_bumpPort _ _ _ ?_
      | with_reducible refine keep_enterRetrain _ _ ?_
      | with_reducible refine keep_linkError _ ?_
      | with_reducible refine keep_ite ?_ ?_
      | with_reducible refine keep_next ?_)

theorem keep_execRetrainTimeout {x0 : State} (port : PortNo) {s : State} (hk : Kept x0 s) :
    KeptOut x0 (execRetrainTimeout port s) := by
  unfold execRetrainTimeout
  try dsimp only
  repeat' (first
      | with_reducible exact hk
      | with_reducible refine keep_goDown _ _ ?_
      | with_reducible refine keep_ite ?_ ?_
      | with_reducible refine keep_next ?_)

theorem keep_execDownRetry {x0 : State} (port : PortNo) {s : State} (hk : Kept x0 s) :
    KeptOut x0 (execDownRetry port s) := by
  unfold execDownRetry
  try dsimp only
  repeat' (first
      | with_reducible exact hk
      | with_reducible refine keep_startTraining _ ?_
      | with_reducible refine keep_ite ?_ ?_
      | with_reducible refine keep_next ?_)

theorem keep_takeCredits {x0 : State} (p : ℕ) (cw : BitVec 128) {s : State} (hk : Kept x0 s) :
    Kept x0 (takeCredits p cw s) := by
  unfold takeCredits
  try dsimp only
  repeat' (first
      | with_reducible exact hk
      | with_reducible refine keep_protocolError _ ?_
      | with_reducible refine keep_State_setPort _ _ ?_
      | with_reducible refine keep_ite ?_ ?_)

theorem keep_onCw {x0 : State} (port : PortNo) (cw : BitVec 128) (ctype : ℕ) (always : Bool) (f : State → State) {s : State} (kf : ∀ t, Kept x0 t → Kept x0 (f  t)) (hk : Kept x0 s) :
    KeptOut x0 (onCw s port cw ctype always f) := by
  unfold onCw
  try dsimp only
  repeat' (first
      | with_reducible exact hk
      | refine kf _ ?_
      | with_reducible refine keep_linkError _ ?_
      | with_reducible refine keep_takeCredits _ _ ?_
      | with_reducible refine keep_ite ?_ ?_
      | with_reducible refine keep_next ?_)

theorem keep_takeAck {x0 : State} (p : ℕ) (seq : ℕ) {s : State} (hk : Kept x0 s) :
    Kept x0 (takeAck p seq s) := by
  unfold takeAck
  try dsimp only
  repeat' (first
      | with_reducible exact hk
      | with_reducible assumption
      | with_reducible refine keep_State_setPort _ _ ?_
      | with_reducible refine keep_leaveQueue _ _ ?_
      | with_reducible refine keep_ite ?_ ?_
      | with_reducible refine keep_each ?_ ?_
      | intro _)

theorem keep_execAck {x0 : State} (port : PortNo) (cw : BitVec 128) {s : State} (hk : Kept x0 s) :
    KeptOut x0 (execAck port cw s) := by
  unfold execAck
  try dsimp only
  repeat' (first
      | with_reducible exact hk
      | with_reducible assumption
      | with_reducible refine keep_onCw _ _ _ _ _ ?_ ?_
      | with_reducible refine keep_takeAck _ _ ?_
      | intro _)

theorem keep_takeNak {x0 : State} (p : ℕ) (seq : ℕ) {s : State} (hk : Kept x0 s) :
    Kept x0 (takeNak p seq s) := by
  unfold takeNak
  try dsimp only
  repeat' (first
      | with_reducible exact hk
      | with_reducible refine keep_bumpPort _ _ _ ?_
      | with_reducible refine keep_State_setPort _ _ ?_
      | with_reducible refine keep_ite ?_ ?_
      | split)

theorem keep_execNak {x0 : State} (port : PortNo) (cw : BitVec 128) {s : State} (hk : Kept x0 s) :
    KeptOut x0 (execNak port cw s) := by
  unfold execNak
  try dsimp only
  repeat' (first
      | with_reducible exact hk
      | with_reducible assumption
      | with_reducible refine keep_onCw _ _ _ _ _ ?_ ?_
      | with_reducible refine keep_takeNak _ _ ?_
      | intro _)

theorem keep_execReplay {x0 : State} (port : PortNo) (cw : BitVec 128) {s : State} (hk : Kept x0 s) :
    KeptOut x0 (execReplay port cw s) := by
  unfold execReplay
  try dsimp only
  repeat' (first
      | with_reducible exact hk
      | with_reducible assumption
      | with_reducible refine keep_onCw _ _ _ _ _ ?_ ?_
      | with_reducible refine keep_State_setPort _ _ ?_
      | with_reducible refine keep_next ?_
      | split
      | intro _)

theorem keep_execCwClear {x0 : State} (port : PortNo) (cw : BitVec 128) {s : State} (hk : Kept x0 s) :
    KeptOut x0 (execCwClear port cw s) := by
  unfold execCwClear
  try dsimp only
  repeat' (first
      | with_reducible exact hk
      | with_reducible assumption
      | with_reducible refine keep_onCw _ _ _ _ _ ?_ ?_
      | with_reducible refine keep_State_setPort _ _ ?_
      | intro _)

theorem keep_execEscape {x0 : State} (port : PortNo) (cw : BitVec 128) {s : State} (hk : Kept x0 s) :
    KeptOut x0 (execEscape port cw s) := by
  unfold execEscape
  try dsimp only
  repeat' (first
      | with_reducible exact hk
      | with_reducible assumption
      | with_reducible refine keep_onCw _ _ _ _ _ ?_ ?_
      | with_reducible refine keep_State_setPort _ _ ?_
      | intro _)

theorem keep_execReservedCtype {x0 : State} (port : PortNo) (cw : BitVec 128) {s : State} (hk : Kept x0 s) :
    KeptOut x0 (execReservedCtype port cw s) := by
  unfold execReservedCtype
  try dsimp only
  repeat' (first
      | with_reducible exact hk
      | with_reducible refine keep_protocolError _ ?_
      | with_reducible refine keep_ite ?_ ?_
      | with_reducible refine keep_next ?_)

theorem keep_execNakResend {x0 : State} (port : PortNo) {s : State} (hk : Kept x0 s) :
    KeptOut x0 (execNakResend port s) := by
  unfold execNakResend
  try dsimp only
  repeat' (first
      | with_reducible exact hk
      | with_reducible refine keep_sendNak _ ?_
      | with_reducible refine keep_ite ?_ ?_
      | with_reducible refine keep_next ?_)

theorem keep_execAckTimeout {x0 : State} (port : PortNo) {s : State} (hk : Kept x0 s) :
    KeptOut x0 (execAckTimeout port s) := by
  unfold execAckTimeout
  try dsimp only
  repeat' (first
      | with_reducible exact hk
      | with_reducible refine keep_enterRetrain _ _ ?_
      | with_reducible refine keep_ite ?_ ?_
      | with_reducible refine keep_next ?_)

theorem keep_police {x0 : State} (p : ℕ) (h : BitVec 256) {s : State} (hk : Kept x0 s) :
    Kept x0 (police p h s).2 := by
  unfold police
  try dsimp only
  repeat' (first
      | with_reducible exact hk
      | with_reducible refine keep_useWord _ ?_
      | with_reducible refine keep_State_setPolicer _ _ ?_
      | split)

theorem keep_toIngress {x0 : State} (p : ℕ) (k : Packet) (due : ℕ → ℕ) {s : State} (hk : Kept x0 s) :
    Kept x0 (toIngress p k due s) := by
  unfold toIngress
  try dsimp only
  repeat' (first | with_reducible exact hk | with_reducible refine keep_State_setFab _ ?_)

theorem keep_uncharge {x0 : State} (o : Requester) (cells : ℕ) {s : State} (hk : Kept x0 s) :
    Kept x0 (uncharge o cells s) := by
  unfold uncharge
  try dsimp only
  repeat' (first
      | with_reducible exact hk
      | with_reducible refine keep_State_setPort _ _ ?_
      | with_reducible refine keep_settleAll ?_
      | with_reducible refine keep_chargePool _ _ _ ?_
      | with_reducible refine keep_ite ?_ ?_
      | split)

theorem keep_disown {x0 : State} (ident : ℕ) {s : State} (hk : Kept x0 s) :
    Kept x0 (disown ident s) := by
  unfold disown
  try dsimp only
  repeat' (first
      | with_reducible exact hk
      | with_reducible exact id
      | with_reducible exact FuseKept.refl _
      | with_reducible refine keep_mk ?_ ?_ ?_)

theorem keep_countRx {x0 : State} (p : ℕ) (h : BitVec 256) {s : State} (hk : Kept x0 s) :
    Kept x0 (countRx p h s) := by
  unfold countRx
  try dsimp only
  repeat' (first | with_reducible exact hk | with_reducible refine keep_bumpPort _ _ _ ?_)

theorem keep_discardRx {x0 : State} (q : QPkt) {s : State} (hk : Kept x0 s) :
    Kept x0 (discardRx q s) := by
  unfold discardRx
  try dsimp only
  repeat' (first
      | with_reducible exact hk
      | with_reducible refine keep_release _ _ ?_
      | with_reducible refine keep_charge _ _ ?_
      | with_reducible refine keep_ite ?_ ?_)

theorem keep_takeBack {x0 : State} (p : ℕ) (c : ℕ) (cells : ℕ) {s : State} (hk : Kept x0 s) :
    Kept x0 (takeBack p c cells s) := by
  unfold takeBack
  try dsimp only
  repeat' (first | with_reducible exact hk | with_reducible refine keep_State_setPort _ _ ?_)

theorem keep_drawBucket {x0 : State} (p : ℕ) (c : ℕ) (h : BitVec 256) {s : State} (hk : Kept x0 s) :
    Kept x0 (drawBucket p c h s) := by
  unfold drawBucket
  try dsimp only
  repeat' (first | with_reducible exact hk | with_reducible refine keep_State_setPort _ _ ?_ | with_reducible refine keep_ite ?_ ?_)

theorem keep_injDecide {x0 : State} (p : ℕ) (h : BitVec 256) {s : State} (hk : Kept x0 s) :
    Kept x0 (injDecide p h s).2.2.2 := by
  unfold injDecide
  try dsimp only
  repeat' (first | with_reducible exact hk | with_reducible refine keep_State_setPort _ _ ?_ | split)

theorem keep_escapeFor {x0 : State} (p : ℕ) (line : BitVec 256) {s : State} (hk : Kept x0 s) :
    Kept x0 (escapeFor p line s) := by
  unfold escapeFor
  try dsimp only
  repeat' (first | with_reducible exact hk | with_reducible refine keep_sendCw _ _ _ ?_ | with_reducible refine keep_ite ?_ ?_)

theorem keep_putOnLine {x0 : State} (p : ℕ) (key : Option (BitVec 128)) (n : ℕ) (k : Packet) {s : State} (hk : Kept x0 s) :
    Kept x0 (putOnLine p key n k s) := by
  unfold putOnLine
  try dsimp only
  repeat' (first
      | with_reducible exact hk
      | with_reducible refine keep_escapeFor _ _ ?_
      | with_reducible apply keep_emit
      | with_reducible refine keep_ite ?_ ?_)

theorem keep_putSequenced {x0 : State} (p : ℕ) (k : Packet) {s : State} (hk : Kept x0 s) :
    Kept x0 (putSequenced p k s) := by
  unfold putSequenced
  try dsimp only
  repeat' (first | with_reducible exact hk | with_reducible refine keep_putOnLine _ _ _ _ ?_)

theorem keep_countTx {x0 : State} (p : ℕ) (q : QPkt) {s : State} (hk : Kept x0 s) :
    Kept x0 (countTx p q s) := by
  unfold countTx
  try dsimp only
  repeat' (first | with_reducible exact hk | with_reducible refine keep_bumpPort _ _ _ ?_ | with_reducible refine keep_State_setPort _ _ ?_)

theorem keep_sendSequenced {x0 : State} (p : ℕ) (q : QPkt) (j : Injected) {s : State} (hk : Kept x0 s) :
    Kept x0 (sendSequenced p q j s) := by
  unfold sendSequenced
  try dsimp only
  repeat' (first
      | with_reducible exact hk
      | with_reducible refine keep_State_setPort _ _ ?_
      | with_reducible refine keep_countTx _ _ ?_
      | with_reducible refine keep_poolPush _ _ ?_
      | with_reducible refine keep_putSequenced _ _ ?_
      | split)

theorem keep_sendPtp {x0 : State} (p : ℕ) (k : Packet) (j : Injected) {s : State} (hk : Kept x0 s) :
    Kept x0 (sendPtp p k j s) := by
  unfold sendPtp
  try dsimp only
  repeat' (first
      | with_reducible exact hk
      | with_reducible refine keep_State_setTime _ ?_
      | with_reducible refine keep_State_setPort _ _ ?_
      | with_reducible refine keep_countTx _ _ ?_
      | with_reducible refine keep_putOnLine _ _ _ _ ?_
      | with_reducible refine keep_sendCw _ _ _ ?_
      | with_reducible refine keep_ite ?_ ?_
      | split)

theorem keep_sendNow {x0 : State} (p : ℕ) (q : QPkt) (j : Injected) {s : State} (hk : Kept x0 s) :
    Kept x0 (sendNow p q j s) := by
  unfold sendNow
  try dsimp only
  repeat' (first
      | with_reducible exact hk
      | with_reducible refine keep_sendPtp _ _ _ ?_
      | with_reducible refine keep_sendSequenced _ _ _ ?_
      | with_reducible refine keep_ite ?_ ?_)

theorem keep_tapTx {x0 : State} (p : ℕ) (k : Packet) {s : State} (hk : Kept x0 s) :
    Kept x0 (tapTx p k s) := by
  unfold tapTx
  try dsimp only
  repeat' (first | with_reducible exact hk | with_reducible refine keep_tapCopy _ _ _ ?_ | with_reducible refine keep_ite ?_ ?_)

theorem keep_transmit {x0 : State} (p : ℕ) (q : QPkt) {s : State} (hk : Kept x0 s) :
    Kept x0 (transmit p q s) := by
  unfold transmit
  try dsimp only
  repeat' (first
      | with_reducible exact hk
      | with_reducible refine keep_countReplayDrop ?_
      | with_reducible refine keep_injDecide _ _ ?_
      | with_reducible refine keep_State_setPort _ _ ?_
      | with_reducible refine keep_tapTx _ _ ?_
      | with_reducible refine keep_sendNow _ _ _ ?_
      | with_reducible refine keep_ite ?_ ?_)

theorem keep_sendReplay {x0 : State} (p : ℕ) (n : ℕ) (word : Bool) {s : State} (hk : Kept x0 s) :
    Kept x0 (sendReplay p n word s) := by
  unfold sendReplay
  try dsimp only
  repeat' (first
      | with_reducible exact hk
      | with_reducible refine keep_sendCw _ _ _ ?_
      | with_reducible refine keep_State_setPort _ _ ?_
      | with_reducible refine keep_bumpPort _ _ _ ?_
      | with_reducible refine keep_putSequenced _ _ ?_
      | with_reducible refine keep_ite ?_ ?_
      | split)

theorem keep_fixTag {x0 : State} (p : ℕ) (ahead : Option ℕ) (c : ℕ) {s : State} (hk : Kept x0 s) :
    Kept x0 (fixTag p ahead c s) := by
  unfold fixTag
  try dsimp only
  repeat' (first | with_reducible exact hk | with_reducible refine keep_State_setPort _ _ ?_ | with_reducible refine keep_ite ?_ ?_ | split)

theorem keep_payTag {x0 : State} (p : ℕ) (c : ℕ) (h : BitVec 256) {s : State} (hk : Kept x0 s) :
    Kept x0 (payTag p c h s) := by
  unfold payTag
  try dsimp only
  repeat' (first | with_reducible exact hk | with_reducible refine keep_State_setPort _ _ ?_)

theorem keep_takeHead {x0 : State} (p : ℕ) (c : ℕ) (h : HeadAt × QPkt) {s : State} (hk : Kept x0 s) :
    Kept x0 (takeHead p c h s) := by
  unfold takeHead
  try dsimp only
  repeat' (first
      | with_reducible exact hk
      | with_reducible refine keep_drawBucket _ _ _ ?_
      | with_reducible refine keep_payTag _ _ _ ?_
      | with_reducible refine keep_State_setPort _ _ ?_
      | with_reducible refine keep_transmit _ _ ?_
      | with_reducible refine keep_leaveQueue _ _ ?_
      | with_reducible refine keep_State_setFab _ ?_
      | with_reducible refine keep_ite ?_ ?_
      | split)

theorem keep_fillAck {x0 : State} (p : ℕ) {s : State} (hk : Kept x0 s) :
    Kept x0 (fillAck p s) := by
  unfold fillAck
  try dsimp only
  repeat' (first | with_reducible exact hk | with_reducible refine keep_State_setPort _ _ ?_ | with_reducible refine keep_sendCw _ _ _ ?_)

theorem keep_chooseClass {x0 : State} (p : ℕ) (ahead : Option ℕ) {s : State} (hk : Kept x0 s) :
    Kept x0 (chooseClass p ahead s) := by
  unfold chooseClass
  try dsimp only
  repeat' (first
      | with_reducible exact hk
      | with_reducible refine keep_fixTag _ _ _ ?_
      | with_reducible refine keep_takeHead _ _ _ ?_
      | with_reducible refine keep_fillAck _ ?_
      | with_reducible refine keep_getD ?_ ?_
      | with_reducible refine keep_map ?_
      | with_reducible refine keep_findSome ?_
      | intro _)

theorem keep_sendHeld {x0 : State} (p : ℕ) (c : ℕ) (q : QPkt) {s : State} (hk : Kept x0 s) :
    Kept x0 (sendHeld p c q s) := by
  unfold sendHeld
  try dsimp only
  repeat' (first
      | with_reducible exact hk
      | with_reducible refine keep_sendNow _ _ _ ?_
      | with_reducible refine keep_tapTx _ _ ?_
      | with_reducible refine keep_State_setPort _ _ ?_)

theorem keep_takeScheduled {x0 : State} (p : ℕ) (q : QPkt) {s : State} (hk : Kept x0 s) :
    Kept x0 (takeScheduled p q s).2 := by
  unfold takeScheduled
  try dsimp only
  repeat' (first
      | with_reducible exact hk
      | with_reducible refine keep_State_setPort _ _ ?_
      | with_reducible refine keep_State_setStation _ _ ?_)

theorem keep_dropScheduled {x0 : State} (p : ℕ) {s : State} (hk : Kept x0 s) :
    Kept x0 (dropScheduled p s) := by
  unfold dropScheduled
  try dsimp only
  repeat' (first
      | with_reducible exact hk
      | with_reducible refine keep_takeScheduled _ _ ?_
      | with_reducible refine keep_countReplayDrop ?_
      | with_reducible refine keep_ite ?_ ?_
      | split)

theorem keep_dropQueued {x0 : State} (p : ℕ) {s : State} (hk : Kept x0 s) :
    Kept x0 (dropQueued p s) := by
  unfold dropQueued
  try dsimp only
  repeat' (first
      | with_reducible exact hk
      | with_reducible assumption
      | with_reducible refine keep_countReplayDrop ?_
      | with_reducible refine keep_leaveQueue _ _ ?_
      | with_reducible refine keep_State_setPort _ _ ?_
      | with_reducible refine keep_ite ?_ ?_
      | with_reducible refine keep_each ?_ ?_
      | intro _)

theorem keep_chooseRest {x0 : State} (p : ℕ) (ahead : Option ℕ) {s : State} (hk : Kept x0 s) :
    Kept x0 (chooseRest p ahead s) := by
  unfold chooseRest
  try dsimp only
  repeat' (first
      | with_reducible exact hk
      | with_reducible refine keep_State_setPort _ _ ?_
      | with_reducible refine keep_nakNow _ ?_
      | with_reducible refine keep_fillAck _ ?_
      | with_reducible refine keep_drawBucket _ _ _ ?_
      | with_reducible refine keep_transmit _ _ ?_
      | with_reducible refine keep_sendHeld _ _ _ ?_
      | with_reducible refine keep_chooseClass _ _ ?_
      | with_reducible refine keep_ite ?_ ?_
      | split)

theorem keep_chooseItem {x0 : State} (p : ℕ) (ahead : Option ℕ) {s : State} (hk : Kept x0 s) :
    Kept x0 (chooseItem p ahead s) := by
  unfold chooseItem
  try dsimp only
  repeat' (first
      | with_reducible exact hk
      | with_reducible refine keep_sendReplay _ _ _ ?_
      | with_reducible refine keep_takeScheduled _ _ ?_
      | with_reducible refine keep_transmit _ _ ?_
      | with_reducible refine keep_chooseRest _ _ ?_
      | split)

theorem keep_execEgressSelect {x0 : State} (turn : EgressTurn) {s : State} (hk : Kept x0 s) :
    KeptOut x0 (execEgressSelect turn s) := by
  unfold execEgressSelect
  try dsimp only
  repeat' (first
      | with_reducible exact hk
      | with_reducible refine keep_dropQueued _ ?_
      | with_reducible refine keep_dropScheduled _ ?_
      | with_reducible refine keep_chooseRest _ _ ?_
      | with_reducible refine keep_chooseItem _ _ ?_
      | with_reducible refine keep_ite ?_ ?_
      | with_reducible refine keep_next ?_)

theorem keep_execReorderTimeout {x0 : State} (port : PortNo) {s : State} (hk : Kept x0 s) :
    KeptOut x0 (execReorderTimeout port s) := by
  unfold execReorderTimeout
  try dsimp only
  repeat' (first
      | with_reducible exact hk
      | with_reducible refine keep_sendHeld _ _ _ ?_
      | with_reducible refine keep_ite ?_ ?_
      | with_reducible refine keep_next ?_
      | split)

theorem keep_copyTo {x0 : State} (p : ℕ) (q : QPkt) {s : State} (hk : Kept x0 s) :
    Kept x0 (copyTo p q s) := by
  unfold copyTo
  try dsimp only
  repeat' (first | with_reducible exact hk | with_reducible refine keep_State_setPort _ _ ?_)

theorem keep_departMcast {x0 : State} (b : ℕ) (c : ℕ) (q : QPkt) {s : State} (hk : Kept x0 s) :
    Kept x0 (departMcast b c q s) := by
  unfold departMcast
  try dsimp only
  repeat' (first
      | with_reducible exact hk
      | with_reducible assumption
      | with_reducible refine keep_State_setFab _ ?_
      | with_reducible refine keep_State_setPort _ _ ?_
      | with_reducible refine keep_crossTo _ _ ?_
      | with_reducible refine keep_refusePacket _ _ _ ?_
      | with_reducible refine keep_poolPop _ _ ?_
      | with_reducible refine keep_leaveQueue _ _ ?_
      | with_reducible refine keep_ite ?_ ?_
      | with_reducible refine keep_each ?_ ?_
      | split
      | intro _)

theorem keep_dropMcast {x0 : State} (b : ℕ) (c : ℕ) (q : QPkt) {s : State} (hk : Kept x0 s) :
    Kept x0 (dropMcast b c q s) := by
  unfold dropMcast
  try dsimp only
  repeat' (first
      | with_reducible exact hk
      | with_reducible assumption
      | with_reducible refine keep_State_setFab _ ?_
      | with_reducible refine keep_leaveQueue _ _ ?_
      | with_reducible refine keep_countReplayDrop ?_
      | with_reducible refine keep_State_setPort _ _ ?_
      | with_reducible refine keep_each ?_ ?_
      | intro _)

theorem keep_execMcastHeadDepart {x0 : State} (bay : Fin 16) (cls : Fin 8) {s : State} (hk : Kept x0 s) :
    KeptOut x0 (execMcastHeadDepart bay cls s) := by
  unfold execMcastHeadDepart
  try dsimp only
  repeat' (first
      | with_reducible exact hk
      | with_reducible refine keep_dropMcast _ _ _ ?_
      | with_reducible refine keep_departMcast _ _ _ ?_
      | with_reducible refine keep_ite ?_ ?_
      | with_reducible refine keep_next ?_
      | split)

end Sys2Proof.Machine
end

