-- ==== Sys2Proof/Laws/KeptEngines.lean ====
section
/-!
SUPPORT. What every operation keeps (`Kept`): the engines of the stations and the stacked memory.
-/

namespace Sys2Proof.Machine

theorem keep_startOp {x0 : State} (a : ℕ) (op : EngineOp) {s : State} (hk : Kept x0 s) :
    Kept x0 (startOp a op s) := by
  unfold startOp
  try dsimp only
  repeat' (first | with_reducible exact hk | with_reducible refine keep_State_setStation _ _ ?_)

theorem keep_pushTile {x0 : State} (a : ℕ) (d : ℕ) (t : ℕ) (place : ℕ) (fmt : ℕ) (due : ℕ → ℕ) (ls : List LineData) {s : State} (hk : Kept x0 s) :
    Kept x0 (pushTile a d t place fmt due ls s) := by
  unfold pushTile
  try dsimp only
  repeat' (first
      | with_reducible exact hk
      | with_reducible assumption
      | with_reducible refine keep_putPush _ _ _ _ _ _ ?_
      | with_reducible refine keep_each ?_ ?_
      | intro _)

theorem keep_modOp {x0 : State} (a : ℕ) (t : ℕ) (f : EngineOp → EngineOp) {s : State} (hk : Kept x0 s) :
    Kept x0 (modOp a t f s) := by
  unfold modOp
  try dsimp only
  repeat' (first | with_reducible exact hk | with_reducible refine keep_State_setStation _ _ ?_)

theorem keep_opPop {x0 : State} (a : ℕ) (op : EngineOp) (e : ℕ) (c : ℕ) {s : State} (hk : Kept x0 s) :
    Kept x0 (opPop a op e c s) := by
  unfold opPop
  try dsimp only
  repeat' (first
      | with_reducible exact hk
      | with_reducible refine keep_modOp _ _ _ ?_
      | with_reducible refine keep_popEnd _ _ _ ?_
      | with_reducible refine keep_violateClk _ _ _ _ ?_
      | with_reducible refine keep_ite ?_ ?_)

theorem keep_opSkip {x0 : State} (a : ℕ) (op : EngineOp) {s : State} (hk : Kept x0 s) :
    Kept x0 (opSkip a op s) := by
  unfold opSkip
  try dsimp only
  repeat' (first | with_reducible exact hk | with_reducible refine keep_modOp _ _ _ ?_)

theorem keep_opCancel {x0 : State} (a : ℕ) (code : ℕ) (op : EngineOp) (fin : ℕ) (c : ℕ) {s : State} (hk : Kept x0 s) :
    Kept x0 (opCancel a code op fin c s) := by
  unfold opCancel
  try dsimp only
  repeat' (first
      | with_reducible exact hk
      | with_reducible refine keep_fireSignal _ _ _ _ _ ?_
      | with_reducible refine keep_State_setStation _ _ ?_
      | with_reducible refine keep_violateClk _ _ _ _ ?_)

theorem keep_rdLoad {x0 : State} (a : ℕ) (w : Word) (place : ℕ) {s : State} (hk : Kept x0 s) :
    KeptE x0 (rdLoad a w place s) := by
  unfold rdLoad
  try dsimp only
  repeat' (first
      | with_reducible exact hk
      | with_reducible refine keep_startOp _ _ ?_
      | with_reducible refine keep_takeRead _ _ ?_
      | with_reducible refine keep_State_setRiddle _ _ ?_
      | with_reducible exact keep_err
      | with_reducible refine keep_okE ?_
      | with_reducible refine keep_bind ?_
      | split
      | intro _)

theorem keep_mapStep {x0 : State} (a : ℕ) (op : EngineOp) (n : ℕ) (c : ℕ) {s : State} (hk : Kept x0 s) :
    Kept x0 (mapStep a op n c s) := by
  unfold mapStep
  try dsimp only
  repeat' (first
      | with_reducible exact hk
      | with_reducible refine keep_State_setRiddle _ _ ?_
      | with_reducible refine keep_violateClk _ _ _ _ ?_
      | with_reducible refine keep_modOp _ _ _ ?_
      | with_reducible refine keep_ite ?_ ?_)

theorem keep_rdRun {x0 : State} (a : ℕ) (w : Word) (place : ℕ) {s : State} (hk : Kept x0 s) :
    KeptE x0 (rdRun a w place s) := by
  unfold rdRun
  try dsimp only
  repeat' (first
      | with_reducible exact hk
      | with_reducible refine keep_startOp _ _ ?_
      | with_reducible exact keep_err
      | with_reducible refine keep_okE ?_
      | split)

theorem keep_runStep {x0 : State} (a : ℕ) (op : EngineOp) {s : State} (hk : Kept x0 s) :
    Kept x0 (runStep a op s) := by
  unfold runStep
  try dsimp only
  repeat' (first
      | with_reducible exact hk
      | with_reducible refine keep_State_setRiddle _ _ ?_
      | with_reducible refine keep_putScalar _ _ _ _ _ _ ?_
      | with_reducible refine keep_pushTile _ _ _ _ _ _ _ ?_)

theorem keep_setSlot {x0 : State} (a : ℕ) (k : ℕ) (r : RunSlot) {s : State} (hk : Kept x0 s) :
    Kept x0 (setSlot a k r s) := by
  unfold setSlot
  try dsimp only
  repeat' (first | with_reducible exact hk | with_reducible refine keep_State_setSorter _ _ ?_)

theorem keep_pushRun {x0 : State} (a : ℕ) (d : ℕ) (t : ℕ) (place : ℕ) (long : Bool) (due : ℕ → ℕ) (rs : List Rec) {s : State} (hk : Kept x0 s) :
    Kept x0 (pushRun a d t place long due rs s) := by
  unfold pushRun
  try dsimp only
  repeat' (first
      | with_reducible exact hk
      | with_reducible assumption
      | with_reducible refine keep_putPush _ _ _ _ _ _ ?_
      | with_reducible refine keep_each ?_ ?_
      | intro _)

theorem keep_soRun {x0 : State} (a : ℕ) (w : Word) (place : ℕ) {s : State} (hk : Kept x0 s) :
    KeptE x0 (soRun a w place s) := by
  unfold soRun
  try dsimp only
  repeat' (first
      | with_reducible exact hk
      | with_reducible refine keep_startOp _ _ ?_
      | with_reducible refine keep_setSlot _ _ _ ?_
      | with_reducible exact keep_err
      | with_reducible refine keep_okE ?_
      | split)

theorem keep_soMerge {x0 : State} (a : ℕ) (w : Word) (place : ℕ) {s : State} (hk : Kept x0 s) :
    KeptE x0 (soMerge a w place s) := by
  unfold soMerge
  try dsimp only
  repeat' (first
      | with_reducible exact hk
      | with_reducible refine keep_startOp _ _ ?_
      | with_reducible refine keep_pushRun _ _ _ _ _ _ _ ?_
      | with_reducible refine keep_ite ?_ ?_
      | with_reducible exact keep_err
      | with_reducible refine keep_okE ?_
      | split)

theorem keep_soTopk {x0 : State} (a : ℕ) (w : Word) (place : ℕ) {s : State} (hk : Kept x0 s) :
    KeptE x0 (soTopk a w place s) := by
  unfold soTopk
  try dsimp only
  repeat' (first
      | with_reducible exact hk
      | with_reducible refine keep_startOp _ _ ?_
      | with_reducible exact keep_err
      | with_reducible refine keep_okE ?_
      | split)

theorem keep_soSpill {x0 : State} (a : ℕ) (w : Word) (place : ℕ) {s : State} (hk : Kept x0 s) :
    KeptE x0 (soSpill a w place s) := by
  unfold soSpill
  try dsimp only
  repeat' (first
      | with_reducible exact hk
      | with_reducible refine keep_pushRun _ _ _ _ _ _ _ ?_
      | with_reducible refine keep_startOp _ _ ?_
      | with_reducible exact keep_err
      | with_reducible refine keep_okE ?_
      | split)

theorem keep_sortStep {x0 : State} (a : ℕ) (op : EngineOp) (j : ℕ) {s : State} (hk : Kept x0 s) :
    Kept x0 (sortStep a op j s) := by
  unfold sortStep
  try dsimp only
  repeat' (first
      | with_reducible exact hk
      | with_reducible refine keep_setSlot _ _ _ ?_
      | with_reducible refine keep_pushRun _ _ _ _ _ _ _ ?_
      | with_reducible refine keep_ite ?_ ?_)

theorem keep_loadStep {x0 : State} (a : ℕ) (op : EngineOp) (j : ℕ) {s : State} (hk : Kept x0 s) :
    Kept x0 (loadStep a op j s) := by
  unfold loadStep
  try dsimp only
  repeat' (first
      | with_reducible exact hk
      | with_reducible refine keep_State_setSorter _ _ ?_
      | with_reducible refine keep_setSlot _ _ _ ?_)

theorem keep_mergeStep {x0 : State} (a : ℕ) (op : EngineOp) {s : State} (hk : Kept x0 s) :
    Kept x0 (mergeStep a op s) := by
  unfold mergeStep
  try dsimp only
  repeat' (first | with_reducible exact hk | with_reducible refine keep_setSlot _ _ _ ?_)

theorem keep_topkStep {x0 : State} (a : ℕ) (op : EngineOp) (j : ℕ) {s : State} (hk : Kept x0 s) :
    Kept x0 (topkStep a op j s) := by
  unfold topkStep
  try dsimp only
  repeat' (first
      | with_reducible exact hk
      | with_reducible refine keep_State_setSorter _ _ ?_
      | with_reducible refine keep_pushRun _ _ _ _ _ _ _ ?_
      | with_reducible refine keep_ite ?_ ?_)

theorem keep_spillStep {x0 : State} (a : ℕ) (op : EngineOp) {s : State} (hk : Kept x0 s) :
    Kept x0 (spillStep a op s) := by
  unfold spillStep
  try dsimp only
  repeat' (first | with_reducible exact hk | with_reducible refine keep_setSlot _ _ _ ?_)

theorem keep_laMode {x0 : State} (a : ℕ) (w : Word) (place : ℕ) {s : State} (hk : Kept x0 s) :
    KeptE x0 (laMode a w place s) := by
  unfold laMode
  try dsimp only
  repeat' (first
      | with_reducible exact hk
      | with_reducible refine keep_startOp _ _ ?_
      | with_reducible exact keep_err
      | with_reducible refine keep_okE ?_
      | split)

theorem keep_modeStep {x0 : State} (a : ℕ) (op : EngineOp) {s : State} (hk : Kept x0 s) :
    Kept x0 (modeStep a op s) := by
  unfold modeStep
  try dsimp only
  repeat' (first | with_reducible exact hk | with_reducible refine keep_State_setLadle _ _ ?_)

theorem keep_laMap {x0 : State} (a : ℕ) (w : Word) (place : ℕ) {s : State} (hk : Kept x0 s) :
    KeptE x0 (laMap a w place s) := by
  unfold laMap
  try dsimp only
  repeat' (first
      | with_reducible exact hk
      | with_reducible refine keep_startOp _ _ ?_
      | with_reducible exact keep_err
      | with_reducible refine keep_okE ?_
      | split)

theorem keep_mapWalkStep {x0 : State} (a : ℕ) (op : EngineOp) (j : ℕ) (c : ℕ) {s : State} (hk : Kept x0 s) :
    Kept x0 (mapWalkStep a op j c s) := by
  unfold mapWalkStep
  try dsimp only
  repeat' (first
      | with_reducible exact hk
      | with_reducible refine keep_State_setLadle _ _ ?_
      | with_reducible refine keep_opCancel _ _ _ _ _ ?_
      | with_reducible refine keep_opPop _ _ _ _ ?_
      | with_reducible refine keep_ite ?_ ?_)

theorem keep_laPass {x0 : State} (a : ℕ) (w : Word) (place : ℕ) {s : State} (hk : Kept x0 s) :
    KeptE x0 (laPass a w place s) := by
  unfold laPass
  try dsimp only
  repeat' (first
      | with_reducible exact hk
      | with_reducible refine keep_startOp _ _ ?_
      | with_reducible exact keep_err
      | with_reducible refine keep_okE ?_
      | split)

theorem keep_emitVec {x0 : State} (a : ℕ) (op : EngineOp) (v : ℕ) (c : ℕ) {s : State} (hk : Kept x0 s) :
    Kept x0 (emitVec a op v c s) := by
  unfold emitVec
  try dsimp only
  repeat' (first
      | with_reducible exact hk
      | with_reducible refine keep_State_setLadle _ _ ?_
      | with_reducible refine keep_violateClk _ _ _ _ ?_
      | with_reducible refine keep_ite ?_ ?_
      | split)

theorem keep_passOverlong {x0 : State} (a : ℕ) (op : EngineOp) (q : ℕ) (n : ℕ) (c : ℕ) {s : State} (hk : Kept x0 s) :
    Kept x0 (passOverlong a op q n c s) := by
  unfold passOverlong
  try dsimp only
  repeat' (first
      | with_reducible exact hk
      | with_reducible refine keep_modOp _ _ _ ?_
      | with_reducible refine keep_opPop _ _ _ _ ?_
      | with_reducible refine keep_violateClk _ _ _ _ ?_)

theorem keep_passStep {x0 : State} (a : ℕ) (op : EngineOp) (n : ℕ) (c : ℕ) {s : State} (hk : Kept x0 s) :
    Kept x0 (passStep a op n c s) := by
  unfold passStep
  try dsimp only
  repeat' (first
      | with_reducible exact hk
      | with_reducible refine keep_emitVec _ _ _ _ ?_
      | with_reducible refine keep_opSkip _ _ ?_
      | with_reducible refine keep_opPop _ _ _ _ ?_
      | with_reducible refine keep_passOverlong _ _ _ _ _ ?_
      | with_reducible refine keep_opCancel _ _ _ _ _ ?_
      | with_reducible refine keep_ite ?_ ?_
      | split)

theorem keep_laMerge {x0 : State} (a : ℕ) (w : Word) (place : ℕ) {s : State} (hk : Kept x0 s) :
    KeptE x0 (laMerge a w place s) := by
  unfold laMerge
  try dsimp only
  repeat' (first
      | with_reducible exact hk
      | with_reducible refine keep_startOp _ _ ?_
      | with_reducible exact keep_err
      | with_reducible refine keep_okE ?_
      | split)

theorem keep_mergeOut {x0 : State} (a : ℕ) (op : EngineOp) {s : State} (hk : Kept x0 s) :
    Kept x0 (mergeOut a op s) := by
  unfold mergeOut
  try dsimp only
  repeat' (first
      | with_reducible exact hk
      | with_reducible assumption
      | with_reducible refine keep_State_setLadle _ _ ?_
      | with_reducible refine keep_modOp _ _ _ ?_
      | with_reducible refine keep_putPush _ _ _ _ _ _ ?_
      | with_reducible refine keep_each ?_ ?_
      | split
      | intro _)

theorem keep_mergeWalkStep {x0 : State} (a : ℕ) (op : EngineOp) (q : ℕ) (c : ℕ) {s : State} (hk : Kept x0 s) :
    Kept x0 (mergeWalkStep a op q c s) := by
  unfold mergeWalkStep
  try dsimp only
  repeat' (first
      | with_reducible exact hk
      | with_reducible refine keep_opCancel _ _ _ _ _ ?_
      | with_reducible refine keep_opSkip _ _ ?_
      | with_reducible refine keep_opPop _ _ _ _ ?_
      | with_reducible refine keep_modOp _ _ _ ?_
      | with_reducible refine keep_mergeOut _ _ ?_
      | with_reducible refine keep_ite ?_ ?_
      | split)

theorem keep_laSkim {x0 : State} (a : ℕ) (w : Word) (place : ℕ) {s : State} (hk : Kept x0 s) :
    KeptE x0 (laSkim a w place s) := by
  unfold laSkim
  try dsimp only
  repeat' (first
      | with_reducible exact hk
      | with_reducible refine keep_startOp _ _ ?_
      | with_reducible exact keep_err
      | with_reducible refine keep_okE ?_
      | split)

theorem keep_closeList {x0 : State} (l : ℕ) (m : ℕ) {s : State} (hk : Kept x0 s) :
    Kept x0 (closeList l m s) := by
  unfold closeList
  try dsimp only
  repeat' (first | with_reducible exact hk | with_reducible refine keep_State_setLayer _ _ ?_)

theorem keep_skimStep {x0 : State} (a : ℕ) (op : EngineOp) (j : ℕ) (c : ℕ) {s : State} (hk : Kept x0 s) :
    Kept x0 (skimStep a op j c s) := by
  unfold skimStep
  try dsimp only
  repeat' (first
      | with_reducible exact hk
      | with_reducible refine keep_pushTile _ _ _ _ _ _ _ ?_
      | with_reducible refine keep_closeList _ _ ?_
      | with_reducible refine keep_State_setLadle _ _ ?_
      | with_reducible refine keep_opCancel _ _ _ _ _ ?_
      | with_reducible refine keep_opPop _ _ _ _ ?_
      | with_reducible refine keep_opSkip _ _ ?_
      | with_reducible refine keep_ite ?_ ?_)

theorem keep_setBank {x0 : State} (a : ℕ) (k : ℕ) (f : Bank → Bank) {s : State} (hk : Kept x0 s) :
    Kept x0 (setBank a k f s) := by
  unfold setBank
  try dsimp only
  repeat' (first | with_reducible exact hk | with_reducible refine keep_State_setMould _ _ ?_)

theorem keep_setRow {x0 : State} (a : ℕ) (r : ℕ) (f : AccRow → AccRow) {s : State} (hk : Kept x0 s) :
    Kept x0 (setRow a r f s) := by
  unfold setRow
  try dsimp only
  repeat' (first | with_reducible exact hk | with_reducible refine keep_State_setMould _ _ ?_)

theorem keep_takePath {x0 : State} (a : ℕ) (act : Bool) (c : ℕ) {s : State} (hk : Kept x0 s) :
    Kept x0 (takePath a act c s).2 := by
  unfold takePath
  try dsimp only
  repeat' (first | with_reducible exact hk | with_reducible refine keep_State_setLadle _ _ ?_ | split)

theorem keep_moWload {x0 : State} (a : ℕ) (w : Word) (place : ℕ) {s : State} (hk : Kept x0 s) :
    KeptE x0 (moWload a w place s) := by
  unfold moWload
  try dsimp only
  repeat' (first
      | with_reducible exact hk
      | with_reducible refine keep_startOp _ _ ?_
      | with_reducible refine keep_setBank _ _ _ ?_
      | with_reducible exact keep_err
      | with_reducible refine keep_okE ?_
      | split)

theorem keep_wloadStep {x0 : State} (a : ℕ) (op : EngineOp) (n : ℕ) (c : ℕ) {s : State} (hk : Kept x0 s) :
    Kept x0 (wloadStep a op n c s) := by
  unfold wloadStep
  try dsimp only
  repeat' (first
      | with_reducible exact hk
      | with_reducible refine keep_setBank _ _ _ ?_
      | with_reducible refine keep_takePath _ _ _ ?_
      | with_reducible refine keep_violateClk _ _ _ _ ?_
      | with_reducible refine keep_ite ?_ ?_
      | with_reducible refine keep_snd (by assumption) ?_
      | split)

theorem keep_moMac {x0 : State} (a : ℕ) (w : Word) (place : ℕ) {s : State} (hk : Kept x0 s) :
    KeptE x0 (moMac a w place s) := by
  unfold moMac
  try dsimp only
  repeat' (first
      | with_reducible exact hk
      | with_reducible assumption
      | with_reducible refine keep_startOp _ _ ?_
      | with_reducible refine keep_setRow _ _ _ ?_
      | with_reducible refine keep_each ?_ ?_
      | with_reducible exact keep_err
      | with_reducible refine keep_okE ?_
      | split
      | intro _)

theorem keep_settleAdd {x0 : State} (a : ℕ) (r : ℕ) (due : ℕ) (sums : Option (List (List (BitVec 32)))) {s : State} (hk : Kept x0 s) :
    Kept x0 (settleAdd a r due sums s) := by
  unfold settleAdd
  try dsimp only
  repeat' (first | with_reducible exact hk | with_reducible refine keep_setRow _ _ _ ?_)

theorem keep_multiply {x0 : State} (a : ℕ) (op : EngineOp) (j : ℕ) (b : Bank) (tags : List ℕ) (es : List ℕ) {s : State} (hk : Kept x0 s) :
    Kept x0 (multiply a op j b tags es s) := by
  unfold multiply
  try dsimp only
  repeat' (first
      | with_reducible exact hk
      | with_reducible refine keep_settleAdd _ _ _ _ ?_
      | with_reducible refine keep_State_setMould _ _ ?_)

theorem keep_writeRow {x0 : State} (a : ℕ) (r : ℕ) (due : ℕ) {s : State} (hk : Kept x0 s) :
    Kept x0 (writeRow a r due s) := by
  unfold writeRow
  try dsimp only
  repeat' (first | with_reducible exact hk | with_reducible refine keep_setRow _ _ _ ?_)

theorem keep_macStep {x0 : State} (a : ℕ) (op : EngineOp) (n : ℕ) (c : ℕ) {s : State} (hk : Kept x0 s) :
    Kept x0 (macStep a op n c s) := by
  unfold macStep
  try dsimp only
  repeat' (first
      | with_reducible exact hk
      | with_reducible refine keep_writeRow _ _ _ ?_
      | with_reducible refine keep_settleAdd _ _ _ _ ?_
      | with_reducible refine keep_takePath _ _ _ ?_
      | with_reducible refine keep_violateClk _ _ _ _ ?_
      | with_reducible refine keep_multiply _ _ _ _ _ _ ?_
      | with_reducible refine keep_ite ?_ ?_
      | with_reducible refine keep_snd (by assumption) ?_
      | split)

theorem keep_moDrain {x0 : State} (a : ℕ) (w : Word) (place : ℕ) {s : State} (hk : Kept x0 s) :
    KeptE x0 (moDrain a w place s) := by
  unfold moDrain
  try dsimp only
  repeat' (first
      | with_reducible exact hk
      | with_reducible refine keep_startOp _ _ ?_
      | with_reducible exact keep_err
      | with_reducible refine keep_okE ?_
      | split)

theorem keep_drainStep {x0 : State} (a : ℕ) (op : EngineOp) (j : ℕ) (c : ℕ) {s : State} (hk : Kept x0 s) :
    Kept x0 (drainStep a op j c s) := by
  unfold drainStep
  try dsimp only
  repeat' (first
      | with_reducible exact hk
      | with_reducible assumption
      | with_reducible refine keep_violateClk _ _ _ _ ?_
      | with_reducible refine keep_setRow _ _ _ ?_
      | with_reducible refine keep_putPush _ _ _ _ _ _ ?_
      | with_reducible refine keep_ite ?_ ?_
      | with_reducible refine keep_each ?_ ?_
      | intro _)

theorem keep_addUpsets {x0 : State} (us : List Upset) {s : State} (hk : Kept x0 s) :
    Kept x0 (addUpsets us s) := by
  unfold addUpsets
  try dsimp only
  repeat' (first | with_reducible exact hk | with_reducible refine keep_setMem ?_ ?_ | with_reducible exact id)

theorem keep_stackCtr {x0 : State} (k : ℕ) (i : ℕ) (n : ℕ) (width : ℕ) {s : State} (hk : Kept x0 s) :
    Kept x0 (stackCtr k i n width s) := by
  unfold stackCtr
  try dsimp only
  repeat' (first | with_reducible exact hk | with_reducible refine keep_State_setStack _ _ ?_)

theorem keep_recordErr {x0 : State} (addr : ℕ) (kind : ℕ) (source : ℕ) (detect : Bool) {s : State} (hk : Kept x0 s) :
    Kept x0 (recordErr addr kind source detect s) := by
  unfold recordErr
  try dsimp only
  repeat' (first | with_reducible exact hk | with_reducible refine keep_State_setStack _ _ ?_)

theorem keep_lostFail {x0 : State} (addr : ℕ) (detect : Bool) (sched : Bool) {s : State} (hk : Kept x0 s) :
    Kept x0 (lostFail addr detect sched s) := by
  unfold lostFail
  try dsimp only
  repeat' (first
      | with_reducible exact hk
      | with_reducible refine keep_setMem ?_ ?_
      | with_reducible refine keep_quenchDue _ _ ?_
      | with_reducible refine keep_ite ?_ ?_
      | with_reducible exact id
      | split)

theorem keep_lostClear {x0 : State} (addr : ℕ) {s : State} (hk : Kept x0 s) :
    Kept x0 (lostClear addr s) := by
  unfold lostClear
  try dsimp only
  repeat' (first | with_reducible exact hk | with_reducible refine keep_setMem ?_ ?_ | with_reducible exact id)

theorem keep_injectHbm {x0 : State} (addr : ℕ) {s : State} (hk : Kept x0 s) :
    Kept x0 (injectHbm addr s).2 := by
  unfold injectHbm
  try dsimp only
  repeat' (first | with_reducible exact hk | with_reducible refine keep_State_setInj _ ?_ | split)

theorem keep_takeBusErr {x0 : State} (addr : ℕ) {s : State} (hk : Kept x0 s) :
    Kept x0 (takeBusErr addr s).2 := by
  unfold takeBusErr
  try dsimp only
  repeat' (first | with_reducible exact hk | with_reducible refine keep_setMem ?_ ?_ | with_reducible exact id | split)

theorem keep_failLine {x0 : State} (addr : ℕ) (kind : ℕ) (source : ℕ) (detect : Bool) (sched : Bool) {s : State} (hk : Kept x0 s) :
    Kept x0 (failLine addr kind source detect sched s) := by
  unfold failLine
  try dsimp only
  repeat' (first
      | with_reducible exact hk
      | with_reducible refine keep_lostFail _ _ _ ?_
      | with_reducible refine keep_recordErr _ _ _ _ ?_
      | with_reducible refine keep_stackCtr _ _ _ _ ?_
      | with_reducible refine keep_ite ?_ ?_)

theorem keep_readLine {x0 : State} (addr : ℕ) (source : ℕ) (sched : Bool) {s : State} (hk : Kept x0 s) :
    Kept x0 (readLine addr source sched s).2 := by
  unfold readLine
  try dsimp only
  repeat' (first
      | with_reducible exact hk
      | with_reducible refine keep_quenchDue _ _ ?_
      | with_reducible refine keep_takeBusErr _ ?_
      | with_reducible refine keep_failLine _ _ _ _ _ ?_
      | with_reducible refine keep_injectHbm _ ?_
      | with_reducible refine keep_lostClear _ ?_
      | with_reducible refine keep_stackCtr _ _ _ _ ?_
      | with_reducible refine keep_ite ?_ ?_
      | split)

theorem keep_putLine64 {x0 : State} (addr : ℕ) (bs : List Byte) {s : State} (hk : Kept x0 s) :
    Kept x0 (putLine64 addr bs s) := by
  unfold putLine64
  try dsimp only
  repeat' (first
      | with_reducible exact hk
      | with_reducible refine keep_lostClear _ ?_
      | with_reducible refine keep_setMem ?_ ?_
      | with_reducible exact Memory.wf_cellWrite)

theorem keep_writeLine {x0 : State} (addr : ℕ) (bs : List Byte) (source : ℕ) {s : State} (hk : Kept x0 s) :
    Kept x0 (writeLine addr bs source s) := by
  unfold writeLine
  try dsimp only
  repeat' (first
      | with_reducible exact hk
      | with_reducible refine keep_takeBusErr _ ?_
      | with_reducible refine keep_failLine _ _ _ _ _ ?_
      | with_reducible refine keep_putLine64 _ _ ?_
      | with_reducible refine keep_ite ?_ ?_)

theorem keep_writeChunk {x0 : State} (addr : ℕ) (bs : List Byte) (source : ℕ) {s : State} (hk : Kept x0 s) :
    Kept x0 (writeChunk addr bs source s) := by
  unfold writeChunk
  try dsimp only
  repeat' (first | with_reducible exact hk | with_reducible refine keep_writeLine _ _ _ ?_)

theorem keep_noteAccess {x0 : State} (addr : ℕ) (c : ℕ) (sched : Bool) {s : State} (hk : Kept x0 s) :
    Kept x0 (noteAccess addr c sched s) := by
  unfold noteAccess
  try dsimp only
  repeat' (first | with_reducible exact hk | with_reducible refine keep_setMem ?_ ?_ | with_reducible exact id)

theorem keep_refreshBanks {x0 : State} (k : ℕ) (ch : ℕ) (n : ℕ) {s : State} (hk : Kept x0 s) :
    Kept x0 (refreshBanks k ch n s) := by
  unfold refreshBanks
  try dsimp only
  repeat' (first | with_reducible exact hk | with_reducible refine keep_State_setStack _ _ ?_)

theorem keep_displace {x0 : State} (k : ℕ) (ch : ℕ) {s : State} (hk : Kept x0 s) :
    Kept x0 (displace k ch s) := by
  unfold displace
  try dsimp only
  repeat' (first
      | with_reducible exact hk
      | with_reducible refine keep_stackCtr _ _ _ _ ?_
      | with_reducible refine keep_refreshBanks _ _ _ ?_
      | with_reducible refine keep_State_setStack _ _ ?_
      | with_reducible refine keep_ite ?_ ?_)

theorem keep_claimSlot {x0 : State} (a : ℕ) (place : ℕ) (addr : ℕ) (c : ℕ) {s : State} (hk : Kept x0 s) :
    Kept x0 (claimSlot a place addr c s).2 := by
  unfold claimSlot
  try dsimp only
  repeat' (first
      | with_reducible exact hk
      | with_reducible refine keep_violateClk _ _ _ _ ?_
      | with_reducible refine keep_displace _ _ ?_
      | with_reducible refine keep_noteAccess _ _ _ ?_
      | split)

theorem keep_schedRead {x0 : State} (a : ℕ) (addr : ℕ) {s : State} (hk : Kept x0 s) :
    Kept x0 (schedRead a addr s).2 := by
  unfold schedRead
  try dsimp only
  repeat' (first
      | with_reducible exact hk
      | with_reducible refine keep_readLine _ _ _ ?_
      | with_reducible refine keep_mark _ _ _ ?_
      | with_reducible refine keep_State_setLedger _ ?_
      | split)

theorem keep_mrRd {x0 : State} (a : ℕ) (w : Word) (place : ℕ) {s : State} (hk : Kept x0 s) :
    KeptE x0 (mrRd a w place s) := by
  unfold mrRd
  try dsimp only
  repeat' (first
      | with_reducible exact hk
      | with_reducible refine keep_startOp _ _ ?_
      | with_reducible exact keep_err
      | with_reducible refine keep_okE ?_
      | split)

theorem keep_mrRdStep {x0 : State} (a : ℕ) (op : EngineOp) (j : ℕ) {s : State} (hk : Kept x0 s) :
    Kept x0 (mrRdStep a op j s) := by
  unfold mrRdStep
  try dsimp only
  repeat' (first
      | with_reducible exact hk
      | with_reducible refine keep_claimSlot _ _ _ _ ?_
      | with_reducible refine keep_schedRead _ _ ?_
      | with_reducible refine keep_putPush _ _ _ _ _ _ ?_
      | with_reducible refine keep_ite ?_ ?_)

theorem keep_mrWr {x0 : State} (a : ℕ) (w : Word) (place : ℕ) {s : State} (hk : Kept x0 s) :
    KeptE x0 (mrWr a w place s) := by
  unfold mrWr
  try dsimp only
  repeat' (first
      | with_reducible exact hk
      | with_reducible refine keep_startOp _ _ ?_
      | with_reducible exact keep_err
      | with_reducible refine keep_okE ?_
      | split)

theorem keep_mrWrStep {x0 : State} (a : ℕ) (op : EngineOp) (j : ℕ) {s : State} (hk : Kept x0 s) :
    Kept x0 (mrWrStep a op j s) := by
  unfold mrWrStep
  try dsimp only
  repeat' (first
      | with_reducible exact hk
      | with_reducible refine keep_claimSlot _ _ _ _ ?_
      | with_reducible refine keep_writeChunk _ _ _ ?_
      | with_reducible refine keep_ite ?_ ?_
      | split)

theorem keep_mrGather {x0 : State} (a : ℕ) (w : Word) (place : ℕ) {s : State} (hk : Kept x0 s) :
    KeptE x0 (mrGather a w place s) := by
  unfold mrGather
  try dsimp only
  repeat' (first | with_reducible exact hk | with_reducible refine keep_startOp _ _ ?_ | with_reducible refine keep_okE ?_)

theorem keep_mrGatherStep {x0 : State} (a : ℕ) (op : EngineOp) (u : ℕ) (c : ℕ) {s : State} (hk : Kept x0 s) :
    Kept x0 (mrGatherStep a op u c s) := by
  unfold mrGatherStep
  try dsimp only
  repeat' (first
      | with_reducible exact hk
      | with_reducible assumption
      | with_reducible refine keep_violateClk _ _ _ _ ?_
      | with_reducible refine keep_putPush _ _ _ _ _ _ ?_
      | with_reducible refine keep_claimSlot _ _ _ _ ?_
      | with_reducible refine keep_schedRead _ _ ?_
      | with_reducible refine keep_ite ?_ ?_
      | with_reducible refine keep_each ?_ ?_
      | with_reducible exact id
      | split
      | intro _)

theorem keep_piTake {x0 : State} (a : ℕ) (w : Word) (place : ℕ) {s : State} (hk : Kept x0 s) :
    KeptE x0 (piTake a w place s) := by
  unfold piTake
  try dsimp only
  repeat' (first
      | with_reducible exact hk
      | with_reducible refine keep_startOp _ _ ?_
      | with_reducible exact keep_err
      | with_reducible refine keep_okE ?_
      | split)

theorem keep_piStep {x0 : State} (a : ℕ) (op : EngineOp) (k : ℕ) {s : State} (hk : Kept x0 s) :
    Kept x0 (piStep a op k s) := by
  unfold piStep
  try dsimp only
  repeat' (first | with_reducible exact hk | with_reducible refine keep_putPush _ _ _ _ _ _ ?_ | split)

theorem keep_peSend {x0 : State} (a : ℕ) (w : Word) (place : ℕ) {s : State} (hk : Kept x0 s) :
    KeptE x0 (peSend a w place s) := by
  unfold peSend
  try dsimp only
  repeat' (first
      | with_reducible exact hk
      | with_reducible refine keep_startOp _ _ ?_
      | with_reducible refine keep_State_setPort _ _ ?_
      | with_reducible refine keep_takeRead _ _ ?_
      | with_reducible exact keep_err
      | with_reducible refine keep_okE ?_
      | with_reducible refine keep_bind ?_
      | split
      | intro _)

theorem keep_peStep {x0 : State} (a : ℕ) (op : EngineOp) (k : ℕ) {s : State} (hk : Kept x0 s) :
    Kept x0 (peStep a op k s) := by
  unfold peStep
  try dsimp only
  repeat' (first | with_reducible exact hk | with_reducible refine keep_putPush _ _ _ _ _ _ ?_ | split)

theorem keep_postIssue {x0 : State} (a : ℕ) (w : Word) (place : ℕ) {s : State} (hk : Kept x0 s) :
    KeptE x0 (postIssue a w place s) := by
  unfold postIssue
  try dsimp only
  repeat' (first
      | with_reducible exact hk
      | with_reducible refine keep_sendSignal _ _ _ _ ?_
      | with_reducible refine keep_startOp _ _ ?_
      | with_reducible refine keep_takeRead _ _ ?_
      | with_reducible exact keep_err
      | with_reducible refine keep_okE ?_
      | with_reducible refine keep_bind ?_
      | split
      | intro _)

theorem keep_postStep {x0 : State} (a : ℕ) (op : EngineOp) (j : ℕ) (c : ℕ) {s : State} (hk : Kept x0 s) :
    Kept x0 (postStep a op j c s) := by
  unfold postStep
  try dsimp only
  repeat' (first
      | with_reducible exact hk
      | with_reducible refine keep_State_setStation _ _ ?_
      | with_reducible refine keep_modOp _ _ _ ?_
      | with_reducible refine keep_opSkip _ _ ?_
      | with_reducible refine keep_violateClk _ _ _ _ ?_
      | with_reducible refine keep_ite ?_ ?_)

theorem keep_engAct {x0 : State} (a : ℕ) (op : EngineOp) (n : ℕ) (c : ℕ) {s : State} (hk : Kept x0 s) :
    Kept x0 (engAct a op n c s) := by
  unfold engAct
  try dsimp only
  repeat' (first
      | with_reducible exact hk
      | with_reducible refine keep_feedStep _ _ _ ?_
      | with_reducible refine keep_mapStep _ _ _ _ ?_
      | with_reducible refine keep_runStep _ _ ?_
      | with_reducible refine keep_modeStep _ _ ?_
      | with_reducible refine keep_mapWalkStep _ _ _ _ ?_
      | with_reducible refine keep_passStep _ _ _ _ ?_
      | with_reducible refine keep_mergeWalkStep _ _ _ _ ?_
      | with_reducible refine keep_skimStep _ _ _ _ ?_
      | with_reducible refine keep_wloadStep _ _ _ _ ?_
      | with_reducible refine keep_macStep _ _ _ _ ?_
      | with_reducible refine keep_drainStep _ _ _ _ ?_
      | with_reducible refine keep_sortStep _ _ _ ?_
      | with_reducible refine keep_loadStep _ _ _ ?_
      | with_reducible refine keep_mergeStep _ _ ?_
      | with_reducible refine keep_topkStep _ _ _ ?_
      | with_reducible refine keep_spillStep _ _ ?_
      | with_reducible refine keep_mrRdStep _ _ _ ?_
      | with_reducible refine keep_mrWrStep _ _ _ ?_
      | with_reducible refine keep_mrGatherStep _ _ _ _ ?_
      | with_reducible refine keep_piStep _ _ _ ?_
      | with_reducible refine keep_peStep _ _ _ ?_
      | with_reducible refine keep_postStep _ _ _ _ ?_
      | split)

theorem keep_engStep {x0 : State} (a : ℕ) (t : ℕ) (c : ℕ) (st : EngineStep) {s : State} (hk : Kept x0 s) :
    Kept x0 (engStep a t c st s) := by
  unfold engStep
  try dsimp only
  repeat' (first
      | with_reducible exact hk
      | with_reducible refine keep_modOp _ _ _ ?_
      | with_reducible refine keep_opPop _ _ _ _ ?_
      | with_reducible refine keep_engAct _ _ _ _ ?_
      | split)

theorem keep_engRun {x0 : State} (a : ℕ) (v1 : ℕ) {v2 : State} (hk : Kept x0 v2) :
    Kept x0 (engRun a v1 v2) := by
  induction v1 generalizing a v2 with
  | zero =>
    unfold engRun
    try dsimp only
    repeat' (first | with_reducible exact hk)
  | succ _ ih =>
    unfold engRun
    try dsimp only
    repeat' (first | with_reducible exact hk | with_reducible apply ih | with_reducible refine keep_engStep _ _ _ _ ?_ | split)

theorem keep_engAdvance {x0 : State} (a : ℕ) {s : State} (hk : Kept x0 s) :
    Kept x0 (engAdvance a s) := by
  unfold engAdvance
  try dsimp only
  repeat' (first | with_reducible exact hk | with_reducible refine keep_engRun _ _ ?_)

theorem keep_engClk {x0 : State} (a : ℕ) {s : State} (hk : Kept x0 s) :
    Kept x0 (engClk a s) := by
  unfold engClk
  try dsimp only
  repeat' (first | with_reducible exact hk | with_reducible refine keep_engAdvance _ ?_ | with_reducible refine keep_applyWrites _ ?_)

theorem keep_settle {x0 : State} (a : ℕ) {s : State} (hk : Kept x0 s) :
    Kept x0 (settle a s) := by
  unfold settle
  try dsimp only
  repeat' (first
      | with_reducible exact hk
      | with_reducible assumption
      | with_reducible refine keep_applyResults _ ?_
      | with_reducible refine keep_engClk _ ?_
      | with_reducible refine keep_applySignals ?_
      | with_reducible refine keep_each ?_ ?_
      | intro _)

theorem keep_execInstructionResult {x0 : State} (st : StAddr) {s : State} (hk : Kept x0 s) :
    KeptOut x0 (execInstructionResult st s) := by
  unfold execInstructionResult
  try dsimp only
  repeat' (first | with_reducible exact hk | with_reducible refine keep_settle _ ?_ | with_reducible refine keep_next ?_)

theorem keep_complete {x0 : State} (a : ℕ) {s : State} (hk : Kept x0 s) :
    Kept x0 (complete a s) := by
  unfold complete
  try dsimp only
  repeat' (first
      | with_reducible exact hk
      | with_reducible assumption
      | with_reducible refine keep_State_setStation _ _ ?_
      | with_reducible refine keep_fireSignal _ _ _ _ _ ?_
      | with_reducible refine keep_each ?_ ?_
      | intro _)

theorem keep_execEngineCompletion {x0 : State} (st : StAddr) {s : State} (hk : Kept x0 s) :
    KeptOut x0 (execEngineCompletion st s) := by
  unfold execEngineCompletion
  try dsimp only
  repeat' (first
      | with_reducible exact hk
      | with_reducible refine keep_complete _ ?_
      | with_reducible refine keep_settle _ ?_
      | with_reducible refine keep_next ?_)

end Sys2Proof.Machine
end

