-- ==== Sys2Proof/Laws/KeptStations.lean ====
section
/-!
SUPPORT. What every operation keeps (`Kept`): the issue of every station instruction.
-/

namespace Sys2Proof.Machine

def Shape.Keeps (x : State) (p : Shape) : Prop :=
  (∀ a w l t, Kept x t → Kept x (p.always a w l t)) ∧ ∀ a w l t, Kept x t → KeptE x (p.eff a w l t)

theorem keep_always {x s : State} {p : Shape} (k : p.Keeps x) {a w l} (h : Kept x s) : Kept x (p.always a w l s) := k.1 _ _ _ _ h
theorem keep_eff {x s : State} {p : Shape} (k : p.Keeps x) {a w l} (h : Kept x s) : KeptE x (p.eff a w l s) := k.2 _ _ _ _ h
theorem keep_useWords {x0 : State} (ks : List ℕ) {s : State} (hk : Kept x0 s) :
    Kept x0 (useWords ks s).2 := by
  unfold useWords
  try dsimp only
  repeat' (first
      | with_reducible exact hk
      | with_reducible assumption
      | with_reducible refine keep_useWord _ ?_
      | with_reducible refine keep_foldl ?_ ?_
      | intro _)

theorem keep_injectSched {x0 : State} (a : ℕ) (place : ℕ) {s : State} (hk : Kept x0 s) :
    Kept x0 (injectSched a place s).2 := by
  unfold injectSched
  try dsimp only
  repeat' (first | with_reducible exact hk | with_reducible refine keep_State_setInj _ ?_ | split)

theorem keep_advancePc {x0 : State} (a : ℕ) {s : State} (hk : Kept x0 s) :
    Kept x0 (advancePc a s) := by
  unfold advancePc
  try dsimp only
  repeat' (first | with_reducible exact hk | with_reducible refine keep_State_setStation _ _ ?_)

theorem keep_perform {x0 : State} (p : Shape) (a : ℕ) (w : Word) (place : ℕ) (expired : Bool) {s : State} (kp : Shape.Keeps x0 p) (hk : Kept x0 s) :
    Kept x0 (perform p a w place expired s) := by
  unfold perform
  try dsimp only
  repeat' (first
      | with_reducible exact hk
      | with_reducible refine keep_eff kp ?_
      | with_reducible refine keep_useWords _ ?_
      | with_reducible refine keep_injectSched _ _ ?_
      | with_reducible refine keep_fireSignal _ _ _ _ _ ?_
      | with_reducible refine keep_violate _ _ _ ?_
      | with_reducible refine keep_ite ?_ ?_
      | with_reducible refine keep_ok (by assumption) ?_
      | with_reducible exact keep_err
      | split)

theorem keep_issueNow {x0 : State} (p : Shape) (a : ℕ) (expired : Bool) {s : State} (kp : Shape.Keeps x0 p) (hk : Kept x0 s) :
    Kept x0 (issueNow p a expired s) := by
  unfold issueNow
  try dsimp only
  repeat' (first
      | with_reducible exact hk
      | with_reducible assumption
      | with_reducible refine keep_always kp ?_
      | with_reducible refine keep_takeWait _ _ _ ?_
      | with_reducible refine keep_advancePc _ ?_
      | with_reducible refine keep_fireSignal _ _ _ _ _ ?_
      | with_reducible refine keep_engAdvance _ ?_
      | with_reducible refine keep_perform _ _ _ _ _ ?_ ?_
      | with_reducible refine keep_ite ?_ ?_)

theorem keep_issue {x0 : State} (p : Shape) (a : ℕ) {s : State} (kp : Shape.Keeps x0 p) (hk : Kept x0 s) :
    Kept x0 (issue p a s) := by
  unfold issue
  try dsimp only
  repeat' (first
      | with_reducible exact hk
      | with_reducible assumption
      | with_reducible refine keep_settle _ ?_
      | with_reducible refine keep_issueNow _ _ _ ?_ ?_
      | with_reducible refine keep_State_setStation _ _ ?_
      | with_reducible refine keep_ite ?_ ?_)

theorem keep_issueRow {x0 : State} (p : Shape) (st : StAddr) {s : State} (kp : Shape.Keeps x0 p) (hk : Kept x0 s) :
    KeptOut x0 (issueRow p st s) := by
  unfold issueRow
  try dsimp only
  repeat' (first
      | with_reducible exact hk
      | with_reducible assumption
      | with_reducible refine keep_issue _ _ ?_ ?_
      | with_reducible refine keep_next ?_)

theorem keep_nopShape {x0 : State} : Shape.Keeps x0 (nopShape) := by
  unfold nopShape
  unfold Shape.plain
  refine ⟨fun _ _ _ _ _ => ?_, fun _ _ _ _ _ => ?_⟩
  all_goals try dsimp only
  all_goals repeat' (first | with_reducible assumption | with_reducible refine keep_okE ?_)

theorem keep_haltShape {x0 : State} : Shape.Keeps x0 (haltShape) := by
  unfold haltShape
  unfold Shape.plain
  refine ⟨fun _ _ _ _ _ => ?_, fun _ _ _ _ _ => ?_⟩
  all_goals try dsimp only
  all_goals repeat' (first
      | with_reducible assumption
      | with_reducible refine keep_State_setStation _ _ ?_
      | with_reducible refine keep_okE ?_)

theorem keep_placeNext {x0 : State} (a : ℕ) (place : ℕ) (w : Word) {s : State} (hk : Kept x0 s) :
    Kept x0 (placeNext a place w s) := by
  unfold placeNext
  try dsimp only
  repeat' (first
      | with_reducible exact hk
      | with_reducible refine keep_violate _ _ _ ?_
      | with_reducible refine keep_State_setStation _ _ ?_
      | with_reducible refine keep_ite ?_ ?_)

theorem keep_atShape {x0 : State} : Shape.Keeps x0 (atShape) := by
  unfold atShape
  unfold Shape.plain
  refine ⟨fun _ _ _ _ _ => ?_, fun _ _ _ _ _ => ?_⟩
  all_goals try dsimp only
  all_goals repeat' (first | with_reducible assumption | with_reducible refine keep_placeNext _ _ _ ?_ | with_reducible refine keep_okE ?_)

theorem keep_goTo {x0 : State} (a : ℕ) (target : ℕ) {s : State} (hk : Kept x0 s) :
    Kept x0 (goTo a target s) := by
  unfold goTo
  try dsimp only
  repeat' (first | with_reducible exact hk | with_reducible refine keep_State_setStation _ _ ?_)

theorem keep_jmpShape {x0 : State} : Shape.Keeps x0 (jmpShape) := by
  unfold jmpShape
  unfold Shape.plain
  refine ⟨fun _ _ _ _ _ => ?_, fun _ _ _ _ _ => ?_⟩
  all_goals try dsimp only
  all_goals repeat' (first | with_reducible assumption | with_reducible refine keep_goTo _ _ ?_ | with_reducible refine keep_okE ?_)

theorem keep_bnzShape {x0 : State} : Shape.Keeps x0 (bnzShape) := by
  unfold bnzShape
  unfold Shape.plain
  refine ⟨fun _ _ _ _ _ => ?_, fun _ _ _ _ _ => ?_⟩
  all_goals try dsimp only
  all_goals repeat' (first
      | with_reducible assumption
      | with_reducible refine keep_goTo _ _ ?_
      | with_reducible refine keep_ite ?_ ?_
      | with_reducible refine keep_okE ?_)

theorem keep_bzShape {x0 : State} : Shape.Keeps x0 (bzShape) := by
  unfold bzShape
  unfold Shape.plain
  refine ⟨fun _ _ _ _ _ => ?_, fun _ _ _ _ _ => ?_⟩
  all_goals try dsimp only
  all_goals repeat' (first
      | with_reducible assumption
      | with_reducible refine keep_goTo _ _ ?_
      | with_reducible refine keep_ite ?_ ?_
      | with_reducible refine keep_okE ?_)

theorem keep_loopShape {x0 : State} : Shape.Keeps x0 (loopShape) := by
  unfold loopShape
  unfold Shape.plain
  refine ⟨fun _ _ _ _ _ => ?_, fun _ _ _ _ _ => ?_⟩
  all_goals try dsimp only
  all_goals repeat' (first
      | with_reducible assumption
      | with_reducible refine keep_putScalar _ _ _ _ _ _ ?_
      | with_reducible refine keep_goTo _ _ ?_
      | with_reducible refine keep_ite ?_ ?_
      | with_reducible refine keep_okE ?_)

theorem keep_execNop {x0 : State} (st : StAddr) {s : State} (hk : Kept x0 s) :
    KeptOut x0 (execNop st s) := by
  unfold execNop
  try dsimp only
  repeat' (first | with_reducible exact hk | with_reducible exact keep_nopShape | with_reducible refine keep_issueRow _ _ ?_ ?_)

theorem keep_execHalt {x0 : State} (st : StAddr) {s : State} (hk : Kept x0 s) :
    KeptOut x0 (execHalt st s) := by
  unfold execHalt
  try dsimp only
  repeat' (first | with_reducible exact hk | with_reducible exact keep_haltShape | with_reducible refine keep_issueRow _ _ ?_ ?_)

theorem keep_execAtClk {x0 : State} (st : StAddr) {s : State} (hk : Kept x0 s) :
    KeptOut x0 (execAtClk st s) := by
  unfold execAtClk
  try dsimp only
  repeat' (first | with_reducible exact hk | with_reducible exact keep_atShape | with_reducible refine keep_issueRow _ _ ?_ ?_)

theorem keep_execJmp {x0 : State} (st : StAddr) {s : State} (hk : Kept x0 s) :
    KeptOut x0 (execJmp st s) := by
  unfold execJmp
  try dsimp only
  repeat' (first | with_reducible exact hk | with_reducible exact keep_jmpShape | with_reducible refine keep_issueRow _ _ ?_ ?_)

theorem keep_execBnz {x0 : State} (st : StAddr) {s : State} (hk : Kept x0 s) :
    KeptOut x0 (execBnz st s) := by
  unfold execBnz
  try dsimp only
  repeat' (first | with_reducible exact hk | with_reducible exact keep_bnzShape | with_reducible refine keep_issueRow _ _ ?_ ?_)

theorem keep_execBz {x0 : State} (st : StAddr) {s : State} (hk : Kept x0 s) :
    KeptOut x0 (execBz st s) := by
  unfold execBz
  try dsimp only
  repeat' (first | with_reducible exact hk | with_reducible exact keep_bzShape | with_reducible refine keep_issueRow _ _ ?_ ?_)

theorem keep_execLoop {x0 : State} (st : StAddr) {s : State} (hk : Kept x0 s) :
    KeptOut x0 (execLoop st s) := by
  unfold execLoop
  try dsimp only
  repeat' (first | with_reducible exact hk | with_reducible exact keep_loopShape | with_reducible refine keep_issueRow _ _ ?_ ?_)

theorem keep_scalarShape {x0 : State} (code lat : Nat) (f : Word → Word → Word) : Shape.Keeps x0 (scalarShape code lat f) := by
  unfold scalarShape
  unfold Shape.plain
  refine ⟨fun _ _ _ _ _ => ?_, fun _ _ _ _ _ => ?_⟩
  all_goals try dsimp only
  all_goals repeat' (first
      | with_reducible assumption
      | with_reducible refine keep_putScalar _ _ _ _ _ _ ?_
      | with_reducible refine keep_okE ?_)

theorem keep_liShape {x0 : State} : Shape.Keeps x0 (liShape) := by
  unfold liShape
  unfold Shape.plain
  refine ⟨fun _ _ _ _ _ => ?_, fun _ _ _ _ _ => ?_⟩
  all_goals try dsimp only
  all_goals repeat' (first
      | with_reducible assumption
      | with_reducible refine keep_putScalar _ _ _ _ _ _ ?_
      | with_reducible refine keep_okE ?_)

theorem keep_luiShape {x0 : State} : Shape.Keeps x0 (luiShape) := by
  unfold luiShape
  unfold Shape.plain
  refine ⟨fun _ _ _ _ _ => ?_, fun _ _ _ _ _ => ?_⟩
  all_goals try dsimp only
  all_goals repeat' (first
      | with_reducible assumption
      | with_reducible refine keep_putScalar _ _ _ _ _ _ ?_
      | with_reducible refine keep_okE ?_)

theorem keep_addShape {x0 : State} : Shape.Keeps x0 (addShape) := by
  unfold addShape
  unfold scalarShape
  unfold Shape.plain
  refine ⟨fun _ _ _ _ _ => ?_, fun _ _ _ _ _ => ?_⟩
  all_goals try dsimp only
  all_goals repeat' (first
      | with_reducible assumption
      | with_reducible refine keep_putScalar _ _ _ _ _ _ ?_
      | with_reducible refine keep_okE ?_)

theorem keep_subShape {x0 : State} : Shape.Keeps x0 (subShape) := by
  unfold subShape
  unfold scalarShape
  unfold Shape.plain
  refine ⟨fun _ _ _ _ _ => ?_, fun _ _ _ _ _ => ?_⟩
  all_goals try dsimp only
  all_goals repeat' (first
      | with_reducible assumption
      | with_reducible refine keep_putScalar _ _ _ _ _ _ ?_
      | with_reducible refine keep_okE ?_)

theorem keep_andShape {x0 : State} : Shape.Keeps x0 (andShape) := by
  unfold andShape
  unfold scalarShape
  unfold Shape.plain
  refine ⟨fun _ _ _ _ _ => ?_, fun _ _ _ _ _ => ?_⟩
  all_goals try dsimp only
  all_goals repeat' (first
      | with_reducible assumption
      | with_reducible refine keep_putScalar _ _ _ _ _ _ ?_
      | with_reducible refine keep_okE ?_)

theorem keep_orShape {x0 : State} : Shape.Keeps x0 (orShape) := by
  unfold orShape
  unfold scalarShape
  unfold Shape.plain
  refine ⟨fun _ _ _ _ _ => ?_, fun _ _ _ _ _ => ?_⟩
  all_goals try dsimp only
  all_goals repeat' (first
      | with_reducible assumption
      | with_reducible refine keep_putScalar _ _ _ _ _ _ ?_
      | with_reducible refine keep_okE ?_)

theorem keep_xorShape {x0 : State} : Shape.Keeps x0 (xorShape) := by
  unfold xorShape
  unfold scalarShape
  unfold Shape.plain
  refine ⟨fun _ _ _ _ _ => ?_, fun _ _ _ _ _ => ?_⟩
  all_goals try dsimp only
  all_goals repeat' (first
      | with_reducible assumption
      | with_reducible refine keep_putScalar _ _ _ _ _ _ ?_
      | with_reducible refine keep_okE ?_)

theorem keep_shlShape {x0 : State} : Shape.Keeps x0 (shlShape) := by
  unfold shlShape
  unfold scalarShape
  unfold Shape.plain
  refine ⟨fun _ _ _ _ _ => ?_, fun _ _ _ _ _ => ?_⟩
  all_goals try dsimp only
  all_goals repeat' (first
      | with_reducible assumption
      | with_reducible refine keep_putScalar _ _ _ _ _ _ ?_
      | with_reducible refine keep_okE ?_)

theorem keep_shrShape {x0 : State} : Shape.Keeps x0 (shrShape) := by
  unfold shrShape
  unfold scalarShape
  unfold Shape.plain
  refine ⟨fun _ _ _ _ _ => ?_, fun _ _ _ _ _ => ?_⟩
  all_goals try dsimp only
  all_goals repeat' (first
      | with_reducible assumption
      | with_reducible refine keep_putScalar _ _ _ _ _ _ ?_
      | with_reducible refine keep_okE ?_)

theorem keep_sarShape {x0 : State} : Shape.Keeps x0 (sarShape) := by
  unfold sarShape
  unfold scalarShape
  unfold Shape.plain
  refine ⟨fun _ _ _ _ _ => ?_, fun _ _ _ _ _ => ?_⟩
  all_goals try dsimp only
  all_goals repeat' (first
      | with_reducible assumption
      | with_reducible refine keep_putScalar _ _ _ _ _ _ ?_
      | with_reducible refine keep_okE ?_)

theorem keep_mulShape {x0 : State} : Shape.Keeps x0 (mulShape) := by
  unfold mulShape
  unfold scalarShape
  unfold Shape.plain
  refine ⟨fun _ _ _ _ _ => ?_, fun _ _ _ _ _ => ?_⟩
  all_goals try dsimp only
  all_goals repeat' (first
      | with_reducible assumption
      | with_reducible refine keep_putScalar _ _ _ _ _ _ ?_
      | with_reducible refine keep_okE ?_)

theorem keep_sltShape {x0 : State} : Shape.Keeps x0 (sltShape) := by
  unfold sltShape
  unfold scalarShape
  unfold Shape.plain
  refine ⟨fun _ _ _ _ _ => ?_, fun _ _ _ _ _ => ?_⟩
  all_goals try dsimp only
  all_goals repeat' (first
      | with_reducible assumption
      | with_reducible refine keep_putScalar _ _ _ _ _ _ ?_
      | with_reducible refine keep_okE ?_)

theorem keep_sltuShape {x0 : State} : Shape.Keeps x0 (sltuShape) := by
  unfold sltuShape
  unfold scalarShape
  unfold Shape.plain
  refine ⟨fun _ _ _ _ _ => ?_, fun _ _ _ _ _ => ?_⟩
  all_goals try dsimp only
  all_goals repeat' (first
      | with_reducible assumption
      | with_reducible refine keep_putScalar _ _ _ _ _ _ ?_
      | with_reducible refine keep_okE ?_)

theorem keep_addiShape {x0 : State} : Shape.Keeps x0 (addiShape) := by
  unfold addiShape
  unfold Shape.plain
  refine ⟨fun _ _ _ _ _ => ?_, fun _ _ _ _ _ => ?_⟩
  all_goals try dsimp only
  all_goals repeat' (first
      | with_reducible assumption
      | with_reducible refine keep_putScalar _ _ _ _ _ _ ?_
      | with_reducible refine keep_okE ?_)

theorem keep_execLi {x0 : State} (st : StAddr) {s : State} (hk : Kept x0 s) :
    KeptOut x0 (execLi st s) := by
  unfold execLi
  try dsimp only
  repeat' (first | with_reducible exact hk | with_reducible exact keep_liShape | with_reducible refine keep_issueRow _ _ ?_ ?_)

theorem keep_execLui {x0 : State} (st : StAddr) {s : State} (hk : Kept x0 s) :
    KeptOut x0 (execLui st s) := by
  unfold execLui
  try dsimp only
  repeat' (first | with_reducible exact hk | with_reducible exact keep_luiShape | with_reducible refine keep_issueRow _ _ ?_ ?_)

theorem keep_execAdd {x0 : State} (st : StAddr) {s : State} (hk : Kept x0 s) :
    KeptOut x0 (execAdd st s) := by
  unfold execAdd
  try dsimp only
  repeat' (first | with_reducible exact hk | with_reducible exact keep_addShape | with_reducible refine keep_issueRow _ _ ?_ ?_)

theorem keep_execSub {x0 : State} (st : StAddr) {s : State} (hk : Kept x0 s) :
    KeptOut x0 (execSub st s) := by
  unfold execSub
  try dsimp only
  repeat' (first | with_reducible exact hk | with_reducible exact keep_subShape | with_reducible refine keep_issueRow _ _ ?_ ?_)

theorem keep_execAnd {x0 : State} (st : StAddr) {s : State} (hk : Kept x0 s) :
    KeptOut x0 (execAnd st s) := by
  unfold execAnd
  try dsimp only
  repeat' (first | with_reducible exact hk | with_reducible exact keep_andShape | with_reducible refine keep_issueRow _ _ ?_ ?_)

theorem keep_execOr {x0 : State} (st : StAddr) {s : State} (hk : Kept x0 s) :
    KeptOut x0 (execOr st s) := by
  unfold execOr
  try dsimp only
  repeat' (first | with_reducible exact hk | with_reducible exact keep_orShape | with_reducible refine keep_issueRow _ _ ?_ ?_)

theorem keep_execXor {x0 : State} (st : StAddr) {s : State} (hk : Kept x0 s) :
    KeptOut x0 (execXor st s) := by
  unfold execXor
  try dsimp only
  repeat' (first | with_reducible exact hk | with_reducible exact keep_xorShape | with_reducible refine keep_issueRow _ _ ?_ ?_)

theorem keep_execShl {x0 : State} (st : StAddr) {s : State} (hk : Kept x0 s) :
    KeptOut x0 (execShl st s) := by
  unfold execShl
  try dsimp only
  repeat' (first | with_reducible exact hk | with_reducible exact keep_shlShape | with_reducible refine keep_issueRow _ _ ?_ ?_)

theorem keep_execShr {x0 : State} (st : StAddr) {s : State} (hk : Kept x0 s) :
    KeptOut x0 (execShr st s) := by
  unfold execShr
  try dsimp only
  repeat' (first | with_reducible exact hk | with_reducible exact keep_shrShape | with_reducible refine keep_issueRow _ _ ?_ ?_)

theorem keep_execSar {x0 : State} (st : StAddr) {s : State} (hk : Kept x0 s) :
    KeptOut x0 (execSar st s) := by
  unfold execSar
  try dsimp only
  repeat' (first | with_reducible exact hk | with_reducible exact keep_sarShape | with_reducible refine keep_issueRow _ _ ?_ ?_)

theorem keep_execMul {x0 : State} (st : StAddr) {s : State} (hk : Kept x0 s) :
    KeptOut x0 (execMul st s) := by
  unfold execMul
  try dsimp only
  repeat' (first | with_reducible exact hk | with_reducible exact keep_mulShape | with_reducible refine keep_issueRow _ _ ?_ ?_)

theorem keep_execSlt {x0 : State} (st : StAddr) {s : State} (hk : Kept x0 s) :
    KeptOut x0 (execSlt st s) := by
  unfold execSlt
  try dsimp only
  repeat' (first | with_reducible exact hk | with_reducible exact keep_sltShape | with_reducible refine keep_issueRow _ _ ?_ ?_)

theorem keep_execSltu {x0 : State} (st : StAddr) {s : State} (hk : Kept x0 s) :
    KeptOut x0 (execSltu st s) := by
  unfold execSltu
  try dsimp only
  repeat' (first | with_reducible exact hk | with_reducible exact keep_sltuShape | with_reducible refine keep_issueRow _ _ ?_ ?_)

theorem keep_execAddi {x0 : State} (st : StAddr) {s : State} (hk : Kept x0 s) :
    KeptOut x0 (execAddi st s) := by
  unfold execAddi
  try dsimp only
  repeat' (first | with_reducible exact hk | with_reducible exact keep_addiShape | with_reducible refine keep_issueRow _ _ ?_ ?_)

theorem keep_ldShape {x0 : State} : Shape.Keeps x0 (ldShape) := by
  unfold ldShape
  unfold Shape.plain
  refine ⟨fun _ _ _ _ _ => ?_, fun _ _ _ _ _ => ?_⟩
  all_goals try dsimp only
  all_goals repeat' (first
      | with_reducible assumption
      | with_reducible refine keep_putScalar _ _ _ _ _ _ ?_
      | with_reducible refine keep_takeRead _ _ ?_
      | with_reducible exact keep_err
      | with_reducible refine keep_okE ?_
      | with_reducible refine keep_bind ?_
      | split
      | intro _)

theorem keep_stShape {x0 : State} : Shape.Keeps x0 (stShape) := by
  unfold stShape
  unfold Shape.plain
  refine ⟨fun _ _ _ _ _ => ?_, fun _ _ _ _ _ => ?_⟩
  all_goals try dsimp only
  all_goals repeat' (first
      | with_reducible assumption
      | with_reducible refine keep_addResult _ _ ?_
      | with_reducible exact keep_err
      | with_reducible refine keep_okE ?_
      | with_reducible refine keep_bind ?_
      | split
      | intro _)

theorem keep_execLd {x0 : State} (st : StAddr) {s : State} (hk : Kept x0 s) :
    KeptOut x0 (execLd st s) := by
  unfold execLd
  try dsimp only
  repeat' (first | with_reducible exact hk | with_reducible exact keep_ldShape | with_reducible refine keep_issueRow _ _ ?_ ?_)

theorem keep_execSt {x0 : State} (st : StAddr) {s : State} (hk : Kept x0 s) :
    KeptOut x0 (execSt st s) := by
  unfold execSt
  try dsimp only
  repeat' (first | with_reducible exact hk | with_reducible exact keep_stShape | with_reducible refine keep_issueRow _ _ ?_ ?_)

theorem keep_mvShape {x0 : State} : Shape.Keeps x0 (mvShape) := by
  unfold mvShape
  unfold Shape.plain
  refine ⟨fun _ _ _ _ _ => ?_, fun _ _ _ _ _ => ?_⟩
  all_goals try dsimp only
  all_goals repeat' (first
      | with_reducible assumption
      | with_reducible refine keep_putLine _ _ _ _ _ _ ?_
      | with_reducible refine keep_putScalar _ _ _ _ _ _ ?_
      | with_reducible refine keep_popAll _ _ _ ?_
      | with_reducible exact keep_err
      | with_reducible refine keep_okE ?_
      | split)

theorem keep_postShape {x0 : State} : Shape.Keeps x0 (postShape) := by
  unfold postShape
  unfold Shape.plain
  refine ⟨fun _ _ _ _ _ => ?_, fun _ _ _ _ _ => ?_⟩
  all_goals try dsimp only
  all_goals repeat' (first | with_reducible assumption | with_reducible refine keep_postIssue _ _ _ ?_)

theorem keep_rdtShape {x0 : State} : Shape.Keeps x0 (rdtShape) := by
  unfold rdtShape
  unfold Shape.plain
  refine ⟨fun _ _ _ _ _ => ?_, fun _ _ _ _ _ => ?_⟩
  all_goals try dsimp only
  all_goals repeat' (first
      | with_reducible assumption
      | with_reducible refine keep_putScalar _ _ _ _ _ _ ?_
      | with_reducible refine keep_okE ?_)

theorem keep_pickShape {x0 : State} : Shape.Keeps x0 (pickShape) := by
  unfold pickShape
  unfold Shape.plain
  refine ⟨fun _ _ _ _ _ => ?_, fun _ _ _ _ _ => ?_⟩
  all_goals try dsimp only
  all_goals repeat' (first
      | with_reducible assumption
      | with_reducible refine keep_putScalar _ _ _ _ _ _ ?_
      | with_reducible refine keep_okE ?_)

theorem keep_execMv {x0 : State} (st : StAddr) {s : State} (hk : Kept x0 s) :
    KeptOut x0 (execMv st s) := by
  unfold execMv
  try dsimp only
  repeat' (first | with_reducible exact hk | with_reducible exact keep_mvShape | with_reducible refine keep_issueRow _ _ ?_ ?_)

theorem keep_execPost {x0 : State} (st : StAddr) {s : State} (hk : Kept x0 s) :
    KeptOut x0 (execPost st s) := by
  unfold execPost
  try dsimp only
  repeat' (first | with_reducible exact hk | with_reducible exact keep_postShape | with_reducible refine keep_issueRow _ _ ?_ ?_)

theorem keep_execRdt {x0 : State} (st : StAddr) {s : State} (hk : Kept x0 s) :
    KeptOut x0 (execRdt st s) := by
  unfold execRdt
  try dsimp only
  repeat' (first | with_reducible exact hk | with_reducible exact keep_rdtShape | with_reducible refine keep_issueRow _ _ ?_ ?_)

theorem keep_execBcPick {x0 : State} (st : StAddr) {s : State} (hk : Kept x0 s) :
    KeptOut x0 (execBcPick st s) := by
  unfold execBcPick
  try dsimp only
  repeat' (first | with_reducible exact hk | with_reducible exact keep_pickShape | with_reducible refine keep_issueRow _ _ ?_ ?_)

theorem keep_laneShape {x0 : State} (code : Nat) (f : State → Nat → Word → LineData → LineData → Nat → BitVec 32) : Shape.Keeps x0 (laneShape code f) := by
  unfold laneShape
  unfold Shape.plain
  refine ⟨fun _ _ _ _ _ => ?_, fun _ _ _ _ _ => ?_⟩
  all_goals try dsimp only
  all_goals repeat' (first
      | with_reducible assumption
      | with_reducible refine keep_putLine _ _ _ _ _ _ ?_
      | with_reducible refine keep_popAll _ _ _ ?_
      | with_reducible refine keep_okE ?_
      | with_reducible refine keep_bind ?_
      | intro _)

theorem keep_vaddShape {x0 : State} : Shape.Keeps x0 (vaddShape) := by
  unfold vaddShape
  unfold laneShape
  unfold Shape.plain
  refine ⟨fun _ _ _ _ _ => ?_, fun _ _ _ _ _ => ?_⟩
  all_goals try dsimp only
  all_goals repeat' (first
      | with_reducible assumption
      | with_reducible refine keep_putLine _ _ _ _ _ _ ?_
      | with_reducible refine keep_popAll _ _ _ ?_
      | with_reducible refine keep_okE ?_
      | with_reducible refine keep_bind ?_
      | split
      | intro _)

theorem keep_vsubShape {x0 : State} : Shape.Keeps x0 (vsubShape) := by
  unfold vsubShape
  unfold laneShape
  unfold Shape.plain
  refine ⟨fun _ _ _ _ _ => ?_, fun _ _ _ _ _ => ?_⟩
  all_goals try dsimp only
  all_goals repeat' (first
      | with_reducible assumption
      | with_reducible refine keep_putLine _ _ _ _ _ _ ?_
      | with_reducible refine keep_popAll _ _ _ ?_
      | with_reducible refine keep_okE ?_
      | with_reducible refine keep_bind ?_
      | split
      | intro _)

theorem keep_vmulShape {x0 : State} : Shape.Keeps x0 (vmulShape) := by
  unfold vmulShape
  unfold laneShape
  unfold Shape.plain
  refine ⟨fun _ _ _ _ _ => ?_, fun _ _ _ _ _ => ?_⟩
  all_goals try dsimp only
  all_goals repeat' (first
      | with_reducible assumption
      | with_reducible refine keep_putLine _ _ _ _ _ _ ?_
      | with_reducible refine keep_popAll _ _ _ ?_
      | with_reducible refine keep_okE ?_
      | with_reducible refine keep_bind ?_
      | intro _)

theorem keep_vfmaShape {x0 : State} : Shape.Keeps x0 (vfmaShape) := by
  unfold vfmaShape
  unfold laneShape
  unfold Shape.plain
  refine ⟨fun _ _ _ _ _ => ?_, fun _ _ _ _ _ => ?_⟩
  all_goals try dsimp only
  all_goals repeat' (first
      | with_reducible assumption
      | with_reducible refine keep_putLine _ _ _ _ _ _ ?_
      | with_reducible refine keep_popAll _ _ _ ?_
      | with_reducible refine keep_okE ?_
      | with_reducible refine keep_bind ?_
      | intro _)

theorem keep_vmaxShape {x0 : State} : Shape.Keeps x0 (vmaxShape) := by
  unfold vmaxShape
  unfold laneShape
  unfold Shape.plain
  refine ⟨fun _ _ _ _ _ => ?_, fun _ _ _ _ _ => ?_⟩
  all_goals try dsimp only
  all_goals repeat' (first
      | with_reducible assumption
      | with_reducible refine keep_putLine _ _ _ _ _ _ ?_
      | with_reducible refine keep_popAll _ _ _ ?_
      | with_reducible refine keep_okE ?_
      | with_reducible refine keep_bind ?_
      | split
      | intro _)

theorem keep_vminShape {x0 : State} : Shape.Keeps x0 (vminShape) := by
  unfold vminShape
  unfold laneShape
  unfold Shape.plain
  refine ⟨fun _ _ _ _ _ => ?_, fun _ _ _ _ _ => ?_⟩
  all_goals try dsimp only
  all_goals repeat' (first
      | with_reducible assumption
      | with_reducible refine keep_putLine _ _ _ _ _ _ ?_
      | with_reducible refine keep_popAll _ _ _ ?_
      | with_reducible refine keep_okE ?_
      | with_reducible refine keep_bind ?_
      | split
      | intro _)

theorem keep_vselShape {x0 : State} : Shape.Keeps x0 (vselShape) := by
  unfold vselShape
  unfold laneShape
  unfold Shape.plain
  refine ⟨fun _ _ _ _ _ => ?_, fun _ _ _ _ _ => ?_⟩
  all_goals try dsimp only
  all_goals repeat' (first
      | with_reducible assumption
      | with_reducible refine keep_putLine _ _ _ _ _ _ ?_
      | with_reducible refine keep_popAll _ _ _ ?_
      | with_reducible refine keep_okE ?_
      | with_reducible refine keep_bind ?_
      | intro _)

theorem keep_vcmpShape {x0 : State} : Shape.Keeps x0 (vcmpShape) := by
  unfold vcmpShape
  unfold Shape.plain
  refine ⟨fun _ _ _ _ _ => ?_, fun _ _ _ _ _ => ?_⟩
  all_goals try dsimp only
  all_goals repeat' (first
      | with_reducible assumption
      | with_reducible refine keep_putScalar _ _ _ _ _ _ ?_
      | with_reducible refine keep_popAll _ _ _ ?_
      | with_reducible refine keep_okE ?_
      | with_reducible refine keep_bind ?_
      | intro _)

theorem keep_vbcShape {x0 : State} : Shape.Keeps x0 (vbcShape) := by
  unfold vbcShape
  unfold Shape.plain
  refine ⟨fun _ _ _ _ _ => ?_, fun _ _ _ _ _ => ?_⟩
  all_goals try dsimp only
  all_goals repeat' (first
      | with_reducible assumption
      | with_reducible refine keep_putLine _ _ _ _ _ _ ?_
      | with_reducible refine keep_okE ?_)

theorem keep_vsumShape {x0 : State} : Shape.Keeps x0 (vsumShape) := by
  unfold vsumShape
  unfold Shape.plain
  refine ⟨fun _ _ _ _ _ => ?_, fun _ _ _ _ _ => ?_⟩
  all_goals try dsimp only
  all_goals repeat' (first
      | with_reducible assumption
      | with_reducible refine keep_putScalar _ _ _ _ _ _ ?_
      | with_reducible refine keep_popAll _ _ _ ?_
      | with_reducible exact keep_err
      | with_reducible refine keep_okE ?_
      | split)

theorem keep_execVadd {x0 : State} (st : StAddr) {s : State} (hk : Kept x0 s) :
    KeptOut x0 (execVadd st s) := by
  unfold execVadd
  try dsimp only
  repeat' (first | with_reducible exact hk | with_reducible exact keep_vaddShape | with_reducible refine keep_issueRow _ _ ?_ ?_)

theorem keep_execVsub {x0 : State} (st : StAddr) {s : State} (hk : Kept x0 s) :
    KeptOut x0 (execVsub st s) := by
  unfold execVsub
  try dsimp only
  repeat' (first | with_reducible exact hk | with_reducible exact keep_vsubShape | with_reducible refine keep_issueRow _ _ ?_ ?_)

theorem keep_execVmul {x0 : State} (st : StAddr) {s : State} (hk : Kept x0 s) :
    KeptOut x0 (execVmul st s) := by
  unfold execVmul
  try dsimp only
  repeat' (first | with_reducible exact hk | with_reducible exact keep_vmulShape | with_reducible refine keep_issueRow _ _ ?_ ?_)

theorem keep_execVfma {x0 : State} (st : StAddr) {s : State} (hk : Kept x0 s) :
    KeptOut x0 (execVfma st s) := by
  unfold execVfma
  try dsimp only
  repeat' (first | with_reducible exact hk | with_reducible exact keep_vfmaShape | with_reducible refine keep_issueRow _ _ ?_ ?_)

theorem keep_execVmax {x0 : State} (st : StAddr) {s : State} (hk : Kept x0 s) :
    KeptOut x0 (execVmax st s) := by
  unfold execVmax
  try dsimp only
  repeat' (first | with_reducible exact hk | with_reducible exact keep_vmaxShape | with_reducible refine keep_issueRow _ _ ?_ ?_)

theorem keep_execVmin {x0 : State} (st : StAddr) {s : State} (hk : Kept x0 s) :
    KeptOut x0 (execVmin st s) := by
  unfold execVmin
  try dsimp only
  repeat' (first | with_reducible exact hk | with_reducible exact keep_vminShape | with_reducible refine keep_issueRow _ _ ?_ ?_)

theorem keep_execVsel {x0 : State} (st : StAddr) {s : State} (hk : Kept x0 s) :
    KeptOut x0 (execVsel st s) := by
  unfold execVsel
  try dsimp only
  repeat' (first | with_reducible exact hk | with_reducible exact keep_vselShape | with_reducible refine keep_issueRow _ _ ?_ ?_)

theorem keep_execVcmp {x0 : State} (st : StAddr) {s : State} (hk : Kept x0 s) :
    KeptOut x0 (execVcmp st s) := by
  unfold execVcmp
  try dsimp only
  repeat' (first | with_reducible exact hk | with_reducible exact keep_vcmpShape | with_reducible refine keep_issueRow _ _ ?_ ?_)

theorem keep_execVbc {x0 : State} (st : StAddr) {s : State} (hk : Kept x0 s) :
    KeptOut x0 (execVbc st s) := by
  unfold execVbc
  try dsimp only
  repeat' (first | with_reducible exact hk | with_reducible exact keep_vbcShape | with_reducible refine keep_issueRow _ _ ?_ ?_)

theorem keep_execVsum {x0 : State} (st : StAddr) {s : State} (hk : Kept x0 s) :
    KeptOut x0 (execVsum st s) := by
  unfold execVsum
  try dsimp only
  repeat' (first | with_reducible exact hk | with_reducible exact keep_vsumShape | with_reducible refine keep_issueRow _ _ ?_ ?_)

theorem keep_vcvtEff {x0 : State} (a : ℕ) (w : Word) (place : ℕ) {s : State} (hk : Kept x0 s) :
    KeptE x0 (vcvtEff a w place s) := by
  unfold vcvtEff
  try dsimp only
  repeat' (first
      | with_reducible exact hk
      | with_reducible refine keep_addResult _ _ ?_
      | with_reducible refine keep_popAll _ _ _ ?_
      | with_reducible exact keep_err
      | with_reducible refine keep_okE ?_
      | split)

theorem keep_countStoch {x0 : State} (a : ℕ) (_place : ℕ) (w : Word) {s : State} (hk : Kept x0 s) :
    Kept x0 (countStoch a _place w s) := by
  unfold countStoch
  try dsimp only
  repeat' (first | with_reducible exact hk | with_reducible refine keep_State_setStation _ _ ?_ | with_reducible refine keep_ite ?_ ?_)

theorem keep_vcvtShape {x0 : State} : Shape.Keeps x0 (vcvtShape) := by
  unfold vcvtShape
  unfold Shape.plain
  refine ⟨fun _ _ _ _ _ => ?_, fun _ _ _ _ _ => ?_⟩
  all_goals try dsimp only
  all_goals repeat' (first
      | with_reducible assumption
      | with_reducible refine keep_vcvtEff _ _ _ ?_
      | with_reducible refine keep_countStoch _ _ _ ?_)

theorem keep_execVcvt {x0 : State} (st : StAddr) {s : State} (hk : Kept x0 s) :
    KeptOut x0 (execVcvt st s) := by
  unfold execVcvt
  try dsimp only
  repeat' (first | with_reducible exact hk | with_reducible exact keep_vcvtShape | with_reducible refine keep_issueRow _ _ ?_ ?_)

theorem keep_vldShape {x0 : State} : Shape.Keeps x0 (vldShape) := by
  unfold vldShape
  unfold Shape.plain
  refine ⟨fun _ _ _ _ _ => ?_, fun _ _ _ _ _ => ?_⟩
  all_goals try dsimp only
  all_goals repeat' (first
      | with_reducible assumption
      | with_reducible refine keep_putLine _ _ _ _ _ _ ?_
      | with_reducible refine keep_takeRead _ _ ?_
      | with_reducible exact keep_err
      | with_reducible refine keep_okE ?_
      | with_reducible refine keep_bind ?_
      | split
      | intro _)

theorem keep_vstShape {x0 : State} : Shape.Keeps x0 (vstShape) := by
  unfold vstShape
  unfold Shape.plain
  refine ⟨fun _ _ _ _ _ => ?_, fun _ _ _ _ _ => ?_⟩
  all_goals try dsimp only
  all_goals repeat' (first
      | with_reducible assumption
      | with_reducible refine keep_addResult _ _ ?_
      | with_reducible refine keep_popAll _ _ _ ?_
      | with_reducible exact keep_err
      | with_reducible refine keep_okE ?_
      | with_reducible refine keep_bind ?_
      | split
      | intro _)

theorem keep_execVld {x0 : State} (st : StAddr) {s : State} (hk : Kept x0 s) :
    KeptOut x0 (execVld st s) := by
  unfold execVld
  try dsimp only
  repeat' (first | with_reducible exact hk | with_reducible exact keep_vldShape | with_reducible refine keep_issueRow _ _ ?_ ?_)

theorem keep_execVst {x0 : State} (st : StAddr) {s : State} (hk : Kept x0 s) :
    KeptOut x0 (execVst st s) := by
  unfold execVst
  try dsimp only
  repeat' (first | with_reducible exact hk | with_reducible exact keep_vstShape | with_reducible refine keep_issueRow _ _ ?_ ?_)

theorem keep_engineShape {x0 : State} (code kind : Nat) (uses : Word → List Nat) (fin : State → Nat → Word → Nat → Nat)
    (eff : Nat → Word → Nat → State → Except Nat State) (keff : ∀ a w l t, Kept x0 t → KeptE x0 (eff a w l t)) : Shape.Keeps x0 (engineShape code kind uses fin eff) := by
  unfold engineShape
  unfold Shape.plain
  refine ⟨fun _ _ _ _ _ => ?_, fun _ _ _ _ _ => ?_⟩
  all_goals try dsimp only
  all_goals repeat' (first | with_reducible assumption | refine keff _ _ _ _ ?_)

theorem keep_crOpenShape {x0 : State} : Shape.Keeps x0 (crOpenShape) := by
  unfold crOpenShape
  unfold engineShape
  unfold Shape.plain
  refine ⟨fun _ _ _ _ _ => ?_, fun _ _ _ _ _ => ?_⟩
  all_goals try dsimp only
  all_goals repeat' (first | with_reducible assumption | with_reducible refine keep_crOpen _ _ ?_)

theorem keep_crFeedShape {x0 : State} : Shape.Keeps x0 (crFeedShape) := by
  unfold crFeedShape
  unfold engineShape
  unfold Shape.plain
  refine ⟨fun _ _ _ _ _ => ?_, fun _ _ _ _ _ => ?_⟩
  all_goals try dsimp only
  all_goals repeat' (first | with_reducible assumption | with_reducible refine keep_crFeed _ _ _ ?_)

theorem keep_crEmitShape {x0 : State} : Shape.Keeps x0 (crEmitShape) := by
  unfold crEmitShape
  unfold engineShape
  unfold Shape.plain
  refine ⟨fun _ _ _ _ _ => ?_, fun _ _ _ _ _ => ?_⟩
  all_goals try dsimp only
  all_goals repeat' (first | with_reducible assumption | with_reducible refine keep_crEmit _ _ _ ?_)

theorem keep_crCloseShape {x0 : State} : Shape.Keeps x0 (crCloseShape) := by
  unfold crCloseShape
  unfold engineShape
  unfold Shape.plain
  refine ⟨fun _ _ _ _ _ => ?_, fun _ _ _ _ _ => ?_⟩
  all_goals try dsimp only
  all_goals repeat' (first | with_reducible assumption | with_reducible refine keep_crClose _ _ ?_)

theorem keep_execCrOpen {x0 : State} (st : StAddr) {s : State} (hk : Kept x0 s) :
    KeptOut x0 (execCrOpen st s) := by
  unfold execCrOpen
  try dsimp only
  repeat' (first | with_reducible exact hk | with_reducible exact keep_crOpenShape | with_reducible refine keep_issueRow _ _ ?_ ?_)

theorem keep_execCrFeed {x0 : State} (st : StAddr) {s : State} (hk : Kept x0 s) :
    KeptOut x0 (execCrFeed st s) := by
  unfold execCrFeed
  try dsimp only
  repeat' (first | with_reducible exact hk | with_reducible exact keep_crFeedShape | with_reducible refine keep_issueRow _ _ ?_ ?_)

theorem keep_execCrEmit {x0 : State} (st : StAddr) {s : State} (hk : Kept x0 s) :
    KeptOut x0 (execCrEmit st s) := by
  unfold execCrEmit
  try dsimp only
  repeat' (first | with_reducible exact hk | with_reducible exact keep_crEmitShape | with_reducible refine keep_issueRow _ _ ?_ ?_)

theorem keep_execCrClose {x0 : State} (st : StAddr) {s : State} (hk : Kept x0 s) :
    KeptOut x0 (execCrClose st s) := by
  unfold execCrClose
  try dsimp only
  repeat' (first | with_reducible exact hk | with_reducible exact keep_crCloseShape | with_reducible refine keep_issueRow _ _ ?_ ?_)

theorem keep_rdLoadShape {x0 : State} : Shape.Keeps x0 (rdLoadShape) := by
  unfold rdLoadShape
  unfold engineShape
  unfold Shape.plain
  refine ⟨fun _ _ _ _ _ => ?_, fun _ _ _ _ _ => ?_⟩
  all_goals try dsimp only
  all_goals repeat' (first | with_reducible assumption | with_reducible refine keep_rdLoad _ _ _ ?_)

theorem keep_rdRunShape {x0 : State} : Shape.Keeps x0 (rdRunShape) := by
  unfold rdRunShape
  unfold engineShape
  unfold Shape.plain
  refine ⟨fun _ _ _ _ _ => ?_, fun _ _ _ _ _ => ?_⟩
  all_goals try dsimp only
  all_goals repeat' (first | with_reducible assumption | with_reducible refine keep_rdRun _ _ _ ?_)

theorem keep_execRdLoad {x0 : State} (st : StAddr) {s : State} (hk : Kept x0 s) :
    KeptOut x0 (execRdLoad st s) := by
  unfold execRdLoad
  try dsimp only
  repeat' (first | with_reducible exact hk | with_reducible exact keep_rdLoadShape | with_reducible refine keep_issueRow _ _ ?_ ?_)

theorem keep_execRdRun {x0 : State} (st : StAddr) {s : State} (hk : Kept x0 s) :
    KeptOut x0 (execRdRun st s) := by
  unfold execRdRun
  try dsimp only
  repeat' (first | with_reducible exact hk | with_reducible exact keep_rdRunShape | with_reducible refine keep_issueRow _ _ ?_ ?_)

theorem keep_walkShape {x0 : State} (mode : Nat) (uses : Word → List Nat) (eff : Nat → Word → Nat → State → Except Nat State) (keff : ∀ a w l t, Kept x0 t → KeptE x0 (eff a w l t)) : Shape.Keeps x0 (walkShape mode uses eff) := by
  unfold walkShape
  dsimp only
  unfold engineShape Shape.plain
  refine ⟨fun _ _ _ _ _ => ?_, fun _ _ _ _ _ => ?_⟩
  all_goals try dsimp only
  all_goals repeat' (first | with_reducible assumption | refine keff _ _ _ _ ?_)

theorem keep_laModeShape {x0 : State} : Shape.Keeps x0 (laModeShape) := by
  unfold laModeShape
  unfold engineShape
  unfold Shape.plain
  refine ⟨fun _ _ _ _ _ => ?_, fun _ _ _ _ _ => ?_⟩
  all_goals try dsimp only
  all_goals repeat' (first | with_reducible assumption | with_reducible refine keep_laMode _ _ _ ?_)

theorem keep_laWalkMapShape {x0 : State} : Shape.Keeps x0 (laWalkMapShape) := by
  unfold laWalkMapShape walkShape
  dsimp only
  unfold engineShape Shape.plain
  refine ⟨fun _ _ _ _ _ => ?_, fun _ _ _ _ _ => ?_⟩
  all_goals try dsimp only
  all_goals repeat' (first | with_reducible assumption | with_reducible refine keep_laMap _ _ _ ?_)

theorem keep_laWalkPassShape {x0 : State} : Shape.Keeps x0 (laWalkPassShape) := by
  unfold laWalkPassShape walkShape
  dsimp only
  unfold engineShape Shape.plain
  refine ⟨fun _ _ _ _ _ => ?_, fun _ _ _ _ _ => ?_⟩
  all_goals try dsimp only
  all_goals repeat' (first | with_reducible assumption | with_reducible refine keep_laPass _ _ _ ?_)

theorem keep_laWalkMergeShape {x0 : State} : Shape.Keeps x0 (laWalkMergeShape) := by
  unfold laWalkMergeShape walkShape
  dsimp only
  unfold engineShape Shape.plain
  refine ⟨fun _ _ _ _ _ => ?_, fun _ _ _ _ _ => ?_⟩
  all_goals try dsimp only
  all_goals repeat' (first | with_reducible assumption | with_reducible refine keep_laMerge _ _ _ ?_)

theorem keep_laWalkSkimShape {x0 : State} : Shape.Keeps x0 (laWalkSkimShape) := by
  unfold laWalkSkimShape walkShape
  dsimp only
  unfold engineShape Shape.plain
  refine ⟨fun _ _ _ _ _ => ?_, fun _ _ _ _ _ => ?_⟩
  all_goals try dsimp only
  all_goals repeat' (first | with_reducible assumption | with_reducible refine keep_laSkim _ _ _ ?_)

theorem keep_execLaMode {x0 : State} (st : StAddr) {s : State} (hk : Kept x0 s) :
    KeptOut x0 (execLaMode st s) := by
  unfold execLaMode
  try dsimp only
  repeat' (first | with_reducible exact hk | with_reducible exact keep_laModeShape | with_reducible refine keep_issueRow _ _ ?_ ?_)

theorem keep_execLaWalkMap {x0 : State} (st : StAddr) {s : State} (hk : Kept x0 s) :
    KeptOut x0 (execLaWalkMap st s) := by
  unfold execLaWalkMap
  try dsimp only
  repeat' (first | with_reducible exact hk | with_reducible exact keep_laWalkMapShape | with_reducible refine keep_issueRow _ _ ?_ ?_)

theorem keep_execLaWalkPass {x0 : State} (st : StAddr) {s : State} (hk : Kept x0 s) :
    KeptOut x0 (execLaWalkPass st s) := by
  unfold execLaWalkPass
  try dsimp only
  repeat' (first | with_reducible exact hk | with_reducible exact keep_laWalkPassShape | with_reducible refine keep_issueRow _ _ ?_ ?_)

theorem keep_execLaWalkMerge {x0 : State} (st : StAddr) {s : State} (hk : Kept x0 s) :
    KeptOut x0 (execLaWalkMerge st s) := by
  unfold execLaWalkMerge
  try dsimp only
  repeat' (first | with_reducible exact hk | with_reducible exact keep_laWalkMergeShape | with_reducible refine keep_issueRow _ _ ?_ ?_)

theorem keep_execLaWalkSkim {x0 : State} (st : StAddr) {s : State} (hk : Kept x0 s) :
    KeptOut x0 (execLaWalkSkim st s) := by
  unfold execLaWalkSkim
  try dsimp only
  repeat' (first | with_reducible exact hk | with_reducible exact keep_laWalkSkimShape | with_reducible refine keep_issueRow _ _ ?_ ?_)

theorem keep_moWloadShape {x0 : State} : Shape.Keeps x0 (moWloadShape) := by
  unfold moWloadShape
  unfold engineShape
  unfold Shape.plain
  refine ⟨fun _ _ _ _ _ => ?_, fun _ _ _ _ _ => ?_⟩
  all_goals try dsimp only
  all_goals repeat' (first | with_reducible assumption | with_reducible refine keep_moWload _ _ _ ?_)

theorem keep_moMacShape {x0 : State} : Shape.Keeps x0 (moMacShape) := by
  unfold moMacShape
  unfold engineShape
  unfold Shape.plain
  refine ⟨fun _ _ _ _ _ => ?_, fun _ _ _ _ _ => ?_⟩
  all_goals try dsimp only
  all_goals repeat' (first | with_reducible assumption | with_reducible refine keep_moMac _ _ _ ?_)

theorem keep_moDrainShape {x0 : State} : Shape.Keeps x0 (moDrainShape) := by
  unfold moDrainShape
  unfold engineShape
  unfold Shape.plain
  refine ⟨fun _ _ _ _ _ => ?_, fun _ _ _ _ _ => ?_⟩
  all_goals try dsimp only
  all_goals repeat' (first | with_reducible assumption | with_reducible refine keep_moDrain _ _ _ ?_)

theorem keep_execMoWload {x0 : State} (st : StAddr) {s : State} (hk : Kept x0 s) :
    KeptOut x0 (execMoWload st s) := by
  unfold execMoWload
  try dsimp only
  repeat' (first | with_reducible exact hk | with_reducible exact keep_moWloadShape | with_reducible refine keep_issueRow _ _ ?_ ?_)

theorem keep_execMoMac {x0 : State} (st : StAddr) {s : State} (hk : Kept x0 s) :
    KeptOut x0 (execMoMac st s) := by
  unfold execMoMac
  try dsimp only
  repeat' (first | with_reducible exact hk | with_reducible exact keep_moMacShape | with_reducible refine keep_issueRow _ _ ?_ ?_)

theorem keep_execMoDrain {x0 : State} (st : StAddr) {s : State} (hk : Kept x0 s) :
    KeptOut x0 (execMoDrain st s) := by
  unfold execMoDrain
  try dsimp only
  repeat' (first | with_reducible exact hk | with_reducible exact keep_moDrainShape | with_reducible refine keep_issueRow _ _ ?_ ?_)

theorem keep_soRunSortShape {x0 : State} : Shape.Keeps x0 (soRunSortShape) := by
  unfold soRunSortShape
  unfold engineShape
  unfold Shape.plain
  refine ⟨fun _ _ _ _ _ => ?_, fun _ _ _ _ _ => ?_⟩
  all_goals try dsimp only
  all_goals repeat' (first | with_reducible assumption | with_reducible refine keep_soRun _ _ _ ?_)

theorem keep_soRunLoadShape {x0 : State} : Shape.Keeps x0 (soRunLoadShape) := by
  unfold soRunLoadShape
  unfold engineShape
  unfold Shape.plain
  refine ⟨fun _ _ _ _ _ => ?_, fun _ _ _ _ _ => ?_⟩
  all_goals try dsimp only
  all_goals repeat' (first | with_reducible assumption | with_reducible refine keep_soRun _ _ _ ?_)

theorem keep_soMergeShape {x0 : State} : Shape.Keeps x0 (soMergeShape) := by
  unfold soMergeShape
  unfold engineShape
  unfold Shape.plain
  refine ⟨fun _ _ _ _ _ => ?_, fun _ _ _ _ _ => ?_⟩
  all_goals try dsimp only
  all_goals repeat' (first | with_reducible assumption | with_reducible refine keep_soMerge _ _ _ ?_)

theorem keep_soTopkShape {x0 : State} : Shape.Keeps x0 (soTopkShape) := by
  unfold soTopkShape
  unfold engineShape
  unfold Shape.plain
  refine ⟨fun _ _ _ _ _ => ?_, fun _ _ _ _ _ => ?_⟩
  all_goals try dsimp only
  all_goals repeat' (first | with_reducible assumption | with_reducible refine keep_soTopk _ _ _ ?_)

theorem keep_soSpillShape {x0 : State} : Shape.Keeps x0 (soSpillShape) := by
  unfold soSpillShape
  unfold engineShape
  unfold Shape.plain
  refine ⟨fun _ _ _ _ _ => ?_, fun _ _ _ _ _ => ?_⟩
  all_goals try dsimp only
  all_goals repeat' (first | with_reducible assumption | with_reducible refine keep_soSpill _ _ _ ?_)

theorem keep_execSoRunSort {x0 : State} (st : StAddr) {s : State} (hk : Kept x0 s) :
    KeptOut x0 (execSoRunSort st s) := by
  unfold execSoRunSort
  try dsimp only
  repeat' (first | with_reducible exact hk | with_reducible exact keep_soRunSortShape | with_reducible refine keep_issueRow _ _ ?_ ?_)

theorem keep_execSoRunLoad {x0 : State} (st : StAddr) {s : State} (hk : Kept x0 s) :
    KeptOut x0 (execSoRunLoad st s) := by
  unfold execSoRunLoad
  try dsimp only
  repeat' (first | with_reducible exact hk | with_reducible exact keep_soRunLoadShape | with_reducible refine keep_issueRow _ _ ?_ ?_)

theorem keep_execSoMerge {x0 : State} (st : StAddr) {s : State} (hk : Kept x0 s) :
    KeptOut x0 (execSoMerge st s) := by
  unfold execSoMerge
  try dsimp only
  repeat' (first | with_reducible exact hk | with_reducible exact keep_soMergeShape | with_reducible refine keep_issueRow _ _ ?_ ?_)

theorem keep_execSoTopk {x0 : State} (st : StAddr) {s : State} (hk : Kept x0 s) :
    KeptOut x0 (execSoTopk st s) := by
  unfold execSoTopk
  try dsimp only
  repeat' (first | with_reducible exact hk | with_reducible exact keep_soTopkShape | with_reducible refine keep_issueRow _ _ ?_ ?_)

theorem keep_execSoSpill {x0 : State} (st : StAddr) {s : State} (hk : Kept x0 s) :
    KeptOut x0 (execSoSpill st s) := by
  unfold execSoSpill
  try dsimp only
  repeat' (first | with_reducible exact hk | with_reducible exact keep_soSpillShape | with_reducible refine keep_issueRow _ _ ?_ ?_)

theorem keep_mrRdShape {x0 : State} : Shape.Keeps x0 (mrRdShape) := by
  unfold mrRdShape
  unfold engineShape
  unfold Shape.plain
  refine ⟨fun _ _ _ _ _ => ?_, fun _ _ _ _ _ => ?_⟩
  all_goals try dsimp only
  all_goals repeat' (first | with_reducible assumption | with_reducible refine keep_mrRd _ _ _ ?_)

theorem keep_mrWrShape {x0 : State} : Shape.Keeps x0 (mrWrShape) := by
  unfold mrWrShape
  unfold engineShape
  unfold Shape.plain
  refine ⟨fun _ _ _ _ _ => ?_, fun _ _ _ _ _ => ?_⟩
  all_goals try dsimp only
  all_goals repeat' (first | with_reducible assumption | with_reducible refine keep_mrWr _ _ _ ?_)

theorem keep_mrGatherShape {x0 : State} : Shape.Keeps x0 (mrGatherShape) := by
  unfold mrGatherShape
  unfold engineShape
  unfold Shape.plain
  refine ⟨fun _ _ _ _ _ => ?_, fun _ _ _ _ _ => ?_⟩
  all_goals try dsimp only
  all_goals repeat' (first | with_reducible assumption | with_reducible refine keep_mrGather _ _ _ ?_)

theorem keep_execMrRd {x0 : State} (st : StAddr) (upsets : List Upset) {s : State} (hk : Kept x0 s) :
    KeptOut x0 (execMrRd st upsets s) := by
  unfold execMrRd
  try dsimp only
  repeat' (first
      | with_reducible exact hk
      | with_reducible exact keep_mrRdShape
      | with_reducible refine keep_issueRow _ _ ?_ ?_
      | with_reducible refine keep_addUpsets _ ?_)

theorem keep_execMrWr {x0 : State} (st : StAddr) {s : State} (hk : Kept x0 s) :
    KeptOut x0 (execMrWr st s) := by
  unfold execMrWr
  try dsimp only
  repeat' (first | with_reducible exact hk | with_reducible exact keep_mrWrShape | with_reducible refine keep_issueRow _ _ ?_ ?_)

theorem keep_execMrGather {x0 : State} (st : StAddr) (upsets : List Upset) {s : State} (hk : Kept x0 s) :
    KeptOut x0 (execMrGather st upsets s) := by
  unfold execMrGather
  try dsimp only
  repeat' (first
      | with_reducible exact hk
      | with_reducible exact keep_mrGatherShape
      | with_reducible refine keep_issueRow _ _ ?_ ?_
      | with_reducible refine keep_addUpsets _ ?_)

theorem keep_piTakeShape {x0 : State} : Shape.Keeps x0 (piTakeShape) := by
  unfold piTakeShape
  unfold engineShape
  unfold Shape.plain
  refine ⟨fun _ _ _ _ _ => ?_, fun _ _ _ _ _ => ?_⟩
  all_goals try dsimp only
  all_goals repeat' (first | with_reducible assumption | with_reducible refine keep_piTake _ _ _ ?_)

theorem keep_peSendShape {x0 : State} : Shape.Keeps x0 (peSendShape) := by
  unfold peSendShape
  unfold engineShape
  unfold Shape.plain
  refine ⟨fun _ _ _ _ _ => ?_, fun _ _ _ _ _ => ?_⟩
  all_goals try dsimp only
  all_goals repeat' (first | with_reducible assumption | with_reducible refine keep_peSend _ _ _ ?_)

theorem keep_execPiTake {x0 : State} (st : StAddr) {s : State} (hk : Kept x0 s) :
    KeptOut x0 (execPiTake st s) := by
  unfold execPiTake
  try dsimp only
  repeat' (first | with_reducible exact hk | with_reducible exact keep_piTakeShape | with_reducible refine keep_issueRow _ _ ?_ ?_)

theorem keep_execPeSend {x0 : State} (st : StAddr) {s : State} (hk : Kept x0 s) :
    KeptOut x0 (execPeSend st s) := by
  unfold execPeSend
  try dsimp only
  repeat' (first | with_reducible exact hk | with_reducible exact keep_peSendShape | with_reducible refine keep_issueRow _ _ ?_ ?_)

theorem keep_shapeAt {x s : State} {a : Nat} {p : Shape} (h : shapeAt s a = some p) : p.Keeps x := by
  have h := List.mem_of_find?_eq_some h
  simp only [commonShapes, kindShapes, List.cons_append, List.nil_append, List.mem_cons, List.not_mem_nil, or_false] at h
  rcases h with rfl | rfl | rfl | rfl | rfl | rfl | rfl | rfl | rfl | rfl | rfl | rfl | rfl | rfl | rfl | rfl | rfl | rfl | rfl | rfl | rfl | rfl | rfl | rfl | rfl | rfl | rfl | rfl | rfl | rfl | rfl | rfl | rfl | rfl | rfl | rfl | rfl | rfl | rfl | rfl | rfl | rfl | rfl | rfl | rfl | rfl | rfl | rfl | rfl | rfl | rfl | rfl | rfl | rfl | rfl | rfl | rfl | rfl | rfl | rfl | rfl | rfl | rfl | rfl
  · exact keep_nopShape
  · exact keep_haltShape
  · exact keep_atShape
  · exact keep_jmpShape
  · exact keep_bnzShape
  · exact keep_bzShape
  · exact keep_loopShape
  · exact keep_liShape
  · exact keep_luiShape
  · exact keep_addShape
  · exact keep_subShape
  · exact keep_andShape
  · exact keep_orShape
  · exact keep_xorShape
  · exact keep_shlShape
  · exact keep_shrShape
  · exact keep_sarShape
  · exact keep_mulShape
  · exact keep_sltShape
  · exact keep_sltuShape
  · exact keep_addiShape
  · exact keep_ldShape
  · exact keep_stShape
  · exact keep_mvShape
  · exact keep_postShape
  · exact keep_rdtShape
  · exact keep_pickShape
  · exact keep_vaddShape
  · exact keep_vsubShape
  · exact keep_vmulShape
  · exact keep_vfmaShape
  · exact keep_vmaxShape
  · exact keep_vminShape
  · exact keep_vselShape
  · exact keep_vcmpShape
  · exact keep_vbcShape
  · exact keep_vsumShape
  · exact keep_vcvtShape
  · exact keep_vldShape
  · exact keep_vstShape
  · exact keep_crOpenShape
  · exact keep_crFeedShape
  · exact keep_crEmitShape
  · exact keep_crCloseShape
  · exact keep_rdLoadShape
  · exact keep_rdRunShape
  · exact keep_laModeShape
  · exact keep_laWalkMapShape
  · exact keep_laWalkPassShape
  · exact keep_laWalkMergeShape
  · exact keep_laWalkSkimShape
  · exact keep_moWloadShape
  · exact keep_moMacShape
  · exact keep_moDrainShape
  · exact keep_soRunSortShape
  · exact keep_soRunLoadShape
  · exact keep_soMergeShape
  · exact keep_soTopkShape
  · exact keep_soSpillShape
  · exact keep_mrRdShape
  · exact keep_mrWrShape
  · exact keep_mrGatherShape
  · exact keep_piTakeShape
  · exact keep_peSendShape

theorem keep_expireWait {x0 : State} (a : ℕ) {s : State} (hk : Kept x0 s) :
    Kept x0 (expireWait a s) := by
  unfold expireWait
  try dsimp only
  repeat' (first
      | with_reducible exact hk
      | with_reducible refine keep_settle _ ?_
      | with_reducible refine keep_issueNow _ _ _ ?_ ?_
      | with_reducible refine keep_shapeAt (by assumption)
      | with_reducible refine keep_ite ?_ ?_
      | split)

theorem keep_execWaitExpired {x0 : State} (st : StAddr) {s : State} (hk : Kept x0 s) :
    KeptOut x0 (execWaitExpired st s) := by
  unfold execWaitExpired
  try dsimp only
  repeat' (first | with_reducible exact hk | with_reducible refine keep_expireWait _ ?_ | with_reducible refine keep_next ?_)

end Sys2Proof.Machine
end

