-- ==== Sys2Proof/Laws/KeptMemory.lean ====
section
/-!
SUPPORT. What every operation keeps (`Kept`): memory requests, deliveries, reception, capture, the pool, the load checks and memory windows.
-/

namespace Sys2Proof.Machine

theorem keep_readLines {x0 : State} (ls : List ℕ) (source : ℕ) {s : State} (hk : Kept x0 s) :
    Kept x0 (readLines ls source s).2 := by
  unfold readLines
  try dsimp only
  repeat' (first
      | with_reducible exact hk
      | with_reducible assumption
      | with_reducible refine keep_readLine _ _ _ ?_
      | with_reducible refine keep_foldl ?_ ?_
      | split
      | intro _)

theorem keep_readSpan {x0 : State} (addr : ℕ) (len : ℕ) (source : ℕ) {s : State} (hk : Kept x0 s) :
    Kept x0 (readSpan addr len source s).2 := by
  unfold readSpan
  try dsimp only
  repeat' (first
      | with_reducible exact hk
      | with_reducible refine keep_readLines _ _ ?_
      | with_reducible refine keep_snd (by assumption) ?_
      | split)

theorem keep_writeSpan {x0 : State} (addr : ℕ) (data : List Byte) (source : ℕ) {s : State} (hk : Kept x0 s) :
    Kept x0 (writeSpan addr data source s).2 := by
  unfold writeSpan
  try dsimp only
  repeat' (first
      | with_reducible exact hk
      | with_reducible assumption
      | with_reducible refine keep_readLines _ _ ?_
      | with_reducible refine keep_writeLine _ _ _ ?_
      | with_reducible refine keep_each ?_ ?_
      | with_reducible refine keep_snd (by assumption) ?_
      | split
      | intro _)

theorem keep_chargeRegulator {x0 : State} (m : MemRequest) {s : State} (hk : Kept x0 s) :
    Kept x0 (chargeRegulator m s) := by
  unfold chargeRegulator
  try dsimp only
  repeat' (first
      | with_reducible exact hk
      | with_reducible refine keep_setMem ?_ ?_
      | with_reducible refine keep_ite ?_ ?_
      | with_reducible exact id)

theorem keep_enqueueRequest {x0 : State} (m : MemRequest) {s : State} (hk : Kept x0 s) :
    Kept x0 (enqueueRequest m s) := by
  unfold enqueueRequest
  try dsimp only
  repeat' (first
      | with_reducible exact hk
      | with_reducible refine keep_chargeRegulator _ ?_
      | with_reducible refine keep_setMem ?_ ?_
      | with_reducible refine keep_ite ?_ ?_
      | with_reducible exact id)

theorem keep_admitWaiting {x0 : State} {s : State} (hk : Kept x0 s) :
    Kept x0 (admitWaiting s) := by
  unfold admitWaiting
  try dsimp only
  repeat' (first
      | with_reducible exact hk
      | with_reducible assumption
      | with_reducible refine keep_setMem ?_ ?_
      | with_reducible refine keep_enqueueRequest _ ?_
      | with_reducible refine keep_each ?_ ?_
      | with_reducible exact id
      | split
      | intro _)

theorem keep_consume {x0 : State} (bay : ℕ) (h : BitVec 256) (owner : Requester) {s : State} (hk : Kept x0 s) :
    Kept x0 (consume bay h owner s) := by
  unfold consume
  try dsimp only
  repeat' (first | with_reducible exact hk | with_reducible refine keep_leaveQueue _ _ ?_ | with_reducible refine keep_ite ?_ ?_)

theorem keep_answerDelivered {x0 : State} (a : ℕ) (k : Packet) (owner : Requester) (status : ℕ) (detail : ℕ) {s : State} (hk : Kept x0 s) :
    Kept x0 (answerDelivered a k owner status detail s) := by
  unfold answerDelivered
  try dsimp only
  repeat' (first
      | with_reducible exact hk
      | with_reducible refine keep_poolPop _ _ ?_
      | with_reducible refine keep_answer _ _ _ _ _ _ _ ?_
      | with_reducible refine keep_ite ?_ ?_)

theorem keep_sendOwn {x0 : State} (a : ℕ) (k : Packet) {s : State} (hk : Kept x0 s) :
    Kept x0 (sendOwn a k s) := by
  unfold sendOwn
  try dsimp only
  repeat' (first
      | with_reducible exact hk
      | with_reducible refine keep_charge _ _ ?_
      | with_reducible refine keep_placeLocal _ _ _ ?_
      | with_reducible refine keep_forwardPacket _ ?_
      | with_reducible refine keep_ite ?_ ?_)

theorem keep_deliverRequest {x0 : State} (k : Packet) (owner : Requester) {s : State} (hk : Kept x0 s) :
    Kept x0 (deliverRequest k owner s) := by
  unfold deliverRequest
  try dsimp only
  repeat' (first
      | with_reducible exact hk
      | with_reducible refine keep_answerDelivered _ _ _ _ _ ?_
      | with_reducible refine keep_enqueueRequest _ ?_
      | split)

theorem keep_noteUnsched {x0 : State} (addr : ℕ) (len : ℕ) {s : State} (hk : Kept x0 s) :
    Kept x0 (noteUnsched addr len s) := by
  unfold noteUnsched
  try dsimp only
  repeat' (first
      | with_reducible exact hk
      | with_reducible assumption
      | with_reducible refine keep_noteAccess _ _ _ ?_
      | with_reducible refine keep_ite ?_ ?_
      | with_reducible refine keep_each ?_ ?_
      | intro _)

theorem keep_writeHostLine {x0 : State} (m : MemRequest) {s : State} (hk : Kept x0 s) :
    Kept x0 (writeHostLine m s).2 := by
  unfold writeHostLine
  try dsimp only
  repeat' (first
      | with_reducible exact hk
      | with_reducible refine keep_writeLine _ _ _ ?_
      | with_reducible refine keep_readLine _ _ _ ?_
      | with_reducible refine keep_snd (by assumption) ?_
      | split)

theorem keep_copyPickups {x0 : State} (hits : ℕ → Bool) {s : State} (hk : Kept x0 s) :
    Kept x0 (copyPickups hits s) := by
  unfold copyPickups
  try dsimp only
  repeat' (first
      | with_reducible exact hk
      | with_reducible assumption
      | with_reducible refine keep_setMem ?_ ?_
      | with_reducible refine keep_each ?_ ?_
      | with_reducible exact id
      | intro _)

theorem keep_performHost {x0 : State} (m : MemRequest) {s : State} (hk : Kept x0 s) :
    Kept x0 (performHost m s) := by
  unfold performHost
  try dsimp only
  repeat' (first
      | with_reducible exact hk
      | with_reducible refine keep_writeHostLine _ ?_
      | with_reducible apply keep_emit
      | with_reducible refine keep_copyPickups _ ?_
      | with_reducible refine keep_readSpan _ _ _ ?_
      | with_reducible refine keep_ite ?_ ?_
      | with_reducible refine keep_snd (by assumption) ?_
      | split)

theorem keep_performPacket {x0 : State} (k : Packet) (m : MemRequest) {s : State} (hk : Kept x0 s) :
    Kept x0 (performPacket k m s) := by
  unfold performPacket
  try dsimp only
  repeat' (first
      | with_reducible exact hk
      | with_reducible refine keep_writeSpan _ _ _ ?_
      | with_reducible refine keep_answerDelivered _ _ _ _ _ ?_
      | with_reducible refine keep_consume _ _ _ ?_
      | with_reducible refine keep_readSpan _ _ _ ?_
      | with_reducible refine keep_sendOwn _ _ ?_
      | with_reducible refine keep_ite ?_ ?_
      | with_reducible refine keep_snd (by assumption) ?_
      | split)

theorem keep_forwardRequest {x0 : State} (m : MemRequest) {s : State} (hk : Kept x0 s) :
    Kept x0 (forwardRequest m s).2 := by
  unfold forwardRequest
  try dsimp only
  repeat' (first
      | with_reducible exact hk
      | with_reducible refine keep_placeLocal _ _ _ ?_
      | with_reducible refine keep_charge _ _ ?_
      | with_reducible refine keep_consume _ _ _ ?_
      | split)

theorem keep_forwardLands {x0 : State} (b : ℕ) (q : QPkt) {s : State} (hk : Kept x0 s) :
    Kept x0 (forwardLands b q s) := by
  unfold forwardLands
  try dsimp only
  repeat' (first
      | with_reducible exact hk
      | with_reducible refine keep_poolPush _ _ ?_
      | with_reducible refine keep_setMem ?_ ?_
      | with_reducible exact id
      | split)

theorem keep_performRequest {x0 : State} (m : MemRequest) {s : State} (hk : Kept x0 s) :
    Kept x0 (performRequest m s) := by
  unfold performRequest
  try dsimp only
  repeat' (first
      | with_reducible exact hk
      | with_reducible refine keep_noteUnsched _ _ ?_
      | with_reducible refine keep_performPacket _ _ ?_
      | with_reducible refine keep_performHost _ ?_
      | split)

theorem keep_forwardAll {x0 : State} (k : ℕ) {s : State} (hk : Kept x0 s) :
    Kept x0 (forwardAll k s) := by
  unfold forwardAll
  try dsimp only
  repeat' (first
      | with_reducible exact hk
      | with_reducible assumption
      | with_reducible refine keep_setMem ?_ ?_
      | with_reducible refine keep_forwardRequest _ ?_
      | with_reducible refine keep_each ?_ ?_
      | with_reducible exact id
      | split
      | intro _)

theorem keep_writeBackLine {x0 : State} (e : ℕ × List Byte) {s : State} (hk : Kept x0 s) :
    Kept x0 (writeBackLine e s) := by
  unfold writeBackLine
  try dsimp only
  repeat' (first
      | with_reducible exact hk
      | with_reducible refine keep_stackCtr _ _ _ _ ?_
      | with_reducible refine keep_writeLine _ _ _ ?_
      | with_reducible refine keep_noteUnsched _ _ ?_)

theorem keep_writeRecord {x0 : State} (r : List Byte) {s : State} (hk : Kept x0 s) :
    Kept x0 (writeRecord r s) := by
  unfold writeRecord
  try dsimp only
  repeat' (first
      | with_reducible exact hk
      | with_reducible refine keep_writeSpan _ _ _ ?_
      | with_reducible refine keep_noteUnsched _ _ ?_
      | with_reducible refine keep_State_setCap _ ?_)

theorem keep_captureFull {x0 : State} {s : State} (hk : Kept x0 s) :
    Kept x0 (captureFull s) := by
  unfold captureFull
  try dsimp only
  repeat' (first
      | with_reducible exact hk
      | with_reducible refine keep_writeRecord _ ?_
      | with_reducible refine keep_State_setCap _ ?_
      | with_reducible refine keep_ite ?_ ?_)

theorem keep_dropCapture {x0 : State} (die : ℕ) (r : List Byte) {s : State} (hk : Kept x0 s) :
    Kept x0 (dropCapture die r s) := by
  unfold dropCapture
  try dsimp only
  repeat' (first | with_reducible exact hk | with_reducible refine keep_State_setCap _ ?_)

theorem keep_captureRecord {x0 : State} (die : ℕ) {s : State} (hk : Kept x0 s) :
    Kept x0 (captureRecord die s) := by
  unfold captureRecord
  try dsimp only
  repeat' (first
      | with_reducible exact hk
      | with_reducible refine keep_captureFull ?_
      | with_reducible refine keep_writeRecord _ ?_
      | with_reducible refine keep_dropCapture _ _ ?_
      | with_reducible refine keep_ite ?_ ?_
      | split)

theorem keep_shakeOne {x0 : State} (x : (ℕ × ℕ) × ℕ) {s : State} (hk : Kept x0 s) :
    Kept x0 (shakeOne x s) := by
  unfold shakeOne
  try dsimp only
  repeat' (first
      | with_reducible exact hk
      | with_reducible refine keep_writeChunk _ _ _ ?_
      | with_reducible refine keep_noteUnsched _ _ ?_
      | with_reducible refine keep_setMem ?_ ?_
      | with_reducible exact id)

theorem keep_unscheduledAccess {x0 : State} (k : ℕ) {s : State} (hk : Kept x0 s) :
    Kept x0 (unscheduledAccess k s) := by
  unfold unscheduledAccess
  try dsimp only
  repeat' (first
      | with_reducible exact hk
      | with_reducible refine keep_writeBackLine _ ?_
      | with_reducible refine keep_captureRecord _ ?_
      | with_reducible refine keep_shakeOne _ ?_
      | with_reducible refine keep_forwardAll _ ?_
      | with_reducible refine keep_performRequest _ ?_
      | with_reducible refine keep_setMem ?_ ?_
      | with_reducible exact id
      | split)

theorem keep_execUnscheduledAccess {x0 : State} (stack : Fin 8) (upsets : List Upset) {s : State} (hk : Kept x0 s) :
    KeptOut x0 (execUnscheduledAccess stack upsets s) := by
  unfold execUnscheduledAccess
  try dsimp only
  repeat' (first
      | with_reducible exact hk
      | with_reducible refine keep_unscheduledAccess _ ?_
      | with_reducible refine keep_addUpsets _ ?_
      | with_reducible refine keep_ite ?_ ?_
      | with_reducible refine keep_next ?_)

theorem keep_execCaptureRecord {x0 : State} (die : Bool) {s : State} (hk : Kept x0 s) :
    KeptOut x0 (execCaptureRecord die s) := by
  unfold execCaptureRecord
  try dsimp only
  repeat' (first
      | with_reducible exact hk
      | with_reducible refine keep_captureRecord _ ?_
      | with_reducible refine keep_ite ?_ ?_
      | with_reducible refine keep_next ?_)

theorem keep_refuseHost {x0 : State} (m : MemRequest) {s : State} (hk : Kept x0 s) :
    Kept x0 (refuseHost m s) := by
  unfold refuseHost
  try dsimp only
  repeat' (first | with_reducible exact hk | with_reducible apply keep_emit | with_reducible refine keep_ite ?_ ?_)

theorem keep_capturePickup {x0 : State} (m : MemRequest) (r : ℕ) {s : State} (hk : Kept x0 s) :
    Kept x0 (capturePickup m r s) := by
  unfold capturePickup
  try dsimp only
  repeat' (first
      | with_reducible exact hk
      | with_reducible assumption
      | with_reducible refine keep_pushCapture _ _ ?_
      | with_reducible refine keep_ite ?_ ?_
      | with_reducible refine keep_each ?_ ?_
      | intro _)

theorem keep_hostRequest {x0 : State} (m : MemRequest) {s : State} (hk : Kept x0 s) :
    Kept x0 (hostRequest m s) := by
  unfold hostRequest
  try dsimp only
  repeat' (first
      | with_reducible exact hk
      | with_reducible refine keep_refuseHost _ ?_
      | with_reducible refine keep_enqueueRequest _ ?_
      | with_reducible refine keep_capturePickup _ _ ?_
      | with_reducible refine keep_performRequest _ ?_
      | with_reducible refine keep_setMem ?_ ?_
      | with_reducible refine keep_ite ?_ ?_
      | with_reducible exact id
      | split)

theorem keep_execCxlMemRead {x0 : State} (addr : Word) (len : ℕ) (upsets : List Upset) {s : State} (hk : Kept x0 s) :
    KeptOut x0 (execCxlMemRead addr len upsets s) := by
  unfold execCxlMemRead
  try dsimp only
  repeat' (first
      | with_reducible exact hk
      | with_reducible refine keep_hostRequest _ ?_
      | with_reducible refine keep_addUpsets _ ?_
      | with_reducible refine keep_ite ?_ ?_
      | with_reducible exact keep_refused
      | with_reducible refine keep_next ?_
      | split)

theorem keep_execCxlMemWrite {x0 : State} (addr : Word) (data : List Byte) (enables : BitVec 64) (upsets : List Upset) {s : State} (hk : Kept x0 s) :
    KeptOut x0 (execCxlMemWrite addr data enables upsets s) := by
  unfold execCxlMemWrite
  try dsimp only
  repeat' (first
      | with_reducible exact hk
      | with_reducible refine keep_hostRequest _ ?_
      | with_reducible refine keep_addUpsets _ ?_
      | with_reducible refine keep_ite ?_ ?_
      | with_reducible exact keep_refused
      | with_reducible refine keep_next ?_
      | split)

theorem keep_takeInbox {x0 : State} (p : ℕ) (type : ℕ) (f : QPkt → State → State) {s : State} (kf : ∀ a0 t, Kept x0 t → Kept x0 (f a0 t)) (hk : Kept x0 s) :
    Kept x0 (takeInbox p type f s) := by
  unfold takeInbox
  try dsimp only
  repeat' (first
      | with_reducible exact hk
      | refine kf _ _ ?_
      | with_reducible refine keep_State_setPort _ _ ?_
      | with_reducible refine keep_ite ?_ ?_
      | split)

theorem keep_lateContrib {x0 : State} (p : ℕ) (h : BitVec 256) {s : State} (hk : Kept x0 s) :
    Kept x0 (lateContrib p h s) := by
  unfold lateContrib
  try dsimp only
  repeat' (first | with_reducible exact hk | with_reducible refine keep_lateArrival _ _ ?_ | with_reducible refine keep_ite ?_ ?_)

theorem keep_deliverScheduled {x0 : State} (p : ℕ) (q : QPkt) {s : State} (hk : Kept x0 s) :
    Kept x0 (deliverScheduled p q s) := by
  unfold deliverScheduled
  try dsimp only
  repeat' (first
      | with_reducible exact hk
      | with_reducible refine keep_dropRemoved _ _ ?_
      | with_reducible refine keep_dropStamp _ ?_
      | with_reducible refine keep_refusePacket _ _ _ ?_
      | with_reducible refine keep_toIngress _ _ _ ?_
      | with_reducible refine keep_lateContrib _ _ ?_
      | with_reducible refine keep_op (by assumption) ?_
      | with_reducible exact keep_none
      | split)

theorem keep_deliverByClass {x0 : State} (p : ℕ) (q : QPkt) {s : State} (hk : Kept x0 s) :
    Kept x0 (deliverByClass p q s) := by
  unfold deliverByClass
  try dsimp only
  repeat' (first
      | with_reducible exact hk
      | with_reducible refine keep_deliverScheduled _ _ ?_
      | with_reducible refine keep_deliverRequest _ _ ?_
      | with_reducible refine keep_ite ?_ ?_)

theorem keep_execWrite {x0 : State} (port : PortNo) {s : State} (hk : Kept x0 s) :
    KeptOut x0 (execWrite port s) := by
  unfold execWrite
  try dsimp only
  repeat' (first
      | with_reducible exact hk
      | with_reducible assumption
      | with_reducible refine keep_takeInbox _ _ _ ?_ ?_
      | with_reducible refine keep_deliverByClass _ _ ?_
      | with_reducible refine keep_next ?_
      | intro _)

theorem keep_execRead {x0 : State} (port : PortNo) {s : State} (hk : Kept x0 s) :
    KeptOut x0 (execRead port s) := by
  unfold execRead
  try dsimp only
  repeat' (first
      | with_reducible exact hk
      | with_reducible assumption
      | with_reducible refine keep_takeInbox _ _ _ ?_ ?_
      | with_reducible refine keep_deliverByClass _ _ ?_
      | with_reducible refine keep_next ?_
      | intro _)

theorem keep_execReadData {x0 : State} (port : PortNo) {s : State} (hk : Kept x0 s) :
    KeptOut x0 (execReadData port s) := by
  unfold execReadData
  try dsimp only
  repeat' (first
      | with_reducible exact hk
      | with_reducible assumption
      | with_reducible refine keep_takeInbox _ _ _ ?_ ?_
      | with_reducible refine keep_deliverByClass _ _ ?_
      | with_reducible refine keep_next ?_
      | intro _)

theorem keep_execContrib {x0 : State} (port : PortNo) {s : State} (hk : Kept x0 s) :
    KeptOut x0 (execContrib port s) := by
  unfold execContrib
  try dsimp only
  repeat' (first
      | with_reducible exact hk
      | with_reducible assumption
      | with_reducible refine keep_takeInbox _ _ _ ?_ ?_
      | with_reducible refine keep_deliverScheduled _ _ ?_
      | with_reducible refine keep_next ?_
      | intro _)

theorem keep_deliverCompletion {x0 : State} (k : Packet) (owner : Requester) {s : State} (hk : Kept x0 s) :
    Kept x0 (deliverCompletion k owner s) := by
  unfold deliverCompletion
  try dsimp only
  repeat' (first
      | with_reducible exact hk
      | with_reducible refine keep_consume _ _ _ ?_
      | with_reducible refine keep_countUnanswered _ ?_
      | with_reducible refine keep_sendSignal _ _ _ _ ?_
      | with_reducible refine keep_State_setStation _ _ ?_
      | with_reducible refine keep_ite ?_ ?_)

theorem keep_execCompletion {x0 : State} (port : PortNo) {s : State} (hk : Kept x0 s) :
    KeptOut x0 (execCompletion port s) := by
  unfold execCompletion
  try dsimp only
  repeat' (first
      | with_reducible exact hk
      | with_reducible assumption
      | with_reducible refine keep_takeInbox _ _ _ ?_ ?_
      | with_reducible refine keep_deliverCompletion _ _ ?_
      | with_reducible refine keep_next ?_
      | intro _)

theorem keep_hear {x0 : State} (q : ℕ) (e : ℕ) {s : State} (hk : Kept x0 s) :
    Kept x0 (hear q e s) := by
  unfold hear
  try dsimp only
  repeat' (first | with_reducible exact hk | with_reducible refine keep_State_setEntry _ _ ?_)

theorem keep_countCommit {x0 : State} (e : ℕ) {s : State} (hk : Kept x0 s) :
    Kept x0 (countCommit e s) := by
  unfold countCommit
  try dsimp only
  repeat' (first | with_reducible exact hk | with_reducible refine keep_State_setEntry _ _ ?_)

theorem keep_entryItem {x0 : State} (p : ℕ) (it : BitVec 128) {s : State} (hk : Kept x0 s) :
    Kept x0 (entryItem p it s) := by
  unfold entryItem
  try dsimp only
  repeat' (first
      | with_reducible exact hk
      | with_reducible assumption
      | with_reducible refine keep_State_setLedger _ ?_
      | with_reducible refine keep_hear _ _ ?_
      | with_reducible refine keep_retractEntries _ _ _ _ _ ?_
      | with_reducible refine keep_countCommit _ ?_
      | with_reducible refine keep_ite ?_ ?_
      | with_reducible refine keep_each ?_ ?_
      | intro _)

theorem keep_heatRetractItem {x0 : State} (p : ℕ) (heat : ℕ) (it : BitVec 128) {s : State} (hk : Kept x0 s) :
    Kept x0 (heatRetractItem p heat it s) := by
  unfold heatRetractItem
  try dsimp only
  repeat' (first
      | with_reducible exact hk
      | with_reducible refine keep_quenchDue _ _ ?_
      | with_reducible refine keep_holdRetracted _ _ _ _ ?_
      | with_reducible refine keep_recordRetract _ _ _ ?_
      | with_reducible refine keep_ite ?_ ?_)

theorem keep_actNotice {x0 : State} (p : ℕ) (k : Packet) {s : State} (hk : Kept x0 s) :
    Kept x0 (actNotice p k s) := by
  unfold actNotice
  try dsimp only
  repeat' (first
      | with_reducible exact hk
      | with_reducible assumption
      | with_reducible refine keep_State_setLedger _ ?_
      | with_reducible refine keep_decide' ?_
      | with_reducible refine keep_entryItem _ _ ?_
      | with_reducible refine keep_heatRetractItem _ _ _ ?_
      | with_reducible refine keep_ite ?_ ?_
      | with_reducible refine keep_each ?_ ?_
      | split
      | intro _)

theorem keep_deliverNotice {x0 : State} (p : ℕ) (q : QPkt) {s : State} (hk : Kept x0 s) :
    Kept x0 (deliverNotice p q s) := by
  unfold deliverNotice
  try dsimp only
  repeat' (first
      | with_reducible exact hk
      | with_reducible refine keep_answerDelivered _ _ _ _ _ ?_
      | with_reducible refine keep_actNotice _ _ ?_
      | with_reducible refine keep_consume _ _ _ ?_
      | with_reducible refine keep_ite ?_ ?_)

theorem keep_execNotice {x0 : State} (port : PortNo) {s : State} (hk : Kept x0 s) :
    KeptOut x0 (execNotice port s) := by
  unfold execNotice
  try dsimp only
  repeat' (first
      | with_reducible exact hk
      | with_reducible assumption
      | with_reducible refine keep_takeInbox _ _ _ ?_ ?_
      | with_reducible refine keep_deliverNotice _ _ ?_
      | with_reducible refine keep_next ?_
      | intro _)

theorem keep_dropNotices {x0 : State} (ns : List PendingNotice) {s : State} (hk : Kept x0 s) :
    Kept x0 (dropNotices ns s) := by
  unfold dropNotices
  try dsimp only
  repeat' (first | with_reducible exact hk | with_reducible refine keep_State_setLedger _ ?_)

theorem keep_sendNotice {x0 : State} (port : ℕ) {s : State} (hk : Kept x0 s) :
    Kept x0 (sendNotice port s) := by
  unfold sendNotice
  try dsimp only
  repeat' (first
      | with_reducible exact hk
      | with_reducible refine keep_enqueueEgress _ _ ?_
      | with_reducible refine keep_dropNotices _ ?_
      | split)

theorem keep_execNoticeSend {x0 : State} (port : PortNo) {s : State} (hk : Kept x0 s) :
    KeptOut x0 (execNoticeSend port s) := by
  unfold execNoticeSend
  try dsimp only
  repeat' (first
      | with_reducible exact hk
      | with_reducible refine keep_sendNotice _ ?_
      | with_reducible refine keep_ite ?_ ?_
      | with_reducible refine keep_next ?_)

theorem keep_deliverOwn {x0 : State} (q : QPkt) {s : State} (hk : Kept x0 s) :
    Kept x0 (deliverOwn q s) := by
  unfold deliverOwn
  try dsimp only
  repeat' (first
      | with_reducible exact hk
      | with_reducible refine keep_poolPush _ _ ?_
      | with_reducible refine keep_deliverCompletion _ _ ?_
      | with_reducible refine keep_deliverRequest _ _ ?_
      | split)

theorem keep_postRelease {x0 : State} (a : ℕ) {s : State} (hk : Kept x0 s) :
    Kept x0 (postRelease a s) := by
  unfold postRelease
  try dsimp only
  repeat' (first
      | with_reducible exact hk
      | with_reducible refine keep_sendSignal _ _ _ _ ?_
      | with_reducible refine keep_State_setStation _ _ ?_
      | with_reducible refine keep_charge _ _ ?_
      | with_reducible refine keep_refusePacket _ _ _ ?_
      | with_reducible refine keep_placeLocal _ _ _ ?_
      | with_reducible refine keep_forwardPacket _ ?_
      | with_reducible refine keep_ite ?_ ?_
      | split)

theorem keep_execPostRelease {x0 : State} (st : StAddr) {s : State} (hk : Kept x0 s) :
    KeptOut x0 (execPostRelease st s) := by
  unfold execPostRelease
  try dsimp only
  repeat' (first
      | with_reducible exact hk
      | with_reducible refine keep_postRelease _ ?_
      | with_reducible refine keep_settle _ ?_
      | with_reducible refine keep_next ?_)

theorem keep_beginPacket {x0 : State} (p : ℕ) (h : BitVec 256) (n : ℕ) (ptp : Bool) (stale : Bool) (dross : Bool) {s : State} (hk : Kept x0 s) :
    Kept x0 (beginPacket p h n ptp stale dross s) := by
  unfold beginPacket
  try dsimp only
  repeat' (first | with_reducible exact hk | with_reducible refine keep_State_setFab _ ?_ | with_reducible refine keep_State_setPort _ _ ?_)

theorem keep_dropDross {x0 : State} (p : ℕ) (r : RxPacket) {s : State} (hk : Kept x0 s) :
    Kept x0 (dropDross p r s) := by
  unfold dropDross
  try dsimp only
  repeat' (first | with_reducible exact hk | with_reducible refine keep_discardRx _ ?_ | with_reducible refine keep_ite ?_ ?_)

theorem keep_noteStamp {x0 : State} (p : ℕ) (r : RxPacket) {s : State} (hk : Kept x0 s) :
    Kept x0 (noteStamp p r s) := by
  unfold noteStamp
  try dsimp only
  repeat' (first | with_reducible exact hk | with_reducible refine keep_State_setFab _ ?_ | with_reducible refine keep_ite ?_ ?_)

theorem keep_startEarly {x0 : State} (p : ℕ) (r : RxPacket) (payload : List Byte) {s : State} (hk : Kept x0 s) :
    Kept x0 (startEarly p r payload s).2 := by
  unfold startEarly
  try dsimp only
  repeat' (first | with_reducible exact hk | with_reducible refine keep_toIngress _ _ _ ?_ | split)

theorem keep_afterHeader {x0 : State} (p : ℕ) (early : List Byte) {s : State} (hk : Kept x0 s) :
    Kept x0 (afterHeader p early s) := by
  unfold afterHeader
  try dsimp only
  repeat' (first
      | with_reducible exact hk
      | with_reducible refine keep_dropDross _ _ ?_
      | with_reducible refine keep_startEarly _ _ _ ?_
      | with_reducible refine keep_noteStamp _ _ ?_
      | with_reducible refine keep_State_setPort _ _ ?_
      | with_reducible refine keep_ite ?_ ?_
      | split)

theorem keep_headerFails {x0 : State} (p : ℕ) (cleared : Bool) {s : State} (hk : Kept x0 s) :
    Kept x0 (headerFails p cleared s) := by
  unfold headerFails
  try dsimp only
  repeat' (first
      | with_reducible exact hk
      | with_reducible refine keep_bumpPort _ _ _ ?_
      | with_reducible refine keep_linkError _ ?_
      | with_reducible refine keep_ite ?_ ?_)

theorem keep_takeHeader {x0 : State} (p : ℕ) (h : BitVec 256) (n : ℕ) (early : List Byte) {s : State} (hk : Kept x0 s) :
    Kept x0 (takeHeader p h n early s) := by
  unfold takeHeader
  try dsimp only
  repeat' (first
      | with_reducible exact hk
      | with_reducible refine keep_police _ _ ?_
      | with_reducible refine keep_afterHeader _ _ ?_
      | with_reducible refine keep_beginPacket _ _ _ _ _ _ ?_
      | with_reducible refine keep_linkError _ ?_
      | with_reducible refine keep_ite ?_ ?_)

theorem keep_execPacketHeader {x0 : State} (port : PortNo) (hdr : HeaderBytes) {s : State} (hk : Kept x0 s) :
    KeptOut x0 (execPacketHeader port hdr s) := by
  unfold execPacketHeader
  try dsimp only
  repeat' (first
      | with_reducible exact hk
      | with_reducible refine keep_State_setPort _ _ ?_
      | with_reducible refine keep_headerFails _ _ ?_
      | with_reducible refine keep_beginPacket _ _ _ _ _ _ ?_
      | with_reducible refine keep_takeHeader _ _ _ _ ?_
      | with_reducible exact keep_refused
      | with_reducible refine keep_next ?_
      | split)

theorem keep_forwardEarly {x0 : State} (p : ℕ) (r : RxPacket) {s : State} (hk : Kept x0 s) :
    Kept x0 (forwardEarly p r s) := by
  unfold forwardEarly
  try dsimp only
  repeat' (first
      | with_reducible exact hk
      | with_reducible refine keep_routePacket _ ?_
      | with_reducible refine keep_charge _ _ ?_
      | with_reducible refine keep_State_setPort _ _ ?_
      | with_reducible refine keep_ite ?_ ?_
      | with_reducible refine keep_snd (by assumption) ?_
      | split)

theorem keep_execPacketForward {x0 : State} (port : PortNo) {s : State} (hk : Kept x0 s) :
    KeptOut x0 (execPacketForward port s) := by
  unfold execPacketForward
  try dsimp only
  repeat' (first
      | with_reducible exact hk
      | with_reducible refine keep_forwardPacket _ ?_
      | with_reducible refine keep_State_setPort _ _ ?_
      | with_reducible refine keep_forwardEarly _ _ ?_
      | with_reducible refine keep_ite ?_ ?_
      | with_reducible refine keep_next ?_
      | split)

theorem keep_failPacket {x0 : State} (p : ℕ) (r : RxPacket) (payload : List Byte) {s : State} (hk : Kept x0 s) :
    Kept x0 (failPacket p r payload s) := by
  unfold failPacket
  try dsimp only
  repeat' (first
      | with_reducible exact hk
      | with_reducible refine keep_markEarly _ ?_
      | with_reducible refine keep_dropStamp _ ?_
      | with_reducible refine keep_takeBack _ _ _ ?_
      | with_reducible refine keep_uncharge _ _ ?_
      | with_reducible refine keep_disown _ ?_
      | with_reducible refine keep_finishCopies _ _ _ ?_
      | with_reducible refine keep_linkError _ ?_
      | with_reducible refine keep_ite ?_ ?_)

theorem keep_acceptSeq {x0 : State} (p : ℕ) (r : RxPacket) {s : State} (hk : Kept x0 s) :
    Kept x0 (acceptSeq p r s) := by
  unfold acceptSeq
  try dsimp only
  repeat' (first | with_reducible exact hk | with_reducible refine keep_State_setPort _ _ ?_)

theorem keep_tapRx {x0 : State} (p : ℕ) (k : Packet) {s : State} (hk : Kept x0 s) :
    Kept x0 (tapRx p k s) := by
  unfold tapRx
  try dsimp only
  repeat' (first | with_reducible exact hk | with_reducible refine keep_tapCopy _ _ _ ?_ | with_reducible refine keep_ite ?_ ?_)

theorem keep_enterPacket {x0 : State} (p : ℕ) (r : RxPacket) (k : Packet) {s : State} (hk : Kept x0 s) :
    Kept x0 (enterPacket p r k s) := by
  unfold enterPacket
  try dsimp only
  repeat' (first
      | with_reducible exact hk
      | with_reducible refine keep_tapRx _ _ ?_
      | with_reducible refine keep_finishCopies _ _ _ ?_
      | with_reducible refine keep_lateContrib _ _ ?_
      | with_reducible refine keep_refusePacket _ _ _ ?_
      | with_reducible refine keep_State_setPort _ _ ?_
      | with_reducible refine keep_charge _ _ ?_
      | with_reducible refine keep_release _ _ ?_
      | with_reducible refine keep_bumpPort _ _ _ ?_
      | with_reducible refine keep_placeLocal _ _ _ ?_
      | with_reducible refine keep_ite ?_ ?_
      | split)

theorem keep_takePacket {x0 : State} (p : ℕ) (r : RxPacket) (k : Packet) {s : State} (hk : Kept x0 s) :
    Kept x0 (takePacket p r k s) := by
  unfold takePacket
  try dsimp only
  repeat' (first
      | with_reducible exact hk
      | with_reducible refine keep_countReplayDrop ?_
      | with_reducible refine keep_State_setPort _ _ ?_
      | with_reducible refine keep_enterPacket _ _ _ ?_
      | with_reducible refine keep_ite ?_ ?_)

theorem keep_takePtp {x0 : State} (p : ℕ) (r : RxPacket) (k : Packet) (ok : Bool) {s : State} (hk : Kept x0 s) :
    Kept x0 (takePtp p r k ok s) := by
  unfold takePtp
  try dsimp only
  repeat' (first
      | with_reducible exact hk
      | with_reducible refine keep_tapRx _ _ ?_
      | with_reducible refine keep_countRx _ _ ?_
      | with_reducible refine keep_bumpPort _ _ _ ?_
      | with_reducible refine keep_ite ?_ ?_)

theorem keep_takeStomped {x0 : State} (p : ℕ) (r : RxPacket) (k : Packet) {s : State} (hk : Kept x0 s) :
    Kept x0 (takeStomped p r k s) := by
  unfold takeStomped
  try dsimp only
  repeat' (first
      | with_reducible exact hk
      | with_reducible refine keep_markEarly _ ?_
      | with_reducible refine keep_dropStamp _ ?_
      | with_reducible refine keep_countRx _ _ ?_
      | with_reducible refine keep_acceptSeq _ _ ?_
      | with_reducible refine keep_bumpPort _ _ _ ?_
      | with_reducible refine keep_finishCopies _ _ _ ?_
      | with_reducible refine keep_discardRx _ ?_
      | with_reducible refine keep_ite ?_ ?_)

theorem keep_endPacket {x0 : State} (p : ℕ) (r : RxPacket) (payload : List Byte) (trailer : Word) (fecBad : Bool) {s : State} (hk : Kept x0 s) :
    Kept x0 (endPacket p r payload trailer fecBad s) := by
  unfold endPacket
  try dsimp only
  repeat' (first
      | with_reducible exact hk
      | with_reducible refine keep_capturePacket _ _ _ ?_
      | with_reducible refine keep_takePtp _ _ _ _ ?_
      | with_reducible refine keep_takePacket _ _ _ ?_
      | with_reducible refine keep_countRx _ _ ?_
      | with_reducible refine keep_acceptSeq _ _ ?_
      | with_reducible refine keep_takeStomped _ _ _ ?_
      | with_reducible refine keep_failPacket _ _ _ ?_
      | with_reducible refine keep_bumpPort _ _ _ ?_
      | with_reducible refine keep_ite ?_ ?_)

theorem keep_countCodewords {x0 : State} (p : ℕ) (corrected : ℕ) (uncorrectable : ℕ) {s : State} (hk : Kept x0 s) :
    Kept x0 (countCodewords p corrected uncorrectable s) := by
  unfold countCodewords
  try dsimp only
  repeat' (first | with_reducible exact hk | with_reducible refine keep_bumpPort _ _ _ ?_)

theorem keep_execPacketTrailer {x0 : State} (port : PortNo) (payload : List Byte) (trailer : Word) (fecCorrected : ℕ) (fecUncorrectable : ℕ) {s : State} (hk : Kept x0 s) :
    KeptOut x0 (execPacketTrailer port payload trailer fecCorrected fecUncorrectable s) := by
  unfold execPacketTrailer
  try dsimp only
  repeat' (first
      | with_reducible exact hk
      | with_reducible refine keep_countCodewords _ _ _ ?_
      | with_reducible refine keep_linkError _ ?_
      | with_reducible refine keep_endPacket _ _ _ _ _ ?_
      | with_reducible refine keep_State_setPort _ _ ?_
      | with_reducible refine keep_ite ?_ ?_
      | with_reducible exact keep_refused
      | with_reducible refine keep_next ?_
      | split)

theorem keep_recordEnd {x0 : State} (p : ℕ) (r : CapRec) (rx : RxPacket) (k : Packet) {s : State} (hk : Kept x0 s) :
    Kept x0 (recordEnd p r rx k s) := by
  unfold recordEnd
  try dsimp only
  repeat' (first
      | with_reducible exact hk
      | with_reducible refine keep_takePtp _ _ _ _ ?_
      | with_reducible refine keep_markEarly _ ?_
      | with_reducible refine keep_dropStamp _ ?_
      | with_reducible refine keep_countRx _ _ ?_
      | with_reducible refine keep_bumpPort _ _ _ ?_
      | with_reducible refine keep_enterPacket _ _ _ ?_
      | with_reducible refine keep_ite ?_ ?_)

theorem keep_replayPacket {x0 : State} (r : CapRec) {s : State} (hk : Kept x0 s) :
    Kept x0 (replayPacket r s) := by
  unfold replayPacket
  try dsimp only
  repeat' (first
      | with_reducible exact hk
      | with_reducible refine keep_countReplayDrop ?_
      | with_reducible refine keep_police _ _ ?_
      | with_reducible refine keep_noteStamp _ _ ?_
      | with_reducible refine keep_State_setFab _ ?_
      | with_reducible refine keep_startEarly _ _ _ ?_
      | with_reducible refine keep_recordEnd _ _ _ _ ?_
      | with_reducible refine keep_ite ?_ ?_
      | split)

theorem keep_replayHeat {x0 : State} {s : State} (hk : Kept x0 s) :
    Kept x0 (replayHeat s) := by
  unfold replayHeat
  try dsimp only
  repeat' (first | with_reducible exact hk | with_reducible refine keep_State_setCap _ ?_)

theorem keep_replayPickup {x0 : State} (r : CapRec) {s : State} (hk : Kept x0 s) :
    Kept x0 (replayPickup r s) := by
  unfold replayPickup
  try dsimp only
  repeat' (first
      | with_reducible exact hk
      | with_reducible refine keep_copyPickups _ ?_
      | with_reducible refine keep_writeSpan _ _ _ ?_
      | with_reducible refine keep_countReplayDrop ?_
      | with_reducible refine keep_ite ?_ ?_)

theorem keep_endReplay {x0 : State} {s : State} (hk : Kept x0 s) :
    Kept x0 (endReplay s) := by
  unfold endReplay
  try dsimp only
  repeat' (first | with_reducible exact hk | with_reducible refine keep_quenchDue _ _ ?_ | with_reducible refine keep_State_setCap _ ?_)

theorem keep_replayRecord {x0 : State} {s : State} (hk : Kept x0 s) :
    Kept x0 (replayRecord s) := by
  have hr (r : CapRec) (t : State) (h : Kept x0 t) :
      Kept x0 (match r.kind with | 1 => replayPacket r t | 2 => replayPickup r t | _ => replayHeat t) := by
    split
    · exact keep_replayPacket _ h
    · exact keep_replayPickup _ h
    · exact keep_replayHeat h
  unfold replayRecord
  refine keep_ite hk ?_
  generalize nextRecord s = o
  cases o with
  | none => exact keep_endReplay hk
  | some r =>
    dsimp only
    exact keep_ite hk (keep_ite (keep_endReplay hk) (hr r _ (keep_State_setCap _ hk)))

theorem keep_execReplayRecord {x0 : State} {s : State} (hk : Kept x0 s) :
    KeptOut x0 (execReplayRecord s) := by
  unfold execReplayRecord
  try dsimp only
  repeat' (first | with_reducible exact hk | with_reducible refine keep_replayRecord ?_ | with_reducible refine keep_next ?_)

theorem keep_joinCross {x0 : State} (out : ℕ) (q : QPkt) (input : ℕ) (t : ℕ) {s : State} (hk : Kept x0 s) :
    Kept x0 (joinCross out q input t s) := by
  unfold joinCross
  try dsimp only
  repeat' (first | with_reducible exact hk | with_reducible refine keep_State_setFab _ ?_)

theorem keep_joinTransit {x0 : State} (key : ℕ) (q : QPkt) (t : ℕ) {s : State} (hk : Kept x0 s) :
    Kept x0 (joinTransit key q t s) := by
  unfold joinTransit
  try dsimp only
  repeat' (first | with_reducible exact hk | with_reducible refine keep_State_setStop _ _ ?_)

theorem keep_arriveStop {x0 : State} (ring : ℕ) (dir : ℕ) (bay : ℕ) (q : QPkt) (t : ℕ) {s : State} (hk : Kept x0 s) :
    Kept x0 (arriveStop ring dir bay q t s) := by
  unfold arriveStop
  try dsimp only
  repeat' (first
      | with_reducible exact hk
      | with_reducible assumption
      | with_reducible refine keep_joinCross _ _ _ _ ?_
      | with_reducible refine keep_joinTransit _ _ _ ?_
      | with_reducible refine keep_ite ?_ ?_
      | with_reducible refine keep_each ?_ ?_
      | intro _)

theorem keep_takeSlot {x0 : State} (key : ℕ) {s : State} (hk : Kept x0 s) :
    Kept x0 (takeSlot key s) := by
  unfold takeSlot
  try dsimp only
  repeat' (first | with_reducible exact hk | with_reducible refine keep_State_setStop _ _ ?_)

theorem keep_sendSlot {x0 : State} (ring : ℕ) (dir : ℕ) (bay : ℕ) (r : RingPkt) {s : State} (hk : Kept x0 s) :
    Kept x0 (sendSlot ring dir bay r s) := by
  unfold sendSlot
  try dsimp only
  repeat' (first
      | with_reducible exact hk
      | with_reducible refine keep_takeSlot _ ?_
      | with_reducible refine keep_State_setStop _ _ ?_
      | with_reducible refine keep_arriveStop _ _ _ _ _ ?_)

theorem keep_moveTransit {x0 : State} (key : ℕ) {s : State} (hk : Kept x0 s) :
    Kept x0 (moveTransit key s) := by
  unfold moveTransit
  try dsimp only
  repeat' (first | with_reducible exact hk | with_reducible refine keep_sendSlot _ _ _ _ ?_ | with_reducible refine keep_ite ?_ ?_ | split)

theorem keep_moveRings {x0 : State} {s : State} (hk : Kept x0 s) :
    Kept x0 (moveRings s) := by
  unfold moveRings
  try dsimp only
  repeat' (first
      | with_reducible exact hk
      | with_reducible assumption
      | with_reducible refine keep_moveTransit _ ?_
      | with_reducible refine keep_State_setFab _ ?_
      | with_reducible refine keep_each ?_ ?_
      | intro _)

theorem keep_startPacket {x0 : State} (ring : ℕ) (dir : ℕ) (bay : ℕ) (q : QPkt) {s : State} (hk : Kept x0 s) :
    Kept x0 (startPacket ring dir bay q s) := by
  unfold startPacket
  try dsimp only
  repeat' (first
      | with_reducible exact hk
      | with_reducible refine keep_sendSlot _ _ _ _ ?_
      | with_reducible refine keep_State_setStop _ _ ?_)

theorem keep_ringEntry {x0 : State} (ring : ℕ) (dir : ℕ) (bay : ℕ) {s : State} (hk : Kept x0 s) :
    Kept x0 (ringEntry ring dir bay s) := by
  unfold ringEntry
  try dsimp only
  repeat' (first
      | with_reducible exact hk
      | with_reducible refine keep_startPacket _ _ _ _ ?_
      | with_reducible refine keep_ite ?_ ?_
      | split)

theorem keep_execRingEntry {x0 : State} (ring : Fin 8) (ccw : Bool) (bay : Fin 16) {s : State} (hk : Kept x0 s) :
    KeptOut x0 (execRingEntry ring ccw bay s) := by
  unfold execRingEntry
  try dsimp only
  repeat' (first
      | with_reducible exact hk
      | with_reducible refine keep_ringEntry _ _ _ ?_
      | with_reducible refine keep_ite ?_ ?_
      | with_reducible refine keep_next ?_)

theorem keep_queueRelease {x0 : State} (key : ℕ) {s : State} (hk : Kept x0 s) :
    Kept x0 (queueRelease key s) := by
  unfold queueRelease
  try dsimp only
  repeat' (first
      | with_reducible exact hk
      | with_reducible refine keep_release _ _ ?_
      | with_reducible refine keep_poolPop _ _ ?_
      | with_reducible refine keep_State_setFab _ ?_
      | split)

theorem keep_execQueueRelease {x0 : State} (q : PoolQueue) {s : State} (hk : Kept x0 s) :
    KeptOut x0 (execQueueRelease q s) := by
  unfold execQueueRelease
  try dsimp only
  repeat' (first | with_reducible exact hk | with_reducible refine keep_queueRelease _ ?_ | with_reducible refine keep_next ?_)

theorem keep_execFlowletSweep {x0 : State} {s : State} (hk : Kept x0 s) :
    KeptOut x0 (execFlowletSweep s) := by
  unfold execFlowletSweep
  try dsimp only
  repeat' (first
      | with_reducible exact hk
      | with_reducible refine keep_State_setFab _ ?_
      | with_reducible refine keep_ite ?_ ?_
      | with_reducible refine keep_next ?_)

theorem keep_candidate {x0 : State} (xs : List Section) {s : State} (hk : Kept x0 s) :
    Kept x0 (candidate xs s) := by
  unfold candidate
  try dsimp only
  repeat' (first
      | with_reducible exact hk
      | with_reducible exact id
      | with_reducible exact FuseKept.refl _
      | with_reducible refine keep_mk ?_ ?_ ?_)

theorem keep_scrubLine {x0 : State} (addr : ℕ) {s : State} (hk : Kept x0 s) :
    Kept x0 (scrubLine addr s) := by
  unfold scrubLine
  try dsimp only
  repeat' (first
      | with_reducible exact hk
      | with_reducible refine keep_readLine _ _ _ ?_
      | with_reducible refine keep_setMem ?_ ?_
      | with_reducible exact id
      | with_reducible refine keep_snd (by assumption) ?_
      | split)

theorem keep_readChunk {x0 : State} (ls : List ℕ) (c : ℕ) (last : ℕ) {s : State} (hk : Kept x0 s) :
    Kept x0 (readChunk ls c last s).2 := by
  unfold readChunk
  try dsimp only
  repeat' (first
      | with_reducible exact hk
      | with_reducible assumption
      | with_reducible refine keep_scrubLine _ ?_
      | with_reducible refine keep_noteAccess _ _ _ ?_
      | with_reducible refine keep_each ?_ ?_
      | split
      | intro _)

theorem keep_scrubRun {x0 : State} (k : ℕ) (ch : ℕ) (n : ℕ) (last : ℕ) (v4 : ℕ) (v5 : ℕ) {v6 : State} (hk : Kept x0 v6) :
    Kept x0 (scrubRun k ch n last v4 v5 v6) := by
  induction v4 generalizing k ch n last v5 v6 with
  | zero =>
    unfold scrubRun
    try dsimp only
    repeat' (first | with_reducible exact hk)
  | succ _ ih =>
    unfold scrubRun
    try dsimp only
    repeat' (first
        | with_reducible exact hk
        | with_reducible apply ih
        | with_reducible refine keep_readChunk _ _ _ ?_
        | with_reducible refine keep_State_setStack _ _ ?_
        | with_reducible refine keep_snd (by assumption) ?_
        | split)

theorem keep_rereads {x0 : State} (last : ℕ) (v1 : List (List ℕ)) (v2 : ℕ) {v3 : State} (hk : Kept x0 v3) :
    Kept x0 (rereads last v1 v2 v3).2 := by
  induction v1 generalizing last v2 v3 with
  | nil =>
    unfold rereads
    try dsimp only
    repeat' (first | with_reducible exact hk)
  | cons _ _ ih =>
    unfold rereads
    try dsimp only
    repeat' (first
        | with_reducible exact hk
        | with_reducible apply ih
        | with_reducible refine keep_readChunk _ _ _ ?_
        | with_reducible refine keep_snd (by assumption) ?_
        | split)

theorem keep_scrubChannel {x0 : State} (k : ℕ) (n : ℕ) (last : ℕ) (ch : ℕ) {s : State} (hk : Kept x0 s) :
    Kept x0 (scrubChannel k n last ch s) := by
  unfold scrubChannel
  try dsimp only
  repeat' (first
      | with_reducible exact hk
      | with_reducible refine keep_rereads _ _ _ ?_
      | with_reducible refine keep_scrubRun _ _ _ _ _ _ ?_)

theorem keep_refreshWindow {x0 : State} (k : ℕ) (n : ℕ) (more : ℕ) {s : State} (hk : Kept x0 s) :
    Kept x0 (refreshWindow k n more s) := by
  unfold refreshWindow
  try dsimp only
  repeat' (first
      | with_reducible exact hk
      | with_reducible assumption
      | with_reducible refine keep_scrubChannel _ _ _ _ ?_
      | with_reducible refine keep_stackCtr _ _ _ _ ?_
      | with_reducible refine keep_refreshBanks _ _ _ ?_
      | with_reducible refine keep_State_setStack _ _ ?_
      | with_reducible refine keep_each ?_ ?_
      | intro _)

theorem keep_execRefreshWindow {x0 : State} (stack : Fin 8) (due : ℕ) (upsets : List Upset) {s : State} (hk : Kept x0 s) :
    KeptOut x0 (execRefreshWindow stack due upsets s) := by
  unfold execRefreshWindow
  try dsimp only
  repeat' (first
      | with_reducible exact hk
      | with_reducible assumption
      | with_reducible refine keep_addUpsets _ ?_
      | with_reducible refine keep_refreshBanks _ _ _ ?_
      | with_reducible refine keep_State_setStack _ _ ?_
      | with_reducible refine keep_refreshWindow _ _ _ ?_
      | with_reducible refine keep_ite ?_ ?_
      | with_reducible refine keep_each ?_ ?_
      | with_reducible refine keep_next ?_
      | split
      | intro _)

theorem keep_poolFault {x0 : State} (unit : ℕ) {s : State} (hk : Kept x0 s) :
    Kept x0 (poolFault unit s) := by
  unfold poolFault
  try dsimp only
  repeat' (first | with_reducible exact hk | with_reducible refine keep_quenchDue _ _ ?_)

theorem keep_notePool {x0 : State} (addr : ℕ) (j : ℕ) {s : State} (hk : Kept x0 s) :
    Kept x0 (notePool addr j s) := by
  unfold notePool
  try dsimp only
  repeat' (first | with_reducible exact hk | with_reducible refine keep_noteAccess _ _ _ ?_)

theorem keep_pointersOut {x0 : State} (v0 : ℕ) (v1 : ℕ) (v2 : ℕ) {v3 : State} (hk : Kept x0 v3) :
    Kept x0 (pointersOut v0 v1 v2 v3) := by
  induction v0 generalizing v1 v2 v3 with
  | zero =>
    unfold pointersOut
    try dsimp only
    repeat' (first | with_reducible exact hk)
  | succ _ ih =>
    unfold pointersOut
    try dsimp only
    repeat' (first
        | with_reducible exact hk
        | with_reducible apply ih
        | with_reducible refine keep_notePool _ _ ?_
        | with_reducible refine keep_poolFault _ ?_
        | with_reducible refine keep_State_setFab _ ?_
        | with_reducible refine keep_writeSpan _ _ _ ?_
        | with_reducible refine keep_ite ?_ ?_
        | with_reducible refine keep_snd (by assumption) ?_
        | split)

theorem keep_pointerIn {x0 : State} (d : List Byte) {s : State} (hk : Kept x0 s) :
    Kept x0 (pointerIn d s) := by
  unfold pointerIn
  try dsimp only
  repeat' (first
      | with_reducible exact hk
      | with_reducible refine keep_State_setFab _ ?_
      | with_reducible refine keep_poolFault _ ?_
      | with_reducible refine keep_ite ?_ ?_)

theorem keep_pointersIn {x0 : State} (v0 : ℕ) (v1 : ℕ) (v2 : ℕ) {v3 : State} (hk : Kept x0 v3) :
    Kept x0 (pointersIn v0 v1 v2 v3) := by
  induction v0 generalizing v1 v2 v3 with
  | zero =>
    unfold pointersIn
    try dsimp only
    repeat' (first | with_reducible exact hk)
  | succ _ ih =>
    unfold pointersIn
    try dsimp only
    repeat' (first
        | with_reducible exact hk
        | with_reducible assumption
        | with_reducible apply ih
        | with_reducible refine keep_notePool _ _ ?_
        | with_reducible refine keep_poolFault _ ?_
        | with_reducible refine keep_State_setFab _ ?_
        | with_reducible refine keep_readLine _ _ _ ?_
        | with_reducible refine keep_pointerIn _ ?_
        | with_reducible refine keep_ite ?_ ?_
        | with_reducible refine keep_each ?_ ?_
        | with_reducible refine keep_snd (by assumption) ?_
        | split
        | intro _)

theorem keep_poolWindow {x0 : State} {s : State} (hk : Kept x0 s) :
    Kept x0 (poolWindow s) := by
  unfold poolWindow
  try dsimp only
  repeat' (first
      | with_reducible exact hk
      | with_reducible refine keep_pointersOut _ _ _ ?_
      | with_reducible refine keep_pointersIn _ _ _ ?_
      | with_reducible refine keep_ite ?_ ?_)

theorem keep_execPoolWindow {x0 : State} (upsets : List Upset) {s : State} (hk : Kept x0 s) :
    KeptOut x0 (execPoolWindow upsets s) := by
  unfold execPoolWindow
  try dsimp only
  repeat' (first
      | with_reducible exact hk
      | with_reducible refine keep_poolWindow ?_
      | with_reducible refine keep_addUpsets _ ?_
      | with_reducible refine keep_ite ?_ ?_
      | with_reducible refine keep_next ?_)

end Sys2Proof.Machine
end

