-- ==== Sys2Proof/Laws/KeptModule.lean ====
section
/-!
SUPPORT. What every operation keeps (`Kept`): fuses, power, the chain, jobs, start-up, register access and boundaries.
-/

namespace Sys2Proof.Machine

theorem fuseStatus_zero {setting own : Nat} {s : State} (h : fuseStatus setting own s = 0) :
    own = 0 ∧ exhausted s setting = false ∧ s.fuse.records.length < 96 := by
  unfold fuseStatus at h
  split at h
  · exact absurd h (by decide)
  · by_cases ho : own = 0
    · rw [if_neg (not_not.2 ho)] at h
      split at h
      · exact absurd h (by decide)
      · split at h
        · exact absurd h (by decide)
        · exact ⟨ho, by simpa using ‹¬exhausted s setting = true›, by omega⟩
    · rw [if_pos ho] at h; exact absurd h ho

theorem keep_openChange {x0 : State} (setting newV : ℕ) (byChain : Bool) {s : State} (hr : s.fuse.records.length < 96 ∧ s.fuse.room (newRecord setting newV s)) (hk : Kept x0 s) :
    Kept x0 (openChange setting newV byChain s) :=
  keep_setFuse (fun h => ⟨⟨h.1, h.2.1, h.2.2.1, h.2.2.2.1, fun r e => by cases e; exact hr⟩,
    rfl, rfl, rfl, le_rfl, fun _ => rfl, id, le_rfl, le_rfl, List.prefix_rfl⟩) hk

theorem keep_stopInjection {x0 : State} {s : State} (hk : Kept x0 s) :
    Kept x0 (stopInjection s) := by
  unfold stopInjection
  try dsimp only
  repeat' (first
      | with_reducible exact hk
      | with_reducible exact id
      | with_reducible exact FuseKept.refl _
      | with_reducible refine keep_mk ?_ ?_ ?_)

theorem blow_keeps {x0 : State} (r : FuseRecord) {s : State} (hr : s.fuse.opened = some r) (hk : Kept x0 s) (b : Bool) :
    Kept x0 ((blow r s).setFuse fun f => { f with opened := none, busy := b, records := f.records ++ [r] }) := by
  refine ⟨?_, ?_, hk.3.trans fun h => ?_, fun q => ?_⟩
  · refine Eq.trans ?_ hk.1; unfold blow; split <;> rfl
  · refine Eq.trans ?_ hk.2; unfold blow; split <;> rfl
  · have hl := (h.2.2.2.2 r hr).1
    have hroom := (h.2.2.2.2 r hr).2
    have hp : s.fuse.records <+: s.fuse.records ++ [r] := List.prefix_append _ _
    obtain ⟨h1, h2, h3, h4, -⟩ := h
    unfold Fuse.room at hroom
    unfold blow
    split <;> simp only [*] at hroom
    · exact ⟨⟨hroom.2, h2, h3, by simpa [State.setFuse] using hl, fun r e => nomatch e⟩,
        rfl, rfl, rfl, hroom.1.le, fun _ => rfl, id, le_rfl, le_rfl, hp⟩
    · exact ⟨⟨h1, h2, h3, by simpa [State.setFuse] using hl, fun r e => nomatch e⟩,
        rfl, rfl, rfl, le_rfl, fun l => absurd hroom.1 l, id, le_rfl, le_rfl, hp⟩
    · exact ⟨⟨h1, h2, h3, by simpa [State.setFuse, stopInjection] using hl, fun r e => nomatch e⟩,
        rfl, rfl, rfl, le_rfl, fun _ => rfl, fun _ => rfl, le_rfl, le_rfl, hp⟩
    · exact ⟨⟨h1, by simpa [State.setFuse] using hroom.1, h3, by simpa [State.setFuse] using hl, fun r e => nomatch e⟩,
        rfl, rfl, rfl, le_rfl, fun _ => rfl, id, Nat.le_succ _, le_rfl, hp⟩
    · exact ⟨⟨h1, h2, by simpa [State.setFuse, State.setChain] using hroom, by simpa [State.setFuse, State.setChain] using hl, fun r e => nomatch e⟩,
        rfl, rfl, rfl, le_rfl, fun _ => rfl, id, le_rfl, Nat.le_succ _, hp⟩
  · have := hk.4 q
    unfold blow; split <;> exact this

theorem keep_closeChange {x0 : State} (blown : Bool) {s : State} (hk : Kept x0 s) :
    Kept x0 (closeChange blown s) := by
  unfold closeChange
  split
  · exact hk
  · next r e =>
    refine keep_State_setHost _ ?_
    cases blown with
    | true => exact blow_keeps r e hk false
    | false =>
      exact keep_setFuse (fun h => ⟨⟨h.1, h.2.1, h.2.2.1, by simpa using (h.2.2.2.2 r e).1, fun r e => nomatch e⟩,
        rfl, rfl, rfl, le_rfl, fun _ => rfl, id, le_rfl, le_rfl, List.prefix_append _ _⟩) hk

theorem keep_standbyUp {x0 : State} (mv : ℕ) {s : State} (hk : Kept x0 s) :
    Kept x0 (standbyUp mv s) := by
  unfold standbyUp
  try dsimp only
  repeat' (first
      | with_reducible exact hk
      | with_reducible refine keep_presentFrame ?_
      | with_reducible refine keep_setVin _ ?_
      | with_reducible refine keep_clearMain ?_
      | with_reducible exact id
      | with_reducible exact keep_part
      | with_reducible refine keep_mk ?_ ?_ ?_)

theorem keep_execStandbyStart {x0 : State} (mv : ℕ) {s : State} (hk : Kept x0 s) :
    KeptOut x0 (execStandbyStart mv s) := by
  unfold execStandbyStart
  try dsimp only
  repeat' (first
      | with_reducible exact hk
      | with_reducible refine keep_standbyUp _ ?_
      | with_reducible refine keep_ite ?_ ?_
      | with_reducible refine keep_next ?_)

theorem keep_execInputDip {x0 : State} {s : State} (hk : Kept x0 s) :
    KeptOut x0 (execInputDip s) := by
  unfold execInputDip
  try dsimp only
  repeat' (first
      | with_reducible exact hk
      | with_reducible refine keep_ite ?_ ?_
      | with_reducible exact id
      | with_reducible exact FuseKept.refl _
      | with_reducible refine keep_next ?_
      | with_reducible refine keep_mk ?_ ?_ ?_)

theorem keep_execInputLow {x0 : State} (mv : ℕ) {s : State} (hk : Kept x0 s) :
    KeptOut x0 (execInputLow mv s) := by
  unfold execInputLow
  try dsimp only
  repeat' (first
      | with_reducible exact hk
      | with_reducible refine keep_turnOff _ ?_
      | with_reducible refine keep_setVin _ ?_
      | with_reducible refine keep_ite ?_ ?_
      | with_reducible refine keep_next ?_)

theorem keep_execInputHigh {x0 : State} (mv : ℕ) {s : State} (hk : Kept x0 s) :
    KeptOut x0 (execInputHigh mv s) := by
  unfold execInputHigh
  try dsimp only
  repeat' (first
      | with_reducible exact hk
      | with_reducible refine keep_turnOff _ ?_
      | with_reducible refine keep_setVin _ ?_
      | with_reducible refine keep_ite ?_ ?_
      | with_reducible refine keep_next ?_)

theorem keep_execOvercurrent {x0 : State} {s : State} (hk : Kept x0 s) :
    KeptOut x0 (execOvercurrent s) := by
  unfold execOvercurrent
  try dsimp only
  repeat' (first | with_reducible exact hk | with_reducible refine keep_turnOff _ ?_ | with_reducible refine keep_next ?_)

theorem keep_execPresence {x0 : State} {s : State} (hk : Kept x0 s) :
    KeptOut x0 (execPresence s) := by
  unfold execPresence
  try dsimp only
  repeat' (first
      | with_reducible exact hk
      | with_reducible refine keep_turnOff _ ?_
      | with_reducible refine keep_State_setPwr _ ?_
      | with_reducible refine keep_next ?_)

theorem keep_execPresenceStable {x0 : State} {s : State} (hk : Kept x0 s) :
    KeptOut x0 (execPresenceStable s) := by
  unfold execPresenceStable
  try dsimp only
  repeat' (first
      | with_reducible exact hk
      | with_reducible refine keep_State_setPwr _ ?_
      | with_reducible refine keep_ite ?_ ?_
      | with_reducible refine keep_next ?_)

theorem keep_execModResetN {x0 : State} {s : State} (hk : Kept x0 s) :
    KeptOut x0 (execModResetN s) := by
  unfold execModResetN
  try dsimp only
  repeat' (first
      | with_reducible exact hk
      | with_reducible refine keep_clearPower ?_
      | with_reducible refine keep_clearMain ?_
      | with_reducible refine keep_turnOff _ ?_
      | with_reducible refine keep_ite ?_ ?_
      | with_reducible refine keep_next ?_)

theorem keep_execExtendedRange {x0 : State} (mv : ℕ) {s : State} (hk : Kept x0 s) :
    KeptOut x0 (execExtendedRange mv s) := by
  unfold execExtendedRange
  try dsimp only
  repeat' (first
      | with_reducible exact hk
      | with_reducible refine keep_setVin _ ?_
      | with_reducible refine keep_ite ?_ ?_
      | with_reducible refine keep_next ?_)

theorem keep_execStandbyStop {x0 : State} {s : State} (hk : Kept x0 s) :
    KeptOut x0 (execStandbyStop s) := by
  unfold execStandbyStop
  try dsimp only
  repeat' (first
      | with_reducible exact hk
      | with_reducible refine keep_turnOff _ ?_
      | with_reducible refine keep_ite ?_ ?_
      | with_reducible exact id
      | with_reducible exact FuseKept.busy
      | with_reducible refine keep_next ?_
      | with_reducible refine keep_mk ?_ ?_ ?_)

theorem keep_showSample {x0 : State} (rs : List (ℕ × ℤ)) {s : State} (hk : Kept x0 s) :
    Kept x0 (showSample rs s) := by
  unfold showSample
  try dsimp only
  repeat' (first | with_reducible exact hk | with_reducible refine keep_State_setPwr _ ?_)

theorem keep_takeTrip {x0 : State} (rs : List (ℕ × ℤ)) {s : State} (hk : Kept x0 s) :
    Kept x0 (takeTrip rs s) := by
  unfold takeTrip
  try dsimp only
  repeat' (first
      | with_reducible exact hk
      | with_reducible refine keep_State_setPwr _ ?_
      | with_reducible refine keep_quenchDue _ _ ?_
      | with_reducible refine keep_ite ?_ ?_
      | split)

theorem keep_execSensorSample {x0 : State} (temps : List ℤ) {s : State} (hk : Kept x0 s) :
    KeptOut x0 (execSensorSample temps s) := by
  unfold execSensorSample
  try dsimp only
  repeat' (first
      | with_reducible exact hk
      | with_reducible refine keep_turnOff _ ?_
      | with_reducible refine keep_showSample _ ?_
      | with_reducible refine keep_takeTrip _ ?_
      | with_reducible refine keep_ite ?_ ?_
      | with_reducible exact keep_refused
      | with_reducible refine keep_next ?_
      | split)

theorem keep_healthSecond {x0 : State} (r : SecondReadings) {s : State} (hk : Kept x0 s) :
    Kept x0 (healthSecond r s) := by
  unfold healthSecond
  try dsimp only
  repeat' (first | with_reducible exact hk | with_reducible refine keep_State_setPwr _ ?_)

theorem keep_execAveragingSecond {x0 : State} (r : SecondReadings) {s : State} (hk : Kept x0 s) :
    KeptOut x0 (execAveragingSecond r s) := by
  unfold execAveragingSecond
  try dsimp only
  repeat' (first
      | with_reducible exact hk
      | with_reducible refine keep_State_setPwr _ ?_
      | with_reducible refine keep_healthSecond _ ?_
      | with_reducible refine keep_ite ?_ ?_
      | with_reducible refine keep_next ?_)

theorem keep_assign {x0 : State} (a : BitVec 8) {s : State} (hk : Kept x0 s) :
    Kept x0 (assign a s) := by
  unfold assign
  try dsimp only
  repeat' (first
      | with_reducible exact hk
      | with_reducible refine keep_ackFrame ?_
      | with_reducible refine keep_State_setChain _ ?_
      | with_reducible refine keep_reply _ _ ?_
      | with_reducible apply keep_emit
      | with_reducible refine keep_ite ?_ ?_)

theorem keep_execAssign {x0 : State} (dst : BitVec 8) (a : BitVec 8) (crc : BitVec 16) {s : State} (hk : Kept x0 s) :
    KeptOut x0 (execAssign dst a crc s) := by
  unfold execAssign
  try dsimp only
  repeat' (first
      | with_reducible exact hk
      | with_reducible assumption
      | with_reducible refine keep_onFrame _ _ _ _ _ _ ?_ ?_
      | with_reducible refine keep_assign _ ?_
      | intro _)

theorem keep_execToken {x0 : State} (dst : BitVec 8) (crc : BitVec 16) {s : State} (hk : Kept x0 s) :
    KeptOut x0 (execToken dst crc s) := by
  unfold execToken
  try dsimp only
  repeat' (first
      | with_reducible exact hk
      | with_reducible assumption
      | with_reducible refine keep_onFrame _ _ _ _ _ _ ?_ ?_
      | with_reducible refine keep_presentFrame ?_
      | intro _)

theorem keep_clearAddress {x0 : State} {s : State} (hk : Kept x0 s) :
    Kept x0 (clearAddress s) := by
  unfold clearAddress
  try dsimp only
  repeat' (first | with_reducible exact hk | with_reducible refine keep_presentFrame ?_ | with_reducible refine keep_State_setChain _ ?_)

theorem keep_execClear {x0 : State} (dst : BitVec 8) (crc : BitVec 16) {s : State} (hk : Kept x0 s) :
    KeptOut x0 (execClear dst crc s) := by
  unfold execClear
  try dsimp only
  repeat' (first
      | with_reducible exact hk
      | with_reducible assumption
      | with_reducible refine keep_onFrame _ _ _ _ _ _ ?_ ?_
      | with_reducible refine keep_clearAddress ?_
      | intro _)

theorem keep_powerUp {x0 : State} {s : State} (hk : Kept x0 s) :
    Kept x0 (powerUp s) := by
  unfold powerUp
  try dsimp only
  repeat' (first
      | with_reducible exact hk
      | with_reducible refine keep_clearPower ?_
      | with_reducible refine keep_clearMain ?_
      | with_reducible exact id
      | with_reducible exact FuseKept.refl _
      | with_reducible refine keep_mk ?_ ?_ ?_)

theorem keep_execPowerOn {x0 : State} (dst : BitVec 8) (crc : BitVec 16) {s : State} (hk : Kept x0 s) :
    KeptOut x0 (execPowerOn dst crc s) := by
  unfold execPowerOn
  try dsimp only
  repeat' (first
      | with_reducible exact hk
      | with_reducible assumption
      | with_reducible refine keep_onFrame _ _ _ _ _ _ ?_ ?_
      | with_reducible refine keep_refuseFrame _ _ ?_
      | with_reducible refine keep_powerUp ?_
      | with_reducible refine keep_ackFrame ?_
      | split
      | intro _)

theorem keep_execPowerOff {x0 : State} (dst : BitVec 8) (crc : BitVec 16) {s : State} (hk : Kept x0 s) :
    KeptOut x0 (execPowerOff dst crc s) := by
  unfold execPowerOff
  try dsimp only
  repeat' (first
      | with_reducible exact hk
      | with_reducible assumption
      | with_reducible refine keep_onFrame _ _ _ _ _ _ ?_ ?_
      | with_reducible refine keep_turnOff _ ?_
      | with_reducible refine keep_ackFrame ?_
      | intro _)

theorem keep_execSetTerminal {x0 : State} (dst : BitVec 8) (v : BitVec 8) (crc : BitVec 16) {s : State} (hk : Kept x0 s) :
    KeptOut x0 (execSetTerminal dst v crc s) := by
  refine keep_onFrame _ _ _ _ _ _ (fun t ht => ?_) hk
  split
  · exact keep_refuseFrame _ _ ht
  · next h =>
    refine keep_ackFrame (keep_openChange _ _ _ ?_ ht)
    obtain ⟨-, he, hl⟩ := fuseStatus_zero (not_not.1 h)
    exact ⟨hl, show t.fuse.terminalUsed < 8 by simpa [exhausted] using he⟩

theorem keep_execSeconds {x0 : State} (dst : BitVec 8) (sec : BitVec 48) (crc : BitVec 16) {s : State} (hk : Kept x0 s) :
    KeptOut x0 (execSeconds dst sec crc s) := by
  unfold execSeconds
  try dsimp only
  repeat' (first
      | with_reducible exact hk
      | with_reducible assumption
      | with_reducible refine keep_onFrame _ _ _ _ _ _ ?_ ?_
      | with_reducible refine keep_ackFrame ?_
      | with_reducible refine keep_State_setChain _ ?_
      | intro _)

theorem keep_execStatusReq {x0 : State} (dst : BitVec 8) (crc : BitVec 16) {s : State} (hk : Kept x0 s) :
    KeptOut x0 (execStatusReq dst crc s) := by
  unfold execStatusReq
  try dsimp only
  repeat' (first
      | with_reducible exact hk
      | with_reducible assumption
      | with_reducible refine keep_onFrame _ _ _ _ _ _ ?_ ?_
      | with_reducible refine keep_reply _ _ ?_
      | intro _)

theorem keep_jobArm {x0 : State} (cancel : Bool) {s : State} (hk : Kept x0 s) :
    Kept x0 (jobArm cancel s) := by
  unfold jobArm
  try dsimp only
  repeat' (first | with_reducible exact hk | with_reducible refine keep_State_setJob _ ?_)

theorem keep_execJobArm {x0 : State} (cancel : Bool) {s : State} (hk : Kept x0 s) :
    KeptOut x0 (execJobArm cancel s) := by
  unfold execJobArm
  try dsimp only
  repeat' (first
      | with_reducible exact hk
      | with_reducible assumption
      | with_reducible refine keep_onMain _ ?_ ?_
      | with_reducible refine keep_jobArm _ ?_
      | intro _)

theorem keep_jobCancel {x0 : State} {s : State} (hk : Kept x0 s) :
    Kept x0 (jobCancel s) := by
  unfold jobCancel
  try dsimp only
  repeat' (first | with_reducible exact hk | with_reducible refine keep_State_setJob _ ?_ | split)

theorem keep_execJobCancel {x0 : State} {s : State} (hk : Kept x0 s) :
    KeptOut x0 (execJobCancel s) := by
  unfold execJobCancel
  try dsimp only
  repeat' (first
      | with_reducible exact hk
      | with_reducible assumption
      | with_reducible refine keep_onMain _ ?_ ?_
      | with_reducible refine keep_jobCancel ?_
      | intro _)

theorem keep_execJobFix {x0 : State} {s : State} (hk : Kept x0 s) :
    KeptOut x0 (execJobFix s) := by
  unfold execJobFix
  try dsimp only
  repeat' (first
      | with_reducible exact hk
      | with_reducible refine keep_State_setJob _ ?_
      | with_reducible refine keep_ite ?_ ?_
      | with_reducible refine keep_next ?_)

theorem keep_gateArm {x0 : State} (cancel : Bool) {s : State} (hk : Kept x0 s) :
    Kept x0 (gateArm cancel s) := by
  unfold gateArm
  try dsimp only
  repeat' (first | with_reducible exact hk | with_reducible refine keep_State_setJob _ ?_)

theorem keep_execGateArm {x0 : State} (cancel : Bool) {s : State} (hk : Kept x0 s) :
    KeptOut x0 (execGateArm cancel s) := by
  unfold execGateArm
  try dsimp only
  repeat' (first
      | with_reducible exact hk
      | with_reducible assumption
      | with_reducible refine keep_onMain _ ?_ ?_
      | with_reducible refine keep_gateArm _ ?_
      | intro _)

theorem keep_gateCancel {x0 : State} {s : State} (hk : Kept x0 s) :
    Kept x0 (gateCancel s) := by
  unfold gateCancel
  try dsimp only
  repeat' (first | with_reducible exact hk | with_reducible refine keep_State_setJob _ ?_ | split)

theorem keep_execGateCancel {x0 : State} {s : State} (hk : Kept x0 s) :
    KeptOut x0 (execGateCancel s) := by
  unfold execGateCancel
  try dsimp only
  repeat' (first
      | with_reducible exact hk
      | with_reducible assumption
      | with_reducible refine keep_onMain _ ?_ ?_
      | with_reducible refine keep_gateCancel ?_
      | intro _)

theorem keep_slotArm {x0 : State} (slot : Bool) (cancel : Bool) {s : State} (hk : Kept x0 s) :
    Kept x0 (slotArm slot cancel s) := by
  unfold slotArm
  try dsimp only
  repeat' (first | with_reducible exact hk | with_reducible refine keep_State_setJob _ ?_)

theorem keep_execSlotSwArm {x0 : State} (slot : Bool) (cancel : Bool) {s : State} (hk : Kept x0 s) :
    KeptOut x0 (execSlotSwArm slot cancel s) := by
  unfold execSlotSwArm
  try dsimp only
  repeat' (first
      | with_reducible exact hk
      | with_reducible assumption
      | with_reducible refine keep_onMain _ ?_ ?_
      | with_reducible refine keep_slotArm _ _ ?_
      | intro _)

theorem keep_slotCancel {x0 : State} {s : State} (hk : Kept x0 s) :
    Kept x0 (slotCancel s) := by
  unfold slotCancel
  try dsimp only
  repeat' (first | with_reducible exact hk | with_reducible refine keep_State_setJob _ ?_ | split)

theorem keep_execSlotSwCancel {x0 : State} {s : State} (hk : Kept x0 s) :
    KeptOut x0 (execSlotSwCancel s) := by
  unfold execSlotSwCancel
  try dsimp only
  repeat' (first
      | with_reducible exact hk
      | with_reducible assumption
      | with_reducible refine keep_onMain _ ?_ ?_
      | with_reducible refine keep_slotCancel ?_
      | intro _)

theorem keep_orderQuench {x0 : State} {s : State} (hk : Kept x0 s) :
    Kept x0 (orderQuench s) := by
  unfold orderQuench
  try dsimp only
  repeat' (first | with_reducible exact hk | with_reducible refine keep_quenchDue _ _ ?_ | with_reducible refine keep_ite ?_ ?_)

theorem keep_execOrderedQuench {x0 : State} {s : State} (hk : Kept x0 s) :
    KeptOut x0 (execOrderedQuench s) := by
  unfold execOrderedQuench
  try dsimp only
  repeat' (first
      | with_reducible exact hk
      | with_reducible assumption
      | with_reducible refine keep_onMain _ ?_ ?_
      | with_reducible refine keep_orderQuench ?_
      | intro _)

theorem keep_inPhase {x0 : State} (p : Phase) (f : State → State) {s : State} (kf : ∀ t, Kept x0 t → Kept x0 (f  t)) (hk : Kept x0 s) :
    KeptOut x0 (inPhase p f s) := by
  unfold inPhase
  try dsimp only
  repeat' (first | with_reducible exact hk | refine kf _ ?_ | with_reducible refine keep_ite ?_ ?_ | with_reducible refine keep_next ?_)

theorem keep_execRailsGood {x0 : State} {s : State} (hk : Kept x0 s) :
    KeptOut x0 (execRailsGood s) := by
  unfold execRailsGood
  try dsimp only
  repeat' (first
      | with_reducible exact hk
      | with_reducible assumption
      | with_reducible refine keep_inPhase _ _ ?_ ?_
      | with_reducible refine keep_enterPhase _ ?_
      | intro _)

theorem keep_execRailFail {x0 : State} (rail : BitVec 32) {s : State} (hk : Kept x0 s) :
    KeptOut x0 (execRailFail rail s) := by
  unfold execRailFail
  try dsimp only
  repeat' (first
      | with_reducible exact hk
      | with_reducible assumption
      | with_reducible refine keep_inPhase _ _ ?_ ?_
      | with_reducible refine keep_failExit _ _ ?_
      | intro _)

theorem keep_zeroMemories {x0 : State} {s : State} (hk : Kept x0 s) :
    Kept x0 (zeroMemories s) := by
  unfold zeroMemories
  try dsimp only
  repeat' (first
      | with_reducible exact hk
      | with_reducible exact id
      | with_reducible exact FuseKept.refl _
      | with_reducible refine keep_mk ?_ ?_ ?_)

theorem keep_settleChange {x0 : State} (blown : Bool) {s : State} (hk : Kept x0 s) :
    Kept x0 (settleChange blown s) := by
  unfold settleChange
  try dsimp only
  repeat' (first | with_reducible exact hk | with_reducible refine keep_closeChange _ ?_ | with_reducible refine keep_ite ?_ ?_)

theorem keep_beginImage {x0 : State} {s : State} (hk : Kept x0 s) :
    Kept x0 (beginImage s) := by
  unfold beginImage
  try dsimp only
  repeat' (first | with_reducible exact hk | with_reducible refine keep_State_setBoot _ ?_ | with_reducible refine keep_enterPhase _ ?_)

theorem keep_selftest {x0 : State} (fuseBad : Option (BitVec 32)) (sramBad : Option (BitVec 32)) (blown : Bool) {s : State} (hk : Kept x0 s) :
    Kept x0 (selftest fuseBad sramBad blown s) := by
  unfold selftest
  try dsimp only
  repeat' (first
      | with_reducible exact hk
      | with_reducible refine keep_failExit _ _ ?_
      | with_reducible refine keep_settleChange _ ?_
      | with_reducible refine keep_beginImage ?_
      | with_reducible refine keep_zeroMemories ?_
      | split)

theorem keep_execSelftestDone {x0 : State} (fuseBad : Option (BitVec 32)) (sramBad : Option (BitVec 32)) (blown : Bool) {s : State} (hk : Kept x0 s) :
    KeptOut x0 (execSelftestDone fuseBad sramBad blown s) := by
  unfold execSelftestDone
  try dsimp only
  repeat' (first
      | with_reducible exact hk
      | with_reducible assumption
      | with_reducible refine keep_inPhase _ _ ?_ ?_
      | with_reducible refine keep_selftest _ _ _ ?_
      | intro _)

theorem keep_setSlotCode {x0 : State} (slot : Bool) (code : ℕ) {s : State} (hk : Kept x0 s) :
    Kept x0 (setSlotCode slot code s) := by
  unfold setSlotCode
  try dsimp only
  repeat' (first | with_reducible exact hk | with_reducible refine keep_State_setBoot _ ?_)

theorem keep_measureImage {x0 : State} (slot : Bool) {s : State} (hk : Kept x0 s) :
    Kept x0 (measureImage slot s) := by
  unfold measureImage
  try dsimp only
  repeat' (first | with_reducible exact hk | with_reducible refine keep_State_setHost _ ?_)

theorem keep_takeImage {x0 : State} (slot : Bool) {s : State} (hk : Kept x0 s) :
    Kept x0 (takeImage slot s) := by
  unfold takeImage
  try dsimp only
  repeat' (first
      | with_reducible exact hk
      | with_reducible refine keep_measureImage _ ?_
      | with_reducible refine keep_enterPhase _ ?_
      | with_reducible refine keep_State_setBoot _ ?_)

theorem keep_verified {x0 : State} (readOk : Bool) (slot : Bool) {s : State} (hk : Kept x0 s) :
    Kept x0 (verified readOk slot s) := by
  unfold verified
  try dsimp only
  repeat' (first
      | with_reducible exact hk
      | with_reducible refine keep_setSlotCode _ _ ?_
      | with_reducible refine keep_takeImage _ ?_
      | with_reducible refine keep_failExit _ _ ?_
      | with_reducible refine keep_State_setBoot _ ?_
      | with_reducible refine keep_ite ?_ ?_)

theorem keep_execImageVerified {x0 : State} (readOk : Bool) {s : State} (hk : Kept x0 s) :
    KeptOut x0 (execImageVerified readOk s) := by
  unfold execImageVerified
  try dsimp only
  repeat' (first
      | with_reducible exact hk
      | with_reducible assumption
      | with_reducible refine keep_inPhase _ _ ?_ ?_
      | with_reducible refine keep_verified _ _ ?_
      | with_reducible exact id
      | split
      | intro _)

theorem keep_placeStation {x0 : State} (g : Img) (a : ℕ) {s : State} (hk : Kept x0 s) :
    Kept x0 (placeStation g a s) := by
  unfold placeStation
  try dsimp only
  repeat' (first | with_reducible exact hk | with_reducible refine keep_State_setStation _ _ ?_)

theorem keep_placePort {x0 : State} (p : ℕ) {s : State} (hk : Kept x0 s) :
    Kept x0 (placePort p s) := by
  unfold placePort
  try dsimp only
  repeat' (first | with_reducible exact hk | with_reducible refine keep_State_setPort _ _ ?_)

theorem keep_measurePrograms {x0 : State} (g : Img) {s : State} (hk : Kept x0 s) :
    Kept x0 (measurePrograms g s) := by
  unfold measurePrograms
  try dsimp only
  repeat' (first | with_reducible exact hk | with_reducible refine keep_State_setHost _ ?_)

theorem keep_placeImage {x0 : State} (g : Img) {s : State} (hk : Kept x0 s) :
    Kept x0 (placeImage g s) := by
  unfold placeImage
  try dsimp only
  repeat' (first
      | with_reducible exact hk
      | with_reducible assumption
      | with_reducible refine keep_State_setJob _ ?_
      | with_reducible refine keep_State_setLedger _ ?_
      | with_reducible refine keep_placeStation _ _ ?_
      | with_reducible refine keep_measurePrograms _ ?_
      | with_reducible refine keep_placePort _ ?_
      | with_reducible refine keep_each ?_ ?_
      | with_reducible exact id
      | with_reducible exact FuseKept.refl _
      | intro _
      | with_reducible refine keep_mk ?_ ?_ ?_)

theorem keep_load {x0 : State} {s : State} (hk : Kept x0 s) :
    Kept x0 (load s) := by
  unfold load
  try dsimp only
  repeat' (first
      | with_reducible exact hk
      | with_reducible refine keep_failExit _ _ ?_
      | with_reducible refine keep_enterPhase _ ?_
      | with_reducible refine keep_placeImage _ ?_
      | split)

theorem keep_execLoadChecks {x0 : State} {s : State} (hk : Kept x0 s) :
    KeptOut x0 (execLoadChecks s) := by
  unfold execLoadChecks
  try dsimp only
  repeat' (first
      | with_reducible exact hk
      | with_reducible assumption
      | with_reducible refine keep_inPhase _ _ ?_ ?_
      | with_reducible refine keep_load ?_
      | intro _)


theorem rising_iff {α} {m : Tab α} : rising m = true ↔ m.Pairwise (fun a b => a.1 < b.1) := by
  induction m with
  | nil => simp [rising]
  | cons e m ih => rw [rising_cons, List.pairwise_cons, ih]

theorem wf_ringCells (b n : Nat) : Memory.wf (ringCells b n) = true := by
  have hz : ∀ (l : List Nat), l.Pairwise (· < ·) → (∀ x ∈ l, x < 4) → ∀ (v : List Byte) (i : Nat),
      ((l.zip v).map fun e => ((4 * i + e.1, e.2) : Host.Cell)).Pairwise (fun a b => a.1 < b.1) := by
    intro l hl hb v i
    induction l generalizing v with
    | nil => simp
    | cons x l ih =>
      cases v with
      | nil => simp
      | cons y v =>
        simp only [List.zip_cons_cons, List.map_cons, List.pairwise_cons, List.mem_map, Prod.exists, forall_exists_index, and_imp]
        refine ⟨fun c p q hq e => ?_, ih (List.pairwise_cons.1 hl).2 (fun z hz => hb z (by simp [hz])) v⟩
        subst e
        have := (List.pairwise_cons.1 hl).1 _ (List.of_mem_zip hq).1
        show 4 * i + x < 4 * i + p
        omega
  rw [Memory.wf_iff, rising_iff]
  refine ⟨List.Pairwise.filter _ ?_, fun c hc => by simpa using (List.mem_filter.1 hc).2⟩
  rw [List.pairwise_flatMap]
  refine ⟨fun i _ => hz _ List.pairwise_lt_range (fun x hx => List.mem_range.1 hx) _ i, ?_⟩
  refine List.Pairwise.imp ?_ List.pairwise_lt_range
  intro i j hij c hc d hd
  simp only [List.mem_map, Prod.exists] at hc hd
  obtain ⟨p, q, hp, rfl⟩ := hc
  obtain ⟨p', q', hp', rfl⟩ := hd
  have := List.mem_range.1 (List.of_mem_zip hp).1
  show 4 * i + p < 4 * j + p'
  omega

theorem keep_fillFreeStore {x0 : State} {s : State} (hk : Kept x0 s) :
    Kept x0 (fillFreeStore s) := by
  unfold fillFreeStore
  try dsimp only
  repeat' (first
      | (intro _; with_reducible exact wf_ringCells _ _)
      | with_reducible exact hk
      | with_reducible refine keep_State_setFab _ ?_
      | with_reducible refine keep_setMem ?_ ?_)

theorem keep_clearStacks {x0 : State} (repaired : List ℕ) {s : State} (hk : Kept x0 s) :
    Kept x0 (clearStacks repaired s) := by
  unfold clearStacks
  try dsimp only
  repeat' (first
      | with_reducible exact keep_wfNil
      | with_reducible exact hk
      | with_reducible assumption
      | with_reducible refine keep_setMem ?_ ?_
      | with_reducible refine keep_State_setStack _ _ ?_
      | with_reducible refine keep_each ?_ ?_
      | intro _)

theorem keep_hbmReady {x0 : State} (repaired : List ℕ) (failed : Option (Fin 8)) {s : State} (hk : Kept x0 s) :
    Kept x0 (hbmReady repaired failed s) := by
  unfold hbmReady
  try dsimp only
  repeat' (first
      | with_reducible exact hk
      | with_reducible assumption
      | with_reducible refine keep_failExit _ _ ?_
      | with_reducible refine keep_State_setBoot _ ?_
      | with_reducible refine keep_enterPhase _ ?_
      | with_reducible refine keep_fillFreeStore ?_
      | with_reducible refine keep_clearStacks _ ?_
      | with_reducible refine keep_startTraining _ ?_
      | with_reducible refine keep_each ?_ ?_
      | split
      | intro _)

theorem keep_execHbmReady {x0 : State} (repaired : List ℕ) (failed : Option (Fin 8)) {s : State} (hk : Kept x0 s) :
    KeptOut x0 (execHbmReady repaired failed s) := by
  unfold execHbmReady
  try dsimp only
  repeat' (first
      | with_reducible exact hk
      | with_reducible assumption
      | with_reducible refine keep_inPhase _ _ ?_ ?_
      | with_reducible refine keep_hbmReady _ _ ?_
      | intro _)

theorem keep_execLinkPortsUp {x0 : State} {s : State} (hk : Kept x0 s) :
    KeptOut x0 (execLinkPortsUp s) := by
  unfold execLinkPortsUp
  try dsimp only
  repeat' (first
      | with_reducible exact hk
      | with_reducible assumption
      | with_reducible refine keep_inPhase _ _ ?_ ?_
      | with_reducible refine keep_enterPhase _ ?_
      | with_reducible exact id
      | split
      | intro _)

theorem keep_execLinkTimeout {x0 : State} {s : State} (hk : Kept x0 s) :
    KeptOut x0 (execLinkTimeout s) := by
  unfold execLinkTimeout
  try dsimp only
  repeat' (first
      | with_reducible exact hk
      | with_reducible assumption
      | with_reducible refine keep_inPhase _ _ ?_ ?_
      | with_reducible refine keep_failExit _ _ ?_
      | with_reducible exact id
      | split
      | intro _)

theorem keep_execTimeAcquire {x0 : State} {s : State} (hk : Kept x0 s) :
    KeptOut x0 (execTimeAcquire s) := by
  unfold execTimeAcquire
  try dsimp only
  repeat' (first
      | with_reducible exact hk
      | with_reducible assumption
      | with_reducible refine keep_inPhase _ _ ?_ ?_
      | with_reducible refine keep_failExit _ _ ?_
      | with_reducible exact id
      | split
      | intro _)

theorem keep_checkRead {x0 : State} (key : ℕ) {s : State} (hk : Kept x0 s) :
    Kept x0 (checkRead key s) := by
  unfold checkRead
  try dsimp only
  repeat' (first | with_reducible exact hk | with_reducible refine keep_useWord _ ?_ | with_reducible refine keep_ite ?_ ?_)

theorem keep_clearRead {x0 : State} (ch : Bool) (key : ℕ) {s : State} (hk : Kept x0 s) :
    Kept x0 (clearRead ch key s) := by
  unfold clearRead
  try dsimp only
  repeat' (first
      | with_reducible exact hk
      | with_reducible refine keep_State_setInj _ ?_
      | with_reducible refine keep_State_setPort _ _ ?_
      | with_reducible refine keep_ite ?_ ?_
      | split)

theorem keep_readKey {x0 : State} (ch : Bool) (half : Bool) (key : ℕ) {s : State} (hk : Kept x0 s) :
    Kept x0 (readKey ch half key s).2 := by
  unfold readKey
  try dsimp only
  repeat' (first
      | with_reducible exact hk
      | with_reducible refine keep_checkRead _ ?_
      | with_reducible refine keep_clearRead _ _ ?_
      | with_reducible refine keep_ite ?_ ?_)

theorem keep_setIdx {x0 : State} (ch : Bool) (w : Word) {s : State} (hk : Kept x0 s) :
    Kept x0 (setIdx ch w s) := by
  unfold setIdx
  try dsimp only
  repeat' (first
      | with_reducible exact hk
      | with_reducible refine keep_State_setChain _ ?_
      | with_reducible refine keep_State_setHost _ ?_
      | with_reducible refine keep_ite ?_ ?_)

theorem keep_advanceIdx {x0 : State} (ch : Bool) {s : State} (hk : Kept x0 s) :
    Kept x0 (advanceIdx ch s) := by
  unfold advanceIdx
  try dsimp only
  repeat' (first | with_reducible exact hk | with_reducible refine keep_setIdx _ _ ?_ | with_reducible refine keep_ite ?_ ?_)

theorem keep_readIdx {x0 : State} (ch : Bool) (half : Bool) {s : State} (hk : Kept x0 s) :
    Kept x0 (readIdx ch half s).2 := by
  unfold readIdx
  try dsimp only
  repeat' (first | with_reducible exact hk | with_reducible refine keep_readKey _ _ _ ?_ | with_reducible refine keep_advanceIdx _ ?_)

theorem keep_readDirect {x0 : State} (ch : Bool) (half : Bool) (addr : ℕ) {s : State} (hk : Kept x0 s) :
    Kept x0 (readDirect ch half addr s).2 := by
  unfold readDirect
  try dsimp only
  repeat' (first
      | with_reducible exact hk
      | with_reducible refine keep_readIdx _ _ ?_
      | with_reducible refine keep_readKey _ _ _ ?_
      | split)

theorem keep_restartMarks {x0 : State} (p : ℕ) {s : State} (hk : Kept x0 s) :
    Kept x0 (restartMarks p s) := by
  unfold restartMarks
  try dsimp only
  repeat' (first | with_reducible exact hk | with_reducible refine keep_State_setPort _ _ ?_)

theorem keep_snapCtl {x0 : State} (ch : Bool) (w : Word) {s : State} (hk : Kept x0 s) :
    Kept x0 (snapCtl ch w s) := by
  unfold snapCtl
  try dsimp only
  repeat' (first
      | with_reducible exact hk
      | with_reducible refine keep_State_setChain _ ?_
      | with_reducible refine keep_State_setHost _ ?_
      | with_reducible refine keep_restartMarks _ ?_
      | with_reducible refine keep_ite ?_ ?_)

theorem keep_viewCtl {x0 : State} (f : ℕ) (w : Word) {s : State} (hk : Kept x0 s) :
    Kept x0 (viewCtl f w s) := by
  unfold viewCtl
  try dsimp only
  repeat' (first | with_reducible exact hk | with_reducible refine keep_State_setHost _ ?_ | with_reducible refine keep_ite ?_ ?_)

theorem keep_takeView {x0 : State} (f : ℕ) (w : Word) {s : State} (hk : Kept x0 s) :
    Kept x0 (takeView f w s) := by
  unfold takeView
  try dsimp only
  repeat' (first
      | with_reducible exact hk
      | with_reducible refine keep_restartMarks _ ?_
      | with_reducible refine keep_State_setHost _ ?_
      | with_reducible refine keep_ite ?_ ?_)

theorem keep_takeViews {x0 : State} {s : State} (hk : Kept x0 s) :
    Kept x0 (takeViews s) := by
  unfold takeViews
  try dsimp only
  repeat' (first
      | with_reducible exact hk
      | with_reducible assumption
      | with_reducible refine keep_takeView _ _ ?_
      | with_reducible refine keep_State_setHost _ ?_
      | with_reducible refine keep_each ?_ ?_
      | intro _)

theorem keep_writeInject {x0 : State} (n : ℕ) (w : Word) {s : State} (hk : Kept x0 s) :
    Kept x0 (writeInject n w s) := by
  unfold writeInject
  try dsimp only
  repeat' (first | with_reducible exact hk | with_reducible refine keep_State_setInj _ ?_ | with_reducible refine keep_ite ?_ ?_ | split)

theorem keep_writeCapCfg {x0 : State} (w : Word) {s : State} (hk : Kept x0 s) :
    Kept x0 (writeCapCfg w s) := by
  unfold writeCapCfg
  try dsimp only
  repeat' (first | with_reducible exact hk | with_reducible refine keep_State_setCap _ ?_ | with_reducible refine keep_ite ?_ ?_)

theorem keep_writeJobStart {x0 : State} (w : Word) {s : State} (hk : Kept x0 s) :
    Kept x0 (writeJobStart w s) := by
  unfold writeJobStart
  try dsimp only
  repeat' (first
      | with_reducible exact hk
      | with_reducible refine keep_jobArm _ ?_
      | with_reducible refine keep_jobCancel ?_
      | with_reducible refine keep_ite ?_ ?_)

theorem keep_writeGateArm {x0 : State} (w : Word) {s : State} (hk : Kept x0 s) :
    Kept x0 (writeGateArm w s) := by
  unfold writeGateArm
  try dsimp only
  repeat' (first
      | with_reducible exact hk
      | with_reducible refine keep_gateArm _ ?_
      | with_reducible refine keep_gateCancel ?_
      | with_reducible refine keep_ite ?_ ?_)

theorem keep_writeSlotArm {x0 : State} (w : Word) {s : State} (hk : Kept x0 s) :
    Kept x0 (writeSlotArm w s) := by
  unfold writeSlotArm
  try dsimp only
  repeat' (first
      | with_reducible exact hk
      | with_reducible refine keep_slotArm _ _ ?_
      | with_reducible refine keep_slotCancel ?_
      | with_reducible refine keep_ite ?_ ?_)

theorem keep_writeMbData {x0 : State} (ch : Bool) (i : ℕ) (w : Word) {s : State} (hk : Kept x0 s) :
    Kept x0 (writeMbData ch i w s) := by
  unfold writeMbData
  try dsimp only
  repeat' (first | with_reducible exact hk | with_reducible refine keep_State_setHost _ ?_ | with_reducible refine keep_ite ?_ ?_)

theorem keep_writeDirect {x0 : State} (ch : Bool) (key : ℕ) (w : Word) {s : State} (hk : Kept x0 s) :
    Kept x0 (writeDirect ch key w s) := by
  unfold writeDirect
  try dsimp only
  repeat' (first
      | with_reducible exact hk
      | with_reducible refine keep_orderQuench ?_
      | with_reducible refine keep_setIdx _ _ ?_
      | with_reducible refine keep_snapCtl _ _ ?_
      | with_reducible refine keep_writeMbData _ _ _ ?_
      | with_reducible refine keep_State_setPar _ ?_
      | with_reducible refine keep_State_setJob _ ?_
      | with_reducible refine keep_writeJobStart _ ?_
      | with_reducible refine keep_writeSlotArm _ ?_
      | with_reducible refine keep_writeGateArm _ ?_
      | with_reducible refine keep_State_setLedger _ ?_
      | with_reducible refine keep_writeCapCfg _ ?_
      | with_reducible refine keep_State_setCap _ ?_
      | with_reducible refine keep_writeInject _ _ ?_
      | with_reducible refine keep_ite ?_ ?_
      | split)

theorem keep_writePort {x0 : State} (ch : Bool) (p : ℕ) (o : ℕ) (w : Word) {s : State} (hk : Kept x0 s) :
    Kept x0 (writePort ch p o w s) := by
  unfold writePort
  try dsimp only
  repeat' (first | with_reducible exact hk | with_reducible refine keep_State_setPort _ _ ?_ | with_reducible refine keep_ite ?_ ?_)

theorem keep_writeStation {x0 : State} (a : ℕ) (o : ℕ) (w : Word) {s : State} (hk : Kept x0 s) :
    Kept x0 (writeStation a o w s) := by
  unfold writeStation
  try dsimp only
  repeat' (first
      | with_reducible exact hk
      | with_reducible refine keep_State_setStation _ _ ?_
      | with_reducible refine keep_ite ?_ ?_
      | split)

theorem keep_writeIndirect {x0 : State} (ch : Bool) (key : ℕ) (w : Word) {s : State} (hk : Kept x0 s) :
    Kept x0 (writeIndirect ch key w s) := by
  unfold writeIndirect
  try dsimp only
  repeat' (first
      | with_reducible exact hk
      | with_reducible refine keep_writeStation _ _ _ ?_
      | with_reducible refine keep_writePort _ _ _ _ ?_
      | with_reducible refine keep_State_setStack _ _ ?_
      | with_reducible refine keep_ite ?_ ?_
      | split)

theorem keep_writeKey {x0 : State} (ch : Bool) (key : ℕ) (w : Word) {s : State} (hk : Kept x0 s) :
    Kept x0 (writeKey ch key w s) := by
  unfold writeKey
  try dsimp only
  repeat' (first
      | with_reducible exact hk
      | with_reducible refine keep_writeDirect _ _ _ ?_
      | with_reducible refine keep_writeIndirect _ _ _ ?_
      | with_reducible refine keep_ite ?_ ?_)

theorem keep_sendWrite {x0 : State} (ch : Bool) (key : ℕ) (w : Word) {s : State} (hk : Kept x0 s) :
    Kept x0 (sendWrite ch key w s) := by
  unfold sendWrite
  try dsimp only
  repeat' (first
      | with_reducible exact hk
      | with_reducible refine keep_State_setChain _ ?_
      | with_reducible refine keep_writeKey _ _ _ ?_
      | with_reducible refine keep_State_setHost _ ?_
      | with_reducible refine keep_ite ?_ ?_)

theorem keep_writeIdx {x0 : State} (ch : Bool) (w : Word) {s : State} (hk : Kept x0 s) :
    Kept x0 (writeIdx ch w s) := by
  unfold writeIdx
  try dsimp only
  repeat' (first | with_reducible exact hk | with_reducible refine keep_advanceIdx _ ?_ | with_reducible refine keep_sendWrite _ _ _ ?_)

theorem keep_applyLater {x0 : State} {s : State} (hk : Kept x0 s) :
    Kept x0 (applyLater s) := by
  unfold applyLater
  try dsimp only
  repeat' (first
      | with_reducible exact hk
      | with_reducible assumption
      | with_reducible refine keep_writeKey _ _ _ ?_
      | with_reducible refine keep_State_setChain _ ?_
      | with_reducible refine keep_each ?_ ?_
      | intro _)

theorem keep_withClk {x0 : State} (c : ℕ) (f : State → State) {s : State} (kf : ∀ y t, Kept y t → Kept y (f t)) (hk : Kept x0 s) :
    Kept x0 (withClk c f s) :=
  let k := kf _ _ (Kept.refl { s with clk := c })
  ⟨k.1.trans hk.1, hk.2, hk.3.trans k.3, fun q => k.4 (hk.4 q)⟩

theorem keep_recordQuench {x0 : State} {s : State} (hk : Kept x0 s) :
    Kept x0 (recordQuench s) := by
  unfold recordQuench
  try dsimp only
  repeat' (first | with_reducible exact hk | with_reducible refine keep_recordCause _ _ ?_ | split)

theorem keep_quenchNow {x0 : State} {s : State} (hk : Kept x0 s) :
    Kept x0 (quenchNow s) := by
  unfold quenchNow
  try dsimp only
  repeat' (first
      | with_reducible exact hk
      | with_reducible apply keep_emit
      | with_reducible refine keep_recordQuench ?_
      | with_reducible refine keep_enterPhase _ ?_
      | with_reducible refine keep_State_setJob _ ?_
      | with_reducible refine keep_State_setCap _ ?_
      | with_reducible exact id
      | with_reducible exact FuseKept.refl _
      | with_reducible refine keep_mk ?_ ?_ ?_)

theorem keep_slotSwitch {x0 : State} {s : State} (hk : Kept x0 s) :
    Kept x0 (slotSwitch s) := by
  unfold slotSwitch
  try dsimp only
  repeat' (first
      | with_reducible exact hk
      | with_reducible refine keep_clearPower ?_
      | with_reducible refine keep_clearMain ?_
      | with_reducible refine keep_quenchNow ?_
      | with_reducible exact id
      | with_reducible exact FuseKept.refl _
      | with_reducible refine keep_mk ?_ ?_ ?_)

theorem keep_recordLeftover {x0 : State} (a : ℕ) (e : ℕ) {s : State} (hk : Kept x0 s) :
    Kept x0 (recordLeftover a e s) := by
  unfold recordLeftover
  try dsimp only
  repeat' (first
      | with_reducible exact hk
      | with_reducible assumption
      | with_reducible refine keep_violate _ _ _ ?_
      | with_reducible refine keep_each ?_ ?_
      | intro _)

theorem keep_recordOverrun {x0 : State} (a : ℕ) {s : State} (hk : Kept x0 s) :
    Kept x0 (recordOverrun a s) := by
  unfold recordOverrun
  try dsimp only
  repeat' (first | with_reducible exact hk | with_reducible refine keep_violate _ _ _ ?_ | with_reducible refine keep_ite ?_ ?_)

theorem keep_endRecords {x0 : State} {s : State} (hk : Kept x0 s) :
    Kept x0 (endRecords s) := by
  unfold endRecords
  try dsimp only
  repeat' (first
      | with_reducible exact hk
      | with_reducible assumption
      | with_reducible refine keep_withClk _ _ ?_ ?_
      | with_reducible refine keep_recordLeftover _ _ ?_
      | with_reducible refine keep_recordOverrun _ ?_
      | with_reducible refine keep_each ?_ ?_
      | intro _)

theorem keep_writeHeatRecord {x0 : State} {s : State} (hk : Kept x0 s) :
    Kept x0 (writeHeatRecord s) := by
  unfold writeHeatRecord
  try dsimp only
  repeat' (first
      | with_reducible exact hk
      | with_reducible refine keep_State_setLedger _ ?_
      | with_reducible refine keep_writeSpan _ _ _ ?_)

theorem keep_heatNotices {x0 : State} {s : State} (hk : Kept x0 s) :
    Kept x0 (heatNotices s) := by
  unfold heatNotices
  try dsimp only
  repeat' (first
      | with_reducible exact hk
      | with_reducible assumption
      | with_reducible refine keep_withClk _ _ ?_ ?_
      | with_reducible refine keep_queueNotice _ _ _ _ ?_
      | with_reducible refine keep_each ?_ ?_
      | intro _)

theorem keep_nextRun {x0 : State} (again : Bool) {s : State} (hk : Kept x0 s) :
    Kept x0 (nextRun again s) := by
  unfold nextRun
  try dsimp only
  repeat' (first | with_reducible exact hk | with_reducible refine keep_State_setLedger _ ?_ | with_reducible refine keep_ite ?_ ?_)

theorem keep_nextHeat {x0 : State} {s : State} (hk : Kept x0 s) :
    Kept x0 (nextHeat s) := by
  unfold nextHeat
  try dsimp only
  repeat' (first
      | with_reducible exact hk
      | with_reducible refine keep_State_setCap _ ?_
      | with_reducible refine keep_State_setJob _ ?_
      | with_reducible refine keep_nextRun _ ?_
      | split)

theorem keep_freshSlot {x0 : State} {s : State} (hk : Kept x0 s) :
    Kept x0 (freshSlot s) := by
  unfold freshSlot
  try dsimp only
  repeat' (first
      | with_reducible exact hk
      | with_reducible refine keep_State_setLedger _ ?_
      | with_reducible refine keep_holdOwn _ _ _ _ ?_
      | with_reducible refine keep_recordRetract _ _ _ ?_
      | split)

theorem keep_endSlot {x0 : State} {s : State} (hk : Kept x0 s) :
    Kept x0 (endSlot s) := by
  unfold endSlot
  try dsimp only
  repeat' (first
      | with_reducible exact hk
      | with_reducible refine keep_nextHeat ?_
      | with_reducible refine keep_heatNotices ?_
      | with_reducible refine keep_writeHeatRecord ?_
      | with_reducible refine keep_freshSlot ?_
      | with_reducible refine keep_State_setJob _ ?_)

theorem keep_reloadFaulty {x0 : State} {s : State} (hk : Kept x0 s) :
    Kept x0 (reloadFaulty s) := by
  unfold reloadFaulty
  try dsimp only
  repeat' (first | with_reducible exact hk | with_reducible refine keep_State_setPar _ ?_ | with_reducible refine keep_reloadUnits _ ?_)

theorem keep_followFlask {x0 : State} (p : ℕ) {s : State} (hk : Kept x0 s) :
    Kept x0 (followFlask old p s) := by
  unfold followFlask
  try dsimp only
  repeat' (first | with_reducible exact hk | with_reducible refine keep_State_setFab _ ?_)

theorem keep_swapSpares {x0 : State} {s : State} (hk : Kept x0 s) :
    Kept x0 (swapSpares s) := by
  unfold swapSpares
  try dsimp only
  repeat' (first
      | with_reducible exact hk
      | with_reducible assumption
      | with_reducible refine keep_State_setLedger _ ?_
      | with_reducible refine keep_settleAll ?_
      | with_reducible refine keep_followFlask _ ?_
      | with_reducible refine keep_each ?_ ?_
      | intro _)

theorem keep_swapGates {x0 : State} {s : State} (hk : Kept x0 s) :
    Kept x0 (swapGates s) := by
  unfold swapGates
  try dsimp only
  repeat' (first
      | with_reducible exact hk
      | with_reducible refine keep_swapSpares ?_
      | with_reducible refine keep_State_setJob _ ?_
      | with_reducible refine keep_ite ?_ ?_
      | with_reducible exact id
      | with_reducible exact FuseKept.refl _
      | with_reducible refine keep_mk ?_ ?_ ?_)

theorem keep_fixArmed {x0 : State} {s : State} (hk : Kept x0 s) :
    Kept x0 (fixArmed s) := by
  unfold fixArmed
  try dsimp only
  repeat' (first | with_reducible exact hk | with_reducible refine keep_State_setJob _ ?_)

theorem keep_keepChanges {x0 : State} (a : ℕ) (flags : Word) (ctr : Tab ℕ) {s : State} (hk : Kept x0 s) :
    Kept x0 (keepChanges a flags ctr s) := by
  unfold keepChanges
  try dsimp only
  repeat' (first
      | with_reducible exact hk
      | with_reducible assumption
      | with_reducible refine keep_keepPast _ _ _ ?_
      | with_reducible refine keep_each ?_ ?_
      | split
      | intro _)

theorem keep_startStation {x0 : State} (a : ℕ) {s : State} (hk : Kept x0 s) :
    Kept x0 (startStation a s) := by
  unfold startStation
  try dsimp only
  repeat' (first
      | with_reducible exact hk
      | with_reducible refine keep_State_setStation _ _ ?_
      | with_reducible refine keep_keepChanges _ _ _ ?_)

theorem keep_startStations {x0 : State} {s : State} (hk : Kept x0 s) :
    Kept x0 (startStations s) := by
  unfold startStations
  try dsimp only
  repeat' (first
      | with_reducible exact hk
      | with_reducible assumption
      | with_reducible refine keep_startStation _ ?_
      | with_reducible refine keep_each ?_ ?_
      | intro _)

theorem keep_startEngines {x0 : State} {s : State} (hk : Kept x0 s) :
    Kept x0 (startEngines s) := by
  unfold startEngines
  try dsimp only
  repeat' (first
      | with_reducible exact hk
      | with_reducible exact id
      | with_reducible exact FuseKept.refl _
      | with_reducible refine keep_mk ?_ ?_ ?_)

theorem keep_startMembers {x0 : State} (down : List ℕ) {s : State} (hk : Kept x0 s) :
    Kept x0 (startMembers down s) := by
  unfold startMembers
  try dsimp only
  repeat' (first
      | with_reducible exact hk
      | with_reducible refine keep_State_setLedger _ ?_
      | with_reducible refine keep_removeMembers _ ?_
      | with_reducible exact id
      | with_reducible exact FuseKept.refl _
      | with_reducible refine keep_mk ?_ ?_ ?_)

theorem keep_captureHeat {x0 : State} {s : State} (hk : Kept x0 s) :
    Kept x0 (captureHeat s) := by
  unfold captureHeat
  try dsimp only
  repeat' (first | with_reducible exact hk | with_reducible refine keep_pushMark _ ?_ | with_reducible refine keep_State_setCap _ ?_)

theorem keep_captureSlot {x0 : State} {s : State} (hk : Kept x0 s) :
    Kept x0 (captureSlot s) := by
  unfold captureSlot
  try dsimp only
  repeat' (first
      | with_reducible exact hk
      | with_reducible refine keep_State_setCap _ ?_
      | with_reducible refine keep_pushMark _ ?_
      | with_reducible refine keep_captureHeat ?_
      | with_reducible refine keep_ite ?_ ?_)

theorem keep_startSlot {x0 : State} (down : List ℕ) {s : State} (hk : Kept x0 s) :
    Kept x0 (startSlot down s) := by
  unfold startSlot
  try dsimp only
  repeat' (first
      | with_reducible exact hk
      | with_reducible refine keep_captureSlot ?_
      | with_reducible refine keep_startMembers _ ?_
      | with_reducible refine keep_startEngines ?_
      | with_reducible refine keep_startStations ?_)

theorem keep_retractLate {x0 : State} {s : State} (hk : Kept x0 s) :
    Kept x0 (retractLate s) := by
  unfold retractLate
  try dsimp only
  repeat' (first
      | with_reducible exact hk
      | with_reducible refine keep_retractEntries _ _ _ _ _ ?_
      | with_reducible refine keep_State_setLedger _ ?_
      | with_reducible refine keep_quenchDue _ _ ?_
      | with_reducible refine keep_ite ?_ ?_
      | split)

theorem keep_openEntriesNow {x0 : State} {s : State} (hk : Kept x0 s) :
    Kept x0 (openEntriesNow s) := by
  unfold openEntriesNow
  try dsimp only
  repeat' (first
      | with_reducible exact hk
      | with_reducible assumption
      | with_reducible refine keep_State_setEntry _ _ ?_
      | with_reducible refine keep_each ?_ ?_
      | with_reducible exact id
      | split
      | intro _)

theorem keep_ledgerPour {x0 : State} {s : State} (hk : Kept x0 s) :
    Kept x0 (ledgerPour s) := by
  unfold ledgerPour
  try dsimp only
  repeat' (first
      | with_reducible exact hk
      | with_reducible refine keep_decide' ?_
      | with_reducible refine keep_openEntriesNow ?_
      | with_reducible refine keep_retractLate ?_)

theorem keep_startPour {x0 : State} {s : State} (hk : Kept x0 s) :
    Kept x0 (startPour s) := by
  unfold startPour
  try dsimp only
  repeat' (first
      | with_reducible exact hk
      | with_reducible refine keep_State_setFab _ ?_
      | with_reducible refine keep_ledgerPour ?_
      | with_reducible refine keep_admitWaiting ?_
      | with_reducible refine keep_setMem ?_ ?_
      | with_reducible exact id
      | with_reducible exact FuseKept.refl _
      | with_reducible refine keep_mk ?_ ?_ ?_)

theorem keep_advance {x0 : State} (slot : Bool) {s : State} (hk : Kept x0 s) :
    Kept x0 (advance slot s) := by
  unfold advance
  try dsimp only
  repeat' (first
      | with_reducible exact hk
      | with_reducible refine keep_endSlot ?_
      | with_reducible refine keep_State_setJob _ ?_
      | with_reducible refine keep_fixArmed ?_
      | with_reducible refine keep_swapGates ?_
      | with_reducible refine keep_reloadFaulty ?_
      | with_reducible refine keep_takeViews ?_
      | with_reducible refine keep_startPour ?_
      | with_reducible refine keep_startSlot _ ?_
      | with_reducible refine keep_ite ?_ ?_
      | with_reducible exact id
      | with_reducible exact FuseKept.refl _
      | with_reducible refine keep_mk ?_ ?_ ?_)

theorem keep_boundary {x0 : State} {s : State} (hk : Kept x0 s) :
    Kept x0 (boundary s) := by
  unfold boundary
  try dsimp only
  repeat' (first
      | with_reducible exact hk
      | with_reducible refine keep_loseTime _ ?_
      | with_reducible refine keep_quenchNow ?_
      | with_reducible refine keep_quenchDue _ _ ?_
      | with_reducible refine keep_slotSwitch ?_
      | with_reducible refine keep_endRecords ?_
      | with_reducible refine keep_advance _ ?_
      | with_reducible refine keep_ite ?_ ?_
      | split)

theorem keep_execPourBoundary {x0 : State} {s : State} (hk : Kept x0 s) :
    KeptOut x0 (execPourBoundary s) := by
  unfold execPourBoundary
  try dsimp only
  repeat' (first
      | with_reducible exact hk
      | with_reducible refine keep_boundary ?_
      | with_reducible refine keep_ite ?_ ?_
      | with_reducible refine keep_next ?_)

theorem keep_startPolicers {x0 : State} {s : State} (hk : Kept x0 s) :
    Kept x0 (startPolicers s) := by
  unfold startPolicers
  try dsimp only
  repeat' (first
      | with_reducible exact hk
      | with_reducible assumption
      | with_reducible refine keep_State_setPolicer _ _ ?_
      | with_reducible refine keep_each ?_ ?_
      | intro _)

theorem keep_firstHeat {x0 : State} {s : State} (hk : Kept x0 s) :
    Kept x0 (firstHeat s) := by
  unfold firstHeat
  try dsimp only
  repeat' (first | with_reducible exact hk | with_reducible refine keep_State_setJob _ ?_ | split)

theorem keep_firstPourOfRun {x0 : State} {s : State} (hk : Kept x0 s) :
    Kept x0 (firstPourOfRun s) := by
  unfold firstPourOfRun
  try dsimp only
  repeat' (first
      | with_reducible exact hk
      | with_reducible assumption
      | with_reducible refine keep_State_setFab _ ?_
      | with_reducible refine keep_startPolicers ?_
      | with_reducible refine keep_State_setPort _ _ ?_
      | with_reducible refine keep_State_setCap _ ?_
      | with_reducible refine keep_startPour ?_
      | with_reducible refine keep_startSlot _ ?_
      | with_reducible refine keep_fixArmed ?_
      | with_reducible refine keep_takeViews ?_
      | with_reducible refine keep_freshSlot ?_
      | with_reducible refine keep_firstHeat ?_
      | with_reducible refine keep_each ?_ ?_
      | intro _)

theorem keep_enterRun {x0 : State} {s : State} (hk : Kept x0 s) :
    Kept x0 (enterRun s) := by
  unfold enterRun
  try dsimp only
  repeat' (first
      | with_reducible exact hk
      | with_reducible refine keep_enterPhase _ ?_
      | with_reducible refine keep_State_setJob _ ?_
      | with_reducible refine keep_loseTime _ ?_
      | with_reducible refine keep_firstPourOfRun ?_
      | with_reducible refine keep_quenchNow ?_
      | with_reducible refine keep_ite ?_ ?_)

theorem keep_execEpochStart {x0 : State} {s : State} (hk : Kept x0 s) :
    KeptOut x0 (execEpochStart s) := by
  unfold execEpochStart
  try dsimp only
  repeat' (first
      | with_reducible exact hk
      | with_reducible refine keep_enterRun ?_
      | with_reducible refine keep_ite ?_ ?_
      | with_reducible refine keep_next ?_)

end Sys2Proof.Machine
end

