-- ==== Sys2Proof/Laws/KeptHost.lean ====
section
/-!
SUPPORT. What every operation keeps (`Kept`): the mailbox, the host's rows, lines on the rings, SPDM, the crossbars and the tick.
-/

namespace Sys2Proof.Machine

theorem keep_startMb {x0 : State} (op : ℕ) (f : State → State) {s : State} (kf : ∀ t, Kept x0 t → Kept x0 (f  t)) (hk : Kept x0 s) :
    Kept x0 (startMb op f s) := by
  unfold startMb
  try dsimp only
  repeat' (first
      | with_reducible exact hk
      | refine kf _ ?_
      | with_reducible refine keep_State_setHost _ ?_
      | with_reducible refine keep_ite ?_ ?_)

theorem keep_endMb {x0 : State} (code : ℕ) {s : State} (hk : Kept x0 s) :
    Kept x0 (endMb code s) := by
  unfold endMb
  try dsimp only
  repeat' (first | with_reducible exact hk | with_reducible refine keep_State_setHost _ ?_)

theorem keep_setMbData {x0 : State} (ws : List Word) {s : State} (hk : Kept x0 s) :
    Kept x0 (setMbData ws s) := by
  unfold setMbData
  try dsimp only
  repeat' (first | with_reducible exact hk | with_reducible refine keep_State_setHost _ ?_)

theorem keep_doneMb {x0 : State} (ws : List Word) {s : State} (hk : Kept x0 s) :
    Kept x0 (doneMb ws s) := by
  unfold doneMb
  try dsimp only
  repeat' (first | with_reducible exact hk | with_reducible refine keep_endMb _ ?_ | with_reducible refine keep_setMbData _ ?_)

theorem keep_mbTimeRead {x0 : State} {s : State} (hk : Kept x0 s) :
    Kept x0 (mbTimeRead s) := by
  unfold mbTimeRead
  try dsimp only
  repeat' (first | with_reducible exact hk | with_reducible refine keep_doneMb _ ?_)

theorem keep_mbPowerFine {x0 : State} (mw : BitVec 32) (mv : BitVec 32) (ma : BitVec 32) (peak : BitVec 32) (bus : BitVec 32) {s : State} (hk : Kept x0 s) :
    Kept x0 (mbPowerFine mw mv ma peak bus s) := by
  unfold mbPowerFine
  try dsimp only
  repeat' (first | with_reducible exact hk | with_reducible refine keep_doneMb _ ?_)

theorem keep_mbMeasRead {x0 : State} {s : State} (hk : Kept x0 s) :
    Kept x0 (mbMeasRead s) := by
  unfold mbMeasRead
  try dsimp only
  repeat' (first
      | with_reducible exact hk
      | with_reducible refine keep_doneMb _ ?_
      | with_reducible refine keep_endMb _ ?_
      | with_reducible refine keep_ite ?_ ?_)

theorem keep_mbFuse {x0 : State} (setting newV own : ℕ) {s : State} (hr : own = 0 → exhausted s setting = false → s.fuse.room (newRecord setting newV s)) (hk : Kept x0 s) :
    Kept x0 (mbFuse setting newV own s) := by
  unfold mbFuse
  split
  · exact keep_endMb _ hk
  · next h =>
    obtain ⟨ho, he, hl⟩ := fuseStatus_zero (not_not.1 h)
    exact keep_openChange _ _ _ ⟨hl, hr ho he⟩ hk

theorem keep_mbFuseSvc {x0 : State} {s : State} (hk : Kept x0 s) :
    Kept x0 (mbFuseSvc s) := by
  refine keep_mbFuse _ _ _ (fun h _ => ?_) hk
  split at h
  · next hc => exact ⟨hc.1, hc.2.1⟩
  · exact absurd h (by decide)

theorem keep_mbFuseLock {x0 : State} {s : State} (hk : Kept x0 s) :
    Kept x0 (mbFuseLock s) := by
  refine keep_mbFuse _ _ _ (fun _ e => ?_) hk
  refine ⟨by simpa [exhausted] using e, ?_⟩
  show (if s.boot.slot then 3 else 2) = 2 ∨ (if s.boot.slot then 3 else 2) = 3
  split <;> simp

theorem keep_mbFuseDebugOff {x0 : State} {s : State} (hk : Kept x0 s) :
    Kept x0 (mbFuseDebugOff s) :=
  keep_mbFuse _ _ _ (fun _ e => e) hk

theorem keep_mbFuseKeyset {x0 : State} {s : State} (hk : Kept x0 s) :
    Kept x0 (mbFuseKeyset s) := by
  refine keep_mbFuse _ _ _ (fun h e => ?_) hk
  refine ⟨by simpa [exhausted] using e, ?_⟩
  split at h
  · exact absurd h (by decide)
  · next hc => exact Nat.le_of_not_lt fun l => hc (.inl l)

theorem keep_mbLedgerRead {x0 : State} {s : State} (hk : Kept x0 s) :
    Kept x0 (mbLedgerRead s) := by
  unfold mbLedgerRead
  try dsimp only
  repeat' (first
      | with_reducible exact hk
      | with_reducible refine keep_endMb _ ?_
      | with_reducible refine keep_doneMb _ ?_
      | with_reducible refine keep_ite ?_ ?_)

theorem keep_endFuseMb {x0 : State} {s : State} (hk : Kept x0 s) :
    Kept x0 (endFuseMb s) := by
  unfold endFuseMb
  try dsimp only
  repeat' (first | with_reducible exact hk | with_reducible refine keep_endMb _ ?_ | with_reducible refine keep_ite ?_ ?_)

theorem keep_fuseProgrammed {x0 : State} {s : State} (hk : Kept x0 s) :
    Kept x0 (fuseProgrammed s) := by
  unfold fuseProgrammed
  try dsimp only
  repeat' (first
      | with_reducible exact hk
      | with_reducible refine keep_closeChange _ ?_
      | with_reducible refine keep_endFuseMb ?_
      | with_reducible refine keep_ite ?_ ?_)

theorem keep_mbShakeout {x0 : State} {s : State} (hk : Kept x0 s) :
    Kept x0 (mbShakeout s) := by
  unfold mbShakeout
  try dsimp only
  repeat' (first
      | with_reducible exact hk
      | with_reducible refine keep_endMb _ ?_
      | with_reducible refine keep_setMem ?_ ?_
      | with_reducible refine keep_ite ?_ ?_
      | with_reducible exact id)

theorem keep_shakeoutDone {x0 : State} {s : State} (hk : Kept x0 s) :
    Kept x0 (shakeoutDone s) := by
  unfold shakeoutDone
  try dsimp only
  repeat' (first
      | with_reducible exact hk
      | with_reducible refine keep_setMem ?_ ?_
      | with_reducible refine keep_ite ?_ ?_
      | with_reducible exact id)

theorem keep_mbFlashCopy {x0 : State} {s : State} (hk : Kept x0 s) :
    Kept x0 (mbFlashCopy s) := by
  unfold mbFlashCopy
  try dsimp only
  repeat' (first
      | with_reducible exact hk
      | with_reducible refine keep_endMb _ ?_
      | with_reducible refine keep_ite ?_ ?_
      | with_reducible exact id
      | with_reducible exact FuseKept.refl _
      | with_reducible refine keep_mk ?_ ?_ ?_)

theorem keep_copyLines {x0 : State} (ls : List ℕ) {s : State} (hk : Kept x0 s) :
    Kept x0 (copyLines ls s).2 := by
  unfold copyLines
  try dsimp only
  repeat' (first
      | with_reducible exact hk
      | with_reducible assumption
      | with_reducible refine keep_readLine _ _ _ ?_
      | with_reducible refine keep_foldl ?_ ?_
      | intro _)

theorem keep_flashCopyDone {x0 : State} {s : State} (hk : Kept x0 s) :
    Kept x0 (flashCopyDone s) := by
  unfold flashCopyDone
  try dsimp only
  repeat' (first
      | with_reducible exact hk
      | with_reducible refine keep_copyLines _ ?_
      | with_reducible refine keep_endMb _ ?_
      | with_reducible exact id
      | with_reducible exact FuseKept.refl _
      | split
      | with_reducible refine keep_mk ?_ ?_ ?_)

theorem keep_mbBootPref {x0 : State} {s : State} (hk : Kept x0 s) :
    Kept x0 (mbBootPref s) := by
  unfold mbBootPref
  try dsimp only
  repeat' (first
      | with_reducible exact hk
      | with_reducible refine keep_endMb _ ?_
      | with_reducible refine keep_ite ?_ ?_
      | with_reducible exact id
      | with_reducible exact FuseKept.refl _
      | with_reducible refine keep_mk ?_ ?_ ?_)

theorem keep_writeMbCmd {x0 : State} (op : ℕ) {s : State} (hk : Kept x0 s) :
    Kept x0 (writeMbCmd op s) := by
  unfold writeMbCmd
  try dsimp only
  repeat' (first
      | with_reducible exact hk
      | with_reducible assumption
      | with_reducible refine keep_startMb _ _ ?_ ?_
      | with_reducible refine keep_mbTimeRead ?_
      | with_reducible refine keep_mbPowerFine _ _ _ _ _ ?_
      | with_reducible refine keep_mbMeasRead ?_
      | with_reducible refine keep_mbFuseSvc ?_
      | with_reducible refine keep_mbFuseLock ?_
      | with_reducible refine keep_mbFuseDebugOff ?_
      | with_reducible refine keep_mbFuseKeyset ?_
      | with_reducible refine keep_mbLedgerRead ?_
      | with_reducible refine keep_mbShakeout ?_
      | with_reducible refine keep_mbFlashCopy ?_
      | with_reducible refine keep_mbBootPref ?_
      | with_reducible refine keep_endMb _ ?_
      | split
      | intro _)

theorem keep_execTimeRead {x0 : State} {s : State} (hk : Kept x0 s) :
    KeptOut x0 (execTimeRead s) := by
  unfold execTimeRead
  try dsimp only
  repeat' (first
      | with_reducible exact hk
      | with_reducible assumption
      | with_reducible refine keep_onMain _ ?_ ?_
      | with_reducible refine keep_startMb _ _ ?_ ?_
      | with_reducible refine keep_mbTimeRead ?_
      | intro _)

theorem keep_execPowerFine {x0 : State} (mw : BitVec 32) (mv : BitVec 32) (ma : BitVec 32) (peakMw : BitVec 32) (busMv : BitVec 32) {s : State} (hk : Kept x0 s) :
    KeptOut x0 (execPowerFine mw mv ma peakMw busMv s) := by
  unfold execPowerFine
  try dsimp only
  repeat' (first
      | with_reducible exact hk
      | with_reducible assumption
      | with_reducible refine keep_onMain _ ?_ ?_
      | with_reducible refine keep_startMb _ _ ?_ ?_
      | with_reducible refine keep_mbPowerFine _ _ _ _ _ ?_
      | intro _)

theorem keep_execMeasRead {x0 : State} {s : State} (hk : Kept x0 s) :
    KeptOut x0 (execMeasRead s) := by
  unfold execMeasRead
  try dsimp only
  repeat' (first
      | with_reducible exact hk
      | with_reducible assumption
      | with_reducible refine keep_onMain _ ?_ ?_
      | with_reducible refine keep_startMb _ _ ?_ ?_
      | with_reducible refine keep_mbMeasRead ?_
      | intro _)

theorem keep_execFuseSvc {x0 : State} {s : State} (hk : Kept x0 s) :
    KeptOut x0 (execFuseSvc s) := by
  unfold execFuseSvc
  try dsimp only
  repeat' (first
      | with_reducible exact hk
      | with_reducible assumption
      | with_reducible refine keep_onMain _ ?_ ?_
      | with_reducible refine keep_startMb _ _ ?_ ?_
      | with_reducible refine keep_mbFuseSvc ?_
      | intro _)

theorem keep_execFuseLock {x0 : State} {s : State} (hk : Kept x0 s) :
    KeptOut x0 (execFuseLock s) := by
  unfold execFuseLock
  try dsimp only
  repeat' (first
      | with_reducible exact hk
      | with_reducible assumption
      | with_reducible refine keep_onMain _ ?_ ?_
      | with_reducible refine keep_startMb _ _ ?_ ?_
      | with_reducible refine keep_mbFuseLock ?_
      | intro _)

theorem keep_execFuseDebugOff {x0 : State} {s : State} (hk : Kept x0 s) :
    KeptOut x0 (execFuseDebugOff s) := by
  unfold execFuseDebugOff
  try dsimp only
  repeat' (first
      | with_reducible exact hk
      | with_reducible assumption
      | with_reducible refine keep_onMain _ ?_ ?_
      | with_reducible refine keep_startMb _ _ ?_ ?_
      | with_reducible refine keep_mbFuseDebugOff ?_
      | intro _)

theorem keep_execFuseKeyset {x0 : State} {s : State} (hk : Kept x0 s) :
    KeptOut x0 (execFuseKeyset s) := by
  unfold execFuseKeyset
  try dsimp only
  repeat' (first
      | with_reducible exact hk
      | with_reducible assumption
      | with_reducible refine keep_onMain _ ?_ ?_
      | with_reducible refine keep_startMb _ _ ?_ ?_
      | with_reducible refine keep_mbFuseKeyset ?_
      | intro _)

theorem keep_execLedgerRead {x0 : State} {s : State} (hk : Kept x0 s) :
    KeptOut x0 (execLedgerRead s) := by
  unfold execLedgerRead
  try dsimp only
  repeat' (first
      | with_reducible exact hk
      | with_reducible assumption
      | with_reducible refine keep_onMain _ ?_ ?_
      | with_reducible refine keep_startMb _ _ ?_ ?_
      | with_reducible refine keep_mbLedgerRead ?_
      | intro _)

theorem keep_execShakeout {x0 : State} {s : State} (hk : Kept x0 s) :
    KeptOut x0 (execShakeout s) := by
  unfold execShakeout
  try dsimp only
  repeat' (first
      | with_reducible exact hk
      | with_reducible assumption
      | with_reducible refine keep_onMain _ ?_ ?_
      | with_reducible refine keep_startMb _ _ ?_ ?_
      | with_reducible refine keep_mbShakeout ?_
      | intro _)

theorem keep_execFlashCopy {x0 : State} {s : State} (hk : Kept x0 s) :
    KeptOut x0 (execFlashCopy s) := by
  unfold execFlashCopy
  try dsimp only
  repeat' (first
      | with_reducible exact hk
      | with_reducible assumption
      | with_reducible refine keep_onMain _ ?_ ?_
      | with_reducible refine keep_startMb _ _ ?_ ?_
      | with_reducible refine keep_mbFlashCopy ?_
      | intro _)

theorem keep_execBootPref {x0 : State} {s : State} (hk : Kept x0 s) :
    KeptOut x0 (execBootPref s) := by
  unfold execBootPref
  try dsimp only
  repeat' (first
      | with_reducible exact hk
      | with_reducible assumption
      | with_reducible refine keep_onMain _ ?_ ?_
      | with_reducible refine keep_startMb _ _ ?_ ?_
      | with_reducible refine keep_mbBootPref ?_
      | intro _)

theorem keep_execBadOp {x0 : State} (op : BitVec 8) {s : State} (hk : Kept x0 s) :
    KeptOut x0 (execBadOp op s) := by
  unfold execBadOp
  try dsimp only
  repeat' (first
      | with_reducible exact hk
      | with_reducible assumption
      | with_reducible refine keep_onMain _ ?_ ?_
      | with_reducible refine keep_startMb _ _ ?_ ?_
      | with_reducible refine keep_endMb _ ?_
      | with_reducible exact keep_refused
      | split
      | intro _)

theorem keep_execFuseProgrammed {x0 : State} {s : State} (hk : Kept x0 s) :
    KeptOut x0 (execFuseProgrammed s) := by
  unfold execFuseProgrammed
  try dsimp only
  repeat' (first | with_reducible exact hk | with_reducible refine keep_fuseProgrammed ?_ | with_reducible refine keep_next ?_)

theorem keep_execFlashCopyDone {x0 : State} {s : State} (hk : Kept x0 s) :
    KeptOut x0 (execFlashCopyDone s) := by
  unfold execFlashCopyDone
  try dsimp only
  repeat' (first
      | with_reducible exact hk
      | with_reducible assumption
      | with_reducible refine keep_onMain _ ?_ ?_
      | with_reducible refine keep_flashCopyDone ?_
      | intro _)

theorem keep_execShakeoutDone {x0 : State} {s : State} (hk : Kept x0 s) :
    KeptOut x0 (execShakeoutDone s) := by
  unfold execShakeoutDone
  try dsimp only
  repeat' (first
      | with_reducible exact hk
      | with_reducible assumption
      | with_reducible refine keep_onMain _ ?_ ?_
      | with_reducible refine keep_shakeoutDone ?_
      | intro _)

theorem keep_hostRead {x0 : State} (addr : ℕ) (size : ℕ) {s : State} (hk : Kept x0 s) :
    Kept x0 (hostRead addr size s) := by
  unfold hostRead
  try dsimp only
  repeat' (first
      | with_reducible exact hk
      | with_reducible refine keep_readDirect _ _ _ ?_
      | with_reducible refine keep_State_setHost _ ?_
      | with_reducible refine keep_ite ?_ ?_)

theorem keep_hostWrite {x0 : State} (addr : ℕ) (size : ℕ) (w : Word) {s : State} (hk : Kept x0 s) :
    Kept x0 (hostWrite addr size w s) := by
  unfold hostWrite
  try dsimp only
  repeat' (first
      | with_reducible exact hk
      | with_reducible refine keep_writeIdx _ _ ?_
      | with_reducible refine keep_writeMbCmd _ ?_
      | with_reducible refine keep_sendWrite _ _ _ ?_
      | with_reducible refine keep_ite ?_ ?_)

theorem keep_execReadClear {x0 : State} (addr : BitVec 20) (size : ℕ) {s : State} (hk : Kept x0 s) :
    KeptOut x0 (execReadClear addr size s) := by
  unfold execReadClear
  try dsimp only
  repeat' (first
      | with_reducible exact hk
      | with_reducible assumption
      | with_reducible refine keep_onMain _ ?_ ?_
      | with_reducible refine keep_hostRead _ _ ?_
      | intro _)

theorem keep_execRegisterWrite {x0 : State} (addr : BitVec 20) (size : ℕ) (w : Word) {s : State} (hk : Kept x0 s) :
    KeptOut x0 (execRegisterWrite addr size w s) := by
  unfold execRegisterWrite
  try dsimp only
  repeat' (first
      | with_reducible exact hk
      | with_reducible assumption
      | with_reducible refine keep_onMain _ ?_ ?_
      | with_reducible refine keep_hostWrite _ _ _ ?_
      | intro _)

theorem keep_regData {x0 : State} (w : Word) {s : State} (hk : Kept x0 s) :
    Kept x0 (regData w s) := by
  unfold regData
  try dsimp only
  repeat' (first | with_reducible exact hk | with_reducible refine keep_reply _ _ ?_)

theorem keep_chainRead {x0 : State} (off : ℕ) {s : State} (hk : Kept x0 s) :
    Kept x0 (chainRead off s) := by
  unfold chainRead
  try dsimp only
  repeat' (first | with_reducible exact hk | with_reducible refine keep_readDirect _ _ _ ?_ | with_reducible refine keep_regData _ ?_)

theorem keep_chainWrite {x0 : State} (off : ℕ) (w : Word) {s : State} (hk : Kept x0 s) :
    Kept x0 (chainWrite off w s) := by
  unfold chainWrite
  try dsimp only
  repeat' (first
      | with_reducible exact hk
      | with_reducible refine keep_writeIdx _ _ ?_
      | with_reducible refine keep_sendWrite _ _ _ ?_
      | with_reducible refine keep_ite ?_ ?_)

theorem keep_execRegRd {x0 : State} (dst : BitVec 8) (off : BitVec 32) (crc : BitVec 16) {s : State} (hk : Kept x0 s) :
    KeptOut x0 (execRegRd dst off crc s) := by
  unfold execRegRd
  try dsimp only
  repeat' (first
      | with_reducible exact hk
      | with_reducible assumption
      | with_reducible refine keep_onFrame _ _ _ _ _ _ ?_ ?_
      | with_reducible refine keep_chainRead _ ?_
      | intro _)

theorem keep_execRegWr {x0 : State} (dst : BitVec 8) (off : BitVec 32) (data : Word) (crc : BitVec 16) {s : State} (hk : Kept x0 s) :
    KeptOut x0 (execRegWr dst off data crc s) := by
  unfold execRegWr
  try dsimp only
  repeat' (first
      | with_reducible exact hk
      | with_reducible assumption
      | with_reducible refine keep_onFrame _ _ _ _ _ _ ?_ ?_
      | with_reducible refine keep_ackFrame ?_
      | with_reducible refine keep_chainWrite _ _ ?_
      | intro _)

theorem keep_execSnapshot {x0 : State} (chain : Bool) (w : Word) {s : State} (hk : Kept x0 s) :
    KeptOut x0 (execSnapshot chain w s) := by
  unfold execSnapshot
  try dsimp only
  repeat' (first
      | with_reducible exact hk
      | with_reducible assumption
      | with_reducible refine keep_ackFrame ?_
      | with_reducible refine keep_chainWrite _ _ ?_
      | with_reducible refine keep_onMain _ ?_ ?_
      | with_reducible refine keep_sendWrite _ _ _ ?_
      | with_reducible refine keep_next ?_
      | split
      | intro _)

theorem keep_execFvSnapCtl {x0 : State} (view : Fin 16) (w : Word) {s : State} (hk : Kept x0 s) :
    KeptOut x0 (execFvSnapCtl view w s) := by
  unfold execFvSnapCtl
  try dsimp only
  repeat' (first
      | with_reducible exact hk
      | with_reducible assumption
      | with_reducible refine keep_onMain _ ?_ ?_
      | with_reducible refine keep_viewCtl _ _ ?_
      | intro _)

theorem keep_execIdxDataRead {x0 : State} (chain : Bool) {s : State} (hk : Kept x0 s) :
    KeptOut x0 (execIdxDataRead chain s) := by
  unfold execIdxDataRead
  try dsimp only
  repeat' (first
      | with_reducible exact hk
      | with_reducible assumption
      | with_reducible refine keep_chainRead _ ?_
      | with_reducible refine keep_onMain _ ?_ ?_
      | with_reducible refine keep_hostRead _ _ ?_
      | with_reducible refine keep_next ?_
      | split
      | intro _)

theorem keep_execIdxDataWrite {x0 : State} (chain : Bool) (w : Word) {s : State} (hk : Kept x0 s) :
    KeptOut x0 (execIdxDataWrite chain w s) := by
  unfold execIdxDataWrite
  try dsimp only
  repeat' (first
      | with_reducible exact hk
      | with_reducible assumption
      | with_reducible refine keep_ackFrame ?_
      | with_reducible refine keep_chainWrite _ _ ?_
      | with_reducible refine keep_onMain _ ?_ ?_
      | with_reducible refine keep_hostWrite _ _ _ ?_
      | with_reducible refine keep_next ?_
      | split
      | intro _)

theorem keep_execHostLinkUp {x0 : State} {s : State} (hk : Kept x0 s) :
    KeptOut x0 (execHostLinkUp s) := by
  unfold execHostLinkUp
  try dsimp only
  repeat' (first
      | with_reducible exact hk
      | with_reducible assumption
      | with_reducible refine keep_onMain _ ?_ ?_
      | with_reducible apply keep_emit
      | with_reducible refine keep_State_setHost _ ?_
      | with_reducible exact id
      | split
      | intro _)

theorem keep_perst {x0 : State} {s : State} (hk : Kept x0 s) :
    Kept x0 (perst s) := by
  unfold perst
  try dsimp only
  repeat' (first
      | with_reducible exact hk
      | with_reducible refine keep_State_setHost _ ?_
      | with_reducible refine keep_setMem ?_ ?_
      | with_reducible exact id)

theorem keep_execPerstN {x0 : State} {s : State} (hk : Kept x0 s) :
    KeptOut x0 (execPerstN s) := by
  unfold execPerstN
  try dsimp only
  repeat' (first
      | with_reducible exact hk
      | with_reducible assumption
      | with_reducible refine keep_onMain _ ?_ ?_
      | with_reducible refine keep_perst ?_
      | intro _)

theorem keep_enterEnd {x0 : State} (a : ℕ) (e : ℕ) (l : Line) {s : State} (hk : Kept x0 s) :
    Kept x0 (enterEnd a e l s) := by
  unfold enterEnd
  try dsimp only
  repeat' (first
      | with_reducible exact hk
      | with_reducible refine keep_violate _ _ _ ?_
      | with_reducible refine keep_appendLine _ _ _ _ ?_
      | with_reducible refine keep_ite ?_ ?_)

theorem keep_dropFlight {x0 : State} (f : Flight) {s : State} (hk : Kept x0 s) :
    Kept x0 (dropFlight f s) := by
  unfold dropFlight
  try dsimp only
  repeat' (first | with_reducible exact hk | with_reducible refine keep_State_setFab _ ?_)

theorem keep_execLineEntry {x0 : State} (st : StAddr) (qend : Fin 8) {s : State} (hk : Kept x0 s) :
    KeptOut x0 (execLineEntry st qend s) := by
  unfold execLineEntry
  try dsimp only
  repeat' (first
      | with_reducible exact hk
      | with_reducible refine keep_enterEnd _ _ _ ?_
      | with_reducible refine keep_dropFlight _ ?_
      | with_reducible refine keep_settle _ ?_
      | with_reducible refine keep_next ?_
      | split)

theorem keep_sendAcross {x0 : State} (a : ℕ) (e : ℕ) {s : State} (hk : Kept x0 s) :
    Kept x0 (sendAcross a e s) := by
  unfold sendAcross
  try dsimp only
  repeat' (first
      | with_reducible exact hk
      | with_reducible refine keep_State_setStation _ _ ?_
      | with_reducible refine keep_State_setFab _ ?_
      | split)

theorem keep_offerLine {x0 : State} (a : ℕ) (blocked : List ℕ) (e : ℕ) {s : State} (hk : Kept x0 s) :
    Kept x0 (offerLine a blocked e s) := by
  unfold offerLine
  try dsimp only
  repeat' (first
      | with_reducible exact hk
      | with_reducible refine keep_violate _ _ _ ?_
      | with_reducible refine keep_sendAcross _ _ ?_
      | with_reducible refine keep_ite ?_ ?_)

theorem keep_departLines {x0 : State} (a : ℕ) {s : State} (hk : Kept x0 s) :
    Kept x0 (departLines a s) := by
  unfold departLines
  try dsimp only
  repeat' (first
      | with_reducible exact hk
      | with_reducible assumption
      | with_reducible refine keep_offerLine _ _ _ ?_
      | with_reducible refine keep_ite ?_ ?_
      | with_reducible refine keep_each ?_ ?_
      | intro _)

theorem keep_execLineDepart {x0 : State} (st : StAddr) {s : State} (hk : Kept x0 s) :
    KeptOut x0 (execLineDepart st s) := by
  unfold execLineDepart
  try dsimp only
  repeat' (first
      | with_reducible exact hk
      | with_reducible refine keep_departLines _ ?_
      | with_reducible refine keep_settle _ ?_
      | with_reducible refine keep_next ?_)

theorem keep_slotPass {x0 : State} (ring : ℕ) (dir : ℕ) (entry : ℕ) {s : State} (hk : Kept x0 s) :
    Kept x0 (slotPass ring dir entry s) := by
  unfold slotPass
  try dsimp only
  repeat' (first
      | with_reducible exact hk
      | with_reducible refine keep_useWord _ ?_
      | with_reducible refine keep_State_setStop _ _ ?_
      | with_reducible refine keep_violate _ _ _ ?_
      | with_reducible refine keep_State_setStation _ _ ?_
      | with_reducible refine keep_violateAt _ _ _ _ _ _ ?_
      | with_reducible refine keep_State_setFab _ ?_
      | with_reducible refine keep_ite ?_ ?_
      | split)

theorem keep_execOwnedSlotPass {x0 : State} (ring : Fin 8) (ccw : Bool) (entry : Fin 2048) {s : State} (hk : Kept x0 s) :
    KeptOut x0 (execOwnedSlotPass ring ccw entry s) := by
  unfold execOwnedSlotPass
  try dsimp only
  repeat' (first
      | with_reducible exact hk
      | with_reducible refine keep_slotPass _ _ _ ?_
      | with_reducible refine keep_settle _ ?_
      | with_reducible refine keep_next ?_)

theorem keep_holdAtStop {x0 : State} (f : Flight) {s : State} (hk : Kept x0 s) :
    Kept x0 (holdAtStop f s) := by
  unfold holdAtStop
  try dsimp only
  repeat' (first | with_reducible exact hk | with_reducible refine keep_State_setFab _ ?_)

theorem keep_ringConflict {x0 : State} (f : Flight) {s : State} (hk : Kept x0 s) :
    Kept x0 (ringConflict f s) := by
  unfold ringConflict
  try dsimp only
  repeat' (first | with_reducible exact hk | with_reducible refine keep_violate _ _ _ ?_ | split)

theorem keep_endCrossbarClk {x0 : State} {s : State} (hk : Kept x0 s) :
    Kept x0 (endCrossbarClk s) := by
  unfold endCrossbarClk
  try dsimp only
  repeat' (first
      | with_reducible exact hk
      | with_reducible assumption
      | with_reducible refine keep_State_setFab _ ?_
      | with_reducible refine keep_ringConflict _ ?_
      | with_reducible refine keep_holdAtStop _ ?_
      | with_reducible refine keep_each ?_ ?_
      | intro _)

theorem keep_execContribLineTake {x0 : State} (st : StAddr) (qend : Fin 8) {s : State} (hk : Kept x0 s) :
    KeptOut x0 (execContribLineTake st qend s) := by
  unfold execContribLineTake
  try dsimp only
  repeat' (first
      | with_reducible exact hk
      | with_reducible refine keep_takeContribLine _ _ ?_
      | with_reducible refine keep_ite ?_ ?_
      | with_reducible refine keep_next ?_)

theorem keep_execDeadlineDecision {x0 : State} (inst : BitVec 12) {s : State} (hk : Kept x0 s) :
    KeptOut x0 (execDeadlineDecision inst s) := by
  unfold execDeadlineDecision
  try dsimp only
  repeat' (first | with_reducible exact hk | with_reducible refine keep_deadlineDecision _ ?_ | with_reducible refine keep_next ?_)

theorem keep_onLink {x0 : State} (f : State → State) {s : State} (kf : ∀ t, Kept x0 t → Kept x0 (f  t)) (hk : Kept x0 s) :
    KeptOut x0 (onLink f s) := by
  unfold onLink
  try dsimp only
  repeat' (first
      | with_reducible exact hk
      | with_reducible assumption
      | refine kf _ ?_
      | with_reducible refine keep_onMain _ ?_ ?_
      | with_reducible exact id
      | split
      | intro _)

theorem keep_execDoeDiscovery {x0 : State} (index : ℕ) {s : State} (hk : Kept x0 s) :
    KeptOut x0 (execDoeDiscovery index s) := by
  unfold execDoeDiscovery
  try dsimp only
  repeat' (first | with_reducible exact hk | with_reducible refine keep_onLink _ ?_ ?_ | with_reducible apply keep_emit | intro _)

theorem keep_execTableAccess {x0 : State} (entry : ℕ) {s : State} (hk : Kept x0 s) :
    KeptOut x0 (execTableAccess entry s) := by
  unfold execTableAccess
  try dsimp only
  repeat' (first | with_reducible exact hk | with_reducible refine keep_onLink _ ?_ ?_ | with_reducible apply keep_emit | intro _)

theorem keep_spdmAnswer {x0 : State} (code : ℕ) (req : List Byte) (resp : List Byte) {s : State} (hk : Kept x0 s) :
    Kept x0 (spdmAnswer code req resp s) := by
  unfold spdmAnswer
  try dsimp only
  repeat' (first | with_reducible exact hk | with_reducible apply keep_emit | with_reducible refine keep_State_setHost _ ?_)

theorem keep_spdmError {x0 : State} (reason : ℕ) {s : State} (hk : Kept x0 s) :
    Kept x0 (spdmError reason s) := by
  unfold spdmError
  try dsimp only
  repeat' (first | with_reducible exact hk | with_reducible apply keep_emit)

theorem keep_spdmSigned {x0 : State} (code : ℕ) (req : List Byte) (resp : List Byte) {s : State} (hk : Kept x0 s) :
    Kept x0 (spdmSigned code req resp s) := by
  unfold spdmSigned
  try dsimp only
  repeat' (first | with_reducible exact hk | with_reducible refine keep_spdmAnswer _ _ _ ?_)

theorem keep_spdmVersion {x0 : State} {s : State} (hk : Kept x0 s) :
    Kept x0 (spdmVersion s) := by
  unfold spdmVersion
  try dsimp only
  repeat' (first | with_reducible exact hk | with_reducible refine keep_spdmAnswer _ _ _ ?_ | with_reducible refine keep_State_setHost _ ?_)

theorem keep_execGetVersion {x0 : State} {s : State} (hk : Kept x0 s) :
    KeptOut x0 (execGetVersion s) := by
  unfold execGetVersion
  try dsimp only
  repeat' (first
      | with_reducible exact hk
      | with_reducible assumption
      | with_reducible refine keep_onLink _ ?_ ?_
      | with_reducible refine keep_spdmVersion ?_
      | intro _)

theorem keep_spdmAt {x0 : State} (n : ℕ) (f : State → State) {s : State} (kf : ∀ t, Kept x0 t → Kept x0 (f  t)) (hk : Kept x0 s) :
    KeptOut x0 (spdmAt n f s) := by
  unfold spdmAt
  try dsimp only
  repeat' (first
      | with_reducible exact hk
      | with_reducible assumption
      | refine kf _ ?_
      | with_reducible refine keep_onLink _ ?_ ?_
      | with_reducible refine keep_spdmError _ ?_
      | split
      | intro _)

theorem keep_execGetCapabilities {x0 : State} {s : State} (hk : Kept x0 s) :
    KeptOut x0 (execGetCapabilities s) := by
  unfold execGetCapabilities
  try dsimp only
  repeat' (first
      | with_reducible exact hk
      | with_reducible assumption
      | with_reducible refine keep_spdmAt _ _ ?_ ?_
      | with_reducible refine keep_spdmAnswer _ _ _ ?_
      | with_reducible refine keep_State_setHost _ ?_
      | intro _)

theorem keep_execNegotiateAlgorithms {x0 : State} (sm2 : Bool) (sm3 : Bool) {s : State} (hk : Kept x0 s) :
    KeptOut x0 (execNegotiateAlgorithms sm2 sm3 s) := by
  unfold execNegotiateAlgorithms
  try dsimp only
  repeat' (first
      | with_reducible exact hk
      | with_reducible assumption
      | with_reducible refine keep_spdmAt _ _ ?_ ?_
      | with_reducible refine keep_spdmAnswer _ _ _ ?_
      | with_reducible refine keep_State_setHost _ ?_
      | with_reducible refine keep_spdmError _ ?_
      | split
      | intro _)

theorem keep_execGetDigests {x0 : State} {s : State} (hk : Kept x0 s) :
    KeptOut x0 (execGetDigests s) := by
  unfold execGetDigests
  try dsimp only
  repeat' (first
      | with_reducible exact hk
      | with_reducible assumption
      | with_reducible refine keep_spdmAt _ _ ?_ ?_
      | with_reducible refine keep_spdmAnswer _ _ _ ?_
      | intro _)

theorem keep_execGetCertificate {x0 : State} (slot : ℕ) (offset : ℕ) (len : ℕ) {s : State} (hk : Kept x0 s) :
    KeptOut x0 (execGetCertificate slot offset len s) := by
  unfold execGetCertificate
  try dsimp only
  repeat' (first
      | with_reducible exact hk
      | with_reducible assumption
      | with_reducible refine keep_spdmAt _ _ ?_ ?_
      | with_reducible refine keep_spdmError _ ?_
      | with_reducible refine keep_spdmAnswer _ _ _ ?_
      | split
      | intro _)

theorem keep_execChallenge {x0 : State} (slot : ℕ) (nonce : BitVec 256) {s : State} (hk : Kept x0 s) :
    KeptOut x0 (execChallenge slot nonce s) := by
  unfold execChallenge
  try dsimp only
  repeat' (first
      | with_reducible exact hk
      | with_reducible assumption
      | with_reducible refine keep_spdmAt _ _ ?_ ?_
      | with_reducible refine keep_spdmError _ ?_
      | with_reducible refine keep_spdmSigned _ _ _ ?_
      | split
      | intro _)

theorem keep_execGetMeasurements {x0 : State} (index : ℕ) (nonce : BitVec 256) {s : State} (hk : Kept x0 s) :
    KeptOut x0 (execGetMeasurements index nonce s) := by
  unfold execGetMeasurements
  try dsimp only
  repeat' (first
      | with_reducible exact hk
      | with_reducible assumption
      | with_reducible refine keep_spdmAt _ _ ?_ ?_
      | with_reducible refine keep_spdmError _ ?_
      | with_reducible refine keep_spdmSigned _ _ _ ?_
      | split
      | intro _)

theorem keep_carrySlot {x0 : State} (out : ℕ) (c : Crossing) {s : State} (hk : Kept x0 s) :
    Kept x0 (carrySlot out c s) := by
  unfold carrySlot
  try dsimp only
  repeat' (first | with_reducible exact hk | with_reducible refine keep_State_setFab _ ?_ | with_reducible refine keep_ite ?_ ?_)

theorem keep_serveOutput {x0 : State} (u : List UsedInput × State) (out : ℕ) (hk : Kept x0 u.2) :
    Kept x0 (serveOutput u out).2 := by
  unfold serveOutput
  split
  · exact hk
  · split
    · exact keep_carrySlot out _ hk
    · exact hk

theorem keep_serveCrossbars {x0 : State} {s : State} (hk : Kept x0 s) :
    Kept x0 (serveCrossbars s) :=
  keep_foldl (f := serveOutput) (fun a q h => keep_serveOutput q a h) hk

theorem keep_reachStation {x0 : State} (q : QPkt) {s : State} (hk : Kept x0 s) :
    Kept x0 (reachStation q s) := by
  unfold reachStation
  try dsimp only
  repeat' (first
      | with_reducible exact hk
      | with_reducible refine keep_State_setPort _ _ ?_
      | with_reducible refine keep_poolPush _ _ ?_
      | with_reducible refine keep_deliverOwn _ ?_
      | split)

theorem keep_land {x0 : State} (l : Landing) {s : State} (hk : Kept x0 s) :
    Kept x0 (land l s) := by
  unfold land
  try dsimp only
  repeat' (first
      | with_reducible exact hk
      | with_reducible refine keep_State_setStop _ _ ?_
      | with_reducible refine keep_enqueueEgress _ _ ?_
      | with_reducible refine keep_copyTo _ _ ?_
      | with_reducible refine keep_reachStation _ ?_
      | with_reducible refine keep_forwardLands _ _ ?_
      | with_reducible refine keep_ite ?_ ?_
      | split)

theorem keep_landDue {x0 : State} {s : State} (hk : Kept x0 s) :
    Kept x0 (landDue s) := by
  unfold landDue
  try dsimp only
  repeat' (first
      | with_reducible exact hk
      | with_reducible assumption
      | with_reducible refine keep_land _ ?_
      | with_reducible refine keep_State_setFab _ ?_
      | with_reducible refine keep_ite ?_ ?_
      | with_reducible refine keep_each ?_ ?_
      | intro _)

theorem keep_countStall {x0 : State} (p : ℕ) (i : ℕ) (c : ℕ) {s : State} (hk : Kept x0 s) :
    Kept x0 (countStall p i c s) := by
  unfold countStall
  try dsimp only
  repeat' (first | with_reducible exact hk | with_reducible refine keep_bumpPort _ _ _ ?_ | with_reducible refine keep_ite ?_ ?_)

theorem keep_countPort {x0 : State} (p : ℕ) {s : State} (hk : Kept x0 s) :
    Kept x0 (countPort p s) := by
  unfold countPort
  try dsimp only
  repeat' (first
      | with_reducible exact hk
      | with_reducible assumption
      | with_reducible refine keep_bumpPort _ _ _ ?_
      | with_reducible refine keep_countStall _ _ _ ?_
      | with_reducible refine keep_each ?_ ?_
      | split
      | intro _)

theorem keep_countWait {x0 : State} (k : ℕ) {s : State} (hk : Kept x0 s) :
    Kept x0 (countWait k s) := by
  unfold countWait
  try dsimp only
  repeat' (first | with_reducible exact hk | with_reducible refine keep_stackCtr _ _ _ _ ?_ | with_reducible refine keep_ite ?_ ?_)

theorem keep_countClk {x0 : State} {s : State} (hk : Kept x0 s) :
    Kept x0 (countClk s) := by
  unfold countClk
  try dsimp only
  repeat' (first
      | with_reducible exact hk
      | with_reducible assumption
      | with_reducible refine keep_countPort _ ?_
      | with_reducible refine keep_State_setFab _ ?_
      | with_reducible refine keep_countWait _ ?_
      | with_reducible refine keep_each ?_ ?_
      | with_reducible exact id
      | with_reducible exact FuseKept.refl _
      | intro _
      | with_reducible refine keep_mk ?_ ?_ ?_)

theorem keep_closeAllTags {x0 : State} {s : State} (hk : Kept x0 s) :
    Kept x0 (closeAllTags s) := by
  unfold closeAllTags
  try dsimp only
  repeat' (first
      | with_reducible exact hk
      | with_reducible exact id
      | with_reducible exact FuseKept.refl _
      | with_reducible refine keep_mk ?_ ?_ ?_)

theorem keep_refillAll {x0 : State} {s : State} (hk : Kept x0 s) :
    Kept x0 (refillAll s) := by
  unfold refillAll
  try dsimp only
  repeat' (first
      | with_reducible exact hk
      | with_reducible refine keep_ite ?_ ?_
      | with_reducible exact id
      | with_reducible exact FuseKept.refl _
      | with_reducible refine keep_mk ?_ ?_ ?_)

theorem keep_nextClk {x0 s : State} (hk : Kept x0 s) :
    Kept { x0 with clk := x0.clk + 1 } (nextClk s) :=
  ⟨hk.1, congrArg (· + 1) hk.2, hk.3, hk.4⟩

theorem keep_moveTraffic {x0 : State} {s : State} (hk : Kept x0 s) :
    Kept x0 (moveTraffic s) := by
  unfold moveTraffic
  try dsimp only
  repeat' (first
      | with_reducible exact hk
      | with_reducible refine keep_endCrossbarClk ?_
      | with_reducible refine keep_moveRings ?_
      | with_reducible refine keep_serveCrossbars ?_)

theorem keep_mainTick {x0 s : State} (hk : Kept x0 s) :
    Kept { x0 with clk := x0.clk + 1 } (mainTick s) :=
  keep_applyLater (keep_slewTick (keep_landDue (keep_closeAllTags (keep_refillAll (keep_nextClk (keep_countClk (keep_moveTraffic
    (keep_each (fun a _ h => keep_settle a h) hk))))))))

theorem keep_tick {x0 s : State} (hk : Kept x0 s) :
    Kept { x0 with clk := x0.clk + 1 } (tick s) :=
  keep_ite (keep_mainTick hk) ⟨hk.1, congrArg (· + 1) hk.2, hk.3, hk.4⟩

end Sys2Proof.Machine
end

