-- ==== Sys2Proof/Laws/PerInstr.lean ====
section
/-!
SUPPORT. No family of statements is made per constructor of the syntax; the lemmas about commands are under Sys2Proof/Laws.
-/
end

