-- ==== Sys2Proof/Laws/State.lean ====
section
/-!
SUPPORT. What each update of one unit or group of the state leaves in every field: one lemma per field per update, and the unit read
back after its update.
-/

namespace Sys2Proof.Machine

section
variable (s : State) (f : Power → Power)
@[simp] theorem State.setPwr_pending : (s.setPwr f).pending = s.pending := rfl
@[simp] theorem State.setPwr_clk : (s.setPwr f).clk = s.clk := rfl
@[simp] theorem State.setPwr_pwr : (s.setPwr f).pwr = f s.pwr := rfl
@[simp] theorem State.setPwr_chain : (s.setPwr f).chain = s.chain := rfl
@[simp] theorem State.setPwr_boot : (s.setPwr f).boot = s.boot := rfl
@[simp] theorem State.setPwr_fuse : (s.setPwr f).fuse = s.fuse := rfl
@[simp] theorem State.setPwr_flash : (s.setPwr f).flash = s.flash := rfl
@[simp] theorem State.setPwr_time : (s.setPwr f).time = s.time := rfl
@[simp] theorem State.setPwr_job : (s.setPwr f).job = s.job := rfl
@[simp] theorem State.setPwr_host : (s.setPwr f).host = s.host := rfl
@[simp] theorem State.setPwr_cfg : (s.setPwr f).cfg = s.cfg := rfl
@[simp] theorem State.setPwr_par : (s.setPwr f).par = s.par := rfl
@[simp] theorem State.setPwr_ledger : (s.setPwr f).ledger = s.ledger := rfl
@[simp] theorem State.setPwr_cap : (s.setPwr f).cap = s.cap := rfl
@[simp] theorem State.setPwr_inj : (s.setPwr f).inj = s.inj := rfl
@[simp] theorem State.setPwr_ports : (s.setPwr f).ports = s.ports := rfl
@[simp] theorem State.setPwr_fab : (s.setPwr f).fab = s.fab := rfl
@[simp] theorem State.setPwr_policers : (s.setPwr f).policers = s.policers := rfl
@[simp] theorem State.setPwr_mem : (s.setPwr f).mem = s.mem := rfl
@[simp] theorem State.setPwr_stations : (s.setPwr f).stations = s.stations := rfl
@[simp] theorem State.setPwr_crucibles : (s.setPwr f).crucibles = s.crucibles := rfl
@[simp] theorem State.setPwr_members : (s.setPwr f).members = s.members := rfl
@[simp] theorem State.setPwr_riddles : (s.setPwr f).riddles = s.riddles := rfl
@[simp] theorem State.setPwr_ladles : (s.setPwr f).ladles = s.ladles := rfl
@[simp] theorem State.setPwr_moulds : (s.setPwr f).moulds = s.moulds := rfl
@[simp] theorem State.setPwr_sorters : (s.setPwr f).sorters = s.sorters := rfl
@[simp] theorem State.setPwr_layers : (s.setPwr f).layers = s.layers := rfl
@[simp] theorem State.setPwr_out : (s.setPwr f).out = s.out := rfl
end

section
variable (s : State) (f : Boot → Boot)
@[simp] theorem State.setBoot_pending : (s.setBoot f).pending = s.pending := rfl
@[simp] theorem State.setBoot_clk : (s.setBoot f).clk = s.clk := rfl
@[simp] theorem State.setBoot_pwr : (s.setBoot f).pwr = s.pwr := rfl
@[simp] theorem State.setBoot_chain : (s.setBoot f).chain = s.chain := rfl
@[simp] theorem State.setBoot_boot : (s.setBoot f).boot = f s.boot := rfl
@[simp] theorem State.setBoot_fuse : (s.setBoot f).fuse = s.fuse := rfl
@[simp] theorem State.setBoot_flash : (s.setBoot f).flash = s.flash := rfl
@[simp] theorem State.setBoot_time : (s.setBoot f).time = s.time := rfl
@[simp] theorem State.setBoot_job : (s.setBoot f).job = s.job := rfl
@[simp] theorem State.setBoot_host : (s.setBoot f).host = s.host := rfl
@[simp] theorem State.setBoot_cfg : (s.setBoot f).cfg = s.cfg := rfl
@[simp] theorem State.setBoot_par : (s.setBoot f).par = s.par := rfl
@[simp] theorem State.setBoot_ledger : (s.setBoot f).ledger = s.ledger := rfl
@[simp] theorem State.setBoot_cap : (s.setBoot f).cap = s.cap := rfl
@[simp] theorem State.setBoot_inj : (s.setBoot f).inj = s.inj := rfl
@[simp] theorem State.setBoot_ports : (s.setBoot f).ports = s.ports := rfl
@[simp] theorem State.setBoot_fab : (s.setBoot f).fab = s.fab := rfl
@[simp] theorem State.setBoot_policers : (s.setBoot f).policers = s.policers := rfl
@[simp] theorem State.setBoot_mem : (s.setBoot f).mem = s.mem := rfl
@[simp] theorem State.setBoot_stations : (s.setBoot f).stations = s.stations := rfl
@[simp] theorem State.setBoot_crucibles : (s.setBoot f).crucibles = s.crucibles := rfl
@[simp] theorem State.setBoot_members : (s.setBoot f).members = s.members := rfl
@[simp] theorem State.setBoot_riddles : (s.setBoot f).riddles = s.riddles := rfl
@[simp] theorem State.setBoot_ladles : (s.setBoot f).ladles = s.ladles := rfl
@[simp] theorem State.setBoot_moulds : (s.setBoot f).moulds = s.moulds := rfl
@[simp] theorem State.setBoot_sorters : (s.setBoot f).sorters = s.sorters := rfl
@[simp] theorem State.setBoot_layers : (s.setBoot f).layers = s.layers := rfl
@[simp] theorem State.setBoot_out : (s.setBoot f).out = s.out := rfl
end

section
variable (s : State) (f : Fuse → Fuse)
@[simp] theorem State.setFuse_pending : (s.setFuse f).pending = s.pending := rfl
@[simp] theorem State.setFuse_clk : (s.setFuse f).clk = s.clk := rfl
@[simp] theorem State.setFuse_pwr : (s.setFuse f).pwr = s.pwr := rfl
@[simp] theorem State.setFuse_chain : (s.setFuse f).chain = s.chain := rfl
@[simp] theorem State.setFuse_boot : (s.setFuse f).boot = s.boot := rfl
@[simp] theorem State.setFuse_fuse : (s.setFuse f).fuse = f s.fuse := rfl
@[simp] theorem State.setFuse_flash : (s.setFuse f).flash = s.flash := rfl
@[simp] theorem State.setFuse_time : (s.setFuse f).time = s.time := rfl
@[simp] theorem State.setFuse_job : (s.setFuse f).job = s.job := rfl
@[simp] theorem State.setFuse_host : (s.setFuse f).host = s.host := rfl
@[simp] theorem State.setFuse_cfg : (s.setFuse f).cfg = s.cfg := rfl
@[simp] theorem State.setFuse_par : (s.setFuse f).par = s.par := rfl
@[simp] theorem State.setFuse_ledger : (s.setFuse f).ledger = s.ledger := rfl
@[simp] theorem State.setFuse_cap : (s.setFuse f).cap = s.cap := rfl
@[simp] theorem State.setFuse_inj : (s.setFuse f).inj = s.inj := rfl
@[simp] theorem State.setFuse_ports : (s.setFuse f).ports = s.ports := rfl
@[simp] theorem State.setFuse_fab : (s.setFuse f).fab = s.fab := rfl
@[simp] theorem State.setFuse_policers : (s.setFuse f).policers = s.policers := rfl
@[simp] theorem State.setFuse_mem : (s.setFuse f).mem = s.mem := rfl
@[simp] theorem State.setFuse_stations : (s.setFuse f).stations = s.stations := rfl
@[simp] theorem State.setFuse_crucibles : (s.setFuse f).crucibles = s.crucibles := rfl
@[simp] theorem State.setFuse_members : (s.setFuse f).members = s.members := rfl
@[simp] theorem State.setFuse_riddles : (s.setFuse f).riddles = s.riddles := rfl
@[simp] theorem State.setFuse_ladles : (s.setFuse f).ladles = s.ladles := rfl
@[simp] theorem State.setFuse_moulds : (s.setFuse f).moulds = s.moulds := rfl
@[simp] theorem State.setFuse_sorters : (s.setFuse f).sorters = s.sorters := rfl
@[simp] theorem State.setFuse_layers : (s.setFuse f).layers = s.layers := rfl
@[simp] theorem State.setFuse_out : (s.setFuse f).out = s.out := rfl
end

section
variable (s : State) (f : TimeKeeper → TimeKeeper)
@[simp] theorem State.setTime_pending : (s.setTime f).pending = s.pending := rfl
@[simp] theorem State.setTime_clk : (s.setTime f).clk = s.clk := rfl
@[simp] theorem State.setTime_pwr : (s.setTime f).pwr = s.pwr := rfl
@[simp] theorem State.setTime_chain : (s.setTime f).chain = s.chain := rfl
@[simp] theorem State.setTime_boot : (s.setTime f).boot = s.boot := rfl
@[simp] theorem State.setTime_fuse : (s.setTime f).fuse = s.fuse := rfl
@[simp] theorem State.setTime_flash : (s.setTime f).flash = s.flash := rfl
@[simp] theorem State.setTime_time : (s.setTime f).time = f s.time := rfl
@[simp] theorem State.setTime_job : (s.setTime f).job = s.job := rfl
@[simp] theorem State.setTime_host : (s.setTime f).host = s.host := rfl
@[simp] theorem State.setTime_cfg : (s.setTime f).cfg = s.cfg := rfl
@[simp] theorem State.setTime_par : (s.setTime f).par = s.par := rfl
@[simp] theorem State.setTime_ledger : (s.setTime f).ledger = s.ledger := rfl
@[simp] theorem State.setTime_cap : (s.setTime f).cap = s.cap := rfl
@[simp] theorem State.setTime_inj : (s.setTime f).inj = s.inj := rfl
@[simp] theorem State.setTime_ports : (s.setTime f).ports = s.ports := rfl
@[simp] theorem State.setTime_fab : (s.setTime f).fab = s.fab := rfl
@[simp] theorem State.setTime_policers : (s.setTime f).policers = s.policers := rfl
@[simp] theorem State.setTime_mem : (s.setTime f).mem = s.mem := rfl
@[simp] theorem State.setTime_stations : (s.setTime f).stations = s.stations := rfl
@[simp] theorem State.setTime_crucibles : (s.setTime f).crucibles = s.crucibles := rfl
@[simp] theorem State.setTime_members : (s.setTime f).members = s.members := rfl
@[simp] theorem State.setTime_riddles : (s.setTime f).riddles = s.riddles := rfl
@[simp] theorem State.setTime_ladles : (s.setTime f).ladles = s.ladles := rfl
@[simp] theorem State.setTime_moulds : (s.setTime f).moulds = s.moulds := rfl
@[simp] theorem State.setTime_sorters : (s.setTime f).sorters = s.sorters := rfl
@[simp] theorem State.setTime_layers : (s.setTime f).layers = s.layers := rfl
@[simp] theorem State.setTime_out : (s.setTime f).out = s.out := rfl
end

section
variable (s : State) (f : Job → Job)
@[simp] theorem State.setJob_pending : (s.setJob f).pending = s.pending := rfl
@[simp] theorem State.setJob_clk : (s.setJob f).clk = s.clk := rfl
@[simp] theorem State.setJob_pwr : (s.setJob f).pwr = s.pwr := rfl
@[simp] theorem State.setJob_chain : (s.setJob f).chain = s.chain := rfl
@[simp] theorem State.setJob_boot : (s.setJob f).boot = s.boot := rfl
@[simp] theorem State.setJob_fuse : (s.setJob f).fuse = s.fuse := rfl
@[simp] theorem State.setJob_flash : (s.setJob f).flash = s.flash := rfl
@[simp] theorem State.setJob_time : (s.setJob f).time = s.time := rfl
@[simp] theorem State.setJob_job : (s.setJob f).job = f s.job := rfl
@[simp] theorem State.setJob_host : (s.setJob f).host = s.host := rfl
@[simp] theorem State.setJob_cfg : (s.setJob f).cfg = s.cfg := rfl
@[simp] theorem State.setJob_par : (s.setJob f).par = s.par := rfl
@[simp] theorem State.setJob_ledger : (s.setJob f).ledger = s.ledger := rfl
@[simp] theorem State.setJob_cap : (s.setJob f).cap = s.cap := rfl
@[simp] theorem State.setJob_inj : (s.setJob f).inj = s.inj := rfl
@[simp] theorem State.setJob_ports : (s.setJob f).ports = s.ports := rfl
@[simp] theorem State.setJob_fab : (s.setJob f).fab = s.fab := rfl
@[simp] theorem State.setJob_policers : (s.setJob f).policers = s.policers := rfl
@[simp] theorem State.setJob_mem : (s.setJob f).mem = s.mem := rfl
@[simp] theorem State.setJob_stations : (s.setJob f).stations = s.stations := rfl
@[simp] theorem State.setJob_crucibles : (s.setJob f).crucibles = s.crucibles := rfl
@[simp] theorem State.setJob_members : (s.setJob f).members = s.members := rfl
@[simp] theorem State.setJob_riddles : (s.setJob f).riddles = s.riddles := rfl
@[simp] theorem State.setJob_ladles : (s.setJob f).ladles = s.ladles := rfl
@[simp] theorem State.setJob_moulds : (s.setJob f).moulds = s.moulds := rfl
@[simp] theorem State.setJob_sorters : (s.setJob f).sorters = s.sorters := rfl
@[simp] theorem State.setJob_layers : (s.setJob f).layers = s.layers := rfl
@[simp] theorem State.setJob_out : (s.setJob f).out = s.out := rfl
end

section
variable (s : State) (f : HostLink → HostLink)
@[simp] theorem State.setHost_pending : (s.setHost f).pending = s.pending := rfl
@[simp] theorem State.setHost_clk : (s.setHost f).clk = s.clk := rfl
@[simp] theorem State.setHost_pwr : (s.setHost f).pwr = s.pwr := rfl
@[simp] theorem State.setHost_chain : (s.setHost f).chain = s.chain := rfl
@[simp] theorem State.setHost_boot : (s.setHost f).boot = s.boot := rfl
@[simp] theorem State.setHost_fuse : (s.setHost f).fuse = s.fuse := rfl
@[simp] theorem State.setHost_flash : (s.setHost f).flash = s.flash := rfl
@[simp] theorem State.setHost_time : (s.setHost f).time = s.time := rfl
@[simp] theorem State.setHost_job : (s.setHost f).job = s.job := rfl
@[simp] theorem State.setHost_host : (s.setHost f).host = f s.host := rfl
@[simp] theorem State.setHost_cfg : (s.setHost f).cfg = s.cfg := rfl
@[simp] theorem State.setHost_par : (s.setHost f).par = s.par := rfl
@[simp] theorem State.setHost_ledger : (s.setHost f).ledger = s.ledger := rfl
@[simp] theorem State.setHost_cap : (s.setHost f).cap = s.cap := rfl
@[simp] theorem State.setHost_inj : (s.setHost f).inj = s.inj := rfl
@[simp] theorem State.setHost_ports : (s.setHost f).ports = s.ports := rfl
@[simp] theorem State.setHost_fab : (s.setHost f).fab = s.fab := rfl
@[simp] theorem State.setHost_policers : (s.setHost f).policers = s.policers := rfl
@[simp] theorem State.setHost_mem : (s.setHost f).mem = s.mem := rfl
@[simp] theorem State.setHost_stations : (s.setHost f).stations = s.stations := rfl
@[simp] theorem State.setHost_crucibles : (s.setHost f).crucibles = s.crucibles := rfl
@[simp] theorem State.setHost_members : (s.setHost f).members = s.members := rfl
@[simp] theorem State.setHost_riddles : (s.setHost f).riddles = s.riddles := rfl
@[simp] theorem State.setHost_ladles : (s.setHost f).ladles = s.ladles := rfl
@[simp] theorem State.setHost_moulds : (s.setHost f).moulds = s.moulds := rfl
@[simp] theorem State.setHost_sorters : (s.setHost f).sorters = s.sorters := rfl
@[simp] theorem State.setHost_layers : (s.setHost f).layers = s.layers := rfl
@[simp] theorem State.setHost_out : (s.setHost f).out = s.out := rfl
end

section
variable (s : State) (f : Ledger → Ledger)
@[simp] theorem State.setLedger_pending : (s.setLedger f).pending = s.pending := rfl
@[simp] theorem State.setLedger_clk : (s.setLedger f).clk = s.clk := rfl
@[simp] theorem State.setLedger_pwr : (s.setLedger f).pwr = s.pwr := rfl
@[simp] theorem State.setLedger_chain : (s.setLedger f).chain = s.chain := rfl
@[simp] theorem State.setLedger_boot : (s.setLedger f).boot = s.boot := rfl
@[simp] theorem State.setLedger_fuse : (s.setLedger f).fuse = s.fuse := rfl
@[simp] theorem State.setLedger_flash : (s.setLedger f).flash = s.flash := rfl
@[simp] theorem State.setLedger_time : (s.setLedger f).time = s.time := rfl
@[simp] theorem State.setLedger_job : (s.setLedger f).job = s.job := rfl
@[simp] theorem State.setLedger_host : (s.setLedger f).host = s.host := rfl
@[simp] theorem State.setLedger_cfg : (s.setLedger f).cfg = s.cfg := rfl
@[simp] theorem State.setLedger_par : (s.setLedger f).par = s.par := rfl
@[simp] theorem State.setLedger_ledger : (s.setLedger f).ledger = f s.ledger := rfl
@[simp] theorem State.setLedger_cap : (s.setLedger f).cap = s.cap := rfl
@[simp] theorem State.setLedger_inj : (s.setLedger f).inj = s.inj := rfl
@[simp] theorem State.setLedger_ports : (s.setLedger f).ports = s.ports := rfl
@[simp] theorem State.setLedger_fab : (s.setLedger f).fab = s.fab := rfl
@[simp] theorem State.setLedger_policers : (s.setLedger f).policers = s.policers := rfl
@[simp] theorem State.setLedger_mem : (s.setLedger f).mem = s.mem := rfl
@[simp] theorem State.setLedger_stations : (s.setLedger f).stations = s.stations := rfl
@[simp] theorem State.setLedger_crucibles : (s.setLedger f).crucibles = s.crucibles := rfl
@[simp] theorem State.setLedger_members : (s.setLedger f).members = s.members := rfl
@[simp] theorem State.setLedger_riddles : (s.setLedger f).riddles = s.riddles := rfl
@[simp] theorem State.setLedger_ladles : (s.setLedger f).ladles = s.ladles := rfl
@[simp] theorem State.setLedger_moulds : (s.setLedger f).moulds = s.moulds := rfl
@[simp] theorem State.setLedger_sorters : (s.setLedger f).sorters = s.sorters := rfl
@[simp] theorem State.setLedger_layers : (s.setLedger f).layers = s.layers := rfl
@[simp] theorem State.setLedger_out : (s.setLedger f).out = s.out := rfl
end

section
variable (s : State) (f : Capture → Capture)
@[simp] theorem State.setCap_pending : (s.setCap f).pending = s.pending := rfl
@[simp] theorem State.setCap_clk : (s.setCap f).clk = s.clk := rfl
@[simp] theorem State.setCap_pwr : (s.setCap f).pwr = s.pwr := rfl
@[simp] theorem State.setCap_chain : (s.setCap f).chain = s.chain := rfl
@[simp] theorem State.setCap_boot : (s.setCap f).boot = s.boot := rfl
@[simp] theorem State.setCap_fuse : (s.setCap f).fuse = s.fuse := rfl
@[simp] theorem State.setCap_flash : (s.setCap f).flash = s.flash := rfl
@[simp] theorem State.setCap_time : (s.setCap f).time = s.time := rfl
@[simp] theorem State.setCap_job : (s.setCap f).job = s.job := rfl
@[simp] theorem State.setCap_host : (s.setCap f).host = s.host := rfl
@[simp] theorem State.setCap_cfg : (s.setCap f).cfg = s.cfg := rfl
@[simp] theorem State.setCap_par : (s.setCap f).par = s.par := rfl
@[simp] theorem State.setCap_ledger : (s.setCap f).ledger = s.ledger := rfl
@[simp] theorem State.setCap_cap : (s.setCap f).cap = f s.cap := rfl
@[simp] theorem State.setCap_inj : (s.setCap f).inj = s.inj := rfl
@[simp] theorem State.setCap_ports : (s.setCap f).ports = s.ports := rfl
@[simp] theorem State.setCap_fab : (s.setCap f).fab = s.fab := rfl
@[simp] theorem State.setCap_policers : (s.setCap f).policers = s.policers := rfl
@[simp] theorem State.setCap_mem : (s.setCap f).mem = s.mem := rfl
@[simp] theorem State.setCap_stations : (s.setCap f).stations = s.stations := rfl
@[simp] theorem State.setCap_crucibles : (s.setCap f).crucibles = s.crucibles := rfl
@[simp] theorem State.setCap_members : (s.setCap f).members = s.members := rfl
@[simp] theorem State.setCap_riddles : (s.setCap f).riddles = s.riddles := rfl
@[simp] theorem State.setCap_ladles : (s.setCap f).ladles = s.ladles := rfl
@[simp] theorem State.setCap_moulds : (s.setCap f).moulds = s.moulds := rfl
@[simp] theorem State.setCap_sorters : (s.setCap f).sorters = s.sorters := rfl
@[simp] theorem State.setCap_layers : (s.setCap f).layers = s.layers := rfl
@[simp] theorem State.setCap_out : (s.setCap f).out = s.out := rfl
end

section
variable (s : State) (f : Fabric → Fabric)
@[simp] theorem State.setFab_pending : (s.setFab f).pending = s.pending := rfl
@[simp] theorem State.setFab_clk : (s.setFab f).clk = s.clk := rfl
@[simp] theorem State.setFab_pwr : (s.setFab f).pwr = s.pwr := rfl
@[simp] theorem State.setFab_chain : (s.setFab f).chain = s.chain := rfl
@[simp] theorem State.setFab_boot : (s.setFab f).boot = s.boot := rfl
@[simp] theorem State.setFab_fuse : (s.setFab f).fuse = s.fuse := rfl
@[simp] theorem State.setFab_flash : (s.setFab f).flash = s.flash := rfl
@[simp] theorem State.setFab_time : (s.setFab f).time = s.time := rfl
@[simp] theorem State.setFab_job : (s.setFab f).job = s.job := rfl
@[simp] theorem State.setFab_host : (s.setFab f).host = s.host := rfl
@[simp] theorem State.setFab_cfg : (s.setFab f).cfg = s.cfg := rfl
@[simp] theorem State.setFab_par : (s.setFab f).par = s.par := rfl
@[simp] theorem State.setFab_ledger : (s.setFab f).ledger = s.ledger := rfl
@[simp] theorem State.setFab_cap : (s.setFab f).cap = s.cap := rfl
@[simp] theorem State.setFab_inj : (s.setFab f).inj = s.inj := rfl
@[simp] theorem State.setFab_ports : (s.setFab f).ports = s.ports := rfl
@[simp] theorem State.setFab_fab : (s.setFab f).fab = f s.fab := rfl
@[simp] theorem State.setFab_policers : (s.setFab f).policers = s.policers := rfl
@[simp] theorem State.setFab_mem : (s.setFab f).mem = s.mem := rfl
@[simp] theorem State.setFab_stations : (s.setFab f).stations = s.stations := rfl
@[simp] theorem State.setFab_crucibles : (s.setFab f).crucibles = s.crucibles := rfl
@[simp] theorem State.setFab_members : (s.setFab f).members = s.members := rfl
@[simp] theorem State.setFab_riddles : (s.setFab f).riddles = s.riddles := rfl
@[simp] theorem State.setFab_ladles : (s.setFab f).ladles = s.ladles := rfl
@[simp] theorem State.setFab_moulds : (s.setFab f).moulds = s.moulds := rfl
@[simp] theorem State.setFab_sorters : (s.setFab f).sorters = s.sorters := rfl
@[simp] theorem State.setFab_layers : (s.setFab f).layers = s.layers := rfl
@[simp] theorem State.setFab_out : (s.setFab f).out = s.out := rfl
end

section
variable (s : State) (f : StackedMem → StackedMem)
@[simp] theorem State.setMem_pending : (s.setMem f).pending = s.pending := rfl
@[simp] theorem State.setMem_clk : (s.setMem f).clk = s.clk := rfl
@[simp] theorem State.setMem_pwr : (s.setMem f).pwr = s.pwr := rfl
@[simp] theorem State.setMem_chain : (s.setMem f).chain = s.chain := rfl
@[simp] theorem State.setMem_boot : (s.setMem f).boot = s.boot := rfl
@[simp] theorem State.setMem_fuse : (s.setMem f).fuse = s.fuse := rfl
@[simp] theorem State.setMem_flash : (s.setMem f).flash = s.flash := rfl
@[simp] theorem State.setMem_time : (s.setMem f).time = s.time := rfl
@[simp] theorem State.setMem_job : (s.setMem f).job = s.job := rfl
@[simp] theorem State.setMem_host : (s.setMem f).host = s.host := rfl
@[simp] theorem State.setMem_cfg : (s.setMem f).cfg = s.cfg := rfl
@[simp] theorem State.setMem_par : (s.setMem f).par = s.par := rfl
@[simp] theorem State.setMem_ledger : (s.setMem f).ledger = s.ledger := rfl
@[simp] theorem State.setMem_cap : (s.setMem f).cap = s.cap := rfl
@[simp] theorem State.setMem_inj : (s.setMem f).inj = s.inj := rfl
@[simp] theorem State.setMem_ports : (s.setMem f).ports = s.ports := rfl
@[simp] theorem State.setMem_fab : (s.setMem f).fab = s.fab := rfl
@[simp] theorem State.setMem_policers : (s.setMem f).policers = s.policers := rfl
@[simp] theorem State.setMem_mem : (s.setMem f).mem = f s.mem := rfl
@[simp] theorem State.setMem_stations : (s.setMem f).stations = s.stations := rfl
@[simp] theorem State.setMem_crucibles : (s.setMem f).crucibles = s.crucibles := rfl
@[simp] theorem State.setMem_members : (s.setMem f).members = s.members := rfl
@[simp] theorem State.setMem_riddles : (s.setMem f).riddles = s.riddles := rfl
@[simp] theorem State.setMem_ladles : (s.setMem f).ladles = s.ladles := rfl
@[simp] theorem State.setMem_moulds : (s.setMem f).moulds = s.moulds := rfl
@[simp] theorem State.setMem_sorters : (s.setMem f).sorters = s.sorters := rfl
@[simp] theorem State.setMem_layers : (s.setMem f).layers = s.layers := rfl
@[simp] theorem State.setMem_out : (s.setMem f).out = s.out := rfl
end

section
variable (s : State) (f : Parity → Parity)
@[simp] theorem State.setPar_pending : (s.setPar f).pending = s.pending := rfl
@[simp] theorem State.setPar_clk : (s.setPar f).clk = s.clk := rfl
@[simp] theorem State.setPar_pwr : (s.setPar f).pwr = s.pwr := rfl
@[simp] theorem State.setPar_chain : (s.setPar f).chain = s.chain := rfl
@[simp] theorem State.setPar_boot : (s.setPar f).boot = s.boot := rfl
@[simp] theorem State.setPar_fuse : (s.setPar f).fuse = s.fuse := rfl
@[simp] theorem State.setPar_flash : (s.setPar f).flash = s.flash := rfl
@[simp] theorem State.setPar_time : (s.setPar f).time = s.time := rfl
@[simp] theorem State.setPar_job : (s.setPar f).job = s.job := rfl
@[simp] theorem State.setPar_host : (s.setPar f).host = s.host := rfl
@[simp] theorem State.setPar_cfg : (s.setPar f).cfg = s.cfg := rfl
@[simp] theorem State.setPar_par : (s.setPar f).par = f s.par := rfl
@[simp] theorem State.setPar_ledger : (s.setPar f).ledger = s.ledger := rfl
@[simp] theorem State.setPar_cap : (s.setPar f).cap = s.cap := rfl
@[simp] theorem State.setPar_inj : (s.setPar f).inj = s.inj := rfl
@[simp] theorem State.setPar_ports : (s.setPar f).ports = s.ports := rfl
@[simp] theorem State.setPar_fab : (s.setPar f).fab = s.fab := rfl
@[simp] theorem State.setPar_policers : (s.setPar f).policers = s.policers := rfl
@[simp] theorem State.setPar_mem : (s.setPar f).mem = s.mem := rfl
@[simp] theorem State.setPar_stations : (s.setPar f).stations = s.stations := rfl
@[simp] theorem State.setPar_crucibles : (s.setPar f).crucibles = s.crucibles := rfl
@[simp] theorem State.setPar_members : (s.setPar f).members = s.members := rfl
@[simp] theorem State.setPar_riddles : (s.setPar f).riddles = s.riddles := rfl
@[simp] theorem State.setPar_ladles : (s.setPar f).ladles = s.ladles := rfl
@[simp] theorem State.setPar_moulds : (s.setPar f).moulds = s.moulds := rfl
@[simp] theorem State.setPar_sorters : (s.setPar f).sorters = s.sorters := rfl
@[simp] theorem State.setPar_layers : (s.setPar f).layers = s.layers := rfl
@[simp] theorem State.setPar_out : (s.setPar f).out = s.out := rfl
end

section
variable (s : State) (f : Inject → Inject)
@[simp] theorem State.setInj_pending : (s.setInj f).pending = s.pending := rfl
@[simp] theorem State.setInj_clk : (s.setInj f).clk = s.clk := rfl
@[simp] theorem State.setInj_pwr : (s.setInj f).pwr = s.pwr := rfl
@[simp] theorem State.setInj_chain : (s.setInj f).chain = s.chain := rfl
@[simp] theorem State.setInj_boot : (s.setInj f).boot = s.boot := rfl
@[simp] theorem State.setInj_fuse : (s.setInj f).fuse = s.fuse := rfl
@[simp] theorem State.setInj_flash : (s.setInj f).flash = s.flash := rfl
@[simp] theorem State.setInj_time : (s.setInj f).time = s.time := rfl
@[simp] theorem State.setInj_job : (s.setInj f).job = s.job := rfl
@[simp] theorem State.setInj_host : (s.setInj f).host = s.host := rfl
@[simp] theorem State.setInj_cfg : (s.setInj f).cfg = s.cfg := rfl
@[simp] theorem State.setInj_par : (s.setInj f).par = s.par := rfl
@[simp] theorem State.setInj_ledger : (s.setInj f).ledger = s.ledger := rfl
@[simp] theorem State.setInj_cap : (s.setInj f).cap = s.cap := rfl
@[simp] theorem State.setInj_inj : (s.setInj f).inj = f s.inj := rfl
@[simp] theorem State.setInj_ports : (s.setInj f).ports = s.ports := rfl
@[simp] theorem State.setInj_fab : (s.setInj f).fab = s.fab := rfl
@[simp] theorem State.setInj_policers : (s.setInj f).policers = s.policers := rfl
@[simp] theorem State.setInj_mem : (s.setInj f).mem = s.mem := rfl
@[simp] theorem State.setInj_stations : (s.setInj f).stations = s.stations := rfl
@[simp] theorem State.setInj_crucibles : (s.setInj f).crucibles = s.crucibles := rfl
@[simp] theorem State.setInj_members : (s.setInj f).members = s.members := rfl
@[simp] theorem State.setInj_riddles : (s.setInj f).riddles = s.riddles := rfl
@[simp] theorem State.setInj_ladles : (s.setInj f).ladles = s.ladles := rfl
@[simp] theorem State.setInj_moulds : (s.setInj f).moulds = s.moulds := rfl
@[simp] theorem State.setInj_sorters : (s.setInj f).sorters = s.sorters := rfl
@[simp] theorem State.setInj_layers : (s.setInj f).layers = s.layers := rfl
@[simp] theorem State.setInj_out : (s.setInj f).out = s.out := rfl
end

section
variable (s : State) (f : Chain → Chain)
@[simp] theorem State.setChain_pending : (s.setChain f).pending = s.pending := rfl
@[simp] theorem State.setChain_clk : (s.setChain f).clk = s.clk := rfl
@[simp] theorem State.setChain_pwr : (s.setChain f).pwr = s.pwr := rfl
@[simp] theorem State.setChain_chain : (s.setChain f).chain = f s.chain := rfl
@[simp] theorem State.setChain_boot : (s.setChain f).boot = s.boot := rfl
@[simp] theorem State.setChain_fuse : (s.setChain f).fuse = s.fuse := rfl
@[simp] theorem State.setChain_flash : (s.setChain f).flash = s.flash := rfl
@[simp] theorem State.setChain_time : (s.setChain f).time = s.time := rfl
@[simp] theorem State.setChain_job : (s.setChain f).job = s.job := rfl
@[simp] theorem State.setChain_host : (s.setChain f).host = s.host := rfl
@[simp] theorem State.setChain_cfg : (s.setChain f).cfg = s.cfg := rfl
@[simp] theorem State.setChain_par : (s.setChain f).par = s.par := rfl
@[simp] theorem State.setChain_ledger : (s.setChain f).ledger = s.ledger := rfl
@[simp] theorem State.setChain_cap : (s.setChain f).cap = s.cap := rfl
@[simp] theorem State.setChain_inj : (s.setChain f).inj = s.inj := rfl
@[simp] theorem State.setChain_ports : (s.setChain f).ports = s.ports := rfl
@[simp] theorem State.setChain_fab : (s.setChain f).fab = s.fab := rfl
@[simp] theorem State.setChain_policers : (s.setChain f).policers = s.policers := rfl
@[simp] theorem State.setChain_mem : (s.setChain f).mem = s.mem := rfl
@[simp] theorem State.setChain_stations : (s.setChain f).stations = s.stations := rfl
@[simp] theorem State.setChain_crucibles : (s.setChain f).crucibles = s.crucibles := rfl
@[simp] theorem State.setChain_members : (s.setChain f).members = s.members := rfl
@[simp] theorem State.setChain_riddles : (s.setChain f).riddles = s.riddles := rfl
@[simp] theorem State.setChain_ladles : (s.setChain f).ladles = s.ladles := rfl
@[simp] theorem State.setChain_moulds : (s.setChain f).moulds = s.moulds := rfl
@[simp] theorem State.setChain_sorters : (s.setChain f).sorters = s.sorters := rfl
@[simp] theorem State.setChain_layers : (s.setChain f).layers = s.layers := rfl
@[simp] theorem State.setChain_out : (s.setChain f).out = s.out := rfl
end

section
variable (s : State) (k : Nat) (f : Port → Port)
@[simp] theorem State.setPort_pending : (s.setPort k f).pending = s.pending := rfl
@[simp] theorem State.setPort_clk : (s.setPort k f).clk = s.clk := rfl
@[simp] theorem State.setPort_pwr : (s.setPort k f).pwr = s.pwr := rfl
@[simp] theorem State.setPort_chain : (s.setPort k f).chain = s.chain := rfl
@[simp] theorem State.setPort_boot : (s.setPort k f).boot = s.boot := rfl
@[simp] theorem State.setPort_fuse : (s.setPort k f).fuse = s.fuse := rfl
@[simp] theorem State.setPort_flash : (s.setPort k f).flash = s.flash := rfl
@[simp] theorem State.setPort_time : (s.setPort k f).time = s.time := rfl
@[simp] theorem State.setPort_job : (s.setPort k f).job = s.job := rfl
@[simp] theorem State.setPort_host : (s.setPort k f).host = s.host := rfl
@[simp] theorem State.setPort_cfg : (s.setPort k f).cfg = s.cfg := rfl
@[simp] theorem State.setPort_par : (s.setPort k f).par = s.par := rfl
@[simp] theorem State.setPort_ledger : (s.setPort k f).ledger = s.ledger := rfl
@[simp] theorem State.setPort_cap : (s.setPort k f).cap = s.cap := rfl
@[simp] theorem State.setPort_inj : (s.setPort k f).inj = s.inj := rfl
@[simp] theorem State.setPort_fab : (s.setPort k f).fab = s.fab := rfl
@[simp] theorem State.setPort_policers : (s.setPort k f).policers = s.policers := rfl
@[simp] theorem State.setPort_mem : (s.setPort k f).mem = s.mem := rfl
@[simp] theorem State.setPort_stations : (s.setPort k f).stations = s.stations := rfl
@[simp] theorem State.setPort_crucibles : (s.setPort k f).crucibles = s.crucibles := rfl
@[simp] theorem State.setPort_members : (s.setPort k f).members = s.members := rfl
@[simp] theorem State.setPort_riddles : (s.setPort k f).riddles = s.riddles := rfl
@[simp] theorem State.setPort_ladles : (s.setPort k f).ladles = s.ladles := rfl
@[simp] theorem State.setPort_moulds : (s.setPort k f).moulds = s.moulds := rfl
@[simp] theorem State.setPort_sorters : (s.setPort k f).sorters = s.sorters := rfl
@[simp] theorem State.setPort_layers : (s.setPort k f).layers = s.layers := rfl
@[simp] theorem State.setPort_out : (s.setPort k f).out = s.out := rfl
@[simp] theorem State.setPort_port : (s.setPort k f).port k = f (s.port k) := tget_tmod_self ..
theorem State.setPort_port_ne {j : Nat} (h : j ≠ k) : (s.setPort k f).port j = s.port j := tget_tmod_ne _ _ _ h
end

section
variable (s : State) (k : Nat) (f : Station → Station)
@[simp] theorem State.setStation_pending : (s.setStation k f).pending = s.pending := rfl
@[simp] theorem State.setStation_clk : (s.setStation k f).clk = s.clk := rfl
@[simp] theorem State.setStation_pwr : (s.setStation k f).pwr = s.pwr := rfl
@[simp] theorem State.setStation_chain : (s.setStation k f).chain = s.chain := rfl
@[simp] theorem State.setStation_boot : (s.setStation k f).boot = s.boot := rfl
@[simp] theorem State.setStation_fuse : (s.setStation k f).fuse = s.fuse := rfl
@[simp] theorem State.setStation_flash : (s.setStation k f).flash = s.flash := rfl
@[simp] theorem State.setStation_time : (s.setStation k f).time = s.time := rfl
@[simp] theorem State.setStation_job : (s.setStation k f).job = s.job := rfl
@[simp] theorem State.setStation_host : (s.setStation k f).host = s.host := rfl
@[simp] theorem State.setStation_cfg : (s.setStation k f).cfg = s.cfg := rfl
@[simp] theorem State.setStation_par : (s.setStation k f).par = s.par := rfl
@[simp] theorem State.setStation_ledger : (s.setStation k f).ledger = s.ledger := rfl
@[simp] theorem State.setStation_cap : (s.setStation k f).cap = s.cap := rfl
@[simp] theorem State.setStation_inj : (s.setStation k f).inj = s.inj := rfl
@[simp] theorem State.setStation_ports : (s.setStation k f).ports = s.ports := rfl
@[simp] theorem State.setStation_fab : (s.setStation k f).fab = s.fab := rfl
@[simp] theorem State.setStation_policers : (s.setStation k f).policers = s.policers := rfl
@[simp] theorem State.setStation_mem : (s.setStation k f).mem = s.mem := rfl
@[simp] theorem State.setStation_crucibles : (s.setStation k f).crucibles = s.crucibles := rfl
@[simp] theorem State.setStation_members : (s.setStation k f).members = s.members := rfl
@[simp] theorem State.setStation_riddles : (s.setStation k f).riddles = s.riddles := rfl
@[simp] theorem State.setStation_ladles : (s.setStation k f).ladles = s.ladles := rfl
@[simp] theorem State.setStation_moulds : (s.setStation k f).moulds = s.moulds := rfl
@[simp] theorem State.setStation_sorters : (s.setStation k f).sorters = s.sorters := rfl
@[simp] theorem State.setStation_layers : (s.setStation k f).layers = s.layers := rfl
@[simp] theorem State.setStation_out : (s.setStation k f).out = s.out := rfl
@[simp] theorem State.setStation_station : (s.setStation k f).station k = f (s.station k) := tget_tmod_self ..
theorem State.setStation_station_ne {j : Nat} (h : j ≠ k) : (s.setStation k f).station j = s.station j := tget_tmod_ne _ _ _ h
end

section
variable (s : State) (k : Nat) (f : Crucible → Crucible)
@[simp] theorem State.setCrucible_pending : (s.setCrucible k f).pending = s.pending := rfl
@[simp] theorem State.setCrucible_clk : (s.setCrucible k f).clk = s.clk := rfl
@[simp] theorem State.setCrucible_pwr : (s.setCrucible k f).pwr = s.pwr := rfl
@[simp] theorem State.setCrucible_chain : (s.setCrucible k f).chain = s.chain := rfl
@[simp] theorem State.setCrucible_boot : (s.setCrucible k f).boot = s.boot := rfl
@[simp] theorem State.setCrucible_fuse : (s.setCrucible k f).fuse = s.fuse := rfl
@[simp] theorem State.setCrucible_flash : (s.setCrucible k f).flash = s.flash := rfl
@[simp] theorem State.setCrucible_time : (s.setCrucible k f).time = s.time := rfl
@[simp] theorem State.setCrucible_job : (s.setCrucible k f).job = s.job := rfl
@[simp] theorem State.setCrucible_host : (s.setCrucible k f).host = s.host := rfl
@[simp] theorem State.setCrucible_cfg : (s.setCrucible k f).cfg = s.cfg := rfl
@[simp] theorem State.setCrucible_par : (s.setCrucible k f).par = s.par := rfl
@[simp] theorem State.setCrucible_ledger : (s.setCrucible k f).ledger = s.ledger := rfl
@[simp] theorem State.setCrucible_cap : (s.setCrucible k f).cap = s.cap := rfl
@[simp] theorem State.setCrucible_inj : (s.setCrucible k f).inj = s.inj := rfl
@[simp] theorem State.setCrucible_ports : (s.setCrucible k f).ports = s.ports := rfl
@[simp] theorem State.setCrucible_fab : (s.setCrucible k f).fab = s.fab := rfl
@[simp] theorem State.setCrucible_policers : (s.setCrucible k f).policers = s.policers := rfl
@[simp] theorem State.setCrucible_mem : (s.setCrucible k f).mem = s.mem := rfl
@[simp] theorem State.setCrucible_stations : (s.setCrucible k f).stations = s.stations := rfl
@[simp] theorem State.setCrucible_members : (s.setCrucible k f).members = s.members := rfl
@[simp] theorem State.setCrucible_riddles : (s.setCrucible k f).riddles = s.riddles := rfl
@[simp] theorem State.setCrucible_ladles : (s.setCrucible k f).ladles = s.ladles := rfl
@[simp] theorem State.setCrucible_moulds : (s.setCrucible k f).moulds = s.moulds := rfl
@[simp] theorem State.setCrucible_sorters : (s.setCrucible k f).sorters = s.sorters := rfl
@[simp] theorem State.setCrucible_layers : (s.setCrucible k f).layers = s.layers := rfl
@[simp] theorem State.setCrucible_out : (s.setCrucible k f).out = s.out := rfl
@[simp] theorem State.setCrucible_crucible : (s.setCrucible k f).crucible k = f (s.crucible k) := tget_tmod_self ..
theorem State.setCrucible_crucible_ne {j : Nat} (h : j ≠ k) : (s.setCrucible k f).crucible j = s.crucible j := tget_tmod_ne _ _ _ h
end

section
variable (s : State) (k : Nat) (f : Riddle → Riddle)
@[simp] theorem State.setRiddle_pending : (s.setRiddle k f).pending = s.pending := rfl
@[simp] theorem State.setRiddle_clk : (s.setRiddle k f).clk = s.clk := rfl
@[simp] theorem State.setRiddle_pwr : (s.setRiddle k f).pwr = s.pwr := rfl
@[simp] theorem State.setRiddle_chain : (s.setRiddle k f).chain = s.chain := rfl
@[simp] theorem State.setRiddle_boot : (s.setRiddle k f).boot = s.boot := rfl
@[simp] theorem State.setRiddle_fuse : (s.setRiddle k f).fuse = s.fuse := rfl
@[simp] theorem State.setRiddle_flash : (s.setRiddle k f).flash = s.flash := rfl
@[simp] theorem State.setRiddle_time : (s.setRiddle k f).time = s.time := rfl
@[simp] theorem State.setRiddle_job : (s.setRiddle k f).job = s.job := rfl
@[simp] theorem State.setRiddle_host : (s.setRiddle k f).host = s.host := rfl
@[simp] theorem State.setRiddle_cfg : (s.setRiddle k f).cfg = s.cfg := rfl
@[simp] theorem State.setRiddle_par : (s.setRiddle k f).par = s.par := rfl
@[simp] theorem State.setRiddle_ledger : (s.setRiddle k f).ledger = s.ledger := rfl
@[simp] theorem State.setRiddle_cap : (s.setRiddle k f).cap = s.cap := rfl
@[simp] theorem State.setRiddle_inj : (s.setRiddle k f).inj = s.inj := rfl
@[simp] theorem State.setRiddle_ports : (s.setRiddle k f).ports = s.ports := rfl
@[simp] theorem State.setRiddle_fab : (s.setRiddle k f).fab = s.fab := rfl
@[simp] theorem State.setRiddle_policers : (s.setRiddle k f).policers = s.policers := rfl
@[simp] theorem State.setRiddle_mem : (s.setRiddle k f).mem = s.mem := rfl
@[simp] theorem State.setRiddle_stations : (s.setRiddle k f).stations = s.stations := rfl
@[simp] theorem State.setRiddle_crucibles : (s.setRiddle k f).crucibles = s.crucibles := rfl
@[simp] theorem State.setRiddle_members : (s.setRiddle k f).members = s.members := rfl
@[simp] theorem State.setRiddle_ladles : (s.setRiddle k f).ladles = s.ladles := rfl
@[simp] theorem State.setRiddle_moulds : (s.setRiddle k f).moulds = s.moulds := rfl
@[simp] theorem State.setRiddle_sorters : (s.setRiddle k f).sorters = s.sorters := rfl
@[simp] theorem State.setRiddle_layers : (s.setRiddle k f).layers = s.layers := rfl
@[simp] theorem State.setRiddle_out : (s.setRiddle k f).out = s.out := rfl
@[simp] theorem State.setRiddle_riddle : (s.setRiddle k f).riddle k = f (s.riddle k) := tget_tmod_self ..
theorem State.setRiddle_riddle_ne {j : Nat} (h : j ≠ k) : (s.setRiddle k f).riddle j = s.riddle j := tget_tmod_ne _ _ _ h
end

section
variable (s : State) (k : Nat) (f : Ladle → Ladle)
@[simp] theorem State.setLadle_pending : (s.setLadle k f).pending = s.pending := rfl
@[simp] theorem State.setLadle_clk : (s.setLadle k f).clk = s.clk := rfl
@[simp] theorem State.setLadle_pwr : (s.setLadle k f).pwr = s.pwr := rfl
@[simp] theorem State.setLadle_chain : (s.setLadle k f).chain = s.chain := rfl
@[simp] theorem State.setLadle_boot : (s.setLadle k f).boot = s.boot := rfl
@[simp] theorem State.setLadle_fuse : (s.setLadle k f).fuse = s.fuse := rfl
@[simp] theorem State.setLadle_flash : (s.setLadle k f).flash = s.flash := rfl
@[simp] theorem State.setLadle_time : (s.setLadle k f).time = s.time := rfl
@[simp] theorem State.setLadle_job : (s.setLadle k f).job = s.job := rfl
@[simp] theorem State.setLadle_host : (s.setLadle k f).host = s.host := rfl
@[simp] theorem State.setLadle_cfg : (s.setLadle k f).cfg = s.cfg := rfl
@[simp] theorem State.setLadle_par : (s.setLadle k f).par = s.par := rfl
@[simp] theorem State.setLadle_ledger : (s.setLadle k f).ledger = s.ledger := rfl
@[simp] theorem State.setLadle_cap : (s.setLadle k f).cap = s.cap := rfl
@[simp] theorem State.setLadle_inj : (s.setLadle k f).inj = s.inj := rfl
@[simp] theorem State.setLadle_ports : (s.setLadle k f).ports = s.ports := rfl
@[simp] theorem State.setLadle_fab : (s.setLadle k f).fab = s.fab := rfl
@[simp] theorem State.setLadle_policers : (s.setLadle k f).policers = s.policers := rfl
@[simp] theorem State.setLadle_mem : (s.setLadle k f).mem = s.mem := rfl
@[simp] theorem State.setLadle_stations : (s.setLadle k f).stations = s.stations := rfl
@[simp] theorem State.setLadle_crucibles : (s.setLadle k f).crucibles = s.crucibles := rfl
@[simp] theorem State.setLadle_members : (s.setLadle k f).members = s.members := rfl
@[simp] theorem State.setLadle_riddles : (s.setLadle k f).riddles = s.riddles := rfl
@[simp] theorem State.setLadle_moulds : (s.setLadle k f).moulds = s.moulds := rfl
@[simp] theorem State.setLadle_sorters : (s.setLadle k f).sorters = s.sorters := rfl
@[simp] theorem State.setLadle_layers : (s.setLadle k f).layers = s.layers := rfl
@[simp] theorem State.setLadle_out : (s.setLadle k f).out = s.out := rfl
@[simp] theorem State.setLadle_ladle : (s.setLadle k f).ladle k = f (s.ladle k) := tget_tmod_self ..
theorem State.setLadle_ladle_ne {j : Nat} (h : j ≠ k) : (s.setLadle k f).ladle j = s.ladle j := tget_tmod_ne _ _ _ h
end

section
variable (s : State) (k : Nat) (f : Mould → Mould)
@[simp] theorem State.setMould_pending : (s.setMould k f).pending = s.pending := rfl
@[simp] theorem State.setMould_clk : (s.setMould k f).clk = s.clk := rfl
@[simp] theorem State.setMould_pwr : (s.setMould k f).pwr = s.pwr := rfl
@[simp] theorem State.setMould_chain : (s.setMould k f).chain = s.chain := rfl
@[simp] theorem State.setMould_boot : (s.setMould k f).boot = s.boot := rfl
@[simp] theorem State.setMould_fuse : (s.setMould k f).fuse = s.fuse := rfl
@[simp] theorem State.setMould_flash : (s.setMould k f).flash = s.flash := rfl
@[simp] theorem State.setMould_time : (s.setMould k f).time = s.time := rfl
@[simp] theorem State.setMould_job : (s.setMould k f).job = s.job := rfl
@[simp] theorem State.setMould_host : (s.setMould k f).host = s.host := rfl
@[simp] theorem State.setMould_cfg : (s.setMould k f).cfg = s.cfg := rfl
@[simp] theorem State.setMould_par : (s.setMould k f).par = s.par := rfl
@[simp] theorem State.setMould_ledger : (s.setMould k f).ledger = s.ledger := rfl
@[simp] theorem State.setMould_cap : (s.setMould k f).cap = s.cap := rfl
@[simp] theorem State.setMould_inj : (s.setMould k f).inj = s.inj := rfl
@[simp] theorem State.setMould_ports : (s.setMould k f).ports = s.ports := rfl
@[simp] theorem State.setMould_fab : (s.setMould k f).fab = s.fab := rfl
@[simp] theorem State.setMould_policers : (s.setMould k f).policers = s.policers := rfl
@[simp] theorem State.setMould_mem : (s.setMould k f).mem = s.mem := rfl
@[simp] theorem State.setMould_stations : (s.setMould k f).stations = s.stations := rfl
@[simp] theorem State.setMould_crucibles : (s.setMould k f).crucibles = s.crucibles := rfl
@[simp] theorem State.setMould_members : (s.setMould k f).members = s.members := rfl
@[simp] theorem State.setMould_riddles : (s.setMould k f).riddles = s.riddles := rfl
@[simp] theorem State.setMould_ladles : (s.setMould k f).ladles = s.ladles := rfl
@[simp] theorem State.setMould_sorters : (s.setMould k f).sorters = s.sorters := rfl
@[simp] theorem State.setMould_layers : (s.setMould k f).layers = s.layers := rfl
@[simp] theorem State.setMould_out : (s.setMould k f).out = s.out := rfl
@[simp] theorem State.setMould_mould : (s.setMould k f).mould k = f (s.mould k) := tget_tmod_self ..
theorem State.setMould_mould_ne {j : Nat} (h : j ≠ k) : (s.setMould k f).mould j = s.mould j := tget_tmod_ne _ _ _ h
end

section
variable (s : State) (k : Nat) (f : Sorter → Sorter)
@[simp] theorem State.setSorter_pending : (s.setSorter k f).pending = s.pending := rfl
@[simp] theorem State.setSorter_clk : (s.setSorter k f).clk = s.clk := rfl
@[simp] theorem State.setSorter_pwr : (s.setSorter k f).pwr = s.pwr := rfl
@[simp] theorem State.setSorter_chain : (s.setSorter k f).chain = s.chain := rfl
@[simp] theorem State.setSorter_boot : (s.setSorter k f).boot = s.boot := rfl
@[simp] theorem State.setSorter_fuse : (s.setSorter k f).fuse = s.fuse := rfl
@[simp] theorem State.setSorter_flash : (s.setSorter k f).flash = s.flash := rfl
@[simp] theorem State.setSorter_time : (s.setSorter k f).time = s.time := rfl
@[simp] theorem State.setSorter_job : (s.setSorter k f).job = s.job := rfl
@[simp] theorem State.setSorter_host : (s.setSorter k f).host = s.host := rfl
@[simp] theorem State.setSorter_cfg : (s.setSorter k f).cfg = s.cfg := rfl
@[simp] theorem State.setSorter_par : (s.setSorter k f).par = s.par := rfl
@[simp] theorem State.setSorter_ledger : (s.setSorter k f).ledger = s.ledger := rfl
@[simp] theorem State.setSorter_cap : (s.setSorter k f).cap = s.cap := rfl
@[simp] theorem State.setSorter_inj : (s.setSorter k f).inj = s.inj := rfl
@[simp] theorem State.setSorter_ports : (s.setSorter k f).ports = s.ports := rfl
@[simp] theorem State.setSorter_fab : (s.setSorter k f).fab = s.fab := rfl
@[simp] theorem State.setSorter_policers : (s.setSorter k f).policers = s.policers := rfl
@[simp] theorem State.setSorter_mem : (s.setSorter k f).mem = s.mem := rfl
@[simp] theorem State.setSorter_stations : (s.setSorter k f).stations = s.stations := rfl
@[simp] theorem State.setSorter_crucibles : (s.setSorter k f).crucibles = s.crucibles := rfl
@[simp] theorem State.setSorter_members : (s.setSorter k f).members = s.members := rfl
@[simp] theorem State.setSorter_riddles : (s.setSorter k f).riddles = s.riddles := rfl
@[simp] theorem State.setSorter_ladles : (s.setSorter k f).ladles = s.ladles := rfl
@[simp] theorem State.setSorter_moulds : (s.setSorter k f).moulds = s.moulds := rfl
@[simp] theorem State.setSorter_layers : (s.setSorter k f).layers = s.layers := rfl
@[simp] theorem State.setSorter_out : (s.setSorter k f).out = s.out := rfl
@[simp] theorem State.setSorter_sorter : (s.setSorter k f).sorter k = f (s.sorter k) := tget_tmod_self ..
theorem State.setSorter_sorter_ne {j : Nat} (h : j ≠ k) : (s.setSorter k f).sorter j = s.sorter j := tget_tmod_ne _ _ _ h
end

section
variable (s : State) (k : Nat) (f : Member → Member)
@[simp] theorem State.setMember_pending : (s.setMember k f).pending = s.pending := rfl
@[simp] theorem State.setMember_clk : (s.setMember k f).clk = s.clk := rfl
@[simp] theorem State.setMember_pwr : (s.setMember k f).pwr = s.pwr := rfl
@[simp] theorem State.setMember_chain : (s.setMember k f).chain = s.chain := rfl
@[simp] theorem State.setMember_boot : (s.setMember k f).boot = s.boot := rfl
@[simp] theorem State.setMember_fuse : (s.setMember k f).fuse = s.fuse := rfl
@[simp] theorem State.setMember_flash : (s.setMember k f).flash = s.flash := rfl
@[simp] theorem State.setMember_time : (s.setMember k f).time = s.time := rfl
@[simp] theorem State.setMember_job : (s.setMember k f).job = s.job := rfl
@[simp] theorem State.setMember_host : (s.setMember k f).host = s.host := rfl
@[simp] theorem State.setMember_cfg : (s.setMember k f).cfg = s.cfg := rfl
@[simp] theorem State.setMember_par : (s.setMember k f).par = s.par := rfl
@[simp] theorem State.setMember_ledger : (s.setMember k f).ledger = s.ledger := rfl
@[simp] theorem State.setMember_cap : (s.setMember k f).cap = s.cap := rfl
@[simp] theorem State.setMember_inj : (s.setMember k f).inj = s.inj := rfl
@[simp] theorem State.setMember_ports : (s.setMember k f).ports = s.ports := rfl
@[simp] theorem State.setMember_fab : (s.setMember k f).fab = s.fab := rfl
@[simp] theorem State.setMember_policers : (s.setMember k f).policers = s.policers := rfl
@[simp] theorem State.setMember_mem : (s.setMember k f).mem = s.mem := rfl
@[simp] theorem State.setMember_stations : (s.setMember k f).stations = s.stations := rfl
@[simp] theorem State.setMember_crucibles : (s.setMember k f).crucibles = s.crucibles := rfl
@[simp] theorem State.setMember_riddles : (s.setMember k f).riddles = s.riddles := rfl
@[simp] theorem State.setMember_ladles : (s.setMember k f).ladles = s.ladles := rfl
@[simp] theorem State.setMember_moulds : (s.setMember k f).moulds = s.moulds := rfl
@[simp] theorem State.setMember_sorters : (s.setMember k f).sorters = s.sorters := rfl
@[simp] theorem State.setMember_layers : (s.setMember k f).layers = s.layers := rfl
@[simp] theorem State.setMember_out : (s.setMember k f).out = s.out := rfl
@[simp] theorem State.setMember_member : (s.setMember k f).member k = f (s.member k) := tget_tmod_self ..
theorem State.setMember_member_ne {j : Nat} (h : j ≠ k) : (s.setMember k f).member j = s.member j := tget_tmod_ne _ _ _ h
end

section
variable (s : State) (k : Nat) (f : Layer → Layer)
@[simp] theorem State.setLayer_pending : (s.setLayer k f).pending = s.pending := rfl
@[simp] theorem State.setLayer_clk : (s.setLayer k f).clk = s.clk := rfl
@[simp] theorem State.setLayer_pwr : (s.setLayer k f).pwr = s.pwr := rfl
@[simp] theorem State.setLayer_chain : (s.setLayer k f).chain = s.chain := rfl
@[simp] theorem State.setLayer_boot : (s.setLayer k f).boot = s.boot := rfl
@[simp] theorem State.setLayer_fuse : (s.setLayer k f).fuse = s.fuse := rfl
@[simp] theorem State.setLayer_flash : (s.setLayer k f).flash = s.flash := rfl
@[simp] theorem State.setLayer_time : (s.setLayer k f).time = s.time := rfl
@[simp] theorem State.setLayer_job : (s.setLayer k f).job = s.job := rfl
@[simp] theorem State.setLayer_host : (s.setLayer k f).host = s.host := rfl
@[simp] theorem State.setLayer_cfg : (s.setLayer k f).cfg = s.cfg := rfl
@[simp] theorem State.setLayer_par : (s.setLayer k f).par = s.par := rfl
@[simp] theorem State.setLayer_ledger : (s.setLayer k f).ledger = s.ledger := rfl
@[simp] theorem State.setLayer_cap : (s.setLayer k f).cap = s.cap := rfl
@[simp] theorem State.setLayer_inj : (s.setLayer k f).inj = s.inj := rfl
@[simp] theorem State.setLayer_ports : (s.setLayer k f).ports = s.ports := rfl
@[simp] theorem State.setLayer_fab : (s.setLayer k f).fab = s.fab := rfl
@[simp] theorem State.setLayer_policers : (s.setLayer k f).policers = s.policers := rfl
@[simp] theorem State.setLayer_mem : (s.setLayer k f).mem = s.mem := rfl
@[simp] theorem State.setLayer_stations : (s.setLayer k f).stations = s.stations := rfl
@[simp] theorem State.setLayer_crucibles : (s.setLayer k f).crucibles = s.crucibles := rfl
@[simp] theorem State.setLayer_members : (s.setLayer k f).members = s.members := rfl
@[simp] theorem State.setLayer_riddles : (s.setLayer k f).riddles = s.riddles := rfl
@[simp] theorem State.setLayer_ladles : (s.setLayer k f).ladles = s.ladles := rfl
@[simp] theorem State.setLayer_moulds : (s.setLayer k f).moulds = s.moulds := rfl
@[simp] theorem State.setLayer_sorters : (s.setLayer k f).sorters = s.sorters := rfl
@[simp] theorem State.setLayer_out : (s.setLayer k f).out = s.out := rfl
@[simp] theorem State.setLayer_layer : (s.setLayer k f).layer k = f (s.layer k) := tget_tmod_self ..
theorem State.setLayer_layer_ne {j : Nat} (h : j ≠ k) : (s.setLayer k f).layer j = s.layer j := tget_tmod_ne _ _ _ h
end

section
variable (s : State) (k : Nat) (f : Policer → Policer)
@[simp] theorem State.setPolicer_pending : (s.setPolicer k f).pending = s.pending := rfl
@[simp] theorem State.setPolicer_clk : (s.setPolicer k f).clk = s.clk := rfl
@[simp] theorem State.setPolicer_pwr : (s.setPolicer k f).pwr = s.pwr := rfl
@[simp] theorem State.setPolicer_chain : (s.setPolicer k f).chain = s.chain := rfl
@[simp] theorem State.setPolicer_boot : (s.setPolicer k f).boot = s.boot := rfl
@[simp] theorem State.setPolicer_fuse : (s.setPolicer k f).fuse = s.fuse := rfl
@[simp] theorem State.setPolicer_flash : (s.setPolicer k f).flash = s.flash := rfl
@[simp] theorem State.setPolicer_time : (s.setPolicer k f).time = s.time := rfl
@[simp] theorem State.setPolicer_job : (s.setPolicer k f).job = s.job := rfl
@[simp] theorem State.setPolicer_host : (s.setPolicer k f).host = s.host := rfl
@[simp] theorem State.setPolicer_cfg : (s.setPolicer k f).cfg = s.cfg := rfl
@[simp] theorem State.setPolicer_par : (s.setPolicer k f).par = s.par := rfl
@[simp] theorem State.setPolicer_ledger : (s.setPolicer k f).ledger = s.ledger := rfl
@[simp] theorem State.setPolicer_cap : (s.setPolicer k f).cap = s.cap := rfl
@[simp] theorem State.setPolicer_inj : (s.setPolicer k f).inj = s.inj := rfl
@[simp] theorem State.setPolicer_ports : (s.setPolicer k f).ports = s.ports := rfl
@[simp] theorem State.setPolicer_fab : (s.setPolicer k f).fab = s.fab := rfl
@[simp] theorem State.setPolicer_mem : (s.setPolicer k f).mem = s.mem := rfl
@[simp] theorem State.setPolicer_stations : (s.setPolicer k f).stations = s.stations := rfl
@[simp] theorem State.setPolicer_crucibles : (s.setPolicer k f).crucibles = s.crucibles := rfl
@[simp] theorem State.setPolicer_members : (s.setPolicer k f).members = s.members := rfl
@[simp] theorem State.setPolicer_riddles : (s.setPolicer k f).riddles = s.riddles := rfl
@[simp] theorem State.setPolicer_ladles : (s.setPolicer k f).ladles = s.ladles := rfl
@[simp] theorem State.setPolicer_moulds : (s.setPolicer k f).moulds = s.moulds := rfl
@[simp] theorem State.setPolicer_sorters : (s.setPolicer k f).sorters = s.sorters := rfl
@[simp] theorem State.setPolicer_layers : (s.setPolicer k f).layers = s.layers := rfl
@[simp] theorem State.setPolicer_out : (s.setPolicer k f).out = s.out := rfl
@[simp] theorem State.setPolicer_policer : (s.setPolicer k f).policer k = f (s.policer k) := tget_tmod_self ..
theorem State.setPolicer_policer_ne {j : Nat} (h : j ≠ k) : (s.setPolicer k f).policer j = s.policer j := tget_tmod_ne _ _ _ h
end

section
variable (s : State) (k : Nat) (f : StackRegs → StackRegs)
@[simp] theorem State.setStack_pending : (s.setStack k f).pending = s.pending := rfl
@[simp] theorem State.setStack_clk : (s.setStack k f).clk = s.clk := rfl
@[simp] theorem State.setStack_pwr : (s.setStack k f).pwr = s.pwr := rfl
@[simp] theorem State.setStack_chain : (s.setStack k f).chain = s.chain := rfl
@[simp] theorem State.setStack_boot : (s.setStack k f).boot = s.boot := rfl
@[simp] theorem State.setStack_fuse : (s.setStack k f).fuse = s.fuse := rfl
@[simp] theorem State.setStack_flash : (s.setStack k f).flash = s.flash := rfl
@[simp] theorem State.setStack_time : (s.setStack k f).time = s.time := rfl
@[simp] theorem State.setStack_job : (s.setStack k f).job = s.job := rfl
@[simp] theorem State.setStack_host : (s.setStack k f).host = s.host := rfl
@[simp] theorem State.setStack_cfg : (s.setStack k f).cfg = s.cfg := rfl
@[simp] theorem State.setStack_par : (s.setStack k f).par = s.par := rfl
@[simp] theorem State.setStack_ledger : (s.setStack k f).ledger = s.ledger := rfl
@[simp] theorem State.setStack_cap : (s.setStack k f).cap = s.cap := rfl
@[simp] theorem State.setStack_inj : (s.setStack k f).inj = s.inj := rfl
@[simp] theorem State.setStack_ports : (s.setStack k f).ports = s.ports := rfl
@[simp] theorem State.setStack_fab : (s.setStack k f).fab = s.fab := rfl
@[simp] theorem State.setStack_policers : (s.setStack k f).policers = s.policers := rfl
@[simp] theorem State.setStack_stations : (s.setStack k f).stations = s.stations := rfl
@[simp] theorem State.setStack_crucibles : (s.setStack k f).crucibles = s.crucibles := rfl
@[simp] theorem State.setStack_members : (s.setStack k f).members = s.members := rfl
@[simp] theorem State.setStack_riddles : (s.setStack k f).riddles = s.riddles := rfl
@[simp] theorem State.setStack_ladles : (s.setStack k f).ladles = s.ladles := rfl
@[simp] theorem State.setStack_moulds : (s.setStack k f).moulds = s.moulds := rfl
@[simp] theorem State.setStack_sorters : (s.setStack k f).sorters = s.sorters := rfl
@[simp] theorem State.setStack_layers : (s.setStack k f).layers = s.layers := rfl
@[simp] theorem State.setStack_out : (s.setStack k f).out = s.out := rfl
@[simp] theorem State.setStack_stack : (s.setStack k f).stack k = f (s.stack k) := tget_tmod_self ..
theorem State.setStack_stack_ne {j : Nat} (h : j ≠ k) : (s.setStack k f).stack j = s.stack j := tget_tmod_ne _ _ _ h
end

section
variable (s : State) (k : Nat) (f : LedgerEntry → LedgerEntry)
@[simp] theorem State.setEntry_pending : (s.setEntry k f).pending = s.pending := rfl
@[simp] theorem State.setEntry_clk : (s.setEntry k f).clk = s.clk := rfl
@[simp] theorem State.setEntry_pwr : (s.setEntry k f).pwr = s.pwr := rfl
@[simp] theorem State.setEntry_chain : (s.setEntry k f).chain = s.chain := rfl
@[simp] theorem State.setEntry_boot : (s.setEntry k f).boot = s.boot := rfl
@[simp] theorem State.setEntry_fuse : (s.setEntry k f).fuse = s.fuse := rfl
@[simp] theorem State.setEntry_flash : (s.setEntry k f).flash = s.flash := rfl
@[simp] theorem State.setEntry_time : (s.setEntry k f).time = s.time := rfl
@[simp] theorem State.setEntry_job : (s.setEntry k f).job = s.job := rfl
@[simp] theorem State.setEntry_host : (s.setEntry k f).host = s.host := rfl
@[simp] theorem State.setEntry_cfg : (s.setEntry k f).cfg = s.cfg := rfl
@[simp] theorem State.setEntry_par : (s.setEntry k f).par = s.par := rfl
@[simp] theorem State.setEntry_cap : (s.setEntry k f).cap = s.cap := rfl
@[simp] theorem State.setEntry_inj : (s.setEntry k f).inj = s.inj := rfl
@[simp] theorem State.setEntry_ports : (s.setEntry k f).ports = s.ports := rfl
@[simp] theorem State.setEntry_fab : (s.setEntry k f).fab = s.fab := rfl
@[simp] theorem State.setEntry_policers : (s.setEntry k f).policers = s.policers := rfl
@[simp] theorem State.setEntry_mem : (s.setEntry k f).mem = s.mem := rfl
@[simp] theorem State.setEntry_stations : (s.setEntry k f).stations = s.stations := rfl
@[simp] theorem State.setEntry_crucibles : (s.setEntry k f).crucibles = s.crucibles := rfl
@[simp] theorem State.setEntry_members : (s.setEntry k f).members = s.members := rfl
@[simp] theorem State.setEntry_riddles : (s.setEntry k f).riddles = s.riddles := rfl
@[simp] theorem State.setEntry_ladles : (s.setEntry k f).ladles = s.ladles := rfl
@[simp] theorem State.setEntry_moulds : (s.setEntry k f).moulds = s.moulds := rfl
@[simp] theorem State.setEntry_sorters : (s.setEntry k f).sorters = s.sorters := rfl
@[simp] theorem State.setEntry_layers : (s.setEntry k f).layers = s.layers := rfl
@[simp] theorem State.setEntry_out : (s.setEntry k f).out = s.out := rfl
@[simp] theorem State.setEntry_entry : (s.setEntry k f).entry k = f (s.entry k) := tget_tmod_self ..
theorem State.setEntry_entry_ne {j : Nat} (h : j ≠ k) : (s.setEntry k f).entry j = s.entry j := tget_tmod_ne _ _ _ h
end

section
variable (s : State) (k : Nat) (f : RingStop → RingStop)
@[simp] theorem State.setStop_pending : (s.setStop k f).pending = s.pending := rfl
@[simp] theorem State.setStop_clk : (s.setStop k f).clk = s.clk := rfl
@[simp] theorem State.setStop_pwr : (s.setStop k f).pwr = s.pwr := rfl
@[simp] theorem State.setStop_chain : (s.setStop k f).chain = s.chain := rfl
@[simp] theorem State.setStop_boot : (s.setStop k f).boot = s.boot := rfl
@[simp] theorem State.setStop_fuse : (s.setStop k f).fuse = s.fuse := rfl
@[simp] theorem State.setStop_flash : (s.setStop k f).flash = s.flash := rfl
@[simp] theorem State.setStop_time : (s.setStop k f).time = s.time := rfl
@[simp] theorem State.setStop_job : (s.setStop k f).job = s.job := rfl
@[simp] theorem State.setStop_host : (s.setStop k f).host = s.host := rfl
@[simp] theorem State.setStop_cfg : (s.setStop k f).cfg = s.cfg := rfl
@[simp] theorem State.setStop_par : (s.setStop k f).par = s.par := rfl
@[simp] theorem State.setStop_ledger : (s.setStop k f).ledger = s.ledger := rfl
@[simp] theorem State.setStop_cap : (s.setStop k f).cap = s.cap := rfl
@[simp] theorem State.setStop_inj : (s.setStop k f).inj = s.inj := rfl
@[simp] theorem State.setStop_ports : (s.setStop k f).ports = s.ports := rfl
@[simp] theorem State.setStop_policers : (s.setStop k f).policers = s.policers := rfl
@[simp] theorem State.setStop_mem : (s.setStop k f).mem = s.mem := rfl
@[simp] theorem State.setStop_stations : (s.setStop k f).stations = s.stations := rfl
@[simp] theorem State.setStop_crucibles : (s.setStop k f).crucibles = s.crucibles := rfl
@[simp] theorem State.setStop_members : (s.setStop k f).members = s.members := rfl
@[simp] theorem State.setStop_riddles : (s.setStop k f).riddles = s.riddles := rfl
@[simp] theorem State.setStop_ladles : (s.setStop k f).ladles = s.ladles := rfl
@[simp] theorem State.setStop_moulds : (s.setStop k f).moulds = s.moulds := rfl
@[simp] theorem State.setStop_sorters : (s.setStop k f).sorters = s.sorters := rfl
@[simp] theorem State.setStop_layers : (s.setStop k f).layers = s.layers := rfl
@[simp] theorem State.setStop_out : (s.setStop k f).out = s.out := rfl
@[simp] theorem State.setStop_stop : (s.setStop k f).stop k = f (s.stop k) := tget_tmod_self ..
theorem State.setStop_stop_ne {j : Nat} (h : j ≠ k) : (s.setStop k f).stop j = s.stop j := tget_tmod_ne _ _ _ h
end

section
variable (s : State) (e : Emit)
@[simp] theorem State.emit_pending : (s.emit e).pending = s.pending := rfl
@[simp] theorem State.emit_clk : (s.emit e).clk = s.clk := rfl
@[simp] theorem State.emit_pwr : (s.emit e).pwr = s.pwr := rfl
@[simp] theorem State.emit_chain : (s.emit e).chain = s.chain := rfl
@[simp] theorem State.emit_boot : (s.emit e).boot = s.boot := rfl
@[simp] theorem State.emit_fuse : (s.emit e).fuse = s.fuse := rfl
@[simp] theorem State.emit_flash : (s.emit e).flash = s.flash := rfl
@[simp] theorem State.emit_time : (s.emit e).time = s.time := rfl
@[simp] theorem State.emit_job : (s.emit e).job = s.job := rfl
@[simp] theorem State.emit_host : (s.emit e).host = s.host := rfl
@[simp] theorem State.emit_cfg : (s.emit e).cfg = s.cfg := rfl
@[simp] theorem State.emit_par : (s.emit e).par = s.par := rfl
@[simp] theorem State.emit_ledger : (s.emit e).ledger = s.ledger := rfl
@[simp] theorem State.emit_cap : (s.emit e).cap = s.cap := rfl
@[simp] theorem State.emit_inj : (s.emit e).inj = s.inj := rfl
@[simp] theorem State.emit_ports : (s.emit e).ports = s.ports := rfl
@[simp] theorem State.emit_fab : (s.emit e).fab = s.fab := rfl
@[simp] theorem State.emit_policers : (s.emit e).policers = s.policers := rfl
@[simp] theorem State.emit_mem : (s.emit e).mem = s.mem := rfl
@[simp] theorem State.emit_stations : (s.emit e).stations = s.stations := rfl
@[simp] theorem State.emit_crucibles : (s.emit e).crucibles = s.crucibles := rfl
@[simp] theorem State.emit_members : (s.emit e).members = s.members := rfl
@[simp] theorem State.emit_riddles : (s.emit e).riddles = s.riddles := rfl
@[simp] theorem State.emit_ladles : (s.emit e).ladles = s.ladles := rfl
@[simp] theorem State.emit_moulds : (s.emit e).moulds = s.moulds := rfl
@[simp] theorem State.emit_sorters : (s.emit e).sorters = s.sorters := rfl
@[simp] theorem State.emit_layers : (s.emit e).layers = s.layers := rfl
@[simp] theorem State.emit_out : (s.emit e).out = e :: s.out := rfl
end

end Sys2Proof.Machine
end

