-- ==== Sys2Proof/Tests/Slice0.lean ====
section
/-!
SUPPORT. The model's own tests: for every statement with hypotheses a theorem that concrete states and operands meet them (witness_…), the
operand checks, and small steps with values taken from the rules.
-/

namespace Sys2Proof.Machine

set_option Elab.async false

/-! ### States for the witnesses -/

/-- Both domains on, input in range, presence stable. -/
def tOn : State :=
  { State.reset with pwr := { Power.reset with standbyOn := true, mainOn := true, vinMv := 54000, presStable := true }, clk := 1000 }

/-- The same in a phase. -/
def tIn (p : Phase) : State := { tOn with boot := { Boot.reset with phase := p } }

/-- RUN with pours of 9,000 clk and heats of one pour, at clk 500 of the pour, with more configuration words. -/
def tRun (cfg : Tab Word) : State :=
  { tIn .run with cfg := (0x500, 999) :: cfg, job := { Job.reset with jobState := .done, pourClk := 500 } }

/-- A state with port 0 enabled and as given. -/
def tPort (s : State) (x : Port) : State := { s with cfg := s.cfg ++ [(ptKey 0 8, 1)], ports := [(0, x)] }

/-- A port that is UP and carries packets. -/
def tUp : Port := { Port.reset with state := .up, carrying := true }

/-! ### Commands and the whole machine -/

theorem witness_StepRunsTheFrontCommand :
    ({ State.reset with pending := [.jobCancel, .holdOk] }).pending = .jobCancel :: [.holdOk] := rfl

theorem witness_OnlyIdleStepsPassTime :
    exec .syncLoss State.reset = .next State.reset ∧ State.reset.pending = [] ∧ State.reset.pwr.mainOn = false ∧
      tOn.pending = [] ∧ tOn.pwr.mainOn = true := ⟨rfl, rfl, rfl, rfl, rfl⟩

theorem witness_WellFormedCommandsAnswer :
    let r := receptionOf tOn 0 0 0 false false false
    let h := sealHeader (mkHeader 0 4 0 1 5 1 9 0 0 0 0 0 0 0 0) 0
    (Instr.packetTrailer 0 (List.replicate 16 0) 0 0 0).wf = true ∧
    ((tPort (tIn .link) { tUp with rx := some r }).port 0).rx = some r ∧
    (List.replicate 16 (0 : Byte)).length = payloadLen r.hdr ∧
    (Instr.packetHeader 0 ⟨h, []⟩).wf = true ∧
    (let s := tPort (tIn .link) tUp
     s.portUp 0 = true ∧ (s.port 0).rx = none ∧ (s.port 0).waitReplay = false ∧ (s.port 0).cleared = false ∧
       hCrc (readHeader (s.port 0) h).1 = headerCrc (readHeader (s.port 0) h).1 ∧
       (earlyUse s 0 && scheduledClass (readHeader (s.port 0) h).1) = false) := by decide +kernel

/-- A memory that lists a byte, and a step. -/
theorem witness_MemoryStaysCanonical :
    let s := { State.reset with mem := { StackedMem.reset with cells := [(5, 1)] } }
    Memory.wf s.mem.cells = true ∧ step s = .next { s with clk := 1 } := ⟨by decide, rfl⟩

theorem witness_FusesOnlyAdvance :
    Fuse.reset.ok ∧ step State.reset = .next { State.reset with clk := 1 } :=
  ⟨⟨by decide, by decide, by decide, by decide, fun _ h => nomatch h⟩, rfl⟩

/-- Every field at its greatest value, and the two at which the ranges end. -/
theorem witness_HeaderAndControlWordFields :
    (15 < 16 ∧ 7 < 8 ∧ 1 < 2 ∧ 2 ^ 20 - 1 < 2 ^ 20 ∧ 2 ^ 64 - 1 < 2 ^ 64 ∧ 4095 < 2 ^ 12 ∧ 255 < 256 ∧ 65535 < 2 ^ 16) ∧
    (0 < 16 ∧ 0 < 2 ^ 16 ∧ 0 < 2 ^ 64) := by decide

/-- A queued packet with a header, as the tests put it into queues. -/
def tQ (h : BitVec 256) (payload : List Byte) : QPkt :=
  { pkt := { hdr := h, payload := payload, trailer := 0, stampPour := 0, stampClk := 0, inPort := some 0, stomped := false, complete := true
             ident := 0 }
    owner := .none, cells := 1, ring := 0, since := 0, targets := [], reserved := [] }

theorem witness_UnscheduledDirectionIsShortest : 15 / 16 = (tQ 0 []).src / 256 ∧ 16 / 16 ≠ (tQ 0 []).src / 256 := by decide +kernel

theorem witness_Gf4Decodes : (15 : Nat) < 16 ∧ (15 : Nat) ≠ 8 := by decide

/-- The head of a HEAT_RETRACT notice of one item, for a heat. -/
def tHead (kind heat : Nat) : List Byte := beBytes 16 (kind * 2 ^ 120 + heat * 2 ^ 64)

/-- A notice on port 0 with one item. -/
def tNotice (kind heat : Nat) : QPkt := tQ (mkHeader 5 4 0 1 0 1 9 0 0 0 1 0 0 0 0) (tHead kind heat ++ List.replicate 16 0)

theorem witness_HeatSplitQuenches :
    let s := tPort (tRun []) { tUp with inbox := [tNotice 2 7] }
    let b := { tRun [] with clk := 9500, job := { (tRun []).job with quenchDue := [(900, 0x45, 0)] } }
    firstAccepted s 0 5 (tNotice 2 7) [] ∧ s.running = true ∧ hLen (tNotice 2 7).pkt.hdr = fld (noticeHead (tNotice 2 7).pkt) 119 112 + 1 ∧
    fld (noticeHead (tNotice 2 7).pkt) 127 120 = 2 ∧ noticeItems (tNotice 2 7).pkt = [0] ∧
    fld (noticeHead (tNotice 2 7).pkt) 111 64 ≠ s.job.heat ∧ b.boundaryDue = true ∧ b.limitReached = false ∧
    b.job.quenchDue = [(900, 0x45, (0 : PortNo).toNat)] ∧ b.boot.faultCode = 0 := by
  unfold firstAccepted; decide +kernel

/-! ### Power, chain, fuses -/

/-- Readings of 20 °C, with some at 200 °C. -/
def tTemps (hot : List Nat) : List Int := (List.range 76).map fun i => if hot.contains i then 200 else 20

theorem witness_TurnOffCauses :
    tOn.pwr.mainOn = true ∧ tOn.pwr.standbyOn = true ∧ 44999 < 45000 ∧ 62001 > 62000 ∧ (tTemps [0]).length = 76 ∧
    (∃ e ∈ readings tOn (tTemps [0]), isCrit e = true) ∧
    received tOn tOn.chain.addr 0x11 [] (crc16 (frameBytes 0 0x11 [])) := by unfold received; decide +kernel

theorem witness_StandbyDomain :
    State.reset.pwr.standbyOn = false ∧ 46500 ≤ 46500 ∧ tOn.pwr.mainOn = true ∧ tOn.pwr.standbyOn = true := by decide

/-- A module with an address that repeats, its fuses as given. -/
def tChain (f : Fuse) : State := { tOn with chain := { Chain.reset with addr := 3, repeating := true }, fuse := f }

theorem witness_ChainFrames :
    let off := { tChain Fuse.reset with pwr := { tOn.pwr with mainOn := false, vinMv := 46500 } }
    (1 : BitVec 8) ≠ 0 ∧ (1 : BitVec 8) ≠ 255 ∧ tOn.chain.addr = 0 ∧ tOn.chain.repeating = false ∧
    received tOn 0 0x02 [1] (crc16 (frameBytes 0 0x02 [1])) ∧ received tOn 9 0x04 [] (crc16 (frameBytes 9 0x04 [])) ∧
    received tOn 255 0x06 [] (crc16 (frameBytes 255 0x06 [])) ∧
    received off 3 0x13 (beBytes 6 77) (crc16 (frameBytes 3 0x13 (beBytes 6 77))) ∧ received off 3 0x20 [] (crc16 (frameBytes 3 0x20 [])) ∧
    received off 3 0x12 [1] (crc16 (frameBytes 3 0x12 [1])) ∧ off.fuse.opened = none ∧ off.fuse.terminalUsed < 8 ∧
    off.fuse.records.length < 96 ∧ off.fuse.terminal = false ∧ received off 3 0x10 [] (crc16 (frameBytes 3 0x10 [])) ∧
    off.chain.addr ≠ 0 ∧ off.pwr.mainOn = false ∧ 46500 ≤ off.pwr.vinMv ∧ off.pwr.presStable = true ∧ off.pwr.critical = false := by
  unfold received; decide +kernel

theorem witness_FramesRefusedOrNotMine :
    let s := tChain Fuse.reset
    let off (p : Power) : State := { s with pwr := { p with mainOn := false } }
    (0 : BitVec 16) ≠ crc16 (frameBytes 3 0x20 []) ∧ (4 : BitVec 8) ≠ s.chain.addr ∧ (4 : BitVec 8) ≠ 0xFF ∧
    received s 3 0x10 [] (crc16 (frameBytes 3 0x10 [])) ∧ (3 : BitVec 8) = s.chain.addr ∧ s.pwr.mainOn = true ∧
    (off { s.pwr with vinMv := 46499 }).pwr.vinMv < 46500 ∧ (off { s.pwr with presStable := false }).pwr.presStable = false ∧
    (off { s.pwr with critical := true }).pwr.critical = true ∧ 46500 ≤ (off s.pwr).pwr.vinMv := by
  unfold received; decide +kernel

theorem witness_SensorsAndHealth :
    let warm (t : Int) : List Int := (List.range 76).map fun i => if i = 0 then t else 20
    tOn.pwr.standbyOn = true ∧ tOn.pwr.mainOn = true ∧ (warm 95).length = 76 ∧ (∀ e ∈ readings tOn (warm 95), isCrit e = false) ∧
    (∀ e ∈ readings tOn (warm 95), isTrip e = false) ∧ warnBit (readings tOn (warm 95)) 0 1 = true ∧
    (∀ e ∈ readings tOn (warm (tripAt 1)), isCrit e = false) ∧ (∃ e ∈ readings tOn (warm (tripAt 1)), isTrip e = true) ∧
    tOn.pwr.trip = false ∧ ({ tOn with pwr := { tOn.pwr with mainOn := false } }).pwr.mainOn = false := by decide +kernel

/-! ### Armed operations and registers -/

/-- A RUN state at 10 s of fabric time in LOCKED, its job's E0 at 9 s and the running pour's start at E0. -/
def tTimed : State :=
  let s := tRun []
  { s with time := { TimeKeeper.reset with state := .locked, now := 90000000000 }
           job := { s.job with e0 := 10000000000, swapSec := 10, swapNs := 20000, slotSec := 10, slotNs := 20000 } }

theorem witness_ArmedOperations :
    let e := { tIn .epoch with
      time := { TimeKeeper.reset with state := .locked }, job := { Job.reset with epochSec := 0, epochNs := 100000000 } }
    let armed : State := { tOn with job := { Job.reset with jobState := .armed, gateState := .armed, slotState := .armed } }
    e.pwr.mainOn = true ∧ e.boot.phase = .epoch ∧ e.time.state = .locked ∧ e.job.jobState ≠ .armed ∧ e.job.jobState ≠ .fixed ∧
    e.job.epochNs.toNat ≤ 999999999 ∧ e.job.epochNs.toNat % 5 = 0 ∧
    e.time.now + 900000000 ≤ (e.job.epochSec.toNat * 1000000000 + e.job.epochNs.toNat) * 9 ∧
    armed.job.jobState = .armed ∧ armed.job.e0 * 9 ≤ armed.time.now + 90000000 ∧ armed.job.gateState = .armed ∧
    armed.job.slotState = .armed ∧ tTimed.job.gateState ≠ .armed ∧ tTimed.job.gateState ≠ .fixed ∧ tTimed.job.jobState = .done ∧
    boundaryAhead tTimed tTimed.job.swapSec tTimed.job.swapNs ∧ tTimed.boot.phase = .run ∧ tTimed.time.state = .locked ∧
    boundaryAhead tTimed tTimed.job.slotSec tTimed.job.slotNs ∧ tTimed.fuse.lock < 2 := by
  unfold boundaryAhead; decide +kernel

theorem witness_RegisterReads :
    let s := { tChain Fuse.reset with host := { HostLink.reset with idxAddr := 0 }, chain := { Chain.reset with addr := 3 } }
    s.pwr.mainOn = true ∧ (0x20 : BitVec 20).toNat % 8 = 0 ∧ (0x24 : BitVec 20).toNat % 4 = 0 ∧ plainRegister s (directKey 0x20) ∧
    plainRegister s (directKey 0x24) ∧ tget? s.cfg 0x5_0030 = none ∧
    received s s.chain.addr 0x30 (beBytes 4 0x20) (crc16 (frameBytes 3 0x30 (beBytes 4 0x20))) ∧
    plainIndirect s (indirectKey (fld s.host.idxAddr 31 0)) ∧ plainIndirect s (indirectKey (fld s.chain.idxAddr 31 0)) := by
  unfold received plainRegister plainIndirect; decide +kernel

theorem witness_RegisterWrites :
    let w : Word := 0x8F
    let s := { tChain Fuse.reset with host := { HostLink.reset with idxAddr := put (0x010 * 2 ^ 16 + 0x200) 0 } }
    s.pwr.mainOn = true ∧ (0x70C : BitVec 20).toNat % 8 = 4 ∧
    received s s.chain.addr 0x31 (beBytes 4 0x708 ++ beBytes 8 w.toNat) (crc16 (frameBytes 3 0x31 (beBytes 4 0x708 ++ beBytes 8 w.toNat))) ∧
    s.host.wrote = [] ∧ s.host.idxAddr = put ((0x010 : StAddr).toNat * 2 ^ 16 + 0x200) 0 ∧ stationPresent s (0x010 : StAddr).toNat = true := by
  unfold received; decide +kernel

/-! ### Mailbox, fuses, host link -/

/-- The mailbox with its first argument word. -/
def tMail (p : Phase) (a0 : Word) : State := { tIn p with host := { HostLink.reset with mbData := [(0, a0)] } }

/-- Region 0: kind 1, flask 0, 2 MiB at 0x20_0000, readable and writable, open to the host. -/
def tRegion0 : Tab Word := [(tbKey 12 0, put 9 60 ||| put 7 56 ||| 0x20_0000), (tbKey 12 8, 0)]

theorem witness_MailboxCommands :
    let shook := { tMail .link 0 with mem := { StackedMem.reset with shakeBusy := true } }
    let copy := { tMail .run 1 with cfg := tRegion0, host := { HostLink.reset with mbData := [(0, 1), (1, 0x20_0000)] } }
    mailboxIdle (tMail .link 1) ∧ 1 ≤ ((tMail .link 1).mbArg 0).toNat ∧ ((tMail .link 5).mbArg 0).toNat ≤ 5 ∧
    (tMail .link 1).fuse.opened = none ∧ (tMail .link 1).mem.shakeBusy = false ∧ (tMail .link 1).boot.phase ≠ .run ∧
    mailboxIdle shook ∧ shook.mem.shakeBusy = true ∧ shook.mem.shakeLeft = [] ∧ (tMail .link 1).fuse.lock < 2 ∧
    (0x03 : BitVec 8).toNat ∉ [0x01, 0x02, 0x10, 0x41, 0x42, 0x43, 0x44, 0x48, 0x50, 0x51, 0x52] ∧ mailboxIdle copy ∧
    4096 * (fld (copy.mbArg 2) 15 0 + 1) ≤ 0x07F00000 ∧ regionOf copy (copy.mbArg 1).toNat (4096 * (fld (copy.mbArg 2) 15 0 + 1)) = some 0 ∧
    rgHost copy 0 = true ∧ bit (copy.mbArg 0) 0 ≠ copy.boot.slot := by
  unfold mailboxIdle; decide +kernel

theorem witness_FuseChanges :
    let s := tMail .load 1
    let svc := { s with host := { s.host with meas23 := List.replicate 8 0 ++ [1, 0, 0, 0] } }
    let dbg := tMail .run 0xD15AB1E0
    let r := newRecord 5 1 s
    let open_ := { s with fuse := { Fuse.reset with opened := some r, busy := true } }
    mailboxIdle s ∧ ledgerOpen s ∧ mailboxIdle svc ∧ ledgerOpen svc ∧ svc.fuse.svc < (svc.mbArg 0).toNat ∧ (svc.mbArg 0).toNat ≤ 64 ∧
    (svc.mbArg 0).toNat ≤ leNat ((svc.host.meas23.drop 8).take 4) ∧ s.fuse.lock = 0 ∧ 4 ≤ s.boot.phase.code ∧ mailboxIdle dbg ∧
    ledgerOpen dbg ∧ dbg.fuse.debugOff = false ∧ dbg.mbArg 0 = 0xD15AB1E0 ∧ s.fuse.keysetUsed < 3 ∧ (s.mbArg 0).toNat ≤ 3 ∧
    (s.mbArg 0).toNat ≠ s.fuse.keyset ∧ 1 ≤ s.boot.phase.code ∧ s.boot.phase.code ≤ 5 ∧ open_.fuse.opened = some r ∧
    open_.fuse.busy = true ∧ 1 ≤ r.setting ∧ r.setting ≤ 5 := by
  unfold mailboxIdle ledgerOpen; decide +kernel

theorem witness_HostEvents :
    let s := tIn .selftest
    let c := { s with flash := { Flash.reset with copying := some (true, 0, 1) } }
    let w : Word := put 4 44 ||| 1
    s.pwr.mainOn = true ∧ bit w 0 = true ∧ fld w 47 44 ≤ 4 ∧ fld w 47 44 ≠ 1 ∧ s.host.wrote.contains (s.clk, 0x200) = false ∧
    bit (put 5 44 ||| 1 : Word) 0 = true ∧ 4 < fld (put 5 44 ||| 1 : Word) 47 44 ∧
    (∃ k ∈ [0, 1, 2, 3, 4], ∃ f : Fin 16, viewOwns { tRun [(stKey 0x010 8, 1)] with clk := 1000 } f k 0x010 = true) ∧
    s.boot.phase ≠ .standby ∧ s.boot.phase ≠ .power ∧ s.boot.phase ≠ .failed ∧ c.flash.copying = some (true, 0, 1) := by decide +kernel

theorem witness_DoeExchanges :
    let s (n : Nat) : State := { tOn with host := { HostLink.reset with linkUp := true, spdm := n } }
    (s 1).pwr.mainOn = true ∧ (s 1).host.linkUp = true ∧ (s 1).host.spdm = 1 ∧ (s 2).host.spdm = 2 ∧ (true && false) = false ∧
    (s 3).host.spdm = 3 ∧ (5 ≤ 5 ∨ 5 = 0xFF) ∧ (1 : Nat) ≠ 0 ∧ (s 2).host.spdm ≠ 3 := by decide

theorem witness_HostMemoryAccess :
    let s := { tIn .link with host := { HostLink.reset with linkUp := true }, cfg := tRegion0 }
    s.pwr.mainOn = true ∧ s.host.linkUp = true ∧ (0x20_0040 : Word).toNat % 64 = 0 ∧ (List.replicate 64 (0 : Byte)).length = 64 ∧
    requestCheck s (2 ^ 39 : Word).toNat 64 (hostAllows s false) none none = .error (0x03, windowSize s (2 ^ 39)) ∧
    requestCheck s (2 ^ 39 : Word).toNat 64 (hostAllows s true) none none = .error (0x03, windowSize s (2 ^ 39)) ∧
    s.boot.phase ≠ .run ∧ s.mem.waiting = [] ∧ tget [] s.mem.errors (0x20_0040 : Word).toNat = [] ∧
    (0x20_0040 : Word).toNat ∉ s.mem.busErr ∧ s.cap.running = false ∧ requestsYield s (stackOf (0x20_0040 : Word).toNat) = false ∧
    requestCheck s (0x20_0040 : Word).toNat 64 (hostAllows s false) none none = .ok 0 ∧
    requestCheck s (0x20_0040 : Word).toNat 64 (hostAllows s true) none none = .ok 0 := by decide +kernel

/-! ### Start-up -/

/-- The smallest image body of one unit: GLOBAL (L = 1,000), TIME, one region of kind 3, END (R235, R236, R468). -/
def tBody : List Word :=
  [0x0000003800000001, 0, 999, 0, 0, 0, 0, 0, 0, 0,
   0x0000001800000002, 0, put 1 42 ||| put 2000 20, put 10 16 ||| 1, put 90 16 ||| 1800, 0,
   0x0000001800000500, 0, 0, put 11 60 ||| 0x20_0000, 0, 0,
   0x000000080000FFFF, 0, 0, 0] ++ List.replicate 486 0

/-- Flash slot A with an image header of a body of one unit and that body. -/
def tFlash (ws : List Word) : Tab Byte :=
  let bytes := leBytes 4 0x524C5054 ++ leBytes 4 1 ++ List.replicate 4088 0 ++ ws.flatMap fun w => leBytes 8 w.toNat
  (List.range bytes.length).zip bytes

/-- LOAD, with a body in slot A. -/
def tLoad (ws : List Word) : State := { tIn .load with flash := { Flash.reset with bytes := tFlash ws } }

/-- The smallest body passes the load checks; with a pour length of 399 (field 398) it fails check 5 with 0x32 (R100). -/
theorem witness_StartUpChecks_load :
    loadFault tBody State.reset = none ∧ (sectionsOf tBody).toOption.isSome = true ∧
    loadFault (tBody.set 2 398) State.reset = some (0x32, 0) := by decide +kernel

/-- The words of the slot are those of the body. -/
theorem witness_StartUpChecks_flash : loadWords (tLoad tBody) = tBody := by decide +kernel

/-! An image signed with the key pair and the random number of the example in the SM2 standard, its body one erased unit. -/

def tKey : List Byte := beBytes 64
  0x09f9df311e5421a150dd7d161e4bc5c672179fad1833fc076bb08ff356f35020ccea490ce26775a52dc6ea718cc1aa600aed05fbf35e084a6632f6072da9ad13

def tOwner : BitVec 256 := 0x3d92bed6d685f38bff5ccd052119e1ecc071c2f3d915245c8d9c5a2cb131a89d
def tDigest : List Byte := beBytes 32 0x8c1e21fe10688cdcd11f4c42b9d2384f65d6aad3b29eb9140a4f2af313029fcb

def tSig : List Byte := beBytes 64
  0xf2741e02640bc8185392fd0a5458265f73c423cbd49ae70166913abbe4a4b19ef8b48560e292e0641b7adf30a0847ab4e2f9005abac13e0f44ebc8c2a6644fb2

/-- The 0x80 bytes of the header that are signed: magic, format, zeros, body digest, owner key (R97). -/
def tImageHead : List Byte := leBytes 4 0x524C5054 ++ leBytes 4 1 ++ List.replicate 24 0 ++ tDigest ++ tKey

/-- IMAGE, with the signed image in slot A. -/
def tSigned : State :=
  let bytes := tImageHead ++ tSig ++ List.replicate 3904 0
  { tIn .image with
    boot := { Boot.reset with phase := .image, trying := some false }
    fuse := { Fuse.reset with ownerDigest := tOwner }
    flash := { Flash.reset with bytes := (List.range bytes.length).zip bytes } }

theorem tSigned_parts :
    ((imageHeader tSigned false).drop 0x40).take 64 = tKey ∧ ((imageHeader tSigned false).drop 0x20).take 32 = tDigest ∧
    ((imageHeader tSigned false).drop 0x80).take 64 = tSig ∧ formatOk (imageHeader tSigned false) = true ∧
    secVersion (imageHeader tSigned false) = 0 ∧ bodyUnits (imageHeader tSigned false) = 1 := by decide +kernel

theorem tSigned_head : (imageHeader tSigned false).take 0x80 = tImageHead := by decide +kernel

theorem tabBytes_nil (d : Byte) : ∀ n a, tabBytes d n a [] = List.replicate n d
  | 0, _ => rfl
  | n + 1, a => by simp only [tabBytes, List.replicate_succ, tabBytes_nil d n (a + 1)]

theorem tSigned_above : (tSigned.flash.bytes.filter fun e => decide (4096 ≤ e.1)) = [] := by decide +kernel

theorem tSigned_body : imageBody tSigned false = List.replicate 4096 0xFF := by
  have ⟨_, _, _, _, _, units⟩ := tSigned_parts
  have base : slotBase false + 4096 = 4096 := rfl
  simp only [imageBody, flashBytes, units, base, tSigned_above, tabBytes_nil]

theorem tSigned_owner : sm3 tKey = tOwner := by decide +kernel
theorem tSigned_digest : beBytes 32 (sm3 (List.replicate 4096 0xFF)).toNat = tDigest := by decide +kernel
theorem tSigned_signature : sm2Verify tKey tImageHead tSig = true := by decide +kernel

/-- The signed image passes (R98). -/
theorem witness_StartUpChecks_verified :
    tSigned.boot.phase = .image ∧ tSigned.boot.trying = some false ∧ verifySlot true false tSigned = 0 := by
  have ⟨key, dig, sig, form, svc, _⟩ := tSigned_parts
  refine ⟨rfl, rfl, ?_⟩
  simp only [verifySlot, form, svc, key, dig, sig, tSigned_head, tSigned_body, tSigned_owner, tSigned_digest, tSigned_signature]
  decide

theorem witness_StartUpChecks :
    let r := newRecord 1 1 tOn
    let s := { tIn .selftest with fuse := { Fuse.reset with opened := some r } }
    let img (tried : Bool) : State := { tIn .image with boot := { Boot.reset with phase := .image, trying := some false, triedOne := tried } }
    (tIn .power).boot.phase = .power ∧ (tIn .selftest).boot.phase = .selftest ∧ (tIn .selftest).fuse.opened = none ∧
    s.boot.phase = .selftest ∧ s.fuse.opened = some r ∧ s.fuse.busy = false ∧ (img false).boot.phase = .image ∧
    (img false).boot.trying = some false ∧ verifySlot false false (img false) ≠ 0 ∧ (img false).fuse.lock < 2 ∧
    (img false).boot.triedOne = false ∧ verifySlot false false (img true) ≠ 0 ∧ (img true).boot.triedOne = true ∧
    (tLoad tBody).boot.phase = .load := by decide +kernel

theorem witness_MemoryLinksAndEpoch :
    let link (c : Tab Word) : State := { tIn .link with cfg := c }
    let need : Tab Word := [(ptKey 0 8, put 1 1 ||| 1)]
    let time := { tIn .time with time := { TimeKeeper.reset with state := .locked } }
    let start := { tIn .epoch with job := { Job.reset with jobState := .fixed, e0 := 10 }, time := { TimeKeeper.reset with now := 90 } }
    let leaf := { tIn .hbm with fuse := { Fuse.reset with part := 0x9624 } }
    (tIn .hbm).boot.phase = .hbm ∧ (tIn .hbm).stackPresent (0 : Fin 8) = true ∧ leaf.stackPresent (7 : Fin 8) = false ∧
    (link []).boot.phase = .link ∧ requiredDown (link []) = [] ∧ requiredDown (link need) = [0] ∧ (tIn .time).boot.phase = .time ∧
    (tIn .time).time.state ≠ .locked ∧ time.boot.phase = .time ∧ time.time.state = .locked ∧ start.boot.phase = .epoch ∧
    start.job.jobState = .fixed ∧ 9 * start.job.e0 ≤ start.time.now ∧ start.limitReached = false ∧ start.job.quenchDue = [] ∧
    ({ start with job := { start.job with quenchDue := [(9, 0x40, 1)] } }).job.quenchDue ≠ [] := by decide +kernel

/-! ### Time -/

/-- RUN with a time state, a slave port 0 that is UP, source PTP, and more configuration words. -/
def tPtp (k : TimeState) (slave : Option PortNo) (cfg : Tab Word) : State :=
  let s := tPort (tRun cfg) tUp
  { s with time := { TimeKeeper.reset with state := k, slave := slave } }

theorem witness_TimeSourceEvents :
    let pps (k : TimeState) := tPtp k none [(0x1_0008, 1)]
    let held := { tPtp .holdover (some 0) [] with clk := 1800000000 }
    let old := { tPtp .locked (some 0) [(0x1_0008, put 1 1)] with clk := 1080000000000 }
    let both := tPtp .locked none [(0x1_0010, put 1 32)]
    let lone (src : Word) : State := { tPtp .locked (some 0) [(0x1_0008, src)] with clk := 1800000000 }
    timeInjectorOff (tPtp .locked (some 0) []) ∧ (tPtp .locked (some 0) []).tracking = true ∧ sourceAccepted (tPtp .locked (some 0) []) ∧
    (tPtp .locked (some 0) []).portUp (0 : PortNo).toNat = true ∧ 0 = fld (tPtp .locked (some 0) []).timeCfg 11 4 ∧
    (tPtp .locked (some 0) []).timeSrc ≠ 1 ∧ (tPtp .locked (some 0) []).time.slave = some 0 ∧
    1 ≠ fld (tPtp .locked (some 0) []).timeCfg 11 4 ∧ timeInjectorOff (pps .locked) ∧ (pps .locked).tracking = true ∧
    sourceAccepted (pps .locked) ∧
    (pps .locked).pwr.mainOn = true ∧ (pps .locked).timeSrc = 1 ∧ (pps .locked).time.state ≠ .free ∧ (1000000 : Int).natAbs ≤ 1000000 ∧
    1000000 < (-1000001 : Int).natAbs ∧
    ({ pps .free with chain := { Chain.reset with nextSecond := some 5 } }).chain.nextSecond = some 5 ∧ (pps .free).time.state = .free ∧
    timeInjectorOff both ∧ both.tracking = true ∧ both.timeSrc = 2 ∧ sourceAccepted both ∧
    (tPtp .locked (some 0) []).time.state = .locked ∧ old.time.lastValid + 3 * logClk old.logSync ≤ old.clk ∧
    (lone 0).timeSrc ≠ 1 ∧ (lone 0).time.slave = some 0 ∧ announceLate (lone 0) (0 : PortNo).toNat = true ∧
    held.limitReached = true ∧ held.job.limitHit = false ∧ held.boot.phase = .run ∧ old.time.lockClk + 1080000000000 ≤ old.clk ∧
    old.pwr.mainOn = true ∧ old.timeOutMode = 1 ∧ old.time.now % 9000000000 < 5 ∧
    (let s := { tPtp .locked none [(0x1_0008, put 2 1)] with clk := 500 }
     s.timeOutMode = 2 ∧ s.boot.phase = .run ∧ s.clk = s.job.pourClk) ∧ old.pwr.markEnd ≤ old.clk ∧
    old.clk < ({ old.pwr with markEnd := old.clk + 1 }).markEnd := by unfold timeInjectorOff sourceAccepted; decide +kernel

/-- Each case of a measured offset: at 10 ns, at 20 ns, above it, in each state of the discipline. -/
theorem witness_offsetTaken :
    (tPtp .locked none []).time.state = .locked ∧ (10000 : Int).natAbs ≤ 10000 ∧ 10000 < (20000 : Int).natAbs ∧
    (20000 : Int).natAbs ≤ 20000 ∧ 20000 < (-20001 : Int).natAbs ∧ (tPtp .holdover none []).boot.phase = .run ∧
    (tPtp .acquire none []).time.state = .acquire ∧ consecutive 1 (tPtp .free none []) < 63 ∧
    (let s := tPtp .acquire none []
     consecutive 1 { s with time := { s.time with good := 63, source := 1, lastValid := s.clk - 1 } } = 63) ∧ (tPtp .lost none []).time.state = .lost := by
  decide +kernel

/-- An Announce of domain 0. -/
def tAnnounce : AnnounceData :=
  { domain := 0, priority1 := 1, clockClass := 6, accuracy := 0x21, variance := 0, priority2 := 1, identity := 5, stepsRemoved := 0, sender := 5 }

theorem witness_PtpMessages :
    let gm := tPtp .locked none [(0x1_0008, 8)]
    let asked := { tPtp .locked (some 0) [] with time := { TimeKeeper.reset with delaySent := [(0, (7, 1))], lastSync := [(0, (3, 4))] } }
    masterPort (0 : PortNo).toNat gm = true ∧ (tPtp .locked (some 0) []).time.slave = some 0 ∧
    (tPtp .locked (some 0) []).portUp (0 : PortNo).toNat = true ∧ asked.portUp (0 : PortNo).toNat = true ∧
    tget? asked.time.delaySent (0 : PortNo).toNat = some (7, 1) ∧ tget? asked.time.lastSync (0 : PortNo).toNat = some (3, 4) ∧
    (⟨1, 0, 0⟩ : PtpHead).domain ≠ fld asked.timeCfg 11 4 ∧ tAnnounce.domain = fld gm.timeCfg 11 4 ∧ timeInjectorOff gm := by
  unfold timeInjectorOff; decide +kernel

/-- An Announce of another clock: this module's identity is open (log entry 2). -/
theorem witness_PtpMessages_sender :
    ({ tAnnounce with sender := Config.clockIdentity + 1 }).sender ≠ Config.clockIdentity := by simp

/-! ### Links -/

/-- A port in training at a step, in a phase. -/
def tStep (p : Phase) (n : Nat) : State := tPort (tIn p) { Port.reset with state := .training, step := n }

theorem witness_TrainingSteps :
    trains (tStep .link 1) (0 : PortNo).toNat = true ∧ ((tStep .link 1).port (0 : PortNo).toNat).step = 1 ∧
    ((tStep .link 2).port (0 : PortNo).toNat).step = 2 ∧ ((tStep .link 3).port (0 : PortNo).toNat).step = 3 ∧ 40 ≤ 40 ∧ 40 < 41 ∧
    (tStep .link 3).boot.phase = .link ∧ ((tStep .link 4).port (0 : PortNo).toNat).step = 4 ∧
    (tPort (tIn .run) { Port.reset with state := .down }).lit = true ∧
    (tPort (tIn .run) { Port.reset with state := .down }).portEnabled (0 : PortNo).toNat = true ∧
    ((tPort (tIn .run) { Port.reset with state := .down }).port (0 : PortNo).toNat).state = .down ∧
    ((tPort (tIn .run) { Port.reset with state := .down }).port (0 : PortNo).toNat).downClk + 180000000 ≤
      ({ tPort (tIn .run) { Port.reset with state := .down } with clk := 180000000 }).clk := by decide +kernel

/-- A TRAIN word's fields, whatever its 64 data bits. -/
theorem train_word_fields (code d : Nat) (hc : code < 2 ^ 16) (hd : d < 2 ^ 64) :
    cwType (mkCw 5 code d) = 5 ∧ cwSeq (mkCw 5 code d) = code ∧ fld (mkCw 5 code d) 63 32 = d % 2 ^ 32 ∧
      fld (mkCw 5 code d) 95 94 = d / 2 ^ 62 ∧ cwValid (mkCw 5 code d) = true := by
  have bound : (crc16 (beBytes 14 ((0xC5F * 2 ^ 116 + 5 * 2 ^ 112 + code * 2 ^ 96 + d * 2 ^ 32) / 2 ^ 16))).toNat < 65536 := BitVec.isLt _
  have same (c : Nat) (h : c < 65536) : (0xC5F * 2 ^ 116 + 5 * 2 ^ 112 + code * 2 ^ 96 + d * 2 ^ 32 + c) % 2 ^ 128 / 2 ^ 16 =
      (0xC5F * 2 ^ 116 + 5 * 2 ^ 112 + code * 2 ^ 96 + d * 2 ^ 32) / 2 ^ 16 := by omega
  simp only [cwType, cwSeq, cwValid, mkCw, fld, BitVec.toNat_ofNat, Nat.shiftRight_eq_div_pow, Nat.mod_eq_of_lt hc, Nat.mod_eq_of_lt hd,
    show 5 % 16 = 5 from rfl, same _ bound, Bool.and_eq_true, beq_iff_eq]
  generalize (crc16 _).toNat = c at bound ⊢
  refine ⟨?_, ?_, ?_, ?_, ?_, ?_⟩ <;> omega

theorem witness_TrainingWords :
    let good := mkCw 5 2 (keyCheck 0)
    let wrong := mkCw 5 2 ((keyCheck 0 + 1) % 2 ^ 32)
    trainWord (tStep .link 5) 0 good 2 5 ∧ fld good 95 94 = ((tStep .link 5).port (0 : PortNo).toNat).keyset ∧
    fld good 63 32 = keyCheck ((tStep .link 5).port (0 : PortNo).toNat).keyset ∧ trainWord (tStep .link 5) 0 wrong 2 5 ∧
    fld wrong 63 32 ≠ keyCheck ((tStep .link 5).port (0 : PortNo).toNat).keyset := by
  have lt : keyCheck 0 < 2 ^ 32 := Nat.mod_lt _ (by decide)
  have a := train_word_fields 2 (keyCheck 0) (by decide) (by omega)
  have b := train_word_fields 2 ((keyCheck 0 + 1) % 2 ^ 32) (by decide) (by omega)
  have tr : trains (tStep .link 5) (0 : PortNo).toNat = true ∧ ((tStep .link 5).port (0 : PortNo).toNat).step = 5 := by decide +kernel
  have ks : ((tStep .link 5).port (0 : PortNo).toNat).keyset = 0 := by decide +kernel
  intro good wrong
  rw [ks]
  refine ⟨⟨a.2.2.2.2, a.1, a.2.1, tr⟩, ?_, ?_, ⟨b.2.2.2.2, b.1, b.2.1, tr⟩, ?_⟩ <;> simp only [good, wrong] <;> omega

theorem witness_TrainingWords_others :
    let s := tStep .link 5
    let u := { tStep .link 6 with cfg := [(ptKey 0 8, put 1 32 ||| 1)] }
    trainWord s 0 (mkCw 5 1 (4 * 2 ^ 60)) 1 5 ∧ fld (mkCw 5 1 (4 * 2 ^ 60)) 95 92 = s.portWidth (0 : PortNo).toNat ∧
    trainWord s 0 (mkCw 5 1 (8 * 2 ^ 60)) 1 5 ∧ fld (mkCw 5 1 (8 * 2 ^ 60)) 95 92 ≠ s.portWidth (0 : PortNo).toNat ∧
    s.boot.phase = .link ∧ trainWord s 0 (mkCw 5 3 9) 3 5 ∧ trainWord s 0 (mkCw 5 4 9) 4 5 ∧ 5 ≤ 5 ∧ trainWord u 0 (mkCw 5 4 9) 4 6 ∧
    ((tPort (tIn .link) { Port.reset with state := .training, step := 5, nonces := some (9, 0) }).port (0 : PortNo).toNat).nonces = some (9, 0) ∧
    (18 + 17) / 18 ≤ fld (u.portCfg (0 : PortNo).toNat) 42 32 ∧ fld (u.portCfg (0 : PortNo).toNat) 42 32 < (19 + 17) / 18 ∧
    u.boot.phase = .link ∧ trainWord (tStep .link 7) 0 (mkCw 5 5 0) 5 7 ∧ trainWord (tStep .link 7) 0 (mkCw 5 6 0) 6 7 := by
  unfold trainWord; decide +kernel

/-- An empty packet of a class, 16 bytes, sealed with a link sequence number. -/
def tHdr (type cls dst addr seq : Nat) : BitVec 256 := sealHeader (mkHeader type cls 0 1 dst 1 9 0 addr 0 0 0 0 0 0) seq

theorem witness_LinksLeaveUp :
    let k := (tQ (tHdr 0 4 5 0 0) (List.replicate 16 0)).pkt
    let late := { tPort (tIn .run) { tUp with replayQ := [k] } with clk := 180000 }
    let retrain := { tPort (tIn .run) { tUp with state := .retrain } with clk := 90000000 }
    (tPort (tIn .run) tUp).portUp (0 : PortNo).toNat = true ∧ 64 < 65 ∧ 64 ≤ 64 ∧ late.portUp (0 : PortNo).toNat = true ∧
    (late.port (0 : PortNo).toNat).replayQ ≠ [] ∧ (late.port (0 : PortNo).toNat).ackClk + 180000 ≤ late.clk ∧
    tUp.escaped = false ∧ tUp.rx = none ∧ tUp.waitReplay = false ∧ cwValid (mkCw 6 0 0) = true ∧ 5 < cwType (mkCw 6 0 0) ∧
    retrain.lit = true ∧ (retrain.port (0 : PortNo).toNat).state = .retrain ∧
    (retrain.port (0 : PortNo).toNat).retrainClk + 90000000 ≤ retrain.clk ∧ (retrain.port (0 : PortNo).toNat).replayQ = [] := by
  decide +kernel

theorem witness_ControlWords :
    let k := (tQ (tHdr 0 4 5 0 0) (List.replicate 16 0)).pkt
    let s := tPort (tIn .run) { tUp with txSeq := 1, replayQ := [k] }
    let x := s.port (0 : PortNo).toNat
    let w (n : Nat) : State := { tPort (tIn .run) { tUp with waitReplay := true, rxSeq := 2, nakCount := n } with clk := 100000 }
    cwArrives s 0 (mkCw 0 0 0xFF) 0 ∧ x.waitReplay = false ∧ (∃ k ∈ x.replayQ, seqLe (hSeq k.hdr) (cwSeq (mkCw 0 0 0xFF)) = true) ∧
    cwArrives s 0 (mkCw 1 0 0) 1 ∧ x.replaying = none ∧ seqLe (oldestSeq x) (cwSeq (mkCw 1 0 0)) = true ∧
    seqLe (cwSeq (mkCw 1 0 0)) x.txSeq = true ∧ cwArrives s 0 (mkCw 2 0 0) 2 ∧ cwArrives (w 0) 0 (mkCw 2 2 0) 2 ∧
    cwSeq (mkCw 2 2 0) = ((w 0).port (0 : PortNo).toNat).rxSeq ∧ cwSeq (mkCw 2 3 0) ≠ ((w 0).port (0 : PortNo).toNat).rxSeq ∧
    cwArrives s 0 (mkCw 3 0 0) 3 ∧ cwArrives s 0 (mkCw 4 0 0) 4 ∧ (w 0).portUp (0 : PortNo).toNat = true ∧
    ((w 0).port (0 : PortNo).toNat).nakClk + 2 * replayBound (w 0) ((w 0).portWidth (0 : PortNo).toNat) ≤ (w 0).clk ∧
    ((w 3).port (0 : PortNo).toNat).nakCount < 4 ∧ 4 ≤ ((w 4).port (0 : PortNo).toNat).nakCount ∧
    ((w 3).port (0 : PortNo).toNat).nakDue = false ∧ ((w 3).port (0 : PortNo).toNat).busyUntil ≤ (w 3).clk ∧
    ((w 3).port (0 : PortNo).toNat).cut = none ∧
    (let b := (w 3).setPort 0 fun y => { y with busyUntil := 100001 }
     b.clk < (b.port (0 : PortNo).toNat).busyUntil) := by
  unfold cwArrives; decide +kernel

/-! ### Packets -/

/-- RUN with port 0 UP, no flask, and more configuration words; class c has a policer of flask 0. -/
def tLink (cfg : Tab Word) (x : Port) : State := tPort (tRun cfg) x

theorem witness_PacketHeaders :
    let h := tHdr 0 4 5 0 0
    let con := tHdr 6 2 0 0 0
    let wr := tHdr 0 2 0 0 0
    let s := tLink [(stKey 0x010 8, 1)] tUp
    let pol (n : Nat) : State := { tLink [(tbKey 7 (32 * 4), put 1 63)] tUp with policers := [(4, { Policer.reset with tokens := n })] }
    let tok (n : Nat) (i : BitVec 256) : Nat := ((pol n).policer (policerNo (portFlask (pol n) 0) (hCls i))).tokens
    let eu : State := { s with cfg := (ptKey 0 8, put 1 3 ||| 1) :: s.cfg }
    s.portUp (0 : PortNo).toNat = true ∧ (s.port (0 : PortNo).toNat).rx = none ∧ (s.port (0 : PortNo).toNat).waitReplay = false ∧
    (s.port (0 : PortNo).toNat).session = none ∧ (readHeader (s.port 0) h).1 = h ∧
    (tPort tOn Port.reset).portUp (0 : PortNo).toNat = false ∧ hCrc (h ^^^ 1) ≠ headerCrc (h ^^^ 1) ∧
    ({ tUp with cleared := true }).cleared = true ∧ (s.port (0 : PortNo).toNat).cleared = false ∧ hCrc h = headerCrc h ∧
    (earlyUse s 0 && scheduledClass h) = false ∧ wordsGood s ∧ hSeq h = (s.port (0 : PortNo).toNat).rxSeq ∧ scheduledClass h = false ∧
    ¬ isPoliced s 0 h ∧ wordsGood (pol 0) ∧ isPoliced (pol 0) 0 h ∧ 1024 * countedLen (pol 49152) 0 h ≤ tok 49152 h ∧
    tok 49151 h < 1024 * countedLen (pol 49151) 0 h ∧ (pol 0).replayMode = false ∧
    (hCrc con = headerCrc con ∧ hSeq con = 0 ∧ hCls con = 2 ∧ hType con = 6 ∧ earlyUse s 0 = false ∧ headerBad s 0 con = none) ∧
    (earlyUse eu 0 = true ∧ scheduledClass wr = true ∧ payloadLen wr = 16 ∧ hType wr ≠ 6 ∧ headerBad eu 0 wr = none ∧ eu.replayMode = false) ∧
    hSeq (tHdr 0 4 5 0 65535) ≠ (s.port (0 : PortNo).toNat).rxSeq ∧
    ((s.port (0 : PortNo).toNat).rxSeq + 65536 - hSeq (tHdr 0 4 5 0 65535) % 65536) % 65536 < 32768 ∧
    32768 ≤ ((s.port (0 : PortNo).toNat).rxSeq + 65536 - hSeq (tHdr 0 4 5 0 1) % 65536) % 65536 := by
  unfold wordsGood isPoliced; decide +kernel

/-- A scheduled packet of a port of early use whose station and region are there: its lines are taken as they arrive. -/
theorem witness_PacketHeaders_early :
    let cfg : Tab Word := [(ptKey 0 8, put 1 3 ||| 1), (stKey 0x070 8, 1)] ++ tRegion0
    let s : State := { tRun cfg with ports := [(0, tUp)] }
    let h := sealHeader (mkHeader 0 2 0 1 0 1 9 0 0x20_0000 0x070 7 0 0 0 0) 0
    let r := receptionOf s 0 h 0 false false false
    let v := receiving 0 r (s.setPort 0 fun y => { y with escaped := false, cleared := false })
    earlyUse s 0 = true ∧ payloadLen h = 128 ∧ headerBad s 0 h = none ∧
      scheduledBad v (rxPacket 0 r (List.replicate 128 0) 0 false true) = none := by decide +kernel

/-- A route of plane 1 to destination 5: kind, port, group; flask 0 allowed. -/
def tRoute (kind port group : Nat) : Tab Word :=
  [(tbKey 0 (8 * (2 ^ 20 + 5)), put 1 63 ||| put kind 61 ||| put port 48 ||| put group 36 ||| put 1 16)]

/-- A transit packet on port 0 and the reception of one. -/
def tTransit : QPkt := tQ (tHdr 0 4 5 0 0) (List.replicate 16 0)
def tRx : RxPacket := receptionOf tOn 0 (tHdr 0 4 5 0 0) 0 false false false

theorem witness_PacketForwardingAndRouting_forward :
    let none_ := tLink [] { tUp with transit := [tTransit] }
    let some_ := tLink (tRoute 0 1 0) { tUp with transit := [tTransit] }
    let early := tLink (tRoute 0 1 0) { tUp with rx := some tRx }
    let q := rxQ 0 (rxPacket 0 tRx [] 0 false false) early
    some_.lit = true ∧ (some_.port 0).transit = tTransit :: [] ∧
    (routePacket tTransit (some_.setPort 0 fun x => { x with transit := [] })).1 = none ∧ tTransit.pkt.inPort = some 0 ∧
    (routePacket tTransit (none_.setPort 0 fun x => { x with transit := [] })).1 = some (0x02, 5) ∧ (early.port 0).transit = [] ∧
    (early.port 0).rx = some tRx ∧ tRx.ptp = false ∧ tRx.stale = false ∧ tRx.dross = false ∧ tRx.bad = none ∧ tRx.forwarded = false ∧
    early.replayMode = false ∧ isTransit early tRx.hdr = true ∧ (routePacket q (charge q.owner q.cells early)).1 = none ∧
    (routePacket q (charge q.owner q.cells (tLink [] { tUp with rx := some tRx }))).1 = some (0x02, 5) ∧
    ((tLink [] tUp).port 0).transit = [] ∧ ((tLink [] tUp).port 0).rx = none := by decide +kernel

theorem witness_PacketForwardingAndRouting_route :
    let s := tLink [] tUp
    let q := tTransit
    let e (k p g : Nat) := (tLink (tRoute k p g) tUp).cfgw (routeKey q.pkt.hdr)
    wordsGood s ∧ bit (s.cfgw (routeKey q.pkt.hdr)) 63 = false ∧
    bit (e 0 1 0) 63 = true ∧ bit (BitVec.ofNat 16 (fld (e 0 1 0) 31 16)) 1 = false ∧
    bit (BitVec.ofNat 16 (fld (e 0 1 0) 31 16)) (hFlask q.pkt.hdr) = true ∧ fld (e 0 1 0) 62 61 = 0 ∧
    some (swapPort s (fld (e 0 0 0) 55 48)) = q.pkt.inPort.map (·.toNat) ∧
    some (swapPort s (fld (e 0 1 0) 55 48)) ≠ q.pkt.inPort.map (·.toNat) ∧ bit (e 0 1 0) 59 = false ∧
    swapPort s (fld (e 0 1 0) 55 48) / 16 = q.src / 256 ∧ swapPort s (fld (e 0 16 0) 55 48) / 16 ≠ q.src / 256 ∧
    fld (e 1 0 0) 62 61 = 1 ∧ liveMembers s (fld (e 1 0 0) 47 36) (fld (e 1 0 0) 35 32) = [] ∧
    2 ≤ fld (e 2 0 3) 62 61 ∧ bit (e 2 0 3) 59 = false := by unfold wordsGood; decide +kernel

/-- A reception on port 0 of a packet with some marks. -/
def tRecv (type cls dst : Nat) (dross fwd : Bool) (bad : Option (Nat × Nat)) : RxPacket :=
  { receptionOf tOn 0 (tHdr type cls dst 0 0) 0 false false dross with forwarded := fwd, bad := bad }

theorem witness_PacketTrailers :
    let payload : List Byte := List.replicate 16 7
    let s (r : RxPacket) : State := tLink [] { tUp with rx := some r }
    let a := tRecv 0 4 5 false false none
    let sched := tRecv 0 2 0 false false none
    let here := tRecv 0 4 0 false false none
    let ptp : RxPacket := { tRecv 4 0 0 false false none with ptp := true }
    let right := trailerOf a.hdr payload
    ((s a).port (0 : PortNo).toNat).rx = some a ∧ (s a).portUp (0 : PortNo).toNat = true ∧ payload.length = payloadLen a.hdr ∧ a.ptp = false ∧
    a.stale = false ∧ ({ a with stale := true }).stale = true ∧ (s a).replayMode = false ∧ bit (portTap (s a) 0) 4 = false ∧
    (tRecv 0 4 5 true false none).dross = true ∧ scheduledClass a.hdr = false ∧ scheduledClass sched.hdr = true ∧
    payload.length = payloadLen sched.hdr ∧ (tRecv 0 4 5 false true none).forwarded = true ∧
    (tRecv 0 4 5 false false (some (6, 0))).bad = some (6, 0) ∧ hType a.hdr ≠ 4 ∧ isTransit (s a) a.hdr = true ∧
    isTransit (s here) here.hdr = false ∧ payload.length = payloadLen here.hdr ∧
    right ^^^ BitVec.allOnes 64 ≠ right ∧ right ^^^ 1 ≠ right ∧ right ^^^ 1 ≠ right ^^^ BitVec.allOnes 64 ∧ 0 < 1 ∧
    a.early = false ∧ ({ sched with early := true }).early = true ∧
    hType sched.hdr ≠ 6 ∧ ptp.ptp = true ∧ hType ptp.hdr = 4 ∧ ptp.bad = none ∧
    payload.length = payloadLen ptp.hdr ∧ ((9 :: payload).headD 0).toNat % 16 ∈ [0, 1, 9, 11] ∧ (payload.headD 0).toNat % 16 ∉ [0, 1, 9, 11] ∧
    ({ tRun [(0x2_0000, put 1 60)] with clk := 500 }).replayMode = true ∧ ((s a).port 0).session = none ∧
    cipherPayload (rxKey ((s a).port 0)) a.count payload = payload := by decide +kernel

/-! ### Deliveries -/

/-- Bay 0's first memory station, 0x070, named, for region 0 of flask 0. -/
def tMem : Tab Word := (stKey 0x070 8, 1) :: tRegion0

/-- A request for a station: type, class, address. -/
def tAsk (type cls st addr len : Nat) (payload : List Byte) : QPkt :=
  tQ (mkHeader type cls 0 1 0 1 9 0 addr st len 0 0 0 0) payload

theorem witness_RequestDeliveries :
    let wr := tAsk 0 4 0x070 0x20_0000 0 (List.replicate 16 1)
    let rd := tAsk 1 4 0x070 0x20_0000 0 (List.replicate 16 0)
    let data := tAsk 2 4 0x070 0x20_0000 0 (List.replicate 16 1)
    let s (q : QPkt) : State := tLink tMem { tUp with inbox := [q] }
    (0, Instr.write 0) ∈ [(0, Instr.write 0), (1, .read 0), (2, .readData 0)] ∧ firstAccepted (s wr) (0 : PortNo).toNat 0 wr [] ∧
    firstAccepted (s rd) (0 : PortNo).toNat 1 rd [] ∧ firstAccepted (s data) (0 : PortNo).toNat 2 data [] ∧
    scheduledClass wr.pkt.hdr = false ∧ (s wr).running = true ∧ stationPresent (s wr) 0x070 = true ∧ stationFlask (s wr) 0x070 = 0 ∧
    kindOf (hDstStation wr.pkt.hdr) = 7 ∧ absentAddr (s wr) (hAddr wr.pkt.hdr) = false ∧ hAddr wr.pkt.hdr % 16 = 0 ∧
    regionOf (s wr) (hAddr wr.pkt.hdr) 16 = some 0 ∧ rgRead (s wr) 0 = true ∧ rgWrite (s wr) 0 = true ∧
    hFlask wr.pkt.hdr = rgFlask (s wr) 0 ∧ shaking (s wr) 0 = false ∧
    stationCheck (accepted 0 [] (s (tAsk 0 4 0x010 0 0 []))) (tAsk 0 4 0x010 0 0 []).pkt = some (0x03, 0) := by
  unfold firstAccepted; decide +kernel

theorem witness_AnswersNoticesAndContributions :
    let ok := tAsk 3 4 0x010 0 0 (List.replicate 16 0)
    let bad := tAsk 3 4 0x010 0 0 (2 :: List.replicate 15 0)
    let none_ := tAsk 3 4 0xFFF 0 0 (List.replicate 16 0)
    let con := tAsk 6 2 0x020 0 7 (List.replicate 128 0)
    let s (q : QPkt) : State := tLink [(stKey 0x010 8, 1), (stKey 0x020 8, 1)] { tUp with inbox := [q] }
    let early (q : QPkt) : State := { s q with boot := { Boot.reset with phase := .epoch } }
    firstAccepted (s ok) (0 : PortNo).toNat 3 ok [] ∧ stationPresent (s ok) 0x010 = true ∧ ok.pkt.payload.headD 0 = 0 ∧
    firstAccepted (s bad) (0 : PortNo).toNat 3 bad [] ∧ bad.pkt.payload.headD 0 ≠ 0 ∧ firstAccepted (s none_) (0 : PortNo).toNat 3 none_ [] ∧
    stationPresent (s none_) 0xFFF = false ∧ firstAccepted (s (tNotice 1 0)) (0 : PortNo).toNat 5 (tNotice 1 0) [] ∧
    (s (tNotice 1 0)).running = true ∧ hLen (tNotice 1 0).pkt.hdr = fld (noticeHead (tNotice 1 0).pkt) 119 112 + 1 ∧
    fld (noticeHead (tNotice 1 0).pkt) 127 120 = 1 ∧ fld (noticeHead (tNotice 1 0).pkt) 111 64 = (s (tNotice 1 0)).job.heat ∧
    fld (noticeHead (tNotice 2 0).pkt) 127 120 = 2 ∧ (early (tNotice 1 0)).running = false ∧
    hLen (tAsk 5 1 0 0 3 (tHead 1 0)).pkt.hdr ≠ fld (noticeHead (tAsk 5 1 0 0 3 (tHead 1 0)).pkt) 119 112 + 1 ∧
    firstAccepted (s con) (0 : PortNo).toNat 6 con [] ∧ (dropRemoved 0 con.pkt.hdr (accepted 0 [] (s con))).isNone = true ∧
    (s con).running = true ∧ addressedHere (s con) con.pkt.hdr = true ∧ stationPresent (s con) 0x020 = true ∧
    stationFlask (s con) 0x020 = 0 ∧ (early con).running = false := by
  unfold firstAccepted; decide +kernel

/-! ### Egress, rings, pool -/

/-- A packet of a class for a queue of port 0; the port with credits and a gate list of one open entry. -/
def tOut (cls : Nat) : QPkt := tQ (mkHeader 0 cls 0 1 5 1 9 0 0 0 0 0 0 0 0) (List.replicate 16 0)
def tSend (x : Port) : State := { tLink [] { x with gateActive := [(0, 0xFF)], credits := [(0, 9), (1, 9), (4, 9), (5, 9), (6, 9), (7, 9)] } with clk := 600 }

theorem witness_EgressChoices_scheduled :
    let busy := tSend { tUp with busyUntil := 601 }
    let repl := tSend { tUp with replaying := some (3, true) }
    let sch := tSend { tUp with scheduled := [tOut 2] }
    let fill := tSend { tUp with cwClk := 472 }
    busy.replayMode = false ∧ busy.portUp (0 : PortNo).toNat = true ∧ busy.clk < (busy.port 0).busyUntil ∧ (busy.port 0).carrying = true ∧
    (tPort tOn Port.reset).portUp (0 : PortNo).toNat = false ∧ (Port.reset).scheduled = [] ∧ mayChoose repl 0 ∧
    (repl.port 0).replaying = some (3, true) ∧ mayChoose sch 0 ∧ (sch.port 0).replaying = none ∧
    (sch.port 0).scheduled = tOut 2 :: [] ∧ (tOut 2).since ≤ sch.clk ∧
    windowAllows sch 0 (tOut 2).pkt.hdr = true ∧ plainSend sch 0 (tOut 2).pkt.hdr ∧ mayChoose fill 0 ∧ scheduledHead fill 0 = none ∧
    (fill.port 0).nakDue = false ∧ (fill.port 0).cwClk + 128 ≤ fill.clk ∧ ((tSend { tUp with nakDue := true }).port 0).nakDue = true := by
  unfold mayChoose plainSend; decide +kernel

theorem witness_EgressChoices_queues :
    let fresh := { tUp with cwClk := 473 }
    let k := (tQ (mkHeader 4 0 0 1 0 1 0 0 0 0 2 0 0 0 0) []).pkt
    let ptp := tSend { fresh with ptpQ := [k] }
    let buf := tSend { fresh with mcastBuf := [tOut 4] }
    let uni := tSend { fresh with egress := [(4, [tOut 4])] }
    let mc : State := { tSend fresh with fab := { Fabric.reset with mcast := [(8 * 1 + 4, [{ tOut 4 with targets := [0] }])] } }
    mayChoose ptp 0 ∧ (ptp.port 0).nakDue = false ∧ scheduledHead ptp 0 = none ∧ ptp.clk < (ptp.port 0).cwClk + 128 ∧
    (ptp.port 0).ptpQ = k :: [] ∧ bucketAllows ptp 0 0 k.hdr = true ∧ hType k.hdr = 4 ∧ isCandidate ptp 0 (hCls k.hdr) = false ∧
    bit (portTap ptp 0) 5 = false ∧ mayChoose buf 0 ∧ ptpHead buf 0 = none ∧ heldDue buf 0 none = none ∧ bufferHead buf 0 none = some (tOut 4) ∧
    (let held := tSend { fresh with held := [(4, [(tOut 4, 600)])] }
     mayChoose held 0 ∧ ptpHead held 0 = none ∧ heldDue held 0 none = some (4, tOut 4) ∧ hType (tOut 4).pkt.hdr ≠ 4 ∧
       bit (portTap held 0) 5 = false) ∧
    plainSend buf 0 (tOut 4).pkt.hdr ∧ bufferHead (tSend fresh) 0 none = none ∧
    (∀ c ∈ classOrder 0 none (tSend fresh), readyHead (tagged 0 none (tSend fresh)) 0 c none = none) ∧ mayChoose uni 0 ∧ bufferHead uni 0 none = none ∧
    classOrder 0 none uni = [0, 1] ++ 4 :: [5, 6, 7] ∧ (∀ d ∈ [0, 1], readyHead (tagged 0 none uni) 0 d none = none) ∧
    readyHead (tagged 0 none uni) 0 4 none = some (.unicast, tOut 4) ∧
    readyHead (tagged 0 none mc) 0 4 none = some (.mcast 1, { tOut 4 with targets := [0] }) := by
  unfold mayChoose plainSend; decide +kernel

theorem witness_FabricMovement :
    let held := tSend { tUp with held := [(4, [(tOut 4, 600)])] }
    let mc (q : QPkt) (x : Port) : State := { tSend x with fab := { Fabric.reset with mcast := [(8 * (0 : Fin 16).val + (4 : Fin 8).val, [q])] } }
    let stop (x : RingStop) : State := { tSend tUp with fab := { Fabric.reset with stops := [(stopKey 0 0 0, x)] } }
    let q := { tOut 4 with targets := [0] }
    let far := { tOut 4 with targets := [0, 16], mask := 2 }
    let r : RingPkt := { q := q, got := [600], sent := 0, came := 0 }
    mayChoose held 0 ∧ (held.port (0 : PortNo).toNat).replaying = none ∧ (held.port 0).carrying = true ∧
    heldDue (tSend tUp) 0 none = none ∧ heldDue held 0 none = some (4, tOut 4) ∧ hType (tOut 4).pkt.hdr ≠ 4 ∧ bit (portTap held 0) 5 = false ∧
    ((tSend { tUp with replaying := some (1, false) }).port (0 : PortNo).toNat).replaying ≠ none ∧
    (mc q tUp).lit = true ∧ (mc q tUp).replayMode = false ∧
    tget [] (mc q tUp).fab.mcast (8 * (0 : Fin 16).val + (4 : Fin 8).val) = q :: [] ∧ (∃ p ∈ q.targets, p ∉ q.reserved) ∧
    (∀ p ∈ q.targets, p ∈ ({ q with reserved := [0] }).reserved ∧ (mc q tUp).portUp p = true) ∧ maskBays q.mask (0 : Fin 16).val = [] ∧
    maskBays far.mask (0 : Fin 16).val ≠ [] ∧
    (∀ d ∈ q.targets, d ∈ ({ q with reserved := [0] }).reserved ∧ (mc q Port.reset).portUp d = false) ∧ q.targets.min? = some 0 ∧
    (let s := stop { RingStop.reset with transit := [r] }
     slotFree s 0 0 0 = true ∧ movable s 0 0 0 = some r) ∧
    (let s := stop { RingStop.reset with given := true }
     slotFree s 0 0 0 = false) ∧
    (let s := stop { RingStop.reset with waiting := [q] }
     let x := s.stop (stopKey 0 0 0)
     slotFree s 0 0 0 = true ∧ movable s 0 0 0 = none ∧ firstWaiting (x.waiting.filter (roomAt s 0 0 (nextBay 0 0))) = some q ∧
       x.transit.length ≤ 2) ∧
    (let s := stop RingStop.reset
     firstWaiting ((s.stop (stopKey 0 0 0)).waiting.filter (roomAt s 0 0 (nextBay 0 0))) = none) := by
  unfold mayChoose; decide +kernel

theorem witness_ReleasesSweepsAndNotices :
    let k (dst : Nat) := (tQ (mkHeader 0 4 0 1 dst 1 0 0 0 0x070 0 0 0 0x010 0) (List.replicate 16 0)).pkt
    let s (dst quota : Nat) : State := settle 0x010
      { tRun [(stKey 0x010 8, 1), (stKey 0x010 0x210, put quota 0)] with stations := [(0x010, { Station.reset with postBuf := [k dst] })] }
    let left : State := { tRun [] with fab := { Fabric.reset with leaving := [(queueKeyOf (.egress 0 4), [tOut 4])] } }
    let n : PendingNotice := { port := 0, kind := 1, heat := 0, item := 0, clk := 10 }
    ((s 5 1).station 0x010).postBuf = k 5 :: [] ∧ (s 5 1).running = true ∧ quotaRoom (s 5 0) 0x010 (cellsOf (k 5).hdr) = false ∧
    quotaRoom (s 5 1) 0x010 (cellsOf (k 5).hdr) = true ∧ typeAllowed (k 5).hdr = true ∧ hVer (k 5).hdr = 1 ∧ hAddr (k 5).hdr % 16 = 0 ∧
    typeAllowed (mkHeader 4 4 0 1 5 1 0 0 0 0 0 0 0 0 0) = false ∧ hAddr (mkHeader 0 4 0 1 5 1 0 0 8 0 0 0 0 0 0) % 16 ≠ 0 ∧
    hType (mkHeader 0 4 0 1 5 1 0 0 8 0 0 0 0 0 0) ≠ 3 ∧
    addressedHere (s 5 1) (k 5).hdr = false ∧ ((s 0 1).station 0x010).postBuf = k 0 :: [] ∧ addressedHere (s 0 1) (k 0).hdr = true ∧
    tget [] left.fab.leaving (queueKeyOf (.egress 0 4)) = tOut 4 :: [] ∧ tget [] left.fab.leaving (queueKeyOf (.replay 0)) = [] ∧
    left.running = true ∧ left.pwr.mainOn = true ∧ noticeGroup left (0 : PortNo).toNat = [] ∧
    noticeGroup { left with ledger := { Ledger.reset with notices := [n] } } (0 : PortNo).toNat = n :: [] := by decide +kernel

/-! ### Memory and pool -/

theorem witness_UnscheduledAccessesAndRefresh :
    let regs : Tab StackRegs := [(0, { StackRegs.reset with ready := true })]
    let s (m : StackedMem) : State := { tIn .link with cfg := tRegion0, mem := { m with regs := regs } }
    let shake := s { StackedMem.reset with shakeBusy := true, shakeLeft := [(0x20_0000, 0x20_0080)] }
    let back := s { StackedMem.reset with writeBack := [(0x20_0000, List.replicate 64 1)] }
    let cap := { s .reset with cap := { Capture.reset with running := true, buffer := [(0, [captureBytes 1 0 0 0 0 0 0 []])] } }
    let m : MemRequest :=
      { addr := 0x20_0000, len := 64, isWrite := false, data := [], enables := 0, reg := 16, pkt := none, owner := .none, admitted := true
        station := 0x070 }
    let wait := s { StackedMem.reset with waiting := [m] }
    let run (len c : Nat) (t : Nat) : State :=
      { tRun [(0x1_0020, put len 16 ||| 1800)] with
        clk := c, mem := { StackedMem.reset with regs := regs }, pwr := { tOn.pwr with sensors := [(24, t)] } }
    shake.pwr.mainOn = true ∧ (shake.stack (0 : Fin 8)).ready = true ∧
    dueWriteBack back (0 : Fin 8) = some (0x20_0000, List.replicate 64 1) ∧
    dueWriteBack cap (0 : Fin 8) = none ∧ dueCapture cap (0 : Fin 8) = some 0 ∧ dueWriteBack shake (0 : Fin 8) = none ∧
    dueCapture shake (0 : Fin 8) = none ∧ shakeChunk shake (0 : Fin 8) = some ((0x20_0000, 0x20_0080), 0x20_0000) ∧
    shake.mem.busErr = [] ∧ requestsYield wait (0 : Fin 8) = false ∧ requestsYield (s .reset) (0 : Fin 8) = false ∧
    (s StackedMem.reset).mem.waiting = [] ∧ wait.mem.waiting = [m] ∧
    m.admitted = true ∧ stackOf m.addr = (0 : Fin 8) ∧ inPlace m = true ∧ performable (addUpsets [] wait) m = true ∧
    (s .reset).boot.phase ≠ .run ∧ (run 112 501 85).boot.phase = .run ∧ refreshStart (run 112 501 85) = false ∧
    refreshStart (run 112 500 85) = true ∧ stackHot (run 112 500 85) (0 : Fin 8).val = false ∧ stackHot (run 113 500 86) (0 : Fin 8).val = true ∧
    refreshStart (run 113 500 86) = true ∧ shortWindow (run 113 500 86) = false ∧ shortWindow (run 112 500 86) = true ∧
    injects back back.inj.hbm = false ∧ tget [] back.mem.errors 0x20_0000 = [] ∧ back.mem.busErr = [] ∧
    (let e := s { StackedMem.reset with errors := [(0x20_0000, [(3, 0x8001)])] }
     lineOutcome 0x20_0000 (lineDetect e 0x20_0000) (storedLine e 0x20_0000) (tget [] e.mem.errors 0x20_0000) =
       .ok (List.replicate 64 0, true)) := by decide +kernel

theorem witness_PoolWindows :
    let s (cache : List Nat) (n : Nat) : State :=
      { tRun [] with mem := { StackedMem.reset with regs := [(0, { StackRegs.reset with ready := true })] }
                     fab := { Fabric.reset with cache := cache, ringCount := n }, clk := 500 }
    (s [] 0).boot.phase = .run ∧ ((s [] 0).stack 0).ready = true ∧ poolStart (s [] 0) = true ∧
    poolStart ({ s [] 0 with clk := 501 }) = false ∧ (s (List.replicate 2048 0) 0).fab.cache.length = 2048 ∧
    (s [] 0).fab.cache.length < 2048 ∧ (s [] 0).fab.ringCount = 0 ∧ 2048 < (s (List.replicate 2049 0) 0).fab.cache.length ∧
    0 % 16 + 16 ≤ 16 ∧
    (let u := s (List.range 16) 0
     (writeSpan (4 * 0) ((u.fab.cache.reverse.take 16).flatMap pointerBytes) 3 (noteAccess (4 * 0 / 128 * 128) (u.clk + 0 / 4) true u)).1 = true) ∧
    49151 < 49152 ∧ blockFree (s [] 1) 49151 = true ∧
    leNat [(0 : Byte), 0, 0, 0] % 65536 + leNat [(0 : Byte), 0, 0, 0] / 65536 ≠ 65535 := by decide +kernel

/-! ### Boundaries and signals -/

/-- The boundary that ends a pour of heats of n pours. -/
def tBound (n : Nat) (j : Job → Job) (l : Ledger) : State :=
  { tIn .run with cfg := [(0x500, put (n - 1) 32 ||| 999)], job := j { Job.reset with jobState := .done, pourClk := 1000 }, ledger := l, clk := 10000 }

theorem witness_PourBoundaries :
    let quench := tBound 2 (fun j => { j with quenchDue := [(9000, 0x41, 7)] }) .reset
    let again := { Ledger.reset with heatRetracted := true, runs := 1, recValid := true }
    let switch := tBound 2 (fun j => { j with slotState := .fixed, slotT := 5000 }) .reset
    quench.boundaryDue = true ∧ quench.limitReached = false ∧ quench.job.quenchDue ≠ [] ∧ quench.boot.faultCode = 0 ∧
    firstCause quench.job.quenchDue = some (9000, 0x41, 7) ∧ (tBound 2 id .reset).job.quenchDue = [] ∧
    switchDue (tBound 2 id .reset) = false ∧ (tBound 2 id .reset).lastPourOfSlot = false ∧ (tBound 1 id .reset).boundaryDue = true ∧
    (tBound 1 id .reset).lastPourOfSlot = true ∧ verdictCause (endRecords (tBound 1 id .reset)) = none ∧
    verdictCause (endRecords (tBound 1 id again)) = some (0x46, 0) ∧ switch.boundaryDue = true ∧ switchDue switch = true ∧
    switch.lastPourOfSlot = false := by decide +kernel

theorem witness_BoundarySteps :
    let s := tBound 2 (fun j => { j with gateState := .fixed, gateT := 0, heat := 2 ^ 48 - 1 }) .reset
    let r := tBound 2 id { Ledger.reset with heatRetracted := true, runs := 1 }
    s.job.gateState = .fixed ∧ s.job.gateT = s.pourStart ∧ (tBound 2 id .reset).job.gateState ≠ .fixed ∧
    s.ledger.heatRetracted = false ∧ s.job.heat = 2 ^ 48 - 1 ∧ r.ledger.heatRetracted = true ∧ fld r.ledgerCfg 59 56 + 1 ≤ r.ledger.runs ∧
    heatComing s = none ∧
    (let m := { tRun ((0x2_0000, put 1 60) :: tRegion0) with
       cap := { Capture.reset with replayActive := true }
       mem := { StackedMem.reset with cells := cellWrite [] 0x20_0000 (captureBytes 3 0 7 0 0 0 1 []) } }
     (heatComing m).any (fun r => r.heat == 7) = true) ∧
    (let f : State := { s with par := { s.par with reload := [8], bad := [8, 9] } }
     8 ∈ f.par.reload) := by
  decide +kernel

theorem witness_SignalArrivals :
    let x (k : SigKind) : Signal := { due := 1000, target := 0x010, kind := k, place := none }
    let s (l : List Signal) (n : Nat) : State :=
      { tRun [] with fab := { Fabric.reset with signals := l }, stations := [(0x010, { Station.reset with ctr := [(3, n)] })] }
    (∀ y ∈ (s [{ x (.set 0) with due := 1001 }] 0).fab.signals, (s [] 0).clk < y.due) ∧ (s [x (.set 63)] 0).fab.signals = [x (.set 63)] ∧
    (x (.set 63)).due ≤ (s [] 0).clk ∧ tget 0 ((s [] 0xFFFF).station 0x010).ctr 3 + 0 ≤ 0xFFFF ∧
    0xFFFF < tget 0 ((s [] 0xFFFF).station 0x010).ctr 3 + 1 ∧ (s [x (.set 5), x (.clear 5)] 0).fab.signals = [x (.set 5), x (.clear 5)] ∧
    (x (.clear 5)).due = (x (.set 5)).due ∧ (x (.clear 5)).target = (x (.set 5)).target ∧ (x (.set 5)).place = none ∧
    (s [x (.take 3 1)] 1).fab.signals = [x (.take 3 1)] ∧ tget 0 ((s [] 0xFFFF).station 0x010).ctr 3 ≤ 0xFFFF := by decide +kernel

/-! ### Stations -/

/-- The conditions of Issuable, as a test computes them. -/
def canIssue (u : State) (a code kind : Nat) : Bool :=
  considers u a && opOf (wordAt u a) == code && decide (u.clk ≤ consideredSince u a + waitLimit u a) && waitHolds u a (wordAt u a) &&
    decide (u.par.reload = []) && decide (u.par.bad = []) && !injects u u.inj.par && !injects u u.inj.sched &&
    (nextStep (u.station a).ops u.clk).isNone && (u.station a).ops.all (fun o => o.t != u.clk) && (kindOf a == kind)

theorem issuesAs_of {u : State} {a code kind : Nat} (h : canIssue u a code kind = true) : IssuesAs u a code kind := by
  simp only [canIssue, Bool.and_eq_true, beq_iff_eq, decide_eq_true_eq, Bool.not_eq_true', Option.isNone_iff_eq_none, List.all_eq_true,
    bne_iff_ne] at h
  obtain ⟨⟨⟨⟨⟨⟨⟨⟨⟨⟨h1, h2⟩, h3⟩, h4⟩, h5⟩, h6⟩, h7⟩, h8⟩, h9⟩, h10⟩, h11⟩ := h
  exact ⟨⟨h1, h2, h3, h4, ⟨h5, h6, h7⟩, h8, h9, h10⟩, h11⟩

/-- An instruction word of the operand form (R217). -/
def tWord (op d a b imm : Nat) : Word := put op 57 ||| put d 52 ||| put a 47 ||| put b 42 ||| put imm 32

/-- RUN at clk 500 of a pour, with station `a` at one instruction and as given, and what has happened there settled. -/
def tSt (a : Nat) (w : Word) (cfg : Tab Word) (f : Station → Station) : State :=
  settle a { tRun ((stKey a 8, 1) :: cfg) with stations := [(a, f { Station.reset with seq := .run, imem := [(0, w)] })] }

theorem witness_ResultsAndCompletions :
    let r (due issued : Nat) (k : ResultKind) : PendingResult := { due := due, issued := issued, place := 0, kind := k }
    let s (l : List PendingResult) : State := { tRun [] with stations := [(0x010, { Station.reset with results := l })] }
    let o : EngineOp := { kind := .crFeed, t := 900, word := 0, place := 0, sa := 0, sb := 0, agenda := [], taken := [], finish := 1000 }
    (∀ x ∈ (s []).fab.signals, (s []).clk < x.due) ∧ kindOf 0x010 ≠ 7 ∧ nextStep ((s []).station 0x010).ops (s []).clk = none ∧
    (∀ x ∈ ((s [r 1001 998 (.scalar 1 5)]).station 0x010).results, (s []).clk < x.due) ∧
    ((s [r 1000 999 (.scalar 1 5), r 1001 999 (.scalar 2 5)]).station 0x010).results = [] ++ r 1000 999 (.scalar 1 5) :: [r 1001 999 (.scalar 2 5)] ∧
    (r 1000 999 (.scalar 1 5)).due ≤ (s []).clk ∧ (∀ q ∈ [] ++ [r 1001 999 (.scalar 2 5)], (s []).clk < q.due) ∧
    (r 1000 997 (.scalar 1 5)).issued < (r 1000 999 (.scalar 1 6)).issued ∧
    (r 1000 999 (.scalar 1 6)).kind.resource = (r 1000 997 (.scalar 1 5)).kind.resource ∧
    (let u := tSt 0x020 0 [] fun x => { x with ops := [o] }
     (u.station 0x020).ops = [] ++ o :: [] ∧ o.agenda = [] ∧ o.finish ≤ u.clk) ∧
    (let u := tSt 0x020 0 [] fun x => { x with ops := [{ o with finish := 1001 }] }
     ∀ q ∈ (u.station 0x020).ops, q.agenda ≠ [] ∨ u.clk < q.finish) := by decide +kernel

/-- A line that has stood in its end since clk 10, with a sideband. -/
def tLine (side : Nat) : Line := { data := 1, side := BitVec.ofNat 24 side, since := 10, origin := none, slotClk := none }

/-- The sideband of the only line of a tile of a format. -/
def tOnly (fmt : Nat) : Nat := 2 ^ 23 + 2 ^ 22 + fmt * 2 ^ 12

theorem witness_LineMovement :
    let f : Flight := { due := 1000, station := 0x010, qend := 0, line := tLine 0, src := none }
    let s (n : Nat) : State := { tRun [] with
      fab := { Fabric.reset with flights := [f] }, stations := [(0x010, { Station.reset with ends := [(0, List.replicate n (tLine 0))] })] }
    let q : Word := put 0x011 52 ||| put 0 48 ||| 1
    let out (c : Tab Word) (l : List Line) : State := tSt 0x010 0 c fun x => { x with ends := [(8, l)] }
    let taken : State := settle 0x010 { out [(stKey 0x010 0x140, q)] [tLine 0] with fab := { Fabric.reset with claims := [(0x011, 0x012)] } }
    let ring : Word := put 0x110 52 ||| put 1 47 ||| 1
    let own (l : List Line) : State :=
      { settle 0x010 (out [(stKey 0x010 0x140, ring), (calKey 0 0 0, put 508 42 ||| put 1 26 ||| put 0x010 14)] l) with clk := 1008 }
    dueFlight (s 31) (0x010 : StAddr).toNat (0 : Fin 8) = some f ∧ (endLines (s 31) (0x010 : StAddr).toNat (0 : Fin 8)).length < 32 ∧
    dueFlight (s 32) (0x010 : StAddr).toNat (0 : Fin 8) = some f ∧ 32 ≤ (endLines (s 32) (0x010 : StAddr).toNat (0 : Fin 8)).length ∧
    dueFlight (tRun []) (0x010 : StAddr).toNat (0 : Fin 8) = none ∧ (out [] []).running = true ∧ departed (out [] []) 0x010 = false ∧
    offered (out [] []) 0x010 = [] ∧
    offered (out [(stKey 0x010 0x140, q)] [tLine 0]) 0x010 = [(10, 8)] ∧
    endLines (out [(stKey 0x010 0x140, q)] [tLine 0]) 0x010 8 = tLine 0 :: [] ∧
    outputTaken (out [(stKey 0x010 0x140, q)] [tLine 0]) 0x010 (boundSt (out [(stKey 0x010 0x140, q)] [tLine 0]) 0x010 8) = false ∧
    (taken.running = true ∧ departed taken 0x010 = false ∧ offered taken 0x010 = [(10, 8)] ∧
      outputTaken taken 0x010 (boundSt taken 0x010 8) = true) ∧
    (let u := own []
     u.running = true ∧ calUsed (calEntry u 0 0 (0 : Fin 2048)) = true ∧ u.pourOff ∈ slotStarts (calEntry u 0 0 (0 : Fin 2048)) ∧
       fld (calEntry u 0 0 (0 : Fin 2048)) 25 14 = 0x010 ∧ slotEndOf u 0x010 0 0 (0 : Fin 2048) = some 8 ∧ pathRemoved u 0x010 8 = false ∧
       8 ≤ u.pourOff ∧ (endLines u 0x010 8).filter (fun l => l.slotClk == some (u.clk - 8)) = []) ∧
    (endLines (own [{ tLine 0 with slotClk := some 1000 }]) 0x010 8).filter (fun l => l.slotClk == some (1008 - 8)) ≠ [] ∧
    (let u : State := settle 0x010 { out [(calKey 0 0 0, put 508 42 ||| put 1 26 ||| put 0x010 14)] [] with clk := 1008 }
     wordsGood u ∧ u.running = true ∧ slotEndOf u 0x010 0 0 (0 : Fin 2048) = none) := by unfold wordsGood; decide +kernel

/-- A vector unit at an instruction, its wait on flag 0 as given. -/
def tVec (w : Word) : State := tSt 0x010 w [] fun x => { x with sreg := [(1, 7)], ctr := [(31, 1)] }

theorem witness_WaitsAndSuppression :
    let w := tWord 0x00 0 0 0 0 ||| put (2 ^ 14 + 16) 16
    let held := tVec w
    let ld := tSt 0x010 (tWord 0x18 25 25 0 0) [] fun x => { x with sreg := [(1, 32768)] }
    let late := tSt 0x010 w [] fun x => { x with seq := .wait, waitSince := some 935 }
    nopShape ∈ commonShapes ++ kindShapes ∧ ldShape ∈ commonShapes ++ kindShapes ∧ haltShape.here held 0x010 = false ∧
    considers held 0x010 = true ∧ nopShape.here held 0x010 = true ∧
    held.clk ≤ consideredSince held 0x010 + waitLimit held 0x010 ∧ waitHolds held 0x010 (wordAt held 0x010) = false ∧
    canIssue ld 0x010 ldShape.code 1 = true ∧ ldShape.here ld 0x010 = true ∧
    ldShape.eff 0x010 (wordAt ld 0x010) (ld.station 0x010).pc (issued ld 0x010) = .error 0x09 ∧ waitOver late 0x010 = true ∧
    shapeAt late 0x010 = some nopShape ∧ late.par.reload = [] ∧ late.par.bad = [] ∧ injects late late.inj.par = false ∧
    injects late late.inj.sched = false ∧ nextStep (late.station 0x010).ops late.clk = none :=
  ⟨List.mem_append_left _ (by simp [commonShapes]), List.mem_append_left _ (by simp [commonShapes]), by decide +kernel, by decide +kernel,
    by decide +kernel, by decide +kernel, by decide +kernel, by decide +kernel, by decide +kernel, by decide +kernel, by decide +kernel, rfl,
    by decide +kernel, by decide +kernel, by decide +kernel, by decide +kernel, by decide +kernel⟩

theorem witness_ControlInstructions :
    (∀ c ∈ [0x00, 0x01, 0x02, 0x03, 0x04, 0x05, 0x06], canIssue (tVec (tWord c 0 25 0 0)) 0x010 c 1 = true) ∧
    (let u := tVec (tWord 0x02 0 25 0 1)
     (operandA u 0x010).toNat < u.pourClks ∧ u.clk < u.job.pourClk + (operandA u 0x010).toNat + u.pourClks) ∧
    (let u := tVec (tWord 0x02 0 25 0 0)
     u.job.pourClk + (operandA u 0x010).toNat + 0 ≤ u.clk) := by decide +kernel

theorem witness_ScalarInstructions :
    (∀ c ∈ [0x08, 0x09, 0x0A, 0x0B, 0x0C, 0x0D, 0x0E, 0x0F, 0x10, 0x11, 0x12, 0x13, 0x14, 0x15, 0x1C],
      canIssue (tVec (tWord c 26 25 25 2)) 0x010 c 1 = true) ∧
    canIssue (tSt 0x000 (tWord 0x40 26 0 0 255) [] id) 0x000 0x40 0 = true ∧ immOf (tWord 0x1C 26 25 25 2) = 2 := by decide +kernel

/-- A template of class 4 with an empty payload in the first line of the store. -/
def tTemplate (cls : Nat) : LineData := lineOf (headerBytes (mkHeader 0 cls 0 1 5 0 0 0 0 0 0 0 0 0 0))

theorem witness_StoreMoveAndPost :
    let st (v : Word) (c : Nat) (f : Station → Station) : State := tSt 0x010 (tWord c 26 25 25 0) [] fun x => f { x with sreg := [(1, v)] }
    let at' (u : State) : Nat := (operandA u 0x010 + (BitVec.ofNat 10 (immOf (wordAt u 0x010))).signExtend 64).toNat
    let post (c n : Nat) : State := st 0 0x1B fun x => { x with store := [(0, tTemplate c)], ctr := [(31, n)] }
    let const := tSt 0x010 (tWord 0x19 0 25 25 0) [(stKey 0x010 8, put 2 9 ||| 1)] id
    canIssue (st 32767 0x18 id) 0x010 0x18 1 = true ∧ at' (st 32767 0x18 id) < 32768 ∧
    readFree (st 32767 0x18 id) 0x010 (st 32767 0x18 id).clk = true ∧ 32768 ≤ at' (st 32768 0x18 id) ∧
    canIssue (st 0 0x18 fun x => { x with readPort := [1000] }) 0x010 0x18 1 = true ∧
    readFree (st 0 0x18 fun x => { x with readPort := [1000] }) 0x010 1000 = false ∧ canIssue (st 32767 0x19 id) 0x010 0x19 1 = true ∧
    constEnd (st 32767 0x19 id) 0x010 ≤ at' (st 32767 0x19 id) / 16 ∧ canIssue (st 32768 0x19 id) 0x010 0x19 1 = true ∧
    32768 ≤ at' (st 32768 0x19 id) ∧ opOf (wordAt const 0x010) = 0x19 ∧ canIssue (st 0 0x1A id) 0x010 0x1A 1 = true ∧
    24 ≤ aOf (wordAt (st 0 0x1A id) 0x010) ∧ 24 ≤ dOf (wordAt (st 0 0x1A id) 0x010) ∧
    (lineSrc (tVec (tWord 0x1A 16 25 0 0)) 0x010 1000 25).isSome = true ∧ canIssue (tVec (tWord 0x1A 16 25 0 0)) 0x010 0x1A 1 = true ∧
    canIssue (tVec (tWord 0x1A 16 0 0 0)) 0x010 0x1A 1 = true ∧ popReady (tVec (tWord 0x1A 16 0 0 0)) 0x010 0 1000 = false ∧
    canIssue (post 4 1) 0x010 0x1B 1 = true ∧ at' (post 4 1) < 2048 ∧ hCls (templateHdr (storeLine (post 4 1) 0x010 0)) = 4 ∧
    at' (post 4 1) + postLines (templateHdr (storeLine (post 4 1) 0x010 0)) < 2048 ∧ readFree (post 4 1) 0x010 1000 = true ∧
    tget 0 ((post 4 1).station 0x010).ctr 31 ≠ 0 ∧ hCls (templateHdr (storeLine (post 3 1) 0x010 0)) < 4 ∧
    tget 0 ((post 4 0).station 0x010).ctr 31 = 0 := by decide +kernel

/-- ST to a line of the constant region: the first two lines are constant. -/
theorem witness_StoreMoveAndPost_const :
    let u : State := settle 0x010 { tRun [(stKey 0x010 8, put 2 9 ||| 1)] with
      stations := [(0x010, { Station.reset with seq := .run, imem := [(0, tWord 0x19 0 25 25 0)], sreg := [(1, 31)] })] }
    canIssue u 0x010 0x19 1 = true ∧ (operandA u 0x010).toNat / 16 < constEnd u 0x010 := by decide +kernel

theorem witness_LaneInstructions :
    (∀ c ∈ [0x40, 0x41, 0x42, 0x43, 0x44, 0x45, 0x46, 0x47, 0x48, 0x49],
      canIssue (tVec (tWord c 16 17 18 0)) 0x010 c 1 = true ∧ (lineSrc (tVec (tWord c 16 17 18 0)) 0x010 1000 17).isSome = true ∧
        (lineSrc (tVec (tWord c 16 17 18 0)) 0x010 1000 18).isSome = true) ∧
    canIssue (tVec (tWord 0x40 16 0 17 0)) 0x010 0x40 1 = true ∧ lineSrc (tVec (tWord 0x40 16 0 17 0)) 0x010 1000 0 = none ∧
    kindOf 0x010 = 1 := by decide +kernel

theorem witness_ConversionsAndStoreLines :
    let u (c d a b : Nat) (v : Word) : State := tSt 0x010 (tWord c d a b 0) [] fun x => { x with sreg := [(1, v)] }
    canIssue (u 0x50 16 17 25 0) 0x010 0x50 1 = true ∧ (lineSrc (u 0x50 16 17 25 0) 0x010 1000 17).isSome = true ∧
    canIssue (u 0x50 16 0 25 0) 0x010 0x50 1 = true ∧ lineSrc (u 0x50 16 0 25 0) 0x010 1000 0 = none ∧
    canIssue (u 0x51 16 25 0 2047) 0x010 0x51 1 = true ∧ (operandA (u 0x51 16 25 0 2047) 0x010).toNat < 2048 ∧
    readFree (u 0x51 16 25 0 2047) 0x010 1000 = true ∧ 2048 ≤ (operandA (u 0x51 16 25 0 2048) 0x010).toNat ∧
    canIssue (u 0x52 0 25 17 2047) 0x010 0x52 1 = true ∧ constEnd (u 0x52 0 25 17 2047) 0x010 ≤ 2047 ∧
    (lineSrc (u 0x52 0 25 17 2047) 0x010 1000 17).isSome = true := by decide +kernel

/-! ### Engines -/

/-- Group 0: a sum of FP32 with one member, on port 0 at end 1; inst 0 of it at Crucible 0x020 with a deadline. -/
def tInst (d : Nat) : Tab Word :=
  [(tbKey 8 0, put 1 63 ||| put 1 58), (tbKey 9 0, put 1 63 ||| put 1 28), (tbKey 10 0, put 0x020 52), (tbKey 10 8, put d 0)]

/-- A Crucible at an instruction with insts held. -/
def tCru (w : Word) (d : Nat) (l : Tab OpenInst) (ends : Tab (List Line)) : State :=
  { tSt 0x020 w (tInst d) fun x => { x with ends := ends } with crucibles := [(0x020, { Crucible.reset with insts := l })] }

theorem witness_CrucibleInstructions :
    let o := OpenInst.fresh 900
    let opn := tCru (tWord 0x40 0 25 0 0) 1000 [] []
    let feed := tCru (tWord 0x41 0 0 25 0) 1000 [(0, o)] [(0, [tLine (tOnly 4)])]
    let done := { o with missed := [0] }
    let emit (x : OpenInst) : State := tCru (tWord 0x42 8 25 26 0) 1000 [(0, x)] []
    let close := tCru (tWord 0x43 0 25 0 0) 1000 [(0, o)] []
    canIssue opn 0x020 0x40 2 = true ∧ instOk opn 0x020 (operandA opn 0x020).toNat = true ∧
    opn.slotNow + 8 ≤ deadline opn (operandA opn 0x020).toNat + 72 ∧
    (∀ e ∈ (opn.crucible 0x020).insts, e.2.closed = false → rowsOverlap opn e.1 (operandA opn 0x020).toNat = false) ∧ instOk opn 0x020 1 = false ∧
    (let late := tCru (tWord 0x40 0 25 0 0) 435 [] []
     deadline late (operandA late 0x020).toNat + 72 < late.slotNow + 8) ∧
    (let again := tCru (tWord 0x40 0 25 0 0) 1000 [(0, o)] []
     canIssue again 0x020 0x40 2 = true ∧ ∃ e ∈ (again.crucible 0x020).insts, e.2.closed = false ∧ rowsOverlap again e.1 0 = true) ∧
    ({ o with retracted := true }).retracted = true ∧ o.retracted = false ∧
    canIssue feed 0x020 0x41 2 = true ∧ instOk feed 0x020 (fld (operandB feed 0x020) 15 0) = true ∧
    isOpen feed 0x020 (fld (operandB feed 0x020) 15 0) = true ∧ popReady feed 0x020 0 feed.clk = true ∧
    (endLines feed 0x020 0).head? = some (tLine (tOnly 4)) ∧ bit (tLine (tOnly 4)).side 23 = true ∧
    canIssue (emit done) 0x020 0x42 2 = true ∧ instOf (emit done) 0x020 0 = some done ∧ isOpen (emit done) 0x020 0 = true ∧
    intakeComplete (emit done) 0x020 0 = true ∧ intakeComplete (emit o) 0x020 0 = false ∧ canIssue close 0x020 0x43 2 = true ∧
    instOk close 0x020 0 = true ∧ isOpen close 0x020 0 = true := by decide +kernel

theorem witness_RiddleAndMouldInstructions :
    let rd (c imm : Nat) (d : LineData) : State := tSt 0x030 (tWord c 8 25 26 imm) [] fun x => { x with store := [(0, d)] }
    let mo (c imm : Nat) (b : Bank) : State := { tSt 0x050 (tWord c 8 0 25 imm) [] id with moulds := [(0x050, { Mould.reset with banks := [(0, b)] })] }
    let ok := { Bank.reset with loaded := true }
    canIssue (rd 0x40 512 0) 0x030 0x40 3 = true ∧ bit (BitVec.ofNat 10 (immOf (tWord 0x40 8 25 26 512))) 9 = true ∧
    (operandA (rd 0x40 512 0) 0x030 + BitVec.ofNat 64 (512 % 512)).toNat < 1985 ∧ mapBusy (rd 0x40 512 0) 0x030 = false ∧
    canIssue (rd 0x40 0 0) 0x030 0x40 3 = true ∧ readFree (rd 0x40 0 0) 0x030 1000 = true ∧ progBad (storeLine (rd 0x40 0 0) 0x030 0) = false ∧
    progBad (storeLine (rd 0x40 0 (BitVec.allOnes 1024)) 0x030 0) = true ∧ canIssue (rd 0x41 0 0) 0x030 0x41 3 = true ∧
    runBad (operandB (rd 0x41 0 0) 0x030) = false ∧ runBusy (rd 0x41 0 0) 0x030 (operandB (rd 0x41 0 0) 0x030) = false ∧
    canIssue (mo 0x40 1 ok) 0x050 0x40 5 = true ∧ canIssue (mo 0x40 0 ok) 0x050 0x40 5 = true ∧
    (openOps (mo 0x40 1 ok) 0x050 [.moWload, .moMac]).any (fun o => bankUsed o == 0) = false ∧
    wlFa (operandB (mo 0x40 0 ok) 0x050) < 8 ∧ wlFw (operandB (mo 0x40 0 ok) 0x050) < 8 ∧
    (∀ e ∈ [(0, ok), (1, { ok with ladle := true })],
      let u := mo 0x41 e.1 e.2
      let y := operandB u 0x050
      let b := bankOf u 0x050 (fld y 16 16)
      canIssue u 0x050 0x41 5 = true ∧ fld y 7 0 + (fld y 15 8 + 1) ≤ 256 ∧
        (openOps u 0x050 [.moWload]).any (fun o => wlBank o.sb == fld y 16 16) = false ∧
        (openOps u 0x050 [.moMac]).any (fun o => decide (u.clk < o.t + mcVecs o.sb)) = false ∧ b.loaded = true ∧
        b.ladle = fromLadle (wordAt u 0x050) ∧ pathDepthBad u 0x050 b = false ∧ rowLast (rowOf u 0x050 (fld y 7 0)) = none) ∧
    canIssue (mo 0x42 0 ok) 0x050 0x42 5 = true ∧ 255 + 0 + 1 ≤ 256 := by decide +kernel

theorem witness_LadleInstructions :
    let la (c imm : Nat) (ctl : Word) (d : Nat) : State :=
      { tSt 0x040 (tWord c d 0 1 imm) [(tbKey 11 0, put 5 61), (tbKey 11 8, put 31 32)] fun x => { x with sreg := [(1, ctl)] } with
        ladles := [(0x040, { Ladle.reset with map := some { g0 := 0, alloc := 0, fa := 0, fw := 0, ordinal := 0, pos := [], xbits := [], wbits := [] } })] }
    let free (u : State) : Bool := (u.station 0x040).ops.all fun o => !walkKinds.contains o.kind || decide (o.finish ≤ u.clk)
    canIssue (la 0x40 0 0 0) 0x040 0x40 4 = true ∧ fld (0 : Word) 2 0 ≤ 4 ∧ modeFw 0 < 8 ∧ modeFa 0 < 8 ∧ 4 < fld (5 : Word) 2 0 ∧
    canIssue (la 0x41 0 0 0) 0x040 0x41 4 = true ∧ free (la 0x41 0 0 0) = true ∧ immOf (tWord 0x41 0 0 1 0) % 4 = 0 ∧
    (mapHeads (la 0x41 0 0 0) 0x040 0 (tWord 0x41 0 0 1 0)).any (mapTileBad ((la 0x41 0 0 0).ladle 0x040).mode) = false ∧
    (let u := tSt 0x040 (tWord 0x41 0 0 1 0) [] fun x => { x with ends := [(0, [tLine (tOnly 4)])] }
     canIssue u 0x040 0x41 4 = true ∧ (mapHeads u 0x040 0 (tWord 0x41 0 0 1 0)).any (mapTileBad (u.ladle 0x040).mode) = true ∧
       (u.ladle 0x040).map = none) ∧
    canIssue (la 0x41 1 0 0) 0x040 0x41 4 = true ∧ ((la 0x41 1 0 0).ladle 0x040).map ≠ none ∧
    passFault (passLb 0) (tilesOf (passVecs 0) (endLines (la 0x41 1 0 0) 0x040 0)) = false ∧ canIssue (la 0x41 2 0 0) 0x040 0x41 4 = true ∧
    mgFmt 0 ≤ 8 ∧ mergeFault (la 0x41 2 0 0) 0x040 0 (tWord 0x41 0 0 1 2) = false ∧
    (let u := la 0x41 (3 + 8) 0 24
     canIssue u 0x040 0x41 4 = true ∧ immOf (wordAt u 0x040) % 4 = 3 ∧ scalarReg u 0x040 (immOf (wordAt u 0x040) / 8 % 8) = 0 ∧
       lyValid u (skLayer 0) = true ∧ lyPolicy u (skLayer 0) ≠ 0 ∧ dOf (wordAt u 0x040) = 24 ∧ skN0 0 + 32 * skLines 0 ≤ lyNeurons u (skLayer 0) ∧
       skimFault u 0x040 (wordAt u 0x040) = false) := by decide +kernel

theorem witness_SortInstructions :
    let so (c d imm : Nat) (mask y : Word) (f : RunSlot) : State :=
      { tSt 0x060 (tWord c d 25 26 imm) [(stKey 0x060 0x410, put 31 32 ||| put 1 9), (stKey 0x060 0x418, put 31 32 ||| put 1 9)]
          fun x => { x with sreg := [(1, mask), (2, y)] } with
        sorters := [(0x060, { Sorter.reset with slots := [(0, f)] })] }
    let u := so 0x40 8 0 0 31 .reset
    let mg := so 0x41 8 0 1 31 .reset
    let ms := so 0x41 24 0 (put 1 16 ||| 1) 31 .reset
    let sp := so 0x43 8 0 0 0 .reset
    cwBad 31 = false ∧ sortBusy u 0x060 (wordAt u 0x060) (operandA u 0x060) = false ∧ sortBusy u 0x060 (wordAt u 0x060) 0 = false ∧
    canIssue u 0x060 0x40 6 = true ∧ modeBit (wordAt u 0x060) = false ∧ toSlot (wordAt u 0x060) = false ∧
    toSlot (tWord 0x40 24 25 26 0) = true ∧ cwN 31 ≤ slotCap u 0x060 0 ∧ modeBit (tWord 0x40 8 25 26 16) = true ∧
    slotCap u 0x060 0 < cwN 32 ∧ canIssue mg 0x060 0x41 6 = true ∧ (List.range 16).filter (bit (1 : Word)) = [0] ∧
    slotDefined mg 0x060 0 = true ∧ (runSlot mg 0x060 0).recs = [] ∧ canIssue ms 0x060 0x41 6 = true ∧ toSlot (wordAt ms 0x060) = true ∧
    fld (put 1 16 ||| 1 : Word) 19 16 = 1 ∧ 1 ∉ (List.range 16).filter (bit (put 1 16 ||| 1 : Word)) ∧ slotDefined ms 0x060 1 = true ∧
    mergeCount ms 0x060 (put 1 16 ||| 1) ≤ slotCap ms 0x060 1 ∧ canIssue (so 0x42 8 0 0 31 .reset) 0x060 0x42 6 = true ∧
    canIssue sp 0x060 0x43 6 = true ∧ slotDefined sp 0x060 (slotNo (wordAt sp 0x060)) = true ∧ (runSlot sp 0x060 0).kt < 5 := by decide +kernel

theorem witness_MemoryAndPortStationInstructions :
    let mr (c d : Nat) (addr : Word) : State :=
      tSt 0x070 (tWord c d 25 26 0) tRegion0 fun x => { x with sreg := [(1, addr)] }
    let wr := tSt 0x070 (tWord 0x41 0 0 26 0) tRegion0 fun x => { x with sreg := [(2, 0x20_0000)], ends := [(0, [tLine (tOnly 4)])] }
    let from0 : LineMeta := { stampPour := 0, stampClk := 0, hdr := mkHeader 6 2 0 1 0 1 9 0 0 0 7 0 0 0 0, port := some 0, head := true }
    let head : Line := { tLine (tOnly 4) with origin := some from0 }
    let pi (l : List Line) : State := tSt 0x080 (tWord 0x40 0 25 0 0) (tInst 1000) fun x => { x with ends := [(0, l)] }
    let gone : State := { pi [] with members := [(0, { Member.reset with removed := true })] }
    let pe := tSt 0x090 (tWord 0x40 0 0 25 0) [] fun x => { x with store := [(0, tTemplate 2)], ends := [(0, [tLine (tOnly 4)])] }
    canIssue (mr 0x40 8 0x20_0000) 0x070 0x40 7 = true ∧ schedOk (mr 0x40 8 0x20_0000) 0x070 0x20_0000 128 = true ∧
    schedOk (mr 0x40 8 0x40_0000) 0x070 0x40_0000 128 = false ∧ canIssue (mr 0x42 8 0) 0x070 0x42 7 = true ∧
    canIssue wr 0x070 0x41 7 = true ∧ popReady wr 0x070 0 wr.clk = true ∧ (endLines wr 0x070 0).head? = some (tLine (tOnly 4)) ∧
    bit (tLine (tOnly 4)).side 23 = true ∧ (operandB wr 0x070).toNat % 128 = 0 ∧ schedOk wr 0x070 0x20_0000 (128 * sideCount (tLine (tOnly 4)).side) = true ∧
    canIssue (pi [head]) 0x080 0x40 8 = true ∧ removedOn (pi [head]) 0 (servedPort (pi [head]) 0x080) = none ∧
    popReady (pi [head]) 0x080 0 1000 = true ∧ headOfInst (pi [head]) 0x080 0 = true ∧ (endLines (pi [head]) 0x080 0).head? = some head ∧
    canIssue gone 0x080 0x40 8 = true ∧ removedOn gone 0 (servedPort gone 0x080) ≠ none ∧ headOfInst (pi []) 0x080 0 = false ∧
    canIssue pe 0x090 0x40 9 = true ∧ hCls (templateHdr (storeLine pe 0x090 0)) = 2 ∧ readFree pe 0x090 1000 = true ∧
    popReady pe 0x090 0 1000 = true ∧ (endLines pe 0x090 0).head? = some (tLine (tOnly 4)) := by decide +kernel

theorem witness_CrucibleIntakeAndDecisions :
    let o := OpenInst.fresh 900
    let m (first : Bool) : LineMeta :=
      { stampPour := 0, stampClk := 0, hdr := mkHeader 6 2 0 1 0 1 9 0 0 0x020 7 0 0 0 0, port := some 0, head := first }
    let s (d : Nat) (x : OpenInst) (l : List Line) : State := tCru 0 d [(0, x)] [(1, l)]
    let line (first : Bool) : Line := { tLine (tOnly 4) with origin := some (m first) }
    let bad : Contribution := { stampPour := 0, stampClk := 0, lines := 1, timely := 1, qend := 1, bad := true, rank := 0, port := some 0, hdr := 0, data := [] }
    let u (b : Bool) : State := s 1000 o [line b]
    (u true).running = true ∧ kindOf 0x020 = 2 ∧ endLines (u true) 0x020 (1 : Fin 8) = line true :: [] ∧
    endLines (s 1000 o [tLine 0]) 0x020 (1 : Fin 8) = tLine 0 :: [] ∧ (tLine 0).origin = none ∧ 1000 ≤ ({ tLine 0 with since := 1000 }).since ∧
    (line false).origin = some (m false) ∧ (m false).head = false ∧ (m true).head = true ∧ (line true).since < (u true).clk ∧ iValid (u true) 0 = true ∧ iCrucible (u true) 0 = 0x020 ∧
    gValid (u true) (iGroup (u true) 0) = true ∧ isOpen (u true) 0x020 (hInst (m true).hdr) = true ∧
    rateAllows (u true) 0x020 0 = true ∧ (∀ k < 1, takeable (u true) 0x020 k = none) ∧
    rateAllows { u true with crucibles := [(0x020, { (u true).crucible 0x020 with work := 2 ^ 20 })] } 0x020 0 = false ∧
    isOpen (s 1000 o []) 0x020 1 = false ∧ rankOfArrival (addWork 0x020 0 (popEnd 0x020 1 1000 (u true))) 0 0 (1 : Fin 8) = some 0 ∧
    instOf (s 428 o []) 0x020 0 = some o ∧ (s 429 o []).slotNow < deadline (s 429 o []) 0 + 72 ∧ o.decided = false ∧
    deadline (s 428 o []) 0 + 72 ≤ (s 428 o []).slotNow ∧ (∀ e < 8, endLines (s 428 o []) 0x020 e = []) ∧ offenders (s 428 o []) o 0x020 0 [0] = [] ∧ (s 428 o []).running = true ∧
    ((liveRanks (s 428 o []) 0).filter fun r => !arrivedBy (s 428 o []) o 0x020 0 r) = [0] ∧ [0].min? = some 0 ∧ gOp (s 428 o []) 0 ≠ 11 ∧
    offenders (s 428 { o with got := [(0, bad)] } []) { o with got := [(0, bad)] } 0x020 0 [] = [0] ∧
    (let v := { s 428 o [] with members := [(0, { Member.reset with removed := true })] }
     (liveRanks v 0).filter (fun r => !arrivedBy v o 0x020 0 r) = []) := by decide +kernel

theorem witness_CaptureAndReplay :
    let r : List Byte := captureBytes 3 0 7 0 0 0 1 []
    let k : List Byte := captureBytes 1 0 7 0 0 0 0 (List.replicate 56 0)
    let cap (n : Nat) (a b : List (List Byte)) : State :=
      { tIn .link with cfg := tRegion0, cap := { Capture.reset with running := true, buffer := [(0, a), (1, b)], written := n } }
    let base := rgBase (cap 0 [k] []) (captureRegion (cap 0 [k] []))
    let size := rgBytes (cap 0 [k] []) (captureRegion (cap 0 [k] []))
    (cap 0 [] []).pwr.mainOn = true ∧ tget [] (cap 0 [] []).cap.buffer 0 = [] ∧ tget [] (cap 0 [k] []).cap.buffer 0 = k :: [] ∧
    tget [] (cap 0 [] [[]]).cap.buffer 1 = [] :: [] ∧ 3 ≤ (r.getD 7 0).toNat / 16 ∧ ¬ 3 ≤ (k.getD 7 0).toNat / 16 ∧
    (tget [] (cap 0 [r] [k]).cap.buffer 1).head? ≠ some [] ∧ (tget [] (cap 0 [r] [[]]).cap.buffer 1).head? = some [] ∧
    64 * 32767 + r.length ≤ size ∧ spanFree (cap 0 [k] []) base k.length = true ∧
    (let busy : State := { tRun ((0x1_0020, put 112 16 ||| 1800) :: tRegion0) with clk := 500 }
     spanFree busy 0x20_0000 64 = false) ∧
    size < 64 * 32768 + r.length ∧ size < 64 * 32768 + 64 ∧ size < 64 * 32767 + k.length ∧ 64 * 32767 + 64 ≤ size := by decide +kernel

theorem witness_CaptureAndReplay_replay :
    let replay (bytes : List Byte) : State :=
      { tRun ((0x2_0000, put 1 60) :: tRegion0) with
        clk := 500, cap := { Capture.reset with replayActive := true }
        mem := { StackedMem.reset with cells := cellWrite [] 0x20_0000 bytes } }
    let pkt (flags : Nat) (h : BitVec 256) (n : Nat) : State := replay (captureBytes 1 flags 0 0 0 0 0 (headerBytes h ++ List.replicate n 9))
    let good := pkt 0 (tHdr 0 4 5 0 0) 24
    let rec_ (s : State) (f : CapRec → Bool) : Bool := (nextRecord s).any f
    let rx (s : State) (r : CapRec) (h : BitVec 256) : RxPacket := recordRx 0 r h false s
    (replay []).running = true ∧ (replay []).cap.replayActive = true ∧ nextRecord (replay []) = none ∧
    rec_ (replay (captureBytes 3 0 7 0 0 0 1 [])) (fun x => x.kind == 3 && decide ((replay []).cap.replayHeats ≤ (replay []).job.slot)) = true ∧
    rec_ (replay (captureBytes 4 0 0 0 0 0 0 [])) (fun x => x.kind == 4) = true ∧
    rec_ (replay (captureBytes 2 0 0 0 1 0 0 [1])) (fun x => x.heat == 0 && x.pour == 0 && decide ((replay []).pourOff < x.clk)) = true ∧
    rec_ (replay (captureBytes 2 0 0 0 0 0 0x20_0040 (List.replicate 64 1)))
      (fun x => x.kind == 2 && pickupFits (replay []) x && decide (x.heat = 0 ∧ x.pour = 0 ∧ x.clk ≤ (replay []).pourOff)) = true ∧
    rec_ (replay (captureBytes 2 0 0 0 0 0 0x40_0000 [1])) (fun x => x.kind == 2 && !pickupFits (replay []) x) = true ∧
    rec_ good (fun x => x.kind == 1 && x.body.length == 40 + payloadLen (tHdr 0 4 5 0 0) && x.flags == 0 && x.heat == 0 &&
      !usedEarly (noteStamp 0 (rx good x (tHdr 0 4 5 0 0)) good) 0 (rx good x (tHdr 0 4 5 0 0)) (List.replicate 16 9)) = true ∧
    hType (tHdr 0 4 5 0 0) ≠ 4 ∧ ¬ isPoliced good 0 (tHdr 0 4 5 0 0) ∧ hType (tHdr 4 0 0 0 0) = 4 ∧ bit (portTap good 0) 4 = false ∧
    rec_ (pkt 0 (tHdr 0 4 5 0 0) 25) (fun x => x.body.length != 40 + payloadLen (tHdr 0 4 5 0 0)) = true ∧
    rec_ (pkt 1 (tHdr 0 4 5 0 0) 24) (fun x => x.flags % 2 == 1) = true ∧ rec_ (pkt 2 (tHdr 0 4 5 0 0) 24) (fun x => x.flags % 4 == 2) = true := by
  unfold isPoliced; decide +kernel

/-! ### One step each, with values taken from the rules -/

/-- What a next state shows. -/
def tShow {α : Type} (o : Out) (f : State → α) : Option α := match o with | .next t => some (f t) | _ => none

/-- The check values of the CRC-16 with initial value ones, the CRC-64 with initial value and final XOR ones, and the CRC-32C (R125, R167):
published for the nine bytes "123456789". -/
theorem test_crc_check_values :
    let b : List Byte := [0x31, 0x32, 0x33, 0x34, 0x35, 0x36, 0x37, 0x38, 0x39]
    crc16 b = 0x29B1 ∧ crc64 b = 0x62EC59E3F1A4F00A ∧ crc32c 0xFFFFFFFF b = 0xE3069283 := by decide +kernel

/-- R155: 2 clk a hop, 8 where the ring crosses between bays 7 and 8 and between 15 and 0. -/
theorem test_ring_transit : transitClk 0 0 1 = 2 ∧ transitClk 0 7 8 = 8 ∧ transitClk 1 0 15 = 8 := by decide

/-- R222: a signal takes 1 clk to the station itself, 4 in its bay, 10 in its half, 18 beyond. -/
theorem test_partner_delay :
    partnerDelay 0x010 0x010 = 1 ∧ partnerDelay 0x010 0x011 = 4 ∧ partnerDelay 0x010 0x110 = 10 ∧ partnerDelay 0x010 0x810 = 18 := by decide

/-- R60, R62: below 45 V the main domain turns off with 0x01; at 45 V it stays on. -/
theorem test_input_low :
    tShow (exec (.inputLow 44999) tOn) (fun t => (t.pwr.mainOn, t.pwr.lastDown)) = some (false, 0x01) ∧
    tShow (exec (.extendedRange 45000) tOn) (fun t => (t.pwr.mainOn, t.pwr.vinLow)) = some (true, true) := by decide +kernel

/-- R428: ASSIGN is acknowledged and opens the repeater. -/
theorem test_assign :
    tShow (exec (.assign 0 7 (crc16 (frameBytes 0 0x02 [7]))) tOn) (fun t => (t.chain.addr, t.chain.repeating)) = some (7, true) ∧
    tShow (exec (.assign 0 7 0) tOn) (fun t => t.chain.addr) = some 0 := by decide +kernel

/-- R84, R85: the first logic sensor at its critical threshold turns the main domain off. -/
theorem test_sensor_critical :
    tShow (exec (.sensorSample (tTemps [0])) tOn) (fun t => (t.pwr.mainOn, t.pwr.lastDown)) = some (false, 0x05) ∧
    tShow (exec (.sensorSample (tTemps [])) tOn) (fun t => t.pwr.mainOn) = some true := by decide +kernel

/-- R110: a lock is blown once. -/
theorem test_fuse_lock :
    tShow (exec .fuseLock (tMail .run 0)) (fun t => t.fuse.opened.map (·.newV)) = some (some 2) ∧
    tShow (exec .fuseLock { tMail .run 0 with fuse := { Fuse.reset with lock := 2 } }) (fun t => t.fuse.opened.isNone) = some true := by
  decide +kernel

/-- R409: what the host writes it reads back, byte 0 first. -/
theorem test_host_memory :
    let s := { tIn .link with host := { HostLink.reset with linkUp := true }, cfg := tRegion0 }
    let data : List Byte := (List.range 64).map (BitVec.ofNat 8 ·)
    tShow (exec (.cxlMemWrite 0x20_0040 data (BitVec.allOnes 64) []) s) (fun t => cellRead t.mem.cells 0x20_0040 64) = some data ∧
    tShow (exec (.cxlMemRead 0 64 []) s) (fun t => t.out) = some [.cxlData (List.replicate 64 0xFF) true] := by decide +kernel

/-- R412: IDX_ADDR keeps 33 bits; R17: a write to a 4-byte half changes nothing. -/
theorem test_register_write :
    tShow (exec (.registerWrite 0x100 8 (BitVec.allOnes 64)) tOn) (fun t => t.host.idxAddr) = some 0x1FFFFFFFF ∧
    tShow (exec (.registerWrite 0x104 4 1) tOn) (fun t => t.host.idxAddr) = some 0 := by decide +kernel

/-- R119: step 1 ends with light; a skew above 40 unit intervals fails step 3. -/
theorem test_training :
    tShow (exec (.lightDetected 0) (tStep .link 1)) (fun t => (t.port 0).step) = some 2 ∧
    tShow (exec (.alignDone 0 41) (tStep .link 3)) (fun t => ((t.port 0).step, (t.port 0).downReason)) = some (1, 3) := by decide +kernel

/-- R134: a header whose check fails is answered by a NAK; R128: one that is next in order is received. -/
theorem test_packet_header :
    tShow (exec (.packetHeader 0 ⟨tHdr 0 4 5 0 0 ^^^ 1, []⟩) (tLink [] tUp)) (fun t => ((t.port 0).waitReplay, tget 0 (t.port 0).ctr 6)) =
      some (true, 1) ∧
    tShow (exec (.packetHeader 0 ⟨tHdr 0 4 5 0 0, []⟩) (tLink [] tUp)) (fun t => (t.port 0).rx.map (·.hdr)) = some (some (tHdr 0 4 5 0 0)) := by
  decide +kernel

/-- R130: a packet of 16 payload bytes costs one cell, one of 32 two. -/
theorem test_cells : cellsOf (tHdr 0 4 5 0 0) = 1 ∧ cellsOf (mkHeader 0 4 0 1 5 1 9 0 0 0 1 0 0 0 0) = 2 := by decide +kernel

/-- R223, R229: a counter stops at 0xFFFF and COUNTER_OVF is recorded; a set flag reads 1. -/
theorem test_signals :
    let s (k : SigKind) : State := { tRun [] with
      fab := { Fabric.reset with signals := [{ due := 1000, target := 0x010, kind := k, place := none }] }
      stations := [(0x010, { Station.reset with ctr := [(3, 0xFFFF)] })] }
    tShow (exec .signalArrival (s (.add 3 1))) (fun t => (tget 0 (t.station 0x010).ctr 3, (t.station 0x010).violCode)) = some (0xFFFF, 0x06) ∧
    tShow (exec .signalArrival (s (.set 63))) (fun t => (t.station 0x010).flags) = some 0x8000000000000000 := by decide +kernel

/-- R226, R219: mul of 7 by 7 reaches S2 three clk later; sub of 7 from 7 one clk later. -/
theorem test_scalar :
    let show_ (o : Out) := tShow o fun t => (t.station 0x010).results.map fun r => (r.due, r.kind)
    show_ (exec (.mul 0x010) (tVec (tWord 0x12 26 25 25 0))) = some [(1003, .scalar 2 49)] ∧
    show_ (exec (.sub 0x010) (tVec (tWord 0x0B 26 25 25 0))) = some [(1001, .scalar 2 0)] := by decide +kernel

/-- R226: li sign-extends 20 bits; jmp goes to its target. -/
theorem test_li_and_jmp :
    tShow (exec (.li 0x010) (tVec (put 0x08 57 ||| put 26 52 ||| put 0xFFFFF 32))) (fun t => (t.station 0x010).results.map (·.kind)) =
      some [.scalar 2 (BitVec.allOnes 64)] ∧
    tShow (exec (.jmp 0x010) (tVec (put 0x03 57 ||| put 0x3FFF 32))) (fun t => (t.station 0x010).pc) = some 0x3FFF := by decide +kernel

/-- R220, R224: an instruction whose wait does not hold stands in WAIT; R215: halt stops at its own address. -/
theorem test_wait_and_halt :
    tShow (exec (.nop 0x010) (tVec (put (2 ^ 14 + 16) 16))) (fun t => ((t.station 0x010).seq, (t.station 0x010).pc)) = some (.wait, 0) ∧
    tShow (exec (.halt 0x010) (tVec (tWord 0x01 0 0 0 0))) (fun t => ((t.station 0x010).seq, (t.station 0x010).pc)) = some (.halt, 0) := by
  decide +kernel

/-- R251: 1.0 + 1.0 = 2.0, the sum of two infinities of unlike sign is the NaN; R255: 2^-149 is kept. -/
theorem test_f32 :
    f32Add 0x3F800000 0x3F800000 = 0x40000000 ∧ f32Add 0x7F800000 0xFF800000 = 0x7FC00000 ∧ f32Mul 0x00000001 0x3F800000 = 0x00000001 := by
  decide +kernel

/-- R227: vadd of two zero registers gives a zero line four clk later; vsum its scalar six clk later. -/
theorem test_lanes :
    let show_ (o : Out) := tShow o fun t => (t.station 0x010).results.map fun r => (r.due, r.kind)
    show_ (exec (.vadd 0x010) (tVec (tWord 0x40 16 17 18 0))) = some [(1004, .line 0 0 (BitVec.allOnes 1024))] ∧
    show_ (exec (.vsum 0x010) (tVec (tWord 0x49 26 17 0 0))) = some [(1006, .scalar 2 0)] := by decide +kernel

/-- R279, R280: cr.open opens its inst 8 clk after issue; cr.close ends it. -/
theorem test_crucible :
    tShow (exec (.crOpen 0x020) (tCru (tWord 0x40 0 25 0 0) 1000 [] [])) (fun t => (instOf t 0x020 0).map (·.openAt)) = some (some 1008) ∧
    tShow (exec (.crClose 0x020) (tCru (tWord 0x43 0 25 0 0) 1000 [(0, OpenInst.fresh 900)] [])) (fun t => (instOf t 0x020 0).map (·.closed)) = some (some true) := by
  decide +kernel

/-- R287: at the deadline an absent member retracts the inst; one clk earlier nothing is decided. -/
theorem test_deadline :
    tShow (exec (.deadlineDecision 0) (tCru 0 428 [(0, OpenInst.fresh 900)] [])) (fun t => (instOf t 0x020 0).map fun o => (o.decided, o.missed)) =
      some (some (true, [0])) ∧
    tShow (exec (.deadlineDecision 0) (tCru 0 429 [(0, OpenInst.fresh 900)] [])) (fun t => (instOf t 0x020 0).map (·.decided)) =
      some (some false) := by decide +kernel

/-- R32, R34: a boundary inside a slot raises the pour number; the last one of a slot raises the heat number. -/
theorem test_boundary :
    tShow (exec .pourBoundary (tBound 2 id .reset)) (fun t => (t.job.pour, t.job.heat, t.job.pourClk)) = some (1, 0, 10000) ∧
    tShow (exec .pourBoundary (tBound 1 id .reset)) (fun t => (t.job.pour, t.job.heat, t.job.slot)) = some (0, 1, 1) := by decide +kernel

/-- R361: a line whose stored symbols are as written reads back with no correction; R359: one symbol in error is corrected. -/
theorem test_line_outcome :
    lineOutcome 0 false (List.replicate 64 0) [] = .ok (List.replicate 64 0, false) ∧
    lineOutcome 0 false (List.replicate 64 0) [(3, 0x8001)] = .ok (List.replicate 64 0, true) := by decide +kernel

/-! ### Operands that can occur -/

theorem test_wf_refuses :
    (Instr.sensorSample [20]).wf = false ∧ (Instr.packetTrailer 0 (List.replicate 8 0) 0 0 0).wf = false ∧
    (Instr.packetTrailer 0 [] 0 0 0).wf = false ∧ (Instr.readClear 4 8).wf = false ∧ (Instr.readClear 0 2).wf = false ∧
    (Instr.registerWrite 2 4 0).wf = false ∧ (Instr.cxlMemRead 32 64 []).wf = false ∧ (Instr.cxlMemRead 64 32 []).wf = false ∧
    (Instr.cxlMemWrite 0 [] 0 []).wf = false ∧ (Instr.hbmReady (List.replicate 9 0) none).wf = false ∧
    (Instr.announce 0 { tAnnounce with domain := 256 }).wf = false ∧ (Instr.announce 0 { tAnnounce with stepsRemoved := 65536 }).wf = false ∧
    (Instr.sync 0 0 ⟨256, 0, 0⟩ false).wf = false ∧ (Instr.delayReq 0 0 ⟨0, 65536, 0⟩).wf = false ∧ (Instr.delayResp 0 0 ⟨0, 65536, 0⟩).wf = false ∧
    (Instr.badOp 0x52).wf = false := by decide +kernel

theorem test_wf_accepts :
    (Instr.sensorSample (tTemps [])).wf = true ∧ (Instr.packetTrailer 0 (List.replicate 4096 0) 0 0 0).wf = true ∧
    (Instr.readClear 4 4).wf = true ∧ (Instr.announce 0 tAnnounce).wf = true ∧ (Instr.badOp 0x03).wf = true := by decide +kernel

/-- The table gives no row bits, so no word spells a command. -/
theorem test_no_words : decodeTableWord 64 0 = none ∧ State.reset.withFetchWord 64 0 = State.reset := by decide +kernel

/-! ### The public standards, on the examples their texts give -/

/-- The hash of the three bytes abc, as the SM3 standard gives it. -/
theorem test_sm3 : sm3 [0x61, 0x62, 0x63] = 0x66C7F0F462EEEDD9D1F2D46BDC10E4E24167C4875CF2F7A2297DA02B8F4BA8E0 := by decide +kernel

/-- The example of the SM4 standard: key and block the same. -/
theorem test_sm4 : sm4 0x0123456789ABCDEFFEDCBA9876543210 0x0123456789ABCDEFFEDCBA9876543210 = 0x681EDF34D206965E86B3E94F536E4246 := by
  decide +kernel

theorem test_sm4Inv : sm4Inv 0x0123456789ABCDEFFEDCBA9876543210 0x681EDF34D206965E86B3E94F536E4246 = 0x0123456789ABCDEFFEDCBA9876543210 := by
  decide +kernel

end Sys2Proof.Machine
end

section
/-!
SUPPORT. The way of unscheduled traffic (R155, R157). The idea: the two directions between two bays together make one revolution of 44 clk, so
the shorter of them takes at most half of it.
-/

namespace Sys2Proof.Machine

/-! ### Clockwise travel -/

/-- Travel over m + n hops is travel over m and then over n more. -/
theorem cwClk_add (b m n : Nat) : cwClk b (m + n) = cwClk b m + cwClk (b + m) n := by
  induction m generalizing b with
  | zero => simp [cwClk]
  | succ m ih =>
    rw [Nat.add_right_comm m 1 n]
    simp only [cwClk, ih, Nat.add_assoc, Nat.add_comm 1 m]

/-- Sixteen bays close the ring: the clk of travel do not depend on how often a bay's number has gone round. -/
theorem cwClk_bay_add_sixteen (b n : Nat) : cwClk (b + 16) n = cwClk b n := by
  induction n generalizing b with
  | zero => rfl
  | succ n ih => simp only [cwClk, Nat.add_mod_right, Nat.add_right_comm b 16 1, ih]

/-- One revolution takes 44 clk from every bay (R155). -/
theorem cwClk_revolution : ∀ b < 16, cwClk b 16 = 44 := by decide

/-! ### The two directions -/

/-- A bay is no way from itself. -/
theorem transitClk_clockwise_self (a : Nat) : transitClk 0 a a = 0 := by
  simp [transitClk, cwClk]

/-- Clockwise from a to b and counter-clockwise from a to b, which passes the hops from b on to a, make one revolution. -/
theorem transitClk_add_opposite {a b : Nat} (ha : a < 16) (hb : b < 16) (hne : a ≠ b) :
    transitClk 0 a b + transitClk 1 a b = 44 := by
  have hhops : (b + 16 - a) % 16 + (a + 16 - b) % 16 = 16 := by omega
  have hreach : cwClk (a + (b + 16 - a) % 16) ((a + 16 - b) % 16) = cwClk b ((a + 16 - b) % 16) := by
    rcases Nat.lt_or_gt_of_ne hne with h | h
    · rw [show a + (b + 16 - a) % 16 = b by omega]
    · rw [show a + (b + 16 - a) % 16 = b + 16 by omega, cwClk_bay_add_sixteen]
  calc transitClk 0 a b + transitClk 1 a b
      = cwClk a ((b + 16 - a) % 16) + cwClk b ((a + 16 - b) % 16) := rfl
    _ = cwClk a ((b + 16 - a) % 16 + (a + 16 - b) % 16) := by rw [cwClk_add, hreach]
    _ = 44 := by rw [hhops, cwClk_revolution a ha]

/-- No shortest transit exceeds half a revolution (R157). -/
theorem transitClk_min_le {a b : Nat} (ha : a < 16) (hb : b < 16) :
    min (transitClk 0 a b) (transitClk 1 a b) ≤ 22 := by
  by_cases hab : a = b
  · subst hab
    simp [transitClk_clockwise_self]
  · have hsum := transitClk_add_opposite ha hb hab
    omega

/-- The direction taken is the shorter one (R157). -/
theorem transitClk_ringDir (a b : Nat) : transitClk (ringDir a b) a b = min (transitClk 0 a b) (transitClk 1 a b) := by
  unfold ringDir
  split
  · next hle => exact (Nat.min_eq_left hle).symm
  · next hgt => exact (Nat.min_eq_right (Nat.le_of_not_le hgt)).symm

/-! ### Where a routed packet starts -/

/-- A packet for a port of the bay it stands in goes through that bay's crossbar to the port's egress station. -/
theorem placeUnicast_of_same_bay {q : QPkt} {p : Nat} (s : State) (h : p / 16 = q.src / 256) :
    placeUnicast q p s = crossTo (egressSt p) { q with targets := [p] } s := by
  simp only [placeUnicast, sendThrough, if_pos h]

/-- A packet for a port of another bay goes to its bay's stop of its ring, in the shorter direction. -/
theorem placeUnicast_of_other_bay {q : QPkt} {p : Nat} (s : State) (h : p / 16 ≠ q.src / 256) :
    placeUnicast q p s =
      crossTo (stopOut (stopKey q.ring (ringDir (q.src / 256) (p / 16)) (q.src / 256))) { q with targets := [p] } s := by
  simp only [placeUnicast, sendThrough, if_neg h]

/-- Settles O8: the bound of 22 clk holds because the two directions make one revolution of 44 clk. -/
theorem unscheduledDirectionIsShortest : Obligations.UnscheduledDirectionIsShortest := by
  unfold Obligations.UnscheduledDirectionIsShortest
  refine ⟨fun a ha b hb => ⟨rfl, transitClk_ringDir a b, transitClk_min_le ha hb⟩, by decide, by decide, fun s q p => ⟨fun hown => ?_, ?_⟩⟩
  · rw [placeUnicast_of_same_bay s hown, egressSt, hown]
  · exact placeUnicast_of_other_bay s

end Sys2Proof.Machine
end

section
/-!
SUPPORT. The GF4 codes (R238, R239, R241, R243). The idea: a code is sign bit, two exponent bits and one fraction bit, with bias 1; so the
common form's exponent is never below -1, and twice a magnitude is a natural number that the low three bits decide.
-/

namespace Sys2Proof.Machine

/-- The sign bit of a GF4 code is its bit 3. -/
theorem gf4_sign_bit {code : Nat} (hcode : code < 16) : code / 8 % 2 = 1 ↔ 8 ≤ code := by omega

/-- A GF4 code with exponent field 0, but for the code of NaN, is its fraction bit in halves (R243). -/
theorem decodeElem_gf4_of_exponent_zero {code : Nat} (hcode : code < 16) (hnan : code ≠ 8) (he : code / 2 % 4 = 0) :
    decodeElem 5 code = .fin (decide (8 ≤ code)) (code % 2) (-1) := by
  have hnumeric : ¬ (8 ≤ code ∧ code % 2 = 0) := by omega
  simp [decodeElem, isInt, hasInf, fracBits, expBits, biasOf, gf4_sign_bit hcode, he, hnumeric]

/-- A GF4 code with another exponent field has the hidden bit before its fraction bit (R243). -/
theorem decodeElem_gf4_of_exponent_pos {code : Nat} (hcode : code < 16) (he : code / 2 % 4 ≠ 0) :
    decodeElem 5 code = .fin (decide (8 ≤ code)) (2 + code % 2) ((code / 2 % 4 : Nat) - 2) := by
  simp [decodeElem, isInt, hasInf, fracBits, expBits, biasOf, gf4_sign_bit hcode, he, Int.sub_sub]

/-- The code of a negative zero is GF4's NaN (R239). -/
theorem decodeElem_gf4_nan : decodeElem 5 8 = .nan := rfl

/-- Twice the magnitude of the GF4 codes, by the low three bits of the code (R241). -/
def gf4Doubled : List Int := [0, 1, 2, 3, 4, 6, 8, 12]

/-- With exponent field 0 twice the magnitude is the fraction bit. -/
theorem gf4Doubled_of_exponent_zero : ∀ low < 8, low / 2 % 4 = 0 → gf4Doubled.getD low 0 = (low % 2 : Nat) := by decide

/-- With another exponent field e twice the magnitude is the significand, 2 or 3, times 2 ^ (e - 1). -/
theorem gf4Doubled_of_exponent_pos : ∀ low < 8, low / 2 % 4 ≠ 0 →
    gf4Doubled.getD low 0 = (2 + low % 2 : Nat) * 2 ^ (low / 2 % 4 - 1) := by decide

/-- Settles O9, by the two forms of a numeric code: exponent field 0, and the others. -/
theorem gf4Decodes : Obligations.Gf4Decodes := by
  unfold Obligations.Gf4Decodes
  refine ⟨fun code hcode hnan => ?_, decodeElem_gf4_nan⟩
  have hlow : code % 8 < 8 := Nat.mod_lt _ (by decide)
  have hexp : code % 8 / 2 % 4 = code / 2 % 4 := by omega
  have hfrac : code % 8 % 2 = code % 2 := by omega
  by_cases he : code / 2 % 4 = 0
  · have htable := gf4Doubled_of_exponent_zero _ hlow (hexp.trans he)
    rw [hfrac] at htable
    exact ⟨_, _, _, decodeElem_gf4_of_exponent_zero hcode hnan he, by decide, by simpa [gf4Doubled] using htable.symm, rfl⟩
  · have htable := gf4Doubled_of_exponent_pos _ hlow (hexp ▸ he)
    rw [hfrac, hexp] at htable
    have hscale : (((code / 2 % 4 : Nat) : Int) - 2 + 1).toNat = code / 2 % 4 - 1 := by omega
    refine ⟨_, _, _, decodeElem_gf4_of_exponent_pos hcode he, by omega, ?_, rfl⟩
    rw [hscale]
    exact htable.symm

end Sys2Proof.Machine
end

section
/-!
SUPPORT. HEAT_RETRACT of another heat (R385). The idea: such a notice makes one quench due, of code HEAT_SPLIT and its port of arrival; the next
boundary finds that quench due before it looks at anything else, and records its cause.
-/

namespace Sys2Proof.Machine

/-! ### A notice that a port has accepted for this module -/

/-- A command for the packet type at the front takes that packet. -/
theorem takeInbox_of_firstAccepted {s : State} {p type : Nat} {q : QPkt} {rest : List QPkt} (f : QPkt → State → State)
    (h : firstAccepted s p type q rest) : takeInbox p type f s = f q (accepted p rest s) := by
  obtain ⟨hfront, htype⟩ := h
  simp only [takeInbox, hfront, htype, if_true, accepted]

/-- A packet that leaves its queue changes at most what waits for QUEUE_RELEASE. -/
theorem consume_changes_only_fab (bay : Nat) (h : BitVec 256) (owner : Requester) (s : State) :
    ∃ g, consume bay h owner s = s.setFab g := by
  unfold consume
  split
  · exact ⟨id, rfl⟩
  · exact ⟨_, rfl⟩

@[simp] theorem consume_clk (bay : Nat) (h : BitVec 256) (owner : Requester) (s : State) : (consume bay h owner s).clk = s.clk :=
  (keep_consume bay h owner (Kept.refl s)).clk

@[simp] theorem consume_job (bay : Nat) (h : BitVec 256) (owner : Requester) (s : State) : (consume bay h owner s).job = s.job := by
  obtain ⟨g, hg⟩ := consume_changes_only_fab bay h owner s
  rw [hg, State.setFab_job]

/-- In RUN the ledger takes a notice whose length agrees with its item count (R375, R376). -/
theorem deliverNotice_of_whole {p : Nat} {q : QPkt} {s : State} (hrun : s.running = true)
    (hlen : hLen q.pkt.hdr = fld (noticeHead q.pkt) 119 112 + 1) :
    deliverNotice p q s = actNotice p q.pkt (consume (hDstStation q.pkt.hdr / 256) q.pkt.hdr q.owner s) := by
  have hwhole : noticeWhole q.pkt = true := beq_iff_eq.mpr hlen
  simp [deliverNotice, hrun, hwhole, bayOf]

/-- Every item of a HEAT_RETRACT notice of another heat makes the quench due again (R385); of one item, once. -/
theorem actNotice_of_other_heat {p : Nat} {k : Packet} {item : BitVec 128} {s : State} (hkind : fld (noticeHead k) 127 120 = 2)
    (hitem : noticeItems k = [item]) (hheat : fld (noticeHead k) 111 64 ≠ s.job.heat) : actNotice p k s = quenchDue 0x45 p s := by
  simp [actNotice, hkind, hitem, each, heatRetractItem, hheat]

/-- The quench that becomes due, in a state that has kept JOB and the clk of another. -/
theorem quenchDue_of_same_job {v s : State} {code unit : Nat} (hclk : v.clk = s.clk) (hjob : v.job = s.job) :
    quenchDue code unit v = { v with job := { s.job with quenchDue := s.job.quenchDue ++ [(s.clk, code, unit)] } } := by
  rw [← hjob, ← hclk]
  rfl

/-- A HEAT_RETRACT notice of another heat leaves its queue and makes a quench due (R385). -/
theorem exec_notice_of_other_heat {s : State} {port : PortNo} {q : QPkt} {rest : List QPkt} {item : BitVec 128}
    (hfirst : firstAccepted s port.toNat 5 q rest) (hrun : s.running = true)
    (hlen : hLen q.pkt.hdr = fld (noticeHead q.pkt) 119 112 + 1) (hkind : fld (noticeHead q.pkt) 127 120 = 2)
    (hitem : noticeItems q.pkt = [item]) (hheat : fld (noticeHead q.pkt) 111 64 ≠ s.job.heat) :
    exec (.notice port) s =
      .next (quenchDue 0x45 port.toNat (consume (hDstStation q.pkt.hdr / 256) q.pkt.hdr q.owner (accepted port.toNat rest s))) := by
  have htaken : (accepted port.toNat rest s).running = true := hrun
  have hother : fld (noticeHead q.pkt) 111 64 ≠
      (consume (hDstStation q.pkt.hdr / 256) q.pkt.hdr q.owner (accepted port.toNat rest s)).job.heat := by
    rw [consume_job]
    exact hheat
  calc exec (.notice port) s
      = .next (takeInbox port.toNat 5 (deliverNotice port.toNat) s) := rfl
    _ = .next (quenchDue 0x45 port.toNat _) := by
      rw [takeInbox_of_firstAccepted _ hfirst, deliverNotice_of_whole htaken hlen, actNotice_of_other_heat hkind hitem hother]

/-! ### The boundary of a quench that is due -/

/-- A pour boundary at which a quench is due quenches, whatever else is due (R38 step 1). -/
theorem exec_pourBoundary_of_quenchDue {s : State} (hdue : s.boundaryDue = true) (hlimit : s.limitReached = false)
    (hquench : s.job.quenchDue ≠ []) : exec .pourBoundary s = .next (quenchNow s) := by
  have hboundary : boundary s = quenchNow s := by simp [boundary, hlimit, hquench]
  calc exec .pourBoundary s
      = .next (if s.boundaryDue then boundary s else s) := rfl
    _ = .next (quenchNow s) := by rw [if_pos hdue, hboundary]

/-- In BOOT a quench changes what entering QUENCHED and recording its cause change, no more. -/
theorem quenchNow_boot (s : State) : (quenchNow s).boot = (recordQuench (enterPhase .quenched s)).boot := by
  simp only [quenchNow, State.setCap_boot, State.setJob_boot, State.emit_boot]

/-- Where no cause stands, a cause is recorded with its code and unit (R444). -/
theorem recordCause_of_no_fault {s : State} (code unit : Nat) (h : s.boot.faultCode = 0) :
    recordCause code unit s = { s with boot := { s.boot with faultCode := code, faultUnit := unit, faultClk := s.clk } } := by
  simp [recordCause, h]

/-- The only quench due is the first cause, unless it was ordered. -/
theorem firstCause_singleton (c unit : Nat) {code : Nat} (h : code ≠ 0) : firstCause [(c, code, unit)] = some (c, code, unit) := by
  simp [firstCause, h]

/-- A quench of one cause enters QUENCHED and records that cause when none stood (R38 step 1, R444). -/
theorem quenchNow_boot_of_one_cause {s : State} {c code unit : Nat} (hcode : code ≠ 0) (hcause : s.job.quenchDue = [(c, code, unit)])
    (hnone : s.boot.faultCode = 0) :
    (quenchNow s).boot.phase = .quenched ∧ (quenchNow s).boot.faultCode = code ∧ (quenchNow s).boot.faultUnit = unit := by
  have hfirst : firstCause (enterPhase .quenched s).job.quenchDue = some (c, code, unit) :=
    (congrArg firstCause hcause).trans (firstCause_singleton c unit hcode)
  have hstands : (enterPhase .quenched s).boot.faultCode = 0 := hnone
  have hrecord : recordQuench (enterPhase .quenched s) = recordCause code unit (enterPhase .quenched s) := by
    simp only [recordQuench, hfirst]
  rw [quenchNow_boot, hrecord, recordCause_of_no_fault code unit hstands]
  exact ⟨rfl, rfl, rfl⟩

/-- Settles O10: the notice only makes the quench due, and the boundary takes a due quench first and records its one cause. -/
theorem heatSplitQuenches : Obligations.HeatSplitQuenches := by
  unfold Obligations.HeatSplitQuenches
  refine ⟨fun s port q rest item hfirst hrun hlen hkind hitem hheat => ?_, fun s c port hdue hlimit hcause hnone => ?_⟩
  · rw [exec_notice_of_other_heat hfirst hrun hlen hkind hitem hheat]
    exact congrArg _ (quenchDue_of_same_job (consume_clk ..) (consume_job ..))
  · have hquench : s.job.quenchDue ≠ [] := by simp [hcause]
    exact ⟨quenchNow s, exec_pourBoundary_of_quenchDue hdue hlimit hquench, quenchNow_boot_of_one_cause (by decide) hcause hnone⟩

end Sys2Proof.Machine
end

section
/-!
SUPPORT. What every command and every step keep. The idea: every operation keeps the queue, the clk, the canonical form of the HBM cells and a
fuse array that only advances (Laws/Kept); a command is one operation, and a step is one command or one idle clk.
-/

namespace Sys2Proof.Machine

/-- Every command keeps what its operation keeps. -/
theorem keep_exec {x s : State} (c : Instr) (hk : Kept x s) : KeptOut x (exec c s) := by
  cases c with
  | standbyStart => exact keep_execStandbyStart _ hk
  | inputDip => exact keep_execInputDip hk
  | inputLow => exact keep_execInputLow _ hk
  | inputHigh => exact keep_execInputHigh _ hk
  | overcurrent => exact keep_execOvercurrent hk
  | presence => exact keep_execPresence hk
  | presenceStable => exact keep_execPresenceStable hk
  | modResetN => exact keep_execModResetN hk
  | sensorSample => exact keep_execSensorSample _ hk
  | averagingSecond => exact keep_execAveragingSecond _ hk
  | assign => exact keep_execAssign _ _ _ hk
  | token => exact keep_execToken _ _ hk
  | clear => exact keep_execClear _ _ hk
  | powerOn => exact keep_execPowerOn _ _ hk
  | powerOff => exact keep_execPowerOff _ _ hk
  | setTerminal => exact keep_execSetTerminal _ _ _ hk
  | seconds => exact keep_execSeconds _ _ _ hk
  | statusReq => exact keep_execStatusReq _ _ hk
  | regRd => exact keep_execRegRd _ _ _ hk
  | regWr => exact keep_execRegWr _ _ _ _ hk
  | railsGood => exact keep_execRailsGood hk
  | railFail => exact keep_execRailFail _ hk
  | selftestDone => exact keep_execSelftestDone _ _ _ hk
  | imageVerified => exact keep_execImageVerified _ hk
  | loadChecks => exact keep_execLoadChecks hk
  | hbmReady => exact keep_execHbmReady _ _ hk
  | linkPortsUp => exact keep_execLinkPortsUp hk
  | linkTimeout => exact keep_execLinkTimeout hk
  | timeAcquire => exact keep_execTimeAcquire hk
  | jobArm => exact keep_execJobArm _ hk
  | jobCancel => exact keep_execJobCancel hk
  | jobFix => exact keep_execJobFix hk
  | epochStart => exact keep_execEpochStart hk
  | sync => exact keep_execSync _ _ _ _ hk
  | delayReq => exact keep_execDelayReq _ _ _ hk
  | delayResp => exact keep_execDelayResp _ _ _ hk
  | announce => exact keep_execAnnounce _ _ hk
  | syncInterval => exact keep_execSyncInterval _ hk
  | delayReqInterval => exact keep_execDelayReqInterval hk
  | announceInterval => exact keep_execAnnounceInterval hk
  | syncLoss => exact keep_execSyncLoss hk
  | announceReceiptTimeout => exact keep_execAnnounceReceiptTimeout hk
  | ppsEdge => exact keep_execPpsEdge _ hk
  | ppsMissing => exact keep_execPpsMissing hk
  | holdoverLimit => exact keep_execHoldoverLimit hk
  | holdOk => exact keep_execHoldOk hk
  | timeOutMark => exact keep_execTimeOutMark hk
  | timeOutMarkEnd => exact keep_execTimeOutMarkEnd hk
  | pourBoundary => exact keep_execPourBoundary hk
  | gateArm => exact keep_execGateArm _ hk
  | gateCancel => exact keep_execGateCancel hk
  | slotSwArm => exact keep_execSlotSwArm _ _ hk
  | slotSwCancel => exact keep_execSlotSwCancel hk
  | orderedQuench => exact keep_execOrderedQuench hk
  | snapshot => exact keep_execSnapshot _ _ hk
  | fvSnapCtl => exact keep_execFvSnapCtl _ _ hk
  | idxDataRead => exact keep_execIdxDataRead _ hk
  | idxDataWrite => exact keep_execIdxDataWrite _ _ hk
  | readClear => exact keep_execReadClear _ _ hk
  | registerWrite => exact keep_execRegisterWrite _ _ _ hk
  | timeRead => exact keep_execTimeRead hk
  | powerFine => exact keep_execPowerFine _ _ _ _ _ hk
  | measRead => exact keep_execMeasRead hk
  | fuseSvc => exact keep_execFuseSvc hk
  | fuseLock => exact keep_execFuseLock hk
  | fuseDebugOff => exact keep_execFuseDebugOff hk
  | fuseKeyset => exact keep_execFuseKeyset hk
  | ledgerRead => exact keep_execLedgerRead hk
  | shakeout => exact keep_execShakeout hk
  | flashCopy => exact keep_execFlashCopy hk
  | bootPref => exact keep_execBootPref hk
  | badOp => exact keep_execBadOp _ hk
  | fuseProgrammed => exact keep_execFuseProgrammed hk
  | flashCopyDone => exact keep_execFlashCopyDone hk
  | shakeoutDone => exact keep_execShakeoutDone hk
  | hostLinkUp => exact keep_execHostLinkUp hk
  | perstN => exact keep_execPerstN hk
  | cxlMemRead => exact keep_execCxlMemRead _ _ _ hk
  | cxlMemWrite => exact keep_execCxlMemWrite _ _ _ _ hk
  | getVersion => exact keep_execGetVersion hk
  | getCapabilities => exact keep_execGetCapabilities hk
  | negotiateAlgorithms => exact keep_execNegotiateAlgorithms _ _ hk
  | getDigests => exact keep_execGetDigests hk
  | getCertificate => exact keep_execGetCertificate _ _ _ hk
  | challenge => exact keep_execChallenge _ _ hk
  | getMeasurements => exact keep_execGetMeasurements _ _ hk
  | lightDetected => exact keep_execLightDetected _ hk
  | equalizeDone => exact keep_execEqualizeDone _ hk
  | alignDone => exact keep_execAlignDone _ _ hk
  | fecLock => exact keep_execFecLock _ hk
  | width => exact keep_execWidth _ _ hk
  | key => exact keep_execKey _ _ hk
  | nonce => exact keep_execNonce _ _ _ hk
  | echo => exact keep_execEcho _ _ _ hk
  | credit => exact keep_execCredit _ _ hk
  | ready => exact keep_execReady _ _ hk
  | trainingStepFail => exact keep_execTrainingStepFail _ hk
  | lossOfLight => exact keep_execLossOfLight _ hk
  | uncorrectableLimit => exact keep_execUncorrectableLimit _ _ hk
  | retrainTimeout => exact keep_execRetrainTimeout _ hk
  | downRetry => exact keep_execDownRetry _ hk
  | ack => exact keep_execAck _ _ hk
  | nak => exact keep_execNak _ _ hk
  | replay => exact keep_execReplay _ _ hk
  | cwClear => exact keep_execCwClear _ _ hk
  | escape => exact keep_execEscape _ _ hk
  | nakResend => exact keep_execNakResend _ hk
  | ackTimeout => exact keep_execAckTimeout _ hk
  | packetHeader => exact keep_execPacketHeader _ _ hk
  | packetForward => exact keep_execPacketForward _ hk
  | packetTrailer => exact keep_execPacketTrailer _ _ _ _ _ hk
  | write => exact keep_execWrite _ hk
  | read => exact keep_execRead _ hk
  | readData => exact keep_execReadData _ hk
  | completion => exact keep_execCompletion _ hk
  | notice => exact keep_execNotice _ hk
  | contrib => exact keep_execContrib _ hk
  | egressSelect => exact keep_execEgressSelect _ hk
  | reorderTimeout => exact keep_execReorderTimeout _ hk
  | mcastHeadDepart => exact keep_execMcastHeadDepart _ _ hk
  | ringEntry => exact keep_execRingEntry _ _ _ hk
  | postRelease => exact keep_execPostRelease _ hk
  | queueRelease => exact keep_execQueueRelease _ hk
  | flowletSweep => exact keep_execFlowletSweep hk
  | poolWindow => exact keep_execPoolWindow _ hk
  | unscheduledAccess => exact keep_execUnscheduledAccess _ _ hk
  | refreshWindow => exact keep_execRefreshWindow _ _ _ hk
  | captureRecord => exact keep_execCaptureRecord _ hk
  | replayRecord => exact keep_execReplayRecord hk
  | lineEntry => exact keep_execLineEntry _ _ hk
  | lineDepart => exact keep_execLineDepart _ hk
  | ownedSlotPass => exact keep_execOwnedSlotPass _ _ _ hk
  | signalArrival => exact keep_execSignalArrival hk
  | waitExpired => exact keep_execWaitExpired _ hk
  | instructionResult => exact keep_execInstructionResult _ hk
  | engineCompletion => exact keep_execEngineCompletion _ hk
  | nop => exact keep_execNop _ hk
  | halt => exact keep_execHalt _ hk
  | atClk => exact keep_execAtClk _ hk
  | jmp => exact keep_execJmp _ hk
  | bnz => exact keep_execBnz _ hk
  | bz => exact keep_execBz _ hk
  | loop => exact keep_execLoop _ hk
  | li => exact keep_execLi _ hk
  | lui => exact keep_execLui _ hk
  | add => exact keep_execAdd _ hk
  | sub => exact keep_execSub _ hk
  | and => exact keep_execAnd _ hk
  | or => exact keep_execOr _ hk
  | xor => exact keep_execXor _ hk
  | shl => exact keep_execShl _ hk
  | shr => exact keep_execShr _ hk
  | sar => exact keep_execSar _ hk
  | mul => exact keep_execMul _ hk
  | slt => exact keep_execSlt _ hk
  | sltu => exact keep_execSltu _ hk
  | addi => exact keep_execAddi _ hk
  | ld => exact keep_execLd _ hk
  | st => exact keep_execSt _ hk
  | mv => exact keep_execMv _ hk
  | post => exact keep_execPost _ hk
  | rdt => exact keep_execRdt _ hk
  | bcPick => exact keep_execBcPick _ hk
  | vadd => exact keep_execVadd _ hk
  | vsub => exact keep_execVsub _ hk
  | vmul => exact keep_execVmul _ hk
  | vfma => exact keep_execVfma _ hk
  | vmax => exact keep_execVmax _ hk
  | vmin => exact keep_execVmin _ hk
  | vsel => exact keep_execVsel _ hk
  | vcmp => exact keep_execVcmp _ hk
  | vbc => exact keep_execVbc _ hk
  | vsum => exact keep_execVsum _ hk
  | vcvt => exact keep_execVcvt _ hk
  | vld => exact keep_execVld _ hk
  | vst => exact keep_execVst _ hk
  | crOpen => exact keep_execCrOpen _ hk
  | crFeed => exact keep_execCrFeed _ hk
  | crEmit => exact keep_execCrEmit _ hk
  | crClose => exact keep_execCrClose _ hk
  | contribLineTake => exact keep_execContribLineTake _ _ hk
  | deadlineDecision => exact keep_execDeadlineDecision _ hk
  | noticeSend => exact keep_execNoticeSend _ hk
  | rdLoad => exact keep_execRdLoad _ hk
  | rdRun => exact keep_execRdRun _ hk
  | laMode => exact keep_execLaMode _ hk
  | laWalkMap => exact keep_execLaWalkMap _ hk
  | laWalkPass => exact keep_execLaWalkPass _ hk
  | laWalkMerge => exact keep_execLaWalkMerge _ hk
  | laWalkSkim => exact keep_execLaWalkSkim _ hk
  | moWload => exact keep_execMoWload _ hk
  | moMac => exact keep_execMoMac _ hk
  | moDrain => exact keep_execMoDrain _ hk
  | soRunSort => exact keep_execSoRunSort _ hk
  | soRunLoad => exact keep_execSoRunLoad _ hk
  | soMerge => exact keep_execSoMerge _ hk
  | soTopk => exact keep_execSoTopk _ hk
  | soSpill => exact keep_execSoSpill _ hk
  | mrRd => exact keep_execMrRd _ _ hk
  | mrWr => exact keep_execMrWr _ hk
  | mrGather => exact keep_execMrGather _ _ hk
  | piTake => exact keep_execPiTake _ hk
  | peSend => exact keep_execPeSend _ hk
  | standbyStop => exact keep_execStandbyStop hk
  | extendedRange => exact keep_execExtendedRange _ hk
  | reservedCtype => exact keep_execReservedCtype _ _ hk
  | doeDiscovery => exact keep_execDoeDiscovery _ hk
  | tableAccess => exact keep_execTableAccess _ hk

/-- A command that answers a next state keeps it. -/
theorem kept_of_exec {c : Instr} {s t : State} (h : exec c s = .next t) : Kept s t := by
  have hkept := keep_exec c (Kept.refl s)
  rwa [h] at hkept

/-- With no command waiting, a step is one clk. -/
theorem step_of_empty_queue {s : State} (h : s.pending = []) : step s = .next (tick s) := by simp only [step, h]

/-- With a command at the front of the queue, a step is that command on the rest of the queue. -/
theorem step_of_front {s : State} {c : Instr} {rest : List Instr} (h : s.pending = c :: rest) :
    step s = exec c { s with pending := rest } := by simp only [step, h]

/-- A step keeps the canonical form of memory and advances the fuse array, whether it is a command or a clk. -/
theorem step_keeps_fuse_and_memory {s t : State} (h : step s = .next t) :
    FuseKept s.fuse t.fuse ∧ (Memory.wf s.mem.cells = true → Memory.wf t.mem.cells = true) := by
  cases hq : s.pending with
  | nil =>
    rw [step_of_empty_queue hq] at h
    obtain ⟨_, _, hfuse, hmem⟩ := keep_tick (Kept.refl s)
    exact (Host.Outcome.next.inj h) ▸ ⟨hfuse, hmem⟩
  | cons c rest =>
    rw [step_of_front hq] at h
    obtain ⟨_, _, hfuse, hmem⟩ := kept_of_exec h
    exact ⟨hfuse, hmem⟩

/-- Settles O5: the canonical form is one of the things that every operation keeps. -/
theorem memoryStaysCanonical : Obligations.MemoryStaysCanonical := by
  unfold Obligations.MemoryStaysCanonical
  exact fun s t hwf hstep => (step_keeps_fuse_and_memory hstep).2 hwf

/-- Settles O6: the advance of the fuse array is one of the things that every operation keeps. -/
theorem fusesOnlyAdvance : Obligations.FusesOnlyAdvance := by
  unfold Obligations.FusesOnlyAdvance
  exact fun s t hok hstep => (step_keeps_fuse_and_memory hstep).1 hok

/-- Settles O2: a command keeps clk and queue as every operation does, and an idle step is the clk of `tick`. -/
theorem onlyIdleStepsPassTime : Obligations.OnlyIdleStepsPassTime := by
  unfold Obligations.OnlyIdleStepsPassTime
  refine ⟨fun c s t h => ⟨(kept_of_exec h).clk, (kept_of_exec h).pending⟩, fun s hq => ?_⟩
  obtain ⟨hpending, hclk, _, _⟩ := keep_tick (Kept.refl s)
  refine ⟨tick s, step_of_empty_queue hq, hclk, hpending.trans hq, fun hoff => ?_⟩
  simp [tick, hoff]

/-- Settles O1, by the second case of `step`. -/
theorem stepRunsTheFrontCommand : Obligations.StepRunsTheFrontCommand := by
  unfold Obligations.StepRunsTheFrontCommand
  exact fun s c rest h => step_of_front h

end Sys2Proof.Machine
end

section
/-!
SUPPORT. Every command whose operands can occur answers. The idea: most commands end in one next state whatever they meet, so that only the
commands whose outcome itself branches need a word; of these five refuse, on operands that spell no command (log entry 1).
-/

namespace Sys2Proof.Machine

/-- An outcome is a next state. -/
def Answers (r : Out) : Prop := ∃ t, r = .next t

theorem answers_next (t : State) : Answers (.next t) := ⟨t, rfl⟩

theorem answers_ite {c : Prop} [Decidable c] {a b : Out} (ha : c → Answers a) (hb : ¬ c → Answers b) : Answers (if c then a else b) := by
  split
  · exact ha ‹_›
  · exact hb ‹_›

/-! ### Commands that branch and never refuse -/

theorem sync_answers (port : PortNo) (origin : Nat) (head : PtpHead) (twoStep : Bool) (s : State) :
    Answers (execSync port origin head twoStep s) :=
  answers_ite (fun _ => answers_next _) fun _ => answers_ite (fun _ => answers_next _) fun _ =>
    answers_ite (fun _ => answers_next _) fun _ => answers_next _

theorem announce_answers (port : PortNo) (a : AnnounceData) (s : State) : Answers (execAnnounce port a s) :=
  answers_ite (fun _ => answers_next _) fun _ => answers_ite (fun _ => answers_next _) fun _ =>
    answers_ite (fun _ => answers_next _) fun _ => answers_next _

theorem ppsEdge_answers (errPs : Int) (s : State) : Answers (execPpsEdge errPs s) :=
  answers_ite (fun _ => answers_next _) fun _ => answers_ite (fun _ => answers_next _) fun _ =>
    answers_ite (fun _ => answers_next _) fun _ => answers_ite (fun _ => answers_next _) fun _ =>
      answers_ite (fun _ => answers_next _) fun _ => answers_ite (fun _ => answers_next _) fun _ => answers_next _

theorem snapshot_answers (chain : Bool) (w : Word) (s : State) : Answers (execSnapshot chain w s) :=
  answers_ite (fun _ => answers_next _) fun _ => answers_next _

theorem idxDataRead_answers (chain : Bool) (s : State) : Answers (execIdxDataRead chain s) :=
  answers_ite (fun _ => answers_next _) fun _ => answers_next _

theorem idxDataWrite_answers (chain : Bool) (w : Word) (s : State) : Answers (execIdxDataWrite chain w s) :=
  answers_ite (fun _ => answers_next _) fun _ => answers_next _

theorem replay_answers (port : PortNo) (cw : BitVec 128) (s : State) : Answers (execReplay port cw s) :=
  answers_ite (fun _ => answers_next _) fun _ => answers_next _

/-! ### Commands that refuse operands of an impossible length (log entry 1) -/

theorem sensorSample_answers {temps : List Int} (h : temps.length = 76) (s : State) : Answers (execSensorSample temps s) :=
  answers_ite (fun hne => absurd h hne) fun _ => answers_ite (fun _ => answers_next _) fun _ => answers_next _

theorem badOp_answers {op : BitVec 8} (h : listedOp op.toNat = false) (s : State) : Answers (execBadOp op s) :=
  answers_ite (fun hlisted => absurd (h.symm.trans hlisted) (by decide)) fun _ => answers_next _

theorem cxlMemRead_answers {addr : Word} {len : Nat} (h : addr.toNat % 64 = 0 ∧ len = 64) (upsets : List Upset) (s : State) :
    Answers (execCxlMemRead addr len upsets s) :=
  answers_ite (fun hbad => by simp [h.1, h.2] at hbad) fun _ => answers_next _

theorem cxlMemWrite_answers {addr : Word} {data : List Byte} (h : addr.toNat % 64 = 0 ∧ data.length = 64) (enables : BitVec 64)
    (upsets : List Upset) (s : State) : Answers (execCxlMemWrite addr data enables upsets s) :=
  answers_ite (fun hbad => by simp [h.1, h.2] at hbad) fun _ => answers_next _

theorem packetTrailer_answers {port : PortNo} {payload : List Byte} (trailer : Word) (fixed bad : Nat) {s : State}
    (h : ∀ r, (s.port port.toNat).rx = some r → payload.length = payloadLen r.hdr) :
    Answers (execPacketTrailer port payload trailer fixed bad s) := by
  refine answers_ite (fun _ => answers_next _) fun _ => ?_
  split
  · exact answers_next _
  · next r hr => exact answers_ite (fun hne => absurd (h r hr) hne) fun _ => answers_next _

/-- A header is refused only where a port takes it and the payload for early use has another length than that port receives. -/
theorem packetHeader_answers {port : PortNo} {line : BitVec 256} {early : List Byte} {s : State}
    (h : s.portUp port.toNat = true → (s.port port.toNat).rx = none → (s.port port.toNat).waitReplay = false →
      (s.port port.toNat).cleared = false →
      hCrc (readHeader (s.port port.toNat) line).1 = headerCrc (readHeader (s.port port.toNat) line).1 →
      early.length = if earlyUse s port.toNat && scheduledClass (readHeader (s.port port.toNat) line).1
        then payloadLen (readHeader (s.port port.toNat) line).1 else 0) :
    Answers (execPacketHeader port ⟨line, early⟩ s) := by
  simp only [execPacketHeader]
  refine answers_ite (fun _ => answers_next _) fun htaken => ?_
  simp only [Bool.or_eq_true, Bool.not_eq_true', not_or, Bool.not_eq_false, Option.isSome_iff_ne_none, ne_eq, not_not,
    Bool.not_eq_true] at htaken
  obtain ⟨⟨hup, hidle⟩, hready⟩ := htaken
  cases hclear : (s.port port.toNat).cleared with
  | true => exact answers_ite (fun _ => answers_next _) fun _ => answers_next _
  | false =>
    simp only [Bool.false_eq_true, if_false]
    refine answers_ite (fun _ => answers_next _) fun hcrc => ?_
    exact answers_ite (fun hne => absurd (h hup hidle hready hclear (not_not.mp hcrc)).symm hne) fun _ => answers_next _

/-- Settles O4: the commands that refuse are those of the lemmas above, and their operands are what `Instr.wf` and the hypotheses ask. -/
theorem wellFormedCommandsAnswer : Obligations.WellFormedCommandsAnswer := by
  unfold Obligations.WellFormedCommandsAnswer
  intro c s hwf htrailer hheader
  cases c with
  | sync => exact sync_answers ..
  | announce => exact announce_answers ..
  | ppsEdge => exact ppsEdge_answers ..
  | snapshot => exact snapshot_answers ..
  | idxDataRead => exact idxDataRead_answers ..
  | idxDataWrite => exact idxDataWrite_answers ..
  | replay => exact replay_answers ..
  | sensorSample => exact sensorSample_answers (by simpa [Instr.wf] using hwf) s
  | badOp => exact badOp_answers (by simpa [Instr.wf, listedOp] using hwf) s
  | cxlMemRead => exact cxlMemRead_answers (by simpa [Instr.wf] using hwf) _ s
  | cxlMemWrite => exact cxlMemWrite_answers (by simpa [Instr.wf] using hwf) _ _ s
  | packetTrailer => exact packetTrailer_answers _ _ _ (htrailer _ _ _ _ _ · rfl)
  | packetHeader => exact packetHeader_answers (hheader _ _ _ rfl)
  | _ => exact ⟨_, rfl⟩

end Sys2Proof.Machine
end

section
/-!
SUPPORT. Power, temperature and health (R60 to R86, R397, R398).
-/

namespace Sys2Proof.Machine

/-! ### A mask written as a sum of powers of two -/

/-- The number whose bit i below n is f i. -/
def bitSum (f : Nat → Bool) (n : Nat) : Nat := ((List.range n).map fun i => if f i then 2 ^ i else 0).sum

theorem bitSum_succ (f : Nat → Bool) (n : Nat) : bitSum f (n + 1) = bitSum f n + if f n then 2 ^ n else 0 := by
  simp [bitSum, List.range_succ]

theorem bitSum_lt (f : Nat → Bool) (n : Nat) : bitSum f n < 2 ^ n := by
  induction n with
  | zero => simp [bitSum]
  | succ n ih => rw [bitSum_succ]; split <;> omega

/-- Each bit of the sum is the bit it was made of: the parts do not overlap. -/
theorem testBit_bitSum (f : Nat → Bool) (n j : Nat) : (bitSum f n).testBit j = (decide (j < n) && f j) := by
  induction n with
  | zero => simp [bitSum]
  | succ n ih =>
    have hlt := bitSum_lt f n
    rw [bitSum_succ]
    rcases Nat.lt_trichotomy j n with hj | rfl | hj
    · cases f n
      · simp [ih, hj, Nat.lt_succ_of_lt hj]
      · rw [if_pos rfl, Nat.add_comm, Nat.testBit_two_pow_add_gt hj, ih]
        simp [hj, Nat.lt_succ_of_lt hj]
    · cases f j
      · simpa using ih
      · rw [if_pos rfl, Nat.add_comm, Nat.testBit_two_pow_add_eq, ih]
        simp
    · have hsum : bitSum f n + (if f n then 2 ^ n else 0) < 2 ^ j := by
        rw [← bitSum_succ]
        exact (bitSum_lt f (n + 1)).trans_le (Nat.pow_le_pow_right (by decide) hj)
      rw [Nat.testBit_lt_two_pow hsum]
      simp [Nat.not_lt.mpr (Nat.succ_le_of_lt hj)]

/-- The warning mask holds the warning bit of each group (R85). -/
theorem warnMaskOf_getLsbD (rs : List (Nat × Int)) (old : BitVec 7) {g : Nat} (h₁ : 1 ≤ g) (h₇ : g ≤ 7) :
    (warnMaskOf rs old).getLsbD (g - 1) = warnBit rs old g := by
  have hmask : warnMaskOf rs old = BitVec.ofNat 7 (bitSum (fun i => warnBit rs old (i + 1)) 7) := rfl
  have hg : g - 1 < 7 := by omega
  rw [hmask, BitVec.getLsbD_ofNat, testBit_bitSum, Nat.sub_add_cancel h₁]
  simp [hg]

/-! ### The worst term of the health score -/

/-- What is known of the leader after the first n contributions: where it stands, that it is a largest one and the first of its size. -/
structure LeadsFirst (cs : List Nat) (n : Nat) (b : Nat × Nat) : Prop where
  pos : 1 ≤ b.2
  le : b.2 ≤ 7
  value : b.1 = cs.getD (b.2 - 1) 0
  largest : ∀ j < n, cs.getD j 0 ≤ b.1
  first : ∀ j < b.2 - 1, cs.getD j 0 < b.1

theorem LeadsFirst.start (cs : List Nat) : LeadsFirst cs 0 (cs.headD 0, 1) :=
  ⟨le_rfl, Nat.le_of_ble_eq_true rfl, by cases cs <;> rfl, by simp, by simp⟩

/-- The next contribution takes the lead only when it is larger than every one before. -/
theorem LeadsFirst.step {cs : List Nat} {n : Nat} {b : Nat × Nat} (hn : n < 7) (h : LeadsFirst cs n b) :
    LeadsFirst cs (n + 1) (if b.1 < cs.getD n 0 then (cs.getD n 0, n + 1) else b) := by
  obtain ⟨hpos, hle, hvalue, hlargest, hfirst⟩ := h
  split
  · next hnew =>
    exact ⟨by simp, hn, rfl, fun j hj => (Nat.lt_succ_iff_lt_or_eq.mp hj).elim (fun h => ((hlargest j h).trans_lt hnew).le) (· ▸ le_rfl),
      fun j hj => (hlargest j hj).trans_lt hnew⟩
  · next hold =>
    exact ⟨hpos, hle, hvalue, fun j hj => (Nat.lt_succ_iff_lt_or_eq.mp hj).elim (hlargest j) (· ▸ Nat.le_of_not_lt hold), hfirst⟩

/-- The fold of `worstTerm` over the first n terms keeps the first of the largest contributions. -/
theorem leadsFirst_foldl_take {cs : List Nat} (hlen : cs.length = 7) {n : Nat} (hn : n ≤ 7) :
    LeadsFirst cs n (((cs.zip (List.range 7)).take n).foldl (fun b e => if b.1 < e.1 then (e.1, e.2 + 1) else b) (cs.headD 0, 1)) := by
  induction n with
  | zero => exact .start cs
  | succ n ih =>
    have hget : n < (cs.zip (List.range 7)).length := by simp [hlen]; omega
    have hcs : cs[n]'(by omega) = cs.getD n 0 := by simp [show n < cs.length by omega]
    rw [List.take_succ_eq_append_getElem hget, List.foldl_append]
    simpa [hcs] using (ih (by omega)).step (by omega)

/-- The worst term is the first of the largest contributions (R398). -/
theorem leadsFirst_worstTerm {cs : List Nat} (hlen : cs.length = 7) : ∃ v, LeadsFirst cs 7 (v, worstTerm cs) := by
  have h := leadsFirst_foldl_take hlen le_rfl
  rw [List.take_of_length_le (by simp [hlen])] at h
  exact ⟨_, h⟩

/-! ### Samples (R84, R85) -/

theorem any_isCrit_eq_false {rs : List (Nat × Int)} (h : ∀ e ∈ rs, isCrit e = false) : rs.any isCrit = false := by
  simpa [List.any_eq_false] using h

/-- A sample without a critical sensor is shown, and then its trips are taken. -/
theorem execSensorSample_below_critical {s : State} {temps : List Int} (hlen : temps.length = 76) (hon : s.pwr.standbyOn = true)
    (h : ∀ e ∈ readings s temps, isCrit e = false) :
    exec (.sensorSample temps) s = .next (takeTrip (readings s temps) (sampled temps s.pwr.trip s.pwr.tripGroup s)) := by
  have hcrit := any_isCrit_eq_false h
  have hshown : showSample (readings s temps) s = sampled temps s.pwr.trip s.pwr.tripGroup s := by
    simp only [showSample, hcrit, sampled, State.setPwr, showTemp]
  show execSensorSample _ s = _
  simp only [execSensorSample, hlen, hon, hcrit, hshown, ne_eq, not_true_eq_false, Bool.not_true, Bool.false_eq_true, if_false]

/-- With a trip latched, or no sensor that trips, a sample changes nothing more. -/
theorem takeTrip_of_latched {rs : List (Nat × Int)} {s : State} (h : s.pwr.trip = true ∨ ∀ e ∈ rs, isTrip e = false) :
    takeTrip rs s = s := by
  unfold takeTrip
  split
  · rfl
  · next g gs hgs =>
    rcases h with h | h
    · rw [if_pos h]
    · rw [List.filter_eq_nil_iff.mpr (by simpa using h)] at hgs
      cases hgs

/-- The first trip latches with the group of the first sensor that trips, and makes a quench due while the main domain is on. -/
theorem takeTrip_first {rs rest : List (Nat × Int)} {e : Nat × Int} {s : State} (htrip : s.pwr.trip = false)
    (h : rs.filter isTrip = e :: rest) :
    takeTrip rs s = if s.pwr.mainOn then quenchDue 0x40 (sensorGroup e.1) (s.setPwr fun p => { p with trip := true, tripGroup := sensorGroup e.1 })
      else s.setPwr fun p => { p with trip := true, tripGroup := sensorGroup e.1 } := by
  simp only [takeTrip, h, List.map_cons, htrip, Bool.false_eq_true, if_false, State.setPwr_pwr]
  rfl

/-! ### The averaging second (R68, R397) -/

theorem execAveragingSecond_standby {s : State} (hon : s.pwr.standbyOn = true) (hoff : s.pwr.mainOn = false) (r : SecondReadings) :
    exec (.averagingSecond r) s = .next (s.setPwr (averaged r)) := by
  show execAveragingSecond _ s = _
  simp only [execAveragingSecond, hon, hoff, Bool.not_true, Bool.false_eq_true, if_false, State.setPwr_pwr]
  rfl

theorem execAveragingSecond_main {s : State} (hon : s.pwr.standbyOn = true) (hmain : s.pwr.mainOn = true) (r : SecondReadings) :
    exec (.averagingSecond r) s = .next (healthSecond r (s.setPwr (averaged r))) := by
  show execAveragingSecond _ s = _
  simp only [execAveragingSecond, hon, hmain, Bool.not_true, Bool.false_eq_true, if_false, if_true, State.setPwr_pwr]
  rfl

/-- The penalties of a second do not depend on the averages that the second stores. -/
theorem penalties_averaged (r : SecondReadings) (s : State) : penalties r (s.setPwr (averaged r)) = penalties r s := rfl

/-- Settles O15: a sample is shown and its trips are taken; the health score's worst term is the first of the largest. -/
theorem sensorsAndHealth : Obligations.SensorsAndHealth := by
  unfold Obligations.SensorsAndHealth
  intro s hon
  refine ⟨fun temps hlen hcrit => ⟨fun htrip => ?_, fun htrip e rest hfirst => ?_⟩, fun rs old g => warnMaskOf_getLsbD rs old,
    fun r hoff => execAveragingSecond_standby hon hoff r, fun r hmain => execAveragingSecond_main hon hmain r, fun cs hlen => ?_⟩
  · rw [execSensorSample_below_critical hlen hon hcrit]
    exact congrArg _ (takeTrip_of_latched htrip)
  · rw [execSensorSample_below_critical hlen hon hcrit]
    exact congrArg _ (takeTrip_first htrip hfirst)
  · obtain ⟨v, hpos, hle, hvalue, hlargest, hfirst⟩ := leadsFirst_worstTerm hlen
    exact ⟨hpos, hle, hvalue ▸ hlargest, hvalue ▸ hfirst⟩

end Sys2Proof.Machine
end

section
/-!
SUPPORT. The causes that turn the main domain off, and the standby domain's own events (R60 to R77, R85, R90, R93, R466).
-/

namespace Sys2Proof.Machine

/-- With the main domain on, a turn-off gives the powered-off state of its cause (R62, R466). -/
theorem turnOff_of_mainOn {s : State} (cause : Nat) (h : s.pwr.mainOn = true) : turnOff cause s = poweredOff cause [] s.pwr s := by
  simp only [turnOff, h, if_true]
  rfl

/-- An input voltage outside both bands sets neither range bit (R60, R68). -/
theorem setVin_outside {mv : Nat} (s : State) (h : mv < 45000 ∨ 62000 < mv) :
    setVin mv s = s.setPwr fun p => { p with vinMv := mv, vinLow := false, vinHigh := false } := by
  have hlow : (decide (45000 ≤ mv) && decide (mv < 48000)) = false := by simp; omega
  have hhigh : (decide (60000 < mv) && decide (mv ≤ 62000)) = false := by simp; omega
  simp only [setVin, hlow, hhigh, State.setPwr]

theorem setVin_eq (mv : Nat) (s : State) : setVin mv s = s.setPwr fun p =>
    { p with vinMv := mv, vinLow := decide (45000 ≤ mv ∧ mv < 48000), vinHigh := decide (60000 < mv ∧ mv ≤ 62000) } := by
  simp only [setVin, State.setPwr, Bool.decide_and]

/-- A good frame for this module is acted on, after its copy downstream (R90, R427). -/
theorem onFrame_received {s : State} {dst : BitVec 8} {code : Nat} {payload : List Byte} {crc : BitVec 16}
    (h : received s dst code payload crc) (f : State → State) :
    onFrame s dst code payload crc true f = .next (f { s with out := relayed s dst code payload ++ s.out }) := by
  obtain ⟨hon, hcrc⟩ := h
  cases hrep : s.chain.repeating <;> simp [onFrame, frameOk, hon, hcrc, relayed, hrep, State.emit]

/-- Settles O11: each event comes to `turnOff` with the main domain on. -/
theorem turnOffCauses : Obligations.TurnOffCauses := by
  unfold Obligations.TurnOffCauses
  intro s hmain hon
  refine ⟨fun mv hmv => ?_, fun mv hmv => ?_, ?_, ?_, fun temps hlen hcrit => ?_, ?_, fun crc hframe => ?_⟩
  · have hcond : (s.pwr.standbyOn && decide (mv < 45000)) = true := by simp [hon, hmv]
    calc exec (.inputLow mv) s = .next (if s.pwr.standbyOn && decide (mv < 45000) then turnOff 0x01 (setVin mv s) else s) := rfl
      _ = _ := by rw [if_pos hcond, setVin_outside s (.inl hmv)]; exact congrArg _ (turnOff_of_mainOn 0x01 hmain)
  · have hcond : (s.pwr.standbyOn && decide (62000 < mv)) = true := by simp [hon]; omega
    calc exec (.inputHigh mv) s = .next (if s.pwr.standbyOn && decide (62000 < mv) then turnOff 0x02 (setVin mv s) else s) := rfl
      _ = _ := by rw [if_pos hcond, setVin_outside s (.inr hmv)]; exact congrArg _ (turnOff_of_mainOn 0x02 hmain)
  · exact congrArg Host.Outcome.next (turnOff_of_mainOn 0x03 hmain)
  · exact congrArg Host.Outcome.next (turnOff_of_mainOn (s := s.setPwr fun p => { p with presStable := false }) 0x04 hmain)
  · have hany : (readings s temps).any isCrit = true := List.any_eq_true.mpr hcrit
    have hshown : (showSample (readings s temps) s).pwr.mainOn = true := hmain
    have hexec : exec (.sensorSample temps) s = .next (turnOff 0x05 (showSample (readings s temps) s)) := by
      show execSensorSample _ s = _
      simp only [execSensorSample, hlen, hon, hany, ne_eq, not_true_eq_false, Bool.not_true, Bool.false_eq_true, if_false, if_true]
    rw [hexec, turnOff_of_mainOn 0x05 hshown]
    simp only [showSample, hany]
    rfl
  · calc exec .modResetN s = .next (if s.pwr.standbyOn then clearPower (clearMain (turnOff 0x06 s)) else s) := rfl
      _ = _ := by
        rw [if_pos hon, turnOff_of_mainOn 0x06 hmain, ← hon]
        rfl
  · have hmine : frameMine s s.chain.addr = true := beq_self_eq_true _
    calc exec (.powerOff s.chain.addr crc) s
        = onFrame s s.chain.addr 0x11 [] crc (frameMine s s.chain.addr) (fun s => turnOff 0x07 (ackFrame s)) := rfl
      _ = _ := by
        rw [hmine, onFrame_received hframe]
        exact congrArg _ (turnOff_of_mainOn 0x07 hmain)

/-- Settles O12, event by event. -/
theorem standbyDomain : Obligations.StandbyDomain := by
  unfold Obligations.StandbyDomain
  refine fun s => ⟨fun mv hoff hmv => ?_, fun hon => ?_, fun mv hon => ?_, fun hon => ?_, fun hon hmain => ?_⟩
  · have hcond : (!s.pwr.standbyOn && decide (46500 ≤ mv)) = true := by simp [hoff, hmv]
    have hlow : decide (45000 ≤ mv ∧ mv < 48000) = decide (mv < 48000) := by
      have hmv' : 45000 ≤ mv := by omega
      simp [hmv']
    calc exec (.standbyStart mv) s = .next (if !s.pwr.standbyOn && decide (46500 ≤ mv) then standbyUp mv s else s) := rfl
      _ = _ := by
        rw [if_pos hcond, standbyUp, setVin_eq, hlow]
        rfl
  · exact congrArg Host.Outcome.next (if_pos hon)
  · calc exec (.extendedRange mv) s = .next (if s.pwr.standbyOn then setVin mv s else s) := rfl
      _ = _ := by
        rw [if_pos hon, setVin_eq]
        rfl
  · exact congrArg Host.Outcome.next (if_pos hon)
  · calc exec .standbyStop s = .next (if s.pwr.standbyOn then
          { turnOff 0x01 s with chain := .reset, pwr := .reset, fuse := { (turnOff 0x01 s).fuse with busy := false } } else s) := rfl
      _ = _ := by
        rw [if_pos hon, turnOff_of_mainOn 0x01 hmain]
        rfl

end Sys2Proof.Machine
end

section
/-!
SUPPORT. Frames of the management chain (R90 to R93, R103, R110, R427 to R429).
-/

namespace Sys2Proof.Machine

/-- A frame with a bad check, or for another module, is only passed on. -/
theorem onFrame_not_mine {s : State} {dst : BitVec 8} {code : Nat} {payload : List Byte} {crc : BitVec 16} {mine : Bool}
    (hon : s.pwr.standbyOn = true) (h : crc ≠ crc16 (frameBytes dst code payload) ∨ mine = false) (f : State → State) :
    onFrame s dst code payload crc mine f = .next { s with out := relayed s dst code payload ++ s.out } := by
  have hignored : (frameOk s dst code payload crc && mine) = false := by
    rcases h with h | h
    · simp [frameOk, hon, h]
    · simp [h]
  cases hrep : s.chain.repeating <;> simp [onFrame, hignored, hon, relayed, hrep, State.emit]

/-- A good frame that meets its command's own condition is acted on. -/
theorem onFrame_of_mine {s : State} {dst : BitVec 8} {code : Nat} {payload : List Byte} {crc : BitVec 16} {mine : Bool}
    (h : received s dst code payload crc) (hmine : mine = true) (f : State → State) :
    onFrame s dst code payload crc mine f = .next (f { s with out := relayed s dst code payload ++ s.out }) := by
  subst hmine
  exact onFrame_received h f

@[simp] theorem frameMine_self (s : State) : frameMine s s.chain.addr = true := beq_self_eq_true _

/-- An address is taken: TOKEN goes on with the repeater open, or END comes back from a terminal (R91). -/
theorem assign_of_valid {a : BitVec 8} (h₀ : a ≠ 0) (h₁ : a ≠ 255) {s : State} (hrep : s.chain.repeating = false) :
    assign a s = { s with
      chain := { s.chain with addr := a, repeating := !s.fuse.terminal }
      out := (if s.fuse.terminal then .chainUp a 0x85 [a] else .chainDown 0 0x04 []) :: .chainUp a 0x83 [a] :: s.out } := by
  have hvalid : ¬ ((decide (a = 0) || decide (a = 255)) = true) := by simpa using ⟨h₀, h₁⟩
  unfold assign
  rw [if_neg hvalid]
  cases hterm : s.fuse.terminal <;> simp [ackFrame, reply, State.setChain, State.emit, hterm, hrep]

/-- A change of the terminal role is allowed by its allowance, the ledger and its value (R110). -/
theorem terminalStatus_of_allowed {s : State} {v : BitVec 8} (hopened : s.fuse.opened = none) (hused : s.fuse.terminalUsed < 8)
    (hroom : s.fuse.records.length < 96) (hv : v = 0 ∧ s.fuse.terminal = true ∨ v = 1 ∧ s.fuse.terminal = false) :
    terminalStatus v s = 0 := by
  rcases hv with ⟨rfl, hterm⟩ | ⟨rfl, hterm⟩ <;>
    simp [terminalStatus, fuseStatus, settingValue, exhausted, hopened, hterm, Nat.not_le.mpr hused, Nat.not_le.mpr hroom]

/-- No condition of R93 fails. -/
theorem powerOnReason_of_ready {s : State} (hoff : s.pwr.mainOn = false) (hvin : 46500 ≤ s.pwr.vinMv) (hpres : s.pwr.presStable = true)
    (hcrit : s.pwr.critical = false) : powerOnReason s = 0 := by
  simp [powerOnReason, hoff, hpres, hcrit, Nat.not_lt.mpr hvin]

/-- The first condition of R93 that fails is the reason. -/
theorem powerOnReason_of_refused {s : State} {reason : Nat}
    (h : s.pwr.mainOn = true ∧ reason = 0x01 ∨
      s.pwr.mainOn = false ∧ s.pwr.vinMv < 46500 ∧ reason = 0x02 ∨
      s.pwr.mainOn = false ∧ 46500 ≤ s.pwr.vinMv ∧ s.pwr.presStable = false ∧ reason = 0x03 ∨
      s.pwr.mainOn = false ∧ 46500 ≤ s.pwr.vinMv ∧ s.pwr.presStable = true ∧ s.pwr.critical = true ∧ reason = 0x04) :
    powerOnReason s = reason ∧ reason ≠ 0 := by
  rcases h with ⟨hmain, rfl⟩ | ⟨hmain, hvin, rfl⟩ | ⟨hmain, hvin, hpres, rfl⟩ | ⟨hmain, hvin, hpres, hcrit, rfl⟩
  · simp [powerOnReason, hmain]
  · simp [powerOnReason, hmain, hvin]
  · simp [powerOnReason, hmain, Nat.not_lt.mpr hvin, hpres]
  · simp [powerOnReason, hmain, Nat.not_lt.mpr hvin, hpres, hcrit]

/-- Settles O13: each frame is received and acted on. -/
theorem chainFrames : Obligations.ChainFrames := by
  unfold Obligations.ChainFrames
  intro s crc hon
  refine ⟨fun a h₀ h₁ haddr hrep hframe => ?_, fun dst haddr hframe => ?_, fun hframe => ?_, fun sec hframe => ?_, fun hframe => ?_,
    fun v hframe hopened hused hroom hv => ?_, fun hframe haddr hoff hvin hpres hcrit => ?_⟩
  · have hown : relayed s 0 0x02 [a] = [] := by simp [relayed, hrep]
    refine (onFrame_of_mine hframe (by simp [haddr]) (assign a)).trans ?_
    rw [hown]
    exact congrArg _ (assign_of_valid h₀ h₁ hrep)
  · refine (onFrame_of_mine hframe (by simp [haddr]) presentFrame).trans ?_
    simp only [presentFrame, reply, State.emit, present, haddr]
  · exact onFrame_of_mine hframe rfl clearAddress
  · show execSeconds _ _ _ s = _
    rw [execSeconds, onFrame_of_mine hframe (frameMine_self s)]
    rfl
  · show execStatusReq _ _ s = _
    rw [execStatusReq, onFrame_of_mine hframe (frameMine_self s)]
    rfl
  · show execSetTerminal _ _ _ s = _
    rw [execSetTerminal, onFrame_of_mine hframe (frameMine_self s)]
    have hallowed : terminalStatus v { s with out := relayed s s.chain.addr 0x12 [v] ++ s.out } = 0 :=
      terminalStatus_of_allowed hopened hused hroom hv
    simp only [hallowed, ne_eq, not_true_eq_false, if_false]
    rfl
  · have hmine : (frameMine s s.chain.addr && s.chain.addr != 0) = true := by simpa using haddr
    show execPowerOn _ _ s = _
    rw [execPowerOn, onFrame_of_mine hframe hmine]
    have hready : powerOnReason { s with out := relayed s s.chain.addr 0x10 [] ++ s.out } = 0 :=
      powerOnReason_of_ready hoff hvin hpres hcrit
    simp only [hready, ne_eq, not_true_eq_false, if_false]
    simp only [powerUp, clearPower, clearMain, ackFrame, reply, State.emit, hon, hpres, hcrit]
    rfl

/-- Settles O14: such a frame is not taken, and a POWER_ON that is taken gives the first condition that fails. -/
theorem framesRefusedOrNotMine : Obligations.FramesRefusedOrNotMine := by
  unfold Obligations.FramesRefusedOrNotMine
  refine fun s dst crc hon => ⟨fun c code payload hc h => ?_, fun reason hframe hmine haddr hreason => ?_⟩
  · have hother : dst ≠ s.chain.addr → frameMine s dst = false := fun h => beq_false_of_ne h
    rcases hc with ⟨rfl, rfl, rfl⟩ | ⟨rfl, rfl, rfl⟩ | ⟨rfl, rfl, rfl⟩ | ⟨rfl, rfl, rfl⟩ | ⟨rfl, rfl, rfl⟩ | ⟨v, rfl, rfl, rfl⟩ |
      ⟨sec, rfl, rfl, rfl⟩
    · show execToken _ _ s = _
      rw [execToken, onFrame_not_mine hon (h.imp_right fun h => absurd rfl h.2.1)]
    · show execClear _ _ s = _
      rw [execClear, onFrame_not_mine hon (h.imp_right fun h => absurd rfl h.2.2.1)]
    · show execPowerOn _ _ s = _
      rw [execPowerOn, onFrame_not_mine hon (h.imp_right fun h => by rw [hother h.1, Bool.false_and])]
    · show execPowerOff _ _ s = _
      rw [execPowerOff, onFrame_not_mine hon (h.imp_right fun h => hother h.1)]
    · show execStatusReq _ _ s = _
      rw [execStatusReq, onFrame_not_mine hon (h.imp_right fun h => hother h.1)]
    · show execSetTerminal _ _ _ s = _
      rw [execSetTerminal, onFrame_not_mine hon (h.imp_right fun h => hother h.1)]
    · show execSeconds _ _ _ s = _
      rw [execSeconds, onFrame_not_mine hon (h.imp_right fun h => hother h.1)]
  · obtain ⟨hfirst, hne⟩ := powerOnReason_of_refused hreason
    have hfails : powerOnReason { s with out := relayed s dst 0x10 [] ++ s.out } = reason := hfirst
    have htaken : (frameMine s dst && dst != 0) = true := by simpa [hmine] using haddr
    subst hmine
    show execPowerOn _ _ s = _
    rw [execPowerOn, onFrame_of_mine hframe htaken]
    simp only [hfails, ne_eq, hne, not_false_eq_true, if_true]
    rfl

end Sys2Proof.Machine
end

section
/-!
SUPPORT. The ledger's shared operations change nothing but the ledger (R366 to R385), and what a schedule violation changes (R229 to R232).
-/

namespace Sys2Proof.Machine

/-! ### The commit ledger -/

/-- Nothing but the ledger differs. -/
def LedgerOnly (s t : State) : Prop := t = { s with ledger := t.ledger }

theorem LedgerOnly.refl (s : State) : LedgerOnly s s := rfl

theorem LedgerOnly.trans {s t u : State} (h : LedgerOnly s t) (k : LedgerOnly t u) : LedgerOnly s u := by
  unfold LedgerOnly at *
  rw [k, h]

theorem LedgerOnly.setLedger (s : State) (f : Ledger → Ledger) : LedgerOnly s (s.setLedger f) := rfl

theorem LedgerOnly.setEntry (s : State) (e : Nat) (f : LedgerEntry → LedgerEntry) : LedgerOnly s (s.setEntry e f) := rfl

theorem LedgerOnly.ite {s t u : State} {c : Prop} [Decidable c] (ht : LedgerOnly s t) (hu : LedgerOnly s u) :
    LedgerOnly s (if c then t else u) := by
  split
  · exact ht
  · exact hu

theorem LedgerOnly.each {α : Type} {f : α → State → State} (hf : ∀ x t, LedgerOnly t (f x t)) (l : List α) (s : State) :
    LedgerOnly s (each l f s) := by
  induction l generalizing s with
  | nil => exact .refl s
  | cons x l ih => exact (hf x s).trans (ih (f x s))

theorem queueNotice_ledgerOnly (port kind heat : Nat) (item : BitVec 128) (s : State) : LedgerOnly s (queueNotice port kind heat item s) :=
  .ite (.refl s) (.setLedger s _)

theorem announceEntry_ledgerOnly (e verdict cause detail : Nat) (s : State) : LedgerOnly s (announceEntry e verdict cause detail s) :=
  .each (fun _ _ => queueNotice_ledgerOnly ..) _ s

theorem holdRetracted_ledgerOnly (cause detail entry : Nat) (skip : Option Nat) (s : State) :
    LedgerOnly s (holdRetracted cause detail entry skip s) :=
  .ite (.refl s) ((LedgerOnly.setLedger s _).trans (.each (fun _ _ => queueNotice_ledgerOnly ..) _ _))

theorem holdOwn_ledgerOnly (cause detail entry : Nat) (skip : Option Nat) (s : State) : LedgerOnly s (holdOwn cause detail entry skip s) :=
  .ite (.refl s) (holdRetracted_ledgerOnly ..)

theorem recordRetract_ledgerOnly (cause detail entry : Nat) (s : State) : LedgerOnly s (recordRetract cause detail entry s) :=
  .ite (.refl s) (.setLedger s _)

theorem lowerCause_ledgerOnly (e cause detail : Nat) (s : State) : LedgerOnly s (lowerCause e cause detail s) := rfl

theorem retractOne_ledgerOnly (e cause detail : Nat) (skip : Option Nat) (acts : EntryState → Bool) (s : State) :
    LedgerOnly s (retractOne e cause detail skip acts s) := by
  refine .ite ?_ (.ite ?_ (.refl s))
  · refine LedgerOnly.trans ?_ (holdOwn_ledgerOnly ..)
    refine LedgerOnly.trans ?_ (recordRetract_ledgerOnly ..)
    exact LedgerOnly.trans (by rfl) (announceEntry_ledgerOnly ..)
  · exact LedgerOnly.trans (by rfl) (announceEntry_ledgerOnly ..)

theorem retractDeps_ledgerOnly (n : Nat) (s : State) : LedgerOnly s (retractDeps n s) := by
  induction n generalizing s with
  | zero => exact .refl s
  | succ n ih => exact .ite (.refl s) ((LedgerOnly.each (fun _ _ => retractOne_ledgerOnly ..) _ s).trans (ih _))

theorem retractEntries_ledgerOnly (es : List Nat) (cause detail : Nat) (skip : Option Nat) (acts : EntryState → Bool) (s : State) :
    LedgerOnly s (retractEntries es cause detail skip acts s) :=
  (LedgerOnly.each (fun _ _ => retractOne_ledgerOnly ..) es s).trans (retractDeps_ledgerOnly ..)

/-- A mark changes nothing but the ledger (R371, R380, R382). -/
theorem mark_ledgerOnly (cause detail : Nat) (es : List Nat) (s : State) : LedgerOnly s (mark cause detail es s) := by
  refine .ite (.setLedger s _) (LedgerOnly.trans ?_ (holdOwn_ledgerOnly ..))
  exact .ite ((retractEntries_ledgerOnly ..).trans (recordRetract_ledgerOnly ..)) (retractEntries_ledgerOnly ..)

@[simp] theorem mark_clk (cause detail : Nat) (es : List Nat) (s : State) : (mark cause detail es s).clk = s.clk := by
  rw [mark_ledgerOnly cause detail es s]

@[simp] theorem mark_station (cause detail : Nat) (es : List Nat) (s : State) (a : Nat) : (mark cause detail es s).station a = s.station a := by
  rw [mark_ledgerOnly cause detail es s]
  rfl

/-! ### Violations -/

@[simp] theorem quenchDue_clk (code unit : Nat) (s : State) : (quenchDue code unit s).clk = s.clk := rfl
@[simp] theorem quenchDue_station (code unit : Nat) (s : State) (a : Nat) : (quenchDue code unit s).station a = s.station a := rfl

/-- A violation takes no time. -/
@[simp] theorem violateAt_clk (a code place pour clk heat : Nat) (s : State) : (violateAt a code place pour clk heat s).clk = s.clk := by
  unfold violateAt
  dsimp only
  split
  · rfl
  · split <;> simp

/-- An update of a station that leaves its operations leaves those of every station. -/
theorem setStation_ops (s : State) (a : Nat) {f : Station → Station} (hf : ∀ x, (f x).ops = x.ops) (b : Nat) :
    ((s.setStation a f).station b).ops = (s.station b).ops := by
  by_cases hb : b = a
  · subst hb
    rw [State.setStation_station, hf]
  · rw [State.setStation_station_ne _ _ _ hb]

/-- A violation leaves the unfinished operations of every station. -/
@[simp] theorem violateAt_ops (a code place pour clk heat : Nat) (s : State) (b : Nat) :
    ((violateAt a code place pour clk heat s).station b).ops = (s.station b).ops := by
  have hrecord (x : Station) : (if x.violValid = true then x else
      { x with violValid := true, violCode := code, violPlace := place, violPour := pour, violClk := clk, violHeat := heat }).ops = x.ops := by
    split <;> rfl
  unfold violateAt
  dsimp only
  split
  · exact setStation_ops _ _ (by intro; rfl) _
  · split
    · rw [quenchDue_station, mark_station]
      exact (setStation_ops _ _ hrecord _).trans (setStation_ops _ _ (by intro; rfl) _)
    · rw [mark_station]
      exact (setStation_ops _ _ hrecord _).trans (setStation_ops _ _ (by intro; rfl) _)

@[simp] theorem violate_clk (a code place : Nat) (s : State) : (violate a code place s).clk = s.clk := violateAt_clk ..
@[simp] theorem violate_ops (a code place : Nat) (s : State) (b : Nat) : ((violate a code place s).station b).ops = (s.station b).ops :=
  violateAt_ops ..

end Sys2Proof.Machine
end

section
/-!
SUPPORT. The issue of an instruction (R215 to R224, R229, R230). The idea: where nothing injects and no configuration word is faulty, an issue is
its wait taken and its signal fired (`issued`), the instruction's own effect, and the engine steps of this clk; an effect that starts no
operation leaves the engine as quiet as it was.
-/

namespace Sys2Proof.Machine

/-! ### Signals and waits change the signal net alone -/

theorem sendSignal_eq (due a : Nat) (k : SigKind) (place : Option Nat) (s : State) : ∃ g, sendSignal due a k place s = s.setFab g := ⟨_, rfl⟩

theorem fireSignal_eq (a : Nat) (word : Word) (late : Bool) (t place : Nat) (s : State) :
    ∃ g, fireSignal a word late t place s = s.setFab g := by
  unfold fireSignal
  split
  · exact ⟨id, rfl⟩
  · dsimp only
    split
    · exact sendSignal_eq ..
    · exact ⟨id, rfl⟩

theorem takeWait_eq (a place : Nat) (word : Word) (s : State) : ∃ g, takeWait a place word s = s.setFab g := by
  unfold takeWait
  dsimp only
  split
  · exact ⟨id, rfl⟩
  · split
    · split
      · exact sendSignal_eq ..
      · exact ⟨id, rfl⟩
    · exact sendSignal_eq ..
    · exact ⟨id, rfl⟩

@[simp] theorem sendSignal_clk (due a : Nat) (k : SigKind) (place : Option Nat) (s : State) : (sendSignal due a k place s).clk = s.clk := rfl
@[simp] theorem sendSignal_station (due a : Nat) (k : SigKind) (place : Option Nat) (s : State) (b : Nat) :
    (sendSignal due a k place s).station b = s.station b := rfl

@[simp] theorem fireSignal_clk (a : Nat) (word : Word) (late : Bool) (t place : Nat) (s : State) :
    (fireSignal a word late t place s).clk = s.clk := by
  obtain ⟨g, hg⟩ := fireSignal_eq a word late t place s
  rw [hg, State.setFab_clk]

@[simp] theorem fireSignal_station (a : Nat) (word : Word) (late : Bool) (t place : Nat) (s : State) (b : Nat) :
    (fireSignal a word late t place s).station b = s.station b := by
  obtain ⟨g, hg⟩ := fireSignal_eq a word late t place s
  rw [hg]
  rfl

@[simp] theorem takeWait_clk (a place : Nat) (word : Word) (s : State) : (takeWait a place word s).clk = s.clk := by
  obtain ⟨g, hg⟩ := takeWait_eq a place word s
  rw [hg, State.setFab_clk]

/-! ### What every issue does -/

/-- An issue changes its station's sequencer and the signal net alone. -/
theorem issued_eq (u : State) (a : Nat) : ∃ g, issued u a =
    (u.setFab g).setStation a fun x => { x with pc := (x.pc + 1) % 16384, readyAt := u.clk + 1, waitSince := none, seq := .run } := by
  obtain ⟨g, hg⟩ := takeWait_eq a (u.station a).pc (wordAt u a) u
  obtain ⟨k, hk⟩ := fireSignal_eq a (wordAt u a) false u.clk (u.station a).pc (u.setFab g)
  refine ⟨k ∘ g, ?_⟩
  rw [issued, hg, hk]
  rfl

/-- The station once its sequencer has gone on. -/
theorem issued_station (u : State) (a : Nat) : (issued u a).station a =
    { u.station a with pc := ((u.station a).pc + 1) % 16384, readyAt := u.clk + 1, waitSince := none, seq := .run } := by
  obtain ⟨g, hg⟩ := issued_eq u a
  rw [hg, State.setStation_station]
  rfl

@[simp] theorem issued_ops (u : State) (a : Nat) : ((issued u a).station a).ops = (u.station a).ops := by rw [issued_station]

section
variable (u : State) (a : Nat)
@[simp] theorem issued_clk : (issued u a).clk = u.clk := by obtain ⟨g, hg⟩ := issued_eq u a; rw [hg]; rfl
@[simp] theorem issued_boot : (issued u a).boot = u.boot := by obtain ⟨g, hg⟩ := issued_eq u a; rw [hg]; rfl
@[simp] theorem issued_fuse : (issued u a).fuse = u.fuse := by obtain ⟨g, hg⟩ := issued_eq u a; rw [hg]; rfl
@[simp] theorem issued_job : (issued u a).job = u.job := by obtain ⟨g, hg⟩ := issued_eq u a; rw [hg]; rfl
@[simp] theorem issued_cfg : (issued u a).cfg = u.cfg := by obtain ⟨g, hg⟩ := issued_eq u a; rw [hg]; rfl
@[simp] theorem issued_par : (issued u a).par = u.par := by obtain ⟨g, hg⟩ := issued_eq u a; rw [hg]; rfl
@[simp] theorem issued_inj : (issued u a).inj = u.inj := by obtain ⟨g, hg⟩ := issued_eq u a; rw [hg]; rfl
@[simp] theorem issued_ledger : (issued u a).ledger = u.ledger := by obtain ⟨g, hg⟩ := issued_eq u a; rw [hg]; rfl
@[simp] theorem issued_ports : (issued u a).ports = u.ports := by obtain ⟨g, hg⟩ := issued_eq u a; rw [hg]; rfl
@[simp] theorem issued_mem : (issued u a).mem = u.mem := by obtain ⟨g, hg⟩ := issued_eq u a; rw [hg]; rfl
@[simp] theorem issued_crucibles : (issued u a).crucibles = u.crucibles := by obtain ⟨g, hg⟩ := issued_eq u a; rw [hg]; rfl
@[simp] theorem issued_members : (issued u a).members = u.members := by obtain ⟨g, hg⟩ := issued_eq u a; rw [hg]; rfl
@[simp] theorem issued_riddles : (issued u a).riddles = u.riddles := by obtain ⟨g, hg⟩ := issued_eq u a; rw [hg]; rfl
@[simp] theorem issued_ladles : (issued u a).ladles = u.ladles := by obtain ⟨g, hg⟩ := issued_eq u a; rw [hg]; rfl
@[simp] theorem issued_moulds : (issued u a).moulds = u.moulds := by obtain ⟨g, hg⟩ := issued_eq u a; rw [hg]; rfl
@[simp] theorem issued_sorters : (issued u a).sorters = u.sorters := by obtain ⟨g, hg⟩ := issued_eq u a; rw [hg]; rfl
@[simp] theorem issued_injects (w : Word) : injects (issued u a) w = injects u w := by
  obtain ⟨g, hg⟩ := issued_eq u a
  rw [hg]
  rfl
end

/-! ### The use of configuration words, and the schedule injector -/

/-- A sound word is used without a trace (R423). -/
theorem useWord_sound {s : State} (k : Nat) (hreload : s.par.reload = []) (hbad : s.par.bad = []) (hinj : injects s s.inj.par = false) :
    useWord k s = (false, s) := by
  simp [useWord, hreload, hbad, hinj]

theorem useWords_sound {s : State} (ks : List Nat) (hreload : s.par.reload = []) (hbad : s.par.bad = [])
    (hinj : injects s s.inj.par = false) : useWords ks s = (false, s) := by
  unfold useWords
  induction ks with
  | nil => rfl
  | cons k ks ih => rw [List.foldl_cons, useWord_sound k hreload hbad hinj]; exact ih

theorem injectSched_none {s : State} (a place : Nat) (h : injects s s.inj.sched = false) : injectSched a place s = (none, s) := by
  simp [injectSched, h]

/-! ### Effects and suppression -/

section
variable {p : Shape} {a : Nat} {w : Word} {place : Nat} {s : State}

/-- With sound words and no injector, an instruction performs its own effect or the violation that suppresses it (R229, R230). -/
theorem perform_of_sound (p : Shape) (a : Nat) (w : Word) (place : Nat) (hreload : s.par.reload = []) (hbad : s.par.bad = [])
    (hpar : injects s s.inj.par = false) (hsched : injects s s.inj.sched = false) :
    perform p a w place false s = match p.eff a w place s with
      | .ok s' => if (s'.station a).ops.any fun o => o.t == s.clk && o.kind != .postRead then s'
          else fireSignal a w true (p.fin s a w s.clk) place s'
      | .error c => fireSignal a w true (p.fin s a w s.clk) place (violate a c place s) := by
  simp only [perform, useWords_sound _ hreload hbad hpar, injectSched_none a place hsched, Bool.false_eq_true, if_false] <;> rfl

/-- An expired instruction is suppressed with WAIT_EXPIRED (R224). -/
theorem perform_expired (p : Shape) (a : Nat) (w : Word) (place : Nat) (hreload : s.par.reload = []) (hbad : s.par.bad = [])
    (hpar : injects s s.inj.par = false) (hsched : injects s s.inj.sched = false) :
    perform p a w place true s = fireSignal a w true (p.fin s a w s.clk) place (violate a 0x07 place s) := by
  simp only [perform, useWords_sound _ hreload hbad hpar, injectSched_none a place hsched, if_true]
  rfl

end

/-! ### Engines that have nothing to do -/

/-- An engine with no step due does nothing. -/
theorem engAdvance_of_quiet {s : State} {a : Nat} (h : nextStep (s.station a).ops s.clk = none) : engAdvance a s = s := by
  unfold engAdvance
  cases ((s.station a).ops.map fun o => o.agenda.length).sum with
  | zero => rfl
  | succ n => simp only [engRun, h]

/-- The station's operations and the clk are those of another state: what its engine has to do has not changed. -/
structure SameOps (a : Nat) (u v : State) : Prop where
  ops : (v.station a).ops = (u.station a).ops
  clk : v.clk = u.clk

theorem SameOps.trans {a : Nat} {u v w : State} (h : SameOps a u v) (k : SameOps a v w) : SameOps a u w :=
  ⟨k.ops.trans h.ops, k.clk.trans h.clk⟩

theorem SameOps.issued (u : State) (a : Nat) : SameOps a u (issued u a) := ⟨issued_ops u a, issued_clk u a⟩

theorem SameOps.fireSignal {u v : State} {a : Nat} (h : SameOps a u v) (b : Nat) (word : Word) (late : Bool) (t place : Nat) :
    SameOps a u (fireSignal b word late t place v) := ⟨by rw [fireSignal_station, h.ops], by rw [fireSignal_clk, h.clk]⟩

theorem SameOps.violate {u v : State} {a : Nat} (h : SameOps a u v) (b code place : Nat) : SameOps a u (violate b code place v) :=
  ⟨by rw [violate_ops, h.ops], by rw [violate_clk, h.clk]⟩

theorem engAdvance_of_sameOps {u v : State} {a : Nat} (h : SameOps a u v) (hquiet : nextStep (u.station a).ops u.clk = none) :
    engAdvance a v = v := engAdvance_of_quiet (by rw [h.ops, h.clk, hquiet])

/-! ### The row of an instruction -/

section
variable {p : Shape} {s u v : State} {st : StAddr} {a : Nat}

/-- A row for another instruction than the one at the pc changes nothing (log entry 1). -/
theorem issueRow_of_not_here (h : p.here (settle st.toNat s) st.toNat = false) : issueRow p st s = .next s := by
  simp [issueRow, issue, h]

/-- An issue: `issued`, then what the instruction performs, what it does even when suppressed, and the engine's steps. -/
theorem issueNow_eq (p : Shape) (u : State) (a : Nat) : issueNow p a false u =
    engAdvance a (p.always a (u.station a).pc (wordAt u a) (perform p a (wordAt u a) (u.station a).pc false (issued u a))) := by
  simp only [issueNow, issued, Bool.false_eq_true, if_false, takeWait_clk]

theorem perform_issued (hi : Issuable u a p.code) :
    perform p a (wordAt u a) (u.station a).pc false (issued u a) = match p.eff a (wordAt u a) (u.station a).pc (issued u a) with
      | .ok s' => if (s'.station a).ops.any fun o => o.t == u.clk && o.kind != .postRead then s'
          else fireSignal a (wordAt u a) true (p.fin (issued u a) a (wordAt u a) u.clk) (u.station a).pc s'
      | .error c => fireSignal a (wordAt u a) true (p.fin (issued u a) a (wordAt u a) u.clk) (u.station a).pc
          (violate a c (u.station a).pc (issued u a)) := by
  obtain ⟨hreload, hbad, hpar⟩ := hi.sound
  have hsched := hi.notInjected
  rw [perform_of_sound p a _ _ (by simpa using hreload) (by simpa using hbad) (by simpa using hpar) (by simpa using hsched), issued_clk]

/-- No operation of a station that may issue is of this clk. -/
theorem any_issued_now {code : Nat} (hi : Issuable u a code) (h : SameOps a u v) :
    ((v.station a).ops.any fun o => o.t == u.clk && o.kind != .postRead) = false := by
  rw [h.ops, List.any_eq_false]
  intro o ho
  simp [hi.fresh o ho]

/-- The row of the instruction at the pc whose wait holds in time: the instruction issues. -/
theorem issueRow_issues (hu : settle st.toNat s = u) (hi : Issuable u st.toNat p.code) (hhere : p.here u st.toNat = true) :
    issueRow p st s = .next (engAdvance st.toNat (p.always st.toNat (u.station st.toNat).pc (wordAt u st.toNat)
      (perform p st.toNat (wordAt u st.toNat) (u.station st.toNat).pc false (issued u st.toNat)))) := by
  subst hu
  obtain ⟨hcons, _, htime, hholds, _, _, _, _⟩ := hi
  simp only [issueRow, issue, hhere, hcons, hholds, Nat.not_lt.mpr htime, decide_false, Bool.not_true, Bool.or_self, Bool.false_eq_true,
    if_false, if_true, issueNow_eq]

/-- What an instruction does even when suppressed leaves its engine's work alone. -/
def QuietAlways (p : Shape) : Prop := ∀ u a pc w x, SameOps a u x → SameOps a u (p.always a pc w x)

/-- An instruction whose effect starts no operation: it issues, its effect follows and its completion signal is on its way. -/
theorem issueRow_ok (hu : settle st.toNat s = u) (hi : Issuable u st.toNat p.code) (hhere : p.here u st.toNat = true)
    (hp : QuietAlways p) (heff : p.eff st.toNat (wordAt u st.toNat) (u.station st.toNat).pc (issued u st.toNat) = .ok v)
    (hv : SameOps st.toNat u v) :
    issueRow p st s = .next (p.always st.toNat (u.station st.toNat).pc (wordAt u st.toNat)
      (fireSignal st.toNat (wordAt u st.toNat) true (p.fin (issued u st.toNat) st.toNat (wordAt u st.toNat) u.clk)
        (u.station st.toNat).pc v)) := by
  rw [issueRow_issues hu hi hhere, perform_issued hi, heff]
  dsimp only
  rw [any_issued_now hi hv, if_neg Bool.false_ne_true, engAdvance_of_sameOps (hp _ _ _ _ _ (hv.fireSignal ..)) hi.quiet]

/-- An instruction that a violation suppresses: it issues, the violation is recorded and its completion signal is on its way. -/
theorem issueRow_error {c : Nat} (hu : settle st.toNat s = u) (hi : Issuable u st.toNat p.code) (hhere : p.here u st.toNat = true)
    (hp : QuietAlways p) (heff : p.eff st.toNat (wordAt u st.toNat) (u.station st.toNat).pc (issued u st.toNat) = .error c) :
    issueRow p st s = .next (p.always st.toNat (u.station st.toNat).pc (wordAt u st.toNat)
      (fireSignal st.toNat (wordAt u st.toNat) true (p.fin (issued u st.toNat) st.toNat (wordAt u st.toNat) u.clk)
        (u.station st.toNat).pc (violate st.toNat c (u.station st.toNat).pc (issued u st.toNat)))) := by
  rw [issueRow_issues hu hi hhere, perform_issued hi, heff]
  dsimp only
  rw [engAdvance_of_sameOps (hp _ _ _ _ _ (((SameOps.issued ..).violate ..).fireSignal ..)) hi.quiet]

/-- An instruction whose effect starts an operation: it issues, its operation begins and the engine takes the steps of this clk. -/
theorem issueRow_starts (hu : settle st.toNat s = u) (hi : Issuable u st.toNat p.code) (hhere : p.here u st.toNat = true)
    (heff : p.eff st.toNat (wordAt u st.toNat) (u.station st.toNat).pc (issued u st.toNat) = .ok v)
    (hv : ∃ o ∈ (v.station st.toNat).ops, o.t = u.clk ∧ o.kind ≠ .postRead) :
    issueRow p st s = .next (engAdvance st.toNat (p.always st.toNat (u.station st.toNat).pc (wordAt u st.toNat) v)) := by
  rw [issueRow_issues hu hi hhere, perform_issued hi, heff]
  obtain ⟨o, ho, ht, hk⟩ := hv
  have hany : ((v.station st.toNat).ops.any fun o => o.t == u.clk && o.kind != .postRead) = true :=
    List.any_eq_true.mpr ⟨o, ho, by simp [ht, hk]⟩
  dsimp only
  rw [if_pos hany]

/-! ### Instructions that do nothing more when suppressed -/

/-- The word at the pc is the shape's instruction at a station of its kind. -/
theorem here_of (hop : opOf (wordAt u a) = p.code) (hkind : ∀ k, p.kind = some k → kindOf a = k) (hsel : p.sel (wordAt u a) = true) :
    p.here u a = true := by
  rw [Shape.here, hsel]
  cases h : p.kind with
  | none => simp [hop]
  | some k => simp [hop, hkind k h]

/-- A station of the kind that has the opcode. -/
theorem eq_of_some_eq {n k : Nat} (h : n = k) : ∀ j, some k = some j → n = j := fun _ hj => h.trans (Option.some.inj hj)

theorem quietAlways_plain {code : Nat} {kind : Option Nat} {uses fin eff} : QuietAlways (Shape.plain code kind uses fin eff) :=
  fun _ _ _ _ _ h => h

/-- A plain instruction of a latency issues with an effect that starts no operation. -/
theorem issueRow_plain_ok {code lat : Nat} {kind : Option Nat} {uses eff} {f : State → State} (hu : settle st.toNat s = u)
    (hi : Issuable u st.toNat code) (hkind : ∀ k, kind = some k → kindOf st.toNat = k)
    (heff : eff st.toNat (wordAt u st.toNat) (u.station st.toNat).pc (issued u st.toNat) = .ok (f (issued u st.toNat)))
    (hf : SameOps st.toNat u (f (issued u st.toNat))) :
    issueRow (Shape.plain code kind uses (finAt lat) eff) st s = .next (issuedWith u st.toNat lat f) :=
  issueRow_ok hu hi (here_of hi.opcode hkind rfl) quietAlways_plain heff hf

/-- A plain instruction of a latency is suppressed. -/
theorem issueRow_plain_error {code lat c : Nat} {kind : Option Nat} {uses eff} (hu : settle st.toNat s = u)
    (hi : Issuable u st.toNat code) (hkind : ∀ k, kind = some k → kindOf st.toNat = k)
    (heff : eff st.toNat (wordAt u st.toNat) (u.station st.toNat).pc (issued u st.toNat) = .error c) :
    issueRow (Shape.plain code kind uses (finAt lat) eff) st s = .next (suppressed u st.toNat lat c) :=
  issueRow_error hu hi (here_of hi.opcode hkind rfl) quietAlways_plain heff

end

end Sys2Proof.Machine
end

section
/-!
SUPPORT. Waits, suppression, control and scalar instructions (R215 to R230).
-/

namespace Sys2Proof.Machine

/-! ### What instructions do even when suppressed -/

theorem SameOps.setStation {a : Nat} {u v : State} (h : SameOps a u v) (b : Nat) {f : Station → Station} (hf : ∀ x, (f x).ops = x.ops) :
    SameOps a u (v.setStation b f) := ⟨(setStation_ops v b hf a).trans h.ops, h.clk⟩

theorem SameOps.ite {a : Nat} {u v w : State} {c : Prop} [Decidable c] (hv : SameOps a u v) (hw : SameOps a u w) :
    SameOps a u (if c then v else w) := by
  split
  · exact hv
  · exact hw

theorem quietAlways_of_id {p : Shape} (h : p.always = fun _ _ _ s => s) : QuietAlways p := fun _ _ _ _ _ hx => by rwa [h]

theorem quietAlways_halt : QuietAlways haltShape := fun _ _ _ _ _ hx => hx.setStation _ (by intro; rfl)

theorem quietAlways_at : QuietAlways atShape := fun _ _ _ _ _ hx => .ite (hx.violate ..) (hx.setStation _ (by intro; rfl))

theorem quietAlways_vcvt : QuietAlways vcvtShape := fun _ _ _ _ _ hx => .ite (hx.setStation _ (by intro; rfl)) hx

/-- Only halt, at and vcvt do anything when suppressed (R224, R248), and none of them touches an engine. -/
theorem quietAlways_of_mem : ∀ p ∈ commonShapes ++ kindShapes, QuietAlways p := by
  have hid {p : Shape} (h : p.always = fun _ _ _ s => s) : QuietAlways p := quietAlways_of_id h
  simp only [commonShapes, kindShapes, List.cons_append, List.nil_append, List.forall_mem_cons]
  exact ⟨hid rfl, quietAlways_halt, quietAlways_at, hid rfl, hid rfl, hid rfl, hid rfl, hid rfl, hid rfl, hid rfl, hid rfl, hid rfl, hid rfl,
    hid rfl, hid rfl, hid rfl, hid rfl, hid rfl, hid rfl, hid rfl, hid rfl, hid rfl, hid rfl, hid rfl, hid rfl, hid rfl,
    hid rfl, hid rfl, hid rfl, hid rfl, hid rfl, hid rfl, hid rfl, hid rfl, hid rfl, hid rfl, hid rfl, quietAlways_vcvt, hid rfl,
    hid rfl, hid rfl, hid rfl, hid rfl, hid rfl, hid rfl, hid rfl, hid rfl, hid rfl, hid rfl,
    hid rfl, hid rfl, hid rfl, hid rfl, hid rfl, hid rfl, hid rfl, hid rfl, hid rfl,
    hid rfl, hid rfl, hid rfl, hid rfl, hid rfl, hid rfl, by simp⟩

/-! ### Waits -/

/-- A wait that does not hold is waited for (R220). -/
theorem issueRow_waits {p : Shape} {s u : State} {st : StAddr} (hu : settle st.toNat s = u) (hcons : considers u st.toNat = true)
    (hhere : p.here u st.toNat = true) (htime : u.clk ≤ consideredSince u st.toNat + waitLimit u st.toNat)
    (hwait : waitHolds u st.toNat (wordAt u st.toNat) = false) :
    issueRow p st s = .next (u.setStation st.toNat fun y => { y with seq := .wait, waitSince := some (consideredSince u st.toNat) }) := by
  subst hu
  simp only [issueRow, issue, hhere, hcons, hwait, Nat.not_lt.mpr htime, decide_false, Bool.not_true, Bool.or_self, Bool.false_eq_true,
    if_false]

/-- The sequencer's step alone leaves the clk, the station's operations and what injects. -/
theorem advancePc_fireSignal_eq (u : State) (a : Nat) (w : Word) (place : Nat) : ∃ g, advancePc a (fireSignal a w false u.clk place u) =
    (u.setFab g).setStation a fun x => { x with pc := (x.pc + 1) % 16384, readyAt := u.clk + 1, waitSince := none, seq := .run } := by
  obtain ⟨g, hg⟩ := fireSignal_eq a w false u.clk place u
  exact ⟨g, by rw [hg]; rfl⟩

/-- An expired wait: the instruction issues with WAIT_EXPIRED and takes nothing (R224). -/
theorem issueNow_expired {p : Shape} {u : State} {a : Nat} (hp : QuietAlways p) (hreload : u.par.reload = []) (hbad : u.par.bad = [])
    (hpar : injects u u.inj.par = false) (hsched : injects u u.inj.sched = false) (hquiet : nextStep (u.station a).ops u.clk = none) :
    issueNow p a true u =
      let v := advancePc a (fireSignal a (wordAt u a) false u.clk (u.station a).pc u)
      p.always a (u.station a).pc (wordAt u a) (fireSignal a (wordAt u a) true (p.fin v a (wordAt u a) u.clk) (u.station a).pc
        (violate a 0x07 (u.station a).pc v)) := by
  obtain ⟨g, hg⟩ := advancePc_fireSignal_eq u a (wordAt u a) (u.station a).pc
  have hv : SameOps a u (advancePc a (fireSignal a (wordAt u a) false u.clk (u.station a).pc u)) := by
    rw [hg]
    exact ⟨(setStation_ops (u.setFab g) a (by intro; rfl) a).trans rfl, rfl⟩
  have hperform := perform_expired (s := advancePc a (fireSignal a (wordAt u a) false u.clk (u.station a).pc u)) p a (wordAt u a)
    (u.station a).pc (by rw [hg]; exact hreload) (by rw [hg]; exact hbad) (by rw [hg]; exact hpar) (by rw [hg]; exact hsched)
  simp only [issueNow, if_true]
  rw [hperform, hv.clk, engAdvance_of_sameOps (hp _ _ _ _ _ ((hv.violate ..).fireSignal ..)) hquiet]

/-- Settles O48, from the rules of an issue. -/
theorem waitsAndSuppression : Obligations.WaitsAndSuppression := by
  unfold Obligations.WaitsAndSuppression
  intro s st p hp a u w pc
  refine ⟨issueRow_of_not_here, fun hcons hhere htime hwait => issueRow_waits rfl hcons hhere htime hwait,
    fun c hi hhere heff => issueRow_error rfl hi hhere (quietAlways_of_mem p hp) heff,
    fun hover hshape hreload hbad hpar hsched hquiet => ?_⟩
  have hexpire : expireWait a s = issueNow p a true u := by
    simp only [expireWait]
    rw [if_pos hover]
    simp only [show shapeAt (settle a s) a = some p from hshape]
    rfl
  exact congrArg Host.Outcome.next (hexpire.trans (issueNow_expired (quietAlways_of_mem p hp) hreload hbad hpar hsched hquiet))

/-! ### Operands at issue -/

/-- A scalar operand at issue is the register's value before it. -/
@[simp] theorem scalarReg_issued (u : State) (a r : Nat) : scalarReg (issued u a) a r = scalarReg u a r := by
  simp only [scalarReg, issued_station]

@[simp] theorem scalarSrc_issued (u : State) (a c : Nat) : scalarSrc (issued u a) a c = scalarReg u a (c % 8) := scalarReg_issued ..

@[simp] theorem pourClks_issued (u : State) (a : Nat) : (issued u a).pourClks = u.pourClks := by
  simp only [State.pourClks, State.pourLen, State.cfgw, issued_cfg]

@[simp] theorem pourOff_issued (u : State) (a : Nat) : (issued u a).pourOff = u.pourOff := by
  simp only [State.pourOff, issued_clk, issued_job]

/-! ### Results on their way -/

theorem SameOps.addResult {a : Nat} {u v : State} (h : SameOps a u v) (b : Nat) (r : PendingResult) : SameOps a u (addResult b r v) :=
  h.setStation b (by intro; rfl)

theorem SameOps.putScalar {a : Nat} {u v : State} (h : SameOps a u v) (b d due t place : Nat) (x : Word) :
    SameOps a u (putScalar b d due t place x v) := .ite h (h.addResult ..)

theorem SameOps.goTo {a : Nat} {u v : State} (h : SameOps a u v) (b target : Nat) : SameOps a u (goTo b target v) :=
  h.setStation b (by intro; rfl)

/-! ### Control -/

/-- The clk that an at names, from the state in which its effects are performed. -/
theorem atTarget_fireSignal_issued (u : State) (a : Nat) (w w' : Word) (t place : Nat) :
    atTarget (fireSignal a w' true t place (issued u a)) a w =
      u.job.pourClk + (scalarReg u a (aOf w % 8)).toNat + (if immOf w % 2 = 1 then u.pourClks else 0) := by
  obtain ⟨g, hg⟩ := fireSignal_eq a w' true t place (issued u a)
  rw [hg]
  show (issued u a).job.pourClk + (scalarSrc (issued u a) a (aOf w)).toNat + (if immOf w % 2 = 1 then (issued u a).pourClks else 0) = _
  rw [issued_job, scalarSrc_issued, pourClks_issued]

/-- Whether an at has passed, from the state in which its effects are performed. -/
theorem placeNext_fireSignal_issued (u : State) (a place : Nat) (w w' : Word) (t : Nat) :
    placeNext a place w (fireSignal a w' true t place (issued u a)) =
      if u.pourClks ≤ (scalarReg u a (aOf w % 8)).toNat ∨
          u.job.pourClk + (scalarReg u a (aOf w % 8)).toNat + (if immOf w % 2 = 1 then u.pourClks else 0) ≤ u.clk
      then violate a 0x08 place (fireSignal a w' true t place (issued u a))
      else (fireSignal a w' true t place (issued u a)).setStation a fun y => { y with
        readyAt := u.job.pourClk + (scalarReg u a (aOf w % 8)).toNat + (if immOf w % 2 = 1 then u.pourClks else 0) } := by
  have hclks : (fireSignal a w' true t place (issued u a)).pourClks = u.pourClks := by
    obtain ⟨g, hg⟩ := fireSignal_eq a w' true t place (issued u a)
    rw [hg]
    exact pourClks_issued u a
  have hsrc : scalarSrc (fireSignal a w' true t place (issued u a)) a (aOf w) = scalarReg u a (aOf w % 8) := by
    rw [← scalarSrc_issued u a]
    simp only [scalarSrc, scalarReg, fireSignal_station]
  simp only [placeNext, atTarget_fireSignal_issued, hclks, hsrc, fireSignal_clk, issued_clk, Bool.or_eq_true, decide_eq_true_eq]
  rfl

/-- Settles O49: each is an issue with its own effect; halt and at act even when suppressed. -/
theorem controlInstructions : Obligations.ControlInstructions := by
  unfold Obligations.ControlInstructions
  intro s st a u w x at' jump
  have hsame : SameOps a u (issued u a) := .issued u a
  have hjump {v : State} (h : SameOps a u v) : SameOps a u (jump v) := h.goTo ..
  have hplace (hi : Issuable u a 0x02) : exec (.atClk st) s = .next (placeNext a (u.station a).pc w (issuedWith u a 0 id)) :=
    issueRow_ok (p := atShape) rfl hi (here_of hi.opcode nofun rfl) quietAlways_at rfl hsame
  refine ⟨fun hi => issueRow_plain_ok rfl hi nofun rfl hsame,
    fun hi => issueRow_ok (p := haltShape) rfl hi (here_of hi.opcode nofun rfl) quietAlways_halt rfl hsame,
    fun hi => ⟨fun hlt hat => ?_, fun hpassed => ?_⟩, fun hi => issueRow_plain_ok rfl hi nofun rfl (hjump hsame),
    fun hi => issueRow_plain_ok rfl hi nofun ?_ ?_, fun hi => issueRow_plain_ok rfl hi nofun ?_ ?_,
    fun hi => issueRow_plain_ok rfl hi nofun ?_ ?_, issued_station u a⟩
  · rw [hplace hi, issuedWith, id, placeNext_fireSignal_issued]
    exact congrArg Host.Outcome.next (if_neg (not_or.mpr ⟨Nat.not_le.mpr hlt, Nat.not_le.mpr hat⟩))
  · rw [hplace hi, issuedWith, id, placeNext_fireSignal_issued]
    exact congrArg Host.Outcome.next (if_pos hpassed)
  · simp only [scalarSrc_issued, ite_apply, id]
    rfl
  · split
    · exact hjump hsame
    · exact hsame
  · simp only [scalarSrc_issued, ite_apply, id]
    rfl
  · split
    · exact hjump hsame
    · exact hsame
  · simp only [scalarSrc_issued, issued_clk, ite_apply, id]
    rfl
  · split
    · exact hjump (hsame.putScalar ..)
    · exact hsame.putScalar ..

/-! ### Scalars -/

/-- A two's-complement field extended with its sign. -/
theorem ofInt_signed {n : Nat} (hn : 0 < n) (v : Nat) : BitVec.ofInt 64 (signed n v) = (BitVec.ofNat n v).signExtend 64 := by
  have hpow : 2 ^ n = 2 * 2 ^ (n - 1) := by rw [← Nat.pow_succ', Nat.succ_eq_add_one, Nat.sub_add_cancel hn]
  have htoInt : signed n v = (BitVec.ofNat n v).toInt := by
    rw [BitVec.toInt_eq_toNat_cond, BitVec.toNat_ofNat, signed]
    by_cases h : 2 ^ (n - 1) ≤ v % 2 ^ n
    · rw [if_pos h, if_neg (by omega)]
      push_cast
      rfl
    · rw [if_neg h, if_pos (by omega)]
  rw [htoInt, BitVec.signExtend]

/-- A field put above another. -/
theorem put_or_put {hi lo n : Nat} (h : lo < 2 ^ n) : put hi n ||| put lo 0 = BitVec.ofNat 64 (hi * 2 ^ n + lo) := by
  rw [put, put, Nat.shiftLeft_zero, ← BitVec.ofNat_or, ← Nat.shiftLeft_add_eq_or_of_lt h, Nat.shiftLeft_eq]

/-- An instruction with a scalar result and nothing else issues with that result on its way. -/
theorem issueRow_yields {code lat : Nat} {kind : Option Nat} {uses} {s u : State} {st : StAddr} {v : Word}
    (g : Nat → Word → State → Word) (hu : settle st.toNat s = u) (hi : Issuable u st.toNat code)
    (hkind : ∀ k, kind = some k → kindOf st.toNat = k) (hg : g st.toNat (wordAt u st.toNat) (issued u st.toNat) = v) :
    issueRow (Shape.plain code kind uses (finAt lat) fun a w place s =>
      .ok (putScalar a (dOf w) (s.clk + lat) s.clk place (g a w s) s)) st s = .next (yields u st.toNat lat v) := by
  subst hg
  refine issueRow_plain_ok hu hi hkind (f := putScalar st.toNat (dOf (wordAt u st.toNat)) (u.clk + lat) u.clk (u.station st.toNat).pc _) ?_
    ((SameOps.issued ..).putScalar ..)
  rw [issued_clk]

/-- A scalar operation of a and b. -/
theorem issueRow_scalarShape {code lat : Nat} {s u : State} {st : StAddr} (f : Word → Word → Word) (hu : settle st.toNat s = u)
    (hi : Issuable u st.toNat code) :
    issueRow (scalarShape code lat f) st s = .next (yields u st.toNat lat (f (operandA u st.toNat) (operandB u st.toNat))) :=
  issueRow_yields (fun a w s => f (scalarSrc s a (aOf w)) (scalarSrc s a (bOf w))) hu hi nofun
    (by simp only [scalarSrc_issued, operandA, operandB])

theorem shiftBy_eq (y : Word) : shiftBy y = y.toNat % 64 := rfl

/-- Settles O50: each is an issue with one scalar result. -/
theorem scalarInstructions : Obligations.ScalarInstructions := by
  unfold Obligations.ScalarInstructions
  intro s st a u w x y
  refine ⟨fun hi => issueRow_yields (fun _ w _ => BitVec.ofInt 64 (signed 20 (imm20 w))) rfl hi nofun (ofInt_signed (by decide) _),
    fun hi => issueRow_yields (fun a w s => put (imm20 w) 20 ||| put (fld (scalarSrc s a (dOf w)) 19 0) 0) rfl hi nofun ?_,
    issueRow_scalarShape _ rfl, issueRow_scalarShape _ rfl, issueRow_scalarShape _ rfl, issueRow_scalarShape _ rfl,
    issueRow_scalarShape _ rfl, issueRow_scalarShape _ rfl, issueRow_scalarShape _ rfl, issueRow_scalarShape _ rfl,
    issueRow_scalarShape _ rfl, fun hi => (issueRow_scalarShape _ rfl hi).trans ?_, fun hi => (issueRow_scalarShape _ rfl hi).trans ?_,
    fun hi => issueRow_yields (fun a w s => scalarSrc s a (aOf w) + BitVec.ofInt 64 (immS w)) rfl hi nofun ?_,
    fun hi => ⟨fun himm => ?_, fun himm => ?_, fun himm => ?_⟩,
    fun hi hkind => issueRow_yields (fun _ w s => tget 0 s.mem.pickLatch (immOf w % 256)) rfl hi (eq_of_some_eq hkind)
      (by simp only [issued_mem]; rfl)⟩
  · have hlow : fld (scalarReg u a (dOf w % 8)) 19 0 < 2 ^ 20 := Nat.mod_lt _ (by decide)
    simp only [scalarSrc_issued]
    exact put_or_put hlow
  · simp only [BitVec.slt, decide_eq_true_eq]
    rfl
  · simp only [BitVec.ult, decide_eq_true_eq]
    rfl
  · simp only [scalarSrc_issued, immS, ofInt_signed (n := 10) (by decide)]
    rfl
  all_goals refine issueRow_yields (fun a w s => rdtValue a s (immOf w)) rfl hi nofun ?_
  · rw [show immOf (wordAt (settle st.toNat s) st.toNat) = 0 from himm, rdtValue, pourOff_issued]
  · rw [show immOf (wordAt (settle st.toNat s) st.toNat) = 1 from himm, rdtValue, issued_job]
  · rw [show immOf (wordAt (settle st.toNat s) st.toNat) = 2 from himm, rdtValue, issued_job]

end Sys2Proof.Machine
end

section
/-!
SUPPORT. Operands at issue, moves, loads, stores and posts (R213, R218, R226, R467). The idea: an issue leaves everything of its station but
the sequencer, so an operand read at issue is the operand before it.
-/

namespace Sys2Proof.Machine

/-! ### Operands at issue -/

section
variable (u : State) (a : Nat)

@[simp] theorem storeLine_issued (k : Nat) : storeLine (issued u a) a k = storeLine u a k := by simp only [storeLine, issued_station]
@[simp] theorem storeWord_issued (k : Nat) : storeWord (issued u a) a k = storeWord u a k := by simp only [storeWord, storeLine_issued]
@[simp] theorem readFree_issued (c : Nat) : readFree (issued u a) a c = readFree u a c := by simp only [readFree, issued_station]
@[simp] theorem lineReg_issued (r : Nat) : lineReg (issued u a) a r = lineReg u a r := by simp only [lineReg, issued_station]
@[simp] theorem endLines_issued (e : Nat) : endLines (issued u a) a e = endLines u a e := by simp only [endLines, issued_station]
@[simp] theorem popReady_issued (e t : Nat) : popReady (issued u a) a e t = popReady u a e t := by
  simp only [popReady, endLines_issued]
@[simp] theorem constEnd_issued : constEnd (issued u a) a = constEnd u a := by
  simp only [constEnd, stCfg, State.cfgw, issued_cfg]
@[simp] theorem ctr_issued : ((issued u a).station a).ctr = (u.station a).ctr := by rw [issued_station]

@[simp] theorem lineSrc_issued (t c : Nat) : lineSrc (issued u a) a t c = lineSrc u a t c := by
  simp only [lineSrc, popReady_issued, endLines_issued, lineReg_issued, scalarSrc_issued]
  rfl

@[simp] theorem laneSide_issued (cs : List Nat) : laneSide (issued u a) a cs = laneSide u a cs := by
  simp only [laneSide, endLines_issued]

end

/-! ### Operand effects start no operation -/

theorem SameOps.each {α : Type} {a : Nat} {u : State} {f : α → State → State} (hf : ∀ x v, SameOps a u v → SameOps a u (f x v)) :
    ∀ (l : List α) {v : State}, SameOps a u v → SameOps a u (each l f v)
  | [], _, h => h
  | x :: l, _, h => SameOps.each hf l (hf x _ h)

theorem SameOps.popEnd {a : Nat} {u v : State} (h : SameOps a u v) (b e t : Nat) : SameOps a u (popEnd b e t v) :=
  h.setStation b (by intro; rfl)

theorem SameOps.popAll {a : Nat} {u v : State} (h : SameOps a u v) (b t : Nat) (cs : List Nat) : SameOps a u (popAll b t cs v) :=
  SameOps.each (fun e _ hv => hv.popEnd b e t) _ h

theorem SameOps.takeRead {a : Nat} {u v : State} (h : SameOps a u v) (b : Nat) (cs : List Nat) : SameOps a u (takeRead b cs v) :=
  h.setStation b (by intro; rfl)

theorem SameOps.putLine {a : Nat} {u v : State} (h : SameOps a u v) (b d due t place : Nat) (l : Line) :
    SameOps a u (putLine b d due t place l v) :=
  .ite (h.addResult ..) (.ite (h.addResult ..) (.ite (h.putScalar ..) h))

/-! ### Addresses in the local store -/

/-- A base and a signed 10-bit immediate, modulo 2^64 (R226). -/
def storeTarget (v : Word) (imm : Nat) : Nat := (v + (BitVec.ofNat 10 imm).signExtend 64).toNat

theorem storeAddr_immS (v w : Word) : storeAddr v (immS w) = (storeTarget v (immOf w) : Int) := by
  rw [storeAddr, immS, ofInt_signed (by decide), storeTarget]

theorem inBound_storeAddr {n : Nat} {v w : Word} (h : storeTarget v (immOf w) < n) :
    inBound n (storeAddr v (immS w)) = .ok (storeTarget v (immOf w)) := by
  rw [storeAddr_immS, inBound, if_pos ⟨Int.natCast_nonneg _, Int.ofNat_lt.mpr h⟩, Int.toNat_natCast]

theorem inBound_storeAddr_error {n : Nat} {v w : Word} (h : n ≤ storeTarget v (immOf w)) :
    inBound n (storeAddr v (immS w)) = .error 0x09 := by
  rw [storeAddr_immS, inBound, if_neg fun hlt => absurd hlt.2 (by exact_mod_cast Nat.not_lt.mpr h)]
  rfl

/-! ### Effects at issue: ld and st -/

section
variable {u : State} {a pc : Nat} {w : Word}

theorem ldShape_eff (hlt : storeTarget (scalarReg u a (aOf w % 8)) (immOf w) < 32768) : ldShape.eff a w pc (issued u a) =
    if readFree u a u.clk then
      .ok (putScalar a (dOf w) (u.clk + 3) u.clk pc (storeWord u a (storeTarget (scalarReg u a (aOf w % 8)) (immOf w)))
        (takeRead a [u.clk] (issued u a)))
    else .error 0x03 := by
  simp only [ldShape, Shape.plain, scalarSrc_issued, inBound_storeAddr hlt, readFree_issued, issued_clk, storeWord_issued]
  cases readFree u a u.clk <;> rfl

theorem ldShape_eff_bound (hge : 32768 ≤ storeTarget (scalarReg u a (aOf w % 8)) (immOf w)) :
    ldShape.eff a w pc (issued u a) = .error 0x09 := by
  simp only [ldShape, Shape.plain, scalarSrc_issued, inBound_storeAddr_error hge]
  rfl

theorem stShape_eff (hlt : storeTarget (scalarReg u a (aOf w % 8)) (immOf w) < 32768) : stShape.eff a w pc (issued u a) =
    if storeTarget (scalarReg u a (aOf w % 8)) (immOf w) / 16 < constEnd u a then .error 0x0A
    else .ok (addResult a
      { due := u.clk + 3, issued := u.clk, place := pc
        kind := .storeWord (storeTarget (scalarReg u a (aOf w % 8)) (immOf w)) (scalarReg u a (bOf w % 8)) } (issued u a)) := by
  simp only [stShape, Shape.plain, scalarSrc_issued, inBound_storeAddr hlt, constEnd_issued, issued_clk]
  rfl

theorem stShape_eff_bound (hge : 32768 ≤ storeTarget (scalarReg u a (aOf w % 8)) (immOf w)) :
    stShape.eff a w pc (issued u a) = .error 0x09 := by
  simp only [stShape, Shape.plain, scalarSrc_issued, inBound_storeAddr_error hge]
  rfl

/-! ### Effects at issue: mv -/

theorem isScalar_and_iff (c d : Nat) : (isScalar c && isScalar d) = true ↔ 24 ≤ c ∧ 24 ≤ d := by
  simp only [isScalar, Bool.and_eq_true, decide_eq_true_eq]

theorem mvShape_eff_scalar (ha : 24 ≤ aOf w) (hd : 24 ≤ dOf w) : mvShape.eff a w pc (issued u a) =
    .ok (putScalar a (dOf w) (u.clk + 1) u.clk pc (scalarReg u a (aOf w % 8)) (issued u a)) := by
  simp only [mvShape, Shape.plain, scalarSrc_issued, issued_clk, (isScalar_and_iff (aOf w) (dOf w)).mpr ⟨ha, hd⟩, if_true]

theorem mvShape_eff_line (h : aOf w < 24 ∨ dOf w < 24) : mvShape.eff a w pc (issued u a) =
    match lineSrc u a u.clk (aOf w) with
    | none => .error 0x01
    | some l => .ok (putLine a (dOf w) (u.clk + 1) u.clk pc { l with origin := none, slotClk := none }
        (popAll a u.clk [aOf w] (issued u a))) := by
  have hns : ¬ (isScalar (aOf w) && isScalar (dOf w)) = true := fun hs => by
    obtain ⟨hsa, hsd⟩ := (isScalar_and_iff _ _).mp hs
    omega
  simp only [mvShape, Shape.plain, lineSrc_issued, issued_clk, hns] <;> rfl

/-- A queue operand with no line ready gives none. -/
theorem lineSrc_of_not_ready {t c : Nat} (hc : c < 8) (h : popReady u a c t = false) : lineSrc u a t c = none := by
  simp [lineSrc, isQi, hc, h]

/-! ### Effects at issue: post -/

/-- The operation of a post: it reads its template's payload lines behind the template (R226). -/
def postOp (u : State) (a : Nat) (w : Word) (pc : Nat) : EngineOp :=
  let k := storeTarget (scalarReg u a (aOf w % 8)) (immOf w)
  let n := postLines (templateHdr (storeLine u a k))
  { kind := .postRead, t := u.clk, word := w, place := pc, sa := BitVec.ofNat 64 k, sb := scalarReg u a (bOf w % 8)
    agenda := (List.range n).map (fun j => (u.clk + 1 + j, EngineStep.act (if readFree u a (u.clk + 1 + j) then j else 65536 + j))) ++
      [(u.clk + n, .act 131072)]
    taken := [some (bareLine (storeLine u a k))], finish := u.clk + 1 }

/-- What a post does at its issue: the read port is taken, the operation begins, a place of counter 31 is taken (R226, R467). -/
def postBegins (u : State) (a : Nat) (w : Word) (pc : Nat) (v : State) : State :=
  let k := storeTarget (scalarReg u a (aOf w % 8)) (immOf w)
  let n := postLines (templateHdr (storeLine u a k))
  sendSignal (u.clk + 1) a (.take 31 1) (some pc) (startOp a (postOp u a w pc)
    (takeRead a (u.clk :: ((List.range n).map (u.clk + 1 + ·)).filter (readFree u a)) v))

theorem postShape_eff (hlt : storeTarget (scalarReg u a (aOf w % 8)) (immOf w) < 2048) : postShape.eff a w pc (issued u a) =
    let h := templateHdr (storeLine u a (storeTarget (scalarReg u a (aOf w % 8)) (immOf w)))
    if hCls h < 4 ∨ 2048 ≤ storeTarget (scalarReg u a (aOf w % 8)) (immOf w) + postLines h then .error 0x09
    else if readFree u a u.clk = false then .error 0x03
    else if tget 0 (u.station a).ctr 31 = 0 then .error 0x02
    else .ok (postBegins u a w pc (issued u a)) := by
  have hread : readFree (issued u a) a = readFree u a := funext (readFree_issued u a)
  simp only [postShape, Shape.plain, postIssue, scalarSrc_issued, inBound_storeAddr hlt, storeLine_issued, issued_clk, ctr_issued, hread,
    Bool.or_eq_true, decide_eq_true_eq, Bool.not_eq_true', newOp, postBegins, postOp]
  rfl

end

/-! ### The rows -/

/-- A post that begins: its operation is no engine's, so the completion signal goes out at issue (R221, R226). -/
theorem issueRow_post {s u : State} {st : StAddr} (hu : settle st.toNat s = u) (hi : Issuable u st.toNat 0x1B)
    (heff : postShape.eff st.toNat (wordAt u st.toNat) (u.station st.toNat).pc (issued u st.toNat) =
      .ok (postBegins u st.toNat (wordAt u st.toNat) (u.station st.toNat).pc (issued u st.toNat))) :
    issueRow postShape st s = .next (engAdvance st.toNat (issuedWith u st.toNat 1
      (postBegins u st.toNat (wordAt u st.toNat) (u.station st.toNat).pc))) := by
  rw [issueRow_issues (p := postShape) hu hi (here_of hi.opcode nofun rfl), perform_issued (p := postShape) hi, heff]
  have hnone : ((postBegins u st.toNat (wordAt u st.toNat) (u.station st.toNat).pc (issued u st.toNat)).station st.toNat).ops.any
      (fun o => o.t == u.clk && o.kind != .postRead) = false := by
    have hops : ((postBegins u st.toNat (wordAt u st.toNat) (u.station st.toNat).pc (issued u st.toNat)).station st.toNat).ops =
        (u.station st.toNat).ops ++ [postOp u st.toNat (wordAt u st.toNat) (u.station st.toNat).pc] := by
      simp only [postBegins, sendSignal_station, startOp, takeRead, State.setStation_station, issued_ops]
    rw [hops, List.any_append, List.any_eq_false.mpr fun o ho => by simp [hi.fresh o ho], Bool.false_or, List.any_cons, List.any_nil, Bool.or_false]
    exact Bool.and_false _
  dsimp only
  rw [hnone, if_neg Bool.false_ne_true]
  rfl

/-- Settles O51: each is an issue with its effect at issue, or with the violation that the effect is. -/
theorem storeMoveAndPost : Obligations.StoreMoveAndPost := by
  unfold Obligations.StoreMoveAndPost
  intro s st a u w pc x at'
  have hsame : SameOps a u (issued u a) := .issued u a
  refine ⟨fun hi => ⟨fun hlt hfree => issueRow_plain_ok rfl hi nofun ((ldShape_eff hlt).trans (if_pos hfree)) ((hsame.takeRead ..).putScalar ..),
      fun hge => issueRow_plain_error rfl hi nofun (ldShape_eff_bound hge),
      fun hlt hbusy => issueRow_plain_error rfl hi nofun ((ldShape_eff hlt).trans (if_neg (by simp [hbusy])))⟩,
    fun hi => ⟨fun hlt hconst => issueRow_plain_ok rfl hi nofun ((stShape_eff hlt).trans (if_neg (Nat.not_lt.mpr hconst))) (hsame.addResult ..),
      fun hconst hlt => issueRow_plain_error rfl hi nofun ((stShape_eff hlt).trans (if_pos hconst)),
      fun hge => issueRow_plain_error rfl hi nofun (stShape_eff_bound hge)⟩,
    fun hi => ⟨fun ha hd => issueRow_plain_ok rfl hi nofun (mvShape_eff_scalar ha hd) (hsame.putScalar ..),
      fun l h hl => issueRow_plain_ok rfl hi nofun ((mvShape_eff_line h).trans (by rw [hl])) ((hsame.popAll ..).putLine ..),
      fun ha hready => issueRow_plain_error rfl hi nofun
        ((mvShape_eff_line (.inl (Nat.lt_trans ha (by decide)))).trans (by rw [lineSrc_of_not_ready ha hready]))⟩,
    fun hi hlt => ⟨fun hcls hn hfree hplace => issueRow_post rfl hi ((postShape_eff hlt).trans ?_),
      fun hbound => issueRow_plain_error rfl hi nofun ((postShape_eff hlt).trans (if_pos hbound)),
      fun hcls hn hfree hplace => issueRow_plain_error rfl hi nofun ((postShape_eff hlt).trans ?_)⟩⟩
  all_goals
    refine (if_neg (not_or.mpr ⟨Nat.not_lt.mpr hcls, Nat.not_le.mpr hn⟩)).trans ((if_neg (by simp [hfree])).trans ?_)
  · exact if_neg hplace
  · exact if_pos hplace

end Sys2Proof.Machine
end

section
/-!
SUPPORT. The vector station: lane operations, conversions, lines of the local store (R227, R245 to R248, R251).
-/

namespace Sys2Proof.Machine

/-! ### Line operands -/

section
variable {u : State} {a : Nat} {w : Word}

theorem twoLines_issued {X Y : Line} (hX : lineSrc u a u.clk (aOf w) = some X) (hY : lineSrc u a u.clk (bOf w) = some Y) :
    twoLines (issued u a) a w = .ok (X.data, Y.data) := by
  simp only [twoLines, issued_clk, lineSrc_issued, hX, hY]

theorem twoLines_issued_none (h : lineSrc u a u.clk (aOf w) = none ∨ lineSrc u a u.clk (bOf w) = none) :
    twoLines (issued u a) a w = .error 0x01 := by
  simp only [twoLines, issued_clk, lineSrc_issued]
  obtain h | h := h
  · rw [h]
    rfl
  · rw [h]
    cases lineSrc u a u.clk (aOf w) <;> rfl

end

/-! ### Lane operations -/

section
variable {s u : State} {st : StAddr} {code : Nat} {f : State → Nat → Word → LineData → LineData → Nat → BitVec 32}

theorem laneShape_eff {a pc : Nat} {w : Word} {X Y : Line} (hX : lineSrc u a u.clk (aOf w) = some X)
    (hY : lineSrc u a u.clk (bOf w) = some Y) : (laneShape code f).eff a w pc (issued u a) = .ok (putLine a (dOf w) (u.clk + 4) u.clk pc
      { bareLine (mapLanes (f (issued u a) a w X.data Y.data)) with side := laneSide u a [aOf w, bOf w] }
      (popAll a u.clk [aOf w, bOf w] (issued u a))) := by
  simp only [laneShape, Shape.plain, twoLines_issued hX hY, laneSide_issued, issued_clk]
  rfl

/-- A lane operation with both operands ready: its line is on its way to d. -/
theorem issueRow_lane {X Y : Line} (g : Nat → BitVec 32) (hu : settle st.toNat s = u) (hi : Issuable u st.toNat code)
    (hkind : kindOf st.toNat = 1) (hX : lineSrc u st.toNat u.clk (aOf (wordAt u st.toNat)) = some X)
    (hY : lineSrc u st.toNat u.clk (bOf (wordAt u st.toNat)) = some Y)
    (hg : ∀ i, f (issued u st.toNat) st.toNat (wordAt u st.toNat) X.data Y.data i = g i) :
    issueRow (laneShape code f) st s = .next (laneResult u st.toNat g) := by
  obtain rfl : f (issued u st.toNat) st.toNat (wordAt u st.toNat) X.data Y.data = g := funext hg
  rw [laneResult]
  exact issueRow_plain_ok hu hi (eq_of_some_eq hkind) (laneShape_eff (code := code) hX hY) (((SameOps.issued ..).popAll ..).putLine ..)

end

theorem intForm_iff (w : Word) : intForm w = true ↔ immOf w % 2 = 1 := beq_iff_eq

theorem intMax_eq (x y : BitVec 32) : intMax x y = if x.toInt < y.toInt then y else x := by
  simp only [intMax, BitVec.slt, decide_eq_true_eq]

theorem intMin_eq (x y : BitVec 32) : intMin x y = if y.toInt < x.toInt then y else x := by
  simp only [intMin, BitVec.slt, decide_eq_true_eq]

/-! ### vcmp -/

/-- The powers of two at the places that a test picks, added up. -/
theorem foldl_filter_eq_bitSum (f : Nat → Bool) (n : Nat) : ((List.range n).filter f).foldl (fun n i => n + 2 ^ i) 0 = bitSum f n := by
  induction n with
  | zero => rfl
  | succ n ih =>
    rw [bitSum_succ, List.range_succ, List.filter_append, List.foldl_append, ih]
    cases h : f n <;> simp [h]

/-- The comparison word of two lines (R251). -/
def laneLess (x y : LineData) : Word := BitVec.ofNat 64 (bitSum (fun i => f32Lt (lane x i) (lane y i)) 32)

theorem bit_laneLess (x y : LineData) {i : Nat} (hi : i < 64) :
    bit (laneLess x y) i = (decide (i < 32) && f32Lt (lane x i) (lane y i)) := by
  rw [bit, laneLess, BitVec.getLsbD_ofNat, testBit_bitSum]
  simp [hi]

section
variable {u : State} {a pc : Nat} {w : Word}

theorem vcmpShape_eff {X Y : Line} (hX : lineSrc u a u.clk (aOf w) = some X) (hY : lineSrc u a u.clk (bOf w) = some Y) :
    vcmpShape.eff a w pc (issued u a) = .ok (putScalar a (dOf w) (u.clk + 4) u.clk pc (laneLess X.data Y.data)
      (popAll a u.clk [aOf w, bOf w] (issued u a))) := by
  simp only [vcmpShape, Shape.plain, twoLines_issued hX hY, issued_clk]
  rw [laneLess, ← foldl_filter_eq_bitSum]
  rfl

theorem vsumShape_eff {X : Line} (hX : lineSrc u a u.clk (aOf w) = some X) : vsumShape.eff a w pc (issued u a) =
    .ok (putScalar a (dOf w) (u.clk + 6) u.clk pc ((laneSum X.data).setWidth 64) (popAll a u.clk [aOf w] (issued u a))) := by
  simp only [vsumShape, Shape.plain, issued_clk, lineSrc_issued, hX]

theorem vbcShape_eff : vbcShape.eff a w pc (issued u a) = .ok (putLine a (dOf w) (u.clk + 1) u.clk pc
    (bareLine (mapLanes fun _ => (scalarReg u a (aOf w % 8)).setWidth 32)) (issued u a)) := by
  simp only [vbcShape, Shape.plain, issued_clk, scalarSrc_issued]

theorem vaddShape_eff_none (h : lineSrc u a u.clk (aOf w) = none ∨ lineSrc u a u.clk (bOf w) = none) :
    vaddShape.eff a w pc (issued u a) = .error 0x01 := by
  simp only [vaddShape, laneShape, Shape.plain, twoLines_issued_none h]
  rfl

end

/-- Settles O52: each lane operation is one case of `issueRow_lane`, with its lane function. -/
theorem laneInstructions : Obligations.LaneInstructions := by
  unfold Obligations.LaneInstructions
  intro s st a u w pc hkind
  have hkind' : ∀ k, some 1 = some k → kindOf st.toNat = k := eq_of_some_eq hkind
  have hsame : SameOps a u (issued u a) := .issued u a
  refine ⟨fun X Y hX hY => ⟨fun hi => issueRow_lane _ rfl hi hkind hX hY fun i => ?_, fun hi => issueRow_lane _ rfl hi hkind hX hY fun i => ?_,
      fun hi => issueRow_lane _ rfl hi hkind hX hY fun i => rfl, fun hi => issueRow_lane _ rfl hi hkind hX hY fun i => ?_,
      fun hi => issueRow_lane _ rfl hi hkind hX hY fun i => ?_, fun hi => issueRow_lane _ rfl hi hkind hX hY fun i => ?_,
      fun hi => issueRow_lane _ rfl hi hkind hX hY fun i => ?_,
      fun hi => ⟨laneLess X.data Y.data, fun i hi' => bit_laneLess _ _ hi',
        issueRow_plain_ok rfl hi hkind' (vcmpShape_eff hX hY) ((hsame.popAll ..).putScalar ..)⟩⟩,
    fun hi => issueRow_plain_ok rfl hi hkind' vbcShape_eff (hsame.putLine ..),
    fun hi X hX => issueRow_plain_ok rfl hi hkind' (vsumShape_eff hX) ((hsame.popAll ..).putScalar ..),
    fun hi h => issueRow_plain_error rfl hi hkind' (vaddShape_eff_none h)⟩
  · simp only [intForm_iff]
    rfl
  · simp only [intForm_iff]
    rfl
  · simp only [lineReg_issued]
    rfl
  · simp only [intForm_iff, intMax_eq]
    rfl
  · simp only [intForm_iff, intMin_eq]
    rfl
  · simp only [scalarReg_issued]
    rfl

/-! ### vcvt -/

section
variable {u : State} {a pc : Nat} {w : Word}

@[simp] theorem cvData_issued (u : State) (a : Nat) (w sb : Word) (d : LineData) : cvData (issued u a) a w sb d = cvData u a w sb d := by
  have hround (i : Nat) : cvRound (issued u a) a i w = cvRound u a i w := by
    simp only [cvRound, stochDraw, State.cfgw, issued_cfg, issued_job, issued_station]
  simp only [cvData, cvCodes, hround]

theorem isQo_iff (c : Nat) : isQo c = true ↔ 8 ≤ c ∧ c < 16 := by simp [isQo]

/-- The converted group on its way to its place of the line (R246). -/
def cvResult (u : State) (a : Nat) (w : Word) (pc : Nat) (X : Line) : PendingResult :=
  let y := scalarReg u a (bOf w % 8)
  { due := u.clk + 4, issued := u.clk, place := pc
    kind :=
      if 8 ≤ dOf w ∧ dOf w < 16 then
        (if bit y 16 then .pushMerge (dOf w) { bareLine (cvData u a w y X.data) with side := cvSide w y } (fld y 15 13) (cvMask w y)
         else .push (dOf w) { bareLine (cvData u a w y X.data) with side := cvSide w y })
      else .line (dOf w % 8) (cvData u a w y X.data) (cvMask w y) }

theorem vcvtShape_eff {X : Line} (hX : lineSrc u a u.clk (aOf w) = some X) :
    vcvtShape.eff a w pc (issued u a) = .ok (addResult a (cvResult u a w pc X) (popAll a u.clk [aOf w] (issued u a))) := by
  simp only [vcvtShape, Shape.plain, vcvtEff, issued_clk, lineSrc_issued, hX, scalarSrc_issued, cvData_issued, isQo_iff]
  rfl

theorem vcvtShape_eff_none (h : lineSrc u a u.clk (aOf w) = none) : vcvtShape.eff a w pc (issued u a) = .error 0x01 := by
  simp only [vcvtShape, Shape.plain, vcvtEff, issued_clk, lineSrc_issued, h]
  rfl

/-! ### vld and vst -/

theorem vldShape_eff (hlt : storeTarget (scalarReg u a (aOf w % 8)) (immOf w) < 2048) (hfree : readFree u a u.clk = true) :
    vldShape.eff a w pc (issued u a) = .ok (putLine a (dOf w) (u.clk + 3) u.clk pc
      (bareLine (storeLine u a (storeTarget (scalarReg u a (aOf w % 8)) (immOf w)))) (takeRead a [u.clk] (issued u a))) := by
  simp only [vldShape, Shape.plain, scalarSrc_issued, inBound_storeAddr hlt, readFree_issued, issued_clk, storeLine_issued]
  exact if_neg (by simp [hfree])

theorem vldShape_eff_bound (hge : 2048 ≤ storeTarget (scalarReg u a (aOf w % 8)) (immOf w)) :
    vldShape.eff a w pc (issued u a) = .error 0x09 := by
  simp only [vldShape, Shape.plain, scalarSrc_issued, inBound_storeAddr_error hge]
  rfl

theorem vstShape_eff (hlt : storeTarget (scalarReg u a (aOf w % 8)) (immOf w) < 2048) : vstShape.eff a w pc (issued u a) =
    if storeTarget (scalarReg u a (aOf w % 8)) (immOf w) < constEnd u a then .error 0x0A
    else match lineSrc u a u.clk (bOf w) with
      | none => .error 0x01
      | some X => .ok (addResult a
        { due := u.clk + 3, issued := u.clk, place := pc, kind := .storeLine (storeTarget (scalarReg u a (aOf w % 8)) (immOf w)) X.data }
        (popAll a u.clk [bOf w] (issued u a))) := by
  simp only [vstShape, Shape.plain, scalarSrc_issued, inBound_storeAddr hlt, constEnd_issued, issued_clk, lineSrc_issued] <;> rfl

end

/-- Settles O53: each is an issue with its effect at issue; a conversion counts its draw either way. -/
theorem conversionsAndStoreLines : Obligations.ConversionsAndStoreLines := by
  unfold Obligations.ConversionsAndStoreLines
  intro s st a u w pc x y at' counted hkind
  have hkind' : ∀ k, some 1 = some k → kindOf st.toNat = k := eq_of_some_eq hkind
  have hsame : SameOps a u (issued u a) := .issued u a
  exact ⟨fun hi => ⟨fun X hX => issueRow_ok (p := vcvtShape) rfl hi (here_of hi.opcode hkind' rfl) quietAlways_vcvt (vcvtShape_eff hX)
        ((hsame.popAll ..).addResult ..),
      fun hX => issueRow_error (p := vcvtShape) rfl hi (here_of hi.opcode hkind' rfl) quietAlways_vcvt (vcvtShape_eff_none hX)⟩,
    fun hi => ⟨fun hlt hfree => issueRow_plain_ok rfl hi hkind' (vldShape_eff hlt hfree) ((hsame.takeRead ..).putLine ..),
      fun hge => issueRow_plain_error rfl hi hkind' (vldShape_eff_bound hge)⟩,
    fun hi => ⟨fun X hlt hconst hX => issueRow_plain_ok rfl hi hkind'
        ((vstShape_eff hlt).trans ((if_neg (Nat.not_lt.mpr hconst)).trans (by rw [hX]; rfl))) ((hsame.popAll ..).addResult ..),
      fun hconst hlt => issueRow_plain_error rfl hi hkind' ((vstShape_eff hlt).trans (if_pos hconst))⟩⟩

end Sys2Proof.Machine
end

section
/-!
SUPPORT. The rows of the engines' instructions (R228): what an issue leaves of the state an engine looks at, and an operation that begins.
-/

namespace Sys2Proof.Machine

/-! ### What an engine sees at an issue -/

section
variable (u : State) (a : Nat)

@[simp] theorem cfgw_issued (k : Nat) : (issued u a).cfgw k = u.cfgw k := by simp only [State.cfgw, issued_cfg]
@[simp] theorem crucible_issued (c : Nat) : (issued u a).crucible c = u.crucible c := by simp only [State.crucible, issued_crucibles]
@[simp] theorem member_issued (m : Nat) : (issued u a).member m = u.member m := by simp only [State.member, issued_members]
@[simp] theorem riddle_issued (c : Nat) : (issued u a).riddle c = u.riddle c := by simp only [State.riddle, issued_riddles]
@[simp] theorem ladle_issued (c : Nat) : (issued u a).ladle c = u.ladle c := by simp only [State.ladle, issued_ladles]
@[simp] theorem mould_issued (c : Nat) : (issued u a).mould c = u.mould c := by simp only [State.mould, issued_moulds]
@[simp] theorem sorter_issued (c : Nat) : (issued u a).sorter c = u.sorter c := by simp only [State.sorter, issued_sorters]
@[simp] theorem slotNow_issued : (issued u a).slotNow = u.slotNow := by
  simp only [State.slotNow, slotClkOf, pourClks_issued, pourOff_issued, issued_job]
@[simp] theorem openOps_issued (ks : List EngineKind) : openOps (issued u a) a ks = openOps u a ks := by
  simp only [openOps, issued_ops, issued_clk]

/-- An operation made at issue holds the scalars as they were before it. -/
theorem newOp_issued (kind : EngineKind) (agenda : List (Nat × EngineStep)) (finish : Nat) :
    newOp kind a (wordAt u a) (u.station a).pc agenda finish (issued u a) = opHere u a kind agenda finish := by
  simp only [newOp, opHere, issued_clk, scalarSrc_issued, operandA, operandB]

end

/-! ### Rows -/

section
variable {p : Shape} {s u : State} {st : StAddr} {lat : Nat} {f : State → State}

/-- An engine's instruction that starts no operation: it issues with its effect, and completes by its latency. -/
theorem issueRow_issuedWith (hp : p.always = fun _ _ _ s => s) (hu : settle st.toNat s = u) (hi : Issuable u st.toNat p.code)
    (hhere : p.here u st.toNat = true) (hfin : p.fin (issued u st.toNat) st.toNat (wordAt u st.toNat) u.clk = u.clk + lat)
    (heff : p.eff st.toNat (wordAt u st.toNat) (u.station st.toNat).pc (issued u st.toNat) = .ok (f (issued u st.toNat)))
    (hf : SameOps st.toNat u (f (issued u st.toNat))) : issueRow p st s = .next (issuedWith u st.toNat lat f) := by
  rw [issueRow_ok hu hi hhere (quietAlways_of_id hp) heff hf, hp, hfin]
  rfl

/-- An engine's instruction that a violation suppresses. -/
theorem issueRow_suppressed {c : Nat} (hp : p.always = fun _ _ _ s => s) (hu : settle st.toNat s = u) (hi : Issuable u st.toNat p.code)
    (hhere : p.here u st.toNat = true) (hfin : p.fin (issued u st.toNat) st.toNat (wordAt u st.toNat) u.clk = u.clk + lat)
    (heff : p.eff st.toNat (wordAt u st.toNat) (u.station st.toNat).pc (issued u st.toNat) = .error c) :
    issueRow p st s = .next (suppressed u st.toNat lat c) := by
  rw [issueRow_error hu hi hhere (quietAlways_of_id hp) heff, hp, hfin]
  rfl

theorem startOp_ops (a : Nat) (op : EngineOp) (s : State) : ((startOp a op s).station a).ops = (s.station a).ops ++ [op] := by
  rw [startOp, State.setStation_station]

/-- An effect that starts an operation, whatever else it does to the engine. -/
theorem issueRow_engine {op : EngineOp} {v : State} (hp : p.always = fun _ _ _ s => s) (hu : settle st.toNat s = u)
    (hi : Issuable u st.toNat p.code) (hhere : p.here u st.toNat = true)
    (heff : p.eff st.toNat (wordAt u st.toNat) (u.station st.toNat).pc (issued u st.toNat) = .ok v)
    (hop : op ∈ (v.station st.toNat).ops) (ht : op.t = u.clk) (hk : op.kind ≠ .postRead) :
    issueRow p st s = .next (engAdvance st.toNat v) := by
  rw [issueRow_starts hu hi hhere heff ⟨op, hop, ht, hk⟩, hp]

/-- An engine's instruction whose operation begins and has its steps of this clk done. -/
theorem issueRow_working {op : EngineOp} (hp : p.always = fun _ _ _ s => s) (hu : settle st.toNat s = u)
    (hi : Issuable u st.toNat p.code) (hhere : p.here u st.toNat = true)
    (heff : p.eff st.toNat (wordAt u st.toNat) (u.station st.toNat).pc (issued u st.toNat) =
      .ok (startOp st.toNat op (f (issued u st.toNat))))
    (ht : op.t = u.clk) (hk : op.kind ≠ .postRead) : issueRow p st s = .next (working u st.toNat op f) :=
  issueRow_engine hp hu hi hhere heff (by rw [startOp_ops]; simp) ht hk

/-- The row of an engine's opcode is the one at the pc. -/
theorem IssuesAs.here {a code kind : Nat} (h : IssuesAs u a code kind) (hcode : p.code = code) (hkind : p.kind = some kind)
    (hsel : p.sel (wordAt u a) = true) : p.here u a = true :=
  here_of (h.issuable.opcode.trans hcode.symm) (fun _ hk => h.station.trans (Option.some.inj (hkind.symm.trans hk))) hsel

end

end Sys2Proof.Machine
end

section
/-!
SUPPORT. The Crucible's instructions (R264, R278 to R280).
-/

namespace Sys2Proof.Machine

/-! ### Groups and instances at an issue -/

section
variable (u : State) (a : Nat)

@[simp] theorem instWord_issued (i w : Nat) : instWord (issued u a) i w = instWord u i w := cfgw_issued ..
@[simp] theorem groupWord_issued (g i : Nat) : groupWord (issued u a) g i = groupWord u g i := cfgw_issued ..
@[simp] theorem iGroup_issued (i : Nat) : iGroup (issued u a) i = iGroup u i := by simp only [iGroup, instWord_issued]
@[simp] theorem instOk_issued (c i : Nat) : instOk (issued u a) c i = instOk u c i := by
  simp only [instOk, iValid, iCrucible, gValid, issued_cfg, instWord_issued, groupWord_issued, iGroup_issued]
@[simp] theorem deadline_issued (i : Nat) : deadline (issued u a) i = deadline u i := by
  simp only [deadline, slotClkOf, instWord_issued, pourClks_issued]
@[simp] theorem rowsOverlap_issued (i j : Nat) : rowsOverlap (issued u a) i j = rowsOverlap u i j := by
  simp only [rowsOverlap, iRow, iRows, instWord_issued]
  rfl
@[simp] theorem instOf_issued (c i : Nat) : instOf (issued u a) c i = instOf u c i := by simp only [instOf, crucible_issued]
@[simp] theorem isOpen_issued (c i : Nat) : isOpen (issued u a) c i = isOpen u c i := by
  simp only [isOpen, instOf_issued, issued_clk]
@[simp] theorem intakeComplete_issued (c i : Nat) : intakeComplete (issued u a) c i = intakeComplete u c i := by
  obtain ⟨g, hg⟩ := issued_eq u a
  rw [hg]
  rfl

end

/-- A loop over a list is another one when their bodies agree on the states that the loop runs through. -/
theorem each_congr {σ α : Type} {f g : α → σ → σ} (P : σ → Prop) (hfg : ∀ x v, P v → f x v = g x v) (hP : ∀ x v, P v → P (g x v)) :
    ∀ (l : List α) {v : σ}, P v → each l f v = each l g v
  | [], _, _ => rfl
  | x :: l, v, hv => by
    show each l f (f x v) = each l g (g x v)
    rw [hfg x v hv, each_congr P hfg hP l (hP x v hv)]

theorem SameOps.putPush {a : Nat} {u v : State} (h : SameOps a u v) (b d due t place : Nat) (l : Line) :
    SameOps a u (putPush b d due t place l v) := h.addResult ..

theorem SameOps.setCrucible {a : Nat} {u v : State} (h : SameOps a u v) (c : Nat) (f : Crucible → Crucible) :
    SameOps a u (v.setCrucible c f) := ⟨h.ops, h.clk⟩

/-! ### Effects at issue -/

section
variable {u : State} {a : Nat} {w : Word} {pc : Nat}

theorem crOpenShape_eff : crOpenShape.eff a w pc (issued u a) =
    let i := (scalarReg u a (aOf w % 8)).toNat
    if instOk u a i = false ∨ deadline u i + 72 < u.slotNow + 8 then .error 0x09
    else if ∃ e ∈ (u.crucible a).insts, e.2.closed = false ∧ rowsOverlap u e.1 i = true then .error 0x03
    else .ok ((issued u a).setCrucible a fun c => { c with insts := tset c.insts i (OpenInst.fresh (u.clk + 8)) }) := by
  simp only [crOpenShape, engineShape, Shape.plain, crOpen, scalarSrc_issued, instOk_issued, deadline_issued, slotNow_issued, crucible_issued, rowsOverlap_issued, issued_clk,
    List.any_eq_true, Bool.and_eq_true, Bool.not_eq_true']
  cases instOk u a (scalarReg u a (aOf w % 8)).toNat
  · rfl
  · simp only [Bool.true_eq_false, false_or, if_false]
    rfl

/-- The operation of a feed: the tile's lines are popped and taken, one a clk (R279). -/
theorem crFeedShape_eff {l : Line} (hi : instOk u a (fld (scalarReg u a (bOf w % 8)) 15 0) = true)
    (ho : isOpen u a (fld (scalarReg u a (bOf w % 8)) 15 0) = true) (hready : popReady u a (aOf w) u.clk = true)
    (hl : (endLines u a (aOf w)).head? = some l) (hfirst : bit l.side 23 = true) :
    crFeedShape.eff a w pc (issued u a) = .ok (startOp a
      { kind := .crFeed, t := u.clk, word := w, place := pc, sa := 0, sb := scalarReg u a (bOf w % 8)
        agenda := (List.range (tileCount l.side)).flatMap fun k => [(u.clk + k, .pop (aOf w)), (u.clk + k, .act k)]
        taken := [], finish := u.clk + tileCount l.side - 1 } (issued u a)) := by
  obtain ⟨ls, hls⟩ := List.head?_eq_some_iff.mp hl
  simp only [crFeedShape, engineShape, Shape.plain, crFeed, scalarSrc_issued, instOk_issued, isOpen_issued, hi, ho, popReady_issued, endLines_issued, issued_clk, hready, hls,
    hfirst, Bool.not_true, Bool.or_self, Bool.false_eq_true, if_false]
  rfl

theorem crEmitShape_eff {o : OpenInst} (ho : instOf u a (scalarReg u a (aOf w % 8)).toNat = some o)
    (hi : instOk u a (scalarReg u a (aOf w % 8)).toNat = true) (hopen : isOpen u a (scalarReg u a (aOf w % 8)).toNat = true) :
    crEmitShape.eff a w pc (issued u a) =
      let i := (scalarReg u a (aOf w % 8)).toNat
      let b := scalarReg u a (bOf w % 8)
      if o.retracted = false ∧ intakeComplete u a i = false then .error 0x01
      else .ok (each (List.range (fld b 36 32 + 1)) (fun j z => putPush a (dOf w) (u.clk + 8 + j / 2) u.clk pc
        { bareLine (resultLine z o (iGroup u i) (fld b 59 48) (fld b 31 0) j) with
          side := tileSide (resultFormat z (iGroup u i)) j (fld b 36 32 + 1) } z) (issued u a)) := by
  simp only [crEmitShape, engineShape, Shape.plain, crEmit, emitLines, scalarSrc_issued, instOk_issued, isOpen_issued, instOf_issued, intakeComplete_issued, iGroup_issued, ho, hi,
    hopen, Bool.not_true, Bool.or_self, Bool.false_eq_true, if_false, Bool.and_eq_true, Bool.not_eq_true']
  refine congrArg (ite _ _) (congrArg Except.ok (each_congr (fun v : State => v.clk = u.clk) ?_ ?_ _ (issued_clk u a)))
  · intro j v hv
    rw [hv]
  · intro j v hv
    exact hv

/-- Two lines of a result tile go out a clk, the first at issue + 8 (R279). -/
theorem crEmitShape_fin (t : Nat) : crEmitShape.fin (issued u a) a w t = t + (8 + fld (scalarReg u a (bOf w % 8)) 36 32 / 2) := by
  simp only [crEmitShape, engineShape, Shape.plain, emitLines, scalarSrc_issued, Nat.add_sub_cancel, Nat.add_assoc]

theorem crCloseShape_eff (hi : instOk u a (scalarReg u a (aOf w % 8)).toNat = true)
    (ho : isOpen u a (scalarReg u a (aOf w % 8)).toNat = true) :
    crCloseShape.eff a w pc (issued u a) = .ok ((issued u a).setCrucible a fun c => { c with
      insts := c.insts.map fun e => if e.1 = (scalarReg u a (aOf w % 8)).toNat then (e.1, { e.2 with closed := true }) else e }) := by
  simp only [crCloseShape, engineShape, Shape.plain, crClose, scalarSrc_issued, instOk_issued, isOpen_issued, hi, ho, Bool.not_true, Bool.or_self, Bool.false_eq_true, if_false]
  rfl

end

/-- Settles O54: each row issues with its effect at issue. -/
theorem crucibleInstructions : Obligations.CrucibleInstructions := by
  unfold Obligations.CrucibleInstructions
  intro s st a u w x y
  have hu : settle st.toNat s = u := rfl
  clear_value u
  have hsame : SameOps a u (issued u a) := .issued u a
  refine ⟨fun h => ⟨fun hok hin hfree => ?_, fun hbad => ?_, fun hok hin hrows => ?_⟩, fun h l hok hopen hready hl hfirst => ?_,
    fun h => ⟨fun o ho hok hopen hwhole => ?_, fun o ho hok hopen hkept hpart => ?_⟩, fun h hok hopen => ?_⟩
  · refine issueRow_plain_ok hu h.issuable (eq_of_some_eq h.station) ((crOpenShape_eff (pc := (u.station a).pc)).trans ((if_neg ?_).trans (if_neg ?_))) (hsame.setCrucible ..)
    · exact not_or.mpr ⟨fun hn => Bool.false_ne_true (hn.symm.trans hok), Nat.not_lt.mpr hin⟩
    · rintro ⟨e, he, hopen, hrows⟩
      exact Bool.false_ne_true ((hfree e he hopen).symm.trans hrows)
  · exact issueRow_plain_error hu h.issuable (eq_of_some_eq h.station) ((crOpenShape_eff (pc := (u.station a).pc)).trans (if_pos hbad))
  · exact issueRow_plain_error hu h.issuable (eq_of_some_eq h.station) ((crOpenShape_eff (pc := (u.station a).pc)).trans
      ((if_neg (not_or.mpr ⟨fun hn => Bool.false_ne_true (hn.symm.trans hok), Nat.not_lt.mpr hin⟩)).trans (if_pos hrows)))
  · exact issueRow_working (p := crFeedShape) (f := id) rfl hu h.issuable (h.here rfl rfl rfl) (crFeedShape_eff hok hopen hready hl hfirst)
      rfl nofun
  · refine issueRow_issuedWith (p := crEmitShape) rfl hu h.issuable (h.here rfl rfl rfl) ?_
      ((crEmitShape_eff ho hok hopen).trans (if_neg ?_)) (SameOps.each (fun _ _ hv => hv.putPush ..) _ hsame)
    · exact crEmitShape_fin _
    · rintro ⟨hkept, hpart⟩
      obtain hr | hr := hwhole
      · exact Bool.false_ne_true (hkept.symm.trans hr)
      · exact Bool.false_ne_true (hpart.symm.trans hr)
  · refine issueRow_suppressed (p := crEmitShape) rfl hu h.issuable (h.here rfl rfl rfl) ?_
      ((crEmitShape_eff ho hok hopen).trans (if_pos ⟨hkept, hpart⟩))
    exact crEmitShape_fin _
  · exact issueRow_plain_ok hu h.issuable (eq_of_some_eq h.station) (crCloseShape_eff (pc := (u.station a).pc) hok hopen) (hsame.setCrucible ..)

end Sys2Proof.Machine
end

section
/-!
SUPPORT. The instructions of the Riddle and the Mould (R309, R311, R322 to R324).
-/

namespace Sys2Proof.Machine

section
variable (u : State) (a : Nat)

@[simp] theorem mapAgenda_issued : mapAgenda (issued u a) a = mapAgenda u a := by
  simp only [mapAgenda, issued_clk, readFree_issued]
@[simp] theorem mapBusy_issued : mapBusy (issued u a) a = mapBusy u a := by simp only [mapBusy, openOps_issued, issued_clk]
@[simp] theorem progNow_issued : progNow (issued u a) a = progNow u a := by simp only [progNow, riddle_issued, issued_clk]
@[simp] theorem runBusy_issued (sb : Word) : runBusy (issued u a) a sb = runBusy u a sb := by
  simp only [runBusy, openOps_issued, issued_clk]
@[simp] theorem bankOf_issued (k : Nat) : bankOf (issued u a) a k = bankOf u a k := by simp only [bankOf, mould_issued]
@[simp] theorem rowOf_issued (r : Nat) : rowOf (issued u a) a r = rowOf u a r := by simp only [rowOf, mould_issued]
@[simp] theorem pathDepthBad_issued (b : Bank) : pathDepthBad (issued u a) a b = pathDepthBad u a b := by
  simp only [pathDepthBad, ladle_issued, issued_clk]

end

theorem SameOps.setRiddle {a : Nat} {u v : State} (h : SameOps a u v) (c : Nat) (f : Riddle → Riddle) :
    SameOps a u (v.setRiddle c f) := ⟨h.ops, h.clk⟩

/-! ### rd.load -/

/-- The line that an rd.load names: its base and a 9-bit immediate, modulo 2^64 (R226, R309). -/
def loadBase (v : Word) (imm : Nat) : Nat := (v + BitVec.ofNat 64 (imm % 512)).toNat

theorem inBound_loadBase {n : Nat} {v : Word} {imm : Nat} (h : loadBase v imm < n) :
    inBound n (storeAddr v ((imm % 512 : Nat) : Int)) = .ok (loadBase v imm) := by
  rw [storeAddr, BitVec.ofInt_natCast, inBound]
  exact (if_pos ⟨Int.natCast_nonneg _, Int.ofNat_lt.mpr h⟩).trans (congrArg _ (Int.toNat_natCast _))

section
variable {u : State} {a : Nat}

theorem rdLoadShape_eff_map (hmap : bit (BitVec.ofNat 10 (immOf (wordAt u a))) 9 = true)
    (hbase : loadBase (operandA u a) (immOf (wordAt u a)) < 1985) (hfree : mapBusy u a = false) :
    rdLoadShape.eff a (wordAt u a) (u.station a).pc (issued u a) = .ok (startOp a
      { opHere u a .rdLoadMap (mapAgenda u a ++ [(u.clk + 66, .act 128)]) (u.clk + 66) with
        sa := BitVec.ofNat 64 (loadBase (operandA u a) (immOf (wordAt u a))) }
      (takeRead a (((List.range 64).map (u.clk + ·)).filter (readFree u a)) (issued u a))) := by
  have hread : readFree (issued u a) a = readFree u a := funext (readFree_issued u a)
  have hbound := inBound_loadBase hbase
  rw [operandA] at hbound
  simp only [rdLoadShape, engineShape, Shape.plain, rdLoad, scalarSrc_issued, hmap, hbound, mapBusy_issued, hfree, newOp_issued,
    mapAgenda_issued, issued_clk, hread, if_true]
  rfl

theorem rdLoadShape_eff_prog (hprog : bit (BitVec.ofNat 10 (immOf (wordAt u a))) 9 = false)
    (hbase : loadBase (operandA u a) (immOf (wordAt u a)) < 2048) (hfree : readFree u a u.clk = true) :
    rdLoadShape.eff a (wordAt u a) (u.station a).pc (issued u a) =
      let d := storeLine u a (loadBase (operandA u a) (immOf (wordAt u a)))
      if progBad d then .error 0x09
      else .ok ((takeRead a [u.clk] (issued u a)).setRiddle a fun r =>
        { r with prog := progNow u a
                 coming := (r.coming.filter fun e => decide (u.clk < e.1)) ++ [(u.clk + 3, (List.range 16).zip (wordsOf d))] }) := by
  have hbound := inBound_loadBase hbase
  rw [operandA] at hbound
  simp only [rdLoadShape, engineShape, Shape.plain, rdLoad, scalarSrc_issued, hprog, hbound, readFree_issued, hfree, issued_clk,
    storeLine_issued, progNow_issued]
  rfl

theorem rdLoadShape_fin (hprog : bit (BitVec.ofNat 10 (immOf (wordAt u a))) 9 = false) (hop : opOf (wordAt u a) = 0x40) (t : Nat) :
    rdLoadShape.fin (issued u a) a (wordAt u a) t = t + 3 := by
  simp only [rdLoadShape, engineShape, Shape.plain, riddleFinish, hop, hprog]
  rfl

/-! ### rd.run -/

theorem rdRunShape_eff (hword : runBad (operandB u a) = false) (hfree : runBusy u a (operandB u a) = false) :
    rdRunShape.eff a (wordAt u a) (u.station a).pc (issued u a) = .ok (startOp a
      { opHere u a .rdRun ((List.range (fld (operandB u a) 4 0 + 1)).map (fun j => (u.clk + j, EngineStep.pop (aOf (wordAt u a)))) ++
          [(u.clk + (fld (operandB u a) 4 0 + 1) - 1, .act 0)]) (runLast (operandB u a) u.clk) with
        taken := [some (bareLine (lineOfCodes 64 ((List.range 16).map fun i => (tget 0 (progNow u a) i).toNat)))] } (issued u a)) := by
  rw [operandB] at hword hfree
  simp only [rdRunShape, engineShape, Shape.plain, rdRun, scalarSrc_issued, hword, runBusy_issued, hfree, newOp_issued, issued_clk,
    progNow_issued, Bool.false_eq_true, if_false]
  rfl

/-! ### mo.wload, mo.mac, mo.drain -/

theorem moWloadShape_eff_ladle (hsrc : fromLadle (wordAt u a) = true)
    (hfree : (openOps u a [.moWload, .moMac]).any (fun o => bankUsed o == wlBank (operandB u a)) = false) :
    moWloadShape.eff a (wordAt u a) (u.station a).pc (issued u a) = .ok (startOp a
      (opHere u a .moWload ((List.range 64).map (fun c => (u.clk + c, EngineStep.act c)) ++ [(u.clk + 66, .act 65536)]) (u.clk + 66))
      (setBank a (wlBank (operandB u a)) (fun _ => { Bank.reset with ladle := true }) (issued u a))) := by
  rw [operandB] at hfree
  simp only [moWloadShape, engineShape, Shape.plain, moWload, scalarSrc_issued, wloadFinish, hsrc, openOps_issued, hfree, newOp_issued,
    issued_clk, Bool.not_true, Bool.false_and, Bool.false_eq_true, if_false, if_true]
  rfl

theorem moWloadShape_eff_queue (hsrc : fromLadle (wordAt u a) = false) (hfa : wlFa (operandB u a) < 8) (hfw : wlFw (operandB u a) < 8)
    (hfree : (openOps u a [.moWload, .moMac]).any (fun o => bankUsed o == wlBank (operandB u a)) = false) :
    let y := operandB u a
    let fin := u.clk + (blockLines (wlFa y) (wlFw y) - 1) / 2 + 2
    moWloadShape.eff a (wordAt u a) (u.station a).pc (issued u a) = .ok (startOp a
      (opHere u a .moWload ((List.range (blockLines (wlFa y) (wlFw y))).map (fun j => (u.clk + j / 2, EngineStep.pop (aOf (wordAt u a)))) ++
        [(fin, .act 65536)]) fin)
      (setBank a (wlBank y) (fun _ => { Bank.reset with ladle := false, fa := wlFa y, fw := wlFw y }) (issued u a))) := by
  rw [operandB] at hfree hfa hfw
  simp only [moWloadShape, engineShape, Shape.plain, moWload, scalarSrc_issued, wloadFinish, hsrc, openOps_issued, hfree, newOp_issued,
    issued_clk, Bool.not_false, Bool.true_and, Bool.false_eq_true, if_false, Nat.not_le.mpr hfa, Nat.not_le.mpr hfw, decide_false,
    Bool.or_self]
  rfl

/-- What a mo.mac does at its issue: its operation begins and each of its rows has an add on its way (R323, R324). -/
def macBegins (u : State) (a : Nat) (v : State) : State :=
  let y := operandB u a
  let b := bankOf u a (fld y 16 16)
  each (List.range (fld y 15 8 + 1)) (fun j => setRow a (fld y 7 0 + j) fun r =>
    { r with adds := r.adds ++ [{ due := u.clk + j + 12, top := macFirst b y + bankGroups b - 1, clear := bit y 17, sums := none }] })
    (startOp a (opHere u a .moMac (macAgenda (wordAt u a) y (vecsPerLine b) u.clk) (u.clk + fld y 15 8 + 12)) v)

/-- No row of a mo.mac has a group at or above its first one (R323). -/
theorem rowsBelow {rows : Nat → AccRow} {r0 n top : Nat} {clear : Bool}
    (h : clear = true ∨ ∀ j < n, ∀ g, rowLast (rows (r0 + j)) = some g → g < top) :
    (!clear && ((List.range n).map (r0 + ·)).any fun r => match rowLast (rows r) with | some g => decide (top ≤ g) | none => false) = false := by
  obtain rfl | h := h
  · rfl
  · rw [Bool.and_eq_false_iff, List.any_eq_false]
    refine .inr fun r hr => ?_
    obtain ⟨j, hj, rfl⟩ := List.mem_map.mp hr
    cases hlast : rowLast (rows (r0 + j)) with
    | none => simp
    | some g => simpa using h j (List.mem_range.mp hj) g hlast

theorem moMacShape_eff (hrows : fld (operandB u a) 7 0 + (fld (operandB u a) 15 8 + 1) ≤ 256)
    (hload : (openOps u a [.moWload]).any (fun o => wlBank o.sb == fld (operandB u a) 16 16) = false)
    (hmac : (openOps u a [.moMac]).any (fun o => decide (u.clk < o.t + mcVecs o.sb)) = false)
    (hbank : (bankOf u a (fld (operandB u a) 16 16)).loaded = true)
    (hsrc : (bankOf u a (fld (operandB u a) 16 16)).ladle = fromLadle (wordAt u a))
    (hdepth : fromLadle (wordAt u a) = true → pathDepthBad u a (bankOf u a (fld (operandB u a) 16 16)) = false)
    (hbelow : bit (operandB u a) 17 = true ∨ ∀ j < fld (operandB u a) 15 8 + 1, ∀ g,
      rowLast (rowOf u a (fld (operandB u a) 7 0 + j)) = some g → g < macFirst (bankOf u a (fld (operandB u a) 16 16)) (operandB u a)) :
    moMacShape.eff a (wordAt u a) (u.station a).pc (issued u a) = .ok (macBegins u a (issued u a)) := by
  have hdepth' : (fromLadle (wordAt u a) && pathDepthBad u a (bankOf u a (fld (operandB u a) 16 16))) = false := by
    cases hl : fromLadle (wordAt u a)
    · rfl
    · simpa using hdepth hl
  have hbelow' := rowsBelow hbelow
  have hB : scalarReg u a (bOf (wordAt u a) % 8) = operandB u a := rfl
  simp only [moMacShape, engineShape, Shape.plain, moMac, scalarSrc_issued, hB, mcVecs, mcRow, Nat.not_lt.mpr hrows, openOps_issued, hload,
    issued_clk, bankOf_issued, hbank, hsrc, bne_self_eq_false, pathDepthBad_issued, hdepth', mcClear, rowOf_issued, newOp_issued,
    Bool.not_true, Bool.or_self, Bool.false_eq_true, if_false]
  exact (if_neg (Bool.eq_false_iff.mp hmac)).trans (if_neg (Bool.eq_false_iff.mp hbelow'))

theorem moDrainShape_eff (hrows : fld (operandB u a) 7 0 + fld (operandB u a) 11 8 + 1 ≤ 256) :
    moDrainShape.eff a (wordAt u a) (u.station a).pc (issued u a) = .ok (startOp a
      (opHere u a .moDrain ((List.range (fld (operandB u a) 11 8 + 1)).map fun j => (u.clk + 2 + j, .act j))
        (u.clk + 4 + fld (operandB u a) 11 8)) (issued u a)) := by
  have hB : scalarReg u a (bOf (wordAt u a) % 8) = operandB u a := rfl
  simp only [moDrainShape, engineShape, Shape.plain, moDrain, scalarSrc_issued, hB, newOp_issued, issued_clk]
  exact if_neg (Nat.not_lt.mpr hrows)

/-- The rows' adds leave the stations alone. -/
theorem setRows_station (l : List Nat) (r : Nat → Nat) (f : Nat → AccRow → AccRow) (b : Nat) : ∀ v : State,
    (each l (fun j => setRow a (r j) (f j)) v).station b = v.station b := by
  induction l with
  | nil => exact fun _ => rfl
  | cons j l ih => exact fun v => (ih _).trans rfl

end

/-- Settles O55: each row issues, and its operation begins with its agenda. -/
theorem riddleAndMouldInstructions : Obligations.RiddleAndMouldInstructions := by
  unfold Obligations.RiddleAndMouldInstructions
  intro s st a u t w y base
  have hu : settle st.toNat s = u := rfl
  clear_value u
  have hsame : SameOps a u (issued u a) := .issued u a
  refine ⟨fun h => ⟨fun hmap hbase hfree => ?_, fun hprog hbase hfree hgood => ?_, fun hprog hbase hfree hbad => ?_⟩,
    fun h hword hfree => ?_, fun h hfree => ⟨fun hsrc => ?_, fun hsrc hfa hfw => ?_⟩, fun h => ?_, fun h hrows => ?_⟩
  · exact issueRow_working (p := rdLoadShape) (f := takeRead a _) rfl hu h.issuable (h.here rfl rfl rfl)
      (rdLoadShape_eff_map hmap hbase hfree) rfl nofun
  · exact issueRow_issuedWith (p := rdLoadShape) rfl hu h.issuable (h.here rfl rfl rfl) (rdLoadShape_fin hprog h.issuable.opcode _)
      ((rdLoadShape_eff_prog hprog hbase hfree).trans (if_neg (Bool.eq_false_iff.mp hgood))) ((hsame.takeRead ..).setRiddle ..)
  · exact issueRow_suppressed (p := rdLoadShape) rfl hu h.issuable (h.here rfl rfl rfl) (rdLoadShape_fin hprog h.issuable.opcode _)
      ((rdLoadShape_eff_prog hprog hbase hfree).trans (if_pos hbad))
  · exact issueRow_working (p := rdRunShape) (f := id) rfl hu h.issuable (h.here rfl rfl rfl) (rdRunShape_eff hword hfree) rfl nofun
  · exact issueRow_working (p := moWloadShape) (f := setBank a _ _) rfl hu h.issuable (h.here rfl rfl rfl)
      (moWloadShape_eff_ladle (beq_iff_eq.mpr hsrc) hfree) rfl nofun
  · have hqueue : fromLadle w = false := by
      rw [fromLadle, hsrc]
      rfl
    exact issueRow_working (p := moWloadShape) (f := setBank a _ _) rfl hu h.issuable (h.here rfl rfl rfl)
      (moWloadShape_eff_queue hqueue hfa hfw hfree) rfl nofun
  · intro b n r0 hrows hload hmac hbank hsrc hdepth hbelow
    refine issueRow_engine (p := moMacShape) (v := macBegins u a (issued u a))
      (op := opHere u a .moMac (macAgenda w y (vecsPerLine b) t) (t + fld y 15 8 + 12)) rfl hu h.issuable (h.here rfl rfl rfl)
      (moMacShape_eff hrows hload hmac hbank hsrc hdepth hbelow) ?_ rfl nofun
    rw [macBegins, setRows_station, startOp_ops]
    exact List.mem_append_right _ (List.mem_singleton.mpr rfl)
  · exact issueRow_working (p := moDrainShape) (f := id) rfl hu h.issuable (h.here rfl rfl rfl) (moDrainShape_eff hrows) rfl nofun

end Sys2Proof.Machine
end

section
/-!
SUPPORT. The instructions of the Ladle (R325, R326, R329 to R331, R333, R336).
-/

namespace Sys2Proof.Machine

section
variable (u : State) (a : Nat)

@[simp] theorem walkCtl_issued (w : Word) : walkCtl (issued u a) a w = walkCtl u a w := by simp only [walkCtl, scalarReg_issued]

/-- A walk begun at issue, with the scalars as they were before it. -/
theorem walkOp_issued (kind : EngineKind) (agenda : List (Nat × EngineStep)) (finish : Nat) :
    walkOp kind a (wordAt u a) (u.station a).pc agenda finish (issued u a) =
      { opHere u a kind agenda finish with sb := walkCtl u a (wordAt u a) } := by
  simp only [walkOp, newOp_issued, walkCtl_issued]

@[simp] theorem headTile_issued (e : Nat) : headTile (issued u a) a e = headTile u a e := by simp only [headTile, endLines_issued]
@[simp] theorem mapHeads_issued (ctl w : Word) : mapHeads (issued u a) a ctl w = mapHeads u a ctl w := by
  simp only [mapHeads, headTile_issued, endLines_issued]
@[simp] theorem mergeFault_issued (ctl w : Word) : mergeFault (issued u a) a ctl w = mergeFault u a ctl w := by
  simp only [mergeFault, endLines_issued]
@[simp] theorem skimFault_issued (w : Word) : skimFault (issued u a) a w = skimFault u a w := by
  simp only [skimFault, headTile_issued, endLines_issued]
@[simp] theorem layerWord_issued (l i : Nat) : layerWord (issued u a) l i = layerWord u l i := cfgw_issued ..
@[simp] theorem lyValid_issued (l : Nat) : lyValid (issued u a) l = lyValid u l := by simp only [lyValid, layerWord_issued]
@[simp] theorem lyPolicy_issued (l : Nat) : lyPolicy (issued u a) l = lyPolicy u l := by simp only [lyPolicy, layerWord_issued]
@[simp] theorem lyNeurons_issued (l : Nat) : lyNeurons (issued u a) l = lyNeurons u l := by simp only [lyNeurons, layerWord_issued]
@[simp] theorem skEmits_issued (ctl w : Word) : skEmits (issued u a) ctl w = skEmits u ctl w := by
  simp only [skEmits, lyPolicy_issued]
@[simp] theorem skFinish_issued (ctl w : Word) (t : Nat) : skFinish (issued u a) ctl w t = skFinish u ctl w t := by
  simp only [skFinish, skEmits_issued, skListLines, lyBudget, layerWord_issued]

end

/-- No walk is under way. -/
def ladleFree (u : State) (a : Nat) : Prop := ∀ o ∈ (u.station a).ops, walkKinds.contains o.kind = true → o.finish ≤ u.clk

section
variable {u : State} {a : Nat}

theorem openOps_of_ladleFree (h : ladleFree u a) : openOps u a walkKinds = [] := by
  rw [openOps, List.filter_eq_nil_iff]
  intro o ho hopen
  obtain ⟨hk, hlt⟩ := Bool.and_eq_true_iff.mp hopen
  exact absurd (of_decide_eq_true hlt) (Nat.not_lt.mpr (h o ho hk))

theorem walkBusy_issued_of_ladleFree (h : ladleFree u a) : walkBusy (issued u a) a = false := by
  rw [walkBusy, openOps_issued, openOps_of_ladleFree h]
  rfl

/-! ### la.mode -/

theorem laModeShape_eff (hallot : fld (operandA u a) 2 0 ≤ 4) (hfw : modeFw (operandA u a) < 8) (hfa : modeFa (operandA u a) < 8)
    (hfree : ladleFree u a) : laModeShape.eff a (wordAt u a) (u.station a).pc (issued u a) =
      .ok (startOp a (opHere u a .laMode [(u.clk + 1, .act 0)] (u.clk + 1)) (issued u a)) := by
  rw [operandA] at hallot hfw hfa
  simp only [laModeShape, engineShape, Shape.plain, laMode, scalarSrc_issued, Nat.not_lt.mpr hallot, Nat.not_le.mpr hfw, Nat.not_le.mpr hfa,
    openOps_issued, openOps_of_ladleFree hfree, issued_clk, newOp_issued, decide_false, Bool.or_self, Bool.false_eq_true, if_false]
  rfl

theorem laModeShape_eff_reserved (hallot : 4 < fld (operandA u a) 2 0) :
    laModeShape.eff a (wordAt u a) (u.station a).pc (issued u a) = .error 0x09 := by
  rw [operandA] at hallot
  simp only [laModeShape, engineShape, Shape.plain, laMode, scalarSrc_issued, hallot, decide_true, Bool.true_or, if_true]
  rfl

/-! ### The walks -/

theorem laWalkMapShape_eff (hfree : ladleFree u a) : laWalkMapShape.eff a (wordAt u a) (u.station a).pc (issued u a) =
    let m := (u.ladle a).mode
    let ctl := walkCtl u a (wordAt u a)
    if (mapHeads u a ctl (wordAt u a)).any (mapTileBad m) then .error 0x09
    else .ok (startOp a { opHere u a .laMap ((List.range (mapTotal m ctl)).map (fun j => (u.clk + j / 2, .act j)) ++
      [(mapFinish m ctl u.clk, .act 65536)]) (mapFinish m ctl u.clk) with sb := ctl } (issued u a)) := by
  simp only [laWalkMapShape, walkShape, engineShape, Shape.plain, laMap, walkBusy_issued_of_ladleFree hfree, ladle_issued, walkCtl_issued,
    mapHeads_issued, walkOp_issued, issued_clk, Bool.false_eq_true, if_false]
  rfl

theorem laWalkPassShape_eff (hfree : ladleFree u a) (hmap : (u.ladle a).map ≠ none)
    (hgood : passFault (passLb (walkCtl u a (wordAt u a))) (tilesOf (passVecs (walkCtl u a (wordAt u a)))
      (endLines u a (aOf (wordAt u a)))) = false) : laWalkPassShape.eff a (wordAt u a) (u.station a).pc (issued u a) =
    .ok (startOp a { opHere u a .laPass (passAgenda (walkCtl u a (wordAt u a)) u.clk) (passFinish (walkCtl u a (wordAt u a)) u.clk) with
      sb := walkCtl u a (wordAt u a) } (issued u a)) := by
  obtain ⟨m, hm⟩ := Option.ne_none_iff_exists'.mp hmap
  simp only [laWalkPassShape, walkShape, engineShape, Shape.plain, laPass, openOps_issued, openOps_of_ladleFree hfree, ladle_issued,
    walkCtl_issued, endLines_issued, hm, hgood, walkOp_issued, issued_clk]
  rfl

theorem laWalkPassShape_eff_no_map (hfree : ladleFree u a) (hmap : (u.ladle a).map = none) :
    laWalkPassShape.eff a (wordAt u a) (u.station a).pc (issued u a) = .error 0x09 := by
  simp only [laWalkPassShape, walkShape, engineShape, Shape.plain, laPass, openOps_issued, openOps_of_ladleFree hfree, ladle_issued, hmap]
  rfl

theorem laWalkMergeShape_eff (hfree : ladleFree u a) (hfmt : mgFmt (walkCtl u a (wordAt u a)) ≤ 8)
    (hgood : mergeFault u a (walkCtl u a (wordAt u a)) (wordAt u a) = false) :
    laWalkMergeShape.eff a (wordAt u a) (u.station a).pc (issued u a) =
      .ok (startOp a { opHere u a .laMerge [(u.clk, .act 0)] (u.clk + 2 ^ 32) with sb := walkCtl u a (wordAt u a) } (issued u a)) := by
  simp only [laWalkMergeShape, walkShape, engineShape, Shape.plain, laMerge, walkBusy_issued_of_ladleFree hfree, walkCtl_issued,
    Nat.not_lt.mpr hfmt, mergeFault_issued, hgood, walkOp_issued, issued_clk, Bool.false_eq_true, if_false]

theorem laWalkSkimShape_eff (hfree : ladleFree u a) (hvalid : lyValid u (skLayer (walkCtl u a (wordAt u a))) = true)
    (hpolicy : lyPolicy u (skLayer (walkCtl u a (wordAt u a))) ≠ 0)
    (hdest : dOf (wordAt u a) = 24 ∨ skEmits u (walkCtl u a (wordAt u a)) (wordAt u a) = true)
    (hrange : skN0 (walkCtl u a (wordAt u a)) + 32 * skLines (walkCtl u a (wordAt u a)) ≤ lyNeurons u (skLayer (walkCtl u a (wordAt u a))))
    (hgood : skimFault u a (wordAt u a) = false) :
    let ctl := walkCtl u a (wordAt u a)
    let n := fld ctl 4 0 + 1
    let fin := skFinish u ctl (wordAt u a) u.clk
    laWalkSkimShape.eff a (wordAt u a) (u.station a).pc (issued u a) = .ok (startOp a
      { opHere u a .laSkim ((u.clk, .act 0) :: (List.range n).map (fun j => (u.clk + (j + 1) / 2, .act (j + 1))) ++
        [(u.clk + (n + 1) / 2, .act 65536), (fin, .act 65537)]) fin with sb := ctl } (issued u a)) := by
  have hdest' : (dOf (wordAt u a) != 24 && !skEmits u (walkCtl u a (wordAt u a)) (wordAt u a)) = false := by
    obtain hd | he := hdest
    · rw [hd]
      rfl
    · rw [he, Bool.not_true, Bool.and_false]
  simp only [laWalkSkimShape, walkShape, engineShape, Shape.plain, laSkim, walkBusy_issued_of_ladleFree hfree, walkCtl_issued,
    lyValid_issued, lyPolicy_issued, lyNeurons_issued, skEmits_issued, skFinish_issued, skimFault_issued, hvalid, beq_false_of_ne hpolicy,
    hdest', Nat.not_lt.mpr hrange, hgood, walkOp_issued, issued_clk, decide_false, Bool.not_true, Bool.or_self, Bool.false_eq_true,
    if_false]
  rfl

/-! ### Completion of a suppressed instruction (R230) -/

theorem laModeShape_fin (hop : opOf (wordAt u a) = 0x40) (t : Nat) : laModeShape.fin (issued u a) a (wordAt u a) t = t + 1 := by
  simp only [laModeShape, engineShape, Shape.plain, ladleFinish, hop, if_true]

theorem laWalkMapShape_fin (hop : opOf (wordAt u a) = 0x41) (hsel : immOf (wordAt u a) % 4 = 0) (t : Nat) :
    laWalkMapShape.fin (issued u a) a (wordAt u a) t = t + mapFinish (u.ladle a).mode (walkCtl u a (wordAt u a)) 0 := by
  simp only [laWalkMapShape, walkShape, engineShape, Shape.plain, ladleFinish, hop, hsel, ladle_issued, walkCtl_issued, mapFinish, if_neg (show ¬ (0x41 = 0x40) by decide)]
  omega

theorem laWalkPassShape_fin (hop : opOf (wordAt u a) = 0x41) (hsel : immOf (wordAt u a) % 4 = 1) (t : Nat) :
    laWalkPassShape.fin (issued u a) a (wordAt u a) t = t + passFinish (walkCtl u a (wordAt u a)) 0 := by
  simp only [laWalkPassShape, walkShape, engineShape, Shape.plain, ladleFinish, hop, hsel, walkCtl_issued, passFinish, passEmit, if_neg (show ¬ (0x41 = 0x40) by decide)]
  omega

end

/-- Settles O56: each row issues, and its walk begins with its agenda. -/
theorem ladleInstructions : Obligations.LadleInstructions := by
  unfold Obligations.LadleInstructions
  intro s st a u t w x ctl free walk
  have hu : settle st.toNat s = u := rfl
  clear_value u
  have hsel {mode : Nat} (h : immOf w % 4 = mode) : (immOf w % 4 == mode) = true := beq_iff_eq.mpr h
  refine ⟨fun h hallot hfw hfa hfree => ?_, fun h hfree => ⟨fun hmode => ?_, fun hmode hmap hgood => ?_, fun hmode hfmt hgood => ?_,
      fun hmode hvalid hpolicy hdest hrange hgood => ?_⟩,
    fun h hallot => ?_, fun h hfree => ⟨fun hmode hbad => ?_, fun hmode hmap => ?_⟩⟩
  · exact issueRow_working (p := laModeShape) (f := id) rfl hu h.issuable (h.here rfl rfl rfl) (laModeShape_eff hallot hfw hfa hfree) rfl nofun
  · intro m n hgood
    exact issueRow_working (p := laWalkMapShape) (f := id) rfl hu h.issuable (h.here rfl rfl (hsel hmode))
      ((laWalkMapShape_eff hfree).trans (if_neg (Bool.eq_false_iff.mp hgood))) rfl nofun
  · exact issueRow_working (p := laWalkPassShape) (f := id) rfl hu h.issuable (h.here rfl rfl (hsel hmode))
      (laWalkPassShape_eff hfree hmap hgood) rfl nofun
  · exact issueRow_working (p := laWalkMergeShape) (f := id) rfl hu h.issuable (h.here rfl rfl (hsel hmode))
      (laWalkMergeShape_eff hfree hfmt hgood) rfl nofun
  · exact issueRow_working (p := laWalkSkimShape) (f := id) rfl hu h.issuable (h.here rfl rfl (hsel hmode))
      (laWalkSkimShape_eff hfree hvalid hpolicy hdest hrange hgood) rfl nofun
  · exact issueRow_suppressed (p := laModeShape) rfl hu h.issuable (h.here rfl rfl rfl) (laModeShape_fin h.issuable.opcode _)
      (laModeShape_eff_reserved hallot)
  · exact issueRow_suppressed (p := laWalkMapShape) rfl hu h.issuable (h.here rfl rfl (hsel hmode))
      (laWalkMapShape_fin h.issuable.opcode hmode _) ((laWalkMapShape_eff hfree).trans (if_pos hbad))
  · exact issueRow_suppressed (p := laWalkPassShape) rfl hu h.issuable (h.here rfl rfl (hsel hmode))
      (laWalkPassShape_fin h.issuable.opcode hmode _) (laWalkPassShape_eff_no_map hfree hmap)

end Sys2Proof.Machine
end

section
/-!
SUPPORT. The instructions of the sort engine (R297 to R305).
-/

namespace Sys2Proof.Machine

section
variable (u : State) (a : Nat)

@[simp] theorem sortBusy_issued (w sa : Word) : sortBusy (issued u a) a w sa = sortBusy u a w sa := by
  simp only [sortBusy, openOps_issued]
@[simp] theorem slotDefined_issued (b k : Nat) : slotDefined (issued u a) b k = slotDefined u b k := by
  simp only [slotDefined, slotCfg, cfgw_issued]
@[simp] theorem slotCap_issued (b k : Nat) : slotCap (issued u a) b k = slotCap u b k := by
  simp only [slotCap, slotDefined_issued, slotCfg, cfgw_issued]
@[simp] theorem runSlot_issued (b k : Nat) : runSlot (issued u a) b k = runSlot u b k := by simp only [runSlot, sorter_issued]
@[simp] theorem mergeCount_issued (b : Nat) (sa : Word) : mergeCount (issued u a) b sa = mergeCount u b sa := by
  simp only [mergeCount, runSlot_issued]
@[simp] theorem sortFinish_issued (w : Word) (t : Nat) : sortFinish (issued u a) a w t = sortFinish u a w t := by
  simp only [sortFinish, scalarSrc_issued, mergeCount_issued, runSlot_issued]
  rfl

end

section
variable {u : State} {a : Nat}

/-! ### so.run -/

theorem soRunSortShape_eff (hword : cwBad (operandB u a) = false) (hfree : sortBusy u a (wordAt u a) 0 = false)
    (hmode : modeBit (wordAt u a) = false)
    (hcap : toSlot (wordAt u a) = true → cwN (operandB u a) ≤ slotCap u a (slotNo (wordAt u a))) :
    soRunSortShape.eff a (wordAt u a) (u.station a).pc (issued u a) = .ok (startOp a (opHere u a .soSort
      (takeTwo u.clk (aOf (wordAt u a)) (linesIn (operandB u a)) ++
        (if toSlot (wordAt u a) then [(sortFinish u a (wordAt u a) u.clk, .act 65536)] else []))
      (sortFinish u a (wordAt u a) u.clk)) (issued u a)) := by
  have hcap' : (toSlot (wordAt u a) && decide (slotCap u a (slotNo (wordAt u a)) < cwN (operandB u a))) = false := by
    cases hs : toSlot (wordAt u a)
    · rfl
    · simpa using hcap hs
  rw [operandB] at hword hcap'
  simp only [soRunSortShape, engineShape, Shape.plain, soRun, scalarSrc_issued, issued_clk, sortFinish_issued, hword, sortBusy_issued, hfree,
    hmode, slotCap_issued, newOp_issued, hcap', Bool.false_or, Bool.false_eq_true, if_false]
  rfl

theorem soRunLoadShape_eff (hword : cwBad (operandB u a) = false) (hfree : sortBusy u a (wordAt u a) 0 = false)
    (hmode : modeBit (wordAt u a) = true) : soRunLoadShape.eff a (wordAt u a) (u.station a).pc (issued u a) =
    if slotCap u a (slotNo (wordAt u a)) < cwN (operandB u a) then .error 0x09
    else .ok (startOp a
      (opHere u a .soLoad (takeTwo u.clk (aOf (wordAt u a)) (linesIn (operandB u a))) (sortFinish u a (wordAt u a) u.clk))
      (setSlot a (slotNo (wordAt u a))
        { recs := [], kt := cwKt (operandB u a), dir := cwDir (operandB u a), sorted := true } (issued u a))) := by
  have hB : scalarReg u a (bOf (wordAt u a) % 8) = operandB u a := rfl
  simp only [soRunLoadShape, engineShape, Shape.plain, soRun, scalarSrc_issued, hB, issued_clk, sortFinish_issued, hword, sortBusy_issued,
    hfree, hmode, slotCap_issued, newOp_issued, Bool.true_or, Bool.true_and, decide_eq_true_eq, Bool.false_eq_true, if_false, if_true]
  rfl

/-- A load completes no earlier than it issues (R301). -/
theorem soRunLoadShape_fin (hop : opOf (wordAt u a) = 0x40) (hmode : modeBit (wordAt u a) = true) (t : Nat) :
    soRunLoadShape.fin (issued u a) a (wordAt u a) t = t + (sortFinish u a (wordAt u a) t - t) := by
  have hfin : sortFinish u a (wordAt u a) t = t + (linesIn (scalarSrc u a (bOf (wordAt u a))) - 1) / 2 + 2 := by
    simp only [sortFinish, hop, hmode, if_true]
  simp only [soRunLoadShape, engineShape, Shape.plain, sortFinish_issued, hfin]
  omega

/-! ### so.merge -/

/-- A source slot of a merge is defined, and holds no records or those of the control word's order (R303). -/
def mergeable (u : State) (a : Nat) (y : Word) (k : Nat) : Prop :=
  slotDefined u a k = true ∧ ((runSlot u a k).recs = [] ∨ (runSlot u a k).kt = cwKt y ∧ (runSlot u a k).dir = cwDir y)

theorem mergeable_not_bad {y : Word} {k : Nat} (h : mergeable u a y k) :
    (!slotDefined u a k || (!(runSlot u a k).recs.isEmpty && ((runSlot u a k).kt != cwKt y || (runSlot u a k).dir != cwDir y))) = false := by
  obtain ⟨hdef, hempty | ⟨hkt, hdir⟩⟩ := h
  · rw [hdef, hempty]
    rfl
  · rw [hdef, hkt, hdir, bne_self_eq_false, bne_self_eq_false, Bool.or_self, Bool.and_false]
    rfl

/-- A merge whose records go out: they are in order at once, since its slots are held (R300, R303). -/
def mergeOutBegins (u : State) (a : Nat) (v : State) : State :=
  let y := operandB u a
  let x := operandA u a
  pushRun a (dOf (wordAt u a)) u.clk (u.station a).pc (cwLong y) (fun j => u.clk + 24 + j / 2)
    (mergeRuns (cwKt y) (cwDir y) (mergeCount u a x) ((maskSlots x).map fun k => (runSlot u a k).recs))
    (startOp a (opHere u a .soMerge [] (sortFinish u a (wordAt u a) u.clk)) v)

theorem startOp_clk (op : EngineOp) (v : State) : (startOp a op v).clk = v.clk := rfl

theorem runSlot_startOp (op : EngineOp) (v : State) (b k : Nat) : runSlot (startOp a op v) b k = runSlot v b k := rfl

theorem soMergeShape_eff_out (hword : cwBad (operandB u a) = false) (hfree : sortBusy u a (wordAt u a) (operandA u a) = false)
    (hsrcs : ∀ k ∈ maskSlots (operandA u a), mergeable u a (operandB u a) k) (hout : toSlot (wordAt u a) = false) :
    soMergeShape.eff a (wordAt u a) (u.station a).pc (issued u a) = .ok (mergeOutBegins u a (issued u a)) := by
  have hA : scalarReg u a (aOf (wordAt u a) % 8) = operandA u a := rfl
  have hB : scalarReg u a (bOf (wordAt u a) % 8) = operandB u a := rfl
  have hgood := List.any_eq_false.mpr fun k hk => Bool.eq_false_iff.mp (mergeable_not_bad (hsrcs k hk))
  simp only [soMergeShape, engineShape, Shape.plain, soMerge, scalarSrc_issued, hA, hB, issued_clk, mergeCount_issued, sortFinish_issued,
    hword, sortBusy_issued, hfree, slotDefined_issued, runSlot_issued, hgood, hout, newOp_issued, startOp_clk, runSlot_startOp, Bool.false_and, Bool.or_self,
    Bool.false_eq_true, if_false]
  rfl

theorem soMergeShape_eff_slot (hword : cwBad (operandB u a) = false) (hfree : sortBusy u a (wordAt u a) (operandA u a) = false)
    (hsrcs : ∀ k ∈ maskSlots (operandA u a), mergeable u a (operandB u a) k) (hslot : toSlot (wordAt u a) = true)
    (hother : fld (operandA u a) 19 16 ∉ maskSlots (operandA u a)) (hdef : slotDefined u a (fld (operandA u a) 19 16) = true)
    (hcap : mergeCount u a (operandA u a) ≤ slotCap u a (fld (operandA u a) 19 16)) :
    soMergeShape.eff a (wordAt u a) (u.station a).pc (issued u a) = .ok (startOp a
      (opHere u a .soMerge [(sortFinish u a (wordAt u a) u.clk, .act 0)] (sortFinish u a (wordAt u a) u.clk)) (issued u a)) := by
  have hA : scalarReg u a (aOf (wordAt u a) % 8) = operandA u a := rfl
  have hB : scalarReg u a (bOf (wordAt u a) % 8) = operandB u a := rfl
  have hgood := List.any_eq_false.mpr fun k hk => Bool.eq_false_iff.mp (mergeable_not_bad (hsrcs k hk))
  have hother' : (maskSlots (operandA u a)).contains (fld (operandA u a) 19 16) = false := by simpa using hother
  simp only [soMergeShape, engineShape, Shape.plain, soMerge, scalarSrc_issued, hA, hB, issued_clk, mergeCount_issued, sortFinish_issued,
    hword, sortBusy_issued, hfree, slotDefined_issued, runSlot_issued, hgood, hslot, hother', hdef, slotCap_issued, Nat.not_lt.mpr hcap,
    newOp_issued, decide_false, Bool.not_true, Bool.true_and, Bool.or_self, Bool.false_eq_true, if_false, if_true]

/-! ### so.topk and so.spill -/

theorem soTopkShape_eff (hword : cwBad (operandB u a) = false) (hfree : sortBusy u a (wordAt u a) 0 = false) :
    soTopkShape.eff a (wordAt u a) (u.station a).pc (issued u a) = .ok (startOp a (opHere u a .soTopk
      (takeTwo u.clk (aOf (wordAt u a)) (cwSegs (operandB u a) * linesIn (operandB u a))) (sortFinish u a (wordAt u a) u.clk))
      (issued u a)) := by
  have hB : scalarReg u a (bOf (wordAt u a) % 8) = operandB u a := rfl
  simp only [soTopkShape, engineShape, Shape.plain, soTopk, scalarSrc_issued, hB, issued_clk, sortFinish_issued, hword, sortBusy_issued,
    hfree, newOp_issued, Bool.false_eq_true, if_false]

/-- A spill's records go out; without keep its slot is empty at completion (R303). -/
def spillBegins (u : State) (a : Nat) (v : State) : State :=
  pushRun a (dOf (wordAt u a)) u.clk (u.station a).pc (cwLong (operandB u a)) (fun j => u.clk + 4 + j / 2)
    (runSlot u a (slotNo (wordAt u a))).recs
    (startOp a (opHere u a .soSpill (if modeBit (wordAt u a) then [] else [(sortFinish u a (wordAt u a) u.clk, .act 0)])
      (sortFinish u a (wordAt u a) u.clk)) v)

theorem soSpillShape_eff (hword : cwBad (operandB u a) = false) (hfree : sortBusy u a (wordAt u a) 0 = false)
    (hdef : slotDefined u a (slotNo (wordAt u a)) = true)
    (hform : cwLong (operandB u a) = true ∨ (runSlot u a (slotNo (wordAt u a))).recs = [] ∨ (runSlot u a (slotNo (wordAt u a))).kt < 5) :
    soSpillShape.eff a (wordAt u a) (u.station a).pc (issued u a) = .ok (spillBegins u a (issued u a)) := by
  have hB : scalarReg u a (bOf (wordAt u a) % 8) = operandB u a := rfl
  have hform' : (!cwLong (operandB u a) && !(runSlot u a (slotNo (wordAt u a))).recs.isEmpty &&
      ((runSlot u a (slotNo (wordAt u a))).kt == 5 || (runSlot u a (slotNo (wordAt u a))).kt == 6)) = false := by
    obtain hlong | hempty | hkt := hform
    · rw [hlong]
      rfl
    · rw [hempty, List.isEmpty_nil, Bool.not_true, Bool.and_false]
      rfl
    · rw [beq_false_of_ne hkt.ne, beq_false_of_ne (hkt.trans (by decide)).ne, Bool.or_self, Bool.and_false]
  simp only [soSpillShape, engineShape, Shape.plain, soSpill, scalarSrc_issued, hB, issued_clk, sortFinish_issued, hword, sortBusy_issued,
    hfree, slotDefined_issued, hdef, runSlot_issued, hform', newOp_issued, Bool.not_true, Bool.or_self, Bool.false_eq_true, if_false]
  rfl

/-- Records that are pushed start no operation. -/
theorem pushRun_ops (b d t place : Nat) (long : Bool) (due : Nat → Nat) (rs : List Rec) (v : State) :
    ((pushRun b d t place long due rs v).station a).ops = (v.station a).ops :=
  (SameOps.each (u := v) (fun _ _ hv => hv.putPush ..) _ ⟨rfl, rfl⟩).ops

end

/-- Settles O57: each row issues, and its operation begins with its agenda. -/
theorem sortInstructions : Obligations.SortInstructions := by
  unfold Obligations.SortInstructions
  intro s st a u t w x y fin two hword hfreeX hfree
  have hu : settle st.toNat s = u := rfl
  clear_value u
  have hsel {m : Bool} (h : modeBit w = m) : (!modeBit w) = !m := by rw [h]
  refine ⟨fun h => ⟨fun hmode hslot => ?_, fun hmode hslot hcap => ?_, fun hmode hcap => ?_, fun hmode hcap => ?_⟩,
    fun h => ?_, fun h => ?_, fun h hdef hform => ?_⟩
  · have heff := soRunSortShape_eff hword hfree hmode fun hs => absurd (hslot.symm.trans hs) Bool.false_ne_true
    rw [show toSlot (wordAt u a) = false from hslot, if_neg Bool.false_ne_true, List.append_nil] at heff
    exact issueRow_working (p := soRunSortShape) (f := id) rfl hu h.issuable (h.here rfl rfl (hsel hmode)) heff rfl nofun
  · have heff := soRunSortShape_eff hword hfree hmode fun _ => hcap
    rw [show toSlot (wordAt u a) = true from hslot, if_pos rfl] at heff
    exact issueRow_working (p := soRunSortShape) (f := id) rfl hu h.issuable (h.here rfl rfl (hsel hmode)) heff rfl nofun
  · exact issueRow_working (p := soRunLoadShape) (f := setSlot a _ _) rfl hu h.issuable (h.here rfl rfl hmode)
      ((soRunLoadShape_eff hword hfree hmode).trans (if_neg (Nat.not_lt.mpr hcap))) rfl nofun
  · exact issueRow_suppressed (p := soRunLoadShape) rfl hu h.issuable (h.here rfl rfl hmode)
      (soRunLoadShape_fin h.issuable.opcode hmode _) ((soRunLoadShape_eff hword hfree hmode).trans (if_pos hcap))
  · intro srcs m hsrcs
    refine ⟨fun hout => ?_, fun hslot hother hdef hcap => ?_⟩
    · refine issueRow_engine (p := soMergeShape) (v := mergeOutBegins u a (issued u a)) (op := opHere u a .soMerge [] fin) rfl hu h.issuable
        (h.here rfl rfl rfl) (soMergeShape_eff_out hword hfreeX hsrcs hout) ?_ rfl nofun
      rw [mergeOutBegins, pushRun_ops, startOp_ops]
      exact List.mem_append_right _ (List.mem_singleton.mpr rfl)
    · exact issueRow_working (p := soMergeShape) (f := id) rfl hu h.issuable (h.here rfl rfl rfl)
        (soMergeShape_eff_slot hword hfreeX hsrcs hslot hother hdef hcap) rfl nofun
  · exact issueRow_working (p := soTopkShape) (f := id) rfl hu h.issuable (h.here rfl rfl rfl) (soTopkShape_eff hword hfree) rfl nofun
  · refine issueRow_engine (p := soSpillShape) (v := spillBegins u a (issued u a))
      (op := opHere u a .soSpill (if modeBit w then [] else [(fin, .act 0)]) fin) rfl hu h.issuable (h.here rfl rfl rfl)
      (soSpillShape_eff hword hfree hdef hform) ?_ rfl nofun
    rw [spillBegins, pushRun_ops, startOp_ops]
    exact List.mem_append_right _ (List.mem_singleton.mpr rfl)

end Sys2Proof.Machine
end

section
/-!
SUPPORT. The instructions of the memory and port stations (R206, R227, R268, R289, R349, R350).
-/

namespace Sys2Proof.Machine

section
variable (u : State) (a : Nat)

@[simp] theorem schedOk_issued (b addr len : Nat) : schedOk (issued u a) b addr len = schedOk u b addr len := by
  obtain ⟨g, hg⟩ := issued_eq u a
  rw [hg]
  rfl
@[simp] theorem slotEnd_issued (c : Nat) : slotEnd (issued u a) c = slotEnd u c := by
  obtain ⟨g, hg⟩ := issued_eq u a
  rw [hg]
  rfl
@[simp] theorem servedPort_issued (b : Nat) : servedPort (issued u a) b = servedPort u b := by
  obtain ⟨g, hg⟩ := issued_eq u a
  rw [hg]
  rfl
@[simp] theorem removedOn_issued (i p : Nat) : removedOn (issued u a) i p = removedOn u i p := by
  obtain ⟨g, hg⟩ := issued_eq u a
  rw [hg]
  rfl
@[simp] theorem headOfInst_issued (i : Nat) : headOfInst (issued u a) a i = headOfInst u a i := by
  simp only [headOfInst, endLines_issued]
@[simp] theorem fillHdr_issued (b : Nat) (h : BitVec 256) : fillHdr (issued u a) b h = fillHdr u b h := by
  simp only [fillHdr, State.moduleId, stationFlask, cfgw_issued, issued_job]

end

section
variable {u : State} {a : Nat}

/-! ### mr.rd, mr.wr, mr.gather -/

theorem mrRdShape_eff : mrRdShape.eff a (wordAt u a) (u.station a).pc (issued u a) =
    let n := fld (operandB u a) 4 0 + 1
    if schedOk u a (operandA u a).toNat (128 * n) = false then .error 0x09
    else .ok (startOp a (opHere u a .mrRd (byClk ((List.range n).map fun j => (slotEnd u (u.clk + 4 + j / 2), .act j)))
      (u.clk + 64 + (n - 1) / 2)) (issued u a)) := by
  simp only [mrRdShape, engineShape, Shape.plain, mrRd, scalarSrc_issued, schedOk_issued, newOp_issued, issued_clk, slotEnd_issued,
    Bool.not_eq_true']
  rfl

/-- The completion of an mr.rd (R349). -/
theorem mrRdShape_fin (hop : opOf (wordAt u a) = 0x40) (t : Nat) :
    mrRdShape.fin (issued u a) a (wordAt u a) t = t + (64 + (fld (operandB u a) 4 0 + 1 - 1) / 2) := by
  simp only [mrRdShape, engineShape, Shape.plain, memFinish, hop, scalarSrc_issued, operandB, Nat.add_sub_cancel, Nat.add_assoc]

theorem mrWrShape_eff {l : Line} (haligned : (operandB u a).toNat % 128 = 0) (hready : popReady u a (aOf (wordAt u a)) u.clk = true)
    (hl : (endLines u a (aOf (wordAt u a))).head? = some l) (hfirst : bit l.side 23 = true)
    (hok : schedOk u a (operandB u a).toNat (128 * sideCount l.side) = true) :
    mrWrShape.eff a (wordAt u a) (u.station a).pc (issued u a) = .ok (startOp a (opHere u a .mrWr
      (byClk ((List.range (sideCount l.side)).flatMap fun j =>
        [(u.clk + j / 2, .pop (aOf (wordAt u a))), (slotEnd u (u.clk + 4 + j / 2), .act j)]))
      (u.clk + 40 + (sideCount l.side - 1) / 2)) (issued u a)) := by
  have hB : scalarReg u a (bOf (wordAt u a) % 8) = operandB u a := rfl
  simp only [mrWrShape, engineShape, Shape.plain, mrWr, scalarSrc_issued, hB, haligned, popReady_issued, endLines_issued, issued_clk, hready,
    hl, hfirst, schedOk_issued, hok, newOp_issued, slotEnd_issued, ne_eq, not_true_eq_false, Bool.not_true, Bool.or_self,
    Bool.false_eq_true, if_false]

/-- The agenda of a gather: a line of indexes every 16 rows' chunks, a chunk read after it (R350). -/
def gatherAgenda (u : State) (a : Nat) : List (Nat × EngineStep) :=
  let rows := fld (operandB u a) 63 52 + 1
  let r := immOf (wordAt u a) % 32 + 1
  byClk ((List.range ((rows + 31) / 32)).flatMap (fun m =>
      [(u.clk + 16 * r * m, EngineStep.pop (aOf (wordAt u a))), (u.clk + 16 * r * m, .act (131072 + m))]) ++
    (List.range (rows * r)).map fun j => (slotEnd u (u.clk + 6 + j / 2), EngineStep.act j))

theorem mrGatherShape_eff : mrGatherShape.eff a (wordAt u a) (u.station a).pc (issued u a) =
    .ok (startOp a (opHere u a .mrGather (gatherAgenda u a)
      (u.clk + 66 + ((fld (operandB u a) 63 52 + 1) * (immOf (wordAt u a) % 32 + 1) - 1) / 2)) (issued u a)) := by
  simp only [mrGatherShape, engineShape, Shape.plain, mrGather, scalarSrc_issued, issued_clk, slotEnd_issued, newOp_issued]
  rfl

/-! ### pi.take -/

theorem piTakeShape_eff {l : Line} (hready : popReady u a 0 u.clk = true) (hinst : headOfInst u a (fld (operandA u a) 15 0) = true)
    (hl : (endLines u a 0).head? = some l) : piTakeShape.eff a (wordAt u a) (u.station a).pc (issued u a) =
      .ok (startOp a (opHere u a .piTake ((List.range (tileCount l.side)).flatMap fun k => [(u.clk + k, .pop 0), (u.clk + k, .act k)])
        (u.clk + tileCount l.side)) (issued u a)) := by
  rw [operandA] at hinst
  simp only [piTakeShape, engineShape, Shape.plain, piTake, scalarSrc_issued, popReady_issued, issued_clk, hready, headOfInst_issued, hinst,
    endLines_issued, hl, newOp_issued, Bool.not_true, Bool.or_self, Bool.false_eq_true, if_false]

theorem piTakeShape_eff_absent (h : popReady u a 0 u.clk = false ∨ headOfInst u a (fld (operandA u a) 15 0) = false) :
    piTakeShape.eff a (wordAt u a) (u.station a).pc (issued u a) =
      if (removedOn u (fld (operandA u a) 15 0) (servedPort u a)).isSome then .ok (issued u a) else .error 0x01 := by
  have hnone : (!popReady u a 0 u.clk || !headOfInst u a (fld (operandA u a) 15 0)) = true := by
    obtain h | h := h
    · rw [h, Bool.not_false, Bool.true_or]
    · rw [h, Bool.not_false, Bool.or_true]
  rw [operandA] at hnone
  simp only [piTakeShape, engineShape, Shape.plain, piTake, scalarSrc_issued, popReady_issued, issued_clk, headOfInst_issued, hnone,
    removedOn_issued, servedPort_issued, if_true]
  rfl

/-! ### pe.send -/

/-- The operation of a pe.send: its tile's lines are popped one a clk (R227). -/
def sendOp (u : State) (a : Nat) (l : Line) : EngineOp :=
  let n := if bit l.side 23 then tileCount l.side else 1
  opHere u a .peSend ((List.range n).flatMap fun k => [(u.clk + k, .pop (aOf (wordAt u a))), (u.clk + k, .act k)]) (u.clk + n)

/-- What a pe.send does at its issue: its operation begins, and its packet waits in the port's schedule (R206, R268). -/
def sendBegins (u : State) (a : Nat) (l : Line) (v : State) : State :=
  let h := templateHdr (storeLine u a (storeTarget (operandB u a) (immOf (wordAt u a))))
  let n := if bit l.side 23 then tileCount l.side else 1
  (takeRead a [u.clk] (startOp a (sendOp u a l) v)).setPort (servedPort u a) fun x =>
    { x with scheduled := x.scheduled ++ [
      { pkt := { hdr := hSet (hSet (fillHdr u a h) 115 108 (8 * n - 1)) 91 76 (fld l.side 15 0), payload := [], trailer := 0
                 stampPour := u.job.pour, stampClk := u.pourOff, inPort := none, stomped := false, complete := true, ident := u.clk }
        owner := .none, cells := 0, ring := 0, since := u.clk + n, targets := [], reserved := [] }] }

theorem servedPort_startOp (op : EngineOp) (v : State) : servedPort (startOp a op v) a = servedPort v a := rfl

theorem peSendShape_eff {l : Line} (hline : storeTarget (operandB u a) (immOf (wordAt u a)) < 2048) (hfree : readFree u a u.clk = true)
    (hcls : hCls (templateHdr (storeLine u a (storeTarget (operandB u a) (immOf (wordAt u a))))) = 2 ∨
      hCls (templateHdr (storeLine u a (storeTarget (operandB u a) (immOf (wordAt u a))))) = 3)
    (hready : popReady u a (aOf (wordAt u a)) u.clk = true) (hl : (endLines u a (aOf (wordAt u a))).head? = some l) :
    peSendShape.eff a (wordAt u a) (u.station a).pc (issued u a) = .ok (sendBegins u a l (issued u a)) := by
  have hcls' : (hCls (templateHdr (storeLine u a (storeTarget (operandB u a) (immOf (wordAt u a))))) != 2 &&
      hCls (templateHdr (storeLine u a (storeTarget (operandB u a) (immOf (wordAt u a))))) != 3) = false := by
    obtain h | h := hcls
    · rw [h]
      rfl
    · rw [h]
      rfl
  have hB : scalarReg u a (bOf (wordAt u a) % 8) = operandB u a := rfl
  simp only [peSendShape, engineShape, Shape.plain, peSend, scalarSrc_issued, hB, inBound_storeAddr hline, readFree_issued, issued_clk,
    hfree, storeLine_issued, popReady_issued, hready, endLines_issued, hl, newOp_issued, fillHdr_issued, issued_job, pourOff_issued,
    servedPort_startOp, servedPort_issued, Bool.not_true, Bool.false_eq_true, if_false]
  exact if_neg (Bool.eq_false_iff.mp hcls')

theorem sendOp_mem_sendBegins (l : Line) (v : State) : sendOp u a l ∈ ((sendBegins u a l v).station a).ops := by
  have hops : ((sendBegins u a l v).station a).ops = ((startOp a (sendOp u a l) v).station a).ops :=
    (SameOps.takeRead (u := startOp a (sendOp u a l) v) ⟨rfl, rfl⟩ a [u.clk]).ops
  rw [hops, startOp_ops]
  exact List.mem_append_right _ (List.mem_singleton.mpr rfl)

end

/-- Settles O58: each row issues, and its operation begins with its agenda. -/
theorem memoryAndPortStationInstructions : Obligations.MemoryAndPortStationInstructions := by
  unfold Obligations.MemoryAndPortStationInstructions
  intro s st a
  constructor
  · intro upsets u t w
    have hu : settle st.toNat (addUpsets upsets s) = u := rfl
    clear_value u
    refine ⟨fun h => ⟨fun hok => ?_, fun hbound => ?_⟩, fun h => ?_⟩
    · exact issueRow_working (p := mrRdShape) (f := id) rfl hu h.issuable (h.here rfl rfl rfl)
        (mrRdShape_eff.trans (if_neg fun hn => Bool.false_ne_true (hn.symm.trans hok))) rfl nofun
    · exact issueRow_suppressed (p := mrRdShape) rfl hu h.issuable (h.here rfl rfl rfl) (mrRdShape_fin h.issuable.opcode _)
        (mrRdShape_eff.trans (if_pos hbound))
    · exact issueRow_working (p := mrGatherShape) (f := id) rfl hu h.issuable (h.here rfl rfl rfl) mrGatherShape_eff rfl nofun
  · intro u t w
    have hu : settle st.toNat s = u := rfl
    clear_value u
    refine ⟨fun l h hready hl hfirst haligned hok => ?_, fun h => ?_, fun l h => ?_⟩
    · exact issueRow_working (p := mrWrShape) (f := id) rfl hu h.issuable (h.here rfl rfl rfl)
        (mrWrShape_eff haligned hready hl hfirst hok) rfl nofun
    · intro i
      refine ⟨fun l hready hinst hl => ?_, fun habsent => ⟨fun hremoved => ?_, fun hkept => ?_⟩⟩
      · exact issueRow_working (p := piTakeShape) (f := id) rfl hu h.issuable (h.here rfl rfl rfl) (piTakeShape_eff hready hinst hl) rfl nofun
      · exact issueRow_plain_ok hu h.issuable (eq_of_some_eq h.station)
          ((piTakeShape_eff_absent habsent).trans (if_pos (Option.isSome_iff_ne_none.mpr hremoved))) (SameOps.issued u a)
      · exact issueRow_plain_error hu h.issuable (eq_of_some_eq h.station)
          ((piTakeShape_eff_absent habsent).trans (if_neg (by rw [show removedOn u (fld (operandA u a) 15 0) (servedPort u a) = none from hkept]; decide)))
    · intro at' h' hline hfree hcls hready hl n
      exact issueRow_engine (p := peSendShape) (v := sendBegins u a l (issued u a)) (op := sendOp u a l) rfl hu h.issuable
        (h.here rfl rfl rfl) (peSendShape_eff hline hfree hcls hready hl) (sendOp_mem_sendBegins ..) rfl nofun

end Sys2Proof.Machine
end

section
/-!
SUPPORT. Signals that arrive (R220 to R223).
-/

namespace Sys2Proof.Machine

/-! ### Which signals change something -/

/-- Signals still to come change nothing (R222). -/
theorem applySignals_of_none_due {s : State} (h : ∀ x ∈ s.fab.signals, s.clk < x.due) : applySignals s = s := by
  have hnone : s.fab.signals.filter (fun x => decide (x.due ≤ s.clk)) = [] :=
    List.filter_eq_nil_iff.mpr fun x hx => by simp [h x hx]
  simp only [applySignals, hnone, List.isEmpty_nil, if_true]

/-- When all signals have come, in order, their groups take effect one after the other. -/
theorem applySignals_of_all_due {s : State} (hne : s.fab.signals ≠ []) (hdue : ∀ x ∈ s.fab.signals, x.due ≤ s.clk)
    (hsorted : s.fab.signals.Pairwise fun x y => decide (x.due ≤ y.due) = true) :
    applySignals s = each (groupSignals s.fab.signals.length s.fab.signals) applyGroup { s with fab := { s.fab with signals := [] } } := by
  have hall : s.fab.signals.filter (fun x => decide (x.due ≤ s.clk)) = s.fab.signals :=
    List.filter_eq_self.mpr fun x hx => decide_eq_true (hdue x hx)
  have hnone : s.fab.signals.filter (fun x => decide (s.clk < x.due)) = [] :=
    List.filter_eq_nil_iff.mpr fun x hx => by simpa using hdue x hx
  simp only [applySignals, hall, State.setFab, hnone, List.isEmpty_iff, if_neg hne, List.mergeSort_of_pairwise hsorted]

/-- One signal that has come is its own group. -/
theorem applySignals_singleton {s : State} {x : Signal} (h : s.fab.signals = [x]) (hdue : x.due ≤ s.clk) :
    applySignals s = applyGroup [x] { s with fab := { s.fab with signals := [] } } := by
  rw [applySignals_of_all_due (by simp [h]) (by simpa [h] using hdue) (by simp [h]), h]
  rfl

/-! ### What a change does -/

/-- A flag that is set or cleared, not both (R223). -/
theorem changeFlag_taken {s : State} {a i due place : Nat} {sets clears : Bool} (h : (sets && clears) = false) :
    changeFlag a i due place sets clears s =
      (keepPast (flagKey a i) (if bit (s.station a).flags i then 1 else 0) due s).setStation a fun y => { y with
        flags := if sets then (s.station a).flags ||| BitVec.ofNat 64 (2 ^ i) else (s.station a).flags &&& ~~~ BitVec.ofNat 64 (2 ^ i) } := by
  simp only [changeFlag, h, Bool.false_eq_true, if_false]
  rfl

/-- A flag set and cleared in one clk keeps its value (R223). -/
theorem changeFlag_conflict (s : State) (a i due place : Nat) : changeFlag a i due place true true s =
    violateAt a 0x05 place s.job.pour (clkOff s (due - 1)) s.job.heat s := rfl

/-- A counter within its range (R223). -/
theorem changeCounter_within {s : State} {a i due place adds takes : Nat} (h : tget 0 (s.station a).ctr i + adds - takes ≤ 0xFFFF) :
    changeCounter a i due place adds takes s = (keepPast (ctrKey a i) (tget 0 (s.station a).ctr i) due s).setStation a fun y => { y with
      ctr := tset y.ctr i (min (tget 0 (s.station a).ctr i + adds - takes) 0xFFFF) } :=
  if_neg (Nat.not_lt.mpr h)

/-- A counter from which an amount is taken, none below zero (R223). -/
theorem changeCounter_taken {s : State} {a i due place n : Nat} (h : tget 0 (s.station a).ctr i ≤ 0xFFFF) :
    changeCounter a i due place 0 n s = (keepPast (ctrKey a i) (tget 0 (s.station a).ctr i) due s).setStation a fun y => { y with
      ctr := tset y.ctr i (tget 0 (s.station a).ctr i - n) } := by
  have hle : tget 0 (s.station a).ctr i + 0 - n ≤ 0xFFFF := Nat.le_trans (Nat.sub_le _ _) h
  rw [changeCounter_within hle, Nat.min_eq_left hle, Nat.add_zero]

/-- A counter above its range stays at its end and records COUNTER_OVF (R223). -/
theorem changeCounter_above {s : State} {a i due place adds takes : Nat} (h : 0xFFFF < tget 0 (s.station a).ctr i + adds - takes) :
    changeCounter a i due place adds takes s =
      violateAt a 0x06 place s.job.pour (clkOff s (due - 1)) s.job.heat
        ((keepPast (ctrKey a i) (tget 0 (s.station a).ctr i) due s).setStation a fun y => { y with
          ctr := tset y.ctr i (min (tget 0 (s.station a).ctr i + adds - takes) 0xFFFF) }) :=
  if_pos h

theorem getLast_filterMap_singleton (x : Signal) (d : Nat) : (([x].filterMap (·.place)).getLast?).getD d = x.place.getD d := by
  cases h : x.place <;> simp [h]

/-! ### One signal -/

section
variable {s : State} {x : Signal}

/-- Its counter is changed by the sum of one change. -/
theorem applyGroup_add {i n : Nat} (hk : x.kind = .add i n) :
    applyGroup [x] s = changeCounter x.target.toNat i x.due (x.place.getD (s.station x.target.toNat).pc) n 0 s := by
  simp only [applyGroup, getLast_filterMap_singleton, hk, List.map_cons, List.map_nil, List.sum_cons, List.sum_nil, Nat.add_zero]

theorem applyGroup_take {i n : Nat} (hk : x.kind = .take i n) :
    applyGroup [x] s = changeCounter x.target.toNat i x.due (x.place.getD (s.station x.target.toNat).pc) 0 n s := by
  simp only [applyGroup, getLast_filterMap_singleton, hk, List.map_cons, List.map_nil, List.sum_cons, List.sum_nil, Nat.add_zero]

theorem applyGroup_set {i : Nat} (hk : x.kind = .set i) :
    applyGroup [x] s = changeFlag x.target.toNat i x.due (x.place.getD (s.station x.target.toNat).pc) true false s := by
  simp only [applyGroup, getLast_filterMap_singleton, hk, List.any_cons, List.any_nil, Bool.or_false]

theorem applyGroup_clear {i : Nat} (hk : x.kind = .clear i) :
    applyGroup [x] s = changeFlag x.target.toNat i x.due (x.place.getD (s.station x.target.toNat).pc) false true s := by
  simp only [applyGroup, getLast_filterMap_singleton, hk, List.any_cons, List.any_nil, Bool.or_false]

end

/-- A set and a clear of one flag in one clk are one group. -/
theorem applySignals_set_clear {s : State} {x y : Signal} {i : Nat} (h : s.fab.signals = [x, y]) (hdue : x.due ≤ s.clk)
    (hsame : y.due = x.due) (htarget : y.target = x.target) (hx : x.kind = .set i) (hy : y.kind = .clear i) (hyp : y.place = none)
    (hxp : x.place = none) : applySignals s = violateAt x.target.toNat 0x05 (s.station x.target.toNat).pc s.job.pour
      (clkOff s (x.due - 1)) s.job.heat { s with fab := { s.fab with signals := [] } } := by
  have hkey : sigKey y = sigKey x := by simp only [sigKey, hx, hy, htarget]
  rw [applySignals_of_all_due (by simp [h]) (by simp [h, hsame, hdue]) (by simp [h, hsame]), h]
  have hgroups : groupSignals [x, y].length [x, y] = [[x, y]] := by simp [groupSignals, hkey, hsame]
  rw [hgroups]
  show applyGroup [x, y] _ = _
  simp only [applyGroup, hx, hy, hxp, hyp, List.filterMap_cons, List.filterMap_nil, List.getLast?_nil, Option.getD_none, List.any_cons,
    List.any_nil, Bool.or_false, Bool.or_true, changeFlag_conflict]
  rfl

/-- Settles O45: a signal alone by its kind, a set and a clear together, none that has come. -/
theorem signalArrivals : Obligations.SignalArrivals := by
  unfold Obligations.SignalArrivals
  intro s
  refine ⟨fun h => congrArg Host.Outcome.next (applySignals_of_none_due h), fun x hx hdue => ?_,
    fun x y i h hdue hsame htarget hxk hyk hyp hxp =>
      congrArg Host.Outcome.next (applySignals_set_clear h hdue hsame htarget hxk hyk hyp hxp)⟩
  intro a flags place
  have hone : exec .signalArrival s = .next (applyGroup [x] { s with fab := { s.fab with signals := [] } }) :=
    congrArg Host.Outcome.next (applySignals_singleton hx hdue)
  refine ⟨fun i hk => ?_, fun i hk => ?_, fun i n hk => ⟨fun hle => ?_, fun hgt => ?_⟩, fun i n hk => fun hle => ?_⟩
  · rw [hone, applyGroup_set hk, changeFlag_taken rfl]
    rfl
  · rw [hone, applyGroup_clear hk, changeFlag_taken rfl]
    rfl
  · rw [hone, applyGroup_add hk, changeCounter_within hle]
    rfl
  · rw [hone, applyGroup_add hk, changeCounter_above hgt]
    rfl
  · rw [hone, applyGroup_take hk]
    exact congrArg Host.Outcome.next (changeCounter_taken hle)

end Sys2Proof.Machine
end

section
/-!
SUPPORT. Results whose clk has come (R219).
-/

namespace Sys2Proof.Machine

/-- One result alone takes effect and leaves the list. -/
theorem applyDue_of_one {a : Nat} {sel : ResultKind → Bool} {s : State} {r : PendingResult}
    (h : (s.station a).results.filter (fun r => decide (r.due ≤ s.clk) && sel r.kind) = [r]) :
    applyDue a sel s = applyResult a r (s.setStation a fun x =>
      { x with results := x.results.filter fun r => !(decide (r.due ≤ s.clk) && sel r.kind) }) := by
  simp only [applyDue, h, List.mergeSort_singleton]
  cases hp : r.kind.isPush <;> simp [groupResults, each, applyClk, hp]

/-- Where no signal has come, no stack's station is before it and no engine step is due, only results can change a station. -/
theorem settle_of_results {a : Nat} {s t : State} (hsignals : s.fab.signals = []) (hkind : kindOf a ≠ 7)
    (hwrites : applyWrites a s = t) (hquiet : nextStep (t.station a).ops t.clk = none) : settle a s = applyResults a t := by
  have hearlier : earlierMem a = [] := if_neg hkind
  rw [settle, applySignals_of_none_due (by simp [hsignals]), hearlier]
  show applyResults a (engAdvance a (applyWrites a s)) = _
  rw [hwrites, engAdvance_of_quiet hquiet]

/-! ### O46: a result that names no register -/

/-- A write of the local store. -/
def storeResult : PendingResult := { due := 0, issued := 0, place := 0, kind := .storeWord 0 0 }

/-- Issued after it, a write of a scalar register 64, which no station has: it carries the resource number of the local store
(`ResultKind.resource`), but the store is written ahead of the registers. -/
def scalar64Result : PendingResult := { due := 0, issued := 1, place := 0, kind := .scalar 64 0 }

/-- The reset state with these two results due at station 0. -/
def clashState : State := State.reset.setStation 0 fun x => { x with results := [storeResult, scalar64Result] }

/-- Both results take effect, and no CONFLICT is recorded. -/
theorem clashState_settles : ((settle 0 clashState).station 0).violCount = 0 := by
  have hwrites : applyWrites 0 clashState = _ := applyDue_of_one (r := storeResult) rfl
  rw [settle_of_results rfl (by decide) hwrites rfl, applyResults, applyDue_of_one (r := scalar64Result) rfl]
  rfl

/-- Refutes O46: the third clause takes any two results of one clk with equal resource numbers for a CONFLICT. In `clashState` a store write and
a write of scalar register 64 share the number 64; the store is written first (R467), alone, so both take effect and nothing is recorded. -/
theorem not_resultsAndCompletions : ¬ Obligations.ResultsAndCompletions := by
  unfold Obligations.ResultsAndCompletions
  intro h
  obtain ⟨⟨_, _, hconflict⟩, _⟩ := And.imp_left (· ⟨nofun, by decide, rfl⟩) (h clashState 0)
  have hclash := hconflict storeResult scalar64Result rfl (by decide) rfl (by decide) rfl
  have hcount := congrArg (fun o : Out => match o with | .next t => (t.station 0).violCount | _ => 0) hclash
  have hzero : ((settle 0 clashState).station 0).violCount = 1 := hcount
  exact absurd (hzero.symm.trans clashState_settles) (by decide)

end Sys2Proof.Machine
end

section
/-!
SUPPORT. Lines on their way: arrivals, departures and owned slots (R158, R159, R187, R207 to R210).
-/

namespace Sys2Proof.Machine

/-! ### LINE_ENTRY -/

theorem execLineEntry_of_some {s : State} {st : StAddr} {e : Fin 8} {f : Flight} (h : dueFlight s st.toNat e = some f) :
    execLineEntry st e s = .next (enterEnd st.toNat e f.line (dropFlight f (settle st.toNat s))) := by rw [execLineEntry, h]

theorem execLineEntry_of_none {s : State} {st : StAddr} {e : Fin 8} (h : dueFlight s st.toNat e = none) :
    execLineEntry st e s = .next s := by rw [execLineEntry, h]

/-! ### LINE_DEPART -/

theorem departLines_of_none_offered {s : State} {a : Nat} (h : offered s a = []) : departLines a s = s := by
  unfold departLines
  split
  · rfl
  · rw [h]
    rfl

/-- The one line that is offered leaves, or is a CONFLICT where its output is taken. -/
theorem departLines_of_one_offered {s : State} {a r e : Nat} (hrun : s.running = true) (hdep : departed s a = false)
    (h : offered s a = [(r, e)]) : departLines a s = if outputTaken s a (boundSt s a e) then violate a 0x03 (0x4000 + e) s else sendAcross a e s := by
  simp only [departLines, hrun, hdep, h, Bool.not_true, Bool.or_self, Bool.false_eq_true, if_false, List.map_cons, List.map_nil]
  show offerLine a _ e s = _
  rw [offerLine]
  cases houtput : outputTaken s a (boundSt s a e) with
  | false => simp [houtput]
  | true => simp [houtput, conflict, endPlace]

theorem sendAcross_of_cons {s : State} {a e : Nat} {l : Line} {ls : List Line} (h : endLines s a e = l :: ls) :
    sendAcross a e s = (s.setStation a fun x => { x with ends := tmod [] x.ends e List.tail }).setFab fun f => { f with
      flights := f.flights ++ [{ due := s.clk + 7, station := boundSt s a e, qend := boundEnd s a e, line := l, src := none }]
      claims := f.claims ++ [(boundSt s a e, a)] } := by
  simp only [sendAcross, h]
  rfl

/-! ### OWNED_SLOT_PASS -/

/-- A pass of a slot counted at its enter stop: 0 used, 1 unused (R187). -/
def slotCounted (ring dir : Nat) (w : Word) (i : Nat) (v : State) : State :=
  v.setStop (stopKey ring dir (calEnter w)) fun x => { x with ctr := tmod 0 x.ctr i (satAdd 48 · 1) }

/-- The lines of an end that were assigned to the slot that passes now (R208). -/
def slotLines (u : State) (a e : Nat) : List Line := (endLines u a e).filter fun l => l.slotClk == some (u.clk - 8)

/-- An empty slot late enough in its pour lies in the running pour. -/
theorem pourBefore_of_le {u : State} (h : 8 ≤ u.pourOff) : pourBefore u = (u.job.pour, u.job.heat) := if_pos h

section
variable {u : State} {ring dir entry : Nat} (hgood : wordsGood u) (hrun : u.running = true)
  (hused : calUsed (calEntry u ring dir entry) = true) (hclk : u.pourOff ∈ slotStarts (calEntry u ring dir entry))
include hgood hrun hused hclk

/-- A slot whose owner has no end bound to it travels empty (log entry 73). -/
theorem slotPass_of_unbound (hnone : slotEndOf u (calOwner (calEntry u ring dir entry)) ring dir entry = none) :
    slotPass ring dir entry u = slotCounted ring dir (calEntry u ring dir entry) 1 u := by
  obtain ⟨hreload, hbad, hinj⟩ := hgood
  have hclk' : (slotStarts (calEntry u ring dir entry)).contains u.pourOff = true := List.contains_iff_mem.mpr hclk
  simp only [slotPass, hrun, hused, hclk', useWord_sound _ hreload hbad hinj, hnone, Bool.not_true, Bool.or_self, Bool.false_eq_true,
    if_false]
  rfl

/-- A slot whose owner has an end bound to it: what the end holds for it decides (R158, R159). -/
theorem slotPass_of_bound {e : Nat} (he : slotEndOf u (calOwner (calEntry u ring dir entry)) ring dir entry = some e) :
    slotPass ring dir entry u =
      let w := calEntry u ring dir entry
      let a := calOwner w
      if (slotLines u a e).isEmpty then
        slotCounted ring dir w 1 (if pathRemoved u a e then u
          else violateAt a 0x01 (0x4000 + e) (pourBefore u).1 ((u.pourOff + u.pourClks - 8) % u.pourClks) (pourBefore u).2 u)
      else
        let v := u.setStation a fun x => { x with ends := tmod [] x.ends e (·.filter fun l => !(l.slotClk == some (u.clk - 8))) }
        slotCounted ring dir w 0 (v.setFab fun f => { f with flights := f.flights ++ (slotLines u a e).map fun l =>
          { due := u.clk + transitClk dir (calEnter w) (calLeave w) + 10, station := boundSt v a e, qend := boundEnd v a e, line := l
            src := some (16 * ring + dir, a, e) } }) := by
  obtain ⟨hreload, hbad, hinj⟩ := hgood
  have hclk' : (slotStarts (calEntry u ring dir entry)).contains u.pourOff = true := List.contains_iff_mem.mpr hclk
  simp only [slotPass, hrun, hused, hclk', useWord_sound _ hreload hbad hinj, he, Bool.not_true, Bool.or_self, Bool.false_eq_true,
    if_false]
  rfl

end

/-- Settles O47: arrivals, departures and slots, each by the rule of its operation. -/
theorem lineMovement : Obligations.LineMovement := by
  unfold Obligations.LineMovement
  refine ⟨fun s st e f hf => ?_, fun s st e hnone => ?_, fun s st => ?_, fun s ring ccw entry => ?_⟩
  · have hrow := execLineEntry_of_some hf
    generalize settle st.toNat s = v at hrow ⊢
    exact ⟨fun hroom => hrow.trans (congrArg Host.Outcome.next (if_neg (Nat.not_le.mpr hroom))),
      fun hfull => hrow.trans (congrArg Host.Outcome.next (if_pos hfull))⟩
  · exact execLineEntry_of_none hnone
  · intro a u hrun hdep
    refine ⟨fun hnone => congrArg Host.Outcome.next (departLines_of_none_offered hnone), fun r e l ls ho hl => ?_⟩
    have hrow : exec (.lineDepart st) s = .next (if outputTaken u a (boundSt u a e) then violate a 0x03 (0x4000 + e) u else sendAcross a e u) :=
      congrArg Host.Outcome.next (departLines_of_one_offered hrun hdep ho)
    refine ⟨fun hfree => hrow.trans ?_, fun htaken => hrow.trans (congrArg _ (if_pos htaken))⟩
    rw [hfree, if_neg Bool.false_ne_true, sendAcross_of_cons hl]
    rfl
  · intro dir w a u counted hgood hcfg hrun hused hclk
    have hu : settle a s = u := rfl
    clear_value u
    have hw : calEntry u ring dir entry = w := by rw [calEntry, State.cfgw, hcfg]; rfl
    have hused' : calUsed (calEntry u ring dir entry) = true := by rw [hw]; exact hused
    have hclk' : u.pourOff ∈ slotStarts (calEntry u ring dir entry) := by rw [hw]; exact hclk
    have hrow : exec (.ownedSlotPass ring ccw entry) s = .next (slotPass ring dir entry u) := by
      rw [← hu]
      rfl
    refine ⟨fun hnone => hrow.trans ?_, fun e he => ?_⟩
    · rw [slotPass_of_unbound hgood hrun hused' hclk' (by rw [hw]; exact hnone), hw]
      rfl
    · have hpass := slotPass_of_bound hgood hrun hused' hclk' (by rw [hw]; exact he)
      rw [hw] at hpass
      refine ⟨fun hls => hrow.trans ?_, fun hls hremoved => hrow.trans ?_, fun hls hkept hpour => hrow.trans ?_⟩
      · exact congrArg Host.Outcome.next (hpass.trans (if_neg (by rw [List.isEmpty_iff]; exact hls)))
      · refine congrArg Host.Outcome.next (hpass.trans ((if_pos (by rw [List.isEmpty_iff]; exact hls)).trans ?_))
        exact congrArg (slotCounted ring dir w 1) (if_pos hremoved)
      · refine congrArg Host.Outcome.next (hpass.trans ((if_pos (by rw [List.isEmpty_iff]; exact hls)).trans ?_))
        rw [pourBefore_of_le hpour]
        exact congrArg (slotCounted ring dir w 1) (if_neg (Bool.eq_false_iff.mp hkept))

end Sys2Proof.Machine
end

section
/-!
SUPPORT. What the routing of a packet leaves: in RUN no packet, answer or retraction changes the pattern's words, since a faulty word is only
noted for its reload (R423).
-/

namespace Sys2Proof.Machine

/-- The phase stands, and in RUN so do the words of the pattern. -/
structure KeepsPattern (s t : State) : Prop where
  boot : t.boot = s.boot
  cfg : s.running = true → t.cfg = s.cfg

namespace KeepsPattern

theorem refl (s : State) : KeepsPattern s s := ⟨rfl, fun _ => rfl⟩

theorem running {s t : State} (h : KeepsPattern s t) : t.running = s.running := by rw [State.running, h.boot]; rfl

theorem trans {s t u : State} (h : KeepsPattern s t) (k : KeepsPattern t u) : KeepsPattern s u :=
  ⟨k.boot.trans h.boot, fun hr => (k.cfg (h.running.trans hr)).trans (h.cfg hr)⟩

theorem of_eq {s t : State} (hboot : t.boot = s.boot) (hcfg : t.cfg = s.cfg) : KeepsPattern s t := ⟨hboot, fun _ => hcfg⟩

/-- What an operation does after one that changes neither. -/
theorem after {s t u : State} (k : KeepsPattern t u) (hboot : t.boot = s.boot) (hcfg : t.cfg = s.cfg) : KeepsPattern s u :=
  (of_eq hboot hcfg).trans k

theorem setFab {s t : State} (h : KeepsPattern s t) (f : Fabric → Fabric) : KeepsPattern s (t.setFab f) := ⟨h.boot, h.cfg⟩

theorem ite {s t u : State} {c : Prop} [Decidable c] (ht : KeepsPattern s t) (hu : KeepsPattern s u) : KeepsPattern s (if c then t else u) := by
  split
  · exact ht
  · exact hu

theorem each {α : Type} {f : α → State → State} (hf : ∀ x t, KeepsPattern t (f x t)) (l : List α) (s : State) :
    KeepsPattern s (each l f s) := by
  induction l generalizing s with
  | nil => exact refl s
  | cons x l ih => exact (hf x s).trans (ih (f x s))

theorem of_ledgerOnly {s t : State} (h : LedgerOnly s t) : KeepsPattern s t := by
  rw [h]
  exact of_eq rfl rfl

end KeepsPattern

/-! ### The use of words -/

section
variable (s : State)

/-- In RUN a fault marks the open entries and the third one of a unit quenches; before RUN the word is loaded again at once. -/
theorem faultActs_keepsPattern (k : Nat) (f : Parity → Parity) (c : Prop) [Decidable c] :
    KeepsPattern s (if s.running then
      (let t := mark 0x04 0 (openEntries (s.setPar f)) (s.setPar f)
       if c then quenchDue 0x48 (parAddress t.par.addr) t else t)
      else reloadUnits [k] s) := by
  split
  · refine ((KeepsPattern.of_ledgerOnly (mark_ledgerOnly 0x04 0 (openEntries (s.setPar f)) (s.setPar f))).trans ?_).after rfl rfl
    exact .ite (.of_eq rfl rfl) (.refl _)
  · rename_i hstop
    exact ⟨rfl, fun hrun => absurd hrun hstop⟩

theorem parityFault_keepsPattern (k : Nat) : KeepsPattern s (parityFault k s) :=
  (faultActs_keepsPattern (s.setPar _) k _ _).after rfl rfl

theorem useWord_keepsPattern (k : Nat) : KeepsPattern s (useWord k s).2 := by
  unfold useWord
  dsimp only
  generalize (if bit s.inj.par 62 then 2 ^ 32 + fld s.inj.par 31 0 else fld s.inj.par 31 0) = named
  split
  · exact .refl s
  split
  · exact (parityFault_keepsPattern _ k).after rfl rfl
  split
  · exact parityFault_keepsPattern s k
  · exact .refl s

/-! ### Queues and charges -/

theorem takeBlocks_keepsPattern (key n : Nat) : KeepsPattern s (takeBlocks key n s) := by
  induction n generalizing s with
  | zero => exact .refl s
  | succ n ih =>
    rw [takeBlocks]
    split
    · exact .refl s
    · exact (ih _).after rfl rfl

theorem poolPush_keepsPattern (key cells : Nat) : KeepsPattern s (poolPush key cells s) :=
  (takeBlocks_keepsPattern s key _).trans (.of_eq rfl rfl)

theorem charge_keepsPattern (o : Requester) (cells : Nat) : KeepsPattern s (charge o cells s) := by
  unfold charge
  split
  · exact .ite (.of_eq rfl rfl) (.of_eq rfl rfl)
  · exact .of_eq rfl rfl
  · exact .of_eq rfl rfl
  · exact .refl s

theorem settleVc_keepsPattern (p vc : Nat) : KeepsPattern s (settleVc p vc s) := .ite (.refl s) (.of_eq rfl rfl)

theorem settleAll_keepsPattern : KeepsPattern s (settleAll s) :=
  .each (fun p _ => .each (fun vc t => settleVc_keepsPattern t p vc) _ _) _ _

theorem release_keepsPattern (o : Requester) (cells : Nat) : KeepsPattern s (release o cells s) := by
  unfold release
  split
  · refine .trans ?_ (settleAll_keepsPattern _)
    exact .ite (.of_eq rfl rfl) (.of_eq rfl rfl)
  · exact (settleAll_keepsPattern _).after rfl rfl
  · exact (settleAll_keepsPattern _).after rfl rfl
  · exact .refl s

/-! ### Routes -/

theorem choosePath_keepsPattern (h : BitVec 256) (bay : Nat) (pin : Bool) (g gsize : Nat) :
    KeepsPattern s (choosePath s h bay pin g gsize).2.2 := by
  unfold choosePath
  dsimp only
  split
  · exact .of_eq rfl rfl
  · exact .refl s

theorem crossTo_keepsPattern (out : Nat) (q : QPkt) : KeepsPattern s (crossTo out q s) := .of_eq rfl rfl

theorem placeUnicast_keepsPattern (q : QPkt) (p : Nat) : KeepsPattern s (placeUnicast q p s) := crossTo_keepsPattern ..

theorem tapCopy_keepsPattern (k src : Nat) (pkt : Packet) : KeepsPattern s (tapCopy k src pkt s) := by
  unfold tapCopy
  dsimp only
  refine .ite (.refl s) (.ite (.of_eq rfl rfl) ?_)
  exact ((charge_keepsPattern _ _ _).trans (placeUnicast_keepsPattern ..)).after rfl rfl

theorem routeOf_keepsPattern (h : BitVec 256) (inPort : Option Nat) (bay : Nat) : KeepsPattern s (routeOf h inPort bay s).2 := by
  unfold routeOf
  dsimp only
  refine (useWord_keepsPattern s (routeKey h)).trans ?_
  generalize (useWord (routeKey h) s).2 = t
  split
  · exact .refl t
  split
  · exact .refl t
  split
  · split <;> exact .refl t
  · have hgroup := useWord_keepsPattern t (tbKey 1 (16 * fld (t.cfgw (routeKey h)) 47 36))
    split
    · exact hgroup
    · have hpath := hgroup.trans (choosePath_keepsPattern _ h bay (bit (t.cfgw (routeKey h)) 60) (fld (t.cfgw (routeKey h)) 47 36)
        (fld (t.cfgw (routeKey h)) 35 32))
      split <;> exact hpath
  · split <;> exact useWord_keepsPattern t _

theorem routePacket_keepsPattern (q : QPkt) : KeepsPattern s (routePacket q s).2 := by
  have hroute := routeOf_keepsPattern s q.pkt.hdr (q.pkt.inPort.map (·.toNat)) (q.src / 256)
  unfold routePacket
  dsimp only
  split
  · rename_i heq
    rwa [heq] at hroute
  · rename_i mc ts ring t heq
    rw [heq] at hroute
    refine hroute.trans ?_
    have htap : KeepsPattern t (if bit (s.cfgw (routeKey q.pkt.hdr)) 59 = true then
        tapCopy (fld (s.cfgw (routeKey q.pkt.hdr)) 58 57) q.src q.pkt t else t) := .ite (tapCopy_keepsPattern ..) (.refl _)
    split
    · dsimp only
      exact (htap.trans (poolPush_keepsPattern ..)).setFab _
    · split
      · exact htap.trans (placeUnicast_keepsPattern ..)
      · exact htap

/-! ### Answers -/

theorem localCompletion_keepsPattern (a status detail : Nat) : KeepsPattern s (localCompletion a status detail s) :=
  .ite (.of_eq rfl rfl) (.of_eq rfl rfl)

theorem countNeg_keepsPattern (inPort : Option PortNo) (status : Nat) : KeepsPattern s (countNeg inPort status s) := by
  unfold countNeg
  split
  · exact .ite (.refl s) (.of_eq rfl rfl)
  · exact .refl s

theorem countUnanswered_keepsPattern (inPort : Option PortNo) : KeepsPattern s (countUnanswered inPort s) := by
  unfold countUnanswered
  split
  · exact .of_eq rfl rfl
  · exact .refl s

theorem answer_keepsPattern (h : BitVec 256) (inPort : Option PortNo) (src : Nat) (owner : Requester) (cells status detail : Nat) :
    KeepsPattern s (answer h inPort src owner cells status detail s) := by
  unfold answer
  refine .ite ?_ ?_
  · exact (localCompletion_keepsPattern s _ _ _).trans ((release_keepsPattern _ _ _).trans (countNeg_keepsPattern ..))
  · have hroute := (release_keepsPattern s owner (cells - 1)).trans (routePacket_keepsPattern _
      { pkt := completionPacket s h status detail, owner := owner, cells := min cells 1, ring := 0, since := s.clk, targets := []
        reserved := [], src := src })
    dsimp only
    split
    all_goals
      rename_i heq
      rw [heq] at hroute
    · exact hroute.trans (countNeg_keepsPattern ..)
    · exact hroute.trans ((release_keepsPattern _ _ _).trans (countUnanswered_keepsPattern ..))

end

end Sys2Proof.Machine
end

section
/-!
SUPPORT. The Crucible's intake from ports and the deadline decision (R57, R259, R262, R279, R280, R284 to R287, R292).
-/

namespace Sys2Proof.Machine

/-! ### Answers to members leave the pattern -/

section
variable (s : State)

theorem setInst_keepsPattern (c i : Nat) (f : OpenInst → OpenInst) : KeepsPattern s (setInst c i f s) := .of_eq rfl rfl

theorem countLate_keepsPattern (c i r : Nat) : KeepsPattern s (countLate c i r s) := .of_eq rfl rfl

theorem memberCompletion_keepsPattern (c g : Nat) (x : Contribution) (status detail : Nat) :
    KeepsPattern s (memberCompletion c g x status detail s) := by
  unfold memberCompletion
  split
  · exact answer_keepsPattern ..
  · exact localCompletion_keepsPattern ..

theorem sendLate_keepsPattern (c i : Nat) (x : Contribution) : KeepsPattern s (sendLate c i x s) :=
  (countLate_keepsPattern s c i x.rank).trans (memberCompletion_keepsPattern ..)

theorem memberLate_keepsPattern (c i r : Nat) : KeepsPattern s (memberLate c i r s) := by
  unfold memberLate
  split
  · exact .refl s
  split
  · exact .refl s
  split
  · split
    · exact sendLate_keepsPattern ..
    · exact .refl s
  · split
    · exact (countLate_keepsPattern s c i r).trans (answer_keepsPattern ..)
    · exact .refl s

theorem retractInst_keepsPattern (c i causeLedger causeLast rank : Nat) :
    KeepsPattern s (retractInst c i causeLedger causeLast rank s) :=
  (KeepsPattern.of_ledgerOnly (mark_ledgerOnly ..)).after rfl rfl

theorem moveAbsence_keepsPattern (m : Nat) (arrived : Bool) : KeepsPattern s (moveAbsence m arrived s) := .of_eq rfl rfl

end

/-! ### What the pattern says of a group -/

section
variable {s t : State} (h : t.cfg = s.cfg)
include h

theorem cfgw_of_cfg (k : Nat) : t.cfgw k = s.cfgw k := by rw [State.cfgw, h]; rfl
theorem groupWord_of_cfg (g i : Nat) : groupWord t g i = groupWord s g i := cfgw_of_cfg h _
theorem memberNo_of_cfg (g r : Nat) : memberNo t g r = memberNo s g r := by rw [memberNo, gBase, groupWord_of_cfg h]; rfl
theorem ranks_of_cfg (g : Nat) : ranks t g = ranks s g := by rw [ranks, gMembers, groupWord_of_cfg h]; rfl
theorem gOp_of_cfg (g : Nat) : gOp t g = gOp s g := by rw [gOp, groupWord_of_cfg h]; rfl
theorem iGroup_of_cfg (i : Nat) : iGroup t i = iGroup s i := by rw [iGroup, instWord, cfgw_of_cfg h]; rfl

end

/-! ### The decision -/

/-- The absence of a live member that a decision finds missing, or not (R262, R287). -/
def absenceMoved (missing : List Nat) (g : Nat) (s : State) (r : Nat) (x : State) : State :=
  x.setMember (memberNo s g r) fun y =>
    if missing.contains r then { y with absences := min (y.before + 1) 2, absent := true }
    else { y with absences := if y.absent then y.absences else 0 }

theorem moveAbsence_eq_absenceMoved {s x : State} {g : Nat} (missing : List Nat) (r : Nat) (h : x.cfg = s.cfg) :
    moveAbsence (memberNo x g r) (!missing.contains r) x = absenceMoved missing g s r x := by
  rw [memberNo_of_cfg h, moveAbsence, absenceMoved]
  simp only [Bool.not_not]

/-- A collective once it is decided: its own record, the absences of its live members, LATE to each missing one (R286, R287). -/
def decided (c i : Nat) (live missing bad : List Nat) (s : State) : State :=
  each missing (memberLate c i) (each live (absenceMoved missing (iGroup s i) s)
    (setInst c i (fun x => { x with decided := true, missed := missing, retracted := !bad.isEmpty || !missing.isEmpty }) s))

theorem decided_keepsPattern (c i : Nat) (live missing bad : List Nat) (s : State) :
    KeepsPattern s (decided c i live missing bad s) :=
  ((setInst_keepsPattern s c i _).trans (KeepsPattern.each (f := absenceMoved missing (iGroup s i) s) (fun _ _ => .of_eq rfl rfl) live _)).trans
    (KeepsPattern.each (fun r t => memberLate_keepsPattern t c i r) missing _)

/-- What a decision answers and retracts: an offender first, else a missing member, else the totals of a COUNTX collective (R283 to R287). -/
def concluded (c i : Nat) (o : OpenInst) (missing bad : List Nat) (g : Nat) (v : State) : State :=
  match bad.min?, missing.min? with
  | some r, _ => each (ranks v g) (fun q x => if missing.contains q then x else memberMismatch c i r q o x)
      (retractInst c i 0x05 0x0A r (v.setCrucible c fun x => { x with mismatches := satAdd 16 x.mismatches 1 }))
  | none, some r => retractInst c i 0x06 0x0B r (v.setCrucible c fun x => { x with absences := satAdd 16 x.absences 1 })
  | none, none => settleCount c i v

section
variable {s v : State} {c i g : Nat} {o : OpenInst}

theorem decideInst_eq (s : State) (c i : Nat) (o : OpenInst) :
    let live := liveRanks s (iGroup s i)
    let missing := live.filter fun r => !arrivedBy s o c i r
    let bad := offenders s o c i missing
    decideInst c i o s = concluded c i o missing bad (iGroup s i) (decided c i live missing bad s) := by
  intro live missing bad
  have hmoved : ∀ t : State, t.cfg = s.cfg → each live (fun r x => moveAbsence (memberNo x (iGroup s i) r) (!missing.contains r) x) t =
      each live (absenceMoved missing (iGroup s i) s) t := fun t ht =>
    each_congr (fun x : State => x.cfg = s.cfg) (fun r x hx => moveAbsence_eq_absenceMoved missing r hx) (fun _ _ hx => hx) _ ht
  rw [decided, ← hmoved]
  · rfl
  · rfl

theorem concluded_of_offender {missing bad : List Nat} {r : Nat} (h : bad.min? = some r) :
    concluded c i o missing bad g v = each (ranks v g) (fun q x => if missing.contains q then x else memberMismatch c i r q o x)
      (retractInst c i 0x05 0x0A r (v.setCrucible c fun x => { x with mismatches := satAdd 16 x.mismatches 1 })) := by
  rw [concluded, h]

theorem concluded_of_absence {missing : List Nat} {r : Nat} (h : missing.min? = some r) : concluded c i o missing [] g v =
    retractInst c i 0x06 0x0B r (v.setCrucible c fun x => { x with absences := satAdd 16 x.absences 1 }) := by
  rw [concluded, h, List.min?_nil]

theorem concluded_of_all : concluded c i o [] [] g v = settleCount c i v := rfl

/-- Only a COUNTX collective is judged on its totals (R283). -/
theorem settleCount_of_not_countx (h : gOp s (iGroup s i) ≠ 11) : settleCount c i s = s := by
  unfold settleCount
  split
  · rfl
  · rw [beq_false_of_ne h]
    rfl

end

/-- A collective that has none to decide now is left alone. -/
theorem deadlineDecision_of_not_due {s : State} {i : Nat} {o : OpenInst} (ho : instOf s (iCrucible s i) i = some o)
    (h : o.decided = true ∨ s.running = false ∨ s.slotNow < deadline s i + 72) : deadlineDecision i s = s := by
  simp only [deadlineDecision, ho]
  refine if_neg ?_
  obtain h | h | h := h
  · simp [h]
  · simp [h]
  · simp [Nat.not_le.mpr h]

theorem deadlineDecision_of_due {s : State} {i : Nat} {o : OpenInst} (ho : instOf s (iCrucible s i) i = some o)
    (hdec : o.decided = false) (hrun : s.running = true) (hdue : deadline s i + 72 ≤ s.slotNow) :
    deadlineDecision i s = decideInst (iCrucible s i) i o s := by
  simp only [deadlineDecision, ho]
  exact if_pos (by simp [hdec, hrun, hdue])

/-! ### The intake -/

section
variable {s : State} {c e : Nat} {l : Line} {ls : List Line}

theorem takeable_of_no_origin (hl : endLines s c e = l :: ls) (h : l.origin = none ∨ s.clk ≤ l.since) : takeable s c e = none := by
  unfold takeable
  split
  · rfl
  · rename_i hready
    rw [hl]
    obtain h | h := h
    · simp only [h]
    · simp only [popReady, hl, Nat.not_lt.mpr h, decide_false, Bool.not_false, not_true_eq_false] at hready

theorem takeable_of_closed {m : LineMeta} (hl : endLines s c e = l :: ls) (hm : l.origin = some m) (h : isOpen s c (hInst m.hdr) = false) :
    takeable s c e = none := by
  unfold takeable
  split
  · rfl
  · simp only [hl, hm, h, Bool.and_false, Bool.false_eq_true, if_false]
    split <;> rfl

/-- What can be taken of an end is its head, of its port and of its collective. -/
theorem takeable_eq {m : LineMeta} {p : PortNo} (hl : endLines s c e = l :: ls) (hm : l.origin = some m) (hp : m.port = some p) :
    takeable s c e = none ∨ takeable s c e = some (hInst m.hdr, p, m, l) := by
  unfold takeable
  split
  · exact .inl rfl
  · simp only [hl, hm, hp]
    split
    · exact .inr rfl
    · exact .inl rfl

theorem takeable_of_open {m : LineMeta} {p : PortNo} (hl : endLines s c e = l :: ls) (hm : l.origin = some m) (hp : m.port = some p)
    (hsince : l.since < s.clk) (hvalid : iValid s (hInst m.hdr) = true) (hcr : iCrucible s (hInst m.hdr) = c)
    (hg : gValid s (iGroup s (hInst m.hdr)) = true) (hopen : isOpen s c (hInst m.hdr) = true) :
    takeable s c e = some (hInst m.hdr, p, m, l) := by
  have hready : popReady s c e s.clk = true := by simp only [popReady, hl, hsince, decide_true]
  simp only [takeable, hready, hl, hm, hp, hvalid, hcr, hg, hopen, beq_self_eq_true, Bool.and_self, Bool.not_true, Bool.false_eq_true,
    if_false, if_true]

theorem takeContribLine_of_none (h : takeable s c e = none) : takeContribLine c e s = s := by simp only [takeContribLine, h]

/-- A line waits while the Crucible's rate, or a lower end with a line to take, is in its way (R259). -/
theorem takeContribLine_of_blocked {m : LineMeta} {p : PortNo} (ht : takeable s c e = some (hInst m.hdr, p, m, l))
    (h : rateAllows s c (iGroup s (hInst m.hdr)) = false ∨ ∃ k < e, takeable s c k ≠ none) : takeContribLine c e s = s := by
  simp only [takeContribLine, ht]
  refine if_pos ?_
  obtain h | ⟨k, hk, hne⟩ := h
  · simp [h]
  · simp only [Bool.or_eq_true, List.any_eq_true, List.mem_range]
    exact .inr ⟨k, hk, Option.isSome_iff_ne_none.mpr hne⟩

/-- The line of a member is taken, a first one after its checks (R279, R284). -/
theorem takeContribLine_of_free {m : LineMeta} {p : PortNo} (ht : takeable s c e = some (hInst m.hdr, p, m, l))
    (hrate : rateAllows s c (iGroup s (hInst m.hdr)) = true) (hlower : ∀ k < e, takeable s c k = none) {r : Nat}
    (hrank : rankOfArrival (addWork c (iGroup s (hInst m.hdr)) (popEnd c e s.clk s)) (iGroup s (hInst m.hdr)) p.toNat e = some r) :
    let i := hInst m.hdr
    let g := iGroup s i
    let u := addWork c g (popEnd c e s.clk s)
    takeContribLine c e s = settleCount c i (takeLine c i r l m
      (if m.head then beginTile c i r r e (keyBad u g r (hAddr m.hdr)) m l.side u else u)) := by
  have hany : ((List.range e).any fun k => (takeable s c k).isSome) = false := by
    rw [List.any_eq_false]
    intro k hk
    simp [hlower k (List.mem_range.mp hk)]
  simp only [takeContribLine, ht, hrate, hany, hrank, Bool.not_true, Bool.or_self, Bool.false_eq_true, if_false, Option.getD_some,
    Option.isNone_some, Bool.false_or]

end

/-- Settles O59: the intake by what stands at the end's head, the decision by its offenders and missing members. -/
theorem crucibleIntakeAndDecisions : Obligations.CrucibleIntakeAndDecisions := by
  unfold Obligations.CrucibleIntakeAndDecisions
  refine ⟨fun s st e l ls => ?_, fun s inst o => ?_⟩
  · intro c go hrun hkind hl
    have hgo : go = .next (takeContribLine c e s) := by
      have hcond : (s.running && kindOf c == 2) = true := by simp [hrun, hkind]
      exact congrArg Host.Outcome.next (if_pos hcond)
    rw [hgo]
    refine ⟨fun h => congrArg _ (takeContribLine_of_none (takeable_of_no_origin hl h)), fun m p hm hp => ?_⟩
    refine ⟨fun h => congrArg _ (takeContribLine_of_none (takeable_of_closed hl hm h)), fun h => congrArg _ ?_,
      fun r hsince hvalid hcr hg hopen hrate hlower hrank => ?_⟩
    · obtain ht | ht := takeable_eq hl hm hp
      · exact takeContribLine_of_none ht
      · exact takeContribLine_of_blocked ht h
    · have htake := takeContribLine_of_free (takeable_of_open hl hm hp hsince hvalid hcr hg hopen) hrate hlower hrank
      exact ⟨fun hhead => congrArg Host.Outcome.next (htake.trans (by rw [hhead]; rfl)),
        fun hhead => congrArg Host.Outcome.next (htake.trans (by rw [hhead]; rfl))⟩
  · intro i c g live missing bad go ho
    refine ⟨fun h => congrArg _ (deadlineDecision_of_not_due ho h), fun hdec hrun hdue => ?_⟩
    intro v
    have hgo : go = .next (decideInst c i o s) := congrArg Host.Outcome.next (deadlineDecision_of_due ho hdec hrun hdue)
    have hcfg : v.cfg = s.cfg := (decided_keepsPattern c i live missing bad s).cfg hrun
    have hdecide : go = .next (concluded c i o missing bad g v) := hgo.trans (congrArg _ (decideInst_eq s c i o))
    refine ⟨fun hbad hmissing hop => hdecide.trans (congrArg _ ?_), fun r hbad hmissing => hdecide.trans (congrArg _ ?_),
      fun r hbad => hdecide.trans (congrArg _ ?_)⟩
    · rw [hbad, hmissing, concluded_of_all]
      exact settleCount_of_not_countx (by rw [iGroup_of_cfg hcfg, gOp_of_cfg hcfg]; exact hop)
    · rw [hbad]
      exact concluded_of_absence hmissing
    · rw [concluded_of_offender hbad, ranks_of_cfg hcfg]

end Sys2Proof.Machine
end

section
/-!
SUPPORT. The pour boundary: its reloads, its gate swap and its heat verdict (O44), and the boundary as a whole (O43).
-/

namespace Sys2Proof.Machine

/-! ### Loops and tables -/

/-- What every round of a loop keeps stands after the loop. -/
theorem each_invariant {σ α : Type} {f : α → σ → σ} (P : σ → Prop) (h : ∀ x v, P v → P (f x v)) (l : List α) {v : σ} (hv : P v) :
    P (each l f v) := by
  induction l generalizing v with
  | nil => exact hv
  | cons x l ih => exact ih (h x v hv)

/-- A table whose values are all changed by a function that keeps the default. -/
theorem tget_map {α : Type} (d : α) (m : Tab α) (f : α → α) (k : Nat) (hd : f d = d) :
    tget d (m.map fun e => (e.1, f e.2)) k = f (tget d m k) := by
  induction m with
  | nil => exact hd.symm
  | cons e m ih =>
    simp only [tget, List.map_cons, List.find?_cons] at ih ⊢
    cases e.1 == k
    · exact ih
    · rfl

/-! ### Reloading faulty words (R424) -/

section
variable (s : State)

theorem tget_reload1 (m : Tab Word) (k j : Nat) :
    tget 0 (reloadUnits.reload1 s m k) j = if j = k then tget 0 s.boot.shadow k else tget 0 m j := by
  cases hfind : s.boot.shadow.find? (fun e => e.1 == k) with
  | some e =>
    have hset : reloadUnits.reload1 s m k = tset m k e.2 := by simp only [reloadUnits.reload1, tget?, hfind, Option.map_some]
    have hval : tget 0 s.boot.shadow k = e.2 := by simp only [tget, hfind]
    rw [hset, hval, tget_tset]
  | none =>
    have hdel : reloadUnits.reload1 s m k = tdel m k := by simp only [reloadUnits.reload1, tget?, hfind, Option.map_none, tdel]
    have hval : tget 0 s.boot.shadow k = 0 := by simp only [tget, hfind]
    rw [hdel, hval]
    split
    · rename_i hj
      rw [hj, tget_tdel_self]
    · exact tget_tdel_ne _ _ ‹_›

theorem tget_reloaded (ks : List Nat) (m : Tab Word) (j : Nat) :
    tget 0 (ks.foldl (reloadUnits.reload1 s) m) j = if j ∈ ks then tget 0 s.boot.shadow j else tget 0 m j := by
  induction ks generalizing m with
  | nil => simp
  | cons k ks ih =>
    rw [List.foldl_cons, ih, tget_reload1]
    by_cases hk : j = k
    · simp [hk]
    · simp [hk]

/-- The words reloaded: the faulty ones and the bad ones of their units. -/
theorem reloadFaulty_cfgw (k : Nat) : (reloadFaulty s).cfgw k =
    if k ∈ s.par.reload ∨ (k ∈ s.par.bad ∧ ∃ j ∈ s.par.reload, unitOf j = unitOf k) then tget 0 s.boot.shadow k else s.cfgw k := by
  refine (tget_reloaded s _ s.cfg k).trans (if_congr ?_ rfl rfl)
  simp

theorem mem_reloadFaulty_bad (k : Nat) : k ∈ (reloadFaulty s).par.bad ↔ k ∈ s.par.bad ∧ ∀ j ∈ s.par.reload, unitOf j ≠ unitOf k := by
  show k ∈ s.par.bad.filter _ ↔ _
  simp

/-! ### The gate swap (R52, R53, R391) -/

/-- Only what ports owe of credits, and what they are about to give, has changed. -/
structure Regrants (s t : State) : Prop where
  rest : t = { s with ports := t.ports }
  port : ∀ p, t.port p = { s.port p with owed := (t.port p).owed, giving := (t.port p).giving }

namespace Regrants

theorem refl : Regrants s s := ⟨rfl, fun _ => rfl⟩

theorem trans {s t u : State} (h : Regrants s t) (k : Regrants t u) : Regrants s u :=
  ⟨by rw [k.rest, h.rest], fun p => by rw [k.port, h.port]⟩

end Regrants

theorem settleVc_regrants (p vc : Nat) : Regrants s (settleVc p vc s) := by
  unfold settleVc
  dsimp only
  split
  · exact .refl s
  · refine ⟨rfl, fun j => ?_⟩
    by_cases hj : j = p
    · rw [hj, State.setPort_port]
    · rw [State.setPort_port_ne _ _ _ hj]

theorem settleAll_regrants : Regrants s (settleAll s) :=
  each_invariant (Regrants s) (fun p _ h => each_invariant (Regrants s) (fun vc t k => k.trans (settleVc_regrants t p vc)) _ h) _ (.refl s)

/-- What is bound to a port follows its flask in the fabric's counts alone. -/
theorem followFlask_each (old t : State) (l : List Nat) : each l (followFlask old) t = { t with fab := (each l (followFlask old) t).fab } :=
  each_invariant (fun v : State => v = { t with fab := v.fab }) (fun _ v h => by rw [h]; rfl) l rfl

/-- The two words of spare selection have exchanged. -/
def spareWordsSwapped : State := s.setLedger fun l => { l with spareActive := l.sparePending, sparePending := l.spareActive }

/-- A swap of the spare words changes those words, the fabric's counts by flask, and credits owed. -/
theorem swapSpares_regrants : ∃ f, Regrants { spareWordsSwapped s with fab := f } (swapSpares s) := by
  have h : Regrants (each ((s.ports.map (·.1)).filter fun p => portFlask s p != portFlask (spareWordsSwapped s) p) (followFlask s)
      (spareWordsSwapped s)) (swapSpares s) := settleAll_regrants _
  rw [followFlask_each] at h
  exact ⟨_, h⟩

theorem setJob_port (f : Job → Job) (p : Nat) : (s.setJob f).port p = s.port p := rfl

/-- The state of a swap that is due, before its spare words exchange. -/
def listsSwapped : State := { s with ports := s.ports.map fun (e : Nat × Port) => (e.1, swapLists e.2) }

theorem listsSwapped_port (p : Nat) : (listsSwapped s).port p = swapLists (s.port p) := tget_map _ _ swapLists p rfl

theorem swapGates_of_due (hstate : s.job.gateState = .fixed) (htime : s.job.gateT = s.pourStart) :
    swapGates s = (swapSpares (listsSwapped s)).setJob fun j => { j with gateState := .done, swaps := j.swaps + 1 } :=
  if_pos (by simp [hstate, htime])

/-- A swap exchanges the lists of every port and the spare words, and is counted. -/
theorem swapGates_exchanges (hstate : s.job.gateState = .fixed) (htime : s.job.gateT = s.pourStart) :
    (∀ p, ((swapGates s).port p).activeN = (s.port p).pendingN ∧ ((swapGates s).port p).pendingN = (s.port p).activeN ∧
      ((swapGates s).port p).gateActive = (s.port p).gatePending ∧ ((swapGates s).port p).gatePending = (s.port p).gateActive) ∧
    (swapGates s).ledger = { s.ledger with spareActive := s.ledger.sparePending, sparePending := s.ledger.spareActive } ∧
    (swapGates s).job = { s.job with gateState := .done, swaps := s.job.swaps + 1 } := by
  rw [swapGates_of_due s hstate htime]
  obtain ⟨f, hrest, hport⟩ := swapSpares_regrants (listsSwapped s)
  refine ⟨fun p => ?_, ?_, ?_⟩
  · have hlists : ((swapSpares (listsSwapped s)).port p) = { swapLists (s.port p) with
        owed := ((swapSpares (listsSwapped s)).port p).owed, giving := ((swapSpares (listsSwapped s)).port p).giving } :=
      (hport p).trans (by rw [← listsSwapped_port]; rfl)
    rw [setJob_port, hlists]
    exact ⟨rfl, rfl, rfl, rfl⟩
  · rw [State.setJob_ledger, hrest]
    rfl
  · rw [State.setJob_job, hrest]
    rfl

theorem swapGates_of_not_fixed (h : s.job.gateState ≠ .fixed) : swapGates s = s := if_neg (by simp [h])

/-! ### The heat verdict (R37, R383, R384, R403) -/

theorem nextHeat_of_none (h : heatComing s = none) : nextHeat s = (nextRun s.ledger.heatRetracted s).setJob fun j =>
    { j with heat := if s.ledger.heatRetracted then s.job.heat else s.job.heat + 1 } := by
  simp only [nextHeat, h]

theorem nextRun_true : nextRun true s =
    s.setLedger fun l => { l with runs := l.runs + 1, prevViol := l.firstViol, prevLate := l.firstLate } := rfl

theorem nextRun_false : nextRun false s =
    s.setLedger fun l => { l with runs := 0, lastCommit := s.job.heat, prevViol := none, prevLate := none } := rfl

theorem nextRun_ledgerOnly (again : Bool) : nextRun again s = { s with ledger := (nextRun again s).ledger } := by
  cases again
  · rfl
  · rfl

theorem nextHeat_of_committed (hnone : heatComing s = none) (hkept : s.ledger.heatRetracted = false) : nextHeat s = { s with
    ledger := { s.ledger with runs := 0, lastCommit := s.job.heat, prevViol := none, prevLate := none }
    job := { s.job with heat := s.job.heat + 1 } } := by
  rw [nextHeat_of_none s hnone, hkept]
  rfl

theorem nextHeat_of_retracted (hnone : heatComing s = none) (hret : s.ledger.heatRetracted = true) : nextHeat s = { s with
    ledger := { s.ledger with runs := s.ledger.runs + 1, prevViol := s.ledger.firstViol, prevLate := s.ledger.firstLate } } := by
  rw [nextHeat_of_none s hnone, hret]
  rfl

theorem nextHeat_of_record {r : CapRec} (h : heatComing s = some r) : (nextHeat s).job = { s.job with heat := r.heat } ∧
    (nextHeat s).cap.diverged = (s.cap.diverged || r.heat != if s.ledger.heatRetracted then s.job.heat else s.job.heat + 1) := by
  have hstep : nextHeat s = (nextRun (r.w3 % 2 == 1) (s.setCap fun c => { c with
      diverged := c.diverged || r.heat != if s.ledger.heatRetracted then s.job.heat else s.job.heat + 1 })).setJob fun j =>
        { j with heat := r.heat } := by
    simp only [nextHeat, h]
  rw [hstep, nextRun_ledgerOnly]
  exact ⟨rfl, rfl⟩

theorem verdictCause_of_none (h : heatComing s = none) : verdictCause s =
    if s.ledger.heatRetracted then
      if fld s.ledgerCfg 59 56 + 1 ≤ s.ledger.runs then some (0x46, s.job.heat % 2 ^ 32) else none
    else if s.job.heat = 2 ^ 48 - 1 then some (0x37, 0) else none := by
  simp only [verdictCause, h, Option.isSome_none, Bool.false_eq_true, if_false]

theorem verdictCause_of_record {r : CapRec} (h : heatComing s = some r) : verdictCause s = none := by
  simp only [verdictCause, h, Option.isSome_some, if_true]

end

/-- Settles O44: a reload is a fold over the faulty words, a swap changes ports only in their lists and credits, and the verdict is read from
the next HEAT record or from the ledger. -/
theorem boundarySteps : Obligations.BoundarySteps := by
  unfold Obligations.BoundarySteps
  intro s
  refine ⟨reloadFaulty_cfgw s, mem_reloadFaulty_bad s, rfl, swapGates_exchanges s, swapGates_of_not_fixed s, fun hnone => ?_,
    fun r hr => ?_⟩
  · refine ⟨nextHeat_of_committed s hnone, nextHeat_of_retracted s hnone, fun hret hruns => ?_, fun hkept hlast => ?_⟩
    · rw [verdictCause_of_none s hnone, hret]
      exact if_pos hruns
    · rw [verdictCause_of_none s hnone, hkept]
      exact if_pos hlast
  · obtain ⟨hjob, hdiverged⟩ := nextHeat_of_record s hr
    exact ⟨hjob, verdictCause_of_record s hr, hdiverged⟩

/-! ### The quench (R38 step 1, R386, R444) -/

section
variable (s : State)

theorem recordCause_eq (code unit : Nat) : recordCause code unit s = { s with boot := (recordCause code unit s).boot } := by
  unfold recordCause
  split
  · rfl
  · rfl

theorem recordQuench_eq : recordQuench s = { s with boot := (recordQuench s).boot } := by
  unfold recordQuench
  split
  · exact recordCause_eq s _ _
  · rfl

theorem recordQuench_phase : (recordQuench s).boot.phase = s.boot.phase := by
  unfold recordQuench recordCause
  split
  · split
    · rfl
    · rfl
  · rfl

/-- A quench takes its first cause when none stands (R444). -/
theorem recordQuench_of_firstCause (hfree : s.boot.faultCode = 0) {e : Nat × Nat × Nat} (h : firstCause s.job.quenchDue = some e) :
    (recordQuench s).boot.faultCode = e.2.1 ∧ (recordQuench s).boot.faultUnit = e.2.2 := by
  simp only [recordQuench, h, recordCause_of_no_fault _ _ hfree]
  exact ⟨trivial, trivial⟩

/-- What a quench changes. -/
theorem quenchNow_eq : quenchNow s = { s with
    boot := (quenchNow s).boot
    job := { s.job with quenchDue := [], gateState := dropped s.job.gateState, slotState := dropped s.job.slotState }
    out := .dark :: s.out
    cap := { s.cap with replayActive := false }
    stations := s.stations.map fun e => (e.1, stopSeq e.2)
    layers := s.layers.map fun e => (e.1, e.2.untag) } := by
  have hrec := recordQuench_eq (enterPhase .quenched s)
  unfold quenchNow
  rw [hrec]
  rfl

theorem stopSeq_seq (x : Station) : (stopSeq x).seq = if x.seq = .idle then .idle else .quenched := by
  unfold stopSeq
  split
  · assumption
  · rfl

theorem quenchNow_station_seq (a : Nat) : ((quenchNow s).station a).seq = if (s.station a).seq = .idle then .idle else .quenched := by
  have hst : (quenchNow s).station a = stopSeq (s.station a) := by
    rw [State.station, quenchNow_eq]
    exact tget_map _ _ stopSeq a rfl
  rw [hst, stopSeq_seq]

end

/-! ### The boundary -/

section
variable {s : State}

/-- What a due boundary takes. -/
theorem exec_pourBoundary_of_boundary {t : State} (hdue : s.boundaryDue = true) (h : boundary s = t) : exec .pourBoundary s = .next t :=
  congrArg Host.Outcome.next ((if_pos hdue).trans h)

variable (hdue : s.boundaryDue = true) (hlimit : s.limitReached = false)
include hdue hlimit

theorem exec_pourBoundary_of_advance (hquench : s.job.quenchDue = []) (hswitch : switchDue s = false) (hslot : s.lastPourOfSlot = false) :
    exec .pourBoundary s = .next (advance false s) :=
  exec_pourBoundary_of_boundary hdue (by simp [boundary, hlimit, hquench, hswitch, hslot])

theorem exec_pourBoundary_of_slotEnd (hquench : s.job.quenchDue = []) (hswitch : switchDue s = false) (hslot : s.lastPourOfSlot = true)
    (hcause : verdictCause (endRecords s) = none) : exec .pourBoundary s = .next (advance true (endRecords s)) :=
  exec_pourBoundary_of_boundary hdue (by simp [boundary, hlimit, hquench, hswitch, hslot, hcause])

theorem exec_pourBoundary_of_verdictCause {c x : Nat} (hquench : s.job.quenchDue = []) (hswitch : switchDue s = false)
    (hslot : s.lastPourOfSlot = true) (hcause : verdictCause (endRecords s) = some (c, x)) :
    exec .pourBoundary s = .next (quenchNow (quenchDue c x (endRecords s))) :=
  exec_pourBoundary_of_boundary hdue (by simp [boundary, hlimit, hquench, hswitch, hslot, hcause])

theorem exec_pourBoundary_of_switchDue (hquench : s.job.quenchDue = []) (hswitch : switchDue s = true) (hslot : s.lastPourOfSlot = false) :
    exec .pourBoundary s = .next (slotSwitch s) :=
  exec_pourBoundary_of_boundary hdue (by simp [boundary, hlimit, hquench, hswitch, hslot])

end

/-- What follows the end of a pour: views, reloads, swaps and the start of the next pour (R38 steps 2 to 6). -/
def nextPour (slot : Bool) (ended start : Nat) (s : State) : State :=
  let u := { s with job := { s.job with pourClk := start } }
  let v := fixArmed (swapGates (reloadFaulty (takeViews u)))
  let w := { v with stations := v.stations.map fun e => (e.1, swapHist ended e.2) }
  startPour (if slot then startSlot (u.ledger.downPorts.map (swapPort u)) w else w)

theorem advance_eq (slot : Bool) (s : State) : advance slot s =
    nextPour slot s.job.pour s.boundaryClk (if slot then endSlot s else s.setJob fun j => { j with pour := j.pour + 1 }) := rfl

theorem nextPour_false (ended start : Nat) (s : State) : nextPour false ended start s =
    (let u := { s with job := { s.job with pourClk := start } }
     let v := fixArmed (swapGates (reloadFaulty (takeViews u)))
     startPour { v with stations := v.stations.map fun e => (e.1, swapHist ended e.2) }) := rfl

theorem nextPour_true (ended start : Nat) (s : State) : nextPour true ended start s =
    (let u := { s with job := { s.job with pourClk := start } }
     let v := fixArmed (swapGates (reloadFaulty (takeViews u)))
     let w := { v with stations := v.stations.map fun e => (e.1, swapHist ended e.2) }
     startPour (startSlot (u.ledger.downPorts.map (swapPort u)) w)) :=
  congrArg startPour (if_pos rfl)

/-- The first pour of the next slot. -/
theorem advance_true (r : State) : advance true r =
    (let e := endSlot r
     let u := { e with job := { e.job with pourClk := r.boundaryClk } }
     let v := fixArmed (swapGates (reloadFaulty (takeViews u)))
     let w := { v with stations := v.stations.map fun x => (x.1, swapHist r.job.pour x.2) }
     startPour (startSlot (u.ledger.downPorts.map (swapPort u)) w)) :=
  calc advance true r
      = nextPour true r.job.pour r.boundaryClk (endSlot r) := (advance_eq true r).trans (congrArg (nextPour true _ _) (if_pos rfl))
    _ = _ := nextPour_true r.job.pour r.boundaryClk (endSlot r)

/-- What a slot switch leaves: the reset main domain in SELFTEST, with the armed slot preferred (R422, R466). -/
theorem slotSwitch_resets (s : State) :
    (slotSwitch s).boot = { Boot.reset with phase := .selftest, powerOnClk := s.boot.powerOnClk, preferOnce := some s.job.slotArm } ∧
    (slotSwitch s).job = { Job.reset with slotState := .done, slotCode := s.job.slotCode, slotArm := s.job.slotArm } ∧
    (slotSwitch s).pwr.mainOn = s.pwr.mainOn ∧ (slotSwitch s).fuse = s.fuse ∧ (slotSwitch s).mem = .reset ∧ (slotSwitch s).stations = [] ∧
    (slotSwitch s).ports = [] ∧ (slotSwitch s).cfg = [] := by
  refine ⟨rfl, rfl, ?_, ?_, rfl, rfl, rfl, rfl⟩
  · show (quenchNow s).pwr.mainOn = _
    rw [quenchNow_eq]
  · show (quenchNow s).fuse = _
    rw [quenchNow_eq]

/-- Settles O43: the boundary takes a due quench first, then a slot switch, then the verdict at the end of a slot, else the next pour. -/
theorem pourBoundaries : Obligations.PourBoundaries := by
  unfold Obligations.PourBoundaries
  intro s hdue hlimit
  refine ⟨fun hquench => ?_, fun hquench hswitch hslot => ?_, fun hquench hswitch hslot hcause => ?_, fun c x hquench hswitch hslot hcause => ?_,
    fun hquench hswitch hslot => ?_⟩
  · have heq := quenchNow_eq s
    refine ⟨quenchNow s, exec_pourBoundary_of_quenchDue hdue hlimit hquench, ?_, fun hfree e he => ?_, ?_, quenchNow_station_seq s, ?_⟩
    · rw [quenchNow_boot, recordQuench_phase]
      rfl
    · rw [quenchNow_boot]
      exact recordQuench_of_firstCause (enterPhase .quenched s) hfree he
    · rw [heq]
    · rw [heq]
  · rw [exec_pourBoundary_of_advance hdue hlimit hquench hswitch hslot, advance_eq, nextPour_false]
    rfl
  · rw [exec_pourBoundary_of_slotEnd hdue hlimit hquench hswitch hslot hcause, advance_true]
  · exact exec_pourBoundary_of_verdictCause hdue hlimit hquench hswitch hslot hcause
  · exact ⟨slotSwitch s, exec_pourBoundary_of_switchDue hdue hlimit hquench hswitch hslot, slotSwitch_resets s⟩

end Sys2Proof.Machine
end

section
/-!
SUPPORT. Lines of the stacked memory: what a read finds and a write leaves where no parity error waits on the bus (R355, R359, R360, R363).
-/

namespace Sys2Proof.Machine

section
variable (s : State) (addr source : Nat)

/-! ### Notes of accesses -/

/-- Only the notes of accesses made have changed. -/
def NotesAccesses (s t : State) : Prop := t = { s with mem := { s.mem with recent := t.mem.recent } }

theorem noteAccess_notes (c : Nat) (sched : Bool) : NotesAccesses s (noteAccess addr c sched s) := rfl

theorem NotesAccesses.trans {s t u : State} (h : NotesAccesses s t) (k : NotesAccesses t u) : NotesAccesses s u := by
  unfold NotesAccesses at *
  rw [k, h]

theorem noteUnsched_notes (len : Nat) : NotesAccesses s (noteUnsched addr len s) := by
  unfold noteUnsched
  split
  · exact each_invariant (NotesAccesses s) (fun e _ h => h.trans (noteAccess_notes _ e.1 e.2 false)) _ rfl
  · rfl

/-- Only the stacked memory has changed. -/
def MemOnly (s t : State) : Prop := t = { s with mem := t.mem }

theorem MemOnly.trans {s t u : State} (h : MemOnly s t) (k : MemOnly t u) : MemOnly s u := by
  unfold MemOnly at *
  rw [k, h]

theorem NotesAccesses.memOnly {s t : State} (h : NotesAccesses s t) : MemOnly s t := by
  unfold NotesAccesses at h
  unfold MemOnly
  rw [h]

theorem setMem_memOnly (f : StackedMem → StackedMem) : MemOnly s (s.setMem f) := rfl

/-! ### Parity errors on the bus -/

theorem takeBusErr_of_none (h : addr ∉ s.mem.busErr) : takeBusErr addr s = (false, s) := if_neg (by simpa using h)

/-! ### Writes -/

theorem writeLine_of_sound (bs : List Byte) (h : addr ∉ s.mem.busErr) : writeLine addr bs source s = putLine64 addr bs s := by
  unfold writeLine
  rw [takeBusErr_of_none s addr h]
  rfl

/-- A line put in place changes the cells, the errors stored with it, what the scrub had to write back and the lost list. -/
theorem putLine64_eq (bs : List Byte) : putLine64 addr bs s = { s with mem := { s.mem with
    cells := cellWrite s.mem.cells addr bs, errors := tdel s.mem.errors addr
    writeBack := s.mem.writeBack.filter (·.1 != addr), lost := s.mem.lost.filter (·.line != addr) } } := rfl

theorem putLine64_memOnly (bs : List Byte) : MemOnly s (putLine64 addr bs s) := by
  rw [putLine64_eq]
  rfl

/-- A whole chunk is written line by line. -/
theorem writeChunk_of_sound (bs : List Byte) (hlo : addr ∉ s.mem.busErr) (hhi : addr + 64 ∉ s.mem.busErr) :
    writeChunk addr bs source s = putLine64 (addr + 64) (bs.drop 64) (putLine64 addr (bs.take 64) s) := by
  unfold writeChunk
  rw [writeLine_of_sound s addr source _ hlo]
  exact writeLine_of_sound (putLine64 addr _ s) (addr + 64) source _ hhi

/-- A chunk written whole: every byte of it, and no other. -/
theorem cellGet_chunk_zeroed (m : List Host.Cell) (a : Nat) :
    cellGet (cellWrite (cellWrite m addr (List.replicate 64 0)) (addr + 64) (List.replicate 64 0)) a =
      if addr ≤ a ∧ a < addr + 128 then 0 else cellGet m a := by
  have hread (m : List Host.Cell) (b : Nat) : cellGet (cellWrite m b (List.replicate 64 0)) a =
      if b ≤ a ∧ a < b + 64 then 0 else cellGet m a := by
    split
    · rename_i hin
      have hi : a - b < (List.replicate 64 (0 : Byte)).length := by simp; omega
      have h := cellGet_cellWrite_inside (m := m) (a := b) hi
      rw [show b + (a - b) = a by omega] at h
      exact h.trans (List.getElem_replicate hi)
    · rename_i hout
      exact cellGet_cellWrite_outside (by simp; omega)
  rw [hread, hread]
  grind

/-! ### Reads -/

theorem injectHbm_of_off (h : injects s s.inj.hbm = false) : injectHbm addr s = (0, s) := if_neg (by simp [h])

/-- A line read with no parity error on the bus and no injected one gives what its decoder and its tag find. -/
theorem readLine_of_sound (hbus : addr ∉ s.mem.busErr) (hinj : injects s s.inj.hbm = false) {d : List Byte} {fixed : Bool}
    (hout : lineOutcome addr (lineDetect s addr) (storedLine s addr) (tget [] s.mem.errors addr) = .ok (d, fixed)) :
    readLine addr source false s = (some (d, fixed), lostClear addr (if fixed then stackCtr (stackOf addr) 0 1 48 s else s)) := by
  simp only [readLine, Bool.false_and, Bool.false_eq_true, if_false, takeBusErr_of_none s addr hbus, injectHbm_of_off s addr hinj, if_true,
    hout]

/-- A line with no error reads as it is stored (R359). -/
theorem lineOutcome_of_no_error (detect : Bool) (bs : List Byte) : lineOutcome addr detect bs [] = .ok (bs, false) := by
  cases detect
  · rfl
  · rfl

end

end Sys2Proof.Machine
end

section
/-!
SUPPORT. Unscheduled accesses and refresh windows (O41).
-/

namespace Sys2Proof.Machine

/-! ### UNSCHEDULED_ACCESS -/

section
variable {s u : State} {k : Fin 8} {upsets : List Upset} (hon : s.pwr.mainOn = true) (hready : (s.stack k).ready = true)

/-- A ready stack of a module that is on makes the access that is due. -/
theorem exec_unscheduledAccess_of_ready (hon : s.pwr.mainOn = true) (hready : (s.stack k).ready = true) :
    exec (.unscheduledAccess k upsets) s = .next (unscheduledAccess k (addUpsets upsets s)) :=
  congrArg Host.Outcome.next (if_pos (by simp [hon, hready]))

/-- Nothing that goes ahead of requests can be done. -/
theorem requestsYield_eq_false {k : Nat} :
    requestsYield u k = false ↔ dueWriteBack u k = none ∧ dueCapture u k = none ∧ shakeChunk u k = none := by
  simp [requestsYield, and_assoc]

theorem unscheduledAccess_writeBack {k : Nat} {e : Nat × List Byte} (h : dueWriteBack u k = some e) :
    unscheduledAccess k u = writeBackLine e u := by
  simp only [unscheduledAccess, h]

theorem unscheduledAccess_capture {k die : Nat} (hwrite : dueWriteBack u k = none) (h : dueCapture u k = some die) :
    unscheduledAccess k u = captureRecord die u := by
  simp only [unscheduledAccess, hwrite, h]

theorem unscheduledAccess_shake {k : Nat} {x : (Nat × Nat) × Nat} (hwrite : dueWriteBack u k = none) (hcap : dueCapture u k = none)
    (h : shakeChunk u k = some x) : unscheduledAccess k u = shakeOne x u := by
  simp only [unscheduledAccess, hwrite, hcap, h]

/-- The request that a stack makes, its waiting ones forwarded first. -/
def requestMade (k : Nat) (s : State) : State :=
  match s.mem.waiting.find? fun m => m.admitted && stackOf m.addr == k && inPlace m && hostFirst s m && performable s m with
  | some m => performRequest m (s.setMem fun x => { x with waiting := x.waiting.erase m })
  | none => s

theorem unscheduledAccess_request {k : Nat} (h : requestsYield u k = false) : unscheduledAccess k u = requestMade k (forwardAll k u) := by
  obtain ⟨hwrite, hcap, hshake⟩ := requestsYield_eq_false.1 h
  simp only [unscheduledAccess, hwrite, hcap, hshake]
  rfl

theorem requestMade_of_none_waiting {k : Nat} (h : u.mem.waiting = []) : requestMade k u = u := by
  simp only [requestMade, h, List.find?_nil]

/-- The only request that waits, in place and performable, is made. -/
theorem requestMade_of_singleton {k : Nat} {m : MemRequest} (hwait : u.mem.waiting = [m]) (hadm : m.admitted = true)
    (hstack : stackOf m.addr = k) (hplace : inPlace m = true) (hperf : performable u m = true) :
    requestMade k u = performRequest m { u with mem := { u.mem with waiting := [] } } := by
  have hfirst : hostFirst u m = true := by
    cases hpkt : m.pkt with
    | none => simp [hostFirst, hwait, hpkt]
    | some p => simp [hostFirst, hpkt]
  have hfind : (u.mem.waiting.find? fun m => m.admitted && stackOf m.addr == k && inPlace m && hostFirst u m && performable u m) =
      some m := by
    simp [hwait, hadm, hstack, hplace, hfirst, hperf]
  simp only [requestMade, hfind]
  simp only [State.setMem, hwait, List.erase_cons_head]

theorem forwardAll_of_none_waiting {k : Nat} (h : u.mem.waiting = []) : forwardAll k u = u := by
  have hkept : u.mem = { u.mem with waiting := [] } := by rw [← h]
  simp only [forwardAll, h, each, List.foldl_nil, State.setMem, ← hkept]

/-- A request stays where it stands in place. -/
theorem forwardRequest_of_inPlace {m : MemRequest} (h : inPlace m = true) : forwardRequest m u = (m, u) := by
  unfold forwardRequest
  cases hpkt : m.pkt with
  | none => rfl
  | some p =>
    have hhere : performer m.station.toNat (stackOf m.addr) = m.station.toNat := by
      simp only [inPlace, hpkt, Option.isNone_some, Bool.false_or, Bool.and_eq_true, beq_iff_eq] at h
      exact h.2
    exact if_pos (by simp [hhere])

theorem forwardAll_of_inPlace {k : Nat} {m : MemRequest} (hwait : u.mem.waiting = [m]) (h : inPlace m = true) : forwardAll k u = u := by
  have hkept : u.mem = { u.mem with waiting := [m] } := by rw [← hwait]
  have hstays (v : State) : (if m.admitted && stackOf m.addr == k then forwardRequest m v else (m, v)) = (m, v) := by
    rw [forwardRequest_of_inPlace h]
    exact ite_self _
  simp only [forwardAll, hwait, each, List.foldl_cons, List.foldl_nil, hstays, State.setMem, List.nil_append, ← hkept]

/-- The chunk is no longer among what a shakeout still has to clear. -/
def chunkShaken (x : (Nat × Nat) × Nat) (left : List (Nat × Nat)) : List (Nat × Nat) :=
  left.flatMap fun e => if e = x.1 then [(e.1, x.2), (x.2 + 128, e.2)].filter fun p => decide (p.1 < p.2) else [e]

/-- The chunk of a shakeout holds a half twice, and no longer waits. -/
def chunkCleared (x : (Nat × Nat) × Nat) (half : List Byte) (v : State) : State :=
  (putLine64 (x.2 + 64) half (putLine64 x.2 half v)).setMem fun m => { m with shakeLeft := chunkShaken x m.shakeLeft }

theorem chunkCleared_cells (x : (Nat × Nat) × Nat) (half : List Byte) (v : State) :
    (chunkCleared x half v).mem.cells = cellWrite (cellWrite v.mem.cells x.2 half) (x.2 + 64) half := rfl

theorem chunkCleared_shakeLeft (x : (Nat × Nat) × Nat) (half : List Byte) (v : State) :
    (chunkCleared x half v).mem.shakeLeft = chunkShaken x v.mem.shakeLeft := rfl

theorem chunkCleared_memOnly (x : (Nat × Nat) × Nat) (half : List Byte) (v : State) :
    MemOnly v (chunkCleared x half v) :=
  ((putLine64_memOnly _ _ _).trans (putLine64_memOnly _ _ _)).trans (setMem_memOnly _ _)

theorem shakeOne_eq {x : (Nat × Nat) × Nat} (hlo : x.2 ∉ u.mem.busErr) (hhi : x.2 + 64 ∉ u.mem.busErr) :
    shakeOne x u = chunkCleared x (List.replicate 64 0) (noteUnsched x.2 128 u) := by
  have hbus : (noteUnsched x.2 128 u).mem.busErr = u.mem.busErr := by rw [noteUnsched_notes u x.2 128]
  have hwrite := writeChunk_of_sound (noteUnsched x.2 128 u) x.2 1 (List.replicate 128 0) (by rwa [hbus]) (by rwa [hbus])
  rw [List.take_replicate, List.drop_replicate] at hwrite
  simp only [shakeOne, hwrite]
  rfl

/-- A chunk of a shakeout is cleared, and with it what was stored and owed of it (R363). -/
theorem shakeOne_clears {x : (Nat × Nat) × Nat} (hlo : x.2 ∉ u.mem.busErr) (hhi : x.2 + 64 ∉ u.mem.busErr) :
    (∀ a, cellGet (shakeOne x u).mem.cells a = if x.2 ≤ a ∧ a < x.2 + 128 then 0 else cellGet u.mem.cells a) ∧
    (shakeOne x u).mem.shakeLeft = chunkShaken x u.mem.shakeLeft ∧ shakeOne x u = { u with mem := (shakeOne x u).mem } := by
  have hnote := noteUnsched_notes u x.2 128
  have hcells : (noteUnsched x.2 128 u).mem.cells = u.mem.cells := by rw [hnote]
  rw [shakeOne_eq hlo hhi]
  refine ⟨fun a => ?_, ?_, ?_⟩
  · rw [chunkCleared_cells, cellGet_chunk_zeroed, hcells]
  · rw [chunkCleared_shakeLeft, hnote]
  · exact (noteUnsched_notes u x.2 128).memOnly.trans (chunkCleared_memOnly x _ _)

end

/-! ### REFRESH_WINDOW -/

/-- What a stack's refresh commands leave of another state: only the stacks' registers. -/
structure Refreshes (k : Nat) (s t : State) : Prop where
  rest : t = { s with mem := { s.mem with regs := t.mem.regs } }
  others : ∀ j, j ≠ k → t.stack j = s.stack j
  extra : (t.stack k).extra = (s.stack k).extra

theorem Refreshes.trans {k : Nat} {s t u : State} (h : Refreshes k s t) (g : Refreshes k t u) : Refreshes k s u :=
  ⟨by rw [g.rest, h.rest], fun j hj => (g.others j hj).trans (h.others j hj), g.extra.trans h.extra⟩

theorem refreshBanks_refreshes (s : State) (k ch n : Nat) : Refreshes k s (refreshBanks k ch n s) :=
  ⟨rfl, fun _ hj => State.setStack_stack_ne _ _ _ hj, by rw [refreshBanks, State.setStack_stack]⟩

theorem refreshBanks_bank (s : State) (k ch n c : Nat) : tget 0 ((refreshBanks k ch n s).stack k).bank c =
    if c = ch then (tget 0 (s.stack k).bank ch + n) % 64 else tget 0 (s.stack k).bank c := by
  rw [refreshBanks, State.setStack_stack]
  exact tget_tset ..

/-- Every pseudo-channel of a stack has taken n refresh commands. -/
theorem refreshAll_refreshes (s : State) (k n : Nat) : Refreshes k s (each (List.range 32) (fun ch => refreshBanks k ch n) s) :=
  each_invariant (Refreshes k s) (fun ch v h => h.trans (refreshBanks_refreshes v k ch n)) _ ⟨rfl, fun _ _ => rfl, rfl⟩

theorem refreshAll_bank (k n c : Nat) {l : List Nat} (hl : l.Nodup) (s : State) :
    tget 0 ((each l (fun ch => refreshBanks k ch n) s).stack k).bank c =
      if c ∈ l then (tget 0 (s.stack k).bank c + n) % 64 else tget 0 (s.stack k).bank c := by
  induction l generalizing s with
  | nil => simp [each]
  | cons ch l ih =>
    obtain ⟨hnot, hrest⟩ := List.nodup_cons.1 hl
    refine (ih hrest (refreshBanks k ch n s)).trans ?_
    rw [refreshBanks_bank]
    by_cases hc : c = ch
    · simp [hc, hnot]
    · simp [hc]

/-- The commands a stack takes outside RUN: those due, twice as many when it is hot (R43, R348). -/
def refreshOutsideRun (k due : Nat) (s : State) : State :=
  each (List.range 32) (fun ch => refreshBanks k ch (if stackHot s k then 2 * due else due)) (s.setStack k fun x => { x with extra := [] })

section
variable (s : State) (k : Fin 8) (due : Nat) (upsets : List Upset)

/-- What a ready stack does at a refresh window. -/
def refreshed (k due : Nat) (s : State) : State :=
  if !s.running then refreshOutsideRun k due s
  else if !refreshStart s then s
  else if stackHot s k && shortWindow s then refreshWindow k due due s
  else refreshWindow k (if stackHot s k then 2 * due else due) 0 s

section
variable {s k due}

theorem refreshed_outside_run (hphase : s.boot.phase ≠ .run) : refreshed k due s = refreshOutsideRun k due s :=
  if_pos (by simpa [State.running] using hphase)

theorem refreshed_between (hphase : s.boot.phase = .run) (hstart : refreshStart s = false) : refreshed k due s = s := by
  simp [refreshed, State.running, hphase, hstart]

theorem refreshed_of_cool (hphase : s.boot.phase = .run) (hstart : refreshStart s = true) (hcool : stackHot s k = false) :
    refreshed k due s = refreshWindow k due 0 s := by
  simp [refreshed, State.running, hphase, hstart, hcool]

theorem refreshed_of_long (hphase : s.boot.phase = .run) (hstart : refreshStart s = true) (hhot : stackHot s k = true)
    (hlong : shortWindow s = false) : refreshed k due s = refreshWindow k (2 * due) 0 s := by
  simp [refreshed, State.running, hphase, hstart, hhot, hlong]

theorem refreshed_of_short (hphase : s.boot.phase = .run) (hstart : refreshStart s = true) (hhot : stackHot s k = true)
    (hshort : shortWindow s = true) : refreshed k due s = refreshWindow k due due s := by
  simp [refreshed, State.running, hphase, hstart, hhot, hshort]

end

theorem exec_refreshWindow_of_ready (hon : s.pwr.mainOn = true) (hready : (s.stack k).ready = true) :
    exec (.refreshWindow k due upsets) s = .next (refreshed k due (addUpsets upsets s)) :=
  congrArg Host.Outcome.next (if_neg (by simp [hon, hready]))

/-- Outside RUN the banks of a stack step on, and nothing is owed to it. -/
theorem refreshOutsideRun_steps (k : Nat) :
    refreshOutsideRun k due s = { s with mem := { s.mem with regs := (refreshOutsideRun k due s).mem.regs } } ∧
    (∀ ch < 32, tget 0 ((refreshOutsideRun k due s).stack k).bank ch =
      (tget 0 (s.stack k).bank ch + if stackHot s k then 2 * due else due) % 64) ∧
    ((refreshOutsideRun k due s).stack k).extra = [] ∧ ∀ j, j ≠ k → (refreshOutsideRun k due s).stack j = s.stack j := by
  have h := refreshAll_refreshes (s.setStack k fun x => { x with extra := [] }) k (if stackHot s k then 2 * due else due)
  refine ⟨h.rest, fun ch hch => ?_, h.extra.trans ?_, fun j hj => (h.others j hj).trans (State.setStack_stack_ne _ _ _ hj)⟩
  · refine (refreshAll_bank k _ ch List.nodup_range _).trans ?_
    rw [if_pos (List.mem_range.2 hch), State.setStack_stack]
  · rw [State.setStack_stack]

end

/-! ### The scrub -/

section
variable (s : State) (addr : Nat)

theorem scrubLine_of_read {d : List Byte} {fixed : Bool} {t : State} (h : readLine addr 3 false s = (some (d, fixed), t)) :
    scrubLine addr s = if fixed then t.setMem (fun m => { m with writeBack := m.writeBack.filter (·.1 != addr) ++ [(addr, d)] }) else t := by
  unfold scrubLine
  rw [h]
  cases fixed
  · rfl
  · rfl

/-- A line written back: its bytes, no errors left, none of it still to write, and counted (R360, R365). -/
theorem writeBackLine_writes {e : Nat × List Byte} (h : e.1 ∉ s.mem.busErr) :
    (writeBackLine e s).mem.cells = cellWrite s.mem.cells e.1 e.2 ∧ (writeBackLine e s).mem.errors = tdel s.mem.errors e.1 ∧
    (writeBackLine e s).mem.writeBack = s.mem.writeBack.filter (·.1 != e.1) ∧
    tget 0 ((writeBackLine e s).stack (stackOf e.1)).ctr 3 = min (tget 0 (s.stack (stackOf e.1)).ctr 3 + 1) (2 ^ 32 - 1) := by
  have hnote := noteUnsched_notes s (e.1 / 128 * 128) 128
  have hwrite := writeLine_of_sound (noteUnsched (e.1 / 128 * 128) 128 s) e.1 3 e.2 (by rwa [hnote])
  simp only [writeBackLine, hwrite]
  rw [hnote]
  refine ⟨rfl, rfl, rfl, ?_⟩
  rw [stackCtr, State.setStack_stack, tget_tmod_self]
  rfl

end

/-- Settles O41: what goes ahead of requests is taken in its order, the only request in place is made, a refresh steps every bank, and a
corrected line waits to be written back. -/
theorem unscheduledAccessesAndRefresh : Obligations.UnscheduledAccessesAndRefresh := by
  unfold Obligations.UnscheduledAccessesAndRefresh
  refine ⟨fun s k upsets hon hready => ?_, fun s k due upsets hon hready => ?_⟩
  · intro u
    rw [exec_unscheduledAccess_of_ready hon hready]
    refine ⟨fun e he => ?_, fun die hw hc => ?_, fun x hw hc hx hlo hhi => ?_, fun hy hwait => ?_, fun m hy hwait hadm hst hpl hperf => ?_⟩
    · exact congrArg _ (unscheduledAccess_writeBack he)
    · exact congrArg _ (unscheduledAccess_capture hw hc)
    · obtain ⟨hcells, hleft, hrest⟩ := shakeOne_clears hlo hhi
      exact ⟨shakeOne x u, congrArg _ (unscheduledAccess_shake hw hc hx), hcells, hleft, hrest⟩
    · have hw : u.mem.waiting = [] := hwait
      exact congrArg _ ((unscheduledAccess_request hy).trans (by rw [forwardAll_of_none_waiting hw, requestMade_of_none_waiting hw]))
    · have hw : u.mem.waiting = [m] := hwait
      refine congrArg _ ((unscheduledAccess_request hy).trans ?_)
      rw [forwardAll_of_inPlace hw hpl, requestMade_of_singleton hw hadm hst hpl hperf]
  · intro u
    rw [exec_refreshWindow_of_ready s k due upsets hon hready]
    refine ⟨fun hphase => ?_, fun hphase hstart => ?_, fun hphase hstart => ⟨fun hcool => ?_, fun hhot hlong => ?_, fun hhot hshort => ?_⟩,
      fun addr hinj hbus => ⟨fun herr => ?_, fun d hout => ?_⟩, fun e hbus => writeBackLine_writes s hbus⟩
    · obtain ⟨hrest, hbanks, hextra, hothers⟩ := refreshOutsideRun_steps u due k
      exact ⟨refreshOutsideRun k due u, congrArg _ (refreshed_outside_run hphase), hrest, hbanks, hextra,
        fun j hj => (hothers j hj).trans rfl⟩
    · exact congrArg _ (refreshed_between hphase hstart)
    · exact congrArg _ (refreshed_of_cool hphase hstart hcool)
    · exact congrArg _ (refreshed_of_long hphase hstart hhot hlong)
    · exact congrArg _ (refreshed_of_short hphase hstart hhot hshort)
    · have hread : lineOutcome addr (lineDetect s addr) (storedLine s addr) (tget [] s.mem.errors addr) = .ok (storedLine s addr, false) := by
        rw [herr]
        exact lineOutcome_of_no_error addr _ _
      exact scrubLine_of_read s addr (readLine_of_sound s addr 3 hbus hinj hread)
    · rw [scrubLine_of_read s addr (readLine_of_sound s addr 3 hbus hinj hout)]
      rfl

end Sys2Proof.Machine
end

section
/-!
SUPPORT. The pool's windows: pointers between the cache and the free store (O42).
-/

namespace Sys2Proof.Machine

/-! ### Little-endian numbers -/

theorem leNat_leBytes (n v : Nat) : leNat (leBytes n v) = v % 256 ^ n := by
  induction n generalizing v with
  | zero => simp [leNat, leBytes, Nat.mod_one]
  | succ n ih =>
    calc (BitVec.ofNat 8 v).toNat + 256 * leNat (leBytes n (v / 256))
        = v % 256 + 256 * (v / 256 % 256 ^ n) := by rw [ih, BitVec.toNat_ofNat]
      _ = v % (256 * 256 ^ n) := Nat.mod_mul.symm
      _ = v % 256 ^ (n + 1) := by rw [pow_succ, mul_comm]

/-- A pointer word names its block and the block's complement (R178). -/
theorem leNat_pointerBytes {b : Nat} (h : b < 49152) : leNat (pointerBytes b) = b + (65535 - b) * 65536 := by
  have hlow : b % 65536 = b := Nat.mod_eq_of_lt (by omega)
  rw [pointerBytes, leNat_leBytes, hlow]
  exact Nat.mod_eq_of_lt (by omega)

section
variable {s : State}

/-! ### Pointers in -/

/-- The store's oldest pointer has been read. -/
def pointerRead (s : State) : State :=
  { s with fab := { s.fab with ringHead := (s.fab.ringHead + 1) % 49152, ringCount := s.fab.ringCount - 1 } }

theorem pointerIn_eq (d : List Byte) : pointerIn d s =
    if leNat d % 65536 + leNat d / 65536 ≠ 65535 || 49152 ≤ leNat d % 65536 || !blockFree (pointerRead s) (leNat d % 65536) then
      quenchDue 0x41 (leNat d % 65536) (pointerRead s)
    else (pointerRead s).setFab fun f => { f with cache := f.cache ++ [leNat d % 65536] } := rfl

/-- A sound pointer of a free block joins the cache. -/
theorem pointerIn_of_sound {b : Nat} (hb : b < 49152) (hfree : blockFree s b = true) : pointerIn (pointerBytes b) s = { s with fab := { s.fab with
    cache := s.fab.cache ++ [b], ringHead := (s.fab.ringHead + 1) % 49152, ringCount := s.fab.ringCount - 1 } } := by
  have hword := leNat_pointerBytes hb
  have hlow : leNat (pointerBytes b) % 65536 = b := by omega
  have hsum : leNat (pointerBytes b) % 65536 + leNat (pointerBytes b) / 65536 = 65535 := by omega
  have hstill : blockFree (pointerRead s) b = true := hfree
  have hpass : ¬ ((leNat (pointerBytes b) % 65536 + leNat (pointerBytes b) / 65536 ≠ 65535 || 49152 ≤ leNat (pointerBytes b) % 65536 ||
      !blockFree (pointerRead s) (leNat (pointerBytes b) % 65536)) = true) := by
    rw [hsum, hlow, hstill]
    simpa using hb
  rw [pointerIn_eq, if_neg hpass, hlow]
  rfl

/-- A pointer whose complement is wrong makes a quench due (R179). -/
theorem pointerIn_of_wrong {d : List Byte} (h : leNat d % 65536 + leNat d / 65536 ≠ 65535) :
    pointerIn d s = quenchDue 0x41 (leNat d % 65536) (pointerRead s) := by
  rw [pointerIn_eq, if_pos (by simp [h])]

theorem pointersIn_of_none_needed (fuel j : Nat) : pointersIn (fuel + 1) j 0 s = s := if_pos (by simp)

theorem pointersIn_of_empty_ring (fuel j n : Nat) (h : s.fab.ringCount = 0) : pointersIn (fuel + 1) j n s = s := if_pos (by simp [h])

/-! ### Pointers out -/

theorem pointersOut_of_none_left (fuel j : Nat) : pointersOut (fuel + 1) j 0 s = s := if_pos rfl

/-- Pointers that fit in a line of the ring go out with it. -/
theorem lineRun_of_fits {n pos : Nat} (hpos : pos < 49152) (hfits : pos % 16 + n ≤ 16) : lineRun n pos = n := by
  have hring : pos % 16 + (49152 - pos) ≥ 16 := by omega
  rw [lineRun, ringSize]
  omega

theorem pointersOut_of_one_line (fuel j n : Nat) {t : State} (hn : 0 < n) (hfits : (s.fab.ringHead + s.fab.ringCount) % 49152 % 16 + n ≤ 16)
    (hwrite : writeSpan (4 * ((s.fab.ringHead + s.fab.ringCount) % 49152)) ((s.fab.cache.reverse.take n).flatMap pointerBytes) 3
      (notePool (4 * ((s.fab.ringHead + s.fab.ringCount) % 49152) / 128 * 128) j s) = (true, t)) :
    pointersOut (fuel + 2) j n s = { t with
      fab := { t.fab with cache := t.fab.cache.take (t.fab.cache.length - n), ringCount := t.fab.ringCount + n } } := by
  have hrun : lineRun n ((s.fab.ringHead + s.fab.ringCount) % ringSize) = n := lineRun_of_fits (Nat.mod_lt _ (by decide)) hfits
  have hcache : (notePool (4 * ((s.fab.ringHead + s.fab.ringCount) % ringSize) / 128 * 128) j s).fab.cache = s.fab.cache := rfl
  rw [pointersOut, if_neg hn.ne']
  simp only [hrun, hcache]
  rw [show ringSize = 49152 from rfl, hwrite]
  simp only [Nat.sub_self]
  exact pointersOut_of_none_left fuel (j + 1)

/-! ### POOL_WINDOW -/

theorem poolWindow_of_excess (h : 2048 < s.fab.cache.length) :
    poolWindow s = pointersOut 2048 0 (min (s.fab.cache.length - 2048) 2048) s := if_pos h

theorem poolWindow_of_want (h : ¬ 2048 < s.fab.cache.length) : poolWindow s = pointersIn 2048 0 (2048 - s.fab.cache.length) s := if_neg h

/-- Nothing moves at 2,048 cached pointers, or at fewer with an empty ring. -/
theorem poolWindow_of_settled (h : s.fab.cache.length = 2048 ∨ (s.fab.cache.length < 2048 ∧ s.fab.ringCount = 0)) : poolWindow s = s := by
  rw [poolWindow_of_want (by omega)]
  rcases h with h | ⟨-, h⟩
  · rw [h]
    exact pointersIn_of_none_needed 2047 0
  · exact pointersIn_of_empty_ring 2047 0 _ h

end

theorem exec_poolWindow_of_ready {s : State} {upsets : List Upset} (hrun : s.boot.phase = .run) (hready : (s.stack 0).ready = true) :
    exec (.poolWindow upsets) s = .next (if poolStart s then poolWindow (addUpsets upsets s) else s) :=
  congrArg Host.Outcome.next (by simp [State.running, hrun, hready])

/-- Settles O42: a window moves the excess out or the want in, line by line out and pointer by pointer in. -/
theorem poolWindows : Obligations.PoolWindows := by
  unfold Obligations.PoolWindows
  intro s upsets hrun hready u
  have hcache : u.fab.cache = s.fab.cache := rfl
  have hring : u.fab.ringCount = s.fab.ringCount := rfl
  rw [exec_poolWindow_of_ready hrun hready]
  refine ⟨fun hoff => ?_, fun hstart => ⟨fun hsettled => ?_, fun hexcess => ?_, fun hwant => ?_⟩, fun fuel j n t => ?_,
    fun b hb hfree => pointerIn_of_sound hb hfree, fun d hwrong => pointerIn_of_wrong hwrong⟩
  · exact congrArg _ (if_neg (by simp [hoff]))
  · exact congrArg _ ((if_pos hstart).trans (poolWindow_of_settled (by rwa [hcache, hring])))
  · exact congrArg _ ((if_pos hstart).trans (poolWindow_of_excess (by rwa [hcache])))
  · exact congrArg _ ((if_pos hstart).trans (poolWindow_of_want (by rw [hcache]; omega)))
  · intro pos hn hfits hwrite
    exact pointersOut_of_one_line fuel j n hn hfits hwrite

end Sys2Proof.Machine
end

section
/-!
SUPPORT. Sending a packet: what the counters, the pool and the line take (O38).
-/

namespace Sys2Proof.Machine

/-! ### Fields of a sealed header (R124, R125) -/

section
variable (h : BitVec 256) (seq : Nat)

/-- The header's fields above its number stand, the number and its check follow. -/
theorem sealHeader_toNat : ∃ c < 2 ^ 16, (sealHeader h seq).toNat = h.toNat / 2 ^ 32 * 2 ^ 32 + seq % 2 ^ 16 * 2 ^ 16 + c ∧
    c = headerCrc (sealHeader h seq) := by
  have hh : h.toNat < 2 ^ 256 := h.isLt
  have hfirst : (BitVec.ofNat 256 (h.toNat / 2 ^ 32 * 2 ^ 32 + seq % 2 ^ 16 * 2 ^ 16)).toNat =
      h.toNat / 2 ^ 32 * 2 ^ 32 + seq % 2 ^ 16 * 2 ^ 16 := by
    rw [BitVec.toNat_ofNat]
    exact Nat.mod_eq_of_lt (by omega)
  generalize hh1 : BitVec.ofNat 256 (h.toNat / 2 ^ 32 * 2 ^ 32 + seq % 2 ^ 16 * 2 ^ 16) = h1 at hfirst
  have hc : headerCrc h1 < 2 ^ 16 := (crc16 _).isLt
  have hseal : (sealHeader h seq).toNat = h1.toNat + headerCrc h1 := by
    rw [sealHeader, hh1, BitVec.toNat_ofNat]
    exact Nat.mod_eq_of_lt (by omega)
  have htop : (sealHeader h seq).toNat / 2 ^ 16 = h1.toNat / 2 ^ 16 := by omega
  refine ⟨headerCrc h1, hc, by rw [hseal, hfirst], ?_⟩
  rw [headerCrc, headerCrc, htop]

theorem fld_sealHeader {hi lo : Nat} (hlo : 32 ≤ lo) : fld (sealHeader h seq) hi lo = fld h hi lo := by
  obtain ⟨c, hc, hval, -⟩ := sealHeader_toNat h seq
  have htop : (sealHeader h seq).toNat / 2 ^ 32 = h.toNat / 2 ^ 32 := by omega
  have hshift (n : Nat) : n >>> lo = n / 2 ^ 32 / 2 ^ (lo - 32) := by
    rw [Nat.div_div_eq_div_mul, ← pow_add, Nat.shiftRight_eq_div_pow, Nat.add_sub_cancel' hlo]
  rw [fld, fld, hshift, hshift, htop]

theorem hSeq_sealHeader : hSeq (sealHeader h seq) = seq % 65536 := by
  obtain ⟨c, hc, hval, -⟩ := sealHeader_toNat h seq
  rw [hSeq, fld, Nat.shiftRight_eq_div_pow]
  omega

theorem hCrc_sealHeader : hCrc (sealHeader h seq) = headerCrc (sealHeader h seq) := by
  obtain ⟨c, hc, hval, hcrc⟩ := sealHeader_toNat h seq
  rw [hCrc, fld, Nat.shiftRight_eq_div_pow, ← hcrc]
  omega

end

/-! ### What changes the fabric alone -/

/-- Only the fabric has changed. -/
def FabOnly (s t : State) : Prop := t = { s with fab := t.fab }

theorem FabOnly.trans {s t u : State} (h : FabOnly s t) (k : FabOnly t u) : FabOnly s u := by
  unfold FabOnly at *
  rw [k, h]

section
variable (s : State)

theorem setFab_fabOnly (f : Fabric → Fabric) : FabOnly s (s.setFab f) := rfl

theorem takeBlocks_fabOnly (key n : Nat) : FabOnly s (takeBlocks key n s) := by
  induction n generalizing s with
  | zero => rfl
  | succ n ih =>
    rw [takeBlocks]
    split
    · rfl
    · exact (setFab_fabOnly s _).trans (ih _)

theorem poolPush_fabOnly (key cells : Nat) : FabOnly s (poolPush key cells s) := by
  unfold poolPush
  exact (takeBlocks_fabOnly s key _).trans (setFab_fabOnly _ _)

theorem poolPop_fabOnly (key cells : Nat) : FabOnly s (poolPop key cells s) := rfl

theorem leaveQueue_fabOnly (key : Nat) (q : QPkt) : FabOnly s (leaveQueue key q s) := rfl

end

/-! ### Counters and the line -/

section
variable (s : State) (p : Nat)

theorem bumpPort_port (i k : Nat) : (bumpPort p i k s).port p =
    { s.port p with ctr := tmod 0 (s.port p).ctr i (satAdd (portCtrWidth i) · k) } := State.setPort_port ..

/-- Counting a sent packet changes its class's packet and byte counters and the latency mark. -/
theorem countTx_port (q : QPkt) : (countTx p q s).port p = { s.port p with
    latMark := ((countTx p q s).port p).latMark
    ctr := tmod 0 (tmod 0 (s.port p).ctr (32 + hCls q.pkt.hdr) (satAdd (portCtrWidth (32 + hCls q.pkt.hdr)) · 1)) (40 + hCls q.pkt.hdr)
      (satAdd (portCtrWidth (40 + hCls q.pkt.hdr)) · (40 + payloadLen q.pkt.hdr)) } := by
  simp only [countTx, bumpPort_port, State.setPort_port]

theorem countTx_out (q : QPkt) : (countTx p q s).out = s.out := rfl

theorem portCtrWidth_packets {d : Nat} (hd : d < 8) : portCtrWidth (32 + d) = 48 := by
  simp only [portCtrWidth]
  split_ifs <;> grind

/-- The packet counters of a sent packet (R186). -/
theorem countTx_packets (q : QPkt) {d : Nat} (hd : d < 8) : tget 0 ((countTx p q s).port p).ctr (32 + d) =
    if d = hCls q.pkt.hdr then min (tget 0 (s.port p).ctr (32 + d) + 1) (2 ^ 48 - 1) else tget 0 (s.port p).ctr (32 + d) := by
  rw [countTx_port]
  dsimp only
  rw [tget_tmod_ne _ _ _ (show 32 + d ≠ 40 + hCls q.pkt.hdr by omega)]
  split
  · rename_i hsame
    rw [← hsame, tget_tmod_self, satAdd, portCtrWidth_packets hd]
  · rename_i hother
    exact tget_tmod_ne _ _ _ fun h => hother (Nat.add_left_cancel h)

theorem sendCw_port (ctype seq : Nat) : (sendCw p ctype seq s).port p =
    { s.port p with giving := ((sendCw p ctype seq s).port p).giving, cwClk := s.clk } := by
  have h : (sendCw p ctype seq s).port p = (s.setPort p fun x =>
    { x with giving := (x.giving.map fun e => (e.1, e.2 - 255)).filter (fun e => e.2 != 0), cwClk := s.clk }).port p := rfl
  rw [h, State.setPort_port]

/-- What goes on the line with a control word changes of its port only the credits due and the control word's clk. -/
def SaidOn (p : Nat) (s t : State) : Prop :=
  t.port p = { s.port p with giving := (t.port p).giving, cwClk := (t.port p).cwClk }

theorem SaidOn.ctr {s t : State} {p : Nat} (h : SaidOn p s t) : (t.port p).ctr = (s.port p).ctr := by
  unfold SaidOn at h
  generalize t.port p = y at h ⊢
  rw [h]

theorem sendCw_saidOn (ctype seq : Nat) : SaidOn p s (sendCw p ctype seq s) := by
  unfold SaidOn
  rw [sendCw_port]

theorem escapeFor_saidOn (line : BitVec 256) : SaidOn p s (escapeFor p line s) := by
  unfold escapeFor
  split
  · exact sendCw_saidOn s p 4 0
  · rfl

theorem putOnLine_saidOn (key : Option (BitVec 128)) (n : Nat) (k : Packet) : SaidOn p s (putOnLine p key n k s) := by
  have h := escapeFor_saidOn s p (cipherHeader key n k.hdr)
  unfold putOnLine
  split
  · exact h
  · exact h

theorem escapeFor_out (line : BitVec 256) : (escapeFor p line s).out =
    (if cwValid (BitVec.ofNat 128 (line.toNat / 2 ^ 128)) then [.control (BitVec.ofNat 8 p) (mkCw 4 0 (creditField (s.port p)))] else []) ++
      s.out := by
  unfold escapeFor
  split
  · rfl
  · rfl

/-- What goes out for a packet: an ESCAPE word where its start reads as a control word, then the packet or its header. -/
theorem putOnLine_out (key : Option (BitVec 128)) (n : Nat) (k : Packet) : (putOnLine p key n k s).out =
    (if k.complete then .packet (BitVec.ofNat 8 p) (cipherHeader key n k.hdr) (cipherPayload key n k.payload)
        (cipherTrailer key n k.payload.length k.trailer)
      else .packetStart (BitVec.ofNat 8 p) (cipherHeader key n k.hdr) k.ident) ::
    ((if cwValid (BitVec.ofNat 128 ((cipherHeader key n k.hdr).toNat / 2 ^ 128)) then
      [.control (BitVec.ofNat 8 p) (mkCw 4 0 (creditField (s.port p)))] else []) ++ s.out) := by
  rw [← escapeFor_out]
  unfold putOnLine
  split
  · rfl
  · rfl

end

/-! ### A sequenced packet -/

section
variable (s : State) (p : Nat) (q : QPkt) (j : Injected)

/-- A packet under a sealed header, with the trailer of its bytes or the stomped one (R125, R140). -/
def sealedPacket (h : BitVec 256) (k : Packet) : Packet :=
  let good := trailerOf h k.payload
  { k with hdr := h, trailer := if k.stomped then good ^^^ BitVec.allOnes 64 else good }

/-- The port that has taken a packet for sending. -/
def portTaking (h : BitVec 256) (k : Packet) (x : Port) : Port :=
  { x with
    txSeq := (x.txSeq + 1) % 65536, txCount := x.txCount + 1, replayQ := x.replayQ ++ [k]
    ackClk := if x.replayQ.isEmpty then s.clk else x.ackClk
    credits := if scheduledClass h then x.credits else tmod 0 x.credits (hCls h) (· - cellsOf h)
    cut := if k.complete then none else some { ident := k.ident, act := j.act, link := j.link, sel := j.sel, draw := j.draw }
    busyUntil := s.clk + sendClk s p h }

/-- The state that has taken a packet for sending, before it goes on the line. -/
def packetTaken (h : BitVec 256) (k : Packet) : State :=
  countTx p q (poolPush (replayKey p) (cellsOf h) (s.setPort p (portTaking s p j h k)))

theorem sendSequenced_eq : sendSequenced p q j s =
    (let h := sealHeader q.pkt.hdr (s.port p).txSeq
     match atLinkStage j (sealedPacket h q.pkt) with
     | some k => putSequenced p k (packetTaken s p q j h (sealedPacket h q.pkt))
     | none => packetTaken s p q j h (sealedPacket h q.pkt)) := rfl

theorem sendSequenced_of_uninjected (hact : j.act = 0) : sendSequenced p q j s =
    (let h := sealHeader q.pkt.hdr (s.port p).txSeq
     putSequenced p (sealedPacket h q.pkt) (packetTaken s p q j h (sealedPacket h q.pkt))) := by
  have hline (k : Packet) : atLinkStage j k = some k := by simp [atLinkStage, hact]
  rw [sendSequenced_eq]
  simp only [hline]

theorem poolPushed_port (key cells : Nat) (u : State) : (poolPush key cells u).port p = u.port p := by
  rw [poolPush_fabOnly u key cells]
  rfl

variable (h : BitVec 256) (k : Packet)

theorem packetTaken_port : (packetTaken s p q j h k).port p = { portTaking s p j h k (s.port p) with
    latMark := ((packetTaken s p q j h k).port p).latMark, ctr := ((packetTaken s p q j h k).port p).ctr } := by
  have hcount := countTx_port (poolPush (replayKey p) (cellsOf h) (s.setPort p (portTaking s p j h k))) p q
  rw [poolPushed_port, State.setPort_port] at hcount
  rw [packetTaken, hcount]

theorem packetTaken_packets {d : Nat} (hd : d < 8) : tget 0 ((packetTaken s p q j h k).port p).ctr (32 + d) =
    if d = hCls q.pkt.hdr then min (tget 0 (s.port p).ctr (32 + d) + 1) (2 ^ 48 - 1) else tget 0 (s.port p).ctr (32 + d) := by
  have hctr : (portTaking s p j h k (s.port p)).ctr = (s.port p).ctr := rfl
  rw [packetTaken, countTx_packets _ p q hd, poolPushed_port, State.setPort_port, hctr]

theorem packetTaken_out : (packetTaken s p q j h k).out = s.out := by
  rw [packetTaken, countTx_out, poolPush_fabOnly]
  rfl

end

/-- The credits of the packet's class go down by its cells; scheduled classes have none (R130). -/
theorem tget_credits_taken (m : Tab Nat) (h : BitVec 256) (c : Nat) :
    tget 0 (if scheduledClass h then m else tmod 0 m (hCls h) (· - cellsOf h)) c =
      if c = hCls h ∧ hCls h ≠ 2 ∧ hCls h ≠ 3 then tget 0 m c - cellsOf h else tget 0 m c := by
  unfold scheduledClass
  by_cases hclass : hCls h = 2 ∨ hCls h = 3
  · rw [if_pos (by simpa using hclass), if_neg (by omega)]
  · rw [if_neg (by simpa using hclass)]
    by_cases hc : c = hCls h
    · rw [hc, tget_tmod_self, if_pos (by omega)]
    · rw [tget_tmod_ne _ _ _ hc, if_neg (by omega)]

/-- The count under which a packet goes out is the one it was taken with (R143). -/
theorem countOf_taken (x y : Port) (h : BitVec 256) (hcount : y.txCount = x.txCount + 1) (hseq : y.txSeq = (x.txSeq + 1) % 65536) :
    countOf y (hSeq (sealHeader h x.txSeq)) = x.txCount := by
  rw [countOf, hSeq_sealHeader, hcount, hseq]
  omega

/-- Settles O38: a sequenced send takes the packet into the port, its replay buffer and the counters, and puts it on the line under the
number it was taken with. -/
theorem sendingNumbersAndKeeps : Obligations.SendingNumbersAndKeeps := by
  unfold Obligations.SendingNumbersAndKeeps
  intro s p q j hact x t h good tr key line
  have ht : t = putSequenced p (sealedPacket h q.pkt) (packetTaken s p q j h (sealedPacket h q.pkt)) :=
    sendSequenced_of_uninjected s p q j hact
  have hnumber : hSeq h = x.txSeq % 65536 := hSeq_sealHeader q.pkt.hdr x.txSeq
  have hcrc : hCrc h = headerCrc h := hCrc_sealHeader q.pkt.hdr x.txSeq
  have hfields {hi lo : Nat} (hlo : 32 ≤ lo) : fld h hi lo = fld q.pkt.hdr hi lo := fld_sealHeader q.pkt.hdr x.txSeq hlo
  have hcount (y : Port) : y.txCount = x.txCount + 1 → y.txSeq = (x.txSeq + 1) % 65536 → countOf y (hSeq h) = x.txCount :=
    countOf_taken x y q.pkt.hdr
  have hsealed : sealedPacket h q.pkt = { q.pkt with hdr := h, trailer := tr } := rfl
  rw [hsealed] at ht
  clear_value t h tr
  have htaken := packetTaken_port s p q j h { q.pkt with hdr := h, trailer := tr }
  have hpackets (d : Nat) (hd : d < 8) := packetTaken_packets s p q j h { q.pkt with hdr := h, trailer := tr } hd
  have hout := packetTaken_out s p q j h { q.pkt with hdr := h, trailer := tr }
  generalize packetTaken s p q j h { q.pkt with hdr := h, trailer := tr } = u at ht htaken hpackets hout
  have hkey : txKey (u.port p) = key := by rw [htaken]; rfl
  have hnow : countOf (u.port p) (hSeq h) = x.txCount := hcount _ (by rw [htaken]; rfl) (by rw [htaken]; rfl)
  have hgiving : creditField (u.port p) = creditField x := by rw [htaken]; rfl
  have hput : t = putOnLine p key x.txCount { q.pkt with hdr := h, trailer := tr } u := by rw [ht, putSequenced, hkey, hnow]
  have hsaid : SaidOn p u t := by
    rw [hput]
    exact putOnLine_saidOn u p key x.txCount _
  have hctr : (t.port p).ctr = (u.port p).ctr := hsaid.ctr
  unfold SaidOn at hsaid
  rw [htaken] at hsaid
  have hcredits : (t.port p).credits = if scheduledClass h then x.credits else tmod 0 x.credits (hCls h) (· - cellsOf h) := by
    rw [hsaid]; rfl
  have hcut : (t.port p).cut = if q.pkt.complete then none else
      some { ident := q.pkt.ident, act := j.act, link := j.link, sel := j.sel, draw := j.draw } := by
    rw [hsaid]; rfl
  refine ⟨by rw [hsaid]; rfl, by rw [hsaid]; rfl, by rw [hsaid]; rfl, fun c => ?_, by rw [hsaid]; rfl, ?_, fun d hd => ?_, ?_, ?_⟩
  · rw [hcredits]
    exact tget_credits_taken x.credits h c
  · rw [hcut]
    cases q.pkt.complete
    · simp
    · simp
  · rw [hctr]
    exact hpackets d hd
  · rw [hput, putOnLine_out, hout, hgiving]
  · exact ⟨hnumber, hcrc, hfields (by decide), hfields (by decide), hfields (by decide), hfields (by decide), hfields (by decide)⟩

end Sys2Proof.Machine
end

section
/-!
SUPPORT. What a port chooses to send (O37).
-/

namespace Sys2Proof.Machine

/-! ### What a send looks at besides the packet -/

/-- All that decides about injection, taps and standby at a port is the same. -/
structure SameOutlook (p : Nat) (s t : State) : Prop where
  boot : t.boot = s.boot
  job : t.job = s.job
  fuse : t.fuse = s.fuse
  cfg : t.cfg = s.cfg
  ledger : t.ledger = s.ledger
  inj : (t.port p).inj = (s.port p).inj

namespace SameOutlook

variable {p : Nat} {s t u : State}

theorem refl (p : Nat) (s : State) : SameOutlook p s s := ⟨rfl, rfl, rfl, rfl, rfl, rfl⟩

theorem trans (h : SameOutlook p s t) (k : SameOutlook p t u) : SameOutlook p s u :=
  ⟨k.boot.trans h.boot, k.job.trans h.job, k.fuse.trans h.fuse, k.cfg.trans h.cfg, k.ledger.trans h.ledger, k.inj.trans h.inj⟩

theorem setPort (h : SameOutlook p s t) {f : Port → Port} (hf : ∀ x, (f x).inj = x.inj) : SameOutlook p s (t.setPort p f) :=
  ⟨h.boot, h.job, h.fuse, h.cfg, h.ledger, by rw [State.setPort_port, hf, h.inj]⟩

theorem leaveQueue (h : SameOutlook p s t) (key : Nat) (q : QPkt) : SameOutlook p s (leaveQueue key q t) :=
  ⟨h.boot, h.job, h.fuse, h.cfg, h.ledger, h.inj⟩

theorem ite {c : Prop} [Decidable c] (ht : SameOutlook p s t) (hu : SameOutlook p s u) : SameOutlook p s (if c then t else u) := by
  split
  · exact ht
  · exact hu

theorem replayMode (h : SameOutlook p s t) : t.replayMode = s.replayMode := by
  simp only [State.replayMode, State.ledgerCfg, State.cfgw, h.cfg]

theorem portTap (h : SameOutlook p s t) : portTap t p = portTap s p := by
  simp only [Machine.portTap, swapPort, swapBy, tableRows, State.cfgw, h.cfg, h.ledger] <;> rfl

theorem isCandidate (h : SameOutlook p s t) (c : Nat) : isCandidate t p c = isCandidate s p c := by
  simp only [Machine.isCandidate, injWord, State.running, h.boot, h.job, h.fuse, h.inj] <;> rfl

theorem untouched (h : SameOutlook p s t) : untouched t p = untouched s p := by
  simp only [Machine.untouched, injWord, h.inj]

theorem plainSend (h : SameOutlook p s t) {hdr : BitVec 256} (hs : plainSend s p hdr) : plainSend t p hdr := by
  obtain ⟨htype, hreplay, hstand, hcand, htap⟩ := hs
  refine ⟨htype, h.replayMode.trans hreplay, ?_, (h.isCandidate _).trans hcand, (congrArg (bit · 5) h.portTap).trans htap⟩
  simpa only [State.standby, State.ledgerCfg, State.cfgw, h.cfg, h.ledger] using hstand

end SameOutlook

/-! ### Sending a chosen packet -/

section
variable {s : State} {p : Nat} {q : QPkt}

/-- A packet of a class that the injector leaves alone is decided so. -/
theorem injDecide_of_not_candidate {h : BitVec 256} (hcand : isCandidate s p (hCls h) = false) : injDecide p h s = (0, false, 0, s) :=
  if_pos (by simp [hcand])

theorem tapTx_of_no_tap {k : Packet} (htap : bit (portTap s p) 5 = false) : tapTx p k s = s := if_neg (by simp [htap])

theorem injectPacket_of_untouched : injectPacket (untouched s p) q = q := rfl

/-- With nothing injected, copied, held or discarded a packet is sent as it is. -/
theorem transmit_of_no_injection (hfree : hType q.pkt.hdr = 4 ∨ (s.replayMode = false ∧ s.standby = false))
    (hcand : isCandidate s p (hCls q.pkt.hdr) = false) (htap : bit (portTap s p) 5 = false) :
    transmit p q s = sendNow p q (untouched s p) s := by
  have hreplay : ¬ ((s.replayMode && decide (hType q.pkt.hdr ≠ 4)) = true) := by rcases hfree with h | ⟨h, -⟩ <;> simp [h]
  have hstand : ¬ ((s.standby && decide (hType q.pkt.hdr ≠ 4)) = true) := by rcases hfree with h | ⟨-, h⟩ <;> simp [h]
  rw [transmit, if_neg hreplay, if_neg hstand, injDecide_of_not_candidate hcand]
  simp [tapTx_of_no_tap htap, untouched, injectPacket]

theorem transmit_of_plainSend (h : plainSend s p q.pkt.hdr) : transmit p q s = sendSequenced p q (untouched s p) s := by
  obtain ⟨htype, hreplay, hstand, hcand, htap⟩ := h
  rw [transmit_of_no_injection (.inr ⟨hreplay, hstand⟩) hcand htap]
  exact if_neg htype

/-- A plain send from a state with the same outlook. -/
theorem transmit_of_sameOutlook {t : State} (h : SameOutlook p s t) (hs : plainSend s p q.pkt.hdr) :
    transmit p q t = sendSequenced p q (untouched s p) t := by
  rw [transmit_of_plainSend (h.plainSend hs), h.untouched]

/-- A PTP message is sent from a state with the same outlook, also in standby (R392, R402). -/
theorem transmit_of_ptp {t : State} (h : SameOutlook p s t) (htype : hType q.pkt.hdr = 4)
    (hcand : isCandidate s p (hCls q.pkt.hdr) = false) (htap : bit (portTap s p) 5 = false) :
    transmit p q t = sendPtp p q.pkt (untouched s p) t := by
  rw [transmit_of_no_injection (.inl htype) ((h.isCandidate _).trans hcand) (by rwa [h.portTap]), h.untouched]
  exact if_pos htype

/-- A packet that was held goes with no further injection. -/
theorem sendHeld_of_no_tap {c : Nat} (htype : hType q.pkt.hdr ≠ 4) (htap : bit (portTap s p) 5 = false) : sendHeld p c q s =
    sendSequenced p q { act := 0, link := false, sel := 0, draw := 0 } (s.setPort p fun x => { x with held := tmod [] x.held c List.tail }) := by
  have hlook : SameOutlook p s (s.setPort p fun x => { x with held := tmod [] x.held c List.tail }) :=
    (SameOutlook.refl p s).setPort (by intro; rfl)
  rw [sendHeld, tapTx_of_no_tap (by rwa [hlook.portTap])]
  exact if_neg htype

end

/-! ### Choices of a port -/

section
variable {s : State} {p : Nat} {ahead : Option Nat}

theorem setPort_congr {f g : Port → Port} (h : f (s.port p) = g (s.port p)) : s.setPort p f = s.setPort p g := by
  simp only [State.setPort, tmod]
  exact congrArg (fun y => { s with ports := tset s.ports p y }) h

theorem atBoundary_of_mayChoose (h : mayChoose s p) : atBoundary s p = true := by
  obtain ⟨-, hbusy, hcut, -, -⟩ := h
  simp [atBoundary, hbusy, hcut]

theorem atBoundary_eq_false (h : s.clk < (s.port p).busyUntil ∨ (s.port p).cut ≠ none) : atBoundary s p = false := by
  rcases h with h | h
  · have hbusy : ¬ (s.port p).busyUntil ≤ s.clk := by omega
    simp [atBoundary, hbusy]
  · have hcut : (s.port p).cut.isSome = true := Option.isSome_iff_ne_none.2 h
    simp [atBoundary, hcut]

theorem dropScheduled_of_none (h : (s.port p).scheduled = []) : dropScheduled p s = s := by simp only [dropScheduled, h]

theorem ptpHead_of_first {k : Packet} {rest : List Packet} (h : (s.port p).ptpQ = k :: rest) (hbucket : bucketAllows s p 0 k.hdr = true) :
    ptpHead s p = some k := by
  simp [ptpHead, h, hbucket]

theorem chooseItem_of_rest (hreplay : (s.port p).replaying = none) (hhead : scheduledHead s p = none) :
    chooseItem p ahead s = chooseRest p ahead s := by
  simp only [chooseItem, hreplay, hhead]

theorem chooseItem_of_replayWord {n : Nat} (h : (s.port p).replaying = some (n, true)) : chooseItem p ahead s = sendReplay p n true s := by
  simp only [chooseItem, h]

theorem chooseItem_of_scheduled {q : QPkt} (hreplay : (s.port p).replaying = none) (hhead : scheduledHead s p = some q) :
    chooseItem p ahead s = transmit p (takeScheduled p q s).1 (takeScheduled p q s).2 := by
  simp only [chooseItem, hreplay, hhead]

theorem scheduledHead_of_due {q : QPkt} {rest : List QPkt} (h : (s.port p).scheduled = q :: rest) (hdue : q.since ≤ s.clk)
    (hwindow : windowAllows s p q.pkt.hdr = true) : scheduledHead s p = some q := by
  simp [scheduledHead, h, hdue, hwindow]

theorem takeScheduled_sameOutlook (q : QPkt) : SameOutlook p s (takeScheduled p q s).2 := by
  have hport (u : State) (hu : SameOutlook p s u) : SameOutlook p s (u.setPort p fun x => { x with scheduled := x.scheduled.tail }) :=
    hu.setPort (by intro; rfl)
  exact hport (s.setStation _ _) ⟨rfl, rfl, rfl, rfl, rfl, rfl⟩

theorem drawBucket_sameOutlook (c : Nat) (h : BitVec 256) : SameOutlook p s (drawBucket p c h s) :=
  .ite ((SameOutlook.refl p s).setPort (by intro; rfl)) (.refl p s)

theorem payTag_sameOutlook (c : Nat) (h : BitVec 256) : SameOutlook p s (payTag p c h s) := (SameOutlook.refl p s).setPort (by intro; rfl)

theorem fixTag_sameOutlook (c : Nat) : SameOutlook p s (fixTag p ahead c s) := by
  have hport {f : Port → Port} (hf : ∀ x, (f x).inj = x.inj) : SameOutlook p s (s.setPort p f) := (SameOutlook.refl p s).setPort hf
  unfold fixTag
  refine .ite (hport (by intro; rfl)) ?_
  split
  · exact hport (by intro; rfl)
  · exact .ite (hport (by intro; rfl)) (.refl p s)

theorem tagged_sameOutlook : SameOutlook p s (tagged p ahead s) := (fixTag_sameOutlook 4).trans (fixTag_sameOutlook 5)

/-! #### The rest of the choice, item by item -/

theorem chooseRest_of_nak (h : (s.port p).nakDue = true) :
    chooseRest p ahead s = (nakNow p s).setPort p fun x => { x with busyUntil := s.clk + 1 } := if_pos h

theorem chooseRest_of_filler (hnak : (s.port p).nakDue = false) (h : (s.port p).cwClk + 128 ≤ s.clk) :
    chooseRest p ahead s = fillerSent p s := (if_neg (by simp [hnak])).trans (if_pos h)

section
variable (hnak : (s.port p).nakDue = false) (hcw : s.clk < (s.port p).cwClk + 128)
include hnak hcw

theorem chooseRest_of_ptp {k : Packet} (h : ptpHead s p = some k) : chooseRest p ahead s =
    transmit p { pkt := k, owner := .none, cells := 0, ring := 0, since := s.clk, targets := [], reserved := [] }
      (drawBucket p 0 k.hdr (s.setPort p fun x => { x with ptpQ := x.ptpQ.tail })) := by
  rw [chooseRest, if_neg (by simp [hnak]), if_neg (by omega), h]
  have hclk : ∀ f, (drawBucket p 0 k.hdr (s.setPort p f)).clk = s.clk := fun f => by unfold drawBucket; split <;> rfl
  simp only [hclk]

variable (hptp : ptpHead s p = none) (hcarry : (s.port p).carrying = true)
include hptp hcarry

theorem chooseRest_of_held {c : Nat} {q : QPkt} (h : heldDue s p ahead = some (c, q)) : chooseRest p ahead s = sendHeld p c q s := by
  rw [chooseRest, if_neg (by simp [hnak]), if_neg (by omega), hptp, h]
  simp [hcarry]

theorem chooseRest_of_buffer {q : QPkt} (hheld : heldDue s p ahead = none) (h : bufferHead s p ahead = some q) :
    chooseRest p ahead s = transmit p q (s.setPort p fun x => { x with mcastBuf := x.mcastBuf.erase q }) := by
  rw [chooseRest, if_neg (by simp [hnak]), if_neg (by omega), hptp, hheld, h]
  simp [hcarry]

theorem chooseRest_of_class (hheld : heldDue s p ahead = none) (h : bufferHead s p ahead = none) :
    chooseRest p ahead s = chooseClass p ahead s := by
  rw [chooseRest, if_neg (by simp [hnak]), if_neg (by omega), hptp, hheld, h]
  simp [hcarry]

end

/-! #### The classes in order -/

theorem chooseClass_eq : chooseClass p ahead s =
    ((classOrder p ahead s).findSome? fun c => (readyHead (tagged p ahead s) p c ahead).map fun h => takeHead p c h (tagged p ahead s)).getD
      (fillAck p (tagged p ahead s)) := rfl

theorem chooseClass_of_none (h : ∀ c ∈ classOrder p ahead s, readyHead (tagged p ahead s) p c ahead = none) :
    chooseClass p ahead s = fillerSent p (tagged p ahead s) := by
  have hnone : ((classOrder p ahead s).findSome? fun c => (readyHead (tagged p ahead s) p c ahead).map fun h =>
      takeHead p c h (tagged p ahead s)) = none := List.findSome?_eq_none_iff.2 fun c hc => by rw [h c hc, Option.map_none]
  rw [chooseClass_eq, hnone]
  rfl

theorem chooseClass_of_first {before after : List Nat} {c : Nat} {h : HeadAt × QPkt} (hsplit : classOrder p ahead s = before ++ c :: after)
    (hbefore : ∀ d ∈ before, readyHead (tagged p ahead s) p d ahead = none) (hready : readyHead (tagged p ahead s) p c ahead = some h) :
    chooseClass p ahead s = takeHead p c h (tagged p ahead s) := by
  have hnone : (before.findSome? fun c => (readyHead (tagged p ahead s) p c ahead).map fun h => takeHead p c h (tagged p ahead s)) = none :=
    List.findSome?_eq_none_iff.2 fun d hd => by rw [hbefore d hd, Option.map_none]
  rw [chooseClass_eq, hsplit, List.findSome?_append, hnone, List.findSome?_cons, hready]
  rfl

/-- The bucket and the tag of a head are paid as it goes (R196, R197). -/
def headPaid (p c : Nat) (h : BitVec 256) (s : State) : State :=
  let u := drawBucket p c h s
  if c = 4 ∨ c = 5 then payTag p c h u else u

theorem headPaid_sameOutlook (c : Nat) (h : BitVec 256) : SameOutlook p s (headPaid p c h s) :=
  .ite ((drawBucket_sameOutlook c h).trans (payTag_sameOutlook c h)) (drawBucket_sameOutlook c h)

theorem takeHead_of_unicast {c : Nat} {h : HeadAt × QPkt} (hat : h.1 = .unicast) : takeHead p c h s =
    transmit p h.2 (leaveQueue (egressKey p c) h.2 ((headPaid p c h.2.pkt.hdr s).setPort p fun y =>
      { y with egress := tmod [] y.egress c List.tail })) := by
  simp only [takeHead, hat, headPaid, Bool.or_eq_true, decide_eq_true_eq]

theorem takeHead_of_mcast {c b : Nat} {h : HeadAt × QPkt} (hat : h.1 = .mcast b) : takeHead p c h s =
    ((headPaid p c h.2.pkt.hdr s).setPort p fun y => { y with mcastSel := y.mcastSel ++ [(b, c)] }).setFab fun f =>
      { f with mcast := tmod [] f.mcast (8 * b + c) fun l =>
        match l with
        | q :: rest => { q with reserved := q.reserved ++ [p] } :: rest
        | [] => [] } := by
  simp only [takeHead, hat, headPaid, Bool.or_eq_true, decide_eq_true_eq] <;> rfl

end

/-! ### EGRESS_SELECT -/

section
variable {s : State} {port : PortNo} {ahead : Option Nat}

theorem dropQueued_of_no_replay (p : Nat) (h : s.replayMode = false) : dropQueued p s = s := if_pos (by simp [h])

/-- Outside replay mode an egress turn drops what is due across a port that is not UP, or chooses. -/
theorem exec_egressSelect_of_no_replay (hmode : s.replayMode = false) : exec (.egressSelect ⟨port, ahead⟩) s =
    .next (if !s.portUp port.toNat then dropScheduled port.toNat s
      else if !(s.port port.toNat).carrying then
        let s := dropScheduled port.toNat s
        if atBoundary s port.toNat then chooseRest port.toNat ahead s else s
      else if atBoundary s port.toNat then chooseItem port.toNat ahead s
      else s) := by
  have h := dropQueued_of_no_replay port.toNat hmode
  show execEgressSelect ⟨port, ahead⟩ s = _
  simp only [execEgressSelect, h]

theorem exec_egressSelect_of_mayChoose (h : mayChoose s port.toNat) :
    exec (.egressSelect ⟨port, ahead⟩) s = .next (chooseItem port.toNat ahead s) := by
  have hat := atBoundary_of_mayChoose h
  obtain ⟨hup, -, -, hcarry, hmode⟩ := h
  rw [exec_egressSelect_of_no_replay hmode, hup, hcarry, hat]
  rfl

end

/-- Settles O37: outside replay mode the port chooses in the order of the list, and what it chooses goes as it is when nothing injects,
copies or holds it. -/
theorem egressChoices : Obligations.EgressChoices := by
  unfold Obligations.EgressChoices
  intro s port ahead p x go j
  have hgo {t : State} (hmay : mayChoose s p) (h : chooseItem p ahead s = t) : go = .next t :=
    (exec_egressSelect_of_mayChoose hmay).trans (congrArg _ h)
  refine ⟨fun hmode hup hcarry hbusy => ?_, fun hmode hdown hnone => ?_, fun n hmay hreplay => ?_,
    fun q rest hmay hreplay hsched hdue hwindow hplain => ?_, fun hmay hreplay hhead => ?_⟩
  · have hcarries : (s.port port.toNat).carrying = true := hcarry
    have hfree : atBoundary s port.toNat = false := atBoundary_eq_false hbusy
    exact (exec_egressSelect_of_no_replay hmode).trans (by rw [hup, hcarries, hfree]; rfl)
  · exact (exec_egressSelect_of_no_replay hmode).trans (by rw [hdown, dropScheduled_of_none hnone]; rfl)
  · exact hgo hmay (chooseItem_of_replayWord hreplay)
  · have hchoice := chooseItem_of_scheduled (ahead := ahead) hreplay (scheduledHead_of_due hsched hdue hwindow)
    exact hgo hmay (hchoice.trans (transmit_of_sameOutlook (takeScheduled_sameOutlook q) hplain))
  · have hrest := chooseItem_of_rest (ahead := ahead) hreplay hhead
    obtain ⟨-, -, -, hcarry, hmode⟩ := id hmay
    refine ⟨fun hnak => hgo hmay (hrest.trans (chooseRest_of_nak hnak)), fun hnak hcw => hgo hmay (hrest.trans (chooseRest_of_filler hnak hcw)),
      fun hnak hcw => ⟨fun k rest hq hbucket htype hcand htap => ?_, fun hptp => ⟨fun c q hheld htype htap => ?_, fun hheld =>
        ⟨fun q hbuf hplain => ?_, fun hbuf hnone => ?_, fun hbuf before c after h hsplit hbefore hready => ?_⟩⟩⟩⟩
    · have hhead : ptpHead s p = some k := ptpHead_of_first hq hbucket
      have htail : (s.setPort p fun y => { y with ptpQ := y.ptpQ.tail }) = s.setPort p fun y => { y with ptpQ := rest } :=
        setPort_congr (congrArg (fun l => { s.port p with ptpQ := l.tail }) hq)
      refine hgo hmay (hrest.trans ((chooseRest_of_ptp hnak hcw hhead).trans ?_))
      rw [htail]
      have hlook : SameOutlook p s (s.setPort p fun y => { y with ptpQ := rest }) := (SameOutlook.refl p s).setPort (by intro; rfl)
      exact transmit_of_ptp (hlook.trans (drawBucket_sameOutlook 0 k.hdr)) htype hcand htap
    · exact hgo hmay (hrest.trans ((chooseRest_of_held hnak hcw hptp hcarry hheld).trans (sendHeld_of_no_tap htype htap)))
    · refine hgo hmay (hrest.trans ((chooseRest_of_buffer hnak hcw hptp hcarry hheld hbuf).trans ?_))
      exact transmit_of_sameOutlook ((SameOutlook.refl p s).setPort (by intro; rfl)) hplain
    · exact hgo hmay (hrest.trans ((chooseRest_of_class hnak hcw hptp hcarry hheld hbuf).trans (chooseClass_of_none hnone)))
    · have htake := hrest.trans ((chooseRest_of_class hnak hcw hptp hcarry hheld hbuf).trans (chooseClass_of_first hsplit hbefore hready))
      intro u v
      refine ⟨fun hat hplain => hgo hmay (htake.trans ((takeHead_of_unicast hat).trans ?_)), fun b hat => hgo hmay (htake.trans (takeHead_of_mcast hat))⟩
      have hpaid := (tagged_sameOutlook (s := s) (ahead := ahead)).trans (headPaid_sameOutlook (p := p) c h.2.pkt.hdr)
      exact transmit_of_sameOutlook ((hpaid.setPort (by intro; rfl)).leaveQueue _ _) hplain

end Sys2Proof.Machine
end

section
/-!
SUPPORT. Held packets, multicast heads and the entry into a ring (O39).
-/

namespace Sys2Proof.Machine

/-! ### REORDER_TIMEOUT (R153) -/

section
variable {s : State} {port : PortNo}

theorem exec_reorderTimeout_of_blocked (h : s.portUp port.toNat = false ∨ (s.port port.toNat).carrying = false ∨
    s.clk < (s.port port.toNat).busyUntil ∨ (s.port port.toNat).replaying ≠ none) : exec (.reorderTimeout port) s = .next s := by
  refine congrArg Host.Outcome.next (if_pos ?_)
  rcases h with h | h | h | h
  · simp [h]
  · simp [h]
  · simp [atBoundary_eq_false (.inl h)]
  · simp [Option.isSome_iff_ne_none.2 h]

/-- What a port that may choose does with a packet that is due to leave its hold. -/
theorem exec_reorderTimeout_of_mayChoose {t : State} (hmay : mayChoose s port.toNat) (hreplay : (s.port port.toNat).replaying = none)
    (h : (match heldDue s port.toNat none with | some (c, q) => sendHeld port.toNat c q s | none => s) = t) :
    exec (.reorderTimeout port) s = .next t := by
  have hat := atBoundary_of_mayChoose hmay
  obtain ⟨hup, -, -, hcarry, -⟩ := hmay
  exact congrArg Host.Outcome.next ((if_neg (by simp [hup, hcarry, hat, hreplay])).trans h)

end

/-! ### MCAST_HEAD_DEPART (R172) -/

section
variable {s : State} {bay : Fin 16} {cls : Fin 8} {q : QPkt} {rest : List QPkt}

/-- The head of a multicast queue leaves when all its targets have reserved. -/
theorem exec_mcastHeadDepart_of_head (hlit : s.lit = true) (hmode : s.replayMode = false)
    (hhead : tget [] s.fab.mcast (8 * bay.val + cls.val) = q :: rest) : exec (.mcastHeadDepart bay cls) s =
      .next (if q.targets.all q.reserved.contains then departMcast bay.val cls.val q s else s) := by
  show execMcastHeadDepart bay cls s = _
  simp only [execMcastHeadDepart, hhead, hlit, hmode]
  rfl

/-- The head has left its queue. -/
def headLeft (b c : Nat) (s : State) : State := { s with fab := { s.fab with mcast := tmod [] s.fab.mcast (8 * b + c) List.tail } }

/-- The copies of a head go to those of its targets that are UP: through the crossbar in its own bay, on by the ring to the others (R172). -/
def copiesOut (b : Nat) (q : QPkt) (up : List Nat) (u : State) : State :=
  let here := each (up.filter fun p => p / 16 == b) (fun p x => crossTo (egressSt p) (copyFor q [p] 0) x) u
  if (maskBays q.mask b).isEmpty then here
  else crossTo (stopOut (stopKey q.ring (mcastDir b (maskBays q.mask b)) b))
    (copyFor q (up.filter fun p => p / 16 != b) (((maskBays q.mask b).map (2 ^ ·)).sum)) here

/-- Ports that are not UP no longer count the head as selected. -/
def deselected (b c : Nat) (down : List Nat) (u : State) : State :=
  each down (fun p x => x.setPort p fun y => { y with mcastSel := y.mcastSel.erase (b, c) }) u

/-- How a head ends whose targets are or are not UP. -/
def headEnds (b c : Nat) (q : QPkt) (down : List Nat) (v : State) : State :=
  match down.min? with
  | some p => refusePacket q 0x08 p (poolPop (mcastKey b c) q.cells v)
  | none => leaveQueue (mcastKey b c) q v

theorem departMcast_eq (b c : Nat) : departMcast b c q s = headEnds b c q (q.targets.filter fun p => !s.portUp p)
    (copiesOut b q (q.targets.filter s.portUp) (deselected b c (q.targets.filter fun p => !s.portUp p) (headLeft b c s))) := rfl

theorem departMcast_of_up (b c : Nat) (hup : ∀ p ∈ q.targets, s.portUp p = true) :
    departMcast b c q s = leaveQueue (mcastKey b c) q (copiesOut b q q.targets (headLeft b c s)) := by
  have hdown : (q.targets.filter fun p => !s.portUp p) = [] := List.filter_eq_nil_iff.2 fun p hp => by simp [hup p hp]
  have hall : q.targets.filter s.portUp = q.targets := List.filter_eq_self.2 hup
  rw [departMcast_eq, hdown, hall]
  rfl

theorem departMcast_of_down (b c : Nat) {p : Nat} (hdown : ∀ d ∈ q.targets, s.portUp d = false) (hmin : q.targets.min? = some p)
    (hbays : maskBays q.mask b = []) : departMcast b c q s =
      refusePacket q 0x08 p (poolPop (mcastKey b c) q.cells (deselected b c q.targets (headLeft b c s))) := by
  have hall : (q.targets.filter fun p => !s.portUp p) = q.targets := List.filter_eq_self.2 fun d hd => by simp [hdown d hd]
  have hup : q.targets.filter s.portUp = [] := List.filter_eq_nil_iff.2 fun d hd => by simp [hdown d hd]
  rw [departMcast_eq, hall, hup]
  simp only [headEnds, hmin, copiesOut, hbays]
  rfl

end

/-! ### RING_ENTRY (R160) -/

section
variable {s : State} {ring : Fin 8} {ccw : Bool} {bay : Fin 16}

theorem exec_ringEntry_of_lit (hlit : s.lit = true) :
    exec (.ringEntry ring ccw bay) s = .next (ringEntry ring.val (if ccw then 1 else 0) bay.val s) :=
  congrArg Host.Outcome.next (if_pos hlit)

variable {r dir b : Nat}

theorem ringEntry_of_blocked
    (h : slotFree s r dir b = false ∨ movable s r dir b ≠ none ∨ 2 < (s.stop (stopKey r dir b)).transit.length) :
    ringEntry r dir b s = s := by
  refine if_pos ?_
  rcases h with h | h | h
  · simp [h]
  · simp [Option.isSome_iff_ne_none.2 h]
  · simp [h]

theorem ringEntry_of_none
    (h : firstWaiting ((s.stop (stopKey r dir b)).waiting.filter (roomAt s r dir (nextBay dir b))) = none) : ringEntry r dir b s = s := by
  simp only [ringEntry, h, ite_self]

theorem ringEntry_of_first {q : QPkt} (hfree : slotFree s r dir b = true) (hmove : movable s r dir b = none)
    (hroom : (s.stop (stopKey r dir b)).transit.length ≤ 2)
    (h : firstWaiting ((s.stop (stopKey r dir b)).waiting.filter (roomAt s r dir (nextBay dir b))) = some q) :
    ringEntry r dir b s = startPacket r dir b q s := by
  have hopen : ¬ ((!slotFree s r dir b || (movable s r dir b).isSome || decide (2 < (s.stop (stopKey r dir b)).transit.length)) = true) := by
    simp [hfree, hmove, hroom]
  simp only [ringEntry, h]
  exact if_neg hopen

/-- A packet that starts takes a transit buffer, and its first slot leaves. -/
theorem startPacket_eq (q : QPkt) : startPacket r dir b q s =
    (let key := stopKey r dir b
     let n := slotsOf q.pkt.hdr
     let x : RingPkt := { q := q, got := List.replicate n s.clk, sent := 0, came := s.clk }
     arriveStop r dir (nextBay dir b) q (s.clk + hopFrom dir b) (((s.setStop key fun y =>
        { y with waiting := y.waiting.erase q, transit := y.transit ++ [x] }).setStop key fun y =>
          { y with transit := if n = 1 then y.transit.erase x else y.transit.replace x { x with got := x.got.tail, sent := 1 } }).setStop key
            fun y => { y with given := true, ctr := tmod 0 y.ctr 2 (satAdd 48 · 1) })) := by
  have hone : (0 + 1 = slotsOf q.pkt.hdr) = (slotsOf q.pkt.hdr = 1) := propext eq_comm
  simp only [startPacket, sendSlot, takeSlot, hone]
  rfl

end

/-- Settles O39: a held packet goes as a send, a head leaves by the state of its targets, and a free slot starts the first waiting packet. -/
theorem fabricMovement : Obligations.FabricMovement := by
  unfold Obligations.FabricMovement
  refine ⟨fun s port => ?_, fun s bay cls q rest => ?_, fun s ring ccw bay hlit => ?_⟩
  · intro p
    refine ⟨fun hmay hreplay => ⟨fun hheld => ?_, fun c q hheld htype htap => ?_⟩, exec_reorderTimeout_of_blocked⟩
    · exact exec_reorderTimeout_of_mayChoose hmay hreplay (by rw [hheld])
    · exact exec_reorderTimeout_of_mayChoose hmay hreplay (by rw [hheld]; exact sendHeld_of_no_tap htype htap)
  · intro key u copy near bays here hlit hmode hhead
    have hgo := exec_mcastHeadDepart_of_head (bay := bay) (cls := cls) hlit hmode hhead
    rw [hgo]
    refine ⟨fun ⟨p, hp, hnot⟩ => ?_, fun hall => ?_, fun p hall hmin hbays => ?_⟩
    · refine congrArg _ (if_neg ?_)
      simpa using ⟨p, hp, hnot⟩
    · have hready : q.targets.all q.reserved.contains = true := by simpa using fun p hp => (hall p hp).1
      rw [if_pos hready, departMcast_of_up _ _ fun p hp => (hall p hp).2]
      refine ⟨fun hbays => ?_, fun hbays => ?_⟩
      · exact congrArg (fun x => Host.Outcome.next (leaveQueue _ q x)) (if_pos (by simp [bays] at hbays; simp [hbays]))
      · exact congrArg (fun x => Host.Outcome.next (leaveQueue _ q x)) (if_neg (by simpa [bays] using hbays))
    · have hready : q.targets.all q.reserved.contains = true := by simpa using fun p hp => (hall p hp).1
      rw [if_pos hready, departMcast_of_down _ _ (fun p hp => (hall p hp).2) hmin hbays]
      rfl
  · intro dir key next x
    rw [exec_ringEntry_of_lit hlit]
    refine ⟨fun h => congrArg _ (ringEntry_of_blocked h), fun h => congrArg _ (ringEntry_of_none h), fun q hfree hmove hroom h => ?_⟩
    exact congrArg _ ((ringEntry_of_first hfree hmove hroom h).trans (startPacket_eq q))

end Sys2Proof.Machine
end

section
/-!
SUPPORT. A packet that the route table refuses before its trailer (O33).
-/

namespace Sys2Proof.Machine

/-- A destination without an entry gives NO_ROUTE, and the use of its sound word leaves no trace (R163, R423). -/
theorem routePacket_of_no_entry {s : State} {q : QPkt} (hwords : wordsGood s) (h : bit (s.cfgw (routeKey q.pkt.hdr)) 63 = false) :
    routePacket q s = (some (0x02, hDst q.pkt.hdr), s) := by
  obtain ⟨hreload, hbad, hinj⟩ := hwords
  simp [routePacket, routeOf, useWord_sound _ hreload hbad hinj, h]

/-- A packet still arriving that the route table refuses waits for its trailer: the module keeps nothing of the attempt (R140). -/
theorem forwardEarly_of_refused {p : Nat} {r : RxPacket} {s t : State} {e : Nat × Nat}
    (h : routePacket (rxQ p (rxPacket p r [] 0 false false) s) (charge (.port (BitVec.ofNat 8 p) (hCls r.hdr)) (cellsOf r.hdr) s) = (some e, t)) :
    forwardEarly p r s = s := by
  unfold forwardEarly
  split
  · rfl
  · dsimp only
    have hq : routePacket (rxQ p (rxPacket p r [] 0 false false) s) (charge (rxQ p (rxPacket p r [] 0 false false) s).owner
        (rxQ p (rxPacket p r [] 0 false false) s).cells s) = (some e, t) := h
    rw [hq]

theorem exec_packetForward_of_refused {port : PortNo} {r : RxPacket} {s t : State} {e : Nat × Nat} (hlit : s.lit = true)
    (htransit : (s.port port.toNat).transit = []) (hrx : (s.port port.toNat).rx = some r)
    (h : routePacket (rxQ port.toNat (rxPacket port.toNat r [] 0 false false) s)
      (charge (.port (BitVec.ofNat 8 port.toNat) (hCls r.hdr)) (cellsOf r.hdr) s) = (some e, t)) :
    exec (.packetForward port) s = .next s := by
  show execPacketForward port s = _
  simp only [execPacketForward, hlit, htransit, hrx, forwardEarly_of_refused h]
  rfl

/-- Cells charged to a port's class below 4 (R180). -/
theorem charge_used (s : State) (p : BitVec 8) {c : Nat} (n : Nat) (hc : ¬ 4 ≤ c) :
    tget 0 ((charge (.port p c) n s).port p.toNat).used c = tget 0 (s.port p.toNat).used c + n := by
  simp only [charge, if_neg hc, State.setPort_port, tget_tmod_self]

/-! ### O33: the charge of an attempt that is refused -/

/-- A live class 0 packet of another module. -/
def strayRx : RxPacket :=
  { hdr := 0, stampPour := 0, stampClk := 0, inClk := 0, stampHeat := 0, ident := 0, ptp := false, stale := false, dross := false, bad := none
    forwarded := false, count := 0, early := false }

/-- A module in RUN without a pattern, whose port 0 is receiving that packet. -/
def strayState : State :=
  { State.reset with pwr := { Power.reset with mainOn := true }, boot := { Boot.reset with phase := .run } }.setPort 0 fun x =>
    { x with rx := some strayRx }

/-- Refutes O33: its clause on a packet still arriving takes the state after the route table's refusal, with the packet's cells charged to its
port, where the module waits for the trailer with nothing charged (R140, R180). In `strayState` no entry routes the packet. -/
theorem not_packetForwardingAndRouting : ¬ Obligations.PacketForwardingAndRouting := by
  unfold Obligations.PacketForwardingAndRouting
  intro h
  obtain ⟨hforward, -⟩ := h
  obtain ⟨-, hearly, -⟩ := hforward strayState 0 rfl
  have hroute : routePacket (rxQ (0 : PortNo).toNat (rxPacket (0 : PortNo).toNat strayRx [] 0 false false) strayState)
      (charge (.port (BitVec.ofNat 8 (0 : PortNo).toNat) (hCls strayRx.hdr)) (cellsOf strayRx.hdr) strayState) =
      (some (0x02, hDst strayRx.hdr), charge (.port (BitVec.ofNat 8 (0 : PortNo).toNat) (hCls strayRx.hdr)) (cellsOf strayRx.hdr) strayState) :=
    routePacket_of_no_entry ⟨rfl, rfl, rfl⟩ rfl
  have hcharged := (hearly strayRx _ rfl rfl rfl rfl rfl rfl rfl rfl (by decide)).2 _ hroute
  rw [exec_packetForward_of_refused rfl rfl rfl hroute] at hcharged
  have hsame := Host.Outcome.next.inj hcharged
  have hused := charge_used strayState 0 (cellsOf strayRx.hdr) (by decide : ¬ 4 ≤ hCls strayRx.hdr)
  have hcells : cellsOf strayRx.hdr = 1 := by decide
  rw [show BitVec.ofNat 8 (0 : PortNo).toNat = 0 from rfl] at hsame
  rw [← hsame, hcells] at hused
  omega

end Sys2Proof.Machine
end

section
/-!
SUPPORT. The trailer of a packet (O34).
-/

namespace Sys2Proof.Machine

/-! ### What routing and taps read -/

/-- The pattern's words and the spare selection are the same. -/
structure SamePattern (s t : State) : Prop where
  cfg : t.cfg = s.cfg
  ledger : t.ledger = s.ledger

namespace SamePattern

variable {s t u : State}

theorem refl (s : State) : SamePattern s s := ⟨rfl, rfl⟩

theorem trans (h : SamePattern s t) (k : SamePattern t u) : SamePattern s u := ⟨k.cfg.trans h.cfg, k.ledger.trans h.ledger⟩

theorem ite {c : Prop} [Decidable c] (ht : SamePattern s t) (hu : SamePattern s u) : SamePattern s (if c then t else u) := by
  split
  · exact ht
  · exact hu

theorem replayMode (h : SamePattern s t) : t.replayMode = s.replayMode := by
  simp only [State.replayMode, State.ledgerCfg, State.cfgw, h.cfg]

theorem portTap (h : SamePattern s t) (p : Nat) : portTap t p = portTap s p := by
  simp only [Machine.portTap, swapPort, swapBy, tableRows, State.cfgw, h.cfg, h.ledger] <;> rfl

theorem isTransit (h : SamePattern s t) (hdr : BitVec 256) : isTransit t hdr = isTransit s hdr := by
  simp only [Machine.isTransit, addressedHere, State.moduleId, State.cfgw, h.cfg]

end SamePattern

theorem scheduledClass_of_isTransit {s : State} {h : BitVec 256} (ht : isTransit s h = true) : scheduledClass h = false := by
  simp only [isTransit, Bool.and_eq_true, Bool.not_eq_true'] at ht
  exact ht.2

section
variable (s : State)

theorem pushCapture_samePattern (die : Nat) (r : List Byte) : SamePattern s (pushCapture die r s) :=
  .ite (.refl s) (.ite ⟨rfl, rfl⟩ ⟨rfl, rfl⟩)

theorem capturePacket_samePattern (p : Nat) (k : Packet) (failed : Bool) : SamePattern s (capturePacket p k failed s) :=
  .ite (pushCapture_samePattern s _ _) (.refl s)

theorem charge_samePattern (o : Requester) (cells : Nat) : SamePattern s (charge o cells s) := by
  unfold charge
  split
  · exact .ite ⟨rfl, rfl⟩ ⟨rfl, rfl⟩
  · exact ⟨rfl, rfl⟩
  · exact ⟨rfl, rfl⟩
  · exact .refl s

end

/-! ### Trailers -/

section
variable (s : State) (port : PortNo) (r : RxPacket) (onLine : List Byte) (lineTrailer : Word) (fixed bad : Nat)

/-- The key under which a port deciphers a packet: a PTP packet is in the clear (R143, R144). -/
def trailerKey (p : Nat) : Option (BitVec 128) := if r.ptp then none else rxKey (s.port p)

/-- The reception has ended and its codewords are counted. -/
def receptionEnded (p : Nat) : State := bumpPort p 2 bad (bumpPort p 1 fixed (s.setPort p fun x => { x with rx := none }))

theorem exec_packetTrailer_of_reception (hrx : (s.port port.toNat).rx = some r) (hup : s.portUp port.toNat = true)
    (hlen : onLine.length = payloadLen r.hdr) : exec (.packetTrailer port onLine lineTrailer fixed bad) s =
      .next (endPacket port.toNat r (cipherPayload (trailerKey s r port.toNat) r.count onLine)
        (cipherTrailer (trailerKey s r port.toNat) r.count onLine.length lineTrailer) (decide (0 < bad))
        (receptionEnded s fixed bad port.toNat)) := by
  show execPacketTrailer port onLine lineTrailer fixed bad s = _
  simp only [execPacketTrailer, hrx, hup]
  exact (if_neg (by decide)).trans (if_neg (by simp [hlen]))

theorem exec_packetTrailer_of_no_reception (hrx : (s.port port.toNat).rx = none) (hup : s.portUp port.toNat = true) :
    exec (.packetTrailer port onLine lineTrailer fixed bad) s = .next
      (let counted := bumpPort port.toNat 2 bad (bumpPort port.toNat 1 fixed s)
       if 0 < bad then linkError port.toNat counted else counted) := by
  show execPacketTrailer port onLine lineTrailer fixed bad s = _
  simp only [execPacketTrailer, hrx, hup]
  rfl

theorem exec_packetTrailer_of_down (hup : s.portUp port.toNat = false) :
    exec (.packetTrailer port onLine lineTrailer fixed bad) s = .next s := if_pos (by simp [hup])

end

/-- No trailer is both right and the stomped one (R140). -/
theorem xor_allOnes_ne (x : Word) : (x == x ^^^ BitVec.allOnes 64) = false := by
  rw [beq_eq_false_iff_ne]
  intro h
  have hbit := congrArg (·.getLsbD 0) h
  simp at hbit

section
variable {p : Nat} {r : RxPacket} {payload : List Byte} {trailer : Word} {s : State}

/-- An accepted packet is recorded, acknowledged and counted before it enters (R134, R186, R399). -/
def packetAccepted (p : Nat) (r : RxPacket) (k : Packet) (s : State) : State :=
  receivedCounts p r.hdr (expectedAdvances p r.count (capturePacket p k false s))

theorem packetAccepted_samePattern (k : Packet) : SamePattern s (packetAccepted p r k s) :=
  (capturePacket_samePattern s p k false).trans ⟨rfl, rfl⟩

/-! #### The judgement of a trailer -/

theorem endPacket_of_stale {fecBad : Bool} (h : r.stale = true) : endPacket p r payload trailer fecBad s = s := if_pos h

section
variable (hstale : r.stale = false)
include hstale

theorem endPacket_of_right (hptp : r.ptp = false) (h : trailer = trailerOf r.hdr payload) :
    endPacket p r payload trailer false s =
      takePacket p r (rxPacket p r payload trailer false true) (packetAccepted p r (rxPacket p r payload trailer false true) s) := by
  subst h
  simp only [endPacket, hstale, hptp, xor_allOnes_ne]
  simp only [Bool.not_false, Bool.true_and, beq_self_eq_true, Bool.not_true, Bool.and_true, Bool.false_eq_true, if_false, if_true]
  rfl

theorem endPacket_of_ptp (hptp : r.ptp = true) (h : trailer = trailerOf r.hdr payload) :
    endPacket p r payload trailer false s = takePtp p r (rxPacket p r payload trailer false true) true
      (capturePacket p (rxPacket p r payload trailer false true) false s) := by
  subst h
  simp only [endPacket, hstale, hptp, xor_allOnes_ne]
  simp only [Bool.not_false, Bool.true_and, beq_self_eq_true, Bool.not_true, Bool.and_true, Bool.false_eq_true, if_false, if_true]

theorem endPacket_of_stomped (hptp : r.ptp = false) (h : trailer = trailerOf r.hdr payload ^^^ BitVec.allOnes 64) :
    endPacket p r payload trailer false s = takeStomped p r (rxPacket p r payload trailer true true)
      (capturePacket p (rxPacket p r payload trailer true true) false s) := by
  have hwrong : (trailer == trailerOf r.hdr payload) = false := by
    rw [h, beq_eq_false_iff_ne, ne_comm, ← beq_eq_false_iff_ne]
    exact xor_allOnes_ne _
  have hstomp : (trailer == trailerOf r.hdr payload ^^^ BitVec.allOnes 64) = true := beq_iff_eq.2 h
  simp only [endPacket, hstale, hptp, hwrong, hstomp]
  simp only [Bool.not_false, Bool.true_and, Bool.not_true, Bool.and_false, Bool.false_eq_true, if_false, if_true]

/-- A trailer that is wrong, or whose codewords were not all corrected, fails its packet. -/
theorem endPacket_of_failing {fecBad : Bool} (hptp : r.ptp = false) (hright : trailer ≠ trailerOf r.hdr payload ∨ fecBad = true)
    (hstomp : trailer ≠ trailerOf r.hdr payload ^^^ BitVec.allOnes 64 ∨ fecBad = true) :
    endPacket p r payload trailer fecBad s = failPacket p r payload
      (let c := capturePacket p (rxPacket p r payload trailer false true) true s
       if trailer != trailerOf r.hdr payload then bumpPort p 4 1 c else c) := by
  have hnot : (!fecBad && trailer == trailerOf r.hdr payload) = false := by
    rcases hright with h | h
    · rw [beq_eq_false_iff_ne.2 h, Bool.and_false]
    · rw [h, Bool.not_true, Bool.false_and]
  have hnone : (!fecBad && trailer == trailerOf r.hdr payload ^^^ BitVec.allOnes 64) = false := by
    rcases hstomp with h | h
    · rw [beq_eq_false_iff_ne.2 h, Bool.and_false]
    · rw [h, Bool.not_true, Bool.false_and]
  simp only [endPacket, hstale, hptp, hnot, hnone]
  simp only [Bool.not_false, Bool.and_true, Bool.false_eq_true, if_false]

end

/-! #### What becomes of a packet with a right trailer -/

variable {k : Packet}

theorem takePacket_of_no_replay (hmode : s.replayMode = false) : takePacket p r k s = enterPacket p r k s := if_neg (by simp [hmode])

theorem takePacket_of_replay (hmode : s.replayMode = true) (hdross : r.dross = false) : takePacket p r k s =
    (if scheduledClass r.hdr then countReplayDrop s
     else (countReplayDrop s).setPort p fun x => { x with giving := tmod 0 x.giving (hCls r.hdr) (· + cellsOf r.hdr) }) := by
  rw [takePacket, if_pos hmode, hdross]
  rfl

theorem tapRx_of_no_tap (htap : bit (portTap s p) 4 = false) : tapRx p k s = s := if_neg (by simp [htap])

theorem enterPacket_of_dross (h : r.dross = true) : enterPacket p r k s = s := if_pos h

section
variable (hdross : r.dross = false) (htap : bit (portTap s p) 4 = false)
include hdross htap

theorem enterPacket_of_forwarded (h : r.forwarded = true) : enterPacket p r k s = finishCopies r.ident k.payload false s := by
  simp only [enterPacket, hdross, h, tapRx_of_no_tap htap]
  rfl

variable (hfwd : r.forwarded = false)
include hfwd

theorem enterPacket_of_early (h : r.early = true) (htype : hType r.hdr ≠ 6) : enterPacket p r k s = s := by
  simp only [enterPacket, hdross, hfwd, h, tapRx_of_no_tap htap]
  exact if_neg htype

variable (hearly : r.early = false)
include hearly

theorem enterPacket_of_scheduled (hclass : scheduledClass r.hdr = true) (hbad : r.bad = none) : enterPacket p r k s =
    s.setPort p fun x => { x with inbox := x.inbox ++ [{ rxQ p k s with owner := .none, cells := 0 }] } := by
  simp only [enterPacket, hdross, hfwd, hearly, hclass, hbad, tapRx_of_no_tap htap]
  rfl

variable (hclass : scheduledClass r.hdr = false)
include hclass

theorem enterPacket_of_bad {st d : Nat} (hbad : r.bad = some (st, d)) : enterPacket p r k s =
    refusePacket (rxQ p k s) st d (charge (rxQ p k s).owner (rxQ p k s).cells s) := by
  simp only [enterPacket, hdross, hfwd, hearly, hclass, hbad, tapRx_of_no_tap htap]
  rfl

variable (hbad : r.bad = none) (htype : hType r.hdr ≠ 4)
include hbad htype

theorem enterPacket_of_transit (h : isTransit s r.hdr = true) : enterPacket p r k s =
    (charge (rxQ p k s).owner (rxQ p k s).cells s).setPort p fun x => { x with transit := x.transit ++ [rxQ p k s] } := by
  have hroute : isTransit (charge (rxQ p k s).owner (rxQ p k s).cells s) r.hdr = true := ((charge_samePattern s _ _).isTransit _).trans h
  simp only [enterPacket, hdross, hfwd, hearly, hclass, hbad, tapRx_of_no_tap htap, hroute, if_neg htype]
  rfl

theorem enterPacket_of_local (h : isTransit s r.hdr = false) : enterPacket p r k s =
    placeLocal (rxQ p k s) (.station (BitVec.ofNat 12 (hDstStation r.hdr))) (hDstStation r.hdr)
      (charge (rxQ p k s).owner (rxQ p k s).cells s) := by
  have hroute : isTransit (charge (rxQ p k s).owner (rxQ p k s).cells s) r.hdr = false := ((charge_samePattern s _ _).isTransit _).trans h
  simp only [enterPacket, hdross, hfwd, hearly, hclass, hbad, tapRx_of_no_tap htap, hroute, if_neg htype]
  rfl

end

/-! #### The other ends -/

theorem takeStomped_eq (hearly : r.early = false) : takeStomped p r k s =
    (let v := dropStamp r.ident (receivedCounts p r.hdr (expectedAdvances p r.count (bumpPort p 5 1 s)))
     if r.forwarded then finishCopies r.ident k.payload true v
     else if r.dross then v
     else discardRx (rxQ p k v) v) := by
  simp only [takeStomped, markEarly, hearly]
  rfl

theorem failPacket_of_plain (hfwd : r.forwarded = false) (hearly : r.early = false) (hdross : r.dross = false) :
    failPacket p r payload s = linkError p (dropStamp r.ident s) := by
  simp only [failPacket, markEarly, hfwd, hearly, hdross]
  rfl

theorem ptpSupported_iff (payload : List Byte) : ptpSupported payload = true ↔ (payload.headD 0).toNat % 16 ∈ [0, 1, 9, 11] :=
  List.contains_iff_mem

theorem takePtp_of_supported (htype : hType r.hdr = 4) (hbad : r.bad = none) (hkind : ptpSupported k.payload = true)
    (htap : bit (portTap s p) 4 = false) : takePtp p r k true s = receivedCounts p r.hdr s := by
  have htap' : bit (portTap (countRx p r.hdr s) p) 4 = false := by
    rw [(show SamePattern s (countRx p r.hdr s) from ⟨rfl, rfl⟩).portTap, htap]
  simp only [takePtp, htype, hbad, hkind, tapRx_of_no_tap htap']
  rfl

theorem takePtp_of_other (h : hType r.hdr ≠ 4 ∨ r.bad ≠ none ∨ ptpSupported k.payload = false) :
    takePtp p r k true s = bumpPort p 10 1 s := by
  refine if_neg ?_
  rcases h with h | h | h
  · simp [h]
  · simp [h]
  · simp [h]

end

/-- Settles O34: the trailer is judged right, stomped or failing, and the packet's kind decides what is left to do. -/
theorem packetTrailers : Obligations.PacketTrailers := by
  unfold Obligations.PacketTrailers
  intro s port r onLine lineTrailer fixed bad p go key payload trailer counted u right k v q
  refine ⟨exec_packetTrailer_of_down s port onLine lineTrailer fixed bad, fun hup hrx =>
    exec_packetTrailer_of_no_reception s port onLine lineTrailer fixed bad hrx hup, fun hrx hup hlen => ?_⟩
  have hgo : go = .next (endPacket p r payload trailer (decide (0 < bad)) u) :=
    exec_packetTrailer_of_reception s port r onLine lineTrailer fixed bad hrx hup hlen
  have hsame : SamePattern s u := ⟨rfl, rfl⟩
  clear_value go trailer payload u
  have hv : SamePattern s v := hsame.trans (packetAccepted_samePattern k)
  refine ⟨fun hstale => hgo.trans (congrArg _ (endPacket_of_stale hstale)), fun hptp hstale htrailer hbad => ?_,
    fun hptp hstale htrailer hbad hearly => ?_, fun hptp hstale hfwd hearly hdross => ?_, fun hptp hstale hbad htrailer => ?_⟩
  · subst hbad
    have hend : go = .next (takePacket p r k v) := hgo.trans (congrArg _ (endPacket_of_right hstale hptp htrailer))
    refine ⟨fun hdross hmode => ?_, fun hdross hmode => ?_, fun hdross hmode htap => ?_⟩
    · exact hend.trans (congrArg _ ((takePacket_of_no_replay (hv.replayMode.trans hmode)).trans (enterPacket_of_dross hdross)))
    · have htake := hend.trans (congrArg _ (takePacket_of_replay (hv.replayMode.trans hmode) hdross))
      exact ⟨fun hclass => htake.trans (congrArg _ (if_pos hclass)), fun hclass => htake.trans (congrArg _ (if_neg (by simp [hclass])))⟩
    · have henter : go = .next (enterPacket p r k v) := hend.trans (congrArg _ (takePacket_of_no_replay (hv.replayMode.trans hmode)))
      have htapv : bit (portTap v p) 4 = false := by rwa [hv.portTap]
      have hroute := hv.isTransit r.hdr
      refine ⟨fun hfwd => ?_, fun hfwd hearly htype => ?_, fun hfwd hearly hclass hbad => ?_, fun hfwd hearly hclass st d hbad => ?_,
        fun hfwd hearly hbad htype htransit => ?_, fun hfwd hearly hbad htype hclass htransit => ?_⟩
      · exact henter.trans (congrArg _ (enterPacket_of_forwarded hdross htapv hfwd))
      · exact henter.trans (congrArg _ (enterPacket_of_early hdross htapv hfwd hearly htype))
      · exact henter.trans (congrArg _ (enterPacket_of_scheduled hdross htapv hfwd hearly hclass hbad))
      · exact henter.trans (congrArg _ (enterPacket_of_bad hdross htapv hfwd hearly hclass hbad))
      · exact henter.trans (congrArg _ (enterPacket_of_transit hdross htapv hfwd hearly (scheduledClass_of_isTransit htransit) hbad htype
          (hroute.trans htransit)))
      · exact henter.trans (congrArg _ (enterPacket_of_local hdross htapv hfwd hearly hclass hbad htype (hroute.trans htransit)))
  · subst hbad
    intro k v q
    have hend : go = .next (if r.forwarded then finishCopies r.ident payload true v else if r.dross then v else discardRx q v) :=
      hgo.trans (congrArg _ ((endPacket_of_stomped hstale hptp htrailer).trans (takeStomped_eq hearly)))
    refine ⟨fun hfwd => hend.trans (congrArg _ (if_pos hfwd)), fun hfwd hkind => ?_, fun hfwd hdross hclass => ?_⟩
    · refine hend.trans (congrArg _ ((if_neg (by simp [hfwd])).trans ?_))
      by_cases hdross : r.dross = true
      · exact if_pos hdross
      · exact (if_neg hdross).trans (if_pos (hkind.resolve_left hdross))
    · exact hend.trans (congrArg _ ((if_neg (by simp [hfwd])).trans ((if_neg (by simp [hdross])).trans (if_neg (show ¬ scheduledClass r.hdr = true by simp [hclass])))))
  · intro c
    have hfail {t : State} := failPacket_of_plain (p := p) (payload := payload) (s := t) hfwd hearly hdross
    refine ⟨fun hwrong hstomp => ?_, fun hright hbad => ?_⟩
    · have hstomped : trailer ≠ trailerOf r.hdr payload ^^^ BitVec.allOnes 64 ∨ decide (0 < bad) = true := by simpa using hstomp
      refine hgo.trans (congrArg _ ((endPacket_of_failing hstale hptp (.inl hwrong) hstomped).trans (hfail.trans ?_)))
      exact congrArg (fun x => linkError p (dropStamp r.ident x)) (if_pos (by simpa using hwrong))
    · have huncorrected : decide (0 < bad) = true := by simpa using hbad
      refine hgo.trans (congrArg _ ((endPacket_of_failing hstale hptp (.inr huncorrected) (.inr huncorrected)).trans (hfail.trans ?_)))
      exact congrArg (fun x => linkError p (dropStamp r.ident x)) (if_neg (by simpa using hright))
  · subst hbad
    have hend : go = .next (takePtp p r k true (capturePacket p k false u)) :=
      hgo.trans (congrArg _ (endPacket_of_ptp hstale hptp htrailer))
    refine ⟨fun htype hbad hkind htap => ?_, fun hother => ?_⟩
    · have htapc : bit (portTap (capturePacket p k false u) p) 4 = false := by
        rwa [(hsame.trans (capturePacket_samePattern u p k false)).portTap]
      exact hend.trans (congrArg _ (takePtp_of_supported htype hbad ((ptpSupported_iff payload).2 hkind) htapc))
    · exact hend.trans (congrArg _ (takePtp_of_other (hother.imp_right (Or.imp_right fun h => Bool.eq_false_iff.2 (mt (ptpSupported_iff payload).1 h)))))

end Sys2Proof.Machine
end

section
/-!
SUPPORT. Arms and cancels of the armed operations (O16).
-/

namespace Sys2Proof.Machine

section
variable {s : State}

theorem onMain_of_on (f : State → State) (hon : s.pwr.mainOn = true) : onMain f s = .next (f s) := congrArg _ (if_pos hon)

/-- An operation that is neither armed nor fixed is not in place. -/
theorem held_eq_false {st : ArmState} (harmed : st ≠ .armed) (hfixed : st ≠ .fixed) : held st = false := by simp [held, harmed, hfixed]

theorem timed_of_state (h : s.time.state = .locked ∨ s.time.state = .holdover) : s.timed = true := by
  rcases h with h | h
  · simp [State.timed, h]
  · simp [State.timed, h]

/-! ### The checks that pass -/

theorem jobCheck_passes (hphase : s.boot.phase = .epoch) (hlocked : s.time.state = .locked) (hfree : held s.job.jobState = false)
    (hns : s.job.epochNs.toNat ≤ 999999999) (hfive : s.job.epochNs.toNat % 5 = 0)
    (hahead : s.time.now + 900000000 ≤ (s.job.epochSec.toNat * 1000000000 + s.job.epochNs.toNat) * 9) : jobCheck false s = 0 := by
  have hlate : ¬ nsOfPair s.job.epochSec s.job.epochNs * 9 < s.time.now + 900000000 := Nat.not_lt.2 hahead
  simp [jobCheck, hphase, hlocked, hfree, hns, hfive, hlate]

/-- A boundary of the job that lies after the next one passes its checks (R50). -/
theorem boundaryCheck_passes {sec : BitVec 48} {ns : BitVec 32} (hdone : s.job.jobState = .done) (h : boundaryAhead s sec ns) :
    boundaryCheck sec ns s = 0 := by
  obtain ⟨hns, hafter, hgrid, hahead⟩ := h
  have hepoch : s.hasEpoch = true := by simp [State.hasEpoch, hdone]
  have hns' : ¬ 999999999 < ns.toNat := Nat.not_lt.2 hns
  have hafter' : ¬ nsOfPair sec ns < s.job.e0 := Nat.not_lt.2 hafter
  have hgrid' : (nsOfPair sec ns - s.job.e0) % s.pourNs = 0 := hgrid
  have hahead' : ¬ nsOfPair sec ns ≤ s.nextBoundary := Nat.not_le.2 hahead
  simp [boundaryCheck, hns', hepoch, hafter', hgrid', hahead']

theorem gateCheck_passes (htimed : s.timed = true) (hfree : held s.job.gateState = false) (hdone : s.job.jobState = .done)
    (h : boundaryAhead s s.job.swapSec s.job.swapNs) : gateCheck false s = 0 := by
  simp [gateCheck, htimed, hfree, boundaryCheck_passes hdone h]

theorem slotCheck_passes {slot : Bool} (hrun : s.boot.phase = .run) (htimed : s.timed = true) (hfree : held s.job.slotState = false)
    (hdone : s.job.jobState = .done) (h : boundaryAhead s s.job.slotSec s.job.slotNs)
    (hlock : s.fuse.lock < 2 ∨ s.fuse.lock = if slot then 3 else 2) : slotCheck slot false s = 0 := by
  have hallowed : slotAllowed slot s = true := by simpa [slotAllowed] using hlock
  simp [slotCheck, State.running, hrun, htimed, hfree, boundaryCheck_passes hdone h, hallowed]

/-! ### Arms whose checks pass, and cancels -/

theorem jobArm_of_passes (h : jobCheck false s = 0) : jobArm false s =
    { s with job := { s.job with jobState := .armed, e0 := nsOfPair s.job.epochSec s.job.epochNs } } := by
  simp only [jobArm, h]
  rfl

theorem gateArm_of_passes (h : gateCheck false s = 0) : gateArm false s =
    { s with job := { s.job with gateState := .armed, gateT := nsOfPair s.job.swapSec s.job.swapNs } } := by
  simp only [gateArm, h]
  rfl

theorem slotArm_of_passes {slot : Bool} (h : slotCheck slot false s = 0) : slotArm slot false s =
    { s with job := { s.job with slotState := .armed, slotArm := slot, slotT := nsOfPair s.job.slotSec s.job.slotNs } } := by
  simp only [slotArm, h]
  rfl

theorem jobCancel_of_armed (h : s.job.jobState = .armed) : jobCancel s = { s with job := { s.job with jobState := .idle } } := by
  simp only [jobCancel, h]
  rfl

theorem gateCancel_of_armed (h : s.job.gateState = .armed) : gateCancel s = { s with job := { s.job with gateState := .idle } } := by
  simp only [gateCancel, h]
  rfl

theorem slotCancel_of_armed (h : s.job.slotState = .armed) : slotCancel s = { s with job := { s.job with slotState := .idle } } := by
  simp only [slotCancel, h]
  rfl

end

/-- Settles O16: an arm is taken when its checks pass, a cancel while ARMED, and a quench is ordered in RUN. -/
theorem armedOperations : Obligations.ArmedOperations := by
  unfold Obligations.ArmedOperations
  intro s hon
  refine ⟨fun hphase hlocked harmed hfixed hns hfive hahead => ?_, fun harmed => ?_, fun harmed htime => ?_,
    fun htime harmed hfixed hdone hahead => ?_, fun harmed => ?_, fun slot hrun htime harmed hfixed hdone hahead hlock => ?_, fun harmed => ?_,
    fun hrun => ?_⟩
  · exact (onMain_of_on _ hon).trans (congrArg _ (jobArm_of_passes
      (jobCheck_passes hphase hlocked (held_eq_false harmed hfixed) hns hfive hahead)))
  · exact (onMain_of_on _ hon).trans (congrArg _ (jobCancel_of_armed harmed))
  · exact congrArg Host.Outcome.next (if_pos (by simp [harmed, htime]))
  · exact (onMain_of_on _ hon).trans (congrArg _ (gateArm_of_passes
      (gateCheck_passes (timed_of_state htime) (held_eq_false harmed hfixed) hdone hahead)))
  · exact (onMain_of_on _ hon).trans (congrArg _ (gateCancel_of_armed harmed))
  · exact (onMain_of_on _ hon).trans (congrArg _ (slotArm_of_passes
      (slotCheck_passes hrun (timed_of_state htime) (held_eq_false harmed hfixed) hdone hahead hlock)))
  · exact (onMain_of_on _ hon).trans (congrArg _ (slotCancel_of_armed harmed))
  · exact (onMain_of_on _ hon).trans (congrArg _ (if_pos (by simp [State.running, hrun])))

end Sys2Proof.Machine
end

section
/-!
SUPPORT. Reads and writes of registers by the host and over the chain (O17, O18).
-/

namespace Sys2Proof.Machine

/-! ### Reads -/

section
variable {s : State}

/-- A word outside the pattern is read without a use of it (R423). -/
theorem checkRead_of_plain {key : Nat} (hcfg : tget? s.cfg key = none) (hkey : key < ikey 3 0) : checkRead key s = s :=
  if_neg (by simp [hcfg, hkey])

theorem injCountPort_of_direct {key : Nat} (hkey : key < 2 ^ 32) : injCountPort key = none :=
  if_neg (by simp; omega)

/-- A read with no effect gives the word and changes nothing (R16). -/
theorem readKey_of_plain {ch half : Bool} {key : Nat} (hcfg : tget? s.cfg key = none) (hkey : key < ikey 3 0) (hcnt : key ≠ 0x5_0030)
    (hport : injCountPort key = none) : readKey ch half key s = (regWord ch key s, s) := by
  have hclear : clearRead ch key s = s := by
    simp only [clearRead, hport, if_neg hcnt, ite_self]
  simp only [readKey, checkRead_of_plain hcfg hkey, hclear, ite_self]

theorem readDirect_of_plain {ch half : Bool} {addr : Nat} (h : plainRegister s (directKey addr)) :
    readDirect ch half addr s = (directWord ch (directKey addr) s, s) := by
  obtain ⟨hkey, hidx, hcnt, hcfg⟩ := h
  have hbound : directKey addr < ikey 3 0 := lt_trans hkey (by decide)
  rw [readDirect, if_neg hidx, readKey_of_plain hcfg hbound hcnt (injCountPort_of_direct hkey), regWord, if_pos hkey]

/-- A read of IDX_DATA gives the word at the pair's address, which then moves on (R415). -/
theorem readIdx_of_plain {ch half : Bool} {key : Nat} (hkey : key = indirectKey (fld (s.idx ch) 31 0)) (h : plainIndirect s key) :
    readIdx ch half s = (indirectWord ch key s, advanceIdx ch s) := by
  obtain ⟨hlow, hhigh, hport, hcfg⟩ := h
  rw [readIdx, ← hkey, readKey_of_plain hcfg hhigh (by omega) hport, regWord, if_neg (by omega)]

/-- The address after an access of IDX_DATA: inc adds 8 on all 32 bits (R415). -/
def movedOn (w : Word) : Word := if bit w 32 then setFld w 31 0 (fld w 31 0 + 8) else w

theorem advanceIdx_host : advanceIdx false s = s.setHost fun h => { h with idxAddr := movedOn h.idxAddr } := by
  have heq : advanceIdx false s = if bit s.host.idxAddr 32 then
      s.setHost fun h => { h with idxAddr := setFld s.host.idxAddr 31 0 (fld s.host.idxAddr 31 0 + 8) } else s := rfl
  by_cases hinc : bit s.host.idxAddr 32 = true
  · exact (heq.trans (if_pos hinc)).trans (congrArg (fun w => s.setHost fun h => { h with idxAddr := w }) (if_pos hinc).symm)
  · exact (heq.trans (if_neg hinc)).trans (congrArg (fun w => s.setHost fun h => { h with idxAddr := w }) (if_neg hinc).symm)

theorem advanceIdx_chain : advanceIdx true s = s.setChain fun c => { c with idxAddr := movedOn c.idxAddr } := by
  have heq : advanceIdx true s = if bit s.chain.idxAddr 32 then
      s.setChain fun c => { c with idxAddr := setFld s.chain.idxAddr 31 0 (fld s.chain.idxAddr 31 0 + 8) } else s := rfl
  by_cases hinc : bit s.chain.idxAddr 32 = true
  · exact (heq.trans (if_pos hinc)).trans (congrArg (fun w => s.setChain fun c => { c with idxAddr := w }) (if_pos hinc).symm)
  · exact (heq.trans (if_neg hinc)).trans (congrArg (fun w => s.setChain fun c => { c with idxAddr := w }) (if_neg hinc).symm)

theorem readDirect_idxData (ch half : Bool) : readDirect ch half 0x108 s = readIdx ch half s := if_pos rfl

theorem readDirect_injCnt (ch half : Bool) : readDirect ch half 0x5_0030 s = readKey ch half 0x5_0030 s := if_neg (by decide)

/-! ### Reads of BAR0 and over the chain -/

theorem hostRead_whole {addr : Nat} (haddr : addr % 8 = 0) {w : Word} {t : State} (h : readDirect false false addr s = (w, t)) :
    hostRead addr 8 s = t.setHost fun x => { x with readData := w } := by
  rw [hostRead, if_pos ⟨rfl, haddr⟩, h]

theorem hostRead_half {addr : Nat} (haddr : addr % 4 = 0) {w : Word} {t : State} (h : readDirect false true addr s = (w, t)) :
    hostRead addr 4 s = t.setHost fun x => { x with readData := put (if addr % 8 = 4 then fld w 63 32 else fld w 31 0) 0 } := by
  rw [hostRead, if_neg (by simp), if_pos ⟨rfl, haddr⟩, h]

theorem chainRead_of_read {off : Nat} {w : Word} {t : State} (h : readDirect true false off s = (w, t)) :
    chainRead off s = regData w t := by
  rw [chainRead, h]

/-- Reading INJ_CNT clears the four counts (R16, R452). -/
theorem readKey_injCnt (hcfg : tget? s.cfg 0x5_0030 = none) : readKey false false 0x5_0030 s =
    (put s.inj.cntHbm 48 ||| put s.inj.cntPar 32 ||| put s.inj.cntSched 16 ||| put s.inj.cntTime 0,
      { s with inj := { s.inj with cntHbm := 0, cntPar := 0, cntSched := 0, cntTime := 0 } }) := by
  simp only [readKey, checkRead_of_plain hcfg (by decide)]
  rfl

/-- What a chain frame sends on is no part of what a register reads. -/
theorem directWord_of_out (ch : Bool) (key : Nat) (o : List Emit) : directWord ch key { s with out := o } = directWord ch key s := rfl

/-- A register read over the chain answers REG_DATA (R428, R430). -/
theorem exec_regRd_of_plain {off : BitVec 32} {crc : BitVec 16} (hframe : received s s.chain.addr 0x30 (beBytes 4 off.toNat) crc)
    (hplain : plainRegister s (directKey off.toNat)) : exec (.regRd s.chain.addr off crc) s = .next { s with
      out := .chainUp s.chain.addr 0xB2 (beBytes 8 (directWord true (directKey off.toNat) s).toNat) ::
        (relayed s s.chain.addr 0x30 (beBytes 4 off.toNat) ++ s.out) } := by
  have hgo : exec (.regRd s.chain.addr off crc) s =
      .next (chainRead off.toNat { s with out := relayed s s.chain.addr 0x30 (beBytes 4 off.toNat) ++ s.out }) :=
    onFrame_of_mine hframe (frameMine_self s) _
  rw [hgo]
  generalize relayed s s.chain.addr 0x30 (beBytes 4 off.toNat) ++ s.out = o
  have hread : readDirect true false off.toNat { s with out := o } = (directWord true (directKey off.toNat) s, { s with out := o }) :=
    (readDirect_of_plain (s := { s with out := o }) hplain).trans (by rw [directWord_of_out])
  rw [chainRead_of_read hread]
  rfl

end

/-- Settles O17: a plain read gives the register's word, INJ_CNT clears as it is read, and IDX_DATA moves its own pair on. -/
theorem registerReads : Obligations.RegisterReads := by
  unfold Obligations.RegisterReads
  intro s
  refine ⟨fun addr hon haddr hplain => ?_, fun addr hon haddr hplain => ?_, fun hon hcfg => ?_, fun off crc hframe hplain => ?_,
    fun key hon hkey hplain => ?_, fun key hkey hplain => ?_⟩
  · exact (onMain_of_on _ hon).trans (congrArg _ (hostRead_whole haddr (readDirect_of_plain hplain)))
  · exact (onMain_of_on _ hon).trans (congrArg _ (hostRead_half haddr (readDirect_of_plain hplain)))
  · exact (onMain_of_on _ hon).trans (congrArg _ (hostRead_whole (addr := 0x5_0030) (by decide) ((readDirect_injCnt _ _).trans (readKey_injCnt hcfg))))
  · exact exec_regRd_of_plain hframe hplain
  · exact (onMain_of_on _ hon).trans (congrArg _ ((hostRead_whole (addr := 0x108) (by decide)
      ((readDirect_idxData _ _).trans (readIdx_of_plain hkey hplain))).trans (by rw [advanceIdx_host]; rfl)))
  · exact congrArg Host.Outcome.next ((chainRead_of_read (off := 0x108)
      ((readDirect_idxData _ _).trans (readIdx_of_plain hkey hplain))).trans (by rw [advanceIdx_chain]; rfl))

/-! ### Writes -/

section
variable {s : State}

theorem hostWrite_of_register {addr : Nat} (haddr : addr % 8 = 0) (hidx : directKey addr ≠ 0x108) (hcmd : directKey addr ≠ 0x300) (w : Word) :
    hostWrite addr 8 w s = sendWrite false (directKey addr) w s := by
  rw [hostWrite, if_pos ⟨rfl, haddr⟩, if_neg hidx, if_neg hcmd]

theorem hostWrite_half (addr : Nat) (w : Word) : hostWrite addr 4 w s = s := if_neg (by simp)

/-- The keys that the host wrote in this clk, with one more (R430). -/
def wroteKey (key : Nat) (s : State) : List (Nat × Nat) := (s.clk, key) :: s.host.wrote.filter fun e => e.1 == s.clk

theorem sendWrite_host (key : Nat) (w : Word) :
    sendWrite false key w s = writeKey false key w { s with host := { s.host with wrote := wroteKey key s } } :=
  if_neg Bool.false_ne_true

/-- A write of a read-only register leaves no more than its note. -/
theorem writeDirect_of_readOnly (w : Word) : ∀ key ∈ [0x0_0028, 0x0_0208, 0x0_0600, 0x0_0608, 0x0_0720, 0x1_0000, 0x1_0118, 0x2_0008,
    0x2_0010, 0x2_0310], writeDirect false key w s = s := by
  intro key hkey
  simp only [List.mem_cons, List.not_mem_nil, or_false] at hkey
  rcases hkey with rfl | rfl | rfl | rfl | rfl | rfl | rfl | rfl | rfl | rfl <;> rfl

theorem key_of_readOnly {a : BitVec 20} (ha : a ∈ [0x0_0028, 0x0_0208, 0x0_0600, 0x0_0608, 0x0_0720, 0x1_0000, 0x1_0118, 0x2_0008,
    0x2_0010, 0x2_0310]) : a.toNat % 8 = 0 ∧ directKey a.toNat = a.toNat ∧ a.toNat ≠ 0x108 ∧ a.toNat ≠ 0x300 ∧
    a.toNat < 2 ^ 32 := by
  simp only [List.mem_cons, List.not_mem_nil, or_false] at ha
  rcases ha with rfl | rfl | rfl | rfl | rfl | rfl | rfl | rfl | rfl | rfl <;> decide

theorem exec_regWr (s : State) (dst : BitVec 8) (off : BitVec 32) (w : Word) (crc : BitVec 16) : exec (.regWr dst off w crc) s =
    onFrame s dst 0x31 (beBytes 4 off.toNat ++ beBytes 8 w.toNat) crc (frameMine s dst) fun t => ackFrame (chainWrite off.toNat w t) := rfl

/-- A register write over the chain that the host does not hold up is made and acknowledged (R428, R430). -/
theorem exec_regWr_epochSec {w : Word} {crc : BitVec 16} (hon : s.pwr.mainOn = true) (hwrote : s.host.wrote = [])
    (hframe : received s s.chain.addr 0x31 (beBytes 4 0x708 ++ beBytes 8 w.toNat) crc) :
    exec (.regWr s.chain.addr 0x708 w crc) s = .next { s with
      job := { s.job with epochSec := w.setWidth 48 }
      out := .chainUp s.chain.addr 0x83 [s.chain.addr] ::
        (relayed s s.chain.addr 0x31 (beBytes 4 0x708 ++ beBytes 8 w.toNat) ++ s.out) } := by
  rw [exec_regWr]
  refine (onFrame_of_mine hframe (frameMine_self s) _).trans ?_
  generalize relayed s s.chain.addr 0x31 (beBytes 4 0x708 ++ beBytes 8 w.toNat) ++ s.out = o
  have hwrite : chainWrite 0x708 w { s with out := o } = { s with job := { s.job with epochSec := w.setWidth 48 }, out := o } := by
    have hnot : (!s.pwr.mainOn) = false := by simp [hon]
    have hfree : ¬ s.host.wrote.contains (s.clk, 0x708) = true := by simp [hwrote]
    exact (if_neg (by simp [hnot])).trans ((if_neg (by decide)).trans ((if_pos rfl).trans (if_neg hfree)))
  exact congrArg (fun t => Host.Outcome.next (t.emit (.chainUp t.chain.addr 0x83 [t.chain.addr]))) hwrite

/-- The place of a register of a station's page in the indirect space (R415). -/
theorem indirectKey_stationPage (a : StAddr) : indirectKey (a.toNat * 2 ^ 16 + 0x200) = 2 ^ 32 + (a.toNat * 2 ^ 16 + 0x200) := by
  have ha := a.isLt
  have hwindow : (a.toNat * 2 ^ 16 + 0x200) / 2 ^ 28 = 0 := by omega
  have hstation : (a.toNat * 2 ^ 16 + 0x200) / 2 ^ 16 = a.toNat := by omega
  have hoff : (a.toNat * 2 ^ 16 + 0x200) % 2 ^ 16 = 0x200 := by omega
  rw [indirectKey, hwindow, hstation, hoff]
  rfl

/-- A write of a present station's page register changes that register (R237). -/
theorem writeIndirect_stationPage {a : StAddr} (hpresent : stationPresent s a.toNat = true) (ch : Bool) (w : Word) :
    writeIndirect ch (2 ^ 32 + (a.toNat * 2 ^ 16 + 0x200)) w s =
      s.setStation a.toNat fun x => { x with pageStore := bit w 7, page := w.setWidth 7 } := by
  have ha := a.isLt
  have haddr : 2 ^ 32 + (a.toNat * 2 ^ 16 + 0x200) - 2 ^ 32 = a.toNat * 2 ^ 16 + 0x200 := by omega
  have hwindow : (a.toNat * 2 ^ 16 + 0x200) / 2 ^ 28 = 0 := by omega
  have hidx : (a.toNat * 2 ^ 16 + 0x200) % 2 ^ 28 = a.toNat * 2 ^ 16 + 0x200 := by omega
  have hstation : (a.toNat * 2 ^ 16 + 0x200) / 2 ^ 16 = a.toNat := by omega
  have hmod : a.toNat % 4096 = a.toNat := by omega
  have hoff : (a.toNat * 2 ^ 16 + 0x200) % 2 ^ 16 = 0x200 := by omega
  have hthere : absentWindow s (a.toNat * 2 ^ 16 + 0x200) = none := by simp only [absentWindow, hwindow, hstation, hmod, hpresent, if_true]
  simp only [writeIndirect, haddr, hwindow, hidx, hstation, hoff, hthere, Option.isSome_none]
  rfl

/-- An address without inc stays (R415). -/
theorem advanceIdx_of_no_inc (hinc : bit s.host.idxAddr 32 = false) : advanceIdx false s = s := if_neg (by simp [State.idx, hinc])

theorem writeIdx_stationPage {a : StAddr} (hidx : s.host.idxAddr = put (a.toNat * 2 ^ 16 + 0x200) 0) (hpresent : stationPresent s a.toNat = true)
    (w : Word) : writeIdx false w s =
      ({ s with host := { s.host with wrote := wroteKey (2 ^ 32 + (a.toNat * 2 ^ 16 + 0x200)) s } }).setStation a.toNat
        fun x => { x with pageStore := bit w 7, page := w.setWidth 7 } := by
  have ha := a.isLt
  have haddr : fld (s.idx false) 31 0 = a.toNat * 2 ^ 16 + 0x200 := by
    have hval : fld s.host.idxAddr 31 0 = a.toNat * 2 ^ 16 + 0x200 := by rw [hidx, fld, put, BitVec.toNat_ofNat]; simp; omega
    exact hval
  have hinc : bit s.host.idxAddr 32 = false := by
    rw [hidx, bit, put, BitVec.getLsbD_ofNat, Nat.shiftLeft_zero, Nat.testBit_lt_two_pow (by omega), Bool.and_false]
  rw [writeIdx, haddr, indirectKey_stationPage, sendWrite_host, writeKey, if_neg (by omega),
    writeIndirect_stationPage (s := { s with host := { s.host with wrote := wroteKey (2 ^ 32 + (a.toNat * 2 ^ 16 + 0x200)) s } }) hpresent]
  exact advanceIdx_of_no_inc hinc

end

/-- Settles O18: a write stores the register's writable bits, leaves the others alone, and the chain's is acknowledged. -/
theorem registerWrites : Obligations.RegisterWrites := by
  unfold Obligations.RegisterWrites
  intro s w hon
  have hwrite : ∀ {addr : BitVec 20} (key : Nat), directKey addr.toNat = key → addr.toNat % 8 = 0 → key ≠ 0x108 → key ≠ 0x300 →
      key < 2 ^ 32 → exec (.registerWrite addr 8 w) s =
        .next (writeDirect false key w { s with host := { s.host with wrote := wroteKey key s } }) := by
    rintro addr _ rfl hmul hidx hcmd hlow
    exact (onMain_of_on _ hon).trans (congrArg Host.Outcome.next
      ((hostWrite_of_register hmul hidx hcmd w).trans ((sendWrite_host _ w).trans (if_pos hlow))))
  refine ⟨⟨_, hwrite 0x708 rfl rfl (by decide) (by decide) (by decide), rfl⟩, ⟨_, hwrite 0x710 rfl rfl (by decide) (by decide) (by decide), rfl⟩,
    ⟨_, hwrite 0x1_0100 rfl rfl (by decide) (by decide) (by decide), rfl⟩,
    ⟨_, hwrite 0x1_0108 rfl rfl (by decide) (by decide) (by decide), rfl⟩,
    ⟨_, hwrite 0x100 rfl rfl (by decide) (by decide) (by decide), rfl⟩, ⟨_, hwrite 0x310 rfl rfl (by decide) (by decide) (by decide), rfl⟩,
    fun addr hmem => ?_, fun addr _ => ?_, fun crc hframe hwrote => ?_, fun a hidx hpresent => ?_⟩
  · obtain ⟨hmul, hkey, hidx, hcmd, hlow⟩ := key_of_readOnly hmem
    refine ⟨_, hwrite addr.toNat hkey hmul hidx hcmd hlow, ?_⟩
    rw [writeDirect_of_readOnly w addr.toNat (List.mem_map_of_mem (f := BitVec.toNat) hmem)]
  · exact (onMain_of_on _ hon).trans (congrArg _ (hostWrite_half addr.toNat w))
  · exact exec_regWr_epochSec hon hwrote hframe
  · refine ⟨_, (onMain_of_on _ hon).trans (congrArg _ (writeIdx_stationPage hidx hpresent w)), rfl, ?_, fun b hb => ?_⟩
    · rw [State.setStation_station]; rfl
    · rw [State.setStation_station_ne (h := hb)]; rfl

end Sys2Proof.Machine
end

section
/-!
SUPPORT. Training of a link (R117 to R121): O28 and O29.
-/

namespace Sys2Proof.Machine

/-! ### Two updates of one port -/

section
variable {α : Type}

theorem tdel_tinsert (k : Nat) (v : α) (m : Tab α) : tdel (tinsert k v m) k = tdel m k := by
  induction m with
  | nil => simp [tinsert, tdel]
  | cons e m ih =>
    simp only [tdel] at ih
    simp only [tinsert, tdel]
    split
    · simp
    · simp only [List.filter_cons, ih]

theorem tset_tset (m : Tab α) (k : Nat) (v w : α) : tset (tset m k v) k w = tset m k w := by
  have hdel : tdel (tset m k v) k = tdel m k := by
    rw [tset, tdel_tinsert, tdel, tdel, List.filter_filter]
    simp
  rw [tset, hdel, tset]

theorem tmod_tmod (d : α) (m : Tab α) (k : Nat) (f g : α → α) : tmod d (tmod d m k f) k g = tmod d m k fun x => g (f x) := by
  simp only [tmod, tset_tset, tget_tset_self]

end

theorem setPort_setPort (s : State) (p : Nat) (f g : Port → Port) : (s.setPort p f).setPort p g = s.setPort p fun x => g (f x) :=
  congrArg (fun ports => { s with ports := ports }) (tmod_tmod _ _ _ f g)

theorem PortNo.ne_toNat {p q : PortNo} (h : q ≠ p) : q.toNat ≠ p.toNat := fun he => h (BitVec.eq_of_toNat_eq he)

theorem setPort_port_other (s : State) {p q : PortNo} (f : Port → Port) (h : q ≠ p) : (s.setPort p.toNat f).port q.toNat = s.port q.toNat :=
  State.setPort_port_ne _ _ _ (PortNo.ne_toNat h)

/-! ### Steps of a training -/

section
variable {s : State} {port : PortNo}

theorem afterStep_of_step {n : Nat} (htrains : trains s port.toNat = true) (hstep : (s.port port.toNat).step = n) (f : State → State) :
    afterStep port.toNat n f s = f s :=
  if_pos (by simp [htrains, hstep])

/-- While LINK lasts a failing step begins again at step 1 with its reason (R119). -/
theorem trainFail_of_link (hphase : s.boot.phase = .link) (reason : Nat) : stepFails port reason s (trainFail port.toNat reason s) :=
  if_pos hphase

theorem sendTrain_eq (n data : Nat) : sendTrain port.toNat n data s = { s with out := .control port (mkCw 5 n data) :: s.out } := by
  simp only [sendTrain, BitVec.ofNat_toNat, BitVec.setWidth_eq]
  rfl

/-- A training word at its step on a training port is taken (R120). -/
theorem onTrain_of_word {cw : BitVec 128} {code : Nat} (hvalid : cwValid cw = true) (htype : cwType cw = 5) (hcode : cwSeq cw = code)
    (htrains : trains s port.toNat = true) (f : State → State) : onTrain s port cw code f = .next (f s) := by
  have hlit : s.lit = true := (Bool.and_eq_true_iff.mp htrains).1
  exact congrArg _ ((if_neg (by simp [hlit, hvalid, htype, hcode])).trans (if_pos htrains))

theorem onTrain_of_trainWord {cw : BitVec 128} {code n : Nat} (h : trainWord s port cw code n) (f : State → State) :
    onTrain s port cw code (afterStep port.toNat n f) = .next (f s) := by
  obtain ⟨hvalid, htype, hcode, htrains, hstep⟩ := h
  rw [onTrain_of_word hvalid htype hcode htrains, afterStep_of_step htrains hstep]

/-- A part of step 5 is recorded; the third sends ECHO (R120). -/
theorem handshakeDone_partDone (b : BitVec 3) : partDone port b s (handshakeDone port.toNat b s) := by
  have heq : handshakeDone port.toNat b s = if ((s.setPort port.toNat fun x => { x with handshake := x.handshake ||| b }).port port.toNat).handshake = 7
      then sendTrain port.toNat 4 (echoValue s port.toNat * 2 ^ 32) ((s.setPort port.toNat fun x =>
        { x with handshake := x.handshake ||| b }).setPort port.toNat fun x => { x with step := 6 })
      else s.setPort port.toNat fun x => { x with handshake := x.handshake ||| b } := rfl
  rw [heq, State.setPort_port]
  unfold partDone
  by_cases hall : (s.port port.toNat).handshake ||| b = 7
  · rw [if_pos hall, if_pos hall, sendTrain_eq, setPort_setPort]
    exact congrArg (fun v : State => { v with out := .control port (mkCw 5 4 (echoValue s port.toNat * 2 ^ 32)) :: s.out })
      (setPort_congr (f := fun x => { x with step := 6, handshake := x.handshake ||| b }) (g := fun x => { x with step := 6, handshake := 7 })
        (congrArg (fun h => { s.port port.toNat with step := 6, handshake := h }) hall))
  · rw [if_neg hall, if_neg hall]

end

/-- The end of step 3 by the measured skew (R117). -/
theorem exec_alignDone (s : State) (port : PortNo) (skew : Nat) : exec (.alignDone port skew) s = .next (afterStep port.toNat 3
    (fun s => if skew ≤ 40 then s.setPort port.toNat fun x => { x with step := 4 } else trainFail port.toNat 3 s) s) := rfl

/-- Settles O28: each step's end moves the port on, FEC lock sends the three words, and a failing step begins again. -/
theorem trainingSteps : Obligations.TrainingSteps := by
  unfold Obligations.TrainingSteps
  intro s port
  refine ⟨fun htrains => ⟨fun hstep => ?_, fun hstep => ?_, fun hstep skew => ⟨fun hskew => ?_, fun hskew hphase => ?_⟩, fun hstep => ?_,
    fun hstep hphase => ?_⟩, fun hlit hen hdown hclk => ?_⟩
  · exact congrArg _ (afterStep_of_step htrains hstep _)
  · exact congrArg _ (afterStep_of_step htrains hstep _)
  · rw [exec_alignDone, afterStep_of_step htrains hstep, if_pos hskew]
  · rw [exec_alignDone, afterStep_of_step htrains hstep, if_neg (Nat.not_le.mpr hskew)]
    exact ⟨_, rfl, trainFail_of_link hphase 3⟩
  · refine congrArg Host.Outcome.next ((afterStep_of_step htrains hstep _).trans ?_)
    simp only [sendTrain_eq, State.setPort_port]
    rfl
  · have hgo : exec (.trainingStepFail port) s = .next (trainFail port.toNat (stepReason (s.port port.toNat).step) s) :=
      congrArg Host.Outcome.next (if_pos (by simp [htrains, hstep]))
    exact ⟨_, hgo, trainFail_of_link hphase _⟩
  · exact congrArg _ (if_pos (by simp [hlit, hen, hdown, hclk]))

/-! ### Training words -/

section
variable {s : State} {port : PortNo}

/-- The CREDIT words of a port, latest first (R120, R129). -/
def creditWords (s : State) (port : PortNo) (vs : List Nat) : List Emit :=
  (vs.map fun v => Emit.control port (mkCw 5 5 (v * 2 ^ 61 +
    (grantOf s port.toNat v - tget 0 (s.port port.toNat).used v - tget 0 (s.port port.toNat).owed v) % 2 ^ 16 * 2 ^ 45))).reverse

theorem each_creditWords (vs : List Nat) (o : List Emit) :
    each vs (fun v t => sendTrain port.toNat 5 (v * 2 ^ 61 + (grantOf t port.toNat v - tget 0 (t.port port.toNat).used v -
      tget 0 (t.port port.toNat).owed v) % 2 ^ 16 * 2 ^ 45) t) { s with out := o } = { s with out := creditWords s port vs ++ o } := by
  induction vs generalizing o with
  | nil => rfl
  | cons v vs ih =>
    simp only [each, List.foldl_cons] at ih ⊢
    rw [sendTrain_eq]
    refine (ih _).trans ?_
    simp only [creditWords, List.map_cons, List.reverse_cons, List.append_assoc, List.singleton_append]
    rfl

/-- The CREDIT words of a port go out, and what it had still to return is in them. -/
theorem sendCredits_eq : sendCredits port.toNat s = { s.setPort port.toNat (fun x => { x with giving := [] }) with
    out := creditWords (s.setPort port.toNat fun x => { x with giving := [] }) port [0, 1, 4, 5, 6, 7] ++ s.out } :=
  each_creditWords (s := s.setPort port.toNat fun x => { x with giving := [] }) _ _

/-- The credit words do not depend on what else a port's state holds. -/
theorem creditWords_setPort {f : Port → Port} (hused : (f (s.port port.toNat)).used = (s.port port.toNat).used)
    (howed : (f (s.port port.toNat)).owed = (s.port port.toNat).owed) (vs : List Nat) :
    creditWords (s.setPort port.toNat f) port vs = creditWords s port vs := by
  simp only [creditWords, State.setPort_port, hused, howed]
  rfl

/-- A change of the port, then its CREDIT words and READY (R120). -/
theorem sendReady_eq {f : Port → Port} (hused : (f (s.port port.toNat)).used = (s.port port.toNat).used)
    (howed : (f (s.port port.toNat)).owed = (s.port port.toNat).owed) : sendTrain port.toNat 6 0 (sendCredits port.toNat (s.setPort port.toNat f)) =
      { s.setPort port.toNat (fun x => { f x with giving := [] }) with
        out := .control port (mkCw 5 6 0) :: (creditWords s port [0, 1, 4, 5, 6, 7] ++ s.out) } := by
  rw [sendTrain_eq, sendCredits_eq, setPort_setPort, creditWords_setPort (f := fun x => { f x with giving := [] }) hused howed]
  rfl

end

/-- What a port is once it is UP (R119, R122). -/
theorem portReady_eq (s : State) (p : Nat) : portReady p s = s.setPort p fun x => { x with
    state := .up, step := 0, handshake := 0, measM := min x.measNew 0x7FF, carrying := s.boot.phase != .run, waitReplay := false
    nakCount := 0, ackClk := s.clk, cwClk := s.clk, replaying := if x.replayQ = [] then none else some (oldestSeq x, true) } := by
  have hempty (x : Port) : (if x.replayQ.isEmpty then none else some (oldestSeq x, true)) =
      if x.replayQ = [] then none else some (oldestSeq x, true) := by simp only [List.isEmpty_iff]
  unfold portReady
  simp only [hempty]
  rfl

/-- Settles O29: each training word at its step is compared and taken as R120 says. -/
theorem trainingWords : Obligations.TrainingWords := by
  unfold Obligations.TrainingWords
  intro s port cw
  refine ⟨fun hword => ⟨fun hwidth => ?_, fun hwidth hphase => ?_⟩, fun hword => ⟨fun hset hcheck => ?_, fun hcheck hphase => ?_⟩,
    fun hword own peer₀ hnonces => ?_, fun n hn hword => ?_, fun hword r hlen => ?_, fun hword r hlen hphase => ?_, fun hword => ?_,
    fun hword => ?_⟩
  · exact ⟨_, (onTrain_of_trainWord hword _).trans (congrArg _ (if_pos hwidth)), handshakeDone_partDone 1⟩
  · exact ⟨_, (onTrain_of_trainWord hword _).trans (congrArg _ (if_neg hwidth)), trainFail_of_link hphase 5⟩
  · exact ⟨_, (onTrain_of_trainWord hword _).trans (congrArg _ (if_pos (by simp [hset, hcheck]))), handshakeDone_partDone 2⟩
  · exact ⟨_, (onTrain_of_trainWord hword _).trans (congrArg _ (if_neg (by simp [hcheck]))), trainFail_of_link hphase 6⟩
  · exact ⟨_, (onTrain_of_trainWord hword _).trans (congrArg _ (if_pos (by simp [hnonces]))), handshakeDone_partDone 4⟩
  · obtain ⟨hvalid, htype, hcode, htrains, hstep⟩ := hword
    exact (onTrain_of_word hvalid htype hcode htrains _).trans (congrArg _ (if_pos (hstep ▸ hn)))
  · obtain ⟨hvalid, htype, hcode, htrains, hstep⟩ := hword
    refine ⟨_, (onTrain_of_word hvalid htype hcode htrains _).trans (congrArg Host.Outcome.next
      ((afterStep_of_step htrains hstep _).trans ((if_pos hlen).trans (sendReady_eq rfl rfl)))), ?_, fun q hq => ?_, rfl, rfl⟩
    · exact State.setPort_port s port.toNat fun x => { x with step := 7, measNew := (r + 17) / 18, credits := [], giving := [] }
    · exact setPort_port_other s (fun x => { x with step := 7, measNew := (r + 17) / 18, credits := [], giving := [] }) hq
  · obtain ⟨hvalid, htype, hcode, htrains, hstep⟩ := hword
    exact ⟨_, (onTrain_of_word hvalid htype hcode htrains _).trans (congrArg Host.Outcome.next
      ((afterStep_of_step htrains hstep _).trans (if_neg (by omega)))), trainFail_of_link hphase 7⟩
  · exact onTrain_of_trainWord hword _
  · exact (onTrain_of_trainWord hword _).trans (congrArg _ (portReady_eq s port.toNat))

end Sys2Proof.Machine
end

section
/-!
SUPPORT. What a port does when it leaves UP (R119, R122, R123): O30.
-/

namespace Sys2Proof.Machine

/-! ### The slot's count of links that went down -/

/-- The ledger's record of links that went down stands (R123). -/
def SameDowns (s t : State) : Prop := t.ledger.slotDown = s.ledger.slotDown ∧ t.ledger.downPorts = s.ledger.downPorts

namespace SameDowns

variable {s t u : State}

theorem refl (s : State) : SameDowns s s := ⟨rfl, rfl⟩

theorem trans (h : SameDowns s t) (k : SameDowns t u) : SameDowns s u := ⟨k.1.trans h.1, k.2.trans h.2⟩

theorem ite {c : Prop} [Decidable c] (ht : SameDowns s t) (hu : SameDowns s u) : SameDowns s (if c then t else u) := by
  split
  · exact ht
  · exact hu

theorem each {α : Type} {f : α → State → State} (hf : ∀ x t, SameDowns t (f x t)) (l : List α) (s : State) : SameDowns s (each l f s) :=
  each_invariant (SameDowns s) (fun x _ h => h.trans (hf x _)) l (.refl s)

theorem queueNotice (port kind heat : Nat) (item : BitVec 128) (s : State) : SameDowns s (queueNotice port kind heat item s) :=
  .ite (.refl s) ⟨rfl, rfl⟩

theorem announceEntry (e verdict cause detail : Nat) (s : State) : SameDowns s (announceEntry e verdict cause detail s) :=
  .each (fun _ _ => queueNotice ..) _ s

theorem holdOwn (cause detail entry : Nat) (skip : Option Nat) (s : State) : SameDowns s (holdOwn cause detail entry skip s) :=
  .ite (.refl s) (.ite (.refl s) (trans ⟨rfl, rfl⟩ (.each (fun _ _ => queueNotice ..) _ _)))

theorem recordRetract (cause detail entry : Nat) (s : State) : SameDowns s (recordRetract cause detail entry s) := .ite (.refl s) ⟨rfl, rfl⟩

theorem retractOne (e cause detail : Nat) (skip : Option Nat) (acts : EntryState → Bool) (s : State) :
    SameDowns s (retractOne e cause detail skip acts s) := by
  refine .ite ?_ (.ite ?_ (.refl s))
  · refine trans ?_ (holdOwn ..)
    refine trans ?_ (recordRetract ..)
    refine trans ?_ (announceEntry ..)
    exact ⟨rfl, rfl⟩
  · refine trans ?_ (announceEntry ..)
    exact ⟨rfl, rfl⟩

theorem retractDeps (n : Nat) (s : State) : SameDowns s (retractDeps n s) := by
  induction n generalizing s with
  | zero => exact .refl s
  | succ n ih => exact .ite (.refl s) ((SameDowns.each (fun _ _ => retractOne ..) _ s).trans (ih _))

theorem retractEntries (es : List Nat) (cause detail : Nat) (skip : Option Nat) (acts : EntryState → Bool) (s : State) :
    SameDowns s (retractEntries es cause detail skip acts s) :=
  (SameDowns.each (fun _ _ => retractOne ..) es s).trans (retractDeps ..)

theorem mark (cause detail : Nat) (es : List Nat) (s : State) : SameDowns s (mark cause detail es s) :=
  .ite ⟨rfl, rfl⟩ (trans (.ite ((retractEntries ..).trans (recordRetract ..)) (retractEntries ..)) (holdOwn ..))

end SameDowns

/-! ### The reception that breaks off -/

/-- What ending copies leaves alone: all but ports, fabric and what has gone out. -/
def CopiesOnly (s t : State) : Prop := t = { s with ports := t.ports, fab := t.fab, out := t.out }

theorem CopiesOnly.refl (s : State) : CopiesOnly s s := rfl

theorem CopiesOnly.trans {s t u : State} (h : CopiesOnly s t) (k : CopiesOnly t u) : CopiesOnly s u := by
  unfold CopiesOnly at *
  rw [k, h]

/-- A port's reception stands, and its replay buffer keeps its length. -/
def KeepsReplay (p : Nat) (s t : State) : Prop := (t.port p).rx = (s.port p).rx ∧ (t.port p).replayQ.length = (s.port p).replayQ.length

theorem KeepsReplay.refl (p : Nat) (s : State) : KeepsReplay p s s := ⟨rfl, rfl⟩

theorem KeepsReplay.trans {p : Nat} {s t u : State} (h : KeepsReplay p s t) (k : KeepsReplay p t u) : KeepsReplay p s u :=
  ⟨k.1.trans h.1, k.2.trans h.2⟩

theorem KeepsReplay.setPort {p j : Nat} {s : State} {f : Port → Port} (hrx : ∀ x, (f x).rx = x.rx)
    (hlen : ∀ x, (f x).replayQ.length = x.replayQ.length) : KeepsReplay p s (s.setPort j f) := by
  by_cases hj : p = j
  · subst hj
    exact ⟨by rw [State.setPort_port, hrx], by rw [State.setPort_port, hlen]⟩
  · exact ⟨by rw [State.setPort_port_ne _ _ _ hj], by rw [State.setPort_port_ne _ _ _ hj]⟩

theorem sendRest_ports (p : Nat) (c : CutCopy) (k : Packet) (s : State) :
    sendRest p c k s = { s with out := (sendRest p c k s).out } := by
  unfold sendRest
  split
  · rfl
  · rfl

/-- The end of a copy that is leaving a port changes that port and what goes out. -/
theorem endCut_copiesOnly (p ident : Nat) (payload : List Byte) (stomped : Bool) (s : State) : CopiesOnly s (endCut p ident payload stomped s) := by
  unfold endCut
  split
  · exact .refl s
  · dsimp only
    split
    · exact .refl s
    · refine CopiesOnly.trans (t := _) ?_ (show CopiesOnly _ (State.setPort _ _ _) from rfl)
      split
      · rw [sendRest_ports]; rfl
      · exact .refl s

theorem endCut_keepsReplay (q p ident : Nat) (payload : List Byte) (stomped : Bool) (s : State) :
    KeepsReplay q s (endCut p ident payload stomped s) := by
  unfold endCut
  split
  · exact .refl q s
  · dsimp only
    split
    · exact .refl q s
    · refine KeepsReplay.trans (t := _) ?_ (KeepsReplay.setPort (by intro; rfl) (by intro; exact List.length_map _))
      split
      · rw [sendRest_ports]; exact ⟨rfl, rfl⟩
      · exact .refl q s

theorem mapPackets_keepsReplay (p : Nat) (f : Packet → Packet) (s : State) : KeepsReplay p s (mapPackets f s) := by
  have hport : (mapPackets f s).port p = _ := tget_map Port.reset s.ports (fun x => { x with
    inbox := x.inbox.map (finishQ f), transit := x.transit.map (finishQ f), egress := x.egress.map (fun t => (t.1, t.2.map (finishQ f))),
    scheduled := x.scheduled.map (finishQ f), mcastBuf := x.mcastBuf.map (finishQ f), replayQ := x.replayQ.map f,
    held := x.held.map fun t => (t.1, t.2.map fun h => (finishQ f h.1, h.2)) }) p rfl
  unfold KeepsReplay
  rw [hport]
  exact ⟨rfl, List.length_map _⟩

theorem finishCopies_copiesOnly (ident : Nat) (payload : List Byte) (stomped : Bool) (s : State) :
    CopiesOnly s (finishCopies ident payload stomped s) :=
  (each_invariant (CopiesOnly s) (fun p _ h => h.trans (endCut_copiesOnly p ident payload stomped _)) _ (.refl s)).trans rfl

theorem finishCopies_keepsReplay (p ident : Nat) (payload : List Byte) (stomped : Bool) (s : State) :
    KeepsReplay p s (finishCopies ident payload stomped s) :=
  (each_invariant (KeepsReplay p s) (fun q _ h => h.trans (endCut_keepsReplay p q ident payload stomped _)) _ (.refl p s)).trans
    (mapPackets_keepsReplay p _ _)

theorem markEarly_ledgerOnly (r : RxPacket) (s : State) : LedgerOnly s (markEarly r s) := .ite (mark_ledgerOnly ..) (.refl s)

theorem markEarly_sameDowns (r : RxPacket) (s : State) : SameDowns s (markEarly r s) := .ite (.mark ..) (.refl s)

/-- What a reception that breaks off leaves alone. -/
def DropsOnly (s t : State) : Prop := t = { s with ports := t.ports, fab := t.fab, out := t.out, ledger := t.ledger } ∧ SameDowns s t

/-- The reception under way as it is taken out. -/
def receptionDropped (p : Nat) (r : RxPacket) (s : State) : State :=
  markEarly r (dropStamp r.ident (s.setPort p fun x => { x with rx := none }))

theorem dropRx_eq (p : Nat) (s : State) : dropRx p s = match (s.port p).rx with
    | none => s
    | some r => if r.forwarded then finishCopies r.ident (List.replicate (payloadLen r.hdr) 0) true (receptionDropped p r s)
      else receptionDropped p r s := rfl

theorem receptionDropped_port (p q : Nat) (r : RxPacket) (s : State) :
    (receptionDropped p r s).port q = (s.setPort p fun x => { x with rx := none }).port q := by
  rw [receptionDropped, markEarly_ledgerOnly]
  rfl

theorem receptionDropped_dropsOnly (p : Nat) (r : RxPacket) (s : State) : DropsOnly s (receptionDropped p r s) := by
  refine ⟨?_, SameDowns.trans (s := s) ⟨rfl, rfl⟩ (markEarly_sameDowns r _)⟩
  have h := markEarly_ledgerOnly r (dropStamp r.ident (s.setPort p fun x => { x with rx := none }))
  unfold receptionDropped
  unfold LedgerOnly at h
  generalize markEarly r _ = t at h ⊢
  rw [h]
  rfl

theorem dropRx_dropsOnly (p : Nat) (s : State) : DropsOnly s (dropRx p s) := by
  rw [dropRx_eq]
  split
  · exact ⟨rfl, .refl s⟩
  · rename_i r _
    obtain ⟨hdrop, hdowns⟩ := receptionDropped_dropsOnly p r s
    split
    · have h := finishCopies_copiesOnly r.ident (List.replicate (payloadLen r.hdr) 0) true (receptionDropped p r s)
      unfold CopiesOnly at h
      generalize finishCopies r.ident (List.replicate (payloadLen r.hdr) 0) true (receptionDropped p r s) = t at h ⊢
      generalize receptionDropped p r s = u at h hdrop hdowns
      exact ⟨by rw [h, hdrop], SameDowns.trans hdowns ⟨by rw [h], by rw [h]⟩⟩
    · exact ⟨hdrop, hdowns⟩

/-- The reception is gone and the replay buffer keeps its length. -/
theorem dropRx_port (p : Nat) (s : State) : ((dropRx p s).port p).rx = none ∧ ((dropRx p s).port p).replayQ.length = (s.port p).replayQ.length := by
  rw [dropRx_eq]
  split
  · rename_i hrx
    exact ⟨hrx, rfl⟩
  · rename_i r _
    have hdropped : ((receptionDropped p r s).port p).rx = none ∧
        ((receptionDropped p r s).port p).replayQ.length = (s.port p).replayQ.length := by
      rw [receptionDropped_port, State.setPort_port]
      exact ⟨rfl, rfl⟩
    split
    · obtain ⟨hrx, hlen⟩ := finishCopies_keepsReplay p r.ident (List.replicate (payloadLen r.hdr) 0) true (receptionDropped p r s)
      exact ⟨hrx.trans hdropped.1, hlen.trans hdropped.2⟩
    · exact hdropped

/-! ### Leaving UP -/

/-- A link that goes down touches the ledger, and in a replayed heat the quench that is due. -/
theorem linkDown_eq (p : Nat) (s : State) : linkDown p s = { s with ledger := (linkDown p s).ledger, job := (linkDown p s).job } := by
  unfold linkDown
  split
  · dsimp only
    generalize (validEntries s).filter _ = es
    have h := retractEntries_ledgerOnly es 0x08 p none undecided (s.setLedger fun l =>
      { l with slotDown := satAdd 16 l.slotDown 1, downPorts := if l.downPorts.contains p then l.downPorts else p :: l.downPorts })
    generalize retractEntries es 0x08 p none undecided _ = t at h ⊢
    unfold LedgerOnly at h
    split
    · rw [h]; rfl
    · rw [h]; rfl
  · rfl

/-- In RUN the slot counts the link and notes the port (R123). -/
theorem linkDown_downs (p : Nat) (s : State) (hrun : s.boot.phase = .run) :
    p ∈ (linkDown p s).ledger.downPorts ∧ (linkDown p s).ledger.slotDown = min (s.ledger.slotDown + 1) 0xFFFF := by
  have hrunning : s.running = true := by simp [State.running, hrun]
  unfold linkDown
  rw [if_pos hrunning]
  dsimp only
  generalize (validEntries s).filter _ = es
  obtain ⟨hdown, hports⟩ := SameDowns.retractEntries es 0x08 p none undecided (s.setLedger fun l =>
    { l with slotDown := satAdd 16 l.slotDown 1, downPorts := if l.downPorts.contains p then l.downPorts else p :: l.downPorts })
  generalize retractEntries es 0x08 p none undecided _ = t at hdown hports ⊢
  have hmem : p ∈ t.ledger.downPorts := by
    rw [hports]
    show p ∈ if s.ledger.downPorts.contains p then s.ledger.downPorts else p :: s.ledger.downPorts
    split
    · rename_i hin
      exact List.contains_iff_mem.mp hin
    · exact List.mem_cons_self
  split
  · exact ⟨hmem, hdown⟩
  · exact ⟨hmem, hdown⟩

theorem setPwr_port (s : State) (f : Power → Power) (p : Nat) : (s.setPwr f).port p = s.port p := rfl

theorem dropRx_clk (p : Nat) (s : State) : (dropRx p s).clk = s.clk := by rw [(dropRx_dropsOnly p s).1]

section
variable {s : State} {port : PortNo} {reason : Nat}

/-- The state of a re-training port before its link is noted as down. -/
def retrainBegun (port : PortNo) (reason : Nat) (s : State) : State :=
  bumpPort port.toNat 9 1 (((dropRx port.toNat s).setPort port.toNat fun x =>
    { x with
      state := .retrain, downReason := reason, step := 1, handshake := 0, retrainClk := s.clk, carrying := false, replaying := none
      waitReplay := false, nakDue := false, cut := none, escaped := false, cleared := false, session := none, nonces := none }).setPwr fun w =>
    { w with retrainClks := s.clk :: w.retrainClks })

theorem retrained_eq : retrained port reason s = linkDown port.toNat (retrainBegun port reason s) := rfl

/-- What the port is then. -/
theorem retrainBegun_port : (retrainBegun port reason s).port port.toNat = { (dropRx port.toNat s).port port.toNat with
    state := .retrain, downReason := reason, step := 1, handshake := 0, retrainClk := s.clk, carrying := false, replaying := none
    waitReplay := false, nakDue := false, cut := none, escaped := false, cleared := false, session := none, nonces := none
    ctr := tmod 0 ((dropRx port.toNat s).port port.toNat).ctr 9 (satAdd (portCtrWidth 9) · 1) } := by
  rw [retrainBegun, bumpPort_port, setPwr_port, State.setPort_port]

/-- A re-trained port has lost its session, reception and replay in progress and keeps its replay buffer (R122, R123). -/
theorem retrained_retrains : retrains port reason s (retrained port reason s) := by
  obtain ⟨hdrop, hdowns⟩ := dropRx_dropsOnly port.toNat s
  obtain ⟨hrx, hlen⟩ := dropRx_port port.toNat s
  have hport : (retrained port reason s).port port.toNat = (retrainBegun port reason s).port port.toNat := by
    rw [retrained_eq, linkDown_eq]
    rfl
  have hrest := linkDown_eq port.toNat (retrainBegun port reason s)
  have hrun := linkDown_downs port.toNat (retrainBegun port reason s)
  have hbegun : retrainBegun port reason s = { s with
      pwr := { s.pwr with retrainClks := s.clk :: s.pwr.retrainClks }, ports := (retrainBegun port reason s).ports
      fab := (dropRx port.toNat s).fab, out := (dropRx port.toNat s).out, ledger := (dropRx port.toNat s).ledger } := by
    unfold retrainBegun bumpPort
    generalize dropRx port.toNat s = d at hdrop ⊢
    rw [hdrop]
    rfl
  unfold retrains
  rw [hport, retrainBegun_port, retrained_eq]
  generalize retrainBegun port reason s = b at hrest hrun hbegun ⊢
  generalize linkDown port.toNat b = t at hrest hrun ⊢
  refine ⟨rfl, rfl, rfl, rfl, rfl, rfl, hrx, hlen, ?_, fun hphase => ?_, ?_, ?_, ?_, ?_, ?_, ?_⟩
  · rw [hrest, hbegun]
  · have hnote := hrun (by rw [hbegun]; exact hphase)
    refine ⟨hnote.1, hnote.2.trans ?_⟩
    rw [hbegun]
    exact congrArg (fun n => min (n + 1) 0xFFFF) hdowns.1
  all_goals rw [hrest, hbegun]

theorem enterRetrain_of_up (hup : s.portUp port.toNat = true) : enterRetrain port.toNat reason s = retrained port reason s := by
  have hstate : (s.port port.toNat).state = .up := by simpa using (Bool.and_eq_true_iff.mp hup).2
  simp only [enterRetrain, if_pos hstate, State.setPort_clk, dropRx_clk]
  rfl

end

/-- Settles O30: every cause of re-training has its reason, keeps the replay buffer and is counted. -/
theorem linksLeaveUp : Obligations.LinksLeaveUp := by
  unfold Obligations.LinksLeaveUp
  intro s port
  refine ⟨fun hup => ⟨⟨?_, retrained_retrains⟩, fun n outside hn => ?_, fun n outside hn => ?_, fun hqueue hclk => ⟨?_, retrained_retrains⟩,
    fun cw hescaped hrx hwait hvalid htype => ⟨?_, retrained_retrains⟩⟩, fun hlit hstate hclk => ?_⟩
  · exact congrArg Host.Outcome.next ((if_pos hup).trans (enterRetrain_of_up hup))
  · intro s'
    have hup' : s'.portUp port.toNat = true := by
      rw [← hup]
      show (s.lit && ((s'.port port.toNat).state == .up)) = _
      rw [State.setPort_port]
      rfl
    refine ⟨congrArg Host.Outcome.next ((if_neg (by simp [hup])).trans ((if_pos hn).trans (enterRetrain_of_up hup'))), retrained_retrains⟩
  · refine congrArg Host.Outcome.next ((if_neg (by simp [hup])).trans ((if_neg (by simpa using hn)).trans ?_))
    by_cases hout : outside = 0
    · rw [if_pos hout]
      exact if_neg (by simp [hout])
    · rw [if_neg hout]
      exact if_pos (Nat.pos_of_ne_zero hout)
  · exact congrArg Host.Outcome.next ((if_pos (by simp [hup, hqueue, hclk])).trans (enterRetrain_of_up hup))
  · exact congrArg Host.Outcome.next ((if_pos (by simp [hup, hescaped, hrx, hwait, hvalid, htype])).trans (enterRetrain_of_up hup))
  · have hgo : exec (.retrainTimeout port) s = .next (goDown port.toNat (stepReason (s.port port.toNat).step) s) :=
      congrArg Host.Outcome.next (if_pos (by simp [hlit, hstate, hclk]))
    refine ⟨hgo, fun hqueue => hgo.trans (congrArg Host.Outcome.next ?_)⟩
    simp only [goDown, hqueue, answerReplay, dropRx_clk]
    rfl

end Sys2Proof.Machine
end

section
/-!
SUPPORT. Control words on an UP port (R131 to R139, R144): O31.
-/

namespace Sys2Proof.Machine

section
variable {s : State} {port : PortNo} {cw : BitVec 128}

/-- The count of each credited VC with what a control word returns (R131). -/
def creditsPaid (m : Tab Nat) (cw : BitVec 128) : Tab Nat := [0, 1, 4, 5, 6, 7].foldl (fun m v => tmod 0 m v (· + cwCredit cw v)) m

theorem tget_foldl_tmod (f : Nat → Nat → Nat) (vs : List Nat) (hvs : vs.Nodup) (m : Tab Nat) (v : Nat) :
    tget 0 (vs.foldl (fun m v => tmod 0 m v (f v)) m) v = if v ∈ vs then f v (tget 0 m v) else tget 0 m v := by
  induction vs generalizing m with
  | nil => simp
  | cons u vs ih =>
    obtain ⟨hu, hrest⟩ := List.nodup_cons.mp hvs
    rw [List.foldl_cons, ih hrest]
    by_cases hv : v = u
    · subst hv
      rw [if_neg hu, tget_tmod_self, if_pos List.mem_cons_self]
    · rw [tget_tmod_ne _ _ _ hv]
      simp only [List.mem_cons, hv, false_or]

theorem tget_creditsPaid (m : Tab Nat) (v : Nat) :
    tget 0 (creditsPaid m cw) v = tget 0 m v + if v ∈ [0, 1, 4, 5, 6, 7] then cwCredit cw v else 0 := by
  rw [creditsPaid, tget_foldl_tmod (fun v n => n + cwCredit cw v) _ (by decide)]
  split
  · rfl
  · rfl

/-- The state with a control word's credits taken. -/
def creditsTakenState (s : State) (port : PortNo) (cw : BitVec 128) : State :=
  s.setPort port.toNat fun x => { x with credits := creditsPaid x.credits cw }

theorem creditsTaken_of_eq {x y : Port} (h : y.credits = creditsPaid x.credits cw) : creditsTaken x y cw := fun v => by
  rw [h, tget_creditsPaid]

theorem takeCredits_of_room (h : ∀ v ∈ [0, 1, 4, 5, 6, 7], tget 0 (s.port port.toNat).credits v + cwCredit cw v ≤ 65535) :
    takeCredits port.toNat cw s = creditsTakenState s port cw := by
  refine (if_neg ?_).trans (setPort_congr rfl)
  simp only [List.any_eq_true, decide_eq_true_eq, not_exists, not_and]
  exact fun v hv => Nat.not_lt.mpr (h v hv)

theorem creditsTakenState_portUp : (creditsTakenState s port cw).portUp port.toNat = s.portUp port.toNat := by
  have hstate : ((creditsTakenState s port cw).port port.toNat).state = (s.port port.toNat).state := by
    rw [creditsTakenState, State.setPort_port]
  exact congrArg (fun st => s.lit && st == .up) hstate

/-- A valid control word at a packet boundary of an UP port has its credits taken, then its effect (R131, R134). -/
theorem onCw_of_arrives {ctype : Nat} {always : Bool} (h : cwArrives s port cw ctype)
    (hwait : always = false → (s.port port.toNat).waitReplay = false) (f : State → State) :
    onCw s port cw ctype always f = .next (f (creditsTakenState s port cw)) := by
  obtain ⟨hup, hescaped, hrx, hvalid, htype, hroom⟩ := h
  have hacts : ((s.port port.toNat).waitReplay && !always) = false := by
    cases always with
    | false => simp [hwait rfl]
    | true => simp
  have htaken := (takeCredits_of_room hroom).symm ▸ creditsTakenState_portUp (s := s) (port := port) (cw := cw)
  refine congrArg Host.Outcome.next ((if_neg (by simp [hup, hescaped, hrx])).trans ((if_neg (by simp [hacts])).trans
    ((if_neg (by simp [hvalid])).trans ((if_neg (by simp [htype])).trans ((if_pos (htaken.trans hup)).trans ?_)))))
  rw [takeCredits_of_room hroom]

end

/-! ### ACK -/

section
variable {s : State} {p seq : Nat}

/-- A packet that an ACK releases, as its blocks leave the replay queue. -/
def released (clk : Nat) (k : Packet) : QPkt :=
  { pkt := k, owner := .none, cells := cellsOf k.hdr, ring := 0, since := clk, targets := [], reserved := [] }

theorem each_leaveQueue (key : Nat) (l : List QPkt) (s : State) : each l (leaveQueue key) s =
    { s with fab := { s.fab with leaving := (each l (leaveQueue key) s).fab.leaving } } ∧
    tget [] (each l (leaveQueue key) s).fab.leaving key = tget [] s.fab.leaving key ++ l := by
  induction l generalizing s with
  | nil => exact ⟨rfl, (List.append_nil _).symm⟩
  | cons q l ih =>
    obtain ⟨hrest, hkey⟩ := ih (leaveQueue key q s)
    have hone : tget [] (leaveQueue key q s).fab.leaving key = tget [] s.fab.leaving key ++ [q] :=
      tget_tmod_self [] s.fab.leaving (k := key) (· ++ [q])
    refine ⟨hrest, hkey.trans ?_⟩
    rw [hone, List.append_assoc, List.singleton_append]

/-- What an ACK makes of the port (R131, R133, R135). -/
def acked (clk : Nat) (q : List Packet) (seq : Nat) (x : Port) : Port :=
  let y := { x with replayQ := q, ackClk := clk }
  { y with replaying := match y.replaying with
      | none => none
      | some (n, w) => if w then some (n, w) else if q.isEmpty then none
          else if seqLe n seq then some (oldestSeq y, false) else some (n, false) }

theorem takeAck_eq : takeAck p seq s =
    if ((s.port p).replayQ.filter fun k => !seqLe (hSeq k.hdr) seq).length = (s.port p).replayQ.length then s
    else (each (((s.port p).replayQ.filter fun k => seqLe (hSeq k.hdr) seq).map (released s.clk)) (leaveQueue (replayKey p)) s).setPort p
      (acked s.clk ((s.port p).replayQ.filter fun k => !seqLe (hSeq k.hdr) seq) seq) := by
  rfl

theorem acked_eq (clk : Nat) (q : List Packet) (x : Port) :
    acked clk q seq x = { x with replayQ := q, ackClk := clk, replaying := (acked clk q seq x).replaying } := rfl

/-- What an ACK leaves of the replay queue. -/
theorem filter_of_uncovered {l : List Packet} (h : (l.filter fun k => !seqLe (hSeq k.hdr) seq).length = l.length) :
    l.filter (fun k => !seqLe (hSeq k.hdr) seq) = l ∧ l.filter (fun k => seqLe (hSeq k.hdr) seq) = [] := by
  have hall := List.length_filter_eq_length_iff.mp h
  refine ⟨List.filter_eq_self.mpr hall, List.filter_eq_nil_iff.mpr fun k hk => ?_⟩
  simpa using hall k hk

/-- Packets that an ACK covers leave the replay queue, and their blocks go back to the pool (R131, R133). -/
theorem takeAck_releases : let t := takeAck p seq s
    (t.port p).replayQ = (s.port p).replayQ.filter (fun k => !seqLe (hSeq k.hdr) seq) ∧
    ((∃ k ∈ (s.port p).replayQ, seqLe (hSeq k.hdr) seq = true) → (t.port p).ackClk = s.clk) ∧
    t.port p = { s.port p with replayQ := (t.port p).replayQ, ackClk := (t.port p).ackClk, replaying := (t.port p).replaying } ∧
    tget [] t.fab.leaving (replayKey p) = tget [] s.fab.leaving (replayKey p) ++
      ((s.port p).replayQ.filter fun k => seqLe (hSeq k.hdr) seq).map (released s.clk) ∧
    (∀ q, q ≠ p → t.port q = s.port q) ∧
    t = { s with ports := t.ports, fab := { s.fab with leaving := t.fab.leaving } } := by
  intro t
  by_cases hnone : ((s.port p).replayQ.filter fun k => !seqLe (hSeq k.hdr) seq).length = (s.port p).replayQ.length
  · have ht : t = s := takeAck_eq.trans (if_pos hnone)
    clear_value t
    subst ht
    obtain ⟨hkept, hgone⟩ := filter_of_uncovered hnone
    refine ⟨hkept.symm, fun ⟨k, hk, hcov⟩ => ?_, rfl, ?_, fun _ _ => rfl, rfl⟩
    · exact absurd hcov (List.filter_eq_nil_iff.mp hgone k hk)
    · rw [hgone, List.map_nil, List.append_nil]
  · have ht : t = _ := takeAck_eq.trans (if_neg hnone)
    obtain ⟨hleft, hkey⟩ := each_leaveQueue (replayKey p) (((s.port p).replayQ.filter fun k => seqLe (hSeq k.hdr) seq).map (released s.clk)) s
    clear_value t
    generalize each _ (leaveQueue (replayKey p)) s = l at ht hleft hkey
    have hlport (q : Nat) : l.port q = s.port q := by rw [hleft]; rfl
    have hport : t.port p = acked s.clk ((s.port p).replayQ.filter fun k => !seqLe (hSeq k.hdr) seq) seq (s.port p) := by
      rw [ht, State.setPort_port, hlport]
    refine ⟨?_, fun _ => ?_, ?_, ?_, fun q hq => ?_, ?_⟩
    · rw [hport, acked_eq]
    · rw [hport, acked_eq]
    · rw [hport]; rfl
    · rw [ht]; exact hkey
    · rw [ht, State.setPort_port_ne _ _ _ hq, hlport]
    · rw [ht, hleft]; rfl

end

/-! ### NAK -/

section
variable {s : State} {p seq : Nat}

theorem takeNak_eq : takeNak p seq s =
    let u := bumpPort p 7 1 s
    let x := u.port p
    let known := seqLe (oldestSeq x) seq && seqLe seq x.txSeq
    match x.replaying with
    | some (n, _) => if known && seqLe seq n && seq != n then u.setPort p fun x => { x with replaying := some (seq, true) } else u
    | none => if known then u.setPort p fun x => { x with replaying := some (seq, true) } else u := by
  rfl

/-- A NAK changes of the port what it replays, beside the count (R135). -/
theorem takeNak_replays : ∃ r, takeNak p seq s = (bumpPort p 7 1 s).setPort p (fun x => { x with replaying := r }) ∧
    ((s.port p).replaying = none → seqLe (oldestSeq (s.port p)) seq = true → seqLe seq (s.port p).txSeq = true → r = some (seq, true)) := by
  have hsame : bumpPort p 7 1 s = (bumpPort p 7 1 s).setPort p fun x => { x with replaying := ((bumpPort p 7 1 s).port p).replaying } := by
    rw [bumpPort, setPort_setPort, State.setPort_port]
    exact setPort_congr rfl
  have hport : (bumpPort p 7 1 s).port p = _ := bumpPort_port s p 7 1
  rw [takeNak_eq]
  dsimp only
  cases hrep : ((bumpPort p 7 1 s).port p).replaying with
  | some e =>
    have hs : (s.port p).replaying ≠ none := by
      rw [hport] at hrep
      simp [show (s.port p).replaying = some e from hrep]
    dsimp only
    split
    · exact ⟨_, rfl, fun h => absurd h hs⟩
    · exact ⟨_, hsame, fun h => absurd h hs⟩
  | none =>
    dsimp only
    split
    · exact ⟨_, rfl, fun _ _ _ => rfl⟩
    · rename_i hknown
      refine ⟨_, hsame, fun _ hold htx => absurd ?_ hknown⟩
      rw [hport]
      exact Bool.and_eq_true_iff.mpr ⟨hold, htx⟩

end

/-! ### Control words that change the port alone, and a NAK sent again -/

section
variable {s : State} {port : PortNo} {cw : BitVec 128}

/-- The port after a control word's credits and one change of its own. -/
theorem creditsTaken_then (f : Port → Port) :
    ((creditsTakenState s port cw).setPort port.toNat f).port port.toNat =
      f { s.port port.toNat with credits := creditsPaid (s.port port.toNat).credits cw } ∧
    ∀ q : PortNo, q ≠ port → ((creditsTakenState s port cw).setPort port.toNat f).port q.toNat = s.port q.toNat := by
  refine ⟨?_, fun q hq => ?_⟩
  · rw [State.setPort_port, creditsTakenState, State.setPort_port]
  · rw [setPort_port_other _ _ hq, creditsTakenState, setPort_port_other _ _ hq]

theorem exec_nakResend_of_late (hup : s.portUp port.toNat = true) (hwait : (s.port port.toNat).waitReplay = true)
    (hdue : (s.port port.toNat).nakDue = false)
    (hclk : (s.port port.toNat).nakClk + 2 * replayBound s (s.portWidth port.toNat) ≤ s.clk) :
    exec (.nakResend port) s = .next (sendNak port.toNat s) :=
  congrArg Host.Outcome.next (if_pos (by simp [hup, hwait, hdue, hclk]))

/-- The state with the NAK counted and the replay waited for. -/
def nakCounted (s : State) (port : PortNo) : State :=
  s.setPort port.toNat fun x => { x with nakCount := x.nakCount + 1, waitReplay := true }

theorem atBoundary_nakCounted : atBoundary (nakCounted s port) port.toNat = atBoundary s port.toNat := by
  have hport : (nakCounted s port).port port.toNat = _ := State.setPort_port s port.toNat _
  rw [atBoundary, hport]
  rfl

theorem sendNak_of_boundary (hcount : (s.port port.toNat).nakCount < 4) (hat : atBoundary s port.toNat = true) :
    sendNak port.toNat s = nakNow port.toNat (nakCounted s port) :=
  (if_neg (Nat.not_le.mpr hcount)).trans (if_pos (atBoundary_nakCounted.trans hat))

theorem sendNak_of_busy (hcount : (s.port port.toNat).nakCount < 4) (hat : atBoundary s port.toNat = false) :
    sendNak port.toNat s = s.setPort port.toNat fun y => { y with nakCount := y.nakCount + 1, waitReplay := true, nakDue := true } :=
  (if_neg (Nat.not_le.mpr hcount)).trans ((if_neg (Bool.eq_false_iff.mp (atBoundary_nakCounted.trans hat))).trans (setPort_setPort ..))

/-- The port with a NAK's control word said. -/
def nakWord (clk : Nat) (x : Port) : Port := { x with
  nakClk := clk, nakDue := false, giving := (x.giving.map fun e => (e.1, e.2 - 255)).filter (fun e => e.2 != 0), cwClk := clk }

/-- The port with a NAK said and counted. -/
def nakSaid (clk : Nat) (x : Port) : Port := { nakWord clk x with ctr := tmod 0 x.ctr 6 (satAdd 32 · 1) }

/-- What a port says with a NAK, and where (R134, R139). -/
theorem nakNow_eq : nakNow port.toNat s = { s.setPort port.toNat (nakSaid s.clk) with
    out := .control port (mkCw 1 (s.port port.toNat).rxSeq (creditField (s.port port.toNat))) :: s.out } := by
  have hfield : creditField ((s.setPort port.toNat fun x => { x with nakClk := s.clk, nakDue := false }).port port.toNat) =
      creditField (s.port port.toNat) := by
    rw [State.setPort_port]
    rfl
  have hsaid : sendCw port.toNat 1 (s.port port.toNat).rxSeq (s.setPort port.toNat fun x => { x with nakClk := s.clk, nakDue := false }) =
      { s.setPort port.toNat (nakWord s.clk) with
        out := .control port (mkCw 1 (s.port port.toNat).rxSeq (creditField (s.port port.toNat))) :: s.out } := by
    rw [sendCw]
    dsimp only
    rw [hfield, setPort_setPort, BitVec.ofNat_toNat, BitVec.setWidth_eq]
    rfl
  rw [nakNow, hsaid]
  exact congrArg (fun u : State => { u with
    out := .control port (mkCw 1 (s.port port.toNat).rxSeq (creditField (s.port port.toNat))) :: s.out })
    (setPort_setPort s port.toNat (nakWord s.clk) fun x => { x with ctr := tmod 0 x.ctr 6 (satAdd 32 · 1) })

theorem nakSent_port : (nakNow port.toNat (nakCounted s port)).port port.toNat = { s.port port.toNat with
    nakCount := (s.port port.toNat).nakCount + 1, waitReplay := true, nakClk := s.clk, nakDue := false, cwClk := s.clk
    giving := ((s.port port.toNat).giving.map fun e => (e.1, e.2 - 255)).filter (fun e => e.2 != 0)
    ctr := tmod 0 (s.port port.toNat).ctr 6 (satAdd 32 · 1) } := by
  rw [nakNow_eq]
  refine (State.setPort_port (nakCounted s port) port.toNat (nakSaid s.clk)).trans ?_
  rw [nakCounted, State.setPort_port]
  rfl

theorem nakSent_other {q : PortNo} (hq : q ≠ port) : (nakNow port.toNat (nakCounted s port)).port q.toNat = s.port q.toNat := by
  rw [nakNow_eq]
  exact (setPort_port_other (nakCounted s port) (nakSaid s.clk) hq).trans (setPort_port_other s _ hq)

theorem nakSent_rest : nakNow port.toNat (nakCounted s port) = { s with
    ports := (nakNow port.toNat (nakCounted s port)).ports
    out := .control port (mkCw 1 (s.port port.toNat).rxSeq (creditField (s.port port.toNat))) :: s.out } := by
  have hcounted : (nakCounted s port).port port.toNat =
      { s.port port.toNat with nakCount := (s.port port.toNat).nakCount + 1, waitReplay := true } := State.setPort_port ..
  rw [nakNow_eq, hcounted]
  rfl

end

/-- Settles O31: each control word at a packet boundary returns its credits and acts on the port alone. -/
theorem controlWords : Obligations.ControlWords := by
  unfold Obligations.ControlWords
  intro s port cw x
  refine ⟨fun hcw hwait => ?_, fun hcw hwait => ?_, fun hcw hseq => ?_, fun hwait hseq => ?_, fun hcw hwait => ?_, fun hcw hwait => ?_,
    fun hup hwait hdue hclk => ⟨fun hcount hbusy hcut => ?_, fun hcount hbusy => ?_, fun hcount => ?_⟩⟩
  · obtain ⟨hqueue, hclk, hport, hleaving, hother, hrest⟩ := takeAck_releases (s := creditsTakenState s port cw) (p := port.toNat) (seq := cwSeq cw)
    refine ⟨_, onCw_of_arrives hcw (fun _ => hwait) _, ?_⟩
    have hx : (creditsTakenState s port cw).port port.toNat = { x with credits := creditsPaid x.credits cw } := State.setPort_port ..
    rw [hx] at hqueue hclk hport hleaving
    generalize takeAck port.toNat (cwSeq cw) (creditsTakenState s port cw) = t at *
    refine ⟨creditsTaken_of_eq (by rw [hport]), hqueue, hclk, ?_, hleaving, fun q hq => ?_, hrest⟩
    · rw [hport]
    · exact (hother _ (PortNo.ne_toNat hq)).trans (setPort_port_other s _ hq)
  · obtain ⟨r, heq, hreplay⟩ := takeNak_replays (s := creditsTakenState s port cw) (p := port.toNat) (seq := cwSeq cw)
    refine ⟨_, onCw_of_arrives hcw (fun _ => hwait) _, ?_⟩
    rw [heq]
    have hport : ((bumpPort port.toNat 7 1 (creditsTakenState s port cw)).setPort port.toNat fun y => { y with replaying := r }).port port.toNat =
        { x with credits := creditsPaid x.credits cw, ctr := tmod 0 x.ctr 7 (satAdd 32 · 1), replaying := r } := by
      rw [State.setPort_port, bumpPort_port, creditsTakenState, State.setPort_port]
      rfl
    refine ⟨?_, ?_, ?_, ?_, fun q hq => ?_, rfl⟩
    · exact creditsTaken_of_eq (by rw [hport])
    · rw [hport]
      exact tget_tmod_self 0 x.ctr (k := 7) (satAdd 32 · 1)
    · rw [hport]
      have hx : (creditsTakenState s port cw).port port.toNat = { x with credits := creditsPaid x.credits cw } := State.setPort_port ..
      rw [hx] at hreplay
      exact hreplay
    · rw [hport]
    · rw [setPort_port_other _ _ hq, bumpPort, setPort_port_other _ _ hq, creditsTakenState, setPort_port_other _ _ hq]
  · obtain ⟨hport, hother⟩ := creditsTaken_then (s := s) (port := port) (cw := cw) fun y => { y with
      waitReplay := false, nakDue := false
      rxCount := if y.rxCount = y.rxSeq then cwSeq cw + (y.rxSeq + 65536 - cwSeq cw) % 65536 else y.rxCount }
    refine ⟨_, (if_neg ?_).trans (onCw_of_arrives hcw (by simp) _), creditsTaken_of_eq (by rw [hport]), by rw [hport], hother, rfl⟩
    obtain ⟨-, -, -, hvalid, -, -⟩ := hcw
    rintro hbad
    obtain ⟨hw, hn⟩ := Bool.and_eq_true_iff.mp hbad
    simp [hvalid, hseq hw, x] at hn
  · exact if_pos (by simp [x, hwait, hseq])
  · obtain ⟨hport, hother⟩ := creditsTaken_then (s := s) (port := port) (cw := cw) fun y => { y with cleared := true }
    have hgo : exec (.cwClear port cw) s = .next ((creditsTakenState s port cw).setPort port.toNat fun y => { y with cleared := true }) :=
      onCw_of_arrives (always := false) hcw (fun _ => hwait) fun u => u.setPort port.toNat fun y => { y with cleared := true }
    exact ⟨_, hgo, creditsTaken_of_eq (by rw [hport]), by rw [hport], hother, rfl⟩
  · obtain ⟨hport, hother⟩ := creditsTaken_then (s := s) (port := port) (cw := cw) fun y => { y with escaped := true }
    have hgo : exec (.escape port cw) s = .next ((creditsTakenState s port cw).setPort port.toNat fun y => { y with escaped := true }) :=
      onCw_of_arrives (always := false) hcw (fun _ => hwait) fun u => u.setPort port.toNat fun y => { y with escaped := true }
    exact ⟨_, hgo, creditsTaken_of_eq (by rw [hport]), by rw [hport], hother, rfl⟩
  · have hat : atBoundary s port.toNat = true := by simp [atBoundary, hbusy, hcut, x]
    refine ⟨_, (exec_nakResend_of_late hup hwait hdue hclk).trans (congrArg _ (sendNak_of_boundary hcount hat)), ?_⟩
    have hport := nakSent_port (s := s) (port := port)
    refine ⟨by rw [hport], by rw [hport], by rw [hport], by rw [hport], ?_, fun q hq => ?_, ?_⟩
    · rw [hport]
      exact tget_tmod_self 0 x.ctr (k := 6) (satAdd 32 · 1)
    · exact nakSent_other hq
    · exact nakSent_rest
  · exact (exec_nakResend_of_late hup hwait hdue hclk).trans (congrArg _ (sendNak_of_busy hcount (atBoundary_eq_false hbusy)))
  · exact ⟨(exec_nakResend_of_late hup hwait hdue hclk).trans (congrArg _ ((if_pos hcount).trans (enterRetrain_of_up hup))),
      retrained_retrains⟩

end Sys2Proof.Machine
end

section
/-!
SUPPORT. A header that opens a reception, and the mark its packet bears (O32).
-/

namespace Sys2Proof.Machine

/-- The packet that a header begins bears the number after the last one given. -/
theorem beginPacket_rx (p : Nat) (h : BitVec 256) (n : Nat) (ptp stale dross : Bool) (s : State) :
    ∃ r, ((beginPacket p h n ptp stale dross s).port p).rx = some r ∧ r.ident = s.fab.nextIdent + 1 :=
  ⟨_, congrArg Port.rx (State.setPort_port ..), rfl⟩

theorem receiving_rx (p : Nat) (r : RxPacket) (s : State) : ((receiving p r s).port p).rx = some r :=
  congrArg Port.rx (State.setPort_port { s with fab := { s.fab with nextIdent := s.fab.nextIdent + 1 } } p fun x => { x with rx := some r })

/-- A header with the right check after CLEAR begins a PTP packet (R144). -/
theorem exec_packetHeader_of_cleared {s : State} {port : PortNo} {line : BitVec 256} {early : List Byte} (hup : s.portUp port.toNat = true)
    (hrx : (s.port port.toNat).rx = none) (hwait : (s.port port.toNat).waitReplay = false) (hcleared : (s.port port.toNat).cleared = true)
    (hcheck : hCrc line = headerCrc line) : exec (.packetHeader port ⟨line, early⟩) s =
      .next (beginPacket port.toNat line 0 true false false (s.setPort port.toNat fun y => { y with escaped := false, cleared := false })) := by
  show execPacketHeader port ⟨line, early⟩ s = _
  simp only [execPacketHeader, hup, hrx, hwait, hcleared, hcheck, if_true, ne_eq, not_true, if_false]
  rfl

/-- A module in RUN whose port 0 is UP and has received CLEAR. -/
def clearedState : State :=
  { State.reset with pwr := { Power.reset with mainOn := true }, boot := { Boot.reset with phase := .run } }.setPort 0 fun x =>
    { x with state := .up, cleared := true }

/-- Refutes O32: its receptions bear the fabric's next number as it was, where the module counts it on first and the packet bears the number
after. In `clearedState` a PTP header opens a reception with number 1, and the statement says 0. -/
theorem not_packetHeaders : ¬ Obligations.PacketHeaders := by
  unfold Obligations.PacketHeaders
  intro h
  have hcheck := hCrc_sealHeader (h := 0) (seq := 0)
  have hall := h clearedState 0 (sealHeader 0 0) []
  dsimp only at hall
  obtain ⟨-, -, hup⟩ := hall
  obtain ⟨-, -, hptp, -⟩ := hup rfl rfl rfl
  have hmodel := exec_packetHeader_of_cleared (s := clearedState) (port := 0) (early := []) rfl rfl rfl rfl hcheck
  have hsame := Host.Outcome.next.inj (hmodel.symm.trans (hptp hcheck rfl))
  obtain ⟨r, hrx, hident⟩ := beginPacket_rx (0 : PortNo).toNat (sealHeader 0 0) 0 true false false
    (clearedState.setPort (0 : PortNo).toNat fun y => { y with escaped := false, cleared := false })
  rw [hsame, receiving_rx] at hrx
  have hnumber := congrArg RxPacket.ident (Option.some.inj hrx)
  rw [hident] at hnumber
  exact absurd hnumber (by decide)

end Sys2Proof.Machine
end

section
/-!
SUPPORT. Packets delivered at this module and packets of its own (R124 to R127, R225, R268, R287, R355, R375 to R385): O35, O36 and O40.
-/

namespace Sys2Proof.Machine

section
variable {s : State} {p type : Nat} {q : QPkt} {rest : List QPkt}

/-- The oldest accepted packet of a port is taken out and handled when it has the type. -/
theorem takeInbox_of_first (h : firstAccepted s p type q rest) (f : QPkt → State → State) : takeInbox p type f s = f q (accepted p rest s) := by
  obtain ⟨hinbox, htype⟩ := h
  simp only [takeInbox, hinbox, if_pos htype]
  rfl

/-! ### Requests for a memory station -/

theorem deliverByClass_of_request (hclass : scheduledClass q.pkt.hdr = false) : deliverByClass p q s = deliverRequest q.pkt q.owner s :=
  if_neg (by simp [hclass])

theorem deliverRequest_of_station {st d : Nat} (h : stationCheck s q.pkt = some (st, d)) :
    deliverRequest q.pkt q.owner s = answerDelivered (hDstStation q.pkt.hdr) q.pkt q.owner st d s := by
  simp only [deliverRequest, h]

/-- What a request asks of memory (R126). -/
theorem requestOf_of_type (htype : hType q.pkt.hdr = type) (owner : Requester) (reg : Nat) : requestOf q.pkt owner reg =
    { addr := hAddr q.pkt.hdr, len := if type = 1 then 16 * ((q.pkt.payload.getD 8 0).toNat + 1) else q.pkt.payload.length
      isWrite := type != 1, data := if type = 1 then [] else q.pkt.payload, enables := BitVec.allOnes 64, reg := reg, pkt := some q.pkt
      owner := owner, admitted := false, station := BitVec.ofNat 12 (hDstStation q.pkt.hdr) } := by
  subst htype
  by_cases h : hType q.pkt.hdr = 1 <;> simp [requestOf, readLength, h]

/-- What its region must allow. -/
theorem allows_of_type (type : Nat) : (if (type != 1) = true then rgWrite s else rgRead s) = if type = 1 then rgRead s else rgWrite s := by
  by_cases h : type = 1 <;> simp [h]

theorem deliverRequest_of_error {st d : Nat} (htype : hType q.pkt.hdr = type) (hstation : stationCheck s q.pkt = none)
    (h : requestCheck s (hAddr q.pkt.hdr) (if type = 1 then 16 * ((q.pkt.payload.getD 8 0).toNat + 1) else q.pkt.payload.length)
      (if type = 1 then rgRead s else rgWrite s) (some (hFlask q.pkt.hdr)) q.pkt.inPort = .error (st, d)) :
    deliverRequest q.pkt q.owner s = answerDelivered (hDstStation q.pkt.hdr) q.pkt q.owner st d s := by
  simp only [deliverRequest, hstation, requestOf_of_type htype, allows_of_type, h]

theorem deliverRequest_of_ok {r : Nat} (htype : hType q.pkt.hdr = type) (hstation : stationCheck s q.pkt = none)
    (h : requestCheck s (hAddr q.pkt.hdr) (if type = 1 then 16 * ((q.pkt.payload.getD 8 0).toNat + 1) else q.pkt.payload.length)
      (if type = 1 then rgRead s else rgWrite s) (some (hFlask q.pkt.hdr)) q.pkt.inPort = .ok r) :
    deliverRequest q.pkt q.owner s = enqueueRequest { requestOf q.pkt q.owner 0 with reg := rgFlask s r } s := by
  simp only [deliverRequest, hstation, requestOf_of_type htype, allows_of_type, h]

/-- A request passes its station's checks (R126). -/
theorem stationCheck_passes {k : Packet} (hrun : s.running = true) (hpresent : stationPresent s (hDstStation k.hdr) = true)
    (hflask : stationFlask s (hDstStation k.hdr) = 0 ∨ stationFlask s (hDstStation k.hdr) = hFlask k.hdr)
    (hkind : kindOf (hDstStation k.hdr) = 7) : stationCheck s k = none := by
  simpa [stationCheck, hrun, hpresent, hkind] using hflask.resolve_left

/-- It passes its region's (R355). -/
theorem requestCheck_passes {addr len r f : Nat} {allows : Nat → Bool} {port : Option PortNo} (habsent : absentAddr s addr = false)
    (halign : addr % 16 = 0) (hregion : regionOf s addr len = some r) (hallows : allows r = true) (hflask : f = rgFlask s r)
    (hshake : shaking s r = false) : requestCheck s addr len allows (some f) port = .ok r := by
  simp [requestCheck, habsent, halign, hregion, hallows, hflask, hshake]

/-- Each of the three requests is taken from the front of its port's packets. -/
theorem exec_request_of_first {port : PortNo} {c : Instr} (hc : (type, c) ∈ [(0, Instr.write port), (1, .read port), (2, .readData port)])
    (h : firstAccepted s port.toNat type q rest) (hclass : scheduledClass q.pkt.hdr = false) :
    exec c s = .next (deliverRequest q.pkt q.owner (accepted port.toNat rest s)) := by
  have hgo : exec c s = .next (takeInbox port.toNat type (deliverByClass port.toNat) s) := by
    simp only [List.mem_cons, Prod.mk.injEq, List.not_mem_nil, or_false] at hc
    rcases hc with ⟨rfl, rfl⟩ | ⟨rfl, rfl⟩ | ⟨rfl, rfl⟩ <;> rfl
  rw [hgo, takeInbox_of_first h, deliverByClass_of_request hclass]

end

/-- Settles O35: a request that passes its checks joins the waiting ones, a refused one is answered. -/
theorem requestDeliveries : Obligations.RequestDeliveries := by
  unfold Obligations.RequestDeliveries
  intro s port q rest type c hc hfirst hclass u h a len m
  have hgo : exec c s = .next (deliverRequest q.pkt q.owner u) := exec_request_of_first hc hfirst hclass
  have htype : hType q.pkt.hdr = type := hfirst.2
  refine ⟨fun r hrun hpresent hflask hkind habsent halign hregion hallows howner hshake => ?_, fun st d hst => ?_, fun st d hst hreq => ?_⟩
  · have hallowed : (if type = 1 then rgRead u else rgWrite u) r = true := by
      by_cases h1 : type = 1
      · rw [if_pos h1] at hallows ⊢
        exact hallows
      · rw [if_neg h1] at hallows ⊢
        exact hallows
    rw [hgo, deliverRequest_of_ok (s := u) htype (stationCheck_passes (s := u) hrun hpresent hflask hkind)
      (requestCheck_passes (s := u) habsent halign hregion hallowed howner hshake), requestOf_of_type htype]
    rfl
  · rw [hgo, deliverRequest_of_station hst]
  · rw [hgo, deliverRequest_of_error htype hst hreq]

/-! ### Completions, notices and contributions -/

section
variable {s : State} {p : Nat} {q : QPkt}

theorem consume_fabOnly (bay : Nat) (h : BitVec 256) (owner : Requester) : FabOnly s (consume bay h owner s) := by
  unfold consume
  split
  · rfl
  · rfl

/-- What a completion does once its packet's room is given back (R145, R225). -/
theorem deliverCompletion_eq : deliverCompletion q.pkt q.owner s =
    (let a := hDstStation q.pkt.hdr
     let v := consume (a / 256) q.pkt.hdr q.owner s
     if stationPresent s a = false then countUnanswered q.pkt.inPort v
     else if q.pkt.payload.headD 0 = 0 then sendSignal (s.clk + 1) a (.add 30 1) none v
     else sendSignal (s.clk + 1) a (.set 63) none (v.setStation a fun x => { x with ncpl := BitVec.ofNat 64 (beNat (q.pkt.payload.take 8)) })) := by
  have hfab := consume_fabOnly (s := s) (hDstStation q.pkt.hdr / 256) q.pkt.hdr q.owner
  have hclk : (consume (hDstStation q.pkt.hdr / 256) q.pkt.hdr q.owner s).clk = s.clk := by rw [hfab]
  have hpresent : stationPresent (consume (hDstStation q.pkt.hdr / 256) q.pkt.hdr q.owner s) (hDstStation q.pkt.hdr) =
      stationPresent s (hDstStation q.pkt.hdr) := by rw [hfab]; rfl
  simp only [deliverCompletion, hclk, hpresent, Bool.not_eq_true']

theorem deliverNotice_eq (p : Nat) : deliverNotice p q s =
    if s.running = false then answerDelivered (hDstStation q.pkt.hdr) q.pkt q.owner 0x07 s.boot.phase.code s
    else if hLen q.pkt.hdr = fld (noticeHead q.pkt) 119 112 + 1 then
      actNotice p q.pkt (consume (hDstStation q.pkt.hdr / 256) q.pkt.hdr q.owner s)
    else answerDelivered (hDstStation q.pkt.hdr) q.pkt q.owner 0x03 0 s := by
  by_cases hrun : s.running = false
  · simp [deliverNotice, hrun]
  · by_cases hwhole : hLen q.pkt.hdr = fld (noticeHead q.pkt) 119 112 + 1 <;> simp [deliverNotice, noticeWhole, hrun, hwhole, bayOf]

theorem actNotice_of_entries (hkind : fld (noticeHead q.pkt) 127 120 = 1) (hheat : fld (noticeHead q.pkt) 111 64 = s.job.heat) :
    actNotice p q.pkt s = decide' (each ((noticeItems q.pkt).filter fun it => fld it 127 124 != 2) (entryItem p)
      (each ((noticeItems q.pkt).filter fun it => fld it 127 124 == 2) (entryItem p) s)) := by
  simp [actNotice, hkind, hheat]

theorem actNotice_of_heat (hkind : fld (noticeHead q.pkt) 127 120 = 2) :
    actNotice p q.pkt s = each (noticeItems q.pkt) (heatRetractItem p (fld (noticeHead q.pkt) 111 64)) s := by
  simp [actNotice, hkind]

/-- Lines put on their way keep their order (R155). -/
theorem toIngress_eq (port : PortNo) (k : Packet) (d : Nat) : toIngress port.toNat k (fun _ => d) s =
    { s with fab := { s.fab with flights := s.fab.flights ++ (tileLines k port).map fun l =>
      { due := d, station := ingressOf s port.toNat, qend := 0, line := l, src := none } } } := by
  have hline (ls : List Line) : (((List.range ls.length).zip ls).map fun e : Nat × Line =>
      ({ due := d, station := ingressOf s port.toNat, qend := 0, line := e.2, src := none } : Flight)) =
      ls.map fun l => { due := d, station := ingressOf s port.toNat, qend := 0, line := l, src := none } := by
    have hsnd : ((List.range ls.length).zip ls).map Prod.snd = ls := List.map_snd_zip (by simp)
    conv_rhs => rw [← hsnd]
    rw [List.map_map]
    rfl
  simp only [toIngress, BitVec.ofNat_toNat, BitVec.setWidth_eq, State.setFab, hline]

theorem deliverScheduled_of_removed {w : State} (htype : hType q.pkt.hdr = 6) (h : dropRemoved p q.pkt.hdr s = some w) :
    deliverScheduled p q s = dropStamp q.pkt.ident w := by
  simp only [deliverScheduled, if_pos htype, h]

theorem deliverScheduled_of_bad {st d : Nat} (htype : hType q.pkt.hdr = 6) (hmember : dropRemoved p q.pkt.hdr s = none)
    (h : scheduledBad s q.pkt = some (st, d)) :
    deliverScheduled p q s = refusePacket { q with owner := .none, cells := 0 } st d (dropStamp q.pkt.ident s) := by
  simp only [deliverScheduled, if_pos htype, hmember, h]

theorem deliverScheduled_of_good (htype : hType q.pkt.hdr = 6) (hmember : dropRemoved p q.pkt.hdr s = none) (h : scheduledBad s q.pkt = none)
    (hlate : lateArrival p q.pkt.hdr s = s) : deliverScheduled p q s = toIngress p q.pkt (fun _ => q.since + 32) s := by
  simp only [deliverScheduled, if_pos htype, hmember, h, lateContrib, hlate]

end

/-- Settles O36: a completion signals its station, a notice acts on the ledger, a contribution goes to its port-ingress station. -/
theorem answersNoticesAndContributions : Obligations.AnswersNoticesAndContributions := by
  unfold Obligations.AnswersNoticesAndContributions
  intro s port q rest p u h a
  have hgo : ∀ {type : Nat} (_ : firstAccepted s p type q rest) (f : QPkt → State → State), takeInbox p type f s = f q u :=
    fun hfirst f => takeInbox_of_first hfirst f
  refine ⟨fun hfirst => ⟨fun hpresent hok => ?_, fun hpresent hfail => ?_, fun habsent => ?_⟩,
    fun hfirst => ⟨fun hrun hwhole hkind hheat => ?_, fun hrun hwhole hkind => ?_, fun hrun => ?_, fun hrun hwhole => ?_⟩,
    fun hfirst => ⟨fun w hw => ?_, fun hmember hgood hlate => ?_, fun hmember hrun => ?_⟩⟩
  · refine congrArg Host.Outcome.next ((hgo hfirst _).trans (deliverCompletion_eq.trans ((if_neg ?_).trans (if_pos hok))))
    exact Bool.not_eq_false _ ▸ hpresent
  · refine congrArg Host.Outcome.next ((hgo hfirst _).trans (deliverCompletion_eq.trans ((if_neg ?_).trans (if_neg hfail))))
    exact Bool.not_eq_false _ ▸ hpresent
  · exact congrArg Host.Outcome.next ((hgo hfirst _).trans (deliverCompletion_eq.trans (if_pos habsent)))
  · have hjob : (consume (a / 256) h q.owner u).job = s.job := by rw [consume_fabOnly]; rfl
    exact congrArg Host.Outcome.next ((hgo hfirst _).trans ((deliverNotice_eq p).trans ((if_neg (Bool.not_eq_false _ ▸ hrun)).trans
      ((if_pos hwhole).trans (actNotice_of_entries hkind (hheat.trans (congrArg Job.heat hjob.symm)))))))
  · exact congrArg Host.Outcome.next ((hgo hfirst _).trans ((deliverNotice_eq p).trans ((if_neg (Bool.not_eq_false _ ▸ hrun)).trans
      ((if_pos hwhole).trans (actNotice_of_heat hkind)))))
  · exact congrArg Host.Outcome.next ((hgo hfirst _).trans ((deliverNotice_eq p).trans (if_pos hrun)))
  · exact congrArg Host.Outcome.next ((hgo hfirst _).trans ((deliverNotice_eq p).trans ((if_neg (Bool.not_eq_false _ ▸ hrun)).trans
      (if_neg hwhole))))
  · exact congrArg Host.Outcome.next ((hgo hfirst _).trans (deliverScheduled_of_removed hfirst.2 hw))
  · exact congrArg Host.Outcome.next ((hgo hfirst _).trans ((deliverScheduled_of_good hfirst.2 hmember hgood hlate).trans (toIngress_eq port _ _)))
  · refine congrArg Host.Outcome.next ((hgo hfirst _).trans (deliverScheduled_of_bad hfirst.2 hmember ?_))
    exact if_pos ((Bool.not_eq_true' _).mpr hrun)

/-! ### Posts, queues, flowlets and notices that leave -/

section
variable {s : State}

theorem sendNotice_of_none {port : Nat} (h : noticeGroup s port = []) : sendNotice port s = s := by simp only [sendNotice, h]

theorem sendNotice_of_group {port : Nat} {n : PendingNotice} {ns : List PendingNotice} (h : noticeGroup s port = n :: ns) :
    sendNotice port s =
      enqueueEgress port { pkt := noticePacket s n ((n :: ns).map (·.item)), owner := .none
                           cells := cellsOf (noticePacket s n ((n :: ns).map (·.item))).hdr, ring := 0, since := s.clk, targets := [port]
                           reserved := [] }
        { s with ledger := { s.ledger with notices := (n :: ns).foldl (fun m e => m.erase e) s.ledger.notices } } := by
  simp only [sendNotice, h]
  rfl

theorem queueRelease_of_none {key : Nat} (h : tget [] s.fab.leaving key = []) : queueRelease key s = s := by simp only [queueRelease, h]

theorem queueRelease_of_first {key : Nat} {q : QPkt} {rest : List QPkt} (h : tget [] s.fab.leaving key = q :: rest) :
    queueRelease key s = release q.owner q.cells (poolPop key q.cells
      { s with fab := { s.fab with leaving := tmod [] s.fab.leaving key List.tail } }) := by
  simp only [queueRelease, h]
  rfl

/-- The oldest post as it leaves its station's buffer, charged to it (R182, R225). -/
def postTaken (a : Nat) (k : Packet) (rest : List Packet) (s : State) : State :=
  charge (.station (BitVec.ofNat 12 a)) (cellsOf k.hdr)
    (sendSignal (s.clk + 1) a (.add 31 1) none (s.setStation a fun x => { x with postBuf := rest }))

/-- A station's oldest post, once its quota has room, goes by its header (R126, R225). -/
theorem postRelease_of_first {a : Nat} {k : Packet} {rest : List Packet} (hfirst : (s.station a).postBuf = k :: rest) (hrun : s.running = true) :
    postRelease a s =
      (let q := ownPacket a k s
       let v := postTaken a k rest s
       if quotaRoom s a (cellsOf k.hdr) = false then s
       else if typeAllowed k.hdr = false ∨ hVer k.hdr ≠ 1 then refusePacket q 0x06 (fld k.hdr 255 240) v
       else if addressedHere s k.hdr = true then placeLocal q (.station (BitVec.ofNat 12 (hDstStation k.hdr))) (hDstStation k.hdr) v
       else if hAddr k.hdr % 16 ≠ 0 ∧ hType k.hdr ≠ 3 then refusePacket q 0x04 0 v
       else forwardPacket q v) := by
  have hhere : addressedHere (postTaken a k rest s) k.hdr = addressedHere s k.hdr := by
    have hcfg : (postTaken a k rest s).cfg = s.cfg := (charge_samePattern ..).cfg
    simp only [addressedHere, State.moduleId, State.cfgw, hcfg]
  have hq : ownPacket a k (sendSignal (s.clk + 1) a (.add 31 1) none (s.setStation a fun x => { x with postBuf := rest })) = ownPacket a k s := rfl
  simp only [postRelease, hfirst, hrun, Bool.not_true, Bool.false_or, Bool.not_eq_true', hq, Bool.or_eq_true, decide_eq_true_eq,
    Bool.and_eq_true, ← hhere]
  rfl

end

/-- Settles O40: a post goes by its header, a queue's first packet gives its room back, old flowlets end and notices leave together. -/
theorem releasesSweepsAndNotices : Obligations.ReleasesSweepsAndNotices := by
  unfold Obligations.ReleasesSweepsAndNotices
  intro s
  refine ⟨fun st k rest => ?_, fun q k rest h => congrArg _ (queueRelease_of_first h), fun q h => congrArg _ (queueRelease_of_none h),
    fun hrun => congrArg _ (if_pos hrun), fun port hon => ⟨fun h => ?_, fun n ns h => ?_⟩⟩
  · intro a u hfirst hrun
    have hgo : exec (.postRelease st) s = .next (postRelease a u) := rfl
    clear_value u
    rw [postRelease_of_first hfirst hrun] at hgo
    refine ⟨fun hroom => hgo.trans (congrArg _ (if_pos hroom)), fun hroom => ?_⟩
    have hgo := hgo.trans (congrArg _ (if_neg (Bool.not_eq_false _ ▸ hroom)))
    refine ⟨fun hbad => hgo.trans (congrArg _ (if_pos hbad)), fun htype hver hhere => ?_, fun htype hver hhere => ?_⟩
    · have hgo := hgo.trans (congrArg _ ((if_neg (by simp [htype, hver])).trans (if_neg (by simp [hhere]))))
      exact ⟨fun hgood => hgo.trans (congrArg _ (if_neg fun hb => hgood.elim hb.1 hb.2)),
        fun halign hkind => hgo.trans (congrArg _ (if_pos ⟨halign, hkind⟩))⟩
    · exact hgo.trans (congrArg _ ((if_neg (by simp [htype, hver])).trans (if_pos hhere)))
  · exact congrArg Host.Outcome.next ((if_pos hon).trans (sendNotice_of_none h))
  · exact congrArg Host.Outcome.next ((if_pos hon).trans (sendNotice_of_group h))

end Sys2Proof.Machine
end

section
/-!
SUPPORT. The host's accesses of the stacked memory (R355, R360, R409, R410): O23.
-/

namespace Sys2Proof.Machine

section
variable {s : State} {addr : Word} {m : MemRequest}

theorem addUpsets_nil : addUpsets [] s = s := by
  simp [addUpsets, State.setMem]

theorem exec_cxlMemRead_of_on (hon : s.pwr.mainOn = true) (halign : addr.toNat % 64 = 0) :
    exec (.cxlMemRead addr 64 []) s = .next (hostRequest (hostReq addr false [] 0) s) :=
  (if_neg (by simp [halign])).trans (congrArg Host.Outcome.next ((if_pos hon).trans (congrArg (hostRequest _) addUpsets_nil)))

theorem exec_cxlMemWrite_of_on {data : List Byte} {enables : BitVec 64} (hon : s.pwr.mainOn = true) (halign : addr.toNat % 64 = 0)
    (hlen : data.length = 64) : exec (.cxlMemWrite addr data enables []) s = .next (hostRequest (hostReq addr true data enables) s) :=
  (if_neg (by simp [halign, hlen])).trans (congrArg Host.Outcome.next ((if_pos hon).trans (congrArg (hostRequest _) addUpsets_nil)))

/-- A refused access is answered at once (R409). -/
theorem hostRequest_of_refused (hlink : s.host.linkUp = true) {e : Nat × Nat}
    (h : requestCheck s m.addr m.len (hostAllows s m.isWrite) none none = .error e) : hostRequest m s = refuseHost m s := by
  simp only [hostRequest, hlink, h]
  rfl

/-! ### Outside RUN with nothing waiting -/

/-- Outside RUN no regulator and no slot bounds an access. -/
theorem noteUnsched_of_not_running (hrun : s.running = false) (a len : Nat) : noteUnsched a len s = s := if_neg (by simp [hrun])

theorem spanFree_of_not_running (hrun : s.running = false) (a len : Nat) : spanFree s a len = true := by
  rw [spanFree, List.all_eq_true]
  intro e _
  simp [freeAt, hrun]

theorem enqueueRequest_of_not_running (hrun : s.running = false) (hwait : s.mem.waiting = []) :
    enqueueRequest m s = { s with mem := { s.mem with waiting := [{ m with admitted := true }] } } := by
  have hfits : fitsRegulator s m = true := by simp [fitsRegulator, hrun]
  have hcharge : chargeRegulator m s = s := if_neg (by simp [hrun])
  simp only [enqueueRequest, hfits, hwait, hcharge, List.any_nil, Bool.not_false, Bool.and_true, if_true]
  simp only [State.setMem, hwait, List.nil_append]

/-- A host's request as it is made, or left waiting. -/
def madeNow (x : MemRequest) (u : State) : State :=
  if x.admitted && hostFirst u x && !requestsYield u (stackOf x.addr) && performable u x then
    performRequest x (u.setMem fun y => { y with waiting := y.waiting.erase x })
  else u

/-- The only request that waits, the host's, is made. -/
theorem madeNow_of_singleton {u : State} {x : MemRequest} (hwait : u.mem.waiting = [x]) (hadm : x.admitted = true) (hpkt : x.pkt = none)
    (hrun : u.running = false) (hyield : requestsYield u (stackOf x.addr) = false) :
    madeNow x u = performHost x { u with mem := { u.mem with waiting := [] } } := by
  have hfirst : hostFirst u x = true := by simp [hostFirst, hwait, hpkt]
  have hperf : performable u x = true := by simp [performable, spanFree_of_not_running hrun, hpkt]
  refine (if_pos (by simp [hadm, hfirst, hyield, hperf])).trans ?_
  have hleft : u.setMem (fun y => { y with waiting := y.waiting.erase x }) = { u with mem := { u.mem with waiting := [] } } := by
    simp only [State.setMem, hwait, List.erase_cons_head]
  rw [hleft, performRequest, noteUnsched_of_not_running (s := { u with mem := { u.mem with waiting := [] } }) hrun, hpkt]

/-- An allowed access with nothing ahead of it is made at once (R355). -/
theorem hostRequest_of_free (hlink : s.host.linkUp = true) (hrun : s.running = false) (hwait : s.mem.waiting = [])
    (hcap : s.cap.running = false) (hyield : requestsYield s (stackOf m.addr) = false) (hpkt : m.pkt = none) {r : Nat}
    (h : requestCheck s m.addr m.len (hostAllows s m.isWrite) none none = .ok r) :
    hostRequest m s = performHost { m with admitted := true } s := by
  have hpickup : capturePickup m r s = s := if_neg (by simp [hcap])
  have hgo : hostRequest m s = madeNow { m with admitted := true } { s with mem := { s.mem with waiting := [{ m with admitted := true }] } } := by
    simp only [hostRequest, hlink, h, hpickup, enqueueRequest_of_not_running hrun hwait, List.getLast?_singleton]
    rfl
  rw [hgo, madeNow_of_singleton (u := { s with mem := { s.mem with waiting := [{ m with admitted := true }] } }) rfl rfl hpkt hrun hyield]
  exact congrArg (fun w => performHost { m with admitted := true } { s with mem := { s.mem with waiting := w } }) hwait.symm

/-! ### One line -/

theorem spanLines_of_line {a : Nat} (halign : a % 64 = 0) : spanLines a 64 = [a] := by
  have hcount : (a % 64 + 64 + 63) / 64 = 1 := by omega
  have hline : a / 64 * 64 = a := by omega
  simp [spanLines, hcount, hline]

/-- A sound line is read as it is stored, and is not lost (R359, R360). -/
theorem readLine_of_clean {a : Nat} (hbus : a ∉ s.mem.busErr) (hrun : s.running = false) (herr : tget [] s.mem.errors a = []) (source : Nat) :
    readLine a source false s = (some (cellRead s.mem.cells a 64, false), lostClear a s) := by
  have hinj : injects s s.inj.hbm = false := by simp [injects, hrun]
  exact readLine_of_sound s a source hbus hinj (by rw [herr, lineOutcome_of_no_error]; rfl)

theorem readSpan_of_clean {a : Nat} (halign : a % 64 = 0) (hbus : a ∉ s.mem.busErr) (hrun : s.running = false)
    (herr : tget [] s.mem.errors a = []) (source : Nat) :
    readSpan a 64 source s = (some (cellRead s.mem.cells a 64), lostClear a s) := by
  have hlen : (cellRead s.mem.cells a 64).length = 64 := by simp [cellRead]
  simp only [readSpan, spanLines_of_line halign, readLines, List.foldl_cons, List.foldl_nil, readLine_of_clean hbus hrun herr, halign,
    List.nil_append, List.drop_zero]
  rw [List.take_of_length_le (by rw [hlen])]

theorem mergeEnabled_allOnes {new old : List Byte} (hlen : new.length = 64) : mergeEnabled (BitVec.allOnes 64) new old = new := by
  apply List.ext_getElem
  · simp [mergeEnabled, hlen]
  · intro i hi hn
    have hlt : i < 64 := hlen ▸ hn
    simp only [mergeEnabled, List.getElem_map, List.getElem_range, BitVec.getLsbD_allOnes, hlt, decide_true, if_true]
    rw [List.getD_eq_getElem _ _ hn]

/-- The memory once a host's write of a line is made: the enabled bytes over the stored ones (R355, R409). -/
def hostWritten (s : State) (a : Nat) (data : List Byte) (enables : BitVec 64) : State := { s with mem := { s.mem with
  cells := cellWrite s.mem.cells a (mergeEnabled enables data (cellRead s.mem.cells a 64)), errors := tdel s.mem.errors a
  writeBack := s.mem.writeBack.filter (·.1 != a), lost := s.mem.lost.filter (·.line != a) } }

/-- A host's write leaves the enabled bytes over the stored ones, and nothing else of the line's state (R355, R409). -/
theorem writeHostLine_of_clean (hbus : m.addr ∉ s.mem.busErr) (hrun : s.running = false) (herr : tget [] s.mem.errors m.addr = [])
    (hlen : m.data.length = 64) : writeHostLine m s = (true, hostWritten s m.addr m.data m.enables) := by
  unfold hostWritten
  unfold writeHostLine
  split
  · rename_i hall
    rw [writeLine_of_sound _ _ _ _ hbus, putLine64_eq, hall, mergeEnabled_allOnes hlen]
  · rw [readLine_of_clean hbus hrun herr]
    dsimp only
    rw [writeLine_of_sound (lostClear m.addr s) _ _ _ hbus, putLine64_eq]
    simp only [lostClear, State.setMem, List.filter_filter, Bool.and_self]

/-! ### Pickup words -/

/-- A host's write that is made copies the pickup words it touches and is acknowledged (R409, R410). -/
theorem performHost_of_written {v : State} (hwrite : m.isWrite = true) (h : writeHostLine m s = (true, v)) :
    performHost m s = { copyPickups (fun b => b == m.addr && m.enables.setWidth 8 != 0#8) v with
      out := .cxlDone :: (copyPickups (fun b => b == m.addr && m.enables.setWidth 8 != 0#8) v).out } := by
  simp only [performHost, hwrite, h, if_true]
  rfl

/-- The copy of one pickup region's first word. -/
def copyPickup (r : Nat) (s : State) : State := s.setMem fun m =>
  { m with pickCopy := tset m.pickCopy r (BitVec.ofNat 64 (leNat (cellRead m.cells (rgBase s r) 8))) }

theorem each_copyPickup (l : List Nat) (s : State) :
    each l copyPickup s = { s with mem := { s.mem with pickCopy := (each l copyPickup s).mem.pickCopy } } ∧
    ∀ r, tget 0 (each l copyPickup s).mem.pickCopy r =
      if r ∈ l then BitVec.ofNat 64 (leNat (cellRead s.mem.cells (rgBase s r) 8)) else tget 0 s.mem.pickCopy r := by
  induction l generalizing s with
  | nil => exact ⟨rfl, fun r => by simp [each]⟩
  | cons r₀ l ih =>
    obtain ⟨hrest, hcopy⟩ := ih (copyPickup r₀ s)
    refine ⟨hrest, fun r => (hcopy r).trans ?_⟩
    have hone : tget 0 (copyPickup r₀ s).mem.pickCopy r =
        if r = r₀ then BitVec.ofNat 64 (leNat (cellRead s.mem.cells (rgBase s r₀) 8)) else tget 0 s.mem.pickCopy r := tget_tset ..
    have hread : leNat (cellRead (copyPickup r₀ s).mem.cells (rgBase (copyPickup r₀ s) r) 8) = leNat (cellRead s.mem.cells (rgBase s r) 8) := rfl
    rw [hone, hread]
    by_cases hr : r = r₀
    · subst hr
      simp
    · simp [hr]

/-- The copy of each pickup region that a host's write touches is the word at the region's start (R410). -/
theorem copyPickups_eq (hits : Nat → Bool) (s : State) :
    copyPickups hits s = { s with mem := { s.mem with pickCopy := (copyPickups hits s).mem.pickCopy } } ∧
    ∀ r, tget 0 (copyPickups hits s).mem.pickCopy r = if r ∈ regions s ∧ rgKind s r = 1 ∧ hits (rgBase s r) = true then
      BitVec.ofNat 64 (leNat (cellRead s.mem.cells (rgBase s r) 8)) else tget 0 s.mem.pickCopy r := by
  obtain ⟨hrest, hcopy⟩ := each_copyPickup ((regions s).filter fun r => rgKind s r == 1 && hits (rgBase s r)) s
  refine ⟨hrest, fun r => (hcopy r).trans ?_⟩
  simp only [List.mem_filter, Bool.and_eq_true, beq_iff_eq]

end

/-- Settles O23: a refused access is answered as R409 says, an allowed one with nothing ahead of it is made at once. -/
theorem hostMemoryAccess : Obligations.HostMemoryAccess := by
  unfold Obligations.HostMemoryAccess
  intro s addr data enables hon hlink halign hlen
  refine ⟨fun e he => ?_, fun e he => ?_, fun hphase hwait herr hbus hcap hyield => ⟨fun r hr => ?_, fun r hr => ?_⟩⟩
  · rw [exec_cxlMemRead_of_on hon halign, hostRequest_of_refused hlink he]
    rfl
  · rw [exec_cxlMemWrite_of_on hon halign hlen, hostRequest_of_refused hlink he]
    rfl
  · have hrun : s.running = false := by simpa [State.running] using hphase
    rw [exec_cxlMemRead_of_on hon halign, hostRequest_of_free hlink hrun hwait hcap hyield rfl hr]
    refine congrArg Host.Outcome.next ((if_neg (by simp [hostReq])).trans ?_)
    simp only [hostReq, readSpan_of_clean halign hbus hrun herr]
    rfl
  · have hrun : s.running = false := by simpa [State.running] using hphase
    have hwrite := writeHostLine_of_clean (s := s) (m := { hostReq addr true data enables with admitted := true }) hbus hrun herr hlen
    obtain ⟨hrest, hcopy⟩ := copyPickups_eq (fun b => b == addr.toNat && enables.setWidth 8 != 0#8) (hostWritten s addr.toNat data enables)
    have hgo : exec (.cxlMemWrite addr data enables []) s = .next
        { copyPickups (fun b => b == addr.toNat && enables.setWidth 8 != 0#8) (hostWritten s addr.toNat data enables) with
          out := .cxlDone :: (copyPickups (fun b => b == addr.toNat && enables.setWidth 8 != 0#8) (hostWritten s addr.toNat data enables)).out } :=
      (exec_cxlMemWrite_of_on (enables := enables) hon halign hlen).trans (congrArg Host.Outcome.next
        ((hostRequest_of_free hlink hrun hwait hcap hyield rfl hr).trans (performHost_of_written rfl hwrite)))
    generalize copyPickups (fun b => b == addr.toNat && enables.setWidth 8 != 0#8) (hostWritten s addr.toNat data enables) = t at *
    refine ⟨_, hgo, ?_, ?_, fun r => ?_⟩
    · rw [hrest]; rfl
    · exact congrArg State.mem hrest
    · have hcells : t.mem.cells = (hostWritten s addr.toNat data enables).mem.cells := by rw [hrest]
      refine (hcopy r).trans ?_
      simp only [Bool.and_eq_true, beq_iff_eq, bne_iff_ne, ne_eq, hcells]
      by_cases hhit : r ∈ regions s ∧ rgKind s r = 1 ∧ rgBase s r = addr.toNat ∧ ¬ enables.setWidth 8 = 0#8
      · obtain ⟨hr, hk, hbase, hlow⟩ := hhit
        rw [if_pos ⟨hr, hk, hbase, hlow⟩, if_pos ⟨hr, hk, hbase, hlow⟩]
        exact congrArg (fun b => BitVec.ofNat 64 (leNat (cellRead (hostWritten s addr.toNat data enables).mem.cells b 8))) hbase
      · rw [if_neg hhit]
        exact if_neg hhit

end Sys2Proof.Machine
end

section
/-!
SUPPORT. Capture records written and replayed (R399 to R403): O60.
-/

namespace Sys2Proof.Machine

/-! ### CAPTURE_RECORD -/

section
variable {s : State} {d : Nat} {r : List Byte} {rest : List (List Byte)}

/-- A record that marks its place between the dies: HEAT or END (R401). -/
def isMark (r : List Byte) : Prop := 3 ≤ (r.getD 7 0).toNat / 16

theorem nextCapture_of_empty (h : tget [] s.cap.buffer d = []) : nextCapture s d = none := by simp only [nextCapture, h]

/-- Die 1 waits at the mark of a record that die 0 writes. -/
theorem nextCapture_of_waiting_one (h : tget [] s.cap.buffer 1 = [] :: rest) : nextCapture s 1 = none := by
  simp only [nextCapture, h]
  rfl

/-- Die 0 waits with a marking record until die 1 has come to its mark. -/
theorem nextCapture_of_waiting_zero (h : tget [] s.cap.buffer 0 = r :: rest) (hmark : isMark r)
    (hother : (tget [] s.cap.buffer 1).head? ≠ some []) : nextCapture s 0 = none := by
  simp only [nextCapture, h]
  exact (if_neg (by decide)).trans (if_pos (Bool.and_eq_true_iff.mpr ⟨decide_eq_true (p := 3 ≤ (r.getD 7 0).toNat / 16) hmark, bne_iff_ne.mpr hother⟩))

theorem nextCapture_of_first_one (h : tget [] s.cap.buffer 1 = r :: rest) (hr : r ≠ []) : nextCapture s 1 = some r := by
  simp only [nextCapture, h]
  exact (if_pos trivial).trans (if_neg (by simpa using hr))

theorem nextCapture_of_first_zero (h : tget [] s.cap.buffer 0 = r :: rest)
    (hother : isMark r → (tget [] s.cap.buffer 1).head? = some []) : nextCapture s 0 = some r := by
  simp only [nextCapture, h]
  refine (if_neg (by decide)).trans (if_neg ?_)
  rintro hwait
  simp only [Bool.and_eq_true, decide_eq_true_eq, bne_iff_ne] at hwait
  exact hwait.2 (hother hwait.1)

theorem captureRecord_of_none (h : nextCapture s d = none) : captureRecord d s = s := by simp only [captureRecord, h]

/-- A record that fits is written where its slots are free (R401). -/
theorem captureRecord_of_free (h : nextCapture s d = some r) (hfits : 64 * s.cap.written + r.length ≤ rgBytes s (captureRegion s))
    (hfree : spanFree s (captureAddr s) r.length = true) : captureRecord d s = writeRecord r (dropCapture d r s) := by
  simp only [captureRecord, h, captureFits, hfits, hfree, decide_true, Bool.not_true, if_true]
  rfl

theorem captureRecord_of_busy (h : nextCapture s d = some r) (hfits : 64 * s.cap.written + r.length ≤ rgBytes s (captureRegion s))
    (hfree : spanFree s (captureAddr s) r.length = false) : captureRecord d s = s := by
  simp only [captureRecord, h, captureFits, hfits, hfree, decide_true, Bool.not_true]
  rfl

theorem captureRecord_of_full (h : nextCapture s d = some r) (hfits : rgBytes s (captureRegion s) < 64 * s.cap.written + r.length) :
    captureRecord d s = captureFull s := by
  simp only [captureRecord, h, captureFits, decide_eq_false (Nat.not_le.mpr hfits), Bool.not_false, if_true]

theorem dropCapture_eq : dropCapture d r s = { s with cap := { s.cap with
    buffer :=
      let b := tset s.cap.buffer d (tget [] s.cap.buffer d).tail
      if d = 0 && 3 ≤ (r.getD 7 0).toNat / 16 then tset b 1 (tget [] b 1).tail else b } } := rfl

/-- The record leaves its own buffer, and a marking one die 1's mark with it. -/
theorem dropCapture_of_plain (h : tget [] s.cap.buffer d = r :: rest) (hplain : d = 1 ∨ ¬ isMark r) :
    dropCapture d r s = { s with cap := { s.cap with buffer := tset s.cap.buffer d rest } } := by
  have hkeep : ¬ (decide (d = 0) && decide (3 ≤ (r.getD 7 0).toNat / 16)) = true := by
    rw [Bool.and_eq_true, decide_eq_true_eq, decide_eq_true_eq]
    rintro ⟨rfl, hmark⟩
    exact hplain.elim (by decide) fun hnot => hnot hmark
  rw [dropCapture_eq]
  dsimp only
  rw [if_neg hkeep, h, List.tail_cons]

theorem dropCapture_of_mark (h : tget [] s.cap.buffer 0 = r :: rest) (hmark : isMark r) :
    dropCapture 0 r s = { s with cap := { s.cap with
      buffer := tset (tset s.cap.buffer 0 rest) 1 (tget [] (tset s.cap.buffer 0 rest) 1).tail } } := by
  have hkeep : (decide ((0 : Nat) = 0) && decide (3 ≤ (r.getD 7 0).toNat / 16)) = true :=
    Bool.and_eq_true_iff.mpr ⟨rfl, decide_eq_true hmark⟩
  rw [dropCapture_eq]
  dsimp only
  rw [if_pos hkeep, h, List.tail_cons]

/-- A region with no room for the record, nor for END, ends the recording (R399, R401). -/
theorem captureFull_of_no_room (h : rgBytes s (captureRegion s) < 64 * s.cap.written + 64) :
    captureFull s = { s with cap := { s.cap with full := true, buffer := [] } } := by
  simp only [captureFull, captureFits, decide_eq_false (Nat.not_le.mpr h)]
  rfl

theorem writeRecord_eq (r : List Byte) (s : State) : writeRecord r s =
    { (writeSpan (captureAddr s) r 1 (noteUnsched (captureAddr s) r.length s)).2 with
      cap := { (writeSpan (captureAddr s) r 1 (noteUnsched (captureAddr s) r.length s)).2.cap with
        written := (writeSpan (captureAddr s) r 1 (noteUnsched (captureAddr s) r.length s)).2.cap.written + r.length / 64 } } := rfl

theorem leBytes_length (n v : Nat) : (leBytes n v).length = n := by
  induction n generalizing v with
  | zero => rfl
  | succ n ih => simp [leBytes, ih]

/-- Every record fills whole lines (R401); END takes one. -/
theorem endRecord_length : (endRecord s).length = 64 := by
  simp [endRecord, captureBytes, leBytes_length]

/-- END is written where only it fits. -/
theorem captureFull_of_room (h : 64 * s.cap.written + 64 ≤ rgBytes s (captureRegion s)) :
    captureFull s =
      (let v := (writeSpan (captureAddr s) (endRecord s) 1 (noteUnsched (captureAddr s) 64 s)).2
       { v with cap := { v.cap with written := v.cap.written + 1, full := true, buffer := [] } }) := by
  simp only [captureFull, captureFits, decide_eq_true h, if_true]
  rw [writeRecord_eq, endRecord_length]
  rfl

end

/-! ### REPLAY_RECORD -/

section
variable {s : State} {r : CapRec}

/-- The replay's place after a record (R403). -/
def recordTaken (r : CapRec) (s : State) : State := { s with cap := { s.cap with
  replayNext := s.cap.replayNext + (32 + r.body.length + 63) / 64 * 64, injected := min (s.cap.injected + 1) (2 ^ 32 - 1) } }

theorem replayRecord_of_none (hrun : s.running = true) (hactive : s.cap.replayActive = true) (h : nextRecord s = none) :
    replayRecord s = endReplay s := by
  simp only [replayRecord, hrun, hactive, h]
  rfl

theorem replayRecord_of_early (hrun : s.running = true) (hactive : s.cap.replayActive = true) (h : nextRecord s = some r)
    (hdue : recordDue s r = false) : replayRecord s = s := by
  simp only [replayRecord, hrun, hactive, h, hdue]
  rfl

theorem replayRecord_of_end (hrun : s.running = true) (hactive : s.cap.replayActive = true) (h : nextRecord s = some r) (hkind : r.kind = 4) :
    replayRecord s = endReplay s := by
  have hdue : recordDue s r = true := by simp only [recordDue, hkind]
  simp only [replayRecord, hrun, hactive, h, hdue, hkind]
  rfl

/-- A record that is due and no END is taken by its kind (R403). -/
theorem replayRecord_of_due (hrun : s.running = true) (hactive : s.cap.replayActive = true) (h : nextRecord s = some r)
    (hdue : recordDue s r = true) (hkind : r.kind ≠ 4) : replayRecord s =
      match r.kind with
      | 1 => replayPacket r (recordTaken r s)
      | 2 => replayPickup r (recordTaken r s)
      | _ => replayHeat (recordTaken r s) := by
  simp only [replayRecord, hrun, hactive, h, hdue, if_neg hkind]
  rfl

end

/-! ### The packet of a record -/

section
variable {s : State} {r : CapRec}

/-- The header, payload and trailer of a packet record (R399). -/
def recordHeader (r : CapRec) : BitVec 256 := BitVec.ofNat 256 (beNat (r.body.take 32))
def recordPayload (r : CapRec) : List Byte := (r.body.drop 32).take (r.body.length - 40)
def recordTrailer (r : CapRec) : Word := BitVec.ofNat 64 (beNat (r.body.drop (r.body.length - 8)))

/-- The state once a packet record's header has passed its port (R56, R403). -/
def recordPassed (r : CapRec) (s : State) : State :=
  noteStamp r.unit (recordRx r.unit r (recordHeader r) false s) { s with fab := { s.fab with nextIdent := s.fab.nextIdent + 1 } }

theorem replayPacket_of_wrong_length (h : r.body.length ≠ 40 + payloadLen (recordHeader r)) : replayPacket r s = countReplayDrop s := if_pos h

theorem police_of_not_policed {p : Nat} {h : BitVec 256} (hnot : ¬ isPoliced s p h) : police p h s = (false, s) := by
  refine if_pos ?_
  by_contra hpol
  simp only [Bool.or_eq_true, Bool.not_eq_true', beq_iff_eq, not_or, Bool.not_eq_false] at hpol
  obtain ⟨⟨⟨hrun, hbit⟩, htwo⟩, hthree⟩ := hpol
  exact hnot ⟨hrun, hbit, htwo, hthree⟩

/-- A packet that no policer turns away and no port uses early goes in whole (R403). -/
theorem replayPacket_of_unpoliced (hlen : r.body.length = 40 + payloadLen (recordHeader r))
    (hpol : hType (recordHeader r) = 4 ∨ ¬ isPoliced s r.unit (recordHeader r))
    (hearly : usedEarly (recordPassed r s) r.unit (recordRx r.unit r (recordHeader r) false s) (recordPayload r) = false) :
    replayPacket r s = recordEnd r.unit r (recordRx r.unit r (recordHeader r) false s)
      (rxPacket r.unit (recordRx r.unit r (recordHeader r) false s) (recordPayload r) (recordTrailer r) (r.flags / 2 % 2 == 1) true)
      (recordPassed r s) := by
  have hpoliced : (if hType (recordHeader r) = 4 then (false, s) else police r.unit (recordHeader r) s) = (false, s) := by
    split
    · rfl
    · rename_i hother
      exact police_of_not_policed (hpol.resolve_left hother)
  have hstart : startEarly r.unit (recordRx r.unit r (recordHeader r) false s) (recordPayload r) (recordPassed r s) =
      (recordRx r.unit r (recordHeader r) false s, recordPassed r s) := if_neg (by simp [hearly])
  refine (if_neg (not_not.mpr hlen)).trans ?_
  show (match (if hType (recordHeader r) = 4 then (false, s) else police r.unit (recordHeader r) s) with
    | (dross, s) =>
      match startEarly r.unit (recordRx r.unit r (recordHeader r) dross s) (recordPayload r)
        (noteStamp r.unit (recordRx r.unit r (recordHeader r) dross s) (s.setFab fun f => { f with nextIdent := f.nextIdent + 1 })) with
      | (rx, s) => recordEnd r.unit r rx (rxPacket r.unit rx (recordPayload r) (recordTrailer r) (r.flags / 2 % 2 == 1) true) s) = _
  rw [hpoliced]
  show (match startEarly r.unit (recordRx r.unit r (recordHeader r) false s) (recordPayload r) (recordPassed r s) with
      | (rx, s) => recordEnd r.unit r rx (rxPacket r.unit rx (recordPayload r) (recordTrailer r) (r.flags / 2 % 2 == 1) true) s) = _
  rw [hstart]

/-! What the record's trailer makes of its packet. -/

theorem recordEnd_of_ptp {rx : RxPacket} {k : Packet} {p : Nat} (h : rx.ptp = true) :
    recordEnd p r rx k s = takePtp p rx k (decide (r.flags % 2 = 0)) s := if_pos h

theorem recordEnd_of_failed {rx : RxPacket} {k : Packet} {p : Nat} (hptp : rx.ptp = false) (h : r.flags % 2 = 1) (hearly : rx.early = false) :
    recordEnd p r rx k s = dropStamp rx.ident s :=
  (if_neg (by simp [hptp])).trans ((if_pos h).trans (if_neg (by simp [hearly])))

theorem recordEnd_of_stomped {rx : RxPacket} {k : Packet} {p : Nat} (hptp : rx.ptp = false) (h : ¬ r.flags % 2 = 1) (hstomp : k.stomped = true)
    (hearly : rx.early = false) : recordEnd p r rx k s = dropStamp rx.ident (countRx p rx.hdr (bumpPort p 5 1 s)) :=
  (if_neg (by simp [hptp])).trans ((if_neg h).trans ((if_pos hstomp).trans (if_neg (by simp [hearly]))))

theorem recordEnd_of_good {rx : RxPacket} {k : Packet} {p : Nat} (hptp : rx.ptp = false) (h : ¬ r.flags % 2 = 1) (hstomp : k.stomped = false) :
    recordEnd p r rx k s = enterPacket p rx k (countRx p rx.hdr s) :=
  (if_neg (by simp [hptp])).trans ((if_neg h).trans (if_neg (by simp [hstomp])))

/-- A PTP packet of a record is taken or counted as one from the line is (R22, R144). -/
theorem takePtp_untapped {rx : RxPacket} {k : Packet} {p : Nat} {ok : Bool} (htype : hType rx.hdr = 4) (htap : bit (portTap s p) 4 = false) :
    takePtp p rx k ok s = if ok = true ∧ rx.bad = none ∧ (k.payload.headD 0).toNat % 16 ∈ [0, 1, 9, 11] then countRx p rx.hdr s
      else bumpPort p 10 1 s := by
  have hcond : (ok && hType rx.hdr == 4 && rx.bad.isNone && ptpSupported k.payload) = true ↔
      ok = true ∧ rx.bad = none ∧ (k.payload.headD 0).toNat % 16 ∈ [0, 1, 9, 11] := by
    simp only [Bool.and_eq_true, htype, beq_self_eq_true, and_true, Option.isNone_iff_eq_none, ptpSupported_iff, and_assoc]
  unfold takePtp
  by_cases h : ok = true ∧ rx.bad = none ∧ (k.payload.headD 0).toNat % 16 ∈ [0, 1, 9, 11]
  · rw [if_pos (hcond.mpr h), if_pos h]
    exact if_neg (by rw [show bit (portTap (countRx p rx.hdr s) p) 4 = false from htap]; simp)
  · rw [if_neg fun hc => h (hcond.mp hc), if_neg h]

theorem recordDue_iff : recordDue s r = true ↔ match r.kind with
    | 3 => s.cap.replayHeats ≤ s.job.slot
    | 4 => True
    | _ => r.heat = s.job.heat ∧ (r.pour < s.job.pour ∨ r.pour = s.job.pour ∧ r.clk ≤ s.pourOff) := by
  unfold recordDue
  generalize r.kind = k
  split
  · simp
  · simp
  · simp

end

/-- Settles O60: a record is written where it fits and its slots are free, and a replayed one acts by its kind at its clk. -/
theorem captureAndReplay : Obligations.CaptureAndReplay := by
  unfold Obligations.CaptureAndReplay
  refine ⟨fun s die hon => ?_, fun s hrun hactive => ?_⟩
  · intro d base size at' mark other
    have hgo : exec (.captureRecord die) s = .next (captureRecord d s) := congrArg Host.Outcome.next (if_pos hon)
    have hd1 : die = true → d = 1 := fun h => if_pos h
    have hd0 : die = false → d = 0 := fun h => if_neg (by simp [h])
    clear_value d
    refine ⟨fun hempty => ?_, fun r rest hfirst => ⟨fun hdie hr => ?_, fun hdie hmark hother => ?_, fun hone hzero => ?_⟩⟩
    · rw [hgo, captureRecord_of_none (nextCapture_of_empty hempty)]
    · obtain rfl := hd1 hdie
      rw [hgo, captureRecord_of_none (nextCapture_of_waiting_one (hr ▸ hfirst))]
    · obtain rfl := hd0 hdie
      rw [hgo, captureRecord_of_none (nextCapture_of_waiting_zero hfirst hmark hother)]
    · have hnext : nextCapture s d = some r := by
        cases die with
        | true =>
          obtain rfl := hd1 rfl
          exact nextCapture_of_first_one hfirst (hone rfl)
        | false =>
          obtain rfl := hd0 rfl
          exact nextCapture_of_first_zero hfirst (hzero rfl)
      refine ⟨fun hfits hfree hplain => ?_, fun hfits hfree hdie hmark => ?_, fun hfits hfree => ?_, fun hfull hroom => ?_, fun hfull hroom => ?_⟩
      · rw [hgo, captureRecord_of_free hnext hfits hfree, dropCapture_of_plain hfirst (hplain.imp hd1 id)]
        rfl
      · obtain rfl := hd0 hdie
        rw [hgo, captureRecord_of_free hnext hfits hfree, dropCapture_of_mark hfirst hmark]
        rfl
      · rw [hgo, captureRecord_of_busy hnext hfits hfree]
      · rw [hgo, captureRecord_of_full hnext hfull, captureFull_of_no_room hroom]
      · rw [hgo, captureRecord_of_full hnext hfull, captureFull_of_room hroom]
        rfl
  · intro ended
    have hgo : exec .replayRecord s = .next (replayRecord s) := rfl
    refine ⟨fun hnone => ?_, fun r hnext => ?_⟩
    · rw [hgo, replayRecord_of_none hrun hactive hnone]
      rfl
    · intro due u dropped base inside
      refine ⟨fun hearly => ?_, fun hkind => ?_, fun hkind hdue => ?_, fun hkind hdue hin => ?_, fun hkind hdue hout => ?_, fun hkind hdue => ?_⟩
      · rw [hgo, replayRecord_of_early hrun hactive hnext (Bool.eq_false_iff.mpr fun h => hearly (recordDue_iff.mp h))]
      · rw [hgo, replayRecord_of_end hrun hactive hnext hkind]
        rfl
      · rw [hgo, replayRecord_of_due hrun hactive hnext (recordDue_iff.mpr hdue) (by omega), hkind]
        rfl
      · have hfits : pickupFits u r = true := by
          obtain ⟨hvalid, hk, hlo, hhi⟩ := hin
          exact Bool.and_eq_true_iff.mpr ⟨Bool.and_eq_true_iff.mpr ⟨Bool.and_eq_true_iff.mpr ⟨hvalid, beq_iff_eq.mpr hk⟩,
            decide_eq_true hlo⟩, decide_eq_true hhi⟩
        rw [hgo, replayRecord_of_due hrun hactive hnext (recordDue_iff.mpr hdue) (by omega), hkind]
        exact congrArg Host.Outcome.next (if_pos hfits)
      · have hfits : ¬ pickupFits u r = true := by
          intro h
          simp only [pickupFits, Bool.and_eq_true, beq_iff_eq, decide_eq_true_eq, and_assoc] at h
          exact hout h
        rw [hgo, replayRecord_of_due hrun hactive hnext (recordDue_iff.mpr hdue) (by omega), hkind]
        exact congrArg Host.Outcome.next (if_neg hfits)
      · have hgo : exec .replayRecord s = .next (replayPacket r u) := by
          rw [hgo, replayRecord_of_due hrun hactive hnext (recordDue_iff.mpr hdue) (by omega), hkind]
          rfl
        intro h pay t ptp rx v
        have henter := replayPacket_of_unpoliced (s := u) (r := r)
        have htapped : bit (portTap v r.unit) 4 = bit (portTap s r.unit) 4 :=
          congrArg (bit · 4) ((show SamePattern s v from .ite ⟨rfl, rfl⟩ ⟨rfl, rfl⟩).portTap r.unit)
        have hrx : recordRx r.unit r (recordHeader r) false u = rx := rfl
        have hv : recordPassed r u = v := rfl
        rw [hrx, hv] at henter
        have hptps : rx.ptp = ptp := rfl
        have hhdr : rx.hdr = h := rfl
        have hbad : rx.bad = headerBad s r.unit h := rfl
        have hnot : rx.early = false := rfl
        have hpolicer : ¬ isPoliced s r.unit h → ¬ isPoliced u r.unit (recordHeader r) := id
        have hdropped : countReplayDrop u = dropped := rfl
        clear_value v rx u
        refine ⟨fun hlen => ?_, fun hlen hptp htap => ?_, fun hlen hptp hpol hearly => ⟨fun hflags => ?_, fun hflags => ?_, fun hflags => ?_⟩⟩
        · exact hgo.trans (congrArg _ ((replayPacket_of_wrong_length hlen).trans hdropped))
        · have htype : hType h = 4 := by simpa [ptp] using hptp
          have hearly : usedEarly v r.unit rx pay = false := by
            simp [usedEarly, RxPacket.live, hptps, hptp]
          refine hgo.trans (congrArg _ ((henter hlen (.inl htype) hearly).trans ((recordEnd_of_ptp (hptps.trans hptp)).trans
            ((takePtp_untapped (hhdr ▸ htype) (htapped.trans htap)).trans ?_))))
          rw [hhdr, hbad]
          simp only [decide_eq_true_eq]
          rfl
        · exact hgo.trans (congrArg _ ((henter hlen (.inr (hpolicer hpol)) hearly).trans (recordEnd_of_failed (hptps.trans hptp) hflags hnot)))
        · have hbit : (r.flags / 2 % 2 == 1) = true := beq_iff_eq.mpr (by omega)
          refine hgo.trans (congrArg _ ((henter hlen (.inr (hpolicer hpol)) hearly).trans
            ((recordEnd_of_stomped (hptps.trans hptp) (by omega) hbit hnot).trans ?_)))
          rw [hhdr]
          rfl
        · have hbit : (r.flags / 2 % 2 == 1) = false := beq_eq_false_iff_ne.mpr (by omega)
          rw [hbit] at henter
          refine hgo.trans (congrArg _ ((henter hlen (.inr (hpolicer hpol)) hearly).trans
            ((recordEnd_of_good (hptps.trans hptp) (by omega) rfl).trans ?_)))
          rw [hhdr]
          rfl

end Sys2Proof.Machine
end

section
/-!
SUPPORT. Mailbox commands and fuse changes (R96, R109 to R113, R363, R418 to R420): O19 and O20.
-/

namespace Sys2Proof.Machine

section
variable {s : State}

/-! ### Start and end of a command -/

/-- The mailbox as a command starts (R419). -/
def mbStarted (op : Nat) (s : State) : State := { s with host := { s.host with mbValid := false, mbBusy := true, mbOp := op } }

theorem onMain_startMb (h : mailboxIdle s) (op : Nat) (f : State → State) : onMain (startMb op f) s = .next (f (mbStarted op s)) :=
  (onMain_of_on _ h.1).trans (congrArg Host.Outcome.next (if_neg (by simp [h.2])))

/-- Result words overwrite the data words from 0 on (R420). -/
theorem tget_resultWords (m : Tab Word) (ws : List Word) (i : Nat) :
    tget 0 (((List.range ws.length).zip ws).foldl (fun t e => tset t e.1 e.2) m) i = (ws[i]?).getD (tget 0 m i) := by
  induction ws using List.reverseRecOn with
  | nil => rfl
  | append_singleton ws w ih =>
    rw [List.length_append, List.length_singleton, List.range_succ, List.zip_append (List.length_range), List.foldl_append]
    simp only [List.zip_cons_cons, List.zip_nil_right, List.foldl_cons, List.foldl_nil]
    rw [tget_tset]
    by_cases hi : i = ws.length
    · simp [hi]
    · rw [if_neg hi, ih]
      by_cases hlt : i < ws.length
      · rw [List.getElem?_append_left hlt]
      · rw [List.getElem?_eq_none (by omega), List.getElem?_eq_none (by simp; omega)]

/-- A command that ends at once with its words (R419). -/
theorem doneMb_answers (op : Nat) (ws : List Word) : mailboxAnswers op 0 ws s (doneMb ws (mbStarted op s)) :=
  ⟨rfl, fun i => tget_resultWords s.host.mbData ws i⟩

theorem endMb_answers (op code : Nat) : mailboxAnswers op code [] s (endMb code (mbStarted op s)) := ⟨rfl, fun _ => rfl⟩

end

/-! ### The commands -/

section
variable {s : State}

theorem timeWords_eq : timeWords s = [put (s.time.now / 9 / 1000000000) 0,
    put (s.time.now / 9 % 1000000000) 32 ||| put (s.time.now % 9 * 16 / 9 * 4096) 16 ||| put s.time.state.code 8,
    put s.job.pour 32 ||| put (if s.boot.phase = .run then s.clk - s.job.pourClk else 0) 0] := by
  have hclk : (if s.running then s.pourOff else 0) = if s.boot.phase = .run then s.clk - s.job.pourClk else 0 := by
    simp only [State.running, beq_iff_eq]
    rfl
  rw [timeWords, hclk]
  rfl

theorem timeWords_mbStarted (op : Nat) : timeWords (mbStarted op s) = timeWords s := by
  have htime : (mbStarted op s).time = s.time := rfl
  have hjob : (mbStarted op s).job = s.job := rfl
  have hrun : (mbStarted op s).running = s.running := rfl
  have hoff : (mbStarted op s).pourOff = s.pourOff := rfl
  rw [timeWords, timeWords, htime, hjob, hrun, hoff]

theorem mbTimeRead_answers : mailboxAnswers 0x01 0 [put (s.time.now / 9 / 1000000000) 0,
    put (s.time.now / 9 % 1000000000) 32 ||| put (s.time.now % 9 * 16 / 9 * 4096) 16 ||| put s.time.state.code 8,
    put s.job.pour 32 ||| put (if s.boot.phase = .run then s.clk - s.job.pourClk else 0) 0] s (mbTimeRead (mbStarted 0x01 s)) := by
  rw [← timeWords_eq, ← timeWords_mbStarted 0x01, mbTimeRead]
  exact doneMb_answers ..

theorem mbShakeout_of_free (hbusy : s.mem.shakeBusy = false) (hphase : s.boot.phase ≠ .run) :
    mbShakeout s = endMb 0 { s with mem := { s.mem with
      shakeBusy := true, shakeFlask := fld (s.mbArg 0) 3 0, shakeLeft := flaskSpans s (fld (s.mbArg 0) 3 0) } } :=
  if_neg (by simp [hbusy, State.running, hphase])

theorem mbBootPref_of_allowed (h : s.fuse.lock < 2 ∨ s.fuse.lock = if bit (s.mbArg 0) 0 then 3 else 2) :
    mbBootPref s = endMb 0 { s with flash := { s.flash with bootRecord := some (bit (s.mbArg 0) 0) } } := by
  refine if_neg ?_
  rcases h with h | h
  · simp [Nat.not_le.mpr h]
  · cases hslot : bit (s.mbArg 0) 0 <;> simp [h, hslot]

theorem mbFlashCopy_of_allowed {r : Nat} (hlen : 4096 * (fld (s.mbArg 2) 15 0 + 1) ≤ 0x07F00000)
    (hregion : regionOf s (s.mbArg 1).toNat (4096 * (fld (s.mbArg 2) 15 0 + 1)) = some r) (hhost : rgHost s r = true)
    (hslot : bit (s.mbArg 0) 0 ≠ s.boot.slot ∨ s.boot.phase = .quenched ∨ s.boot.phase = .failed) :
    mbFlashCopy s = { s with flash := { s.flash with
      copying := some (bit (s.mbArg 0) 0, (s.mbArg 1).toNat, fld (s.mbArg 2) 15 0 + 1)
      bytes := setSlotBytes (bit (s.mbArg 0) 0) [] s.flash.bytes } } := by
  have hspan : copySpanOk s (s.mbArg 1).toNat (4096 * (fld (s.mbArg 2) 15 0 + 1)) = true := by
    have hsize : slotSize = 0x07F00000 := rfl
    simp [copySpanOk, hsize, hlen, hregion, hhost]
  have hfree : (bit (s.mbArg 0) 0 == s.boot.slot && s.boot.phase != .quenched && s.boot.phase != .failed) = false := by
    rcases hslot with h | h | h <;> simp [h]
  unfold mbFlashCopy
  dsimp only
  rw [hspan, hfree, if_neg (by decide), if_neg (by decide)]

end

/-- Settles O19: each mailbox command from an idle mailbox gives its words, or starts its work. -/
theorem mailboxCommands : Obligations.MailboxCommands := by
  unfold Obligations.MailboxCommands
  intro s hidle
  refine ⟨?_, fun mw mv ma peak bus => ⟨_, onMain_startMb hidle _ _, doneMb_answers ..⟩, fun hlo hhi => ?_, fun hopen => ?_, fun hbusy hphase => ?_,
    fun hbusy hleft => ?_, fun hlock => ?_, fun op hop => ?_, fun r hlen hregion hhost hslot => ?_⟩
  · exact ⟨_, onMain_startMb hidle _ _, mbTimeRead_answers⟩
  · exact ⟨_, (onMain_startMb hidle _ _).trans (congrArg _ (if_pos ⟨hlo, hhi⟩)), doneMb_answers ..⟩
  · exact ⟨_, (onMain_startMb hidle _ _).trans (congrArg _ (if_neg (by simp [mbStarted, hopen]))), doneMb_answers ..⟩
  · exact (onMain_startMb hidle _ _).trans (congrArg _ (mbShakeout_of_free (s := mbStarted 0x50 s) hbusy hphase))
  · exact (onMain_of_on _ hidle.1).trans (congrArg _ (if_pos (by simp [hbusy, hleft])))
  · exact (onMain_startMb hidle _ _).trans (congrArg _ (mbBootPref_of_allowed (s := mbStarted 0x52 s) hlock))
  · refine ⟨_, (if_neg ?_).trans (onMain_startMb hidle _ _), endMb_answers ..⟩
    simpa [listedOp] using hop
  · exact (onMain_startMb hidle _ _).trans (congrArg _ (mbFlashCopy_of_allowed (s := mbStarted 0x51 s) hlen hregion hhost hslot))

/-! ### Fuse changes -/

section
variable {s : State}

/-- A fuse command whose conditions hold opens its record (R110, R111). -/
theorem mbFuse_begins (hledger : ledgerOpen s) {op setting newV own : Nat} (hown : own = 0)
    (hleft : exhausted s setting = false) :
    changeBegins op setting newV s (mbFuse setting newV own (mbStarted op s)) := by
  obtain ⟨hopened, hroom⟩ := hledger
  have hstatus : fuseStatus setting own (mbStarted op s) = 0 := by
    have hleft' : exhausted (mbStarted op s) setting = false := hleft
    have hopened' : (mbStarted op s).fuse.opened = none := hopened
    have hroom' : ¬ 96 ≤ (mbStarted op s).fuse.records.length := Nat.not_le.mpr hroom
    simp [fuseStatus, hopened', hown, hleft', hroom']
  exact if_neg (not_not.mpr hstatus)

/-- The change of an open record, by its setting (R109). -/
theorem blow_eq {r : FuseRecord} (hlo : 1 ≤ r.setting) (hhi : r.setting ≤ 5) : blow r s = { s with
    fuse := { s.fuse with
      svc := if r.setting = 1 then r.newV else s.fuse.svc
      lock := if r.setting = 2 then r.newV else s.fuse.lock
      debugOff := if r.setting = 3 then true else s.fuse.debugOff
      keyset := if r.setting = 4 then r.newV else s.fuse.keyset
      keysetUsed := if r.setting = 4 then s.fuse.keysetUsed + 1 else s.fuse.keysetUsed
      terminal := if r.setting = 5 then r.newV == 1 else s.fuse.terminal
      terminalUsed := if r.setting = 5 then s.fuse.terminalUsed + 1 else s.fuse.terminalUsed }
    inj := if r.setting = 3 then .reset else s.inj
    ports := if r.setting = 3 then s.ports.map fun e => (e.1, { e.2 with inj := [], injCount := 0 }) else s.ports
    chain := { s.chain with repeating := if r.setting = 5 then r.newV != 1 && s.chain.addr != 0 else s.chain.repeating } } := by
  have hcases : r.setting = 1 ∨ r.setting = 2 ∨ r.setting = 3 ∨ r.setting = 4 ∨ r.setting = 5 := by omega
  rcases hcases with h | h | h | h | h <;> simp only [blow, h] <;> rfl

/-- Programming ends: the setting is made, the record closed, and the mailbox that waited for it answered (R111, R112). -/
theorem fuseProgrammed_eq {r : FuseRecord} (hopened : s.fuse.opened = some r) (hbusy : s.fuse.busy = true) :
    fuseProgrammed s = { blow r s with
      fuse := { (blow r s).fuse with opened := none, busy := false, records := (blow r s).fuse.records ++ [r] }
      host := { (blow r s).host with
        measGen := (blow r s).host.measGen + 1
        mbValid := mailboxWaits s || s.host.mbValid
        mbBusy := !mailboxWaits s && s.host.mbBusy
        mbCode := if mailboxWaits s then 0 else s.host.mbCode } } := by
  have hclosed : closeChange true s = { blow r s with
      fuse := { (blow r s).fuse with opened := none, busy := false, records := (blow r s).fuse.records ++ [r] }
      host := { (blow r s).host with measGen := (blow r s).host.measGen + 1 } } := by
    simp only [closeChange, hopened, if_true]
    rfl
  have hhost : (blow r s).host = s.host := by
    unfold blow
    split <;> rfl
  have hgo : fuseProgrammed s = if s.fuse.byChain then closeChange true s else endFuseMb (closeChange true s) := if_pos hbusy
  rw [hgo, hclosed, hhost]
  generalize blow r s = b
  cases hchain : s.fuse.byChain
  · cases hwaits : s.host.mbBusy && decide (0x41 ≤ s.host.mbOp) && decide (s.host.mbOp ≤ 0x44)
    · have hno : mailboxWaits s = false := by simpa [mailboxWaits, hchain] using hwaits
      rw [hno]
      exact (if_neg Bool.false_ne_true).trans (if_neg (by rw [hwaits]; exact Bool.false_ne_true))
    · have hyes : mailboxWaits s = true := by simpa [mailboxWaits, hchain] using hwaits
      rw [hyes]
      exact (if_neg Bool.false_ne_true).trans (if_pos hwaits)
  · have hno : mailboxWaits s = false := by simp [mailboxWaits, hchain]
    rw [hno]
    rfl

end

/-- Settles O20: a fuse command whose conditions hold opens its record, and its programming makes the setting and closes it. -/
theorem fuseChanges : Obligations.FuseChanges := by
  unfold Obligations.FuseChanges
  intro s
  refine ⟨fun hidle hledger => ⟨fun hsvc hmax hversion => ?_, fun hlock hphase => ?_, fun hdebug hconfirm => ?_,
    fun hleft hmax hother hlo hhi => ?_⟩, fun r hopened hbusy hlo hhi => ?_⟩
  · exact ⟨_, onMain_startMb hidle _ _, mbFuse_begins hledger (if_pos ⟨hsvc, hmax, hversion⟩) (decide_eq_false (by omega))⟩
  · exact ⟨_, onMain_startMb hidle _ _, mbFuse_begins hledger (if_pos ⟨lt_of_eq_of_lt hlock (by decide), hphase⟩) (by simp [exhausted, hlock])⟩
  · exact ⟨_, onMain_startMb hidle _ _, mbFuse_begins hledger (if_pos hconfirm) hdebug⟩
  · exact ⟨_, onMain_startMb hidle _ _, mbFuse_begins hledger ((if_neg (by rintro (h | h); exact Nat.not_lt.mpr hmax h; exact hother h)).trans
      (if_pos ⟨hlo, hhi⟩)) (decide_eq_false (by omega))⟩
  · refine congrArg Host.Outcome.next ((fuseProgrammed_eq hopened hbusy).trans ?_)
    rw [blow_eq hlo hhi]

end Sys2Proof.Machine
end

section
/-!
SUPPORT. Snapshots, flask views, the host link and flash copies (R408, R416, R420, R433): O21.
-/

namespace Sys2Proof.Machine

section
variable {s : State} {w : Word}

/-! ### Snapshots -/

/-- What a snapshot holds does not depend on the paths' own state. -/
theorem holdOf_setHost (f : HostLink → HostLink) (scope unit : Nat) (view : Bool) :
    holdOf (s.setHost f) scope unit view = holdOf s scope unit view := rfl

theorem holdOf_setChain (f : Chain → Chain) (scope unit : Nat) (view : Bool) :
    holdOf (s.setChain f) scope unit view = holdOf s scope unit view := rfl

/-- A port's snapshot restarts its marks; any other leaves the unit (R201, R416). -/
def marksRestarted (scope unit : Nat) (s : State) : State := if scope = 1 && unit < 256 then restartMarks unit s else s

theorem marksRestarted_of_other {scope : Nat} (h : scope ≠ 1) (unit : Nat) : marksRestarted scope unit s = s := if_neg (by simp [h])

theorem marksRestarted_rest (scope unit : Nat) : marksRestarted scope unit s = { s with ports := (marksRestarted scope unit s).ports } := by
  unfold marksRestarted
  split <;> rfl

theorem marksRestarted_clk (scope unit : Nat) : (marksRestarted scope unit s).clk = s.clk := by
  unfold marksRestarted
  split <;> rfl

/-- The host path's registers with a snapshot taken (R416). -/
def hostSnapped (scope unit clk : Nat) (hold : Tab Word) (h : HostLink) : HostLink := { h with
  hold := hold, snapStat := snapTaken scope unit, snapClk := some clk, holdPrev := if h.snapClk = some clk then h.holdPrev else h.hold }

/-- The chain path's registers with a snapshot taken (R430). -/
def chainSnapped (scope unit clk : Nat) (hold : Tab Word) (c : Chain) : Chain := { c with
  hold := hold, snapStat := snapTaken scope unit, snapClk := some clk, holdPrev := if c.snapClk = some clk then c.holdPrev else c.hold }

theorem hostSnapped_snapCtl (scope unit clk : Nat) (hold : Tab Word) :
    (s.setHost (hostSnapped scope unit clk hold)).host.snapCtl = s.host.snapCtl := rfl

theorem chainSnapped_addr (scope unit clk : Nat) (hold : Tab Word) (c : Chain) : (chainSnapped scope unit clk hold c).addr = c.addr := rfl

theorem chainSnapped_snapCtl (scope unit clk : Nat) (hold : Tab Word) :
    (ackFrame (s.setChain (chainSnapped scope unit clk hold))).chain.snapCtl = s.chain.snapCtl := rfl

/-- A snapshot of the host's path (R416). -/
theorem snapCtl_host (hgo : bit w 0 = true) (hscope : fld w 47 44 ≤ 4) :
    snapCtl false w s = (marksRestarted (fld w 47 44) (fld w 43 32) (s.setHost fun h => { h with snapCtl := snapCtlBits w })).setHost
      (hostSnapped (fld w 47 44) (fld w 43 32) s.clk (holdOf s (fld w 47 44) (fld w 43 32) false)) := by
  have hclk : (marksRestarted (fld w 47 44) (fld w 43 32) (s.setHost fun h => { h with snapCtl := snapCtlBits w })).clk = s.clk := by
    rw [marksRestarted_clk, State.setHost_clk]
  unfold marksRestarted at hclk ⊢
  simp only [snapCtl, Bool.false_eq_true, if_false, hgo, Bool.not_true, Nat.not_lt.mpr hscope, hclk]
  rw [holdOf_setHost]
  rfl

/-- A snapshot of the chain's path (R430). -/
theorem snapCtl_chain (hgo : bit w 0 = true) (hscope : fld w 47 44 ≤ 4) :
    snapCtl true w s = (marksRestarted (fld w 47 44) (fld w 43 32) (s.setChain fun c => { c with snapCtl := snapCtlBits w })).setChain
      (chainSnapped (fld w 47 44) (fld w 43 32) s.clk (holdOf s (fld w 47 44) (fld w 43 32) false)) := by
  have hclk : (marksRestarted (fld w 47 44) (fld w 43 32) (s.setChain fun c => { c with snapCtl := snapCtlBits w })).clk = s.clk := by
    rw [marksRestarted_clk, State.setChain_clk]
  unfold marksRestarted at hclk ⊢
  simp only [snapCtl, if_true, Bool.false_eq_true, if_false, hgo, Bool.not_true, Nat.not_lt.mpr hscope, hclk]
  rw [holdOf_setChain]
  rfl

theorem marksRestarted_host (scope unit : Nat) : (marksRestarted scope unit s).host = s.host := by
  unfold marksRestarted
  split <;> rfl

theorem marksRestarted_chain (scope unit : Nat) : (marksRestarted scope unit s).chain = s.chain := by
  unfold marksRestarted
  split <;> rfl

theorem writeKey_snapCtl (ch : Bool) : writeKey ch 0x200 w s = snapCtl ch w s := if_pos (by decide)

theorem exec_snapshot_eq (ch : Bool) : exec (.snapshot ch w) s =
    if ch then .next (ackFrame (chainWrite 0x200 w s)) else onMain (sendWrite false 0x200 w) s := rfl

/-- The host's write of SNAP_CTL (R416). -/
theorem exec_snapshot_host (hon : s.pwr.mainOn = true) : exec (.snapshot false w) s =
    .next (snapCtl false w (s.setHost fun h => { h with wrote := wroteKey 0x200 s })) :=
  (exec_snapshot_eq false).trans ((if_neg Bool.false_ne_true).trans ((onMain_of_on _ hon).trans
    (congrArg Host.Outcome.next ((sendWrite_host 0x200 w).trans (writeKey_snapCtl false)))))

/-- The chain's write of SNAP_CTL, which no write of the host holds up, is made and acknowledged (R428, R430). -/
theorem exec_snapshot_chain (hon : s.pwr.mainOn = true) (hfree : s.host.wrote.contains (s.clk, 0x200) = false) :
    exec (.snapshot true w) s = .next (ackFrame (snapCtl true w s)) := by
  have hwrite : chainWrite 0x200 w s = snapCtl true w s := by
    have hsend : chainWrite 0x200 w s = sendWrite true 0x200 w s := (if_neg (by simp [hon])).trans (if_neg (by decide))
    refine hsend.trans ?_
    simp only [sendWrite, hfree, if_true, Bool.false_eq_true, if_false]
    exact writeKey_snapCtl true
  rw [exec_snapshot_eq, if_pos rfl, hwrite]

/-- The chain's snapshot, whole (R416, R430). -/
theorem exec_snapshot_chain_taken (hon : s.pwr.mainOn = true) (hfree : s.host.wrote.contains (s.clk, 0x200) = false) (hgo : bit w 0 = true)
    (hscope : fld w 47 44 ≤ 4) : exec (.snapshot true w) s = .next (ackFrame ((marksRestarted (fld w 47 44) (fld w 43 32)
      (s.setChain fun c => { c with snapCtl := snapCtlBits w })).setChain
        (chainSnapped (fld w 47 44) (fld w 43 32) s.clk (holdOf s (fld w 47 44) (fld w 43 32) false)))) := by
  rw [exec_snapshot_chain hon hfree, snapCtl_chain hgo hscope]

/-- Updates of the host's part leave the rest. -/
theorem setHost_twice (f g : HostLink → HostLink) : (s.setHost f).setHost g = { s with host := ((s.setHost f).setHost g).host } := rfl

theorem setHost_thrice (f g k : HostLink → HostLink) :
    ((s.setHost f).setHost g).setHost k = { s with host := (((s.setHost f).setHost g).setHost k).host } := rfl

theorem ackFrame_setChain_twice {f g : Chain → Chain} (haddr : ∀ c, (g (f c)).addr = c.addr) :
    ackFrame ((s.setChain f).setChain g) = { s with
      chain := (ackFrame ((s.setChain f).setChain g)).chain, out := .chainUp s.chain.addr 0x83 [s.chain.addr] :: s.out } := by
  rw [← haddr s.chain]
  rfl

/-- A scope that does not exist is refused (R416). -/
theorem snapCtl_host_of_bad_scope (hgo : bit w 0 = true) (hscope : 4 < fld w 47 44) :
    snapCtl false w s = s.setHost fun h => { h with snapCtl := snapCtlBits w, snapStat := setFld h.snapStat 7 0 1 } := by
  simp only [snapCtl, Bool.false_eq_true, if_false, hgo, Bool.not_true, hscope, if_true, State.setHost]

theorem fld_setFld_low (x : Word) : fld (setFld x 7 0 1) 7 0 = 1 := by
  have hmask : (x.toNat &&& (2 ^ 64 - 1 - (2 ^ (7 - 0 + 1) - 1) <<< 0)) % 2 ^ 8 = 0 := by
    rw [← Nat.and_two_pow_sub_one_eq_mod _ 8, Nat.and_assoc, show (2 ^ 64 - 1 - (2 ^ (7 - 0 + 1) - 1) <<< 0) &&& (2 ^ 8 - 1) = 0 by decide,
      Nat.and_zero]
  simp only [fld, setFld, BitVec.toNat_ofNat, Nat.shiftRight_zero]
  rw [show 7 - 0 + 1 = 8 from rfl, Nat.mod_mod_of_dvd _ (by decide : 2 ^ 8 ∣ 2 ^ 64), Nat.or_mod_two_pow, hmask]
  rfl

/-! ### Views -/

theorem viewOwns_setHost (g : HostLink → HostLink) (f scope unit : Nat) : viewOwns (s.setHost g) f scope unit = viewOwns s f scope unit := rfl

/-- A view's snapshot of a unit it owns waits for clk 0 (R433). -/
theorem viewCtl_of_owned {f : Nat} (hgo : bit w 0 = true) (hscope : fld w 47 44 ≤ 4) (howns : viewOwns s f (fld w 47 44) (fld w 43 32) = true) :
    viewCtl f w s = s.setHost fun h => { h with viewCtl := tset h.viewCtl f (snapCtlBits w), viewAsk := tset h.viewAsk f w } := by
  simp only [viewCtl, hgo, Bool.not_true, Bool.false_eq_true, if_false, Nat.not_lt.mpr hscope, viewOwns_setHost, howns, if_true, ne_eq,
    not_true]
  rfl

end

/-- Settles O21: a snapshot fills its own path's registers, a view waits for clk 0, and the host link and flash copy end as R408 and R420 say. -/
theorem hostEvents : Obligations.HostEvents := by
  unfold Obligations.HostEvents
  intro s hon
  refine ⟨fun w hgo hscope => ⟨?_, fun hfree => ?_⟩, fun w hgo hscope => ?_, fun f w hgo hscope howns => ?_, fun hstandby hpower hfailed => ?_, ?_,
    fun slot addr units hcopy => ?_⟩
  · have hgo := (exec_snapshot_host hon).trans (congrArg Host.Outcome.next (snapCtl_host hgo hscope))
    rw [holdOf_setHost] at hgo
    refine ⟨_, hgo, rfl, rfl, rfl, ?_, fun hscope1 => ?_⟩
    · rw [hostSnapped_snapCtl, marksRestarted_host, State.setHost_host]
    · rw [marksRestarted_of_other hscope1]
      exact setHost_thrice ..
  · refine ⟨_, exec_snapshot_chain_taken hon hfree hgo hscope, rfl, rfl, rfl, ?_, fun hscope1 => ?_⟩
    · rw [chainSnapped_snapCtl, marksRestarted_chain, State.setChain_chain]
    · rw [marksRestarted_of_other hscope1]
      exact ackFrame_setChain_twice fun c => chainSnapped_addr ..
  · refine ⟨_, (exec_snapshot_host hon).trans (congrArg _ (snapCtl_host_of_bad_scope hgo hscope)), ?_, ?_, setHost_twice ..⟩
    · rw [State.setHost_host, State.setHost_host]
    · rw [State.setHost_host]
      exact fld_setFld_low _
  · exact (onMain_of_on _ hon).trans (congrArg _ (viewCtl_of_owned hgo hscope howns))
  · exact (onMain_of_on _ hon).trans (congrArg _ (if_pos (by simp [trained, hstandby, hpower, hfailed])))
  · exact onMain_of_on _ hon
  · refine ⟨_, _, _, (onMain_of_on _ hon).trans (congrArg Host.Outcome.next ?_), rfl, rfl⟩
    simp only [flashCopyDone, hcopy]
    rfl

end Sys2Proof.Machine
end

section
/-!
SUPPORT. What the module answers over DOE (R407, R435, R436): O22.
-/

namespace Sys2Proof.Machine

section
variable {s : State}

/-- A DOE request on a link that is up is handled (R408). -/
theorem onLink_of_up (hon : s.pwr.mainOn = true) (hlink : s.host.linkUp = true) (f : State → State) : onLink f s = .next (f s) :=
  (onMain_of_on _ hon).trans (congrArg Host.Outcome.next (if_pos hlink))

theorem spdmAt_of_stage (hon : s.pwr.mainOn = true) (hlink : s.host.linkUp = true) {n : Nat} (hstage : s.host.spdm = n) (f : State → State) :
    spdmAt n f s = .next (f s) :=
  (onLink_of_up hon hlink _).trans (congrArg Host.Outcome.next (if_pos hstage))

theorem spdmAt_of_other (hon : s.pwr.mainOn = true) (hlink : s.host.linkUp = true) {n : Nat} (hstage : s.host.spdm ≠ n) (f : State → State) :
    spdmAt n f s = spdmRefuses 0x04 s :=
  (onLink_of_up hon hlink _).trans (congrArg Host.Outcome.next (if_neg hstage))

/-- A response that moves the exchange on (R435). -/
theorem spdmAnswer_moves (code stage : Nat) (req resp : List Byte) :
    spdmAnswers code stage req resp s (spdmAnswer code req resp (s.setHost fun h => { h with spdm := stage })) := rfl

/-- A response that leaves the exchange in its stage (R435). -/
theorem spdmAnswer_stays {stage : Nat} (hstage : s.host.spdm = stage) (code : Nat) (req resp : List Byte) :
    spdmAnswers code stage req resp s (spdmAnswer code req resp s) := by
  subst hstage
  rfl

/-- A signed response covers all messages before it (R436). -/
theorem spdmSigned_stays {stage : Nat} (hstage : s.host.spdm = stage) (code : Nat) (req resp : List Byte) :
    spdmAnswers code stage req (resp ++ beBytes 64 (Config.sm2Sign (s.host.transcript ++ req ++ resp)).toNat) s (spdmSigned code req resp s) :=
  spdmAnswer_stays hstage code req _

/-- GET_VERSION begins the exchange anew (R435). -/
theorem spdmVersion_answers : spdmAnswers 0x04 1 (spdmMsg 0x10 0x84 0 0 [])
    (spdmMsg 0x10 0x04 0 0 ([0, 2] ++ leBytes 2 0x1200 ++ leBytes 2 0x1300)) { s with host := { s.host with transcript := [] } } (spdmVersion s) :=
  spdmAnswer_moves (s := { s with host := { s.host with transcript := [] } }) 0x04 1 (spdmMsg 0x10 0x84 0 0 [])
    (spdmMsg 0x10 0x04 0 0 ([0, 2] ++ leBytes 2 0x1200 ++ leBytes 2 0x1300))

/-- A part of slot 0's chain, as long as what is left allows (R435). -/
theorem certificatePart_length (offset len : Nat) :
    ((Config.certChain.drop offset).take len).length = min len (Config.certChain.length - offset) := by
  rw [List.length_take, List.length_drop]

/-! Each request as a step of the exchange, by its stage. -/

theorem exec_doeDiscovery (i : Nat) : exec (.doeDiscovery i) s = onLink (fun s => s.emit (.doe 0 (discoveryEntry i).2.1
    (leBytes 2 (discoveryEntry i).1 ++ leBytes 1 (discoveryEntry i).2.1 ++ leBytes 1 (discoveryEntry i).2.2))) s := rfl

theorem exec_tableAccess (entry : Nat) : exec (.tableAccess entry) s = onLink (fun s => s.emit (.doe 2 0 (Config.cdat entry))) s := rfl

theorem exec_getCapabilities : exec .getCapabilities s = spdmAt 1 (fun s => spdmAnswer 0x61 (spdmMsg 0x12 0xE1 0 0 [])
    (spdmMsg 0x12 0x61 0 0 (leBytes 4 0 ++ leBytes 4 Config.spdmCapabilities.toNat)) (s.setHost fun h => { h with spdm := 2 })) s := rfl

theorem exec_negotiateAlgorithms (sm2 sm3 : Bool) : exec (.negotiateAlgorithms sm2 sm3) s = spdmAt 2 (fun s =>
    if sm2 && sm3 then
      spdmAnswer 0x63 (spdmMsg 0x12 0xE3 0 0 []) (spdmMsg 0x12 0x63 0 0 algorithmsBody) (s.setHost fun h => { h with spdm := 3 })
    else spdmError 0x01 s) s := rfl

theorem exec_getDigests : exec .getDigests s = spdmAt 3 (fun s =>
    spdmAnswer 0x01 (spdmMsg 0x12 0x81 0 0 []) (spdmMsg 0x12 0x01 0 1 chainDigest) s) s := rfl

theorem exec_getCertificate (slot offset len : Nat) : exec (.getCertificate slot offset len) s = spdmAt 3 (fun s =>
    if slot ≠ 0 ∨ Config.certChain.length ≤ offset then spdmError 0x01 s
    else spdmAnswer 0x02 (spdmMsg 0x12 0x82 slot 0 (leBytes 2 offset ++ leBytes 2 len))
      (spdmMsg 0x12 0x02 slot 0 (leBytes 2 ((Config.certChain.drop offset).take len).length ++
        leBytes 2 (Config.certChain.length - offset - ((Config.certChain.drop offset).take len).length) ++
        (Config.certChain.drop offset).take len)) s) s := rfl

theorem exec_challenge (slot : Nat) (nonce : BitVec 256) : exec (.challenge slot nonce) s = spdmAt 3 (fun s =>
    if slot ≠ 0 then spdmError 0x01 s
    else spdmSigned 0x03 (spdmMsg 0x12 0x83 slot 0 (beBytes 32 nonce.toNat))
      (spdmMsg 0x12 0x03 0 1 (chainDigest ++ spdmNonce s ++ leBytes 2 0)) s) s := rfl

/-- The response to GET_MEASUREMENTS up to its signature (R436). -/
def measurementsResponse (index : Nat) (s : State) : List Byte :=
  let blocks := (measurementIndexes index).flatMap fun i => measurementBlock i s
  spdmMsg 0x12 0x60 (if index = 0 then 5 else 0) 0
    ([BitVec.ofNat 8 (measurementIndexes index).length] ++ leBytes 3 blocks.length ++ blocks ++ spdmNonce s ++ leBytes 2 0)

theorem exec_getMeasurements (index : Nat) (nonce : BitVec 256) : exec (.getMeasurements index nonce) s = spdmAt 3 (fun s =>
    if 5 < index ∧ index ≠ 0xFF then spdmError 0x01 s
    else spdmSigned 0x60 (spdmMsg 0x12 0xE0 1 index (beBytes 32 nonce.toNat ++ [0])) (measurementsResponse index s) s) s := rfl

theorem discovery_answers (i vendor type next : Nat) (h : discoveryEntry i = (vendor, type, next)) (hon : s.pwr.mainOn = true)
    (hlink : s.host.linkUp = true) : exec (.doeDiscovery i) s =
      .next { s with out := .doe 0 type (leBytes 2 vendor ++ leBytes 1 type ++ leBytes 1 next) :: s.out } := by
  rw [exec_doeDiscovery, onLink_of_up hon hlink, h]
  rfl

end

/-- Settles O22: each DOE request in its stage is answered, and any other refused with nothing changed. -/
theorem doeExchanges : Obligations.DoeExchanges := by
  unfold Obligations.DoeExchanges
  intro s hon hlink
  refine ⟨⟨_, onLink_of_up hon hlink _, spdmVersion_answers⟩, fun hstage => ?_, fun hstage => ⟨?_, fun sm2 sm3 hoffer => ?_⟩,
    fun hstage => ⟨?_, fun offset len hin => ?_, fun nonce => ?_, fun index hindex nonce => ?_, fun slot nonce hslot => ?_⟩,
    fun hstage => ?_, ?_, fun entry => ?_⟩
  · rw [exec_getCapabilities, spdmAt_of_stage hon hlink hstage]
    exact ⟨_, rfl, spdmAnswer_moves ..⟩
  · rw [exec_negotiateAlgorithms, spdmAt_of_stage hon hlink hstage, if_pos (by decide)]
    exact ⟨_, rfl, spdmAnswer_moves ..⟩
  · rw [exec_negotiateAlgorithms, spdmAt_of_stage hon hlink hstage, if_neg (by simp [hoffer])]
    rfl
  · rw [exec_getDigests, spdmAt_of_stage hon hlink hstage]
    exact ⟨_, rfl, spdmAnswer_stays hstage ..⟩
  · rw [exec_getCertificate, spdmAt_of_stage hon hlink hstage, if_neg (by simp [hin]), certificatePart_length]
    exact ⟨_, rfl, spdmAnswer_stays hstage ..⟩
  · rw [exec_challenge, spdmAt_of_stage hon hlink hstage, if_neg (by simp)]
    exact ⟨_, spdmNonce s, rfl, spdmSigned_stays hstage ..⟩
  · rw [exec_getMeasurements, spdmAt_of_stage hon hlink hstage, if_neg fun h => hindex.elim (Nat.not_le.mpr h.1) h.2]
    exact ⟨_, spdmNonce s, rfl, spdmSigned_stays hstage ..⟩
  · rw [exec_challenge, spdmAt_of_stage hon hlink hstage, if_pos hslot]
    rfl
  · rw [exec_getDigests, spdmAt_of_other hon hlink hstage]
  · intro e he
    simp only [List.mem_cons, List.not_mem_nil, or_false] at he
    rcases he with rfl | rfl | rfl
    · exact discovery_answers 0 _ _ _ rfl hon hlink
    · exact discovery_answers 1 _ _ _ rfl hon hlink
    · exact discovery_answers 2 _ _ _ rfl hon hlink
  · rw [exec_tableAccess, onLink_of_up hon hlink]
    rfl

end Sys2Proof.Machine
end

section
/-!
SUPPORT. The PTP messages of the boundary clock (R22 to R25): what queueing one changes, and an Announce on every master port.
-/

namespace Sys2Proof.Machine

variable {s v : State}

/-- The time injector that does not act leaves the event as it is. -/
theorem timeInject_off (h : timeInjectorOff s) : timeInject s = (false, 0, s.setInj fun i => { i with stepDone := false }) := by
  have hoff : injects s s.inj.time = false := h
  simp [timeInject, hoff]

theorem portUp_of_masterPort {p : Nat} (h : masterPort p s = true) : s.portUp p = true := by
  simp only [masterPort, Bool.and_eq_true] at h
  exact h.1.1

/-- States that differ in port queues and sequence numbers alone. -/
def PtpOnly (s v : State) : Prop := v = { s with ports := v.ports, time := { s.time with seqIds := v.time.seqIds } }

theorem queuePtp_ptpOnly (kind p : Nat) (body : List Byte) (h : PtpOnly s v) : PtpOnly s (queuePtp kind p body v) := by
  have h' : v = { s with ports := v.ports, time := { s.time with seqIds := v.time.seqIds } } := h
  rw [h']
  rfl

/-- The Announce of a port, as ANNOUNCE_INTERVAL queues it. -/
def announcePacket (p : Nat) (s : State) : Packet :=
  ptpPacket (ptpHeader 11 64 (nextSeq 11 p s) p s.logAnnounce 0 s ++ announceBody (announced s)) s

/-- ANNOUNCE_INTERVAL on one port. -/
def queueAnnounce (p : Nat) (s : State) : State :=
  queuePtp 11 p (ptpHeader 11 64 (nextSeq 11 p s) p s.logAnnounce 0 s ++ announceBody (announced s)) s

/-- An Announce reads the state through its clock, its configuration and the port's sequence number. -/
theorem announcePacket_of_ptpOnly {p : Nat} (h : PtpOnly s v) (hseq : nextSeq 11 p v = nextSeq 11 p s) :
    announcePacket p v = announcePacket p s := by
  have h' : v = { s with ports := v.ports, time := { s.time with seqIds := v.time.seqIds } } := h
  unfold announcePacket
  rw [hseq, h']
  rfl

theorem nextSeq_queueAnnounce_of_ne {p q : Nat} (h : q ≠ p) : nextSeq 11 q (queueAnnounce p s) = nextSeq 11 q s :=
  tget_tset_ne _ _ _ (by omega)

theorem queueAnnounce_port (p q : Nat) : (queueAnnounce p s).port q =
    (s.setPort p fun x => { x with ptpQ := x.ptpQ ++ [announcePacket p s] }).port q := rfl

theorem ptpQ_queueAnnounce_self (p : Nat) : ((queueAnnounce p s).port p).ptpQ = (s.port p).ptpQ ++ [announcePacket p s] := by
  rw [queueAnnounce_port, State.setPort_port]

theorem ptpQ_queueAnnounce_of_ne {p q : Nat} (h : q ≠ p) : ((queueAnnounce p s).port q).ptpQ = (s.port q).ptpQ := by
  rw [queueAnnounce_port, State.setPort_port_ne (h := h)]

/-- What announcing on a list of distinct ports leaves in a port's queue. -/
theorem ptpQ_each_queueAnnounce (l : List Nat) (hl : l.Nodup) (h : PtpOnly s v)
    (hseq : ∀ p ∈ l, nextSeq 11 p v = nextSeq 11 p s) (q : Nat) :
    ((each l queueAnnounce v).port q).ptpQ = (v.port q).ptpQ ++ (if q ∈ l then [announcePacket q s] else []) := by
  induction l generalizing v with
  | nil => simp [each]
  | cons p l ih =>
    obtain ⟨hp, hl'⟩ := List.nodup_cons.mp hl
    have hrest : ∀ r ∈ l, nextSeq 11 r (queueAnnounce p v) = nextSeq 11 r s := fun r hr =>
      (nextSeq_queueAnnounce_of_ne (ne_of_mem_of_not_mem hr hp)).trans (hseq r (List.mem_cons_of_mem _ hr))
    have hstep := ih (v := queueAnnounce p v) hl' (queuePtp_ptpOnly _ _ _ h) hrest
    have hcons : each (p :: l) queueAnnounce v = each l queueAnnounce (queueAnnounce p v) := rfl
    rw [hcons, hstep]
    by_cases hq : q = p
    · subst hq
      rw [if_neg hp, if_pos List.mem_cons_self, ptpQ_queueAnnounce_self, announcePacket_of_ptpOnly h (hseq q List.mem_cons_self),
        List.append_nil]
    · rw [ptpQ_queueAnnounce_of_ne hq]
      simp [hq]

theorem exec_announceInterval :
    exec .announceInterval s = .next (each ((List.range 256).filter fun p => masterPort p s) queueAnnounce s) := rfl

theorem exec_syncInterval_of_master {port : PortNo} (h : masterPort port.toNat s = true) : exec (.syncInterval port) s =
    .next (queuePtp 0 port.toNat (ptpHeader 0 44 (nextSeq 0 port.toNat s) port.toNat s.logSync 0 s ++ ptpTime 0) s) :=
  congrArg Host.Outcome.next (if_pos h)

theorem exec_delayReq_of_master {port : PortNo} {head : PtpHead} (requester : Nat) (h : masterPort port.toNat s = true)
    (hdom : otherDomain head s = false) : exec (.delayReq port requester head) s = .next (queuePtp 9 port.toNat
      (ptpHeader 9 54 head.seqId port.toNat s.logDelay head.correction s ++ ptpTime (rxStamp port.toNat s / 65536) ++
        beBytes 10 requester) s) :=
  congrArg Host.Outcome.next ((if_neg (by simp [hdom])).trans (if_pos h))

theorem exec_delayReqInterval_of_slave {port : PortNo} (hslave : s.time.slave = some port) (hup : s.portUp port.toNat = true) :
    exec .delayReqInterval s =
      .next (queuePtp 1 port.toNat (ptpHeader 1 44 (nextSeq 1 port.toNat s) port.toNat 127 0 s ++ ptpTime 0) s) := by
  show Host.Outcome.next _ = _
  rw [hslave]
  exact congrArg Host.Outcome.next (if_pos hup)

theorem exec_delayReq_of_otherDomain {port : PortNo} {head : PtpHead} (requester : Nat) (hup : s.portUp port.toNat = true)
    (hdom : otherDomain head s = true) : exec (.delayReq port requester head) s = .next (ptpDiscard port.toNat s) :=
  congrArg Host.Outcome.next (if_pos (by simp [hup, hdom]))

theorem exec_delayResp_of_otherDomain {port : PortNo} {head : PtpHead} (rx : Nat) (hup : s.portUp port.toNat = true)
    (hdom : otherDomain head s = true) : exec (.delayResp port rx head) s = .next (ptpDiscard port.toNat s) :=
  congrArg Host.Outcome.next (if_pos (by simp [hup, hdom]))

/-- A Delay_Resp to the outstanding Delay_Req gives the mean path delay. -/
theorem exec_delayResp_of_answer {port : PortNo} {head : PtpHead} {t1 : Int} {t2 t3 rx : Nat} (hup : s.portUp port.toNat = true)
    (hdom : otherDomain head s = false) (hsent : tget? s.time.delaySent port.toNat = some (t3, head.seqId))
    (hsync : tget? s.time.lastSync port.toNat = some (t1, t2)) : exec (.delayResp port rx head) s = .next (s.setTime fun t => { t with
      pathDelay := tset t.pathDelay port.toNat ((((t2 : Int) - t1) + ((rx * 65536 : Nat) - (t3 : Int) - head.correction.toInt)) / 2)
      delaySent := tdel t.delaySent port.toNat }) := by
  show execDelayResp port rx head s = _
  simp [execDelayResp, hup, hdom, hsent, hsync]

/-- An Announce of the domain from another clock. -/
theorem exec_announce_of_other {port : PortNo} {a : AnnounceData} (hup : s.portUp port.toNat = true)
    (hdom : a.domain = fld s.timeCfg 11 4) (hinj : timeInjectorOff s) (hsender : a.sender ≠ Config.clockIdentity) :
    exec (.announce port a) s = .next (chooseSlave (noteAnnounce port.toNat a (s.setInj fun i => { i with stepDone := false }))) := by
  show execAnnounce port a s = _
  simp [execAnnounce, hup, hdom, timeInject_off hinj, hsender]

/-- The slave port is the port of the best qualified foreign clock, unless the own one is better. -/
theorem chooseSlave_eq : chooseSlave s = s.setTime fun t => { t with slave :=
    ((bestForeign s).bind fun e => if s.gmCapable = true ∧ betterThan (ownData s) e.2 = true then none else some (BitVec.ofNat 8 e.1)) } := by
  unfold chooseSlave
  cases bestForeign s with
  | none => rfl
  | some e => simp

end Sys2Proof.Machine
end

section
/-!
SUPPORT. O27, the PTP messages of the boundary clock, settled.
-/

namespace Sys2Proof.Machine

/-- Settles O27: each PTP message is queued, taken or discarded as its sender and port allow. -/
theorem ptpMessages : Obligations.PtpMessages := by
  unfold Obligations.PtpMessages
  intro s port
  refine ⟨fun hmaster => ⟨?_, fun requester seqId corr => ?_⟩, fun hslave hup => ?_, fun t1 t2 t3 rx seqId corr hup hsent hsync => ?_,
    fun requester rx head hup hdom => ?_, fun a hup hdom hinj hsender => ?_, ?_, chooseSlave_eq⟩
  · rw [exec_syncInterval_of_master hmaster, queuePtp, Nat.mul_zero, Nat.zero_add]
    rfl
  · exact exec_delayReq_of_master requester hmaster (by simp [otherDomain])
  · exact exec_delayReqInterval_of_slave hslave hup
  · exact exec_delayResp_of_answer (head := ⟨_, seqId, corr⟩) hup (by simp [otherDomain]) hsent hsync
  · have hother : otherDomain head s = true := by simpa [otherDomain] using hdom
    exact ⟨exec_delayReq_of_otherDomain requester hup hother, exec_delayResp_of_otherDomain rx hup hother⟩
  · exact exec_announce_of_other hup hdom hinj hsender
  · refine ⟨_, exec_announceInterval, each_invariant (PtpOnly s) (fun p v h => queuePtp_ptpOnly _ _ _ h) _ rfl, fun p => ?_⟩
    rw [ptpQ_each_queueAnnounce (s := s) (v := s) _ (List.nodup_range.filter _) rfl (fun _ _ => rfl)]
    simp [p.isLt, announcePacket]

end Sys2Proof.Machine
end

section
/-!
SUPPORT. The time source (R26 to R30, R45 to R48): what a measured offset, a bad edge and a lost source leave.
-/

namespace Sys2Proof.Machine

variable {s : State}

/-! ### A measured offset -/

/-- An offset that the 32-bit register holds is stored as it is. -/
theorem satSigned_of_small {ps : Int} (h : ps.natAbs ≤ 20000) : satSigned 32 ps = ps := by
  unfold satSigned
  rw [if_neg (by omega), if_neg (by omega)]

theorem takeOffset_of_timed (ps : Int) (source : Nat) (hacc : sourceAccepted s) (h : s.time.state = .locked ∨ s.time.state = .holdover) :
    takeOffset ps source s = noteOffset (returnOffset ps (s.setTime fun t => { t with lastValid := s.clk, source := source })) := by
  rcases h with h | h <;> simp [takeOffset, hacc.1, hacc.2, h]

theorem takeOffset_of_acquire (ps : Int) (source : Nat) (hacc : sourceAccepted s) (h : s.time.state = .free ∨ s.time.state = .acquire) :
    takeOffset ps source s = acquireOffset ps (s.setTime fun t =>
      { t with state := .acquire, source := source, lastValid := s.clk, good := consecutive source s }) := by
  rcases h with h | h <;> simp [takeOffset, hacc.1, hacc.2, h]

theorem takeOffset_of_lost (ps : Int) (source : Nat) (h : s.time.state = .lost) : takeOffset ps source s = s := by
  unfold takeOffset
  rw [h]
  split <;> rfl

/-- Within 10 ns the module is LOCKED; a new LOCKED begins its count anew. -/
theorem returnOffset_near {ps : Int} (h : ps.natAbs ≤ 10000) : returnOffset ps s = s.setTime fun t => { t with
    state := .locked, offsetPs := ps, slew := none
    lockClk := if t.state = .locked then t.lockClk else s.clk
    holdOk := if t.state = .locked then t.holdOk else false } := by
  rw [returnOffset, satSigned_of_small (by omega)]
  simp only [h, if_true, lockNow, State.setTime]
  by_cases hl : s.time.state = .locked <;> simp [hl]

/-- Up to 20 ns the module slews in HOLDOVER. -/
theorem returnOffset_far {ps : Int} (h : 10000 < ps.natAbs) (h' : ps.natAbs ≤ 20000) : returnOffset ps s = s.setTime fun t => { t with
    state := .holdover, offsetPs := ps, slew := some (s.clk, ps.natAbs) } := by
  rw [returnOffset, satSigned_of_small h']
  simp only [Nat.not_le.mpr h, h', if_true, if_false]
  rfl

/-- Above 20 ns in RUN time is lost and a quench is due. -/
theorem returnOffset_lost {ps : Int} (h : 20000 < ps.natAbs) (hrun : s.boot.phase = .run) : returnOffset ps s =
    quenchDue 0x36 0 (s.setTime fun t => { t with state := .lost, offsetPs := 0, slew := none }) := by
  have h10 : ¬ ps.natAbs ≤ 10000 := by omega
  simp [returnOffset, h10, Nat.not_le.mpr h, loseTime, State.running, hrun, State.setTime]

/-- A measured offset on a state that accepts its source moves the time state by its size. -/
theorem takeOffset_taken (ps : Int) (source : Nat) (hacc : sourceAccepted s) : offsetTaken ps source s (takeOffset ps source s) := by
  refine ⟨fun hstate => ⟨fun h => ?_, fun h h' => ?_, fun h hrun => ?_⟩, fun hstate => ⟨fun h hgood => ?_, fun h hgood => ?_, fun h => ?_⟩,
    takeOffset_of_lost ps source⟩
  · rw [takeOffset_of_timed ps source hacc hstate, returnOffset_near h]
    rfl
  · rw [takeOffset_of_timed ps source hacc hstate, returnOffset_far h h']
    rfl
  · rw [takeOffset_of_timed ps source hacc hstate, returnOffset_lost h]
    · simp [noteOffset, quenchDue, State.setTime, State.setPwr]
    · exact hrun
  · rw [takeOffset_of_acquire ps source hacc hstate]
    simp [acquireOffset, h, Nat.not_le.mpr hgood, State.setTime]
  · rw [takeOffset_of_acquire ps source hacc hstate]
    by_cases hphase : s.boot.phase = .time <;> simp [acquireOffset, h, hgood, hphase, State.setTime, enterPhase]
  · rw [takeOffset_of_acquire ps source hacc hstate]
    simp [acquireOffset, Nat.not_le.mpr h, State.setTime]

/-! ### Bad edges and a lost source -/

theorem loseSource_eq : loseSource s = s.setTime fun t => withoutSource t := by
  cases h : s.time.state <;> simp [loseSource, withoutSource, State.setTime, h]

theorem badEdge_eq (h : s.timeSrc = 1) : badEdge s = s.setTime fun t => afterBadEdge t := by
  unfold badEdge afterBadEdge
  simp only [loseSource_eq]
  by_cases hbad : 2 ≤ s.time.ppsBad
  · rw [if_pos (by simpa [State.setTime] using ⟨hbad, h⟩)]
    simp [State.setTime, hbad]
  · rw [if_neg (by simpa [State.setTime] using fun h' => absurd h' hbad)]
    simp [State.setTime, hbad]

/-! ### The events -/

section
variable {port : PortNo} {head : PtpHead} {err : Int}

/-- A Sync of the domain on the slave port is measured. -/
theorem exec_sync_of_slave (origin : Nat) (hup : s.portUp port.toNat = true) (hdom : head.domain = fld s.timeCfg 11 4)
    (hinj : timeInjectorOff s) (hsrc : s.timeSrc ≠ 1) (hslave : s.time.slave = some port) (htrack : s.tracking = true) :
    exec (.sync port origin head false) s = .next (takeOffset
      (Int.tdiv ((((rxStamp port.toNat s : Nat) : Int) - ((origin * 65536 : Nat) + head.correction.toInt) -
        tget 0 s.time.pathDelay port.toNat - s.asym port.toNat) * 1000) 65536) 1
      ((s.setInj fun i => { i with stepDone := false }).setTime fun t => { t with
        lastSync := tset t.lastSync port.toNat ((origin * 65536 : Nat) + head.correction.toInt, rxStamp port.toNat s) })) := by
  have hsrc' : (s.setInj fun i => { i with stepDone := false }).timeSrc ≠ 1 := hsrc
  have htrack' : (s.setInj fun i => { i with stepDone := false }).tracking = true := htrack
  show execSync port origin head false s = _
  simp only [execSync, hup, otherDomain, hdom, timeInject_off hinj]
  rw [if_neg (by decide), if_neg (by simp), if_neg (by simp [hsrc', htrack', hslave])]
  rw [Int.add_zero]
  rfl

/-- A two-step Sync, or one of another domain, is discarded and counted. -/
theorem exec_sync_of_other (origin : Nat) {twoStep : Bool} (hup : s.portUp port.toNat = true)
    (h : twoStep = true ∨ head.domain ≠ fld s.timeCfg 11 4) :
    exec (.sync port origin head twoStep) s = .next (ptpDiscard port.toNat s) := by
  show execSync port origin head twoStep s = _
  rw [execSync, hup, if_neg (by decide), if_pos (by simpa [otherDomain] using h)]

/-- With 1 PPS as the source an edge is judged after the injector. -/
theorem exec_ppsEdge_of_source (hinj : timeInjectorOff s) (hon : s.pwr.mainOn = true) (htrack : s.tracking = true)
    (hsrc : s.timeSrc = 1) : exec (.ppsEdge err) s =
      if s.time.state = .free then
        .next (match s.chain.nextSecond with
          | none => s.setInj fun i => { i with stepDone := false }
          | some sec => (s.setInj fun i => { i with stepDone := false }).setTime fun t =>
              { t with state := .acquire, source := 2, now := sec * 9000000000, lastValid := s.clk, good := 1 })
      else if 1000000 < err.natAbs then
        .next (badEdge ((s.setInj fun i => { i with stepDone := false }).setTime fun t => { t with ppsRejected := t.ppsRejected + 1 }))
      else .next (takeOffset err 2 ((s.setInj fun i => { i with stepDone := false }).setTime fun t => { t with ppsBad := 0 })) := by
  show execPpsEdge err s = _
  simp only [execPpsEdge, hon, htrack, hsrc, timeInject_off hinj]
  rw [if_neg (by decide), if_neg (by decide), if_neg (by decide), if_neg (by decide), Int.add_zero]
  rfl

/-- Beside PTP an edge is only compared. -/
theorem exec_ppsEdge_of_compare (hon : s.pwr.mainOn = true) (htrack : s.tracking = true) (hsrc : s.timeSrc = 2) :
    exec (.ppsEdge err) s = .next (s.setTime fun t => { t with ppsFar := if 100000 < err.natAbs then t.ppsFar + 1 else t.ppsFar }) := by
  show execPpsEdge err s = _
  simp only [execPpsEdge, hon, htrack, hsrc]
  rw [if_neg (by decide), if_pos trivial]
  by_cases h : 100000 < err.natAbs <;> simp [h, State.setTime]

theorem exec_ppsMissing_of_source (hon : s.pwr.mainOn = true) (hsrc : s.timeSrc = 1) :
    exec .ppsMissing s = .next (s.setTime fun t => afterBadEdge t) := by
  rw [← badEdge_eq hsrc]
  exact congrArg Host.Outcome.next (if_pos (by simp [hon, hsrc]))

/-- A lost source puts a LOCKED module into HOLDOVER. -/
theorem loseSource_of_locked (h : s.time.state = .locked) : loseSource s = s.setTime fun t => { t with state := .holdover } := by
  rw [loseSource_eq]
  simp only [withoutSource, State.setTime, h]

theorem exec_announceReceiptTimeout_of_late {p : PortNo} (hsrc : s.timeSrc ≠ 1) (hlock : s.time.state = .locked)
    (hslave : s.time.slave = some p) (hlate : announceLate s p.toNat = true) :
    exec .announceReceiptTimeout s = .next (chooseSlave ((s.setTime fun t => { t with state := .holdover }).setTime fun t =>
      { t with foreign := tdel t.foreign p.toNat, announceClks := tdel t.announceClks p.toNat })) := by
  show execAnnounceReceiptTimeout s = _
  simp only [execAnnounceReceiptTimeout, hslave, hlate, if_true]
  rw [if_pos (by simpa using hsrc), loseSource_of_locked hlock]

/-- In RUN the holdover limit makes a quench due once. -/
theorem exec_holdoverLimit_of_reached (hlim : s.limitReached = true) (hhit : s.job.limitHit = false) (hrun : s.boot.phase = .run) :
    exec .holdoverLimit s = .next (quenchDue 0x35 0 (s.setJob fun j => { j with limitHit := true })) := by
  show execHoldoverLimit s = _
  rw [execHoldoverLimit, if_pos (by simp [hlim, hhit])]
  exact congrArg Host.Outcome.next (if_pos (by simp [State.running, State.setJob, hrun]))

/-- A mark that falls in this clk is output for its length. -/
theorem exec_timeOutMark_of_falls (hon : s.pwr.mainOn = true) (htimed : s.time.state = .locked ∨ s.time.state = .holdover)
    (hfalls : markFalls s = true) :
    exec .timeOutMark s = .next (s.setPwr fun p => { p with timeOut := true, markEnd := s.clk + markClk s }) :=
  congrArg Host.Outcome.next (if_pos (by simpa [hon, State.timed, hfalls] using htimed))

end

end Sys2Proof.Machine
end

section
/-!
SUPPORT. O26, the time source's events, settled.
-/

namespace Sys2Proof.Machine

/-- Settles O26: a measured offset moves the time state by its size, and each loss or mark does what its rule says. -/
theorem timeSourceEvents : Obligations.TimeSourceEvents := by
  unfold Obligations.TimeSourceEvents
  refine ⟨fun s hinj htrack hacc => ⟨fun port origin head hup => ⟨fun hdom hsrc hslave => ?_, fun twoStep h => ?_⟩,
      fun err hon hsrc => ⟨fun hfree hnear => ?_, fun hfree hfar => ?_, fun sec hfree hsec => ?_⟩, fun err hon hsrc => ?_⟩,
    fun s => ⟨exec_ppsMissing_of_source, fun hsrc hlock hloss => ?_, fun p => exec_announceReceiptTimeout_of_late,
      exec_holdoverLimit_of_reached, fun hlock hclk => ?_,
      fun hon htimed => ⟨fun hmode hsec => ?_, fun hmode hrun hclk => ?_⟩, fun h => ?_, fun h => ?_⟩⟩
  · exact ⟨_, exec_sync_of_slave origin hup hdom hinj hsrc hslave htrack, takeOffset_taken _ _ hacc⟩
  · exact exec_sync_of_other origin hup h
  · rw [exec_ppsEdge_of_source hinj hon htrack hsrc, if_neg hfree, if_neg (Nat.not_lt.mpr hnear)]
    exact ⟨_, rfl, takeOffset_taken _ _ hacc⟩
  · rw [exec_ppsEdge_of_source hinj hon htrack hsrc, if_neg hfree, if_pos hfar]
    exact congrArg Host.Outcome.next (badEdge_eq hsrc)
  · rw [exec_ppsEdge_of_source hinj hon htrack hsrc, if_pos hfree, hsec]
    rfl
  · exact exec_ppsEdge_of_compare hon htrack hsrc
  · exact congrArg Host.Outcome.next ((if_pos (by simp [hsrc, hloss])).trans (loseSource_of_locked hlock))
  · exact congrArg Host.Outcome.next (if_pos (by simp [hlock, hclk]))
  · rw [exec_timeOutMark_of_falls hon htimed (by simp [markFalls, hmode, secondBegins, hsec]), markClk, if_pos hmode]
    rfl
  · rw [exec_timeOutMark_of_falls hon htimed (by simp [markFalls, hmode, State.running, hrun, State.pourOff, hclk]), markClk,
      if_neg (by simp [hmode])]
    rfl
  · exact congrArg Host.Outcome.next (if_pos (by simpa using h))
  · exact congrArg Host.Outcome.next (if_neg (by simpa using h))

end Sys2Proof.Machine
end

section
/-!
SUPPORT. The first phases of start-up (R94 to R100, R112): the failure exit, a change the self-test closes, an image put in its places.
-/

namespace Sys2Proof.Machine

variable {s v : State}

/-- A step of start-up in its own phase. -/
theorem inPhase_of_phase {p : Phase} (f : State → State) (h : s.boot.phase = p) : inPhase p f s = .next (f s) :=
  congrArg Host.Outcome.next (if_pos h)

/-- The failure exit leaves its cause, the failed phase, and darkness. -/
theorem failExit_fails (code unit : Nat) (s : State) : failsWith code unit s (failExit code unit s) := by
  unfold failsWith failExit recordCause enterPhase State.emit
  split <;> split <;> simp_all

/-! ### SELFTEST -/

/-- Closing a record keeps it with its setting when it was blown, else without. -/
theorem closeChange_fuse {r : FuseRecord} (blown : Bool) (h : s.fuse.opened = some r) : (closeChange blown s).fuse =
    { (if blown then blow r s else s).fuse with
      opened := none, busy := false
      records := (if blown then blow r s else s).fuse.records ++ [if blown then r else { r with setting := 0 }] } := by
  simp only [closeChange, h]
  rfl

theorem closeChange_of_closed (blown : Bool) (h : s.fuse.opened = none) : closeChange blown s = s := by
  simp only [closeChange, h]

theorem settleChange_of_closed (blown : Bool) (h : s.fuse.opened = none) : settleChange blown s = s := by
  rw [settleChange, closeChange_of_closed blown h]
  exact ite_self s

theorem blow_records (r : FuseRecord) (s : State) : (blow r s).fuse.records = s.fuse.records := by
  unfold blow
  split <;> rfl

/-- The self-test that finds no fault goes on to IMAGE with cleared memories. -/
theorem selftest_passes (blown : Bool) (s : State) : selftest none none blown s = beginImage (zeroMemories (settleChange blown s)) := rfl

theorem beginImage_fuse : (beginImage (zeroMemories s)).fuse = s.fuse := rfl

/-! ### IMAGE -/

/-- The slot codes after the verification of a slot. -/
theorem setSlotCode_eq (slot : Bool) (code : Nat) : setSlotCode slot code s = s.setBoot fun b => { b with
    slotACode := if slot then b.slotACode else code, slotBCode := if slot then code else b.slotBCode } := by
  cases slot <;> rfl

theorem setSlotCode_fuse (slot : Bool) (code : Nat) : (setSlotCode slot code s).fuse = s.fuse := by
  rw [setSlotCode_eq]
  rfl

theorem setSlotCode_triedOne (slot : Bool) (code : Nat) : (setSlotCode slot code s).boot.triedOne = s.boot.triedOne := by
  rw [setSlotCode_eq]
  rfl

theorem exec_imageVerified {slot : Bool} (readOk : Bool) (hphase : s.boot.phase = .image) (htry : s.boot.trying = some slot) :
    exec (.imageVerified readOk) s = .next (verified readOk slot s) := by
  show execImageVerified readOk s = _
  rw [execImageVerified, inPhase_of_phase _ hphase, htry]

/-- A slot that passes goes to LOAD and is measured. -/
theorem verified_of_passes {readOk slot : Bool} (h : verifySlot readOk slot s = 0) :
    verified readOk slot s = takeImage slot (setSlotCode slot 0 s) := by
  unfold verified
  rw [h]
  exact if_pos rfl

/-- A slot that fails first leads to the other slot. -/
theorem verified_of_other {readOk slot : Bool} (h : verifySlot readOk slot s ≠ 0) (hlock : s.fuse.lock < 2)
    (hone : s.boot.triedOne = false) : verified readOk slot s =
      (setSlotCode slot (verifySlot readOk slot s) s).setBoot fun b => { b with trying := some (!slot), triedOne := true } := by
  unfold verified
  exact (if_neg h).trans (if_neg (by simp [setSlotCode_fuse, setSlotCode_triedOne, hone, hlock]))

/-- With no slot left, start-up fails. -/
theorem verified_of_none {readOk slot : Bool} (h : verifySlot readOk slot s ≠ 0) (hlast : 2 ≤ s.fuse.lock ∨ s.boot.triedOne = true) :
    verified readOk slot s = failExit 0x16 (if slot then 1 else 0) (setSlotCode slot (verifySlot readOk slot s) s) := by
  unfold verified
  exact (if_neg h).trans (if_pos (by simpa [setSlotCode_fuse, setSlotCode_triedOne] using hlast))

/-- The failure exit changes the boot state and the lines alone. -/
theorem failExit_rest (code unit : Nat) (s : State) :
    failExit code unit s = { s with boot := (failExit code unit s).boot, out := .dark :: s.out } := by
  have h : failExit code unit s = _ := failExit_fails code unit s
  rw [h]

theorem failExit_phase (code unit : Nat) (s : State) : (failExit code unit s).boot.phase = .failed := by
  have h : failExit code unit s = _ := failExit_fails code unit s
  rw [h]

/-- The first cause is recorded. -/
theorem failExit_faultCode (code unit : Nat) (h : s.boot.faultCode = 0) : (failExit code unit s).boot.faultCode = code := by
  have hfail : failExit code unit s = _ := failExit_fails code unit s
  rw [hfail]
  simp [recordCause, h]

/-! ### LOAD -/

/-- States that differ in what stations and ports hold. -/
def Places (s v : State) : Prop := v = { s with stations := v.stations, ports := v.ports }

theorem placeStation_places (g : Img) (a : Nat) (h : Places s v) : Places s (placeStation g a v) := by
  have h' : v = { s with stations := v.stations, ports := v.ports } := h
  rw [h']
  rfl

theorem placePort_places (p : Nat) (h : Places s v) : Places s (placePort p v) := by
  have h' : v = { s with stations := v.stations, ports := v.ports } := h
  rw [h']
  rfl

/-- The image's words, its heat and its shadow in force, before the programs and gate lists are placed. -/
def configured (g : Img) (s : State) : State :=
  { s with
    cfg := imageConfig g
    boot := { s.boot with shadow := imageConfig g, imageOk := true }
    job := { s.job with heat := fld (({ s with cfg := imageConfig g } : State).cfgw 0x508) 47 0 }
    ledger := { s.ledger with
      spareActive := ({ s with cfg := imageConfig g } : State).cfgw 0x2_0100
      sparePending := ({ s with cfg := imageConfig g } : State).cfgw 0x2_0108 } }

/-- The programs and the gate lists in their places. -/
def programsPlaced (g : Img) (s : State) : State := each g.ports placePort (each g.stations (placeStation g) s)

theorem placeImage_eq (g : Img) (s : State) : placeImage g s = measurePrograms g (programsPlaced g (configured g s)) := rfl

theorem programsPlaced_places (g : Img) (s : State) : Places s (programsPlaced g s) :=
  each_invariant (Places s) (fun p _ => placePort_places p) _ (each_invariant (Places s) (fun a _ => placeStation_places g a) _ rfl)

/-- A placed image leaves everything outside its own places. -/
theorem placeImage_rest (g : Img) (s : State) : placeImage g s = { configured g s with
    stations := (placeImage g s).stations, ports := (placeImage g s).ports, host := (placeImage g s).host } := by
  have h : programsPlaced g (configured g s) = _ := programsPlaced_places g (configured g s)
  rw [placeImage_eq, h]
  rfl

theorem exec_loadChecks (h : s.boot.phase = .load) : exec .loadChecks s = .next (load s) := inPhase_of_phase load h

theorem load_of_fault {c u : Nat} (h : loadFault (loadWords s) s = some (c, u)) : load s = failExit c u s := by
  simp only [load, h]

theorem load_of_sound {xs : List Section} (h : loadFault (loadWords s) s = none) (hxs : sectionsOf (loadWords s) = .ok xs) :
    load s = enterPhase .hbm (placeImage (Img.of xs s) s) := by
  simp only [load, h, hxs]

end Sys2Proof.Machine
end

section
/-!
SUPPORT. O24, the start-up checks, settled.
-/

namespace Sys2Proof.Machine

/-- Settles O24: each phase of start-up up to HBM goes on, falls back or fails as its check says. -/
theorem startUpChecks : Obligations.StartUpChecks := by
  unfold Obligations.StartUpChecks
  refine ⟨fun s => ⟨fun hpower => ⟨?_, fun rail => ?_⟩,
      fun hself => ⟨fun w sram blown => ?_, fun hopen blown => ⟨fun u => ?_, ?_⟩, fun r blown hopen hbusy => ?_⟩, ?_⟩,
    fun s => ⟨fun readOk slot himage htry => ⟨fun hpass => ?_, fun hbad hlock hone => ?_, fun hbad hlast => ?_⟩,
      fun hload => ⟨fun c u hfault => ?_, fun xs hsound hxs => ?_⟩⟩⟩
  · exact inPhase_of_phase _ hpower
  · exact ⟨_, inPhase_of_phase _ hpower, failExit_fails ..⟩
  · exact ⟨_, inPhase_of_phase _ hself, failExit_fails ..⟩
  · refine ⟨_, inPhase_of_phase _ hself, ?_⟩
    show failsWith _ _ _ (failExit 0x09 u.toNat (settleChange blown s))
    rw [settleChange_of_closed blown hopen]
    exact failExit_fails ..
  · refine (inPhase_of_phase _ hself).trans ?_
    rw [selftest_passes, settleChange_of_closed blown hopen]
    rfl
  · refine ⟨_, inPhase_of_phase _ hself, ?_⟩
    have hclose : settleChange blown s = closeChange blown s := if_neg (by simp [hbusy])
    rw [selftest_passes, hclose]
    refine ⟨rfl, ?_⟩
    rw [beginImage_fuse, closeChange_fuse blown hopen]
    cases blown
    · exact ⟨rfl, rfl, fun _ => rfl⟩
    · exact ⟨rfl, congrArg (· ++ [r]) (blow_records r s), fun h => absurd h (by decide)⟩
  · unfold preferredSlot
    cases s.boot.preferOnce <;> rfl
  · rw [exec_imageVerified readOk himage htry, verified_of_passes hpass, setSlotCode_eq]
    exact ⟨_, rfl, rfl, rfl, rfl⟩
  · rw [exec_imageVerified readOk himage htry, verified_of_other hbad hlock hone, setSlotCode_eq]
    rfl
  · rw [exec_imageVerified readOk himage htry, verified_of_none hbad hlast, setSlotCode_eq]
    exact ⟨_, rfl, failExit_phase .., fun h => failExit_faultCode _ _ h, failExit_rest ..⟩
  · rw [exec_loadChecks hload, load_of_fault hfault]
    exact ⟨_, rfl, failExit_fails ..⟩
  · rw [exec_loadChecks hload, load_of_sound hsound hxs, placeImage_rest]
    exact ⟨_, rfl, rfl, rfl, rfl, rfl⟩

end Sys2Proof.Machine
end

section
/-!
SUPPORT. The memory phase, the link and time phases, and the start of RUN (R38, R101 to R106, R354).
-/

namespace Sys2Proof.Machine

variable {s v : State}

/-! ### HBM -/

/-- The ring's cells lie below four bytes for each of its places. -/
theorem cellGet_ringCells {b n a : Nat} (h : 4 * n ≤ a) : cellGet (ringCells b n) a = 0 := by
  have hnone : (ringCells b n).find? (fun e => e.1 == a) = none := by
    rw [List.find?_eq_none]
    intro e he hea
    obtain ⟨hmem, -⟩ := List.mem_filter.mp he
    obtain ⟨i, hi, hcell⟩ := List.mem_flatMap.mp hmem
    obtain ⟨c, hc, rfl⟩ := List.mem_map.mp hcell
    have hi' : i < n := List.mem_range.mp hi
    have hc' : c.1 < 4 := List.mem_range.mp (List.of_mem_zip hc).1
    have heq : 4 * i + c.1 = a := by simpa using hea
    omega
  unfold cellGet tget
  rw [hnone]

/-- HBM training makes one stack ready. -/
def readyStack (repaired : List Nat) (k : Nat) (s : State) : State :=
  s.setStack k fun x => { x with ready := true, repaired := min (repaired.getD k 0) 255 }

/-- A stack is ready with its repairs. -/
def StackReady (repaired : List Nat) (k : Nat) (s : State) : Prop :=
  (s.stack k).ready = true ∧ (s.stack k).repaired = min (repaired.getD k 0) 255

theorem readyStack_ready (repaired : List Nat) (k : Nat) (s : State) : StackReady repaired k (readyStack repaired k s) := by
  rw [StackReady, readyStack, State.setStack_stack]
  exact ⟨rfl, rfl⟩

theorem readyStack_keeps_ready {repaired : List Nat} {k : Nat} (j : Nat) (h : StackReady repaired k v) :
    StackReady repaired k (readyStack repaired j v) := by
  by_cases hkj : k = j
  · subst hkj
    exact readyStack_ready repaired k v
  · unfold StackReady readyStack
    rw [State.setStack_stack_ne (h := hkj)]
    exact h

theorem each_readyStack_ready (repaired : List Nat) {k : Nat} {l : List Nat} (hk : k ∈ l) :
    StackReady repaired k (each l (readyStack repaired) v) := by
  obtain ⟨l₁, l₂, rfl⟩ := List.append_of_mem hk
  have hsplit : each (l₁ ++ k :: l₂) (readyStack repaired) v =
      each l₂ (readyStack repaired) (readyStack repaired k (each l₁ (readyStack repaired) v)) := by
    simp [each, List.foldl_append]
  rw [hsplit]
  exact each_invariant _ (fun j _ => readyStack_keeps_ready j) l₂ (readyStack_ready ..)

/-- States that differ in the stacks' registers alone. -/
def RegsOnly (s v : State) : Prop := v = { s with mem := { s.mem with regs := v.mem.regs } }

theorem readyStack_regsOnly (repaired : List Nat) (k : Nat) (h : RegsOnly s v) : RegsOnly s (readyStack repaired k v) := by
  have h' : v = { s with mem := { s.mem with regs := v.mem.regs } } := h
  rw [h']
  rfl

/-- The memory as training leaves it. -/
def blankMemory (s : State) : State := s.setMem fun m => { m with cells := [], errors := [], lost := [] }

theorem clearStacks_eq (repaired : List Nat) :
    clearStacks repaired s = each ((List.range 8).filter s.stackPresent) (readyStack repaired) (blankMemory s) := rfl

/-- Training leaves everything but the memory. -/
theorem clearStacks_rest (repaired : List Nat) :
    clearStacks repaired s = { s with mem := { (blankMemory s).mem with regs := (clearStacks repaired s).mem.regs } } := by
  have h : RegsOnly (blankMemory s) (clearStacks repaired s) :=
    each_invariant (RegsOnly (blankMemory s)) (fun k _ => readyStack_regsOnly repaired k) _ rfl
  exact h

theorem clearStacks_ready (repaired : List Nat) {k : Nat} (hk : k < 8) (hpresent : s.stackPresent k = true) :
    StackReady repaired k (clearStacks repaired s) := by
  rw [clearStacks_eq]
  exact each_readyStack_ready repaired (List.mem_filter.mpr ⟨List.mem_range.mpr hk, hpresent⟩)

/-- Blocks that the free store may hand out. -/
def freeBlocks (s : State) : Nat := 49152 - fld (poolCfg s) 15 0

/-- The free store of a trained memory: its first blocks cached, the others in the ring. -/
theorem fillFreeStore_eq : fillFreeStore s = { s with
    fab := { s.fab with
      cache := (List.range (min 2048 (freeBlocks s))).map (fld (poolCfg s) 15 0 + ·)
      ringHead := 0
      ringCount := freeBlocks s - min 2048 (freeBlocks s) }
    mem := { s.mem with
      cells := ringCells (fld (poolCfg s) 15 0 + min 2048 (freeBlocks s)) (freeBlocks s - min 2048 (freeBlocks s)) } } := rfl

/-- HBM done: the state in which the ports begin to train. -/
def memoryReady (repaired : List Nat) (s : State) : State :=
  (enterPhase .link (fillFreeStore (clearStacks repaired s))).setBoot fun b => { b with linkKeyset := s.fuse.keyset }

theorem poolCfg_clearStacks (repaired : List Nat) : poolCfg (clearStacks repaired s) = poolCfg s := by
  rw [clearStacks_rest]
  rfl

theorem freeBlocks_clearStacks (repaired : List Nat) : freeBlocks (clearStacks repaired s) = freeBlocks s := by
  rw [freeBlocks, poolCfg_clearStacks, freeBlocks]

theorem memoryReady_eq (repaired : List Nat) : memoryReady repaired s = { s with
    boot := { s.boot with phase := .link, linkKeyset := s.fuse.keyset }
    fab := { s.fab with
      cache := (List.range (min 2048 (freeBlocks s))).map (fld (poolCfg s) 15 0 + ·)
      ringHead := 0
      ringCount := freeBlocks s - min 2048 (freeBlocks s) }
    mem := { (blankMemory s).mem with
      regs := (clearStacks repaired s).mem.regs
      cells := ringCells (fld (poolCfg s) 15 0 + min 2048 (freeBlocks s)) (freeBlocks s - min 2048 (freeBlocks s)) } } := by
  rw [memoryReady, fillFreeStore_eq, poolCfg_clearStacks, freeBlocks_clearStacks, clearStacks_rest]
  rfl

theorem memoryReady_stackReady (repaired : List Nat) {k : Nat} (hk : k < 8) (hpresent : s.stackPresent k = true) :
    StackReady repaired k (memoryReady repaired s) := by
  rw [memoryReady_eq]
  exact clearStacks_ready repaired hk hpresent

/-- With no present stack failed the ports begin to train. -/
theorem hbmReady_of_good {failed : Option (Fin 8)} (repaired : List Nat) (h : ∀ k, failed = some k → s.stackPresent k = false) :
    hbmReady repaired failed s =
      each ((List.range 256).filter (memoryReady repaired s).portEnabled) startTraining (memoryReady repaired s) := by
  have hnone : (failed.filter fun k => s.stackPresent k.val) = none := by
    cases failed with
    | none => rfl
    | some k => simp [Option.filter, h k rfl]
  unfold hbmReady
  rw [hnone]
  rfl

theorem hbmReady_of_failed {k : Fin 8} (repaired : List Nat) (h : s.stackPresent k = true) :
    hbmReady repaired (some k) s = failExit 0x18 k s := by
  simp [hbmReady, Option.filter, h]

/-! ### LINK and TIME -/

theorem exec_linkPortsUp (h : s.boot.phase = .link) :
    exec .linkPortsUp s = .next (if (requiredDown s).isEmpty then enterPhase .time s else s) := inPhase_of_phase _ h

theorem exec_linkTimeout_of_down {p : Nat} {ps : List Nat} (h : s.boot.phase = .link) (hdown : requiredDown s = p :: ps) :
    exec .linkTimeout s = .next (failExit 0x1A p s) := by
  show execLinkTimeout s = _
  rw [execLinkTimeout, inPhase_of_phase _ h, hdown]

theorem exec_timeAcquire (h : s.boot.phase = .time) :
    exec .timeAcquire s = .next (if s.time.state = .locked then s else failExit 0x38 0 s) :=
  inPhase_of_phase (fun s => if s.time.state = .locked then s else failExit 0x38 0 s) h

/-! ### EPOCH -/

/-- A port's shaping begins anew. -/
def startPortOf (p : Nat) (s : State) : State := s.setPort p (startPort s p)

/-- The flowlets of the fabric begin anew. -/
def freshFlowlets (s : State) : State :=
  s.setFab fun f => { f with flowClk := 0, flowlets := f.flowlets.map fun e => (e.1, { e.2 with valid := false }) }

/-- A policer begins full. -/
def startPolicer (k : Nat) (s : State) : State := s.setPolicer k fun x => { x with tokens := 1024 * fld (polCfg s k) 27 0 }

theorem startPolicers_eq : startPolicers s = each (tableRows s 7 0 0x1000 32 (fun _ => true)) startPolicer s := rfl

/-- Ports and policers as a run begins them. -/
def shapersStarted (s : State) : State := startPolicers (each ((List.range 256).filter s.portEnabled) startPortOf s)

theorem replayMode_of_cfg (h : v.cfg = s.cfg) : v.replayMode = s.replayMode := by
  unfold State.replayMode State.ledgerCfg State.cfgw
  rw [h]

theorem shapersStarted_cfg (s : State) : (shapersStarted s).cfg = s.cfg := by
  have hports : (each ((List.range 256).filter s.portEnabled) startPortOf s).cfg = s.cfg :=
    each_invariant (f := startPortOf) (fun v => v.cfg = s.cfg) (fun _ _ h => h) _ rfl
  rw [shapersStarted, startPolicers_eq]
  exact each_invariant (f := startPolicer) (fun v => v.cfg = s.cfg) (fun _ _ h => h) _ hports

/-- The first pour of a run. -/
theorem firstPourOfRun_eq : firstPourOfRun s = startPour (startSlot [] (fixArmed (takeViews (freshSlot (firstHeat
    ((shapersStarted (freshFlowlets s)).setCap fun c => { c with replayActive := s.replayMode })))))) := by
  have hmode : (shapersStarted (freshFlowlets s)).replayMode = s.replayMode := replayMode_of_cfg (shapersStarted_cfg (freshFlowlets s))
  rw [← hmode]
  rfl

/-- RUN begins at E0 with its first pour, or with a quench that is due. -/
theorem enterRun_of_held (hlim : s.limitReached = false) :
    enterRun s = if s.job.quenchDue.isEmpty then firstPourOfRun (runBegun s) else quenchNow (runBegun s) := by
  have hlim' : (runBegun s).limitReached = false := hlim
  have hrun : enterRun s = (fun u : State => if u.job.quenchDue.isEmpty then firstPourOfRun u else quenchNow u)
      (if (runBegun s).limitReached then loseTime 0x35 (runBegun s) else runBegun s) := rfl
  rw [hrun, hlim', if_neg Bool.false_ne_true]
  rfl

theorem exec_epochStart_of_due (hphase : s.boot.phase = .epoch) (hjob : s.job.jobState = .armed ∨ s.job.jobState = .fixed)
    (hdue : 9 * s.job.e0 ≤ s.time.now) : exec .epochStart s = .next (enterRun s) := by
  have hheld : held s.job.jobState = true := by rcases hjob with h | h <;> rw [h] <;> rfl
  exact congrArg Host.Outcome.next (if_pos (by simp [hphase, hheld, hdue]))

end Sys2Proof.Machine
end

section
/-!
SUPPORT. O25, memory, links and the epoch, settled.
-/

namespace Sys2Proof.Machine

/-- Settles O25: memory ready, links up, time acquired and the epoch reached each begin the next phase or fail. -/
theorem memoryLinksAndEpoch : Obligations.MemoryLinksAndEpoch := by
  unfold Obligations.MemoryLinksAndEpoch
  intro s
  refine ⟨fun hhbm repaired => ⟨fun failed hgood => ?_, fun k hk => ?_⟩, fun hlink => ⟨fun hup => ?_, fun p ps hdown => ?_⟩,
    fun htime => ⟨fun hlock => ?_, fun hlock => ?_⟩, fun hepoch hjob hdue hlim => ⟨fun hquiet => ?_, fun hquench => ?_⟩⟩
  · refine ⟨memoryReady repaired s, (inPhase_of_phase _ hhbm).trans (congrArg Host.Outcome.next (hbmReady_of_good repaired hgood)), ?_, ?_, ?_,
      fun k hk hpresent => memoryReady_stackReady repaired hk hpresent, fun a ha => ?_, ?_, ?_⟩
    · rw [memoryReady_eq]
    · rw [memoryReady_eq]
      rfl
    · rw [memoryReady_eq]
      rfl
    · rw [memoryReady_eq]
      exact cellGet_ringCells (by unfold freeBlocks; omega)
    · rw [memoryReady_eq]
      rfl
    · rw [memoryReady_eq]
  · exact ⟨_, (inPhase_of_phase _ hhbm).trans (congrArg Host.Outcome.next (hbmReady_of_failed repaired hk)), failExit_fails ..⟩
  · rw [exec_linkPortsUp hlink, hup]
    rfl
  · refine ⟨?_, _, exec_linkTimeout_of_down hlink hdown, failExit_fails ..⟩
    rw [exec_linkPortsUp hlink, hdown]
    rfl
  · rw [exec_timeAcquire htime, if_neg hlock]
    exact ⟨_, rfl, failExit_fails ..⟩
  · rw [exec_timeAcquire htime, if_pos hlock]
  · rw [exec_epochStart_of_due hepoch hjob hdue, enterRun_of_held hlim, hquiet, if_pos List.isEmpty_nil, firstPourOfRun_eq]
    rfl
  · rw [exec_epochStart_of_due hepoch hjob hdue, enterRun_of_held hlim, if_neg (by simpa using hquench)]

end Sys2Proof.Machine
end
